-- ==== Sys2Proof/Word.lean ====
section
/-!
DEFINITION. The words of the block and the operands of its commands: indexes of its units, and what
a frame, a packet, a datagram, a sensor reading or a self-test outcome carries when it reaches the block.
-/

namespace Sys2Proof

abbrev Word := BitVec 64
abbrev Byte := BitVec 8
/-- A local address (R203). -/
abbrev LAddr := BitVec 48
/-- A device address, x in [14:10], y in [9:5], z in [4:0] (R205). -/
abbrev DevAddr := BitVec 15

abbrev CoreId := Fin 128
abbrev StrandId := Fin 2
abbrev LastId := Fin 8
abbrev ArrayId := Fin 4
/-- 0 is the upper half, rows 0 to 31; 1 the lower (R79). -/
abbrev HalfId := Fin 2
abbrev TileId := Fin 4
abbrev DieId := Fin 2
abbrev TallyId := Fin 64
abbrev SdId := Fin 32
abbrev FhId := Fin 16
abbrev QueueId := Fin 32
abbrev LinkId := Fin 12
abbrev KeyId := Fin 64
abbrev ChanId := Fin 4
abbrev CtlId := Fin 2
abbrev GateId := Fin 2
abbrev StackId := Fin 8
abbrev StandId := Fin 8

/-- A hod: H0 or H1 of a core, or a fabric hod (R222, R235). -/
inductive HodRef where
  | core (c : CoreId) (h : Fin 2)
  | fab (n : FhId)
  deriving DecidableEq, Repr

/-- The registers of R243. -/
inductive QueReg where
  | cfg
  | ring
  | note
  deriving DecidableEq, Repr

/-- A save area: that of one last, or the module's checkpoint (R297). -/
inductive SaveScope where
  | last (l : LastId)
  | module
  deriving DecidableEq, Repr

/-- An Ethernet port: control (R303) or gate (R314). -/
inductive EthPort where
  | ctl (p : CtlId)
  | gate (g : GateId)
  deriving DecidableEq, Repr

/-- A counter page (R378). -/
inductive CntPage where
  | core (c : CoreId)
  | hub
  | aon
  deriving DecidableEq, Repr

/-- A power domain that changes state (Table 12.2); the always-on domain never does. -/
inductive Dom where
  | ctl1
  | hub
  | die (d : DieId)
  | core (c : CoreId)
  | stack (m : StackId)
  | link (l : LinkId)
  | gate (g : GateId)
  deriving DecidableEq, Repr

/-- A UDP datagram at a control port. `sound` says that its IP and UDP checksums hold and that it is no
fragment and carries no IPv4 options (R303); `vid` is its VLAN ID, 0 when untagged; `rtag` its 802.1CB tag. -/
structure Datagram where
  src : BitVec 128
  sport : BitVec 16
  dport : BitVec 16
  mac : BitVec 48
  vid : BitVec 12
  rtag : Option (BitVec 16)
  sound : Bool
  payload : List Byte
  deriving DecidableEq, Repr

/-- A frame carrying NBP at a gate port. `sound` says that its address and its checksums are right (R314, R315). -/
structure NbpFrame where
  dport : BitVec 16
  sound : Bool
  payload : List Byte
  deriving DecidableEq, Repr

/-- What an Ethernet frame carries beside its message (R304): source MAC address, VLAN ID, 0 when untagged, 802.1CB tag. -/
structure EthTag where
  mac : BitVec 48
  vid : BitVec 12
  rtag : Option (BitVec 16)
  deriving DecidableEq, Repr

/-- A message with what its frame carries beside it. -/
structure Framed (α : Type) where
  tag : EthTag
  msg : α
  deriving DecidableEq, Repr

/-- An ARP request (R303). -/
structure ArpMsg where
  senderMac : BitVec 48
  senderIp : BitVec 32
  targetIp : BitVec 32
  deriving DecidableEq, Repr

/-- A neighbour solicitation (R303). -/
structure NdpMsg where
  senderMac : BitVec 48
  senderIp : BitVec 128
  targetIp : BitVec 128
  deriving DecidableEq, Repr

/-- An ICMP echo request; IPv4 addresses as ::ffff:a.b.c.d (R303). -/
structure EchoMsg where
  senderIp : BitVec 128
  targetIp : BitVec 128
  sound : Bool
  data : List Byte
  deriving DecidableEq, Repr

/-- A packet: the fields of its header flit (Table 9.4) and its data bytes. -/
structure Packet where
  type : Nat
  cls : Nat
  dl : Bool
  pool : Bool
  src : DevAddr
  dst : BitVec 15
  mc : Bool
  len : BitVec 12
  addr : LAddr
  tag : BitVec 16
  status : Byte
  issuer : DevAddr
  cid : BitVec 16
  operand : Word
  /-- colhdr: element offset, tree level, compressed, rescue. -/
  colOff : BitVec 32
  colLevel : Byte
  compressed : Bool
  rescue : Bool
  data : List Byte
  /-- Not in the header: the link it came in on, none for a packet of this module, the bytes of its data written so far, and the port that
  a copy of a multicast write is for (R263). -/
  via : Option LinkId := none
  done : Nat := 0
  copyTo : Option LinkId := none
  deriving DecidableEq, Repr

/-- A time flit (Table 9.15). -/
structure TimeFlit where
  tTx : Word
  tRx : Word
  tPeer : Word
  acq : Bool
  deriving DecidableEq, Repr

/-- What a slot of a frame holds (Table 9.3): nothing, a header flit (its packet without data), a data flit, a time flit. -/
inductive Flit where
  | idle
  | header (p : Packet)
  | data (bytes : List Byte)
  | time (t : TimeFlit)
  deriving DecidableEq, Repr

/-- A frame (Table 9.3) after Reed-Solomon decoding: `decoded` says that every codeword could be corrected, `corrected` that
bytes were (R246). `replayed` says that its sender had sent it before (R253). -/
structure Frame where
  decoded : Bool
  corrected : Bool
  replayed : Bool
  seq : BitVec 16
  ack : BitVec 16
  nak : Bool
  rvl : Fin 8
  rcnt : Nat
  scnt : Nat
  slots : List Flit
  crc : BitVec 32
  deriving DecidableEq, Repr

/-- Where a router takes its next packet from: a link's input buffer, or the module's own injection queue. -/
inductive RouterIn where
  | port (l : LinkId)
  | own
  deriving DecidableEq, Repr

/-- A torus shape X × Y × Z (R257). -/
structure Shape where
  x : Nat
  y : Nat
  z : Nat
  deriving DecidableEq, Repr

/-- What the measured loop reads (R335): power averaged over 1 ms in W, input voltage in mV, hottest die and stack. -/
structure Sensors where
  power : BitVec 16
  volt : BitVec 16
  tdie : Byte
  thbm : Byte
  deriving DecidableEq, Repr

/-- The self-test's finding for one array (R84, Table 15.13): physical columns that failed, and whether a staggering
register or the activation path failed. -/
structure ArrayTest where
  failed : BitVec 64
  pathBad : Bool
  deriving DecidableEq, Repr

/-- The findings of the start-up self-test (Table 12.9): units that failed. `arrays` lists the arrays with a finding. -/
structure SelfTest where
  arrays : List (Nat × ArrayTest)
  /-- Cores whose sequencer failed. -/
  seqBad : List CoreId
  /-- Stock banks with more than 32 failing lines: core and bank. -/
  bankBad : List (CoreId × Fin 16)
  hodBad : List (CoreId × Fin 2)
  dieBad : List DieId
  stackBad : List StackId
  /-- Optical engines: fabric port l, or 12 + g. -/
  opticBad : List (Fin 14)
  deriving DecidableEq, Repr

end Sys2Proof
end

