-- ==== Sys2Proof/Syntax.lean ====
section
/-!
DEFINITION. The commands of the block: one constructor per row of spec/opcode_table.json (DESIGN CHOICE, log 5).
An instruction row carries the core, the strand and bits [55:0] of its word; the row itself is the opcode (R156).
-/

namespace Sys2Proof

/-- A command the block takes. -/
inductive Instr where
  /-- ADD (R174). Scalar instruction writing ra + rb to rd. -/
  | add (c : CoreId) (k : StrandId) (w : BitVec 56)
  /-- SUB (R174). Scalar instruction writing ra - rb to rd. -/
  | sub (c : CoreId) (k : StrandId) (w : BitVec 56)
  /-- MUL (R174). Scalar instruction writing the low 64 bits of ra × rb. -/
  | mul (c : CoreId) (k : StrandId) (w : BitVec 56)
  /-- MULHS (R174). Scalar instruction writing the high 64 bits of the signed product. -/
  | mulhs (c : CoreId) (k : StrandId) (w : BitVec 56)
  /-- MULHU (R174). Scalar instruction writing the high 64 bits of the unsigned product. -/
  | mulhu (c : CoreId) (k : StrandId) (w : BitVec 56)
  /-- DIVS (R175). Signed division; never faults, with fixed results for division by zero and overflow. -/
  | divs (c : CoreId) (k : StrandId) (w : BitVec 56)
  /-- DIVU (R175). Unsigned division; never faults. -/
  | divu (c : CoreId) (k : StrandId) (w : BitVec 56)
  /-- REMS (R175). Signed remainder with the sign of ra. -/
  | rems (c : CoreId) (k : StrandId) (w : BitVec 56)
  /-- REMU (R175). Unsigned remainder. -/
  | remu (c : CoreId) (k : StrandId) (w : BitVec 56)
  /-- AND (R174). Bitwise AND of ra and rb. -/
  | and (c : CoreId) (k : StrandId) (w : BitVec 56)
  /-- OR (R174). Bitwise OR of ra and rb. -/
  | or (c : CoreId) (k : StrandId) (w : BitVec 56)
  /-- XOR (R174). Bitwise XOR of ra and rb. -/
  | xor (c : CoreId) (k : StrandId) (w : BitVec 56)
  /-- SHL (R174). Shifts ra left by rb mod 64. -/
  | shl (c : CoreId) (k : StrandId) (w : BitVec 56)
  /-- SHR (R174). Shifts ra right by rb mod 64, filling with 0. -/
  | shr (c : CoreId) (k : StrandId) (w : BitVec 56)
  /-- SRA (R174). Shifts ra right by rb mod 64, copying bit 63. -/
  | sra (c : CoreId) (k : StrandId) (w : BitVec 56)
  /-- CEQ (R176). Writes predicate pd := (ra = rb). -/
  | ceq (c : CoreId) (k : StrandId) (w : BitVec 56)
  /-- CNE (R176). Writes predicate pd := (ra ≠ rb). -/
  | cne (c : CoreId) (k : StrandId) (w : BitVec 56)
  /-- CLT (R176). Writes predicate pd := signed ra < rb. -/
  | clt (c : CoreId) (k : StrandId) (w : BitVec 56)
  /-- CLTU (R176). Writes predicate pd := unsigned ra < rb. -/
  | cltu (c : CoreId) (k : StrandId) (w : BitVec 56)
  /-- CLE (R176). Writes predicate pd := signed ra ≤ rb. -/
  | cle (c : CoreId) (k : StrandId) (w : BitVec 56)
  /-- CLEU (R176). Writes predicate pd := unsigned ra ≤ rb. -/
  | cleu (c : CoreId) (k : StrandId) (w : BitVec 56)
  /-- ADDI (R177). Adds a sign-extended 32-bit immediate to ra. -/
  | addi (c : CoreId) (k : StrandId) (w : BitVec 56)
  /-- ANDI (R177). ANDs ra with a zero-extended immediate. -/
  | andi (c : CoreId) (k : StrandId) (w : BitVec 56)
  /-- ORI (R177). ORs ra with a zero-extended immediate. -/
  | ori (c : CoreId) (k : StrandId) (w : BitVec 56)
  /-- XORI (R177). XORs ra with a zero-extended immediate. -/
  | xori (c : CoreId) (k : StrandId) (w : BitVec 56)
  /-- SHLI (R177). Shifts ra left by an immediate of at most 63. -/
  | shli (c : CoreId) (k : StrandId) (w : BitVec 56)
  /-- SHRI (R177). Shifts ra right logically by an immediate. -/
  | shri (c : CoreId) (k : StrandId) (w : BitVec 56)
  /-- SRAI (R177). Shifts ra right arithmetically by an immediate. -/
  | srai (c : CoreId) (k : StrandId) (w : BitVec 56)
  /-- CEQI (R177). Writes pd := (ra = sign-extended immediate). -/
  | ceqi (c : CoreId) (k : StrandId) (w : BitVec 56)
  /-- CLTI (R177). Writes pd := signed ra < sign-extended immediate. -/
  | clti (c : CoreId) (k : StrandId) (w : BitVec 56)
  /-- LDIH (R177). Keeps the low half of ra and writes the immediate into the high half. -/
  | ldih (c : CoreId) (k : StrandId) (w : BitVec 56)
  /-- SEL (R177). Selects ra or rb by a predicate. -/
  | sel (c : CoreId) (k : StrandId) (w : BitVec 56)
  /-- PRD (R177). Turns a predicate into a scalar 0 or 1. -/
  | prd (c : CoreId) (k : StrandId) (w : BitVec 56)
  /-- GETS (R178). Returns a system value such as the core number, fabric time or presented widths. -/
  | gets (c : CoreId) (k : StrandId) (w : BitVec 56)
  /-- TRD (R177). Reads a tally value as of the end of the previous cycle. -/
  | trd (c : CoreId) (k : StrandId) (w : BitVec 56)
  /-- BR (R179). Conditional branch on a predicate. -/
  | br (c : CoreId) (k : StrandId) (w : BitVec 56)
  /-- LOOP (R179). Decrements a counter and branches while it is nonzero and the condition holds. -/
  | loop (c : CoreId) (k : StrandId) (w : BitVec 56)
  /-- JR (R179). Conditional jump to a register plus an offset. -/
  | jr (c : CoreId) (k : StrandId) (w : BitVec 56)
  /-- CALL (R180). Writes the link address to rd and branches. -/
  | call (c : CoreId) (k : StrandId) (w : BitVec 56)
  /-- LD8U (R181). Loads one byte, zero-extended. -/
  | ld8u (c : CoreId) (k : StrandId) (w : BitVec 56)
  /-- LD8S (R181). Loads one byte, sign-extended. -/
  | ld8s (c : CoreId) (k : StrandId) (w : BitVec 56)
  /-- LD16U (R181). Loads two bytes, zero-extended. -/
  | ld16u (c : CoreId) (k : StrandId) (w : BitVec 56)
  /-- LD16S (R181). Loads two bytes, sign-extended. -/
  | ld16s (c : CoreId) (k : StrandId) (w : BitVec 56)
  /-- LD32U (R181). Loads four bytes, zero-extended. -/
  | ld32u (c : CoreId) (k : StrandId) (w : BitVec 56)
  /-- LD32S (R181). Loads four bytes, sign-extended. -/
  | ld32s (c : CoreId) (k : StrandId) (w : BitVec 56)
  /-- LD64 (R181). Loads an 8-byte word from a local address. -/
  | ld64 (c : CoreId) (k : StrandId) (w : BitVec 56)
  /-- ST8 (R181). Stores the low byte of rs. -/
  | st8 (c : CoreId) (k : StrandId) (w : BitVec 56)
  /-- ST16 (R181). Stores the low 16 bits of rs. -/
  | st16 (c : CoreId) (k : StrandId) (w : BitVec 56)
  /-- ST32 (R181). Stores the low 32 bits of rs. -/
  | st32 (c : CoreId) (k : StrandId) (w : BitVec 56)
  /-- ST64 (R181). Stores rs at a local address. -/
  | st64 (c : CoreId) (k : StrandId) (w : BitVec 56)
  /-- LDG (R182). Loads an 8-byte word from a global address, locally or through the fabric. -/
  | ldg (c : CoreId) (k : StrandId) (w : BitVec 56)
  /-- STG (R182). Stores an 8-byte word to a global unicast or multicast address. -/
  | stg (c : CoreId) (k : StrandId) (w : BitVec 56)
  /-- AADD (R183). Atomically adds to a global 8-byte word and returns the old value. -/
  | aadd (c : CoreId) (k : StrandId) (w : BitVec 56)
  /-- MMA (R185). Dispatches a matrix multiply-accumulate: checks it, takes tile order places and enters the half queues. -/
  | mma (c : CoreId) (k : StrandId) (w : BitVec 56)
  /-- MMALW (R74). Dispatches a preload of weight slice 0 into the shadow registers. -/
  | mmalw (c : CoreId) (k : StrandId) (w : BitVec 56)
  /-- FINISH (R103). Dispatches finishing of a tile rectangle into the finishing queue. -/
  | finish (c : CoreId) (k : StrandId) (w : BitVec 56)
  /-- LIFT (R97). Dispatches a full-width copy of a tile to stock. -/
  | lift (c : CoreId) (k : StrandId) (w : BitVec 56)
  /-- RELOAD (R98). Dispatches a copy of a lift image back into a tile, with a class. -/
  | reload (c : CoreId) (k : StrandId) (w : BitVec 56)
  /-- VOP (R115). Dispatches an elementwise vector operation. -/
  | vop (c : CoreId) (k : StrandId) (w : BitVec 56)
  /-- VRED (R117). Dispatches a row reduction. -/
  | vred (c : CoreId) (k : StrandId) (w : BitVec 56)
  /-- SFN (R121). Dispatches a special-function evaluation. -/
  | sfn (c : CoreId) (k : StrandId) (w : BitVec 56)
  /-- SMAX1 (R129). Dispatches the first soft-maximum pass, which forms row states. -/
  | smax1 (c : CoreId) (k : StrandId) (w : BitVec 56)
  /-- SMAX2 (R130). Dispatches the second soft-maximum pass, which writes normalised outputs. -/
  | smax2 (c : CoreId) (k : StrandId) (w : BitVec 56)
  /-- PLOOK (R134). Dispatches a pattern lookup bound to the bank active at dispatch. -/
  | plook (c : CoreId) (k : StrandId) (w : BitVec 56)
  /-- PLOAD (R135). Dispatches a reload of the inactive pattern bank. -/
  | pload (c : CoreId) (k : StrandId) (w : BitVec 56)
  /-- PSWAP (R136). Dispatches an exchange of the active and inactive pattern banks. -/
  | pswap (c : CoreId) (k : StrandId) (w : BitVec 56)
  /-- CVT (R190). Dispatches a plane conversion on the convert engine. -/
  | cvt (c : CoreId) (k : StrandId) (w : BitVec 56)
  /-- ARM (R191). Enters a command into a hod queue to start a run of a stream descriptor. -/
  | arm (c : CoreId) (k : StrandId) (w : BitVec 56)
  /-- REARM (R191). Enters a command into a hod queue to present the descriptor's next run. -/
  | rearm (c : CoreId) (k : StrandId) (w : BitVec 56)
  /-- SWAP (R191). Enters a command into a hod queue to release a buffer slot. -/
  | swap (c : CoreId) (k : StrandId) (w : BitVec 56)
  /-- TADD (R192). Adds an immediate to a tally at the end of the cycle. -/
  | tadd (c : CoreId) (k : StrandId) (w : BitVec 56)
  /-- TSET (R193). Replaces a tally value at the end of the cycle. -/
  | tset (c : CoreId) (k : StrandId) (w : BitVec 56)
  /-- KEYSTONE (R276). Registers the strand's arrival at a keystone barrier. -/
  | keystone (c : CoreId) (k : StrandId) (w : BitVec 56)
  /-- FTWAIT (R195). Registers a wait for a fabric-time instant. -/
  | ftwait (c : CoreId) (k : StrandId) (w : BitVec 56)
  /-- NOP (R196). Does nothing and completes in its cycle. -/
  | nop (c : CoreId) (k : StrandId) (w : BitVec 56)
  /-- HALT (R197). Stops the strand's dispatch; the strand becomes HALTING, then DONE. -/
  | halt (c : CoreId) (k : StrandId) (w : BitVec 56)
  /-- TRAP (R161). Stops the issuing strand as TRAPPED with a code and sends a notice. -/
  | trap (c : CoreId) (k : StrandId) (w : BitVec 56)
  /-- SNAP (R198). Raises the plumb trigger in the next cycle with the code as its tag. -/
  | snap (c : CoreId) (k : StrandId) (w : BitVec 56)
  /-- TGRPB (R165). Opens a steal group. -/
  | tgrpb (c : CoreId) (k : StrandId) (w : BitVec 56)
  /-- TGRPE (R165). Closes the open steal group. -/
  | tgrpe (c : CoreId) (k : StrandId) (w : BitVec 56)
  /-- CSAVE (R199). Pauses the issuing last and saves its context, optionally resuming. -/
  | csave (c : CoreId) (k : StrandId) (w : BitVec 56)
  /-- CREST (R200). Restores saved context onto another last. -/
  | crest (c : CoreId) (k : StrandId) (w : BitVec 56)
  /-- FRD (R201). Reads the strand's sticky flag word. -/
  | frd (c : CoreId) (k : StrandId) (w : BitVec 56)
  /-- FCLR (R201). Clears selected sticky flags of the strand. -/
  | fclr (c : CoreId) (k : StrandId) (w : BitVec 56)
  /-- MXCLR (R202). Clears selected max-abs slots at the end of the cycle. -/
  | mxclr (c : CoreId) (k : StrandId) (w : BitVec 56)
  /-- FTST (R201). Tests the strand's flag word against a mask. -/
  | ftst (c : CoreId) (k : StrandId) (w : BitVec 56)
  /-- FETCH_RETURN (R147). Instruction text fetched from the slice arrives in a strand's fetch buffer. -/
  | fetchReturn (c : CoreId) (k : StrandId) (line : BitVec 48)
  /-- LOAD_DATA_RETURN (R146). Data of an outstanding load arrives and is written to its scalar, completing the load. -/
  | loadDataReturn (c : CoreId) (k : StrandId) (id : Nat)
  /-- STORE_COMPLETE (R210). A store's write takes effect at its target, or its WACK arrives, completing it. -/
  | storeComplete (c : CoreId) (k : StrandId) (id : Nat)
  /-- MMA_START (R80). An MMA or MMALW at the head of its half queue or queues starts once tile order, half work and weight state allow. -/
  | mmaStart (c : CoreId) (a : ArrayId) (u : HalfId)
  /-- WEIGHT_LOAD_START (R72). The weight feeder writes the first shadow row once the previous token has passed. -/
  | weightLoadStart (c : CoreId) (a : ArrayId) (u : HalfId)
  /-- PASS_START (R73). The first slot of a pass enters with its swap token once loaded weights and beat changes allow. -/
  | passStart (c : CoreId) (a : ArrayId) (u : HalfId)
  /-- MMA_COMPLETE (R66). An MMA writes its last entry, applying the working-sum overflow test, and completes. -/
  | mmaComplete (c : CoreId) (a : ArrayId) (u : HalfId)
  /-- MMALW_COMPLETE (R70). The last shadow row of a preload is written, completing it. -/
  | mmalwComplete (c : CoreId) (a : ArrayId) (u : HalfId)
  /-- HALF_DRAIN_END (R82). A drained half becomes idle and its drain bit clears. -/
  | halfDrainEnd (c : CoreId) (a : ArrayId) (u : HalfId)
  /-- FINISH_START (R107). The finishing unit starts the next FINISH once tile order allows. -/
  | finishStart (c : CoreId) (a : ArrayId)
  /-- FINISH_COMPLETE (R107). A FINISH writes its last output and completes. -/
  | finishComplete (c : CoreId) (a : ArrayId)
  /-- SLICE_PORT_START (R99). The slice port starts the next lift or reload once tile order allows. -/
  | slicePortStart (c : CoreId)
  /-- LIFT_COMPLETE (R99). A lift's last bytes reach stock, 2 cycles after its last read, completing it. -/
  | liftComplete (c : CoreId)
  /-- RELOAD_COMPLETE (R98). A reload writes its last entry, sets the class and clears poisoned. -/
  | reloadComplete (c : CoreId)
  /-- VECTOR_START (R112). The vector engine starts the next VOP or VRED after the previous one writes its last result. -/
  | vectorStart (c : CoreId)
  /-- VOP_COMPLETE (R116). A VOP writes its last result and completes. -/
  | vopComplete (c : CoreId)
  /-- VRED_COMPLETE (R189). A VRED writes its last row output or record and completes. -/
  | vredComplete (c : CoreId)
  /-- SFU_START (R112). The special-function unit starts the next SFN, SMAX1 or SMAX2. -/
  | sfuStart (c : CoreId)
  /-- SFN_COMPLETE (R121). An SFN writes its last result and completes. -/
  | sfnComplete (c : CoreId)
  /-- SMAX1_COMPLETE (R189). SMAX1 writes its last row state and completes. -/
  | smax1Complete (c : CoreId)
  /-- SMAX2_COMPLETE (R131). SMAX2 writes its last element and completes, noting empty or NaR rows. -/
  | smax2Complete (c : CoreId)
  /-- PLOOK_START (R133). A PLOOK starts after the previous lookup and any PLOAD it must wait for. -/
  | plookStart (c : CoreId)
  /-- PLOOK_COMPLETE (R133). A PLOOK writes its last result and completes. -/
  | plookComplete (c : CoreId)
  /-- PSWAP_PROCESS (R136). A PSWAP at the head of the pattern queue exchanges the banks in one cycle. -/
  | pswapProcess (c : CoreId)
  /-- PLOAD_PORT_ENTRY (R135). A PLOAD at the queue head passes into the reload port once it is empty. -/
  | ploadPortEntry (c : CoreId)
  /-- PLOAD_WRITE_START (R135). A PLOAD in the reload port starts writing after earlier readers of the bank finish. -/
  | ploadWriteStart (c : CoreId)
  /-- PLOAD_COMPLETE (R135). A PLOAD writes its last entry and completes. -/
  | ploadComplete (c : CoreId)
  /-- CVT_START (R190). The convert engine starts the next CVT. -/
  | cvtStart (c : CoreId)
  /-- CVT_COMPLETE (R190). A CVT writes its last result and completes. -/
  | cvtComplete (c : CoreId)
  /-- STEAL_ROUND (R167). Every 256 cycles the die's steal arbiter moves movable groups to idle thief arrays. -/
  | stealRound (d : DieId)
  /-- ARM_TAKEN (R228). A hod takes an ARM from its queue head, copying the descriptor and activating a run. -/
  | armTaken (h : HodRef)
  /-- REARM_TAKEN (R228). A hod takes a REARM, activating a run or filling the shadow slot, or holding it. -/
  | rearmTaken (h : HodRef)
  /-- SWAP_TAKEN (R229). A hod takes a SWAP and releases the oldest filled slot, or holds it until a tile fills. -/
  | swapTaken (h : HodRef)
  /-- TRANSFER_ISSUE (R225). A hod issues the next transfer of an active run, round-robin, when its slot and limits allow. -/
  | transferIssue (h : HodRef)
  /-- TRANSFER_COMPLETE (R226). A transfer's write takes effect; tiles and runs complete and post as due. -/
  | transferComplete (h : HodRef) (i : Nat)
  /-- SHADOW_RUN_ACTIVATE (R228). The shadow run becomes active in the cycle after the active run completes. -/
  | shadowRunActivate (h : HodRef) (m : SdId)
  /-- DEADLINE_MISS (R231). Fabric time reaches a tile's deadline before it completes; the miss is counted and may fault. -/
  | deadlineMiss (h : HodRef) (m : SdId) (tile : Nat)
  /-- PUSH (R238). A 64-byte write to a spill queue's push window pushes an entry or is back-pressured. -/
  | push (q : QueueId) (bytes : List Byte)
  /-- DEFERRED_PUSH (R238). A push waiting on a full queue is accepted when an entry frees. -/
  | deferredPush (q : QueueId)
  /-- POP (R239). A 64-byte read of a pop window removes and returns the oldest entry. -/
  | pop (q : QueueId) (width : Nat)
  /-- QUE_FLUSH (R241). A write of flush requests discarding the queue's content at the next packet boundary. -/
  | queFlush (q : QueueId) (v : Word)
  /-- QUE_CFG_WRITE (R243). Writes queue configuration, ignored for en and ring fields while the queue is nonempty. -/
  | queCfgWrite (q : QueueId) (r : QueReg) (v : Word)
  /-- FH_ARM (R235). FH_CMD write queuing an ARM for a fabric hod. -/
  | fhArm (n : FhId)
  /-- FH_REARM (R235). FH_CMD write queuing a REARM for a fabric hod. -/
  | fhRearm (n : FhId)
  /-- FH_SWAP (R235). FH_CMD write queuing a SWAP for a fabric hod. -/
  | fhSwap (n : FhId)
  /-- TAL_VAL_WRITE (R151). A write to TAL_VAL replaces the tally value in step 4 of the cycle. -/
  | talValWrite (c : CoreId) (t : TallyId) (v : Word)
  /-- TAL_ADD_WRITE (R151). A write to TAL_ADD adds to the tally in step 3 of the cycle. -/
  | talAddWrite (c : CoreId) (t : TallyId) (v : Word)
  /-- FMT_MAXABS_CLR (R36). A write clears selected max-abs slots in its cycle. -/
  | fmtMaxabsClr (c : CoreId) (v : Word)
  /-- ARR_CTL_WRITE (R88). Assigns array halves to lasts, ignored for a busy half. -/
  | arrCtlWrite (c : CoreId) (a : ArrayId) (v : Word)
  /-- BED_CTL_WRITE (R111). Assigns tiles to lasts, ignored for a busy tile. -/
  | bedCtlWrite (c : CoreId) (a : ArrayId) (v : Word)
  /-- PAT_CTL_WRITE (R140). Assigns the pattern banks, ignored while the pattern engine is active. -/
  | patCtlWrite (c : CoreId) (v : Word)
  /-- SEQ_CTL_WRITE (R169). Assigns strands to lasts, ignored for a strand that is not IDLE or DONE. -/
  | seqCtlWrite (c : CoreId) (v : Word)
  /-- REGISTER_WRITE (R10). A write to a register field with no row of its own acts under its access code. -/
  | registerWrite (addr : LAddr) (bytes : List Byte)
  /-- NCP_DATAGRAM_ARRIVAL (R306). A UDP datagram reaches the NCP port and is checked, queued or discarded. -/
  | ncpDatagramArrival (p : CtlId) (g : Datagram)
  /-- NCP_UNKNOWN_TYPE (R307). An accepted message with an unlisted type is answered unknown type. -/
  | ncpUnknownType (p : CtlId)
  /-- NCP_IDENT (R307). Answers identity, revision, firmware version and last states. -/
  | ncpIdent (p : CtlId)
  /-- NCP_LOAD (R164). Checks a program image and loads it onto a last. -/
  | ncpLoad (p : CtlId)
  /-- LOADER_WRITE_SECTIONS (R333). After the assigned cores are ON, the loader writes the sections and control registers and sets LOADED. -/
  | loaderWriteSections (l : LastId)
  /-- NCP_UNLOAD (R310). Unloads a last, cancelling any pending launch. -/
  | ncpUnload (p : CtlId)
  /-- NCP_LAUNCH (R310). Launches a last immediately or arms a launch at a fabric-time instant. -/
  | ncpLaunch (p : CtlId)
  /-- LAUNCH_AT_INSTANT (R142). Fabric time reaches a pending launch instant and the last becomes RUNNING. -/
  | launchAtInstant (l : LastId)
  /-- NCP_HALT (R310). Stops a running last with cause 1. -/
  | ncpHalt (p : CtlId)
  /-- NCP_PAUSE (R310). Pauses a running last, optionally saving and resuming. -/
  | ncpPause (p : CtlId)
  /-- PAUSE_COMPLETE (R292). Every stopped operation and outstanding access of the pausing last is done; the last is PAUSED. -/
  | pauseComplete (l : LastId)
  /-- SAVE_COMPLETE (R293). The saved context has been written to the save area. -/
  | saveComplete (x : SaveScope)
  /-- DIGEST_COMPLETE (R300). The security engines finish the save area's digest tree and set dstate. -/
  | digestComplete (x : SaveScope)
  /-- NCP_LRESUME (R294). Resumes a paused last from its operation records. -/
  | ncpLresume (p : CtlId)
  /-- NCP_SRESUME (R161). Resumes a TRAPPED strand. -/
  | ncpSresume (p : CtlId)
  /-- NCP_MEMR (R311). Reads a range at a global address through the AOC. -/
  | ncpMemr (p : CtlId)
  /-- NCP_MEMW (R311). Writes a range at a global address through the AOC. -/
  | ncpMemw (p : CtlId)
  /-- NCP_SNAP (R312). Raises the plumb trigger with the request's tag. -/
  | ncpSnap (p : CtlId)
  /-- NCP_EVREAD (R386). Returns a run of event records, absent forms included. -/
  | ncpEvread (p : CtlId)
  /-- NCP_COURSE (R312). Starts coursing with a mode and an optional corner and shape. -/
  | ncpCourse (p : CtlId)
  /-- NCP_CKPT (R298). Pauses every running last, saves the module and resumes. -/
  | ncpCkpt (p : CtlId)
  /-- NCP_RESTORE (R301). Checks a save area and restores it at last or module scope. -/
  | ncpRestore (p : CtlId)
  /-- RESTORE_COMPLETE (R295). A restore finishes its digest check and writes, leaving the last PAUSED, or is refused. -/
  | restoreComplete (x : SaveScope)
  /-- NCP_SUBSCRIBE (R313). Sets or clears a notice subscriber slot. -/
  | ncpSubscribe (p : CtlId)
  /-- NCP_RPLSTOP (R288). Writes RPL_CTL mode 0, ending recording or replay. -/
  | ncpRplstop (p : CtlId)
  /-- ANSWER_CACHE_EXPIRY (R309). An answer-cache entry leaves the cache after being held for 2 s. -/
  | answerCacheExpiry (i : Nat)
  /-- FWUPD_BEGIN (R363). Opens an update session and erases the area range. -/
  | fwupdBegin (p : CtlId)
  /-- FWUPD_WRITE (R363). Writes data within the session's range. -/
  | fwupdWrite (p : CtlId)
  /-- FWUPD_COMMIT (R369). Verifies the written area and makes it take effect, or refuses. -/
  | fwupdCommit (p : CtlId)
  /-- FWUPD_ABORT (R363). Closes the session, leaving written bytes. -/
  | fwupdAbort (p : CtlId)
  /-- FWUPD_STATUS (R363). Reports the session's area, state and bytes written. -/
  | fwupdStatus (p : CtlId)
  /-- FWUPD_SESSION_TIMEOUT (R364). A session closes after 60 s without a request from its owner. -/
  | fwupdSessionTimeout
  /-- ATTEST_QUOTE (R362). Builds and signs a quote over the measurement log aggregate. -/
  | attestQuote (p : CtlId)
  /-- ATTEST_READ_QUOTE (R361). Returns bytes of the stored quote. -/
  | attestReadQuote (p : CtlId)
  /-- ATTEST_READ_LOG (R361). Returns measurement log entries. -/
  | attestReadLog (p : CtlId)
  /-- ATTEST_IDENTITY (R361). Returns the identity public keys and factory block. -/
  | attestIdentity (p : CtlId)
  /-- ARP_REQUEST (R303). An ARP request on a control or gate port is answered. -/
  | arpRequest (e : EthPort) (r : Framed ArpMsg)
  /-- NDP_REQUEST (R303). An NDP message on a control or gate port is answered. -/
  | ndpRequest (e : EthPort) (r : Framed NdpMsg)
  /-- ICMP_ECHO_REQUEST (R303). An ICMP echo request on a control or gate port is answered. -/
  | icmpEchoRequest (e : EthPort) (r : Framed EchoMsg)
  /-- GPTP_MESSAGE (R304). An 802.1AS message on a control port updates the time-aware end station. -/
  | gptpMessage (p : CtlId) (t : Word) (locked : Bool)
  /-- GATE_CONTROL_CYCLE (R305). A control port's gate control list starts a new cycle at a multiple of cycle_ns. -/
  | gateControlCycle (p : CtlId)
  /-- CTLP_GCFG_WRITE (R322). Configures a gate control list, ignored for cycle and length while enabled. -/
  | ctlpGcfgWrite (p : CtlId) (v : Word)
  /-- NBP_DATAGRAM_RECEIVE (R316). A gate port receives an NBP datagram and pushes it into its flow's queue. -/
  | nbpDatagramReceive (g : GateId) (d : NbpFrame)
  /-- PFC_FRAME_RECEIVE (R314). A received priority flow-control frame pauses or resumes a class on a gate port. -/
  | pfcFrameReceive (g : GateId) (cls : Fin 8) (xoff : Bool)
  /-- GATE_TRANSMIT_PUSH (R318). A write to a gate transmit window pushes an entry; on eop a frame is built and queued. -/
  | gateTransmitPush (g : GateId) (bytes : List Byte)
  /-- LINK_TRAINING_COMPLETE (R245). A training link acquires lock and becomes UP. -/
  | linkTrainingComplete (l : LinkId)
  /-- LINK_TRAINING_TIMEOUT (R245). A link still training after 20 ms goes to DOWN. -/
  | linkTrainingTimeout (l : LinkId)
  /-- LOSS_OF_LIGHT (R254). Light is lost on a lane; the link goes DOWN, discards its buffers and a link notice is sent. -/
  | lossOfLight (l : LinkId)
  /-- LIGHT_RETURN (R245). Light returns on every lane of a DOWN port and it retrains. -/
  | lightReturn (l : LinkId)
  /-- FAB_LNK_CFG_WRITE (R245). Enables or disables a link port, starting training or turning it OFF. -/
  | fabLnkCfgWrite (l : LinkId) (v : Word)
  /-- FRAME_RECEIVE (R253). A frame arrives: checked, acknowledged or nak'd, its credits and flits taken. -/
  | frameReceive (l : LinkId) (f : Frame)
  /-- FABRIC_TIME_SLEW (R274). Every 2 048 cycles a module with nonzero offset holds or advances its count by one cycle. -/
  | fabricTimeSlew
  /-- PACKET_FORWARD (R261). A router routes a packet to an output port, or discards it and answers ERR. -/
  | packetForward (r : RouterIn)
  /-- WR (R248). A remote write arrives at its target, takes effect and is answered WACK or ERR. -/
  | wr (p : Packet)
  /-- RD (R248). A remote read arrives at its target and is answered RDR or ERR. -/
  | rd (p : Packet)
  /-- AA (R183). An atomic add arrives at its target and is answered AAR or ERR. -/
  | aa (p : Packet)
  /-- MWR (R263). A multicast write arrives at the root or a tree node; it is copied, delivered and acknowledged. -/
  | mwr (p : Packet)
  /-- WACK (R248). A write acknowledgement completes the requester's remote write. -/
  | wack (p : Packet)
  /-- RDR (R248). Read data completes the requester's remote read. -/
  | rdr (p : Packet)
  /-- AAR (R248). The old value completes the requester's AADD. -/
  | aar (p : Packet)
  /-- ERR (R249). An error response makes the requester raise its remote or stream fault. -/
  | err (p : Packet)
  /-- MACK (R263). A member acknowledgement is counted toward the completion of a multicast write. -/
  | mack (p : Packet)
  /-- REQUEST_TIMEOUT (R249). A remote request is still unanswered after FAB_CFG tmo and is treated as status 8. -/
  | requestTimeout (tag : BitVec 16)
  /-- LINK_NOTICE (R262). A received link notice makes the module recompute its routes around failed links. -/
  | linkNotice (dev : DevAddr) (map : BitVec 12)
  /-- FAB_CRS_START (R255). A write of start begins coursing as a local COURSE would. -/
  | fabCrsStart (v : Word)
  /-- IDENTITY_PACKET (R256). An identity packet on an UP link is checked, possibly marking it MISCABLED. -/
  | identityPacket (l : LinkId) (serial : Word) (port : Nat) (rev : Byte)
  /-- CORNER_ELECTION (R255). A flooded smallest serial is received and propagated until the corner is elected. -/
  | cornerElection (l : LinkId) (serial : Word)
  /-- COORDINATE_OFFER (R257). A coordinate offer is received and the first one is taken and passed on. -/
  | coordinateOffer (l : LinkId) (x y z : Nat)
  /-- LINK_MAP_FLOOD (R255). A flooded link map is received for routing-table construction. -/
  | linkMapFlood (dev : DevAddr) (map : BitVec 12)
  /-- COURSING_RELEASE (R255). The corner gathers completion and releases every module; coursing completes or fails. -/
  | coursingRelease (ok : Bool) (shape : Shape)
  /-- FAB_COORD_WRITE (R258). Sets the module's device address in manual mode, making a (0,0,0) module the time root. -/
  | fabCoordWrite (v : Word)
  /-- KEYSTONE_ARRIVAL (R276). An arrival packet from a child is counted; an arrived module reports upward or the root forms the release instant. -/
  | keystoneArrival (k : KeyId) (port : LinkId)
  /-- KEYSTONE_RELEASE (R276). A release packet is received and forwarded to the children. -/
  | keystoneRelease (k : KeyId) (instant : Word) (round : BitVec 16)
  /-- KEYSTONE_RELEASE_INSTANT (R277). Fabric time reaches the release instant; every KEYSTONE of the round completes. -/
  | keystoneReleaseInstant (k : KeyId)
  /-- KEYSTONE_BREAK (R278). A break packet is received and forwarded, breaking the keystone. -/
  | keystoneBreak (k : KeyId) (port : LinkId)
  /-- KS_CFG_WRITE (R278). Configures a keystone; en 0 then 1 restores it to round 0. -/
  | ksCfgWrite (k : KeyId) (v : Word)
  /-- FTWAIT_INSTANT (R195). Fabric time reaches an FTWAIT instant and the FTWAIT completes. -/
  | ftwaitInstant (c : CoreId) (k : StrandId)
  /-- COL_START (R266). A write of start to COL_CMD starts the collective in COL_DESC. -/
  | colStart (ch : ChanId) (v : Word)
  /-- COL (R267). A collective packet arrives and its data enters the reduction or gather. -/
  | col (p : Packet)
  /-- COLLECTIVE_DONE (R266). This module's part of the result is written; state 2 is set and notify is written. -/
  | collectiveDone (ch : ChanId)
  /-- RPL_RECORD_START (R288). A write of RPL_CTL mode 1 starts recording at the ring's base. -/
  | rplRecordStart (v : Word)
  /-- RPL_REPLAY_START (R288). A write of RPL_CTL mode 2 starts replay from the ring's base. -/
  | rplReplayStart (v : Word)
  /-- RPL_STOP (R288). A write of RPL_CTL mode 0 ends recording or replay. -/
  | rplStop (v : Word)
  /-- RPL_INJECT (R287). Fabric time reaches a record's instant plus offset and the recorded input is injected. -/
  | rplInject
  /-- CKP_BASE_WRITE (R300). Configures the checkpoint region, ignored if it would overlap a loaded last's region. -/
  | ckpBaseWrite (v : Word)
  /-- DOMAIN_TARGET_WRITE (R326). Sets targets of the hub, dies, stacks, links and ports, subject to the OFF conditions. -/
  | domainTargetWrite (v : Word)
  /-- CORE_TARGET_WRITE (R329). Sets targets of cores, subject to the OFF conditions. -/
  | coreTargetWrite (h : Fin 2) (v : Word)
  /-- WAKE_COMPLETE (R331). A WAKING domain becomes ON in its reset state and re-examines its target. -/
  | wakeComplete (x : Dom)
  /-- DRAIN_COMPLETE (R326). A DRAINING domain becomes OFF and re-examines its target. -/
  | drainComplete (x : Dom)
  /-- SELF_REFRESH_TRANSITION (R330). An HBM stack completes entry to or exit from self-refresh. -/
  | selfRefreshTransition (m : StackId)
  /-- CORE_IDLE_EXPIRY (R332). A core idle for core_idle µs has its target set to OFF. -/
  | coreIdleExpiry (c : CoreId)
  /-- HBM_IDLE_EXPIRY (R332). A stack without access for hbm_idle µs enters self-refresh. -/
  | hbmIdleExpiry (m : StackId)
  /-- DIE_IDLE_EXPIRY (R332). A die whose cores have been OFF for die_idle ms has its target set to OFF. -/
  | dieIdleExpiry (d : DieId)
  /-- ACTIVITY_WINDOW (R334). Every 256 cycles a die's activity account is refilled with its effective budget. -/
  | activityWindow (d : DieId)
  /-- GOVERNOR_RAISE (R335). Every 1 ms the governor level rises while power, temperature or voltage conditions hold. -/
  | governorRaise (r : Sensors)
  /-- GOVERNOR_LOWER (R335). After 10 ms with no condition, the governor level falls by one. -/
  | governorLower (r : Sensors)
  /-- HARD_GOVERNOR_THRESHOLD (R335). Input below 40 V sets the governor level to 15 at once. -/
  | hardGovernorThreshold (mV : BitVec 16)
  /-- BROWN_OUT (R336). Input below 36 V for 100 µs causes a protective reset. -/
  | brownOut
  /-- OVER_VOLTAGE (R404). Input above 62 V for 10 µs opens the input switch. -/
  | overVoltage
  /-- THERMAL_TRIP (R336). A die junction at 115 °C for 10 µs causes a protective reset. -/
  | thermalTrip
  /-- THERMAL_RESUME (R336). Every die falls below 85 °C and start-up resumes after a thermal trip. -/
  | thermalResume
  /-- WATCHDOG_EXPIRY (R336). The AOC watchdog unserviced for 1 s causes a protective reset. -/
  | watchdogExpiry
  /-- POWER_GOOD (R337). The input has stayed at 40 V or more for 1 ms; start-up begins. -/
  | powerGood
  /-- MASK_ROM_BOOT (R351). The mask ROM chooses and verifies a firmware copy from the boot-select records and starts it, or enters recovery. -/
  | maskRomBoot
  /-- RSA_REGENERATION_COMPLETE (R358). Regeneration of the RSA identity key finishes and the key is cached. -/
  | rsaRegenerationComplete
  /-- KEEPER_SERVICE_READY (R339). The module enters keeper service, drives PRESENT_N and confirms a trial firmware copy. -/
  | keeperServiceReady
  /-- SELF_TEST_COMPLETE (R338). The start-up self-test ends; failing units go OUT and capability registers are set. -/
  | selfTestComplete (r : SelfTest)
  /-- COMPUTE_SERVICE_READY (R337). Compute service is reached; standing programs start and boot coursing may begin. -/
  | computeServiceReady
  /-- STANDING_LAUNCH_AFTER_COURSING (R320). A standing entry waiting for boot coursing is loaded and launched when coursing completes or fails. -/
  | standingLaunchAfterCoursing (e : StandId)
  /-- STANDING_RESTART (R321). One second after a standing last stops, the AOC unloads it and relaunches or abandons it. -/
  | standingRestart (e : StandId)
  /-- SYNC_EDGE (R408). A falling edge of SYNC stores fabric time in PIN_SYNC_T. -/
  | syncEdge
  /-- PLUMB_N_EDGE (R374). A falling edge of PLUMB_N raises a plumb trigger when plumb_in is 1. -/
  | plumbNEdge (level : Bool)
  /-- PRESENT_N_EDGE (R285). An edge of PRESENT_N is sensed and recorded. -/
  | presentNEdge (level : Bool)
  /-- SYNC_PULSE (R342). A write of sync_pulse drives SYNC low for 1 µs. -/
  | syncPulse (v : Word)
  /-- SMBUS_ADDRESS_RESOLUTION (R343). The SMBus Address Resolution Protocol assigns the module's address. -/
  | smbusAddressResolution (addr : BitVec 7)
  /-- SMBUS_READ_STATUS (R343). Command 0x00 returns service, governor and out-of-service bits. -/
  | smbusReadStatus
  /-- SMBUS_READ_SERIAL (R343). Command 0x01 returns the serial number. -/
  | smbusReadSerial
  /-- SMBUS_READ_REVISION (R343). Command 0x02 returns the revision code. -/
  | smbusReadRevision
  /-- SMBUS_READ_INPUT_POWER (R343). Command 0x10 returns input power. -/
  | smbusReadInputPower
  /-- SMBUS_READ_INPUT_VOLTAGE (R343). Command 0x11 returns input voltage. -/
  | smbusReadInputVoltage
  /-- SMBUS_READ_DIE_TEMPERATURE (R343). Command 0x12 returns the hottest die junction temperature. -/
  | smbusReadDieTemperature
  /-- SMBUS_READ_HBM_TEMPERATURE (R343). Command 0x13 returns the hottest HBM stack temperature. -/
  | smbusReadHbmTemperature
  /-- SMBUS_READ_GOVERNOR_LEVEL (R343). Command 0x14 returns the governor level. -/
  | smbusReadGovernorLevel
  /-- PLB_TRIG (R374). A write of trig raises a plumb trigger with the register tag. -/
  | plbTrig (v : Word)
  /-- PLB_RELEASE (R374). A write of release lets the plumb unit take further triggers. -/
  | plbRelease (v : Word)
  /-- PLB_AT_WRITE (R375). Arms or disarms a plumb trigger at a fabric-time instant. -/
  | plbAtWrite (v : Word)
  /-- PLB_AT_FIRE (R375). Fabric time reaches the armed instant and a trigger is raised. -/
  | plbAtFire
  /-- CNT_CLEAR (R378). A write of clr sets every counter of the page to 0. -/
  | cntClear (g : CntPage) (v : Word)
  /-- EVENT_ACCEPT (R381). The AOC accepts an event, gives it a sequence number and queues its record. -/
  | eventAccept
  /-- EVENT_RECORD_WRITE (R383). A pending event record is written to its flash slot. -/
  | eventRecordWrite
  /-- LIFE_COUNTER_WRITE (R380). Every 60 s the AOC writes a life-counter log entry. -/
  | lifeCounterWrite
  /-- EVR_CUR_WRITE (R385). A cursor write copies the named record into the window buffer. -/
  | evrCurWrite (v : Word)
  /-- EVR_WINDOW_ADVANCE (R385). With adv set, a read of window offset 0x38 advances the cursor and reloads the buffer. -/
  | evrWindowAdvance
  /-- RESERVED_OPCODE_DISPATCH (R171). A word whose opcode is reserved (0x00, 0x57, 0x4E and others) reaches dispatch and raises an illegal-instruction fault. -/
  | reservedOpcodeDispatch (c : CoreId) (k : StrandId) (w : Word)
  /-- POWER_LOSS (R403). The input supply is lost or J1 is extracted under power; every volatile state, pending event records included, is lost and the shared lines are released. -/
  | powerLoss
  /-- CONTROL_PORT_LINK_CHANGE (R304). A control port's link comes up or goes down, changing CTLP_STAT link and the port used for frames sent without 802.1CB. -/
  | controlPortLinkChange (p : CtlId) (up slow : Bool)
  /-- GATE_PORT_LINK_CHANGE (R314). A gate port's 800GBASE-DR8 link comes up or goes down, changing GATE_STAT link. -/
  | gatePortLinkChange (g : GateId) (up : Bool)
  /-- GATE_FRAME_SEND (R318). A gate port finishes sending a queued frame, freeing transmit-buffer space so a held transmit-window push completes. -/
  | gateFrameSend (g : GateId)
  /-- GATE_CONTROL_LIST_ENTRY (R305). After interval_ns the gate control list moves to its next entry and the class gates change, letting waiting frames leave. -/
  | gateControlListEntry (p : CtlId)
  /-- SMBUS_OTHER_COMMAND (R343). An SMBus transaction carrying a command not in Table 12.11 arrives and is not acknowledged. -/
  | smbusOtherCommand (cmd : Byte)
  /-- GPTP_LOCK_LOSS (R305). A control port's 802.1AS state stops being locked when Sync messages cease, so aslock clears and every gate opens. -/
  | gptpLockLoss (p : CtlId)
  deriving DecidableEq, Repr

end Sys2Proof
end

