-- ==== Sys2Proof/Decode.lean ====
section
/-!
DEFINITION. Reading a command from a word. The manual's table of commands gives none of its rows bits (the block takes
commands, not words), so no word spells one (DESIGN CHOICE, log 5). The bits of an instruction word are operands of the rows
(Machine/Operands.lean).
-/

namespace Sys2Proof

/-- The command that a word of `nbits` bits spells: none, since the table gives its rows no bits. -/
def decodeTableWord (nbits w : Nat) : Option Instr :=
  match nbits, w with
  | _, _ => none

end Sys2Proof
end

