-- ==== Sys2Proof/Config.lean ====
section
/-!
DEFINITION. What an implementation fixes and the free values: constants without a body, so that nothing can be proved of
the values they take. NOTES.md and notes/assumptions name the log entry of each.
-/

namespace Sys2Proof.Config

/-- Free words, one per use: applied to the counter `freeIdx` (DESIGN CHOICE, log 9). -/
opaque freeWord : Nat → Word

/-- What a byte of an HBM stack reads as that nothing has written since the stack woke from OFF (R331, DESIGN CHOICE, log 1): which wake,
address. -/
opaque hbmByte : Nat → Nat → Byte

/-- Whether such a word fails ECC (R331, DESIGN CHOICE, log 1): which wake, word; none for no error, else whether it is a double-bit error. -/
opaque hbmEcc : Nat → Nat → Option Bool

/-- Delays counted by a counter of R378 that the model leaves out (DESIGN CHOICE, log 15): page, counter, time. -/
opaque delays : Nat → Nat → Nat → Word

/-- What a special function writes where the manual fixes no one value and no order (DESIGN CHOICE, log 8): function code, format code,
argument. -/
opaque sfuResult : Nat → Nat → Nat → Nat

/-- What a special function writes where the manual promises an order (R126, DESIGN CHOICE, log 8): function code, format code, interval;
from the argument's place in the order of its format, plus 2^31, to the result's. -/
opaque sfuOrder : Nat → Nat → Nat → (Nat →o Nat)

/-- The module serial number read from the die identity (DESIGN CHOICE, log 18). -/
opaque serial : Word

/-- Public keys of the root pairs, whose hashes the mask ROM holds: RSA modulus and exponent in 388 bytes, then SLH-DSA in 48 (R346, DESIGN
CHOICE, log 10). -/
opaque rootPub : Nat → List Byte

/-- The bytes of the SMBus UDID before its device-specific field (R343, DESIGN CHOICE, log 44). -/
opaque udid : List Byte

/-- SHA-384 of the ROM contents (R359, DESIGN CHOICE, log 10). -/
opaque romDigest : List Byte

/-- What the code-offset construction extracts from the PUF response with the helper data: 48 bytes, or nothing (R357, DESIGN CHOICE, log 10):
helper data, power-cycle count. -/
opaque pufSeed : List Byte → Nat → Option (List Byte)

end Sys2Proof.Config
end

