-- ==== Sys2Proof/Machine/Bits.lean ====
section
/-!
DEFINITION. Bit fields, byte order and small list helpers.
-/

namespace Sys2Proof.Machine

/-- Bits [lo + len - 1 : lo] of a 64-bit word, as a number (R9). -/
def fld (w : Word) (lo len : Nat) : Nat := (w.toNat / 2 ^ lo) % 2 ^ len

/-- Bit `i` of a word. -/
def bitOf (w : Word) (i : Nat) : Bool := fld w i 1 == 1

/-- The word with bits [lo + len - 1 : lo] replaced by `v`. -/
def setFld (w : Word) (lo len v : Nat) : Word :=
  let mask := BitVec.ofNat 64 ((2 ^ len - 1) * 2 ^ lo)
  (w &&& ~~~mask) ||| (BitVec.ofNat 64 ((v % 2 ^ len) * 2 ^ lo))

/-- 1 for true. -/
def b2n (b : Bool) : Nat := if b then 1 else 0

/-- A word of fields: position and value. -/
def mkWord (fs : List (Nat × Nat)) : Word := BitVec.ofNat 64 (fs.foldl (fun a p => a + p.2 * 2 ^ p.1) 0)

/-- Two's complement value of the low `len` bits of `n`. -/
def signed (len n : Nat) : Int := if n % 2 ^ len < 2 ^ (len - 1) then (n % 2 ^ len : Nat) else (n % 2 ^ len : Nat) - (2 ^ len : Nat)

/-- The low `len` bits of an integer. -/
def lowBits (len : Nat) (i : Int) : Nat := (i % ((2 ^ len : Nat) : Int)).toNat

/-- Little-endian value of bytes (R9). -/
def leNat : List Byte → Nat
  | [] => 0
  | b :: t => b.toNat + 256 * leNat t

/-- The `n` low bytes of a number, least significant first (R9). -/
def leBytes : Nat → Nat → List Byte
  | 0, _ => []
  | n + 1, v => BitVec.ofNat 8 v :: leBytes n (v / 256)

/-- Big-endian value of bytes, for fields of published standards (R9). -/
def beNat (l : List Byte) : Nat := l.foldl (fun a b => a * 256 + b.toNat) 0

/-- The `n` low bytes of a number, most significant first. -/
def beBytes (n v : Nat) : List Byte := (leBytes n v).reverse

/-- Little-endian field of `n` bytes at byte offset `o` of a byte string; bytes beyond its end read 0. -/
def leAt (l : List Byte) (o n : Nat) : Nat := leNat ((l.drop o).take n)

/-- Word `i` of a descriptor of 64-bit words; words beyond its end read 0. -/
def wordAt (l : List Word) (i : Nat) : Word := l.getD i 0

/-- The 64-bit words of a byte string. -/
def bytesToWords : Nat → List Byte → List Word
  | 0, _ => []
  | n + 1, l => BitVec.ofNat 64 (leNat (l.take 8)) :: bytesToWords n (l.drop 8)

/-- The bytes of 64-bit words (R9). -/
def wordsToBytes (l : List Word) : List Byte := l.flatMap fun w => leBytes 8 w.toNat

/-- `n` zero bytes. -/
def zeros (n : Nat) : List Byte := List.replicate n 0

/-- Padded with zero bytes, or cut, to `n` bytes. -/
def padTo (n : Nat) (l : List Byte) : List Byte := (l ++ zeros (n - l.length)).take n

/-- The bytes in runs of `n`. -/
def chunk (n : Nat) : Nat → List Byte → List (List Byte)
  | 0, _ => []
  | f + 1, l => if l.isEmpty then [] else l.take n :: chunk n f (l.drop n)

/-- ⌈a / b⌉. -/
def ceilDiv (a b : Nat) : Nat := (a + b - 1) / b

/-- Element `i` of a vector replaced by `f` of it. -/
def vmap {α : Type} {n : Nat} (v : Vector α n) (i : Fin n) (f : α → α) : Vector α n := v.set i.val (f (v.get i)) i.isLt

/-- The `Fin` below `n + 1` that a number names, modulo its size. -/
def finOf (n x : Nat) : Fin (n + 1) := Fin.ofNat (n + 1) x

/-- First element with a property removed. -/
def eraseFirst {α : Type} (p : α → Bool) : List α → List α
  | [] => []
  | x :: t => if p x then t else x :: eraseFirst p t

/-- The first element with a property replaced by `f` of it. -/
def updFirst {α : Type} (p : α → Bool) (f : α → α) : List α → List α
  | [] => []
  | x :: t => if p x then f x :: t else x :: updFirst p f t

/-- Fold with the index. -/
def foldIdx {α β : Type} (f : β → Nat → α → β) : Nat → β → List α → β
  | _, b, [] => b
  | i, b, x :: t => foldIdx f (i + 1) (f b i x) t

end Sys2Proof.Machine
end

