-- ==== Sys2Proof/Machine/Num.lean ====
section
/-!
DEFINITION. The number formats of 01_number_formats: decoding, rounding, conversion, block exponents, stochastic
rounding, flags and exact arithmetic on decoded values. Values are exact rationals.
-/

namespace Sys2Proof.Machine

/-- Format codes (Table 1.1). -/
inductive Fmt where
  | p8
  | p16
  | p32
  | p64
  | bp4
  | bp8
  | fp32
  | fp64
  | i8
  | i4
  | u8
  deriving DecidableEq, Repr

/-- R13: codes 11 to 15 name no format. -/
def Fmt.ofCode : Nat → Option Fmt
  | 0 => some .p8
  | 1 => some .p16
  | 2 => some .p32
  | 3 => some .p64
  | 4 => some .bp4
  | 5 => some .bp8
  | 6 => some .fp32
  | 7 => some .fp64
  | 8 => some .i8
  | 9 => some .i4
  | 10 => some .u8
  | _ => none

/-- Element width in bits. -/
def Fmt.width : Fmt → Nat
  | .p8 => 8
  | .p16 => 16
  | .p32 => 32
  | .p64 => 64
  | .bp4 => 4
  | .bp8 => 8
  | .fp32 => 32
  | .fp64 => 64
  | .i8 => 8
  | .i4 => 4
  | .u8 => 8

def Fmt.isFp : Fmt → Bool
  | .fp32 | .fp64 => true
  | _ => false

def Fmt.isBlock : Fmt → Bool
  | .bp4 | .bp8 => true
  | _ => false

def Fmt.isInt : Fmt → Bool
  | .i8 | .i4 | .u8 => true
  | _ => false

/-- Sticky flags (Table 1.10), bit order OV, UN, NX, NV, DZ. -/
abbrev Flags := BitVec 5
def fOV : Flags := 1
def fUN : Flags := 2
def fNX : Flags := 4
def fNV : Flags := 8
def fDZ : Flags := 16

def flagIf (b : Bool) (f : Flags) : Flags := if b then f else 0

/-- A decoded value: a real (`nz`: it is −0), ±∞, a NaN (`sig`: signalling), or NaR. -/
inductive Val where
  | num (q : Rat) (nz : Bool)
  | inf (neg : Bool)
  | nan (sig : Bool)
  | nar
  deriving DecidableEq, Repr

def Val.ofRat (q : Rat) : Val := .num q false
def Val.zero : Val := .num 0 false

/-- NaR, or a NaN. -/
def Val.isNan : Val → Bool
  | .nan _ | .nar => true
  | _ => false

def Val.isSig : Val → Bool
  | .nan s => s
  | _ => false

/-- Not finite: what the special bit reports. -/
def Val.isSpecial : Val → Bool
  | .num _ _ => false
  | _ => true

/-- Sign bit of a value that is no NaN. -/
def Val.neg : Val → Bool
  | .num q nz => decide (q < 0) || nz
  | .inf n => n
  | _ => false

def Val.isZero : Val → Bool
  | .num q _ => q == 0
  | _ => false

/-- 2^e. -/
def pow2 (e : Int) : Rat := if 0 ≤ e then ((2 ^ e.toNat : Nat) : Rat) else mkRat 1 (2 ^ (-e).toNat)

/-- ⌊log2 q⌋ of a positive rational. -/
def flog2 (q : Rat) : Int :=
  let e : Int := (Nat.log2 q.num.natAbs : Int) - (Nat.log2 q.den : Int)
  if pow2 e ≤ q then e else e - 1

def qabs (q : Rat) : Rat := if q < 0 then -q else q

def signQ (neg : Bool) (q : Rat) : Rat := if neg then -q else q

/-- The run of bits equal to `lead` from bit `i` of `x` downward: its length (R44). -/
def runLen (x : Nat) (lead : Bool) : Nat → Nat
  | 0 => 0
  | i + 1 => if x.testBit i == lead then runLen x lead i + 1 else 0

/-- Value of a positive posit pattern below 2^(n-1) (R15 steps 3 to 6, R44). -/
def positMag (n es x : Nat) : Rat :=
  let lead := x.testBit (n - 2)
  let m := runLen x lead (n - 1)
  let k : Int := if lead then (m : Int) - 1 else -(m : Int)
  let rest := n - 1 - m - 1
  let e := if es ≤ rest then (x / 2 ^ (rest - es)) % 2 ^ es else (x % 2 ^ rest) * 2 ^ (es - rest)
  let w := rest - es
  pow2 (k * (2 ^ es : Nat) + e) * (1 + mkRat (x % 2 ^ w) (2 ^ w))

/-- R44 decode_posit. -/
def decodePosit (n es x : Nat) : Val :=
  if x = 0 then .zero
  else if x = 2 ^ (n - 1) then .nar
  else if x > 2 ^ (n - 1) then .ofRat (-(positMag n es (2 ^ n - x)))
  else .ofRat (positMag n es x)

/-- Exponent and fraction widths of an IEEE format (R20). -/
def fpShape (f : Fmt) : Nat × Nat := match f with
  | .fp64 => (11, 52)
  | _ => (8, 23)

/-- R20: decoding a binary32 or binary64 pattern. -/
def decodeFp (eb mb x : Nat) : Val :=
  let neg := x.testBit (eb + mb)
  let e := (x / 2 ^ mb) % 2 ^ eb
  let f := x % 2 ^ mb
  let bias : Int := (2 ^ (eb - 1) : Nat) - 1
  if e = 2 ^ eb - 1 then (if f = 0 then .inf neg else .nan (!(f.testBit (mb - 1))))
  else if e = 0 then
    (if f = 0 then .num 0 neg else .ofRat (signQ neg ((f : Rat) * pow2 (1 - bias - mb))))
  else .ofRat (signQ neg (((2 ^ mb + f : Nat) : Rat) * pow2 ((e : Int) - bias - mb)))

/-- A stored element's value; `e` is its block exponent (R15, R16, R20, R24). -/
def decodeElem (f : Fmt) (e : Int) (x : Nat) : Val :=
  match f with
  | .p8 => decodePosit 8 2 x
  | .p16 => decodePosit 16 2 x
  | .p32 => decodePosit 32 2 x
  | .p64 => decodePosit 64 2 x
  | .bp4 => match decodePosit 4 1 x with
    | .num q _ => .ofRat (q * pow2 e)
    | v => v
  | .bp8 => match decodePosit 8 2 x with
    | .num q _ => .ofRat (q * pow2 e)
    | v => v
  | .fp32 => decodeFp 8 23 x
  | .fp64 => decodeFp 11 52 x
  | .i8 => .ofRat (signed 8 x)
  | .i4 => .ofRat (signed 4 x)
  | .u8 => .ofRat ((x % 256 : Nat) : Rat)

/-! Rounding. -/

/-- sr_bits (R32). -/
def srBits (keyLo keyHi draw i : Word) : Nat :=
  let x0 := keyLo ^^^ (draw * 0x9E3779B97F4A7C15#64) ^^^ (i * 0xD1B54A32D192ED03#64)
  let rnd := fun x : Word =>
    let x := x ^^^ (x >>> 30)
    let x := x * 0xBF58476D1CE4E5B9#64
    let x := x ^^^ (x >>> 27)
    let x := x * 0x94D049BB133111EB#64
    let x := x ^^^ (x >>> 31)
    x ^^^ keyHi
  ((rnd (rnd (rnd x0))) >>> 40).toNat

/-- A rounding: code (Table 1.7) and the draw r of the element (R31). -/
structure Rnd where
  code : Nat
  r : Nat
  deriving DecidableEq, Repr

def Rnd.rne : Rnd := ⟨0, 0⟩

/-- R31: the result takes the larger magnitude. -/
def stochUp (r : Nat) (a lo hi : Rat) : Bool := decide ((((2 ^ 24 : Nat) : Rat) * (a - lo) / (hi - lo)).floor > (r : Int))

/-- Round up from `p` at fraction `t` under codes 0 to 3 (R23, R28). -/
def roundUp (code : Nat) (neg : Bool) (odd : Bool) (t : Rat) : Bool :=
  match code with
  | 0 => decide (t > 1 / 2) || (decide (t = 1 / 2) && odd)
  | 2 => !neg && decide (t > 0)
  | 3 => neg && decide (t > 0)
  | _ => false

/-- A conversion's outcome: pattern, flags, and whether it counts in ov_count or un_count of a max-abs slot (R35). -/
structure Cv where
  pat : Nat
  fl : Flags
  sat : Bool
  low : Bool
  deriving DecidableEq, Repr

/-- The place of magnitude `a` on the pattern axis of posit⟨n,es⟩ (R45, y). -/
def positY (n es : Nat) (a : Rat) : Rat :=
  let s := flog2 a
  let k := s / ((2 ^ es : Nat) : Int)
  let e := s - k * ((2 ^ es : Nat) : Int)
  let f := a / pow2 s - 1
  let reg : Int := if 0 ≤ k then ((2 ^ (k + 2).toNat : Nat) : Int) - 2 else 1
  let rl : Int := if 0 ≤ k then k + 2 else 1 - k
  (((reg * ((2 ^ es : Nat) : Int) + e : Int) : Rat) + f) * pow2 ((n : Int) - 1 - rl - es)

def positTop (n es : Nat) : Rat := pow2 (((n - 2) * 2 ^ es : Nat) : Int)

/-- A positive magnitude to posit⟨n,es⟩: pattern and flags (R28, R31, R45). -/
def roundPositMag (n es : Nat) (m : Rnd) (a : Rat) : Nat × Flags :=
  let top := positTop n es
  if a > top then (2 ^ (n - 1) - 1, fOV ||| fNX)
  else if a < 1 / top then (1, fUN ||| fNX)
  else
    let y := positY n es a
    let p := y.floor.toNat
    let t := y - p
    let up := if m.code = 4 then decide (t ≠ 0) && stochUp m.r a (positMag n es p) (positMag n es (p + 1))
      else roundUp 0 false (p % 2 == 1) t
    (if up then p + 1 else p, flagIf (decide (t > 0)) fNX)

/-- R45 round_posit on a real: pattern and flags. -/
def roundPosit (n es : Nat) (m : Rnd) (q : Rat) : Nat × Flags :=
  if q = 0 then (0, 0)
  else
    let r := roundPositMag n es m (qabs q)
    (if q < 0 then 2 ^ n - r.1 else r.1, r.2)

/-- Largest finite pattern of an IEEE format. -/
def fpMaxPat (eb mb : Nat) : Nat := (2 ^ eb - 1) * 2 ^ mb - 1

/-- The pattern of magnitude `a` cut to an IEEE format without an exponent limit, and the part cut off (R20). -/
def fpCut (eb mb : Nat) (a : Rat) : Nat × Rat :=
  let emin : Int := 2 - (2 ^ (eb - 1) : Nat)
  let e := max (flog2 a) emin
  let y := a / pow2 (e - mb)
  let p := y.floor.toNat
  ((e - emin).toNat * 2 ^ mb + p, y - p)

/-- What an overflow gives under a direction: ∞ or the largest finite pattern (R20). -/
def fpOverflow (eb mb code : Nat) (neg : Bool) : Nat :=
  let maxp := fpMaxPat eb mb
  match code with
  | 1 => maxp
  | 2 => if neg then maxp else maxp + 1
  | 3 => if neg then maxp + 1 else maxp
  | _ => maxp + 1

/-- The magnitude rounded at the format's precision without an exponent limit lies below the normal range (R21). -/
def fpTiny (eb mb code : Nat) (neg : Bool) (a : Rat) : Bool :=
  let emin : Int := 2 - (2 ^ (eb - 1) : Nat)
  let ex := flog2 a
  let y := a / pow2 (ex - mb)
  let p := y.floor.toNat
  let r := if roundUp code neg (p % 2 == 1) (y - p) then p + 1 else p
  decide ((r : Rat) * pow2 (ex - mb) < pow2 emin)

/-- A positive magnitude to an IEEE format (R20, R21, R31): pattern without sign, and flags. Under code 4 the flags, and
the result beyond the largest finite magnitude, are those of code 0. -/
def roundFpMag (eb mb : Nat) (m : Rnd) (neg : Bool) (a : Rat) : Nat × Flags :=
  let code := if m.code = 4 then 0 else m.code
  let c := fpCut eb mb a
  let maxp := fpMaxPat eb mb
  let inex := decide (c.2 > 0)
  let p := if roundUp code neg (c.1 % 2 == 1) c.2 then c.1 + 1 else c.1
  if c.1 > maxp || p > maxp then (fpOverflow eb mb code neg, fOV ||| fNX)
  else
    let fl := flagIf inex fNX ||| flagIf (inex && fpTiny eb mb code neg a) fUN
    if m.code = 4 && c.1 < maxp then
      (if decide ((((2 ^ 24 : Nat) : Rat) * c.2).floor > (m.r : Int)) then c.1 + 1 else c.1, fl)
    else (p, fl)

/-- A real to an IEEE format; `nz`: the zero is −0. -/
def roundFp (eb mb : Nat) (m : Rnd) (q : Rat) (nz : Bool) : Nat × Flags :=
  let sgn := 2 ^ (eb + mb)
  if q = 0 then (if nz then sgn else 0, 0)
  else
    let neg := decide (q < 0)
    let r := roundFpMag eb mb m neg (qabs q)
    (if neg then r.1 + sgn else r.1, r.2)

/-- Range of an integer target (R29, R57). -/
def intRange : Fmt → Int × Int
  | .i4 => (-8, 7)
  | .u8 => (0, 255)
  | _ => (-128, 127)

/-- A real rounded to an integer in the selected mode (R29, R31). -/
def roundToInt (m : Rnd) (q : Rat) : Int :=
  let neg := decide (q < 0)
  let a := qabs q
  let p := a.floor.toNat
  let t := a - p
  let up := if m.code = 4 then decide (t ≠ 0) && decide ((((2 ^ 24 : Nat) : Rat) * t).floor > (m.r : Int))
    else roundUp m.code neg (p % 2 == 1) t
  let r : Int := ((if up then p + 1 else p : Nat) : Int)
  if neg then -r else r

/-- Rounded to an integer and saturated to a range: value, flags, saturated (R29). A stochastic rounding has the flags of code 0
(R31), and counts as saturated where code 0 does, which R31 does not say (DESIGN CHOICE, log 64). -/
def roundSat (lo hi : Int) (m : Rnd) (q : Rat) : Int × Flags × Bool :=
  let clamp := fun (i : Int) => max lo (min hi i)
  let r := clamp (roundToInt m q)
  let i := roundToInt (if m.code = 4 then Rnd.rne else m) q
  let beyond := decide (clamp i ≠ i)
  (r, flagIf beyond fOV ||| flagIf (decide ((r : Rat) ≠ q)) fNX, beyond)

/-- A value to a plain format (R26 to R31, Table 1.8). Block formats are `convertBlockElem`. -/
def convert (f : Fmt) (m : Rnd) (v : Val) : Cv :=
  match f with
  | .p8 | .p16 | .p32 | .p64 =>
    let n := f.width
    match v with
    | .num q _ =>
      let r := roundPosit n 2 m q
      ⟨r.1, r.2, r.2 &&& fOV == fOV, r.2 &&& fUN == fUN⟩
    | .inf _ => ⟨2 ^ (n - 1), fNV, false, false⟩
    | .nan s => ⟨2 ^ (n - 1), flagIf s fNV, false, false⟩
    | .nar => ⟨2 ^ (n - 1), 0, false, false⟩
  | .fp32 | .fp64 =>
    let (eb, mb) := fpShape f
    let qnan := (2 ^ eb - 1) * 2 ^ mb + 2 ^ (mb - 1)
    match v with
    | .num q nz => let r := roundFp eb mb m q nz
      ⟨r.1, r.2, false, false⟩
    | .inf n => ⟨(2 ^ eb - 1) * 2 ^ mb + (if n then 2 ^ (eb + mb) else 0), 0, false, false⟩
    | .nan s => ⟨qnan, flagIf s fNV, false, false⟩
    | .nar => ⟨qnan, 0, false, false⟩
  | _ =>
    let (lo, hi) := intRange f
    match v with
    | .num q _ => let r := roundSat lo hi m q
      ⟨lowBits f.width r.1, r.2.1, r.2.2, false⟩
    | .inf n => ⟨lowBits f.width (if n then lo else hi), fNV, false, false⟩
    | _ => ⟨0, fNV, false, false⟩

/-- Magnitude of a finite value. -/
def Val.mag : Val → Option Rat
  | .num q _ => some (qabs q)
  | _ => none

/-- The block exponent of R18 from the block's own values. -/
def blockExp (f : Fmt) (vs : List Val) : Int :=
  let m := vs.foldl (fun a v => match v.mag with
    | some q => if q > a then q else a
    | none => a) 0
  if m = 0 then -128
  else
    let e := flog2 m - (if f = .bp4 then 1 else 0)
    max (-127) (min 127 e)

/-- One element of a block with exponent `e` (R19, R31). -/
def convertBlockElem (f : Fmt) (e : Int) (m : Rnd) (v : Val) : Cv :=
  let n := f.width
  let es := if f = .bp4 then 1 else 2
  match v with
  | .num q _ =>
    let y := q / pow2 e
    let a := qabs y
    let minp := 1 / positTop n es
    if a = 0 then ⟨0, 0, false, false⟩
    else
      let neg := decide (y < 0)
      let r : Nat × Flags :=
        if a < minp then
          (if m.code = 4 then (if stochUp m.r a 0 minp then 1 else 0) else (if a < minp / 2 then 0 else 1), fUN ||| fNX)
        else roundPositMag n es m a
      ⟨if neg && decide (r.1 ≠ 0) then 2 ^ n - r.1 else r.1, r.2, r.2 &&& fOV == fOV, r.2 &&& fUN == fUN⟩
  | .inf _ => ⟨2 ^ (n - 1), fNV, false, false⟩
  | .nan s => ⟨2 ^ (n - 1), flagIf s fNV, false, false⟩
  | .nar => ⟨2 ^ (n - 1), 0, false, false⟩

/-- |v| rounded up to the next P32 magnitude, saturating at 2^120 (R35). -/
def maxAbsP32 (v : Val) : Nat :=
  match v with
  | .num q _ =>
    let a := qabs q
    if a = 0 then 0
    else if a > positTop 32 2 then 2 ^ 31 - 1
    else if a < 1 / positTop 32 2 then 1
    else (positY 32 2 a).ceil.toNat
  | _ => 0

/-! Exact arithmetic on decoded values. A result is later rounded once (R115). `code` is the rounding code, which fixes
the sign of an exact zero sum (R20). -/

/-- A quiet NaN and the NV of a signalling operand (R22). -/
def nanOf (sig : Bool) : Val × Flags := (.nan false, flagIf sig fNV)

def addV (code : Nat) (x y : Val) : Val × Flags :=
  match x, y with
  | .num a na, .num b nb =>
    let s := a + b
    if s = 0 then
      (if a = 0 then (.num 0 (if na == nb then na else code == 3), 0) else (.num 0 (code == 3), 0))
    else (.num s false, 0)
  | .inf a, .inf b => if a == b then (.inf a, 0) else (.nan false, fNV)
  | .inf a, .num _ _ => (.inf a, 0)
  | .num _ _, .inf b => (.inf b, 0)
  | _, _ => nanOf (x.isSig || y.isSig)

def negV : Val → Val
  | .num q nz => .num (-q) (decide (q = 0) && !nz)
  | .inf n => .inf (!n)
  | v => v

/-- Negation of a posit-typed value: there is one zero. -/
def negP : Val → Val
  | .num q _ => .num (-q) false
  | v => v

def absV : Val → Val
  | .num q _ => .num (qabs q) false
  | .inf _ => .inf false
  | v => v

def mulV (x y : Val) : Val × Flags :=
  match x, y with
  | .num a _, .num b _ =>
    let s := xor x.neg y.neg
    (.num (a * b) (decide (a * b = 0) && s), 0)
  | .inf a, .inf b => (.inf (xor a b), 0)
  | .inf a, .num b _ => if b = 0 then (.nan false, fNV) else (.inf (xor a (decide (b < 0))), 0)
  | .num a _, .inf b => if a = 0 then (.nan false, fNV) else (.inf (xor b (decide (a < 0))), 0)
  | _, _ => nanOf (x.isSig || y.isSig)

/-- Fused multiply-add; ∞ × 0 signals even with a quiet NaN addend (R20). -/
def fmaV (code : Nat) (x y z : Val) : Val × Flags :=
  let p := mulV x y
  let r := addV code p.1 z
  (r.1, p.2 ||| r.2)

/-- Division; `posit` for a posit-only operation (R115). -/
def divV (posit : Bool) (x y : Val) : Val × Flags :=
  if posit && y.isZero then (.nar, fDZ)
  else match x, y with
  | .num a _, .num b _ =>
    let s := xor x.neg y.neg
    if b = 0 then (if a = 0 then (.nan false, fNV) else (.inf s, fDZ))
    else (.num (a / b) (decide (a = 0) && s), 0)
  | .inf _, .inf _ => (.nan false, fNV)
  | .inf a, .num _ _ => (.inf (xor a y.neg), 0)
  | .num _ _, .inf b => (.num 0 (xor x.neg b), 0)
  | _, _ => nanOf (x.isSig || y.isSig)

/-- Integer square root by bits, from bit `i` downward. -/
def isqrtGo (n : Nat) : Nat → Nat → Nat
  | 0, r => r
  | i + 1, r =>
    let c := r + 2 ^ i
    isqrtGo n i (if c * c ≤ n then c else r)

def isqrt (n : Nat) : Nat := isqrtGo n (Nat.log2 n / 2 + 1) 0

/-- A rational that rounds as the square root of `q` does: the root itself when it is rational with this denominator,
else a point strictly between the two neighbouring multiples of 2^-t (R115: correctly rounded). -/
def sqrtApprox (q : Rat) : Rat :=
  let t := 320 + q.den.log2
  let n := q.num.toNat * q.den * 4 ^ t
  let r := isqrt n
  if r * r = n then mkRat r (q.den * 2 ^ t) else mkRat (2 * r + 1) (q.den * 2 ^ (t + 1))

def sqrtV (x : Val) : Val × Flags :=
  match x with
  | .num a nz => if a < 0 then (.nan false, fNV) else if a = 0 then (.num 0 nz, 0) else (.num (sqrtApprox a) false, 0)
  | .inf n => if n then (.nan false, fNV) else (.inf false, 0)
  | .nan s => nanOf s
  | .nar => nanOf false

/-- x < y of IEEE 754; false with a NaN. -/
def ltV (x y : Val) : Bool :=
  match x, y with
  | .num a _, .num b _ => decide (a < b)
  | .inf a, .inf b => a && !b
  | .inf a, .num _ _ => a
  | .num _ _, .inf b => !b
  | _, _ => false

/-- x = y of IEEE 754; false with a NaN. -/
def eqV (x y : Val) : Bool :=
  match x, y with
  | .num a _, .num b _ => decide (a = b)
  | .inf a, .inf b => a == b
  | _, _ => false

/-- Maximum (or minimum) of R34: a NaN is ignored, −0 below +0. -/
def maxV (wantMax : Bool) (x y : Val) : Val × Flags :=
  let fl := flagIf (x.isSig || y.isSig) fNV
  if x.isNan && y.isNan then (.nan false, fl)
  else if x.isNan then (y, fl)
  else if y.isNan then (x, fl)
  else
    let less := ltV x y || (eqV x y && x.neg && !y.neg)
    (if less == wantMax then y else x, fl)

/-- R15 order of posit values: NaR least and equal to itself. -/
def ltP (x y : Val) : Bool :=
  if x.isNan then !y.isNan else if y.isNan then false else ltV x y

def eqP (x y : Val) : Bool := if x.isNan || y.isNan then x.isNan && y.isNan else eqV x y

end Sys2Proof.Machine
end

