-- ==== Sys2Proof/Machine/Dot.lean ====
section
/-!
DEFINITION. The dot-product contract (02_dot_product_contract): products, quires, working sums, aligned groups, fused
multiply-add chains, integer sums, the reduction tree, integer rescale and pair output. NaR of a quire is `none`.
-/

namespace Sys2Proof.Machine

/-- Entry classes (Table 2.3, coded as Table 4.8). -/
inductive Cls where
  | none
  | q256
  | q512
  | q1024
  | f32
  | f64
  | z256
  deriving DecidableEq, Repr

def Cls.code : Cls → Nat
  | .none => 0
  | .q256 => 1
  | .q512 => 2
  | .q1024 => 3
  | .f32 => 4
  | .f64 => 5
  | .z256 => 6

/-- Table 4.8; code 7 is reserved. -/
def Cls.ofCode : Nat → Option Cls
  | 0 => some .none
  | 1 => some .q256
  | 2 => some .q512
  | 3 => some .q1024
  | 4 => some .f32
  | 5 => some .f64
  | 6 => some .z256
  | _ => Option.none

/-- Width of a class in bits. -/
def Cls.width : Cls → Nat
  | .q512 => 512
  | .q1024 => 1024
  | .f32 => 32
  | .f64 => 64
  | _ => 256

/-- Bed entries, hence columns, of one output (Table 2.3). -/
def Cls.span : Cls → Nat
  | .q512 => 2
  | .q1024 => 4
  | _ => 1

/-- Outputs of one tile row (64, 32 or 16; Table 4.4). -/
def Cls.outputs (c : Cls) : Nat := 64 / c.span

def Cls.isQuire : Cls → Bool
  | .q256 | .q512 | .q1024 => true
  | _ => false

/-- Fraction bits F of a quire of width w (R42). -/
def quireF (w : Nat) : Nat := (w - 32) / 2

/-- Accumulation modes (Table 2.1). -/
inductive Mode where
  | exact
  | aligned
  | ieee
  | integer
  deriving DecidableEq, Repr

def Mode.ofCode : Nat → Mode
  | 0 => .exact
  | 1 => .aligned
  | 2 => .ieee
  | _ => .integer

/-- Table 2.2: the entry class and beat (Table 3.1) of a mode and format pair; none if it is no row. -/
def pairClass (m : Mode) (a b : Fmt) : Option (Cls × Nat) :=
  let small := (a == .p8 || a == .p16) && (b == .p8 || b == .p16 || b == .i4 || b == .u8 || b == .i8)
  let block := a.isBlock && b.isBlock
  match m with
  | .exact =>
    if small || block then some (.q256, 1)
    else if a == .p32 && b == .p32 then some (.q512, 2)
    else if a == .p64 && b == .p64 then some (.q1024, 16)
    else none
  | .aligned => if small || block then some (.q256, 1) else none
  | .ieee =>
    if a == .fp32 && b == .fp32 then some (.f32, 4)
    else if a == .fp64 && b == .fp64 then some (.f64, 16)
    else none
  | .integer => if a == .i8 && b == .i8 then some (.z256, 1) else none

/-- R47 product on decoded operands, their block exponents included. -/
def product (blocked : Bool) (x y : Val) : Option Rat × Flags :=
  match x, y with
  | .num a _, .num b _ =>
    let p := a * b
    if blocked && decide (qabs p > pow2 112) then (some (signQ (decide (p < 0)) (pow2 112)), fOV)
    else if blocked && decide (0 < qabs p) && decide (qabs p < pow2 (-112)) then
      (some (signQ (decide (p < 0)) (pow2 (-112))), fUN)
    else (some p, 0)
  | _, _ => (none, 0)

/-- v × 2^F as an integer. Its callers give it multiples of 2^-F only: products of elements to the granularity of `Work.frac`
(`Work.addTerms`) and the elements and squares of a reduction (R117), so that nothing is cut off here. -/
def quireUnits (f : Nat) (v : Rat) : Int := (v * pow2 f).floor

/-- R46 quire_add in integer units; `none` is NaR. -/
def quireAdd (w : Nat) (q v : Option Int) : Option Int × Flags :=
  match q, v with
  | some a, some b =>
    if (a + b).natAbs ≥ 2 ^ (w - 1) then (none, fOV) else (some (a + b), 0)
  | _, _ => (none, 0)

/-- A quire's bits (R43). -/
def quirePat (w : Nat) : Option Int → Nat
  | none => 2 ^ (w - 1)
  | some q => lowBits w q

/-- A quire of `w` bits (R43). -/
def quireOf (w : Nat) (x : Nat) : Option Int := if x % 2 ^ w = 2 ^ (w - 1) then none else some (signed w x)

/-- The value of a quire (Table 2.3). -/
def quireVal (w : Nat) (q : Option Int) : Val :=
  match q with
  | none => .nar
  | some i => .ofRat (mkRat i (2 ^ quireF w))

/-- A working sum (R416): the exact sum, the NaR mark, and the part of the sum below one unit, in units of 2^-16 of it. R47
leaves a product of block elements its bits below 2^-112, and R48's sum is exact. -/
structure Work where
  sum : Int
  nar : Bool
  frac : Nat
  deriving DecidableEq, Repr

/-- The working sum with the exact products of one pass added (R48, R416). Every product of block elements that R47 leaves
unclamped is a multiple of 2^-128. -/
def Work.addTerms (f : Nat) (s : Work) (ts : List (Option Rat)) : Work :=
  let t : Rat := ts.foldl (fun a t => a + t.getD 0) 0
  let x := s.sum * 65536 + s.frac + quireUnits (f + 16) t
  ⟨x / 65536, s.nar || ts.any Option.isNone, (x % 65536).toNat⟩

/-- R48's test of an operation's total: the stored bits and the flags. A part of the total below one unit is dropped, toward
minus infinity (DESIGN CHOICE, log 19: quire_add presumes a multiple of the unit). -/
def closeQuire (w : Nat) (s : Work) : Nat × Flags :=
  if s.nar then (2 ^ (w - 1), 0)
  else
    let r := quireAdd w (some 0) (some s.sum)
    (quirePat w r.1, r.2)

/-- R56: the total modulo 2^256, OV when it leaves the Z256 range. -/
def closeInteger (s : Work) : Nat × Flags :=
  (lowBits 256 s.sum, flagIf (decide (s.sum < -(2 ^ 255 : Nat)) || decide (s.sum ≥ (2 ^ 255 : Nat))) fOV)

/-- One aligned group (R52): its contribution in units of 2^-112, none for NaR, and the flags. Row terms are lists of products. -/
def alignedGroup (rows : List (List (Option Rat))) : Option Int × Flags :=
  if rows.any fun r => r.any fun p => p.isNone then (none, 0)
  else
    let xs := rows.map fun r => r.foldl (fun a p => a + p.getD 0) (0 : Rat)
    let nz := xs.filter fun x => x ≠ 0
    match nz with
    | [] => (some 0, 0)
    | x0 :: t =>
      let emax := t.foldl (fun e x => max e (flog2 (qabs x))) (flog2 (qabs x0))
      let u := pow2 (emax - 38)
      let cut := fun x : Rat => (qabs x / u).floor
      let s : Int := xs.foldl (fun a x => a + (if x < 0 then -(cut x) else cut x)) 0
      let nx1 := xs.any fun x => decide (((cut x : Int) : Rat) * u ≠ qabs x)
      let mag := ((qabs (s : Rat)) * u * pow2 112).floor
      let d := if s < 0 then -mag else mag
      (some d, flagIf (nx1 || decide ((d : Rat) ≠ (s : Rat) * u * pow2 112)) fNX)

/-- The groups of a pass added to an entry in ascending order (R52). -/
def alignedAdd (q : Option Int) (groups : List (List (List (Option Rat)))) : Option Int × Flags :=
  groups.foldl (fun a g =>
    let d := alignedGroup g
    let r := quireAdd 256 a.1 d.1
    (r.1, a.2 ||| d.2 ||| r.2)) (q, 0)

/-- R54: one fused multiply-add of a chain, on patterns of the operation's format. -/
def fmaPat (f : Fmt) (rnd : Nat) (acc : Nat) (x y : Val) : Nat × Flags :=
  let r := fmaV rnd x y (decodeElem f 0 acc)
  let c := convert f ⟨rnd, 0⟩ r.1
  (c.pat, r.2 ||| c.fl)

/-- R54 chain over the pairs of a pass, in ascending k. -/
def ieeeChain (f : Fmt) (rnd : Nat) (acc : Nat) (ps : List (Val × Val)) : Nat × Flags :=
  ps.foldl (fun a p => let r := fmaPat f rnd a.1 p.1 p.2; (r.1, a.2 ||| r.2)) (acc, 0)

/-- R56 terms of a pass. -/
def intTerms (za zb : Int) (ps : List (Int × Int)) : Int := ps.foldl (fun a p => a + (p.1 - za) * (p.2 - zb)) 0

/-- One level of the tree of R55. -/
def pairUp {α : Type} (add : α → α → α) : List α → List α
  | a :: b :: t => add a b :: pairUp add t
  | l => l

/-- R55 combine: the tree over the parts. The first argument bounds the levels. -/
def combineTree {α : Type} (add : α → α → α) : Nat → List α → List α
  | 0, l => l
  | n + 1, l => if l.length ≤ 1 then l else combineTree add n (pairUp add l)

/-- R57 int_rescale: value and flags, and whether it saturated. -/
def intRescale (q m : Int) (sh : Nat) (zo : Int) (tgt : Fmt) : Int × Flags × Bool :=
  let t := q * m
  let p : Int := (2 ^ sh : Nat)
  let y := t / p
  let rem := t - y * p
  let y := if 2 * rem > p || (2 * rem = p && y % 2 = 1) then y + 1 else y
  let y := y + zo
  let (lo, hi) := intRange tgt
  let z := max lo (min hi y)
  (z, flagIf (rem ≠ 0) fNX ||| flagIf (z ≠ y) fOV, z ≠ y)

/-- R63 pair output: hi, lo and flags, and whether a part saturated or went to minpos. -/
def pairOut (v : Val) : Nat × Nat × Flags × Bool × Bool :=
  let h := convert .p16 .rne v
  match v with
  | .num q _ =>
    match decodePosit 16 2 h.pat with
    | .num a _ =>
      let l := convert .p16 .rne (.ofRat (q - a))
      let exact := match decodePosit 16 2 l.pat with
        | .num b _ => decide (a + b = q)
        | _ => false
      (h.pat, l.pat, flagIf (h.sat || l.sat) fOV ||| flagIf l.low fUN ||| flagIf (!exact) fNX, h.sat || l.sat, l.low)
    | _ => (h.pat, 0x8000, 0, false, false)
  | _ => (h.pat, 0x8000, h.fl, false, false)

end Sys2Proof.Machine
end

