-- ==== Sys2Proof/Machine/Sparse.lean ====
section
/-!
DEFINITION. Sparse data by key: a list of key and value pairs in one canonical form, keys strictly rising and no pair
that equals what an unlisted key reads as. Memory, the register file, descriptor tables and bed tiles use it.
-/

namespace Sys2Proof.Machine

/-- What key `k` holds. -/
def sget {α : Type} (d : Nat → α) : List (Nat × α) → Nat → α
  | [], k => d k
  | (a, x) :: t, k => if a = k then x else sget d t k

/-- The list without key `k`. -/
def sdrop {α : Type} (k : Nat) (m : List (Nat × α)) : List (Nat × α) := m.filter fun e => e.1 != k

/-- Key `k` holds `v` from now on; the canonical form is kept. -/
def sset {α : Type} [DecidableEq α] (d : Nat → α) : List (Nat × α) → Nat → α → List (Nat × α)
  | [], k, v => if v = d k then [] else [(k, v)]
  | (a, x) :: t, k, v =>
    if k < a then (if v = d k then (a, x) :: sdrop k t else (k, v) :: (a, x) :: t)
    else if k = a then (if v = d k then sdrop k t else (k, v) :: t)
    else (a, x) :: sset d t k v

/-- The canonical form: keys strictly rising from `lo`, no entry equal to its default. -/
def swfFrom {α : Type} [DecidableEq α] (d : Nat → α) : Nat → List (Nat × α) → Bool
  | _, [] => true
  | lo, (a, x) :: t => decide (lo ≤ a) && decide (x ≠ d a) && swfFrom d (a + 1) t

def swf {α : Type} [DecidableEq α] (d : Nat → α) (m : List (Nat × α)) : Bool := swfFrom d 0 m

/-- The entries whose key satisfies `p`. -/
def skeep {α : Type} (p : Nat → Bool) (m : List (Nat × α)) : List (Nat × α) := m.filter fun e => p e.1

/-- Write consecutive keys from `k`. -/
def ssetList {α : Type} [DecidableEq α] (d : Nat → α) (m : List (Nat × α)) (k : Nat) : List α → List (Nat × α)
  | [] => m
  | v :: vs => ssetList d (sset d m k v) (k + 1) vs

/-- The keys [lo, lo + n) take the values listed by offset, and their default where none is listed. -/
def sover {α : Type} [DecidableEq α] (d : Nat → α) (m : List (Nat × α)) (lo n : Nat) (new : List (Nat × α)) : List (Nat × α) :=
  skeep (fun k => decide (k < lo)) m ++
    new.foldr (fun e t => if e.1 < n then sset d t (lo + e.1) e.2 else t) (skeep (fun k => decide (lo + n ≤ k)) m)

/-- Read `n` consecutive keys from `k`. -/
def sgetList {α : Type} (d : Nat → α) (m : List (Nat × α)) (k : Nat) : Nat → List α
  | 0 => []
  | n + 1 => sget d m k :: sgetList d m (k + 1) n

end Sys2Proof.Machine
end

