-- ==== Sys2Proof/Machine/Crypto.lean ====
section
/-!
DEFINITION. The schemes that the trust chapter names by their standards (R345, R357): SHA-256 and SHA-512, HMAC, HKDF and MGF1,
RSASSA-PSS (RFC 8017), SLH-DSA-SHA2-192s and -192f (FIPS 205), AES-256-GCM, and RSA key generation with Hash_DRBG (FIPS 186-5,
SP 800-90A). What the standards say and the spec does not repeat is PRESUMED (log 10).
-/

namespace Sys2Proof.Machine

def xorBytes (a b : List Byte) : List Byte := List.zipWith (· ^^^ ·) a b

/-! Hashes. -/

/-- The initial hash value of SHA-512, from the first eight primes. -/
def shaInit512 : List Word := (shaPrimes.take 8).map (rootFraction 2)

/-- SHA-512 of a byte string, 64 bytes. -/
def sha512 (m : List Byte) : List Byte :=
  let p := shaPad m
  ((chunk 128 (p.length / 128) p).foldl shaBlock shaInit512).flatMap fun w => beBytes 8 w.toNat

abbrev Word32 := BitVec 32

/-- The upper half of a constant: the first 32 fraction bits. -/
def upper32 (w : Word) : Word32 := BitVec.ofNat 32 (w.toNat / 2 ^ 32)

def shaK256 : List Word32 := (shaK.take 64).map upper32
def shaInit256 : List Word32 := shaInit512.map upper32

def rotr32 (x : Word32) (n : Nat) : Word32 := (x >>> n) ||| (x <<< (32 - n))

def shaWords32 : Nat → List Byte → List Word32
  | 0, _ => []
  | n + 1, l => BitVec.ofNat 32 (beNat (l.take 4)) :: shaWords32 n (l.drop 4)

def shaNext32 (w : List Word32) : Word32 :=
  let a := w.getD 1 0
  let b := w.getD 14 0
  (rotr32 b 17 ^^^ rotr32 b 19 ^^^ (b >>> 10)) + w.getD 9 0 + (rotr32 a 7 ^^^ rotr32 a 18 ^^^ (a >>> 3)) + w.getD 0 0

/-- The working variables a to h. -/
structure ShaVars32 where
  a : Word32
  b : Word32
  c : Word32
  d : Word32
  e : Word32
  f : Word32
  g : Word32
  h : Word32
  deriving DecidableEq, Repr

def shaRound32 (v : ShaVars32) (k w : Word32) : ShaVars32 :=
  let t1 := v.h + (rotr32 v.e 6 ^^^ rotr32 v.e 11 ^^^ rotr32 v.e 25) + ((v.e &&& v.f) ^^^ (~~~v.e &&& v.g)) + k + w
  let t2 := (rotr32 v.a 2 ^^^ rotr32 v.a 13 ^^^ rotr32 v.a 22) + ((v.a &&& v.b) ^^^ (v.a &&& v.c) ^^^ (v.b &&& v.c))
  ⟨t1 + t2, v.a, v.b, v.c, v.d + t1, v.e, v.f, v.g⟩

def shaRounds32 : List Word32 → List Word32 → ShaVars32 → ShaVars32
  | [], _, v => v
  | k :: ks, w, v => shaRounds32 ks (w.drop 1 ++ [shaNext32 w]) (shaRound32 v k (w.getD 0 0))

def shaBlock32 (h : List Word32) (blk : List Byte) : List Word32 :=
  let g := fun i => h.getD i 0
  let v := shaRounds32 shaK256 (shaWords32 16 blk) ⟨g 0, g 1, g 2, g 3, g 4, g 5, g 6, g 7⟩
  [g 0 + v.a, g 1 + v.b, g 2 + v.c, g 3 + v.d, g 4 + v.e, g 5 + v.f, g 6 + v.g, g 7 + v.h]

/-- SHA-256 of a byte string, 32 bytes. -/
def sha256 (m : List Byte) : List Byte :=
  let p := m ++ [0x80] ++ zeros ((119 - m.length % 64) % 64) ++ beBytes 8 (8 * m.length)
  ((chunk 64 (p.length / 64) p).foldl shaBlock32 shaInit256).flatMap fun w => beBytes 4 w.toNat

/-- HMAC over a hash with 128-byte blocks. -/
def hmac (hash : List Byte → List Byte) (key m : List Byte) : List Byte :=
  let k := padTo 128 (if 128 < key.length then hash key else key)
  hash (k.map (· ^^^ 0x5C) ++ hash (k.map (· ^^^ 0x36) ++ m))

/-- Blocks T(1), T(2) … of HKDF's expansion, `n` of them, from T(i). -/
def hkdfBlocks (prk info : List Byte) : Nat → Nat → List Byte → List Byte
  | 0, _, _ => []
  | n + 1, i, t =>
    let u := hmac sha384 prk (t ++ info ++ beBytes 1 i)
    u ++ hkdfBlocks prk info n (i + 1) u

/-- HKDF with SHA-384 and an empty salt (R357). -/
def hkdf384 (ikm info : List Byte) (n : Nat) : List Byte := (hkdfBlocks (hmac sha384 [] ikm) info (ceilDiv n 48) 1 []).take n

/-- MGF1. -/
def mgf1 (hash : List Byte → List Byte) (seed : List Byte) (n : Nat) : List Byte :=
  ((List.range (ceilDiv n (hash []).length)).flatMap fun i => hash (seed ++ beBytes 4 i)).take n

/-! RSASSA-PSS with SHA-384 and a salt of 48 bytes (RFC 8017). -/

/-- b ^ e modulo m, for an exponent below 2 ^ f. -/
def modPow (m b : Nat) : Nat → Nat → Nat
  | 0, _ => 1 % m
  | f + 1, e =>
    if e = 0 then 1 % m
    else
      let h := modPow m b f (e / 2)
      if e % 2 = 1 then h * h % m * b % m else h * h % m

/-- The block DB's mask and the hash H of an encoded message: H for a salt. -/
def pssHash (m salt : List Byte) : List Byte := sha384 (zeros 8 ++ sha384 m ++ salt)

/-- EMSA-PSS-VERIFY: whether `em`, of `bits` bits, encodes the message. -/
def pssOk (m em : List Byte) (bits : Nat) : Bool :=
  let n := ceilDiv bits 8
  let masked := em.take (n - 49)
  let h := (em.drop (n - 49)).take 48
  let top := 2 ^ (8 - (8 * n - bits))
  let db := xorBytes masked (mgf1 sha384 h (n - 49))
  let db := db.set 0 (BitVec.ofNat 8 ((db.headD 0).toNat % top))
  decide (98 ≤ n) && em.length == n && em.getLastD 0 == 0xBC && decide ((masked.headD 0).toNat < top) &&
    (db.take (n - 98)).all (· == 0) && db.getD (n - 98) 0 == 1 && h == pssHash m (db.drop (n - 97))

/-- EMSA-PSS-ENCODE. -/
def pssEncode (m salt : List Byte) (bits : Nat) : List Byte :=
  let n := ceilDiv bits 8
  let h := pssHash m salt
  let db := xorBytes (zeros (n - 98) ++ [1] ++ salt) (mgf1 sha384 h (n - 49))
  db.set 0 (BitVec.ofNat 8 ((db.headD 0).toNat % 2 ^ (8 - (8 * n - bits)))) ++ h ++ [0xBC]

/-- Bits of a number. -/
def bitLength (n : Nat) : Nat := if n = 0 then 0 else n.log2 + 1

/-- RSASSA-PSS-VERIFY under modulus and exponent, 384 and 4 bytes (R346). -/
def rsaVerify (pub m sig : List Byte) : Bool :=
  let n := beNat (pub.take 384)
  let s := beNat sig
  let bits := bitLength n - 1
  sig.length == 384 && decide (s < n) && ceilDiv (bits + 1) 8 == 384 &&
    pssOk m (beBytes (ceilDiv bits 8) (modPow n s 32 (beNat ((pub.drop 384).take 4)))) bits

/-- An RSA key pair by its primes, with e = 65 537. -/
structure RsaKey where
  p : Nat
  q : Nat
  deriving DecidableEq, Repr

def RsaKey.pub (k : RsaKey) : List Byte := beBytes 384 (k.p * k.q) ++ beBytes 4 65537

/-- The private exponent: the inverse of e modulo the least common multiple of p - 1 and q - 1. -/
def RsaKey.d (k : RsaKey) : Nat :=
  let l := Nat.lcm (k.p - 1) (k.q - 1)
  match (List.range 65537).find? fun x => (1 + l * x) % 65537 == 0 with
  | some x => (1 + l * x) / 65537
  | none => 0

/-- RSASSA-PSS-SIGN with a salt. -/
def RsaKey.sign (k : RsaKey) (m salt : List Byte) : List Byte :=
  let n := k.p * k.q
  beBytes 384 (modPow n (beNat (pssEncode m salt (bitLength n - 1))) 4096 k.d)

/-! SLH-DSA with SHA-2 and n = 24 (FIPS 205). -/

/-- A parameter set: the height of the hypertree, its layers, the height of a tree, the height and number of FORS trees. -/
structure SlhSet where
  h : Nat
  d : Nat
  hp : Nat
  a : Nat
  k : Nat
  deriving DecidableEq, Repr

def slh192s : SlhSet := ⟨63, 7, 9, 14, 17⟩
def slh192f : SlhSet := ⟨66, 22, 3, 8, 33⟩

def SlhSet.mdLen (x : SlhSet) : Nat := ceilDiv (x.k * x.a) 8
def SlhSet.treeLen (x : SlhSet) : Nat := ceilDiv (x.h - x.hp) 8
def SlhSet.leafLen (x : SlhSet) : Nat := ceilDiv x.hp 8
def SlhSet.forsLen (x : SlhSet) : Nat := x.k * (x.a + 1) * 24
def SlhSet.xmssLen (x : SlhSet) : Nat := (51 + x.hp) * 24
def SlhSet.sigLen (x : SlhSet) : Nat := 24 + x.forsLen + x.d * x.xmssLen

/-- An address: layer, tree, type, and the three words whose meaning the type gives. -/
structure SlhAdrs where
  layer : Nat
  tree : Nat
  type : Nat
  kp : Nat
  hi : Nat
  lo : Nat
  deriving DecidableEq, Repr

/-- The compressed address. -/
def SlhAdrs.bytes (x : SlhAdrs) : List Byte :=
  beBytes 1 x.layer ++ beBytes 8 x.tree ++ beBytes 1 x.type ++ beBytes 4 x.kp ++ beBytes 4 x.hi ++ beBytes 4 x.lo

/-- F, and PRF with the secret seed as its message. -/
def slhF (seed : List Byte) (x : SlhAdrs) (m : List Byte) : List Byte := (sha256 (seed ++ zeros 40 ++ x.bytes ++ m)).take 24
/-- H and T. -/
def slhH (seed : List Byte) (x : SlhAdrs) (m : List Byte) : List Byte := (sha512 (seed ++ zeros 104 ++ x.bytes ++ m)).take 24

/-- The first `n` digits of `b` bits of a byte string. -/
def baseDigits (m : List Byte) (b n : Nat) : List Nat :=
  let v := beNat m
  (List.range n).map fun i => v / 2 ^ (8 * m.length - b * (i + 1)) % 2 ^ b

/-- The digits of a WOTS+ message with their checksum. -/
def wotsDigits (m : List Byte) : List Nat :=
  let ds := baseDigits m 4 48
  ds ++ baseDigits (beBytes 2 (16 * ds.foldl (fun n d => n + (15 - d)) 0)) 4 3

/-- `s` steps of a chain from step `i`. -/
def wotsChain (seed : List Byte) (x : SlhAdrs) : Nat → Nat → List Byte → List Byte
  | 0, _, v => v
  | s + 1, i, v => wotsChain seed x s (i + 1) (slhF seed { x with lo := i } v)

def SlhAdrs.retype (x : SlhAdrs) (t : Nat) : SlhAdrs := { x with type := t, hi := 0, lo := 0 }

/-- The secret value of chain `i`. -/
def wotsSecret (sk seed : List Byte) (x : SlhAdrs) (i : Nat) : List Byte := slhF seed { x.retype 5 with hi := i } sk

def wotsCompress (seed : List Byte) (x : SlhAdrs) (vs : List (List Byte)) : List Byte := slhH seed (x.retype 1) vs.flatten

def wotsPub (sk seed : List Byte) (x : SlhAdrs) : List Byte :=
  wotsCompress seed x ((List.range 51).map fun i => wotsChain seed { x.retype 0 with hi := i } 15 0 (wotsSecret sk seed x i))

def wotsSign (sk seed : List Byte) (x : SlhAdrs) (m : List Byte) : List Byte :=
  ((wotsDigits m).mapIdx fun i n => wotsChain seed { x.retype 0 with hi := i } n 0 (wotsSecret sk seed x i)).flatten

def wotsFromSig (seed : List Byte) (x : SlhAdrs) (sig m : List Byte) : List Byte :=
  wotsCompress seed x ((wotsDigits m).mapIdx fun i n => wotsChain seed { x.retype 0 with hi := i } (15 - n) n ((sig.drop (24 * i)).take 24))

/-- Node `i` at height `z` of an XMSS tree. -/
def xmssNode (sk seed : List Byte) (x : SlhAdrs) : Nat → Nat → List Byte
  | 0, i => wotsPub sk seed { x with kp := i }
  | z + 1, i => slhH seed { x with type := 2, kp := 0, hi := z + 1, lo := i } (xmssNode sk seed x z (2 * i) ++ xmssNode sk seed x z (2 * i + 1))

/-- The sibling of a node's index. -/
def sibling (i : Nat) : Nat := if i % 2 = 0 then i + 1 else i - 1

def xmssSign (set : SlhSet) (sk seed : List Byte) (x : SlhAdrs) (i : Nat) (m : List Byte) : List Byte :=
  wotsSign sk seed { x with kp := i } m ++ (List.range set.hp).flatMap fun j => xmssNode sk seed x j (sibling (i / 2 ^ j))

/-- The root that a leaf and its authentication path give: `n` levels from height `z`, for index `i` of that height. -/
def climb (seed : List Byte) (x : SlhAdrs) : Nat → Nat → Nat → List Byte → List Byte → List Byte
  | 0, _, _, _, v => v
  | n + 1, z, i, auth, v =>
    let s := auth.take 24
    climb seed x n (z + 1) (i / 2) (auth.drop 24) (slhH seed { x with hi := z + 1, lo := i / 2 } (if i % 2 = 0 then v ++ s else s ++ v))

def xmssFromSig (set : SlhSet) (seed : List Byte) (x : SlhAdrs) (i : Nat) (sig m : List Byte) : List Byte :=
  climb seed { x with type := 2, kp := 0 } set.hp 0 i (sig.drop (51 * 24)) (wotsFromSig seed { x with kp := i } sig m)

/-- The hypertree's signature: layers from `j` on, `n` of them. -/
def htSign (set : SlhSet) (sk seed : List Byte) : Nat → Nat → Nat → Nat → List Byte → List Byte
  | 0, _, _, _, _ => []
  | n + 1, j, tree, leaf, m =>
    let x : SlhAdrs := ⟨j, tree, 0, 0, 0, 0⟩
    let s := xmssSign set sk seed x leaf m
    s ++ htSign set sk seed n (j + 1) (tree / 2 ^ set.hp) (tree % 2 ^ set.hp) (xmssFromSig set seed x leaf s m)

/-- The root that a hypertree signature gives. -/
def htRoot (set : SlhSet) (seed : List Byte) : Nat → Nat → Nat → Nat → List Byte → List Byte → List Byte
  | 0, _, _, _, _, m => m
  | n + 1, j, tree, leaf, sig, m =>
    htRoot set seed n (j + 1) (tree / 2 ^ set.hp) (tree % 2 ^ set.hp) (sig.drop set.xmssLen)
      (xmssFromSig set seed ⟨j, tree, 0, 0, 0, 0⟩ leaf (sig.take set.xmssLen) m)

def forsSecret (sk seed : List Byte) (x : SlhAdrs) (i : Nat) : List Byte := slhF seed { x.retype 6 with lo := i } sk

/-- Node `i` at height `z` of the FORS trees. -/
def forsNode (sk seed : List Byte) (x : SlhAdrs) : Nat → Nat → List Byte
  | 0, i => slhF seed { x with hi := 0, lo := i } (forsSecret sk seed x i)
  | z + 1, i => slhH seed { x with hi := z + 1, lo := i } (forsNode sk seed x z (2 * i) ++ forsNode sk seed x z (2 * i + 1))

def forsSign (set : SlhSet) (sk seed : List Byte) (x : SlhAdrs) (md : List Byte) : List Byte :=
  ((baseDigits md set.a set.k).mapIdx fun i n =>
    forsSecret sk seed x (i * 2 ^ set.a + n) ++
      (List.range set.a).flatMap fun j => forsNode sk seed x j (i * 2 ^ (set.a - j) + sibling (n / 2 ^ j))).flatten

def forsFromSig (set : SlhSet) (seed : List Byte) (x : SlhAdrs) (sig md : List Byte) : List Byte :=
  let roots := (baseDigits md set.a set.k).mapIdx fun i n =>
    let s := (sig.drop (i * (set.a + 1) * 24)).take ((set.a + 1) * 24)
    let leaf := i * 2 ^ set.a + n
    climb seed x set.a 0 leaf (s.drop 24) (slhF seed { x with hi := 0, lo := leaf } (s.take 24))
  slhH seed (x.retype 4) roots.flatten

/-- The digest of a message, cut into the FORS message, the tree and the leaf. -/
def slhDigest (set : SlhSet) (r seed root m : List Byte) : List Byte × Nat × Nat :=
  let n := set.mdLen + set.treeLen + set.leafLen
  let g := mgf1 sha512 (r ++ seed ++ sha512 (r ++ seed ++ root ++ m)) n
  (g.take set.mdLen, beNat ((g.drop set.mdLen).take set.treeLen) % 2 ^ (set.h - set.hp), beNat (g.drop (set.mdLen + set.treeLen)) % 2 ^ set.hp)

/-- Pure signing with an empty context (R345). -/
def slhMessage (m : List Byte) : List Byte := [0, 0] ++ m

/-- SLH-DSA verification under a public key of 48 bytes. -/
def slhVerify (set : SlhSet) (pub m sig : List Byte) : Bool :=
  let seed := pub.take 24
  let root := (pub.drop 24).take 24
  let g := slhDigest set (sig.take 24) seed root (slhMessage m)
  let pk := forsFromSig set seed ⟨0, g.2.1, 3, g.2.2, 0, 0⟩ ((sig.drop 24).take set.forsLen) g.1
  sig.length == set.sigLen && pub.length == 48 && htRoot set seed set.d 0 g.2.1 g.2.2 (sig.drop (24 + set.forsLen)) pk == root

/-- An SLH-DSA key pair: secret seed, PRF key, public seed, root. -/
structure SlhKey where
  sk : List Byte
  prf : List Byte
  seed : List Byte
  root : List Byte
  deriving DecidableEq, Repr

def SlhKey.pub (k : SlhKey) : List Byte := k.seed ++ k.root

/-- Key generation from its three seeds. -/
def slhKeygen (set : SlhSet) (sk prf seed : List Byte) : SlhKey :=
  ⟨sk, prf, seed, xmssNode sk seed ⟨set.d - 1, 0, 0, 0, 0, 0⟩ set.hp 0⟩

/-- Signing with the randomness `rnd`. -/
def SlhKey.sign (k : SlhKey) (set : SlhSet) (m rnd : List Byte) : List Byte :=
  let msg := slhMessage m
  let r := (hmac sha512 k.prf (rnd ++ msg)).take 24
  let g := slhDigest set r k.seed k.root msg
  let x : SlhAdrs := ⟨0, g.2.1, 3, g.2.2, 0, 0⟩
  let fors := forsSign set k.sk k.seed x g.1
  r ++ fors ++ htSign set k.sk k.seed set.d 0 g.2.1 g.2.2 (forsFromSig set k.seed x fors g.1)

/-! AES-256-GCM. -/

/-- Product in GF(2^8) modulo x^8 + x^4 + x^3 + x + 1. -/
def gfMul (a b : Byte) : Byte :=
  ((List.range 8).foldl (fun (s : Byte × Byte) i =>
    (if b.toNat.testBit i then s.1 ^^^ s.2 else s.1, (s.2 <<< 1) ^^^ (if s.2.toNat.testBit 7 then 0x1B else 0))) (0, a)).1

/-- The S-box: the inverse, which is the 254th power, and the affine map. -/
def aesSub (x : Byte) : Byte :=
  let sq := fun (y : Byte) => gfMul y y
  let x2 := sq x
  let x3 := gfMul x2 x
  let x6 := sq x3
  let x7 := gfMul x6 x
  let x14 := sq x7
  let x15 := gfMul x14 x
  let x30 := sq x15
  let x31 := gfMul x30 x
  let x62 := sq x31
  let x63 := gfMul x62 x
  let x126 := sq x63
  let inv := sq (gfMul x126 x)
  let rot := fun (n : Nat) => (inv <<< n) ||| (inv >>> (8 - n))
  inv ^^^ rot 1 ^^^ rot 2 ^^^ rot 3 ^^^ rot 4 ^^^ 0x63

/-- The next word of the key schedule: the window holds the last eight words. -/
def aesNextWord (i : Nat) (w : List (List Byte)) (rcon : Byte) : List Byte :=
  let t := w.getD 7 []
  let t := if i % 8 = 0 then (match (t.drop 1 ++ t.take 1).map aesSub with
      | x :: r => (x ^^^ rcon) :: r
      | [] => [])
    else if i % 8 = 4 then t.map aesSub else t
  xorBytes (w.getD 0 []) t

/-- Words of the key schedule from the `i`-th on, `n` of them. -/
def aesWords : Nat → Nat → List (List Byte) → Byte → List (List Byte)
  | 0, _, _, _ => []
  | n + 1, i, w, rcon =>
    let x := aesNextWord i w rcon
    x :: aesWords n (i + 1) (w.drop 1 ++ [x]) (if i % 8 = 0 then gfMul rcon 2 else rcon)

/-- The fifteen round keys. -/
def aesKeys (key : List Byte) : List (List Byte) :=
  let w := chunk 4 8 key
  chunk 16 15 (w ++ aesWords 52 8 w 1).flatten

def aesShiftRows (s : List Byte) : List Byte := (List.range 16).map fun i => s.getD ((i + 4 * (i % 4)) % 16) 0

def aesMixColumn (c : List Byte) : List Byte :=
  (List.range 4).map fun i =>
    gfMul (c.getD i 0) 2 ^^^ gfMul (c.getD ((i + 1) % 4) 0) 3 ^^^ c.getD ((i + 2) % 4) 0 ^^^ c.getD ((i + 3) % 4) 0

/-- A block enciphered under the round keys. -/
def aesBlock (keys : List (List Byte)) (b : List Byte) : List Byte :=
  let s := ((keys.drop 1).take 13).foldl (fun (s : List Byte) k =>
    xorBytes ((chunk 4 4 (aesShiftRows (s.map aesSub))).flatMap aesMixColumn) k) (xorBytes b (keys.getD 0 []))
  xorBytes (aesShiftRows (s.map aesSub)) (keys.getD 14 [])

/-- Product in GF(2^128) as GCM orders bits: the first bit of a block is its most significant. -/
def ghashMul (x y : BitVec 128) : BitVec 128 :=
  ((List.range 128).foldl (fun (s : BitVec 128 × BitVec 128) i =>
    (if x.getMsbD i then s.1 ^^^ s.2 else s.1,
     (s.2 >>> 1) ^^^ (if s.2.getLsbD 0 then (0xE1 : BitVec 128) <<< 120 else 0))) (0, y)).1

def ghash (h : BitVec 128) (m : List Byte) : BitVec 128 :=
  (chunk 16 (ceilDiv m.length 16) m).foldl (fun y b => ghashMul (y ^^^ BitVec.ofNat 128 (beNat (padTo 16 b))) h) 0

/-- The key stream on the data, from counter 2. -/
def gcmStream (keys : List (List Byte)) (iv m : List Byte) : List Byte :=
  ((chunk 16 (ceilDiv m.length 16) m).mapIdx fun i b => xorBytes b (aesBlock keys (iv ++ beBytes 4 (i + 2)))).flatten

/-- The tag of a ciphertext. -/
def gcmTag (keys : List (List Byte)) (iv c : List Byte) : List Byte :=
  let h := BitVec.ofNat 128 (beNat (aesBlock keys (zeros 16)))
  let g := ghash h (padTo (16 * ceilDiv c.length 16) c ++ beBytes 8 0 ++ beBytes 8 (8 * c.length))
  xorBytes (beBytes 16 g.toNat) (aesBlock keys (iv ++ beBytes 4 1))

/-- What is wrapped under AES-256-GCM: the nonce of 12 bytes, the ciphertext, the tag of 16 bytes. -/
def gcmWrap (key iv m : List Byte) : List Byte :=
  let keys := aesKeys key
  let c := gcmStream keys iv m
  iv ++ c ++ gcmTag keys iv c

/-- `n` bytes unwrapped, where the tag holds. -/
def gcmUnwrap (key w : List Byte) (n : Nat) : Option (List Byte) :=
  let keys := aesKeys key
  let iv := w.take 12
  let c := (w.drop 12).take n
  if (w.drop (12 + n)).take 16 = gcmTag keys iv c then some (gcmStream keys iv c) else none

/-! RSA key generation (FIPS 186-5 A.1.3) with Hash_DRBG (SP 800-90A) over SHA-384. -/

/-- The derivation function, to 111 bytes. -/
def hashDf (m : List Byte) : List Byte :=
  ((List.range 3).flatMap fun i => sha384 (beBytes 1 (i + 1) ++ beBytes 4 888 ++ m)).take 111

/-- The generator: V, C and the reseed counter. -/
structure Drbg where
  v : Nat
  c : Nat
  n : Nat
  deriving DecidableEq, Repr

def Drbg.seeded (entropy : List Byte) : Drbg :=
  let v := hashDf entropy
  ⟨beNat v, beNat (hashDf (0 :: v)), 1⟩

/-- `n` bytes. -/
def Drbg.next (g : Drbg) (n : Nat) : List Byte × Drbg :=
  let out := ((List.range (ceilDiv n 48)).flatMap fun i => sha384 (beBytes 111 ((g.v + i) % 2 ^ 888))).take n
  let h := beNat (sha384 (3 :: beBytes 111 g.v))
  (out, ⟨(g.v + h + g.c + g.n) % 2 ^ 888, g.c, g.n + 1⟩)

/-- A prime of 1 536 bits, at least the square root of 2 times 2^1535, whose predecessor is prime to e, and which differs from `other` by
more than 2^1436; `f` strings are drawn at most. -/
def drawPrime (other : Option Nat) : Nat → Drbg → Option (Nat × Drbg)
  | 0, _ => none
  | f + 1, g =>
    let r := g.next 192
    let x := beNat r.1
    let x := if x % 2 = 0 then x + 1 else x
    let near := other.any fun p => decide ((x - p) + (p - x) ≤ 2 ^ 1436)
    if 2 ^ 3071 ≤ x * x && Nat.gcd (x - 1) 65537 == 1 && !near && decide (Nat.Prime x) then some (x, r.2) else drawPrime other f r.2

/-- The RSA key that the seed gives (R357). -/
def rsaGenerate (seed : List Byte) : Option RsaKey :=
  match drawPrime none 15360 (Drbg.seeded seed) with
  | none => none
  | some p => (drawPrime (some p.1) 30720 p.2).map fun q => ⟨p.1, q.1⟩

end Sys2Proof.Machine
end

