-- ==== Sys2Proof/Machine/State.lean ====
section
/-!
DEFINITION. The state of the block: every piece of state the manual names, as plain data, and the queue of waiting
commands. INVENTORY.md lists each field with its rule. Registers that software reads or writes whole live in `regs`.
-/

namespace Sys2Proof.Machine

/-- Why a step stops. It has no constructor: no command of the block stops the machine (a fault of the manual stops a
last, R159, and is an ordinary next state). Safe. -/
inductive Fault where
  deriving DecidableEq, Repr

/-- Why a command is refused. -/
inductive Refusal where
  /-- Raised by an arm of `exec` whose command has no meaning yet. Safe: the step stops. -/
  | notModelled (mnemonic : String)
  deriving DecidableEq, Repr

/-- SEQ_STAT state (Table 6.18). -/
inductive StrandSt where
  | idle
  | running
  | trapped
  | halting
  | done
  | stopped
  | paused
  deriving DecidableEq, Repr

/-- Last states (Table 6.1). -/
inductive LastSt where
  | empty
  | loaded
  | running
  | paused
  | stopped
  | done
  deriving DecidableEq, Repr

/-- Power states (Table 12.15). -/
inductive DomSt where
  | off
  | waking
  | on
  | draining
  | selfRefresh
  | out
  deriving DecidableEq, Repr

/-- Link states (Table 9.2). -/
inductive LinkSt where
  | off
  | training
  | up
  | down
  | miscabled
  deriving DecidableEq, Repr

/-- Where an operation stands: waiting in its queue, started, in the pattern engine's reload port (R135), or stopped by a
pause and kept as an operation record (R293). -/
inductive Phase where
  | queued
  | port
  | started
  | stopped
  deriving DecidableEq, Repr

/-- A dispatched engine or hod operation that has not completed (R155, Table 10.6). -/
structure Op where
  /-- Dispatch sequence number. -/
  id : Nat
  core : CoreId
  strand : StrandId
  last : LastId
  pc : LAddr
  opcode : Byte
  w : BitVec 56
  /-- Where it runs: another core after a steal move (R168). -/
  ecore : CoreId
  earray : ArrayId
  tiles : List TileId
  /-- The descriptor copies of dispatch (R153, R219): own, A tensor, B tensor. -/
  desc : List Word
  ta : List Word
  tb : List Word
  /-- Stock address of a LIFT or RELOAD (R188). -/
  stock : LAddr
  draw : Word
  /-- The pattern bank a PLOOK reads or a PLOAD writes (R134, R135). -/
  bank : Bool
  phase : Phase
  /-- The cycle it started in; while it waits in its queue, the last cycle in which it could not start. -/
  began : Nat
  /-- Earliest cycle of its completion. -/
  due : Nat
  /-- Passes whose first slot has entered, or the next element, output or entry to be read (Table 10.5). -/
  pos : Nat
  /-- Index at which it last started. -/
  base : Nat
  /-- Where a pause stops it. -/
  stop : Option Nat
  /-- The slice of the next pass stands in the shadow registers, or its load has begun, or no load is needed. -/
  loaded : Bool
  /-- Cycle of the load's first row. For a PLOAD: 1 more than the number of the first PSWAP behind it, 0 while there is none. -/
  loadAt : Nat
  /-- Rows written by a load in progress (R70), and whether the token of its pass has entered (R71). -/
  rows : Option Nat
  tok : Bool
  /-- The next slot of the pass that enters, and the cycle in which its beat begins (R65). -/
  feed : Option (Nat × Nat)
  /-- Cycle of slot 0 since it started, from which its slots are numbered by beat (R65). -/
  slot0 : Option Nat
  /-- An MMALW whose slice was consumed or overwritten (R75). -/
  closed : Bool
  /-- The class it would give its tiles no longer counts in the dispatched class (R168). -/
  noCls : Bool
  flags : BitVec 5
  /-- Steal group, and whether it closed as movable and none of it has started (R165, R167). -/
  group : Option (Nat × Bool)
  /-- Partial state of the row that a pause stopped a VRED or SMAX1 in (Table 10.5), as patterns. -/
  part : List Nat
  deriving DecidableEq, Repr

/-- The instruction behind a fault or an increment: last, core, strand, pc, word (R160). -/
structure Origin where
  last : LastId
  core : CoreId
  strand : StrandId
  pc : LAddr
  insn : Word
  deriving DecidableEq, Repr

/-- A slot in an array (R65): one row of one pass on its way through the cells. -/
structure Slot where
  op : Nat
  origin : Origin
  core : CoreId
  array : ArrayId
  /-- Half mask of its operation. -/
  mask : Nat
  /-- Output row, and the cycle in which it entered cell (0, 0). -/
  row : Nat
  at_ : Nat
  /-- The activations it carries, by array row: patterns and block exponents. -/
  act : List (Nat × List (Nat × Int))
  /-- It belongs to the first pass since its operation started, to the first of all, to the last of all. -/
  fresh : Bool
  first : Bool
  last : Bool
  pass : Nat
  /-- The weights it meets, once a later token has entered, and the number of later switching tokens. -/
  wts : Option (List (Nat × Word))
  flips : Nat
  /-- Running IEEE values it took into row 0 (R76), by output. -/
  acc : List (Nat × Nat)
  /-- Outputs written, or returned to the top. -/
  done : Nat
  /-- Row of the array that its row 0 is, its beat, and the columns that its outputs use. -/
  base : Nat
  beat : Nat
  cols : Nat
  /-- Its half drains: it goes on through the cells, and the foot writes nothing for it (R82). -/
  dead : Bool
  deriving DecidableEq, Repr

/-- An entry that the foot writes in a later cycle: an output's second column (R66, R68), or an IEEE value on its way
through the foot (R76). -/
structure BedWr where
  due : Nat
  op : Nat
  core : CoreId
  array : ArrayId
  tile : TileId
  row : Nat
  col : Nat
  val : BitVec 256
  deriving DecidableEq, Repr

/-- A max-abs slot (Table 1.15). -/
structure MaxAbs where
  max : BitVec 32
  ov : Nat
  un : Nat
  deriving DecidableEq, Repr

/-- Results of an engine on their way to the slice (R107, R116): what they write, set, gather and count in that cycle. -/
structure Wr where
  due : Nat
  op : Nat
  core : CoreId
  writes : List (Nat × List Byte)
  fl : BitVec 5
  slot : Option Nat
  g : MaxAbs
  /-- Special outputs of a FINISH, with its tile (R106). -/
  bed : Option (CoreId × ArrayId × TileId)
  sp : List (Nat × Nat)
  /-- Counter of the core and by how much it counts (Table 14.4). -/
  cnt : Nat
  n : Nat
  deriving DecidableEq, Repr

/-- An outstanding scalar load or store (R144, R148). -/
structure Acc where
  id : Nat
  opcode : Byte
  w : BitVec 56
  pc : LAddr
  /-- Effective address. -/
  ea : Word
  data : Word
  due : Nat
  /-- The access went to the fabric. -/
  remote : Bool
  deriving DecidableEq, Repr

/-- A completion due at a later cycle: the post of a scalar instruction (R149, R173). -/
structure Post where
  due : Nat
  strand : StrandId
  last : LastId
  pc : LAddr
  opcode : Byte
  w : BitVec 56
  deriving DecidableEq, Repr

/-- An instruction that completes at an instant or with its strand: FTWAIT (R195), HALT (R197). -/
structure Held where
  instant : Word
  pc : LAddr
  opcode : Byte
  w : BitVec 56
  deriving DecidableEq, Repr

/-- The open steal group of a strand (R165): what it holds so far (0 nothing, 1 MMAs, 2 MMAs and a FINISH), its array and
tile, and whether it can still be movable. -/
structure Group where
  num : Nat
  movable : Bool
  stage : Nat
  arr : Nat
  tile : Nat
  deriving DecidableEq, Repr

/-- A strand (Table 6.2). A scalar whose `sAvail` is none has an outstanding load. -/
structure Strand where
  pc : LAddr
  /-- A jump register held a target of 2^48 or more: the PC lies outside every slice (R179). -/
  pcWild : Bool
  s : Vector Word 32
  sAvail : Vector (Option Nat) 32
  p : Vector Bool 8
  pAvail : Vector Nat 8
  st : StrandSt
  resume : StrandSt
  trap : BitVec 16
  stall : BitVec 3
  draw : Word
  fetch : List (Nat × Word)
  notBefore : Nat
  acc : List Acc
  ftwait : Option Held
  keys : List (KeyId × Held)
  group : Option Group
  halt : Option Held
  deriving DecidableEq, Repr

/-- One increment of a tally in this cycle: by a completing instruction, or by a TAL_ADD write (R151). -/
structure Incr where
  amount : Nat
  origin : Option Origin
  deriving DecidableEq, Repr

/-- A tally: its value at the start of the cycle and the events of the cycle (R151). -/
structure Tally where
  start : Nat
  dec : Nat
  inc : List Incr
  val : Option Nat
  tset : Option Nat
  deriving DecidableEq, Repr

/-- Half of an array (R79 to R82, Table 3.11). -/
structure Half where
  active : Bool
  preloaded : Bool
  fmt : BitVec 4
  int : Bool
  preFmt : BitVec 4
  preInt : Bool
  drainEnd : Option Nat
  swapAt : Option Nat
  /-- Cycle from which the half has no slot in its cells. -/
  emptyAt : Nat
  beat : Nat
  deriving DecidableEq, Repr

/-- A bed tile with its record (R92); special and its position are in BED_TSTAT. -/
structure Tile where
  entries : List (Nat × BitVec 256)
  ext : List (Nat × BitVec 4)
  /-- Part of a working sum below one unit of its class, in 2^-16 units, while the operation runs (R48, log 19). -/
  frac : List (Nat × Nat)
  cls : BitVec 3
  poisoned : Bool
  deriving DecidableEq, Repr

/-- An array with its bed (R64, R89). Weight registers are keyed by 64 × row + column. -/
structure Arr where
  halves : Vector Half 2
  act : List (Nat × Word)
  shadow : List (Nat × Word)
  /-- Running values on the return paths of an IEEE operation between its passes (R76), by half, slot and column, each 1 more than
  its pattern. -/
  ret : List (Nat × Nat)
  /-- Parity mismatches present (R83): 0 active, 1 shadow, 2 staggering register; row and physical column. -/
  parity : List (Nat × Nat × Nat)
  tiles : Vector Tile 4
  deriving DecidableEq, Repr

/-- A spill-queue entry as its writer supplied it, with what the queue added (Table 8.15). `ecc`: its 64-bit words with an ECC
error, single-bit (false) or double-bit (true) (R240). -/
structure QEntry where
  sop : Bool
  eop : Bool
  err : Bool
  bytes : Nat
  source : BitVec 16
  seq : BitVec 32
  data : List Byte
  ecc : List (Nat × Bool)
  deriving DecidableEq, Repr

/-- A run of a stream descriptor (R224, R225). -/
structure Run where
  desc : List Word
  /-- The ARM or REARM that presented it; none for a fabric hod. -/
  origin : Option Origin
  hod : Fin 2
  tile : Nat
  row : Nat
  off : Nat
  done : Nat
  /-- Tiles whose deadline miss has been recorded. -/
  missed : List Nat
  /-- Entries that a mode-2 run has popped for its next tile (R230), the remote read of one that is outstanding, and whether
another module's queue is known to hold the tile's packet whole. -/
  pkt : List QEntry
  popTag : Option (BitVec 16)
  whole : Bool
  deriving DecidableEq, Repr

/-- A stream descriptor's runs, generation and slot ring (R227 to R229). -/
structure Sd where
  gen : BitVec 16
  active : Option Run
  shadow : Option Run
  slots : Nat
  fillNo : Nat
  filled : Nat
  relNo : Nat
  /-- Cycle in which the active run completed with a shadow waiting. -/
  freedAt : Nat
  fault : Bool
  why : Nat
  deriving DecidableEq, Repr

/-- An outstanding transfer (Table 8.11). -/
structure Xfer where
  m : SdId
  tile : Nat
  len : Nat
  src : Word
  dst : Word
  /-- Bytes read, once the read has been served. -/
  data : Option (List Byte)
  /-- Remote requests it waits for. -/
  tag : Option (BitVec 16)
  /-- Generation of its run, and whether its destination is a local address. -/
  gen : BitVec 16
  dloc : Bool
  deriving DecidableEq, Repr

/-- A hod (R222). -/
structure Hod where
  xfers : List Xfer
  served : Nat
  held : Option (BitVec 2)
  ok : Bool
  /-- Last cycle in which it took a command, and in which it issued a transfer (R222). -/
  took : Option Nat
  issued : Option Nat
  deriving DecidableEq, Repr

/-- A core (R143). -/
structure Core where
  strands : Vector Strand 2
  lastStrand : StrandId
  lastDispatch : Option Nat
  tallies : Vector Tally 64
  descs : List (Nat × Word)
  sdescs : List (Nat × Word)
  maxabs : Vector MaxAbs 32
  posts : List Post
  ptrs : List (Nat × Nat)
  arrays : Vector Arr 4
  bank0 : List (Nat × BitVec 16)
  bank1 : List (Nat × BitVec 16)
  patActive : Bool
  patDispatched : Bool
  hods : Vector Hod 2
  sds : Vector Sd 32
  deriving DecidableEq, Repr

/-- A logical core of a loaded image (Table 6.13) and where it was put. -/
structure LCore where
  phys : CoreId
  strands : BitVec 2
  halves : BitVec 8
  tiles : BitVec 16
  width : BitVec 32
  pattern : Bool
  entry0 : Nat
  entry1 : Nat
  deriving DecidableEq, Repr

/-- A section of a loaded image (Table 6.14): kind, physical core, target, bytes. -/
structure Sect where
  kind : Nat
  core : CoreId
  target : Nat
  bytes : List Byte
  deriving DecidableEq, Repr

/-- What a loaded image fixes for its last (Table 6.12). -/
structure Image where
  flags : Byte
  talBase : Nat
  talCount : Nat
  descBase : Nat
  descCount : Nat
  sdBase : Nat
  sdCount : Nat
  slotBase : Nat
  slotCount : Nat
  keyLo : Word
  keyHi : Word
  draw0 : Word
  draw1 : Word
  hbmBase : Nat
  hbmSize : Nat
  cores : List LCore
  sects : List Sect
  deriving DecidableEq, Repr

/-- Who asked for a long request: the control port, source, port and request number its answer goes to (R307). -/
structure Asker where
  port : CtlId
  src : BitVec 128
  sport : BitVec 16
  reqId : BitVec 32
  type : Nat
  deriving DecidableEq, Repr

/-- A pause in progress (R292) and what follows it. -/
structure Pausing where
  save : Option Nat
  resume : Bool
  asker : Option Asker
  /-- The CSAVE that asked (R199). -/
  csave : Option (CoreId × StrandId × LAddr × BitVec 56)
  /-- The save area of this pause has been latched. -/
  saved : Bool
  instant : Word
  /-- The request cycle. -/
  began : Nat
  /-- A context save follows: the pattern engine's queue runs dry first (R138). -/
  keep : Bool
  deriving DecidableEq, Repr

/-- A standing program that runs as this last (R320, R321). -/
structure Standing where
  entry : StandId
  restarts : Nat
  watched : Bool
  deriving DecidableEq, Repr

/-- A restore in progress (R301). -/
structure Restoring where
  addr : Nat
  asker : Option Asker
  /-- The CREST that asked (R200). -/
  crest : Option (CoreId × StrandId × LAddr × BitVec 56)
  scope : SaveScope
  deriving DecidableEq, Repr

/-- A last (R141, R164). -/
structure Last where
  st : LastSt
  image : Option Image
  /-- A checked image whose cores are waking (R333). -/
  loading : Option (Image × Option Asker × List Byte)
  pendingLaunch : Option Word
  pausing : Option Pausing
  standing : Option Standing
  /-- A LOAD that waits for the stacks of its image: who asked, and the request's body (R330). -/
  reading : Option (Asker × List Byte)
  deriving DecidableEq, Repr

/-- A spill queue (R236 to R241): head and tail registers, and the middle in its ring in HBM: the ring place of the oldest
entry there and how many there are. -/
structure Queue where
  head : List QEntry
  ringAt : Nat
  ringN : Nat
  tail : List QEntry
  /-- Complete packets held. -/
  pkts : Nat
  seq : BitVec 32
  flushing : Bool
  inPkt : Bool
  /-- The reader has begun a packet it has not finished popping. -/
  reading : Bool
  fl : Bool
  waiting : List (List Byte)
  /-- Pops that wait for a later cycle (R239). -/
  pops : Nat
  deriving DecidableEq, Repr

/-- A link port (R245 to R254). -/
structure Link where
  st : LinkSt
  txSeq : BitVec 16
  acked : BitVec 16
  /-- Frames not acknowledged, oldest first, each with the number of its replays. -/
  replay : List (Frame × Nat)
  /-- Frames still to be sent again (R253), and flits of packets that hold their credits and wait for a slot (R246). -/
  resend : List Frame
  tx : List Flit
  /-- The ack whose nak has been served. -/
  nakAck : Option (BitVec 16)
  rxLast : BitVec 16
  hunting : Bool
  rsv : Vector Nat 8
  shared : Nat
  buf : List Packet
  /-- The packet whose flits are arriving, and how many of them are still to come. -/
  part : Option (Packet × Nat)
  freedR : Vector Nat 8
  freedS : Nat
  /-- The lane whose reserved credits are returned next. -/
  rvl : Fin 8
  /-- The input served last on each lane of this output (R250): a port, or 12 for the module's own packets. -/
  turn : Vector Nat 8
  /-- Arrival of the last good time flit, and its t_tx (Table 9.15), and the t_tx of the last two that this port sent. -/
  tRx : Word
  tPeer : Word
  tSent : List Word
  peerPort : BitVec 4
  peerDev : DevAddr
  light : Bool
  deriving DecidableEq, Repr

/-- Who waits for a remote request (R248, R249). -/
inductive Requester where
  | acc (c : CoreId) (k : StrandId) (id : Nat)
  | hod (h : HodRef) (m : SdId) (tile : Nat)
  | notify (l : Option LastId)
  | aoc
  | col (ch : ChanId) (rank : Nat)
  deriving DecidableEq, Repr

/-- An outstanding remote request. -/
structure Req where
  tag : BitVec 16
  who : Requester
  addr : Word
  sent : Nat
  /-- Multicast acknowledgements wanted, and the modules that have sent one (R263). -/
  need : Nat
  acks : List DevAddr
  deriving DecidableEq, Repr

/-- Fabric time (R271 to R275, Table 9.20). -/
structure FTime where
  ft : Word
  run : Bool
  acq : Bool
  lock : Bool
  root : Bool
  gptp : Bool
  pport : BitVec 4
  offs : List Int
  small : Nat
  large : Nat
  epochSet : Bool
  /-- The 802.1AS time that the root's count belongs to (R275). -/
  epoch : Word
  /-- Cycle of the last slew (R274), and whether the count is held in this cycle. -/
  slewAt : Nat
  hold : Bool
  deriving DecidableEq, Repr

/-- Coursing (R255 to R257). -/
structure Coursing where
  state : Nat
  step : Nat
  mode : Bool
  corner : Bool
  named : Word
  smallest : Word
  /-- The sizes known, 0 where not, and whether COURSE named them. -/
  shape : Shape
  sized : Bool
  offer : Option (Nat × Nat × Nat)
  maps : List (DevAddr × BitVec 12)
  /-- No coursing has released this module since its hub woke (R272). -/
  first : Bool
  /-- Ports whose identity packet has arrived, the smallest serial heard on each port, the coordinates offered on each port,
  and the device address of the peer behind each port (R256). -/
  seen : List Nat
  heard : List (Nat × Word)
  offers : List (Nat × Nat × Nat × Nat)
  peers : List (Nat × DevAddr)
  /-- Modules that have taken coordinates, each with the ends of its rings (R257), the walks that this module has begun, and the modules
  whose routing table is filled (Table 9.7). -/
  taken : List (DevAddr × Nat)
  begun : List Nat
  done : List DevAddr
  deriving DecidableEq, Repr

/-- A strand waiting at a keystone, and whether it joined the next round (R276). -/
structure KWait where
  core : CoreId
  strand : StrandId
  next : Bool
  deriving DecidableEq, Repr

/-- A keystone (R276 to R278, Table 9.21). -/
structure Keystone where
  st : Nat
  round : BitVec 16
  arrived : Nat
  next : Nat
  children : BitVec 12
  instant : Word
  waits : List KWait
  deriving DecidableEq, Repr

/-- A collective channel (R266 to R269). Each part is a rank, the element offset and the values it gave, as patterns. -/
structure Chan where
  st : Nat
  err : Nat
  desc : List Word
  ranks : List DevAddr
  parts : List (Nat × List Nat)
  deriving DecidableEq, Repr

/-- A frame that a gate port built: egress flow, the header fields that the manual fixes, and the datagram (R318, Table 11.14). -/
structure GateFrame where
  flow : Nat
  dmac : Nat
  smac : Nat
  vlan : Nat
  dip : Nat
  sip : Nat
  dport : Nat
  sport : Nat
  data : List Byte
  deriving DecidableEq, Repr

/-- A gate port (R314 to R318). -/
structure Gate where
  link : Bool
  /-- Datagrams received and not wholly pushed, oldest first: queue, flow, cycle of arrival, datagram. -/
  rx : List (QueueId × Nat × Nat × List Byte)
  /-- Entries of the datagram at the head of `rx` not yet pushed. -/
  rest : Option (List (List Byte))
  tx : List GateFrame
  /-- The open transmit packet: entries so far. -/
  opened : Option (List QEntry)
  waiting : List (List Byte)
  xoffSent : BitVec 8
  xoffRcvd : BitVec 8
  deriving DecidableEq, Repr

/-- A control port (R303 to R305). -/
structure Ctl where
  link : Bool
  slow : Bool
  aslock : Bool
  /-- The 802.1AS time of the last gPTP message and the cycle it came in (R275). -/
  time : Word
  timeAt : Nat
  pos : Nat
  gates : BitVec 8
  history : List (BitVec 48 × BitVec 16)
  waiting : List Datagram
  /-- Frames to send, oldest first: traffic class, index of the message in `out`, R-TAG (R304). -/
  tx : List (Nat × Nat × Option (BitVec 16))
  /-- The class of the frame on the wire and the cycle in which it ends. -/
  cur : Option (Nat × Nat)
  /-- Credit of classes 5 and 6 (R304), in units of 1/1 400 bit. -/
  credit5 : Int
  credit6 : Int
  deriving DecidableEq, Repr

/-- An entry of the answer cache (R309). -/
structure Cached where
  asker : Asker
  answer : List Byte
  sentAt : Nat
  deriving DecidableEq, Repr

/-- A subscriber slot (R313). -/
structure Sub where
  addr : BitVec 128
  port : BitVec 16
  en : Bool
  deriving DecidableEq, Repr

/-- A long request that is running (R308); `scope` none for one of module scope. -/
structure Long where
  asker : Asker
  scope : Option LastId
  deriving DecidableEq, Repr

/-- An event a block has raised and the AOC has not yet accepted (R381). -/
structure Event where
  code : BitVec 16
  sev : Nat
  ft : Option Word
  detail : List Byte
  /-- Notice kind, last, core, strand, code (Table 11.5). -/
  notice : Option (Nat × Nat × Nat × Nat × Nat)
  deriving DecidableEq, Repr

/-- The event recorder (R379 to R385). -/
structure Recorder where
  raised : List Event
  next : Nat
  /-- Records numbered and not yet in flash. -/
  pend : List (Nat × List Byte)
  /-- Records in flash: number and bytes. -/
  kept : List (Nat × List Byte)
  skipped : List (Nat × Nat)
  slot : Nat
  lost : Nat
  secs : Nat
  cycles : Nat
  /-- The newest life-counter entry: cycles and seconds (R380). -/
  life : Option (Nat × Nat)
  buf : List Byte
  bufStat : Nat
  bufPend : Bool
  deriving DecidableEq, Repr

/-- The plumb unit (R372 to R375): the trigger cycle of the open merge window with its sources and tag, triggers due in a
later cycle (cycle, source bit, tag), and the blocks still to latch (cycle; 0 hub, 1 cores of C0, 2 cores of C1; the header that
they store). -/
structure Plumb where
  taken : Option Nat
  src : Nat
  tag : Nat
  raised : List (Nat × Nat × Nat)
  latches : List (Nat × Nat × Word)
  deriving DecidableEq, Repr

/-- The governor (R335). -/
structure Governor where
  level : Nat
  highest : Nat
  ms : Nat
  overP : Bool
  hot : Bool
  lowV : Bool
  /-- The conditions under which the level last reached its highest (R335): over_p, hot, low_v. -/
  cond : Nat
  units : Vector Nat 2
  deriving DecidableEq, Repr

/-- Start-up stage (Table 12.8). -/
inductive Stage where
  | unpowered
  | good
  | firmware
  | keeper
  | tested
  | compute
  | recovery
  deriving DecidableEq, Repr

/-- Boot, trust and firmware update (R336, R349 to R370). -/
structure Trust where
  stage : Stage
  /-- Protective reset that still holds start-up: brown-out, thermal, or over-voltage. -/
  heldOff : Option Nat
  /-- Cycle of power good, or of the start from mask ROM. -/
  goodAt : Nat
  copyB : Bool
  trial : Bool
  svn : Nat
  fwVersion : BitVec 32
  raiseFloor : Bool
  resA : Nat
  resB : Nat
  ident : Nat
  regenerating : Bool
  /-- What the identity is derived from, and its keys (R357): they stay within the security engines (R358). -/
  seed : List Byte
  rsaKey : Option RsaKey
  slhKey : Option SlhKey
  log : List (List Byte)
  count : Nat
  agg : List Byte
  quote : List Byte
  quotes : Nat
  ownerOk : Bool
  svcOk : Bool
  floorOk : Bool
  signed : Nat
  /-- Standing entries that wait for boot coursing (R320), ascending. -/
  awaiting : List StandId
  /-- Standing entries that are to be loaded, in order, each with its restarts so far (R320, R321). -/
  standQ : List (StandId × Nat)
  /-- The provisioning copy in force since the boot (R355, R370). -/
  prov : Option Nat
  deriving DecidableEq, Repr

/-- An update session (R363, R364). -/
structure Session where
  src : BitVec 128
  sport : BitVec 16
  area : Nat
  lo : Nat
  hi : Nat
  written : Nat
  deriving DecidableEq, Repr

/-- A save area latched at its save instant, on its way to HBM (R292, R297): where it lies, its bytes by offset (an offset
that is not listed holds 0) and its length. -/
structure SaveArea where
  addr : Nat
  scope : SaveScope
  cells : List Host.Cell
  length : Nat
  deriving DecidableEq, Repr

/-- A checkpoint or a module restore in progress (R298). -/
structure Ckpt where
  asker : Option Asker
  began : Nat
  stop : Nat
  /-- Lasts that it stopped and that have not resumed yet; they do so once the copy is complete. -/
  resume : List LastId
  saved : Bool
  deriving DecidableEq, Repr

/-- What the module has sent or driven (R303 to R318, R342): the block's outputs. -/
inductive Out where
  | answer (dest : Asker) (bytes : List Byte)
  | notice (slot : Fin 4) (bytes : List Byte)
  | arp (e : EthPort) (r : ArpMsg)
  | ndp (e : EthPort) (r : NdpMsg)
  | echo (e : EthPort) (r : EchoMsg)
  | frame (l : LinkId) (f : Frame)
  | gateFrame (g : GateId) (f : GateFrame)
  | pfc (g : GateId) (cls : Nat) (xoff : Bool)
  /-- A frame leaves a control port: the index of its message in `out`, and its R-TAG (R304, R305). -/
  | sent (p : CtlId) (msg : Nat) (rtag : Option (BitVec 16))
  | sync
  | plumb
  /-- What the module sends in an SMBus transaction: command code, data, PEC (R343). -/
  | smbus (cmd : Nat) (bytes : List Byte) (pec : Byte)
  | popped (q : QueueId) (bytes : List Byte)
  | readBack (addr : Nat) (bytes : List Byte)
  deriving DecidableEq, Repr

/-- The hub (R325). -/
structure Hub where
  queues : Vector Queue 32
  fhq : Vector (List Nat) 16
  /-- Commands of fabric hods whose queue is full, in order of arrival (R235). -/
  fhWait : List (FhId × Nat)
  fhods : Vector Hod 16
  fsds : Vector Sd 16
  links : Vector Link 12
  inject : List Packet
  /-- CTL packets that wait for their link (R247). -/
  ctl : List (LinkId × Packet)
  delivered : List Packet
  reqs : List Req
  /-- Modules that have acknowledged a write to a multicast group, by group (R270). -/
  members : List (Nat × List DevAddr)
  nextTag : BitVec 16
  ftime : FTime
  crs : Coursing
  keystones : Vector Keystone 64
  chans : Vector Chan 4
  gates : Vector Gate 2
  plumb : Plumb
  recSeq : BitVec 32
  /-- Records on their way to the ring, with their addresses (R207). -/
  recQ : List (Nat × List Byte)
  ckpt : Option Ckpt
  deriving DecidableEq, Repr

/-- The power states of the domains (Table 12.2). -/
structure Doms where
  hub : DomSt
  ctl1 : DomSt
  dies : Vector DomSt 2
  cores : Vector DomSt 128
  stks : Vector DomSt 8
  links : Vector DomSt 12
  gates : Vector DomSt 2
  /-- Stacks the automatic policy or a target put on the way into or out of self-refresh. -/
  moving : List StackId
  /-- Of these, the stacks whose written target is the state they leave: they come back (R326). -/
  back : List StackId
  /-- Of these, the stacks that an access met on the way into self-refresh: they return to ON (R330). -/
  woken : List StackId
  deriving DecidableEq, Repr

/-- A MEMR or MEMW that has begun (R311): bytes done, bytes to write or bytes read, the remote request it waits for. -/
structure MemJob where
  asker : Asker
  write : Bool
  addr : Word
  len : Nat
  done : Nat
  data : List Byte
  tag : Option (BitVec 16)
  deriving DecidableEq, Repr

/-- The always-on domain. -/
structure Aoc where
  doms : Doms
  gov : Governor
  ctls : Vector Ctl 2
  /-- The ports of the requests that wait, in order of arrival (R308). -/
  order : List CtlId
  /-- Entries of `out` handed to the control ports so far, and the next sequence number of an R-TAG (R304). -/
  formed : Nat
  rtag : BitVec 16
  cache : List Cached
  longs : List Long
  memJob : Option MemJob
  subs : Vector Sub 4
  noticeNo : BitVec 32
  svc : List Byte
  rcd : Recorder
  trust : Trust
  session : Option Session
  smbAddr : Option (BitVec 7)
  /-- Cycle in which the module releases SYNC, PLUMB_N (Table 12.10). -/
  syncLow : Option Nat
  plumbLow : Option (Nat × Nat)
  presentDriven : Bool
  /-- Cycle in which SYNC, which others pull low, is released, and the levels that others give PLUMB_N and PRESENT_N (Table 12.17). -/
  syncIn : Option Nat
  plumbIn : Bool
  presentN : Bool
  restoring : List Restoring
  deriving DecidableEq, Repr

/-- Bits set by hardware in this cycle, and what the position fields beside them would describe (R393). -/
structure SetEv where
  addr : Nat
  bits : Word
  posMask : Word
  pos : Word
  deriving DecidableEq, Repr

/-- Who makes an access (Table 8.4, R207, R216): requester `i` of the feeder class of a core, its hod `h`, loads and stores of its
strand `k`, the hub with all that comes through the die bridge, or the fabric by way of the hub. -/
inductive Master where
  | feeder (c : CoreId) (i : Nat)
  | hod (c : CoreId) (h : Nat)
  | seq (c : CoreId) (k : StrandId)
  | hub
  | fabric
  deriving DecidableEq, Repr

/-- Bytes of stock or HBM written in this cycle, and by whom (R215). -/
structure StkWr where
  addr : Nat
  len : Nat
  who : Master
  deriving DecidableEq, Repr

/-- What happened in this cycle, for the same-cycle rules (R36, R160, R393): bits set, counts increased (address, lowest
bit, amount), max-abs updates (core, slot), the faults recorded (last, core, strand), the counter pages cleared at its end
(Table 14.5), what each FMT_FLAGS word that has changed held at its start (R201), the halves that a fault reached (R82),
bed entries that a foot, a reload or a restore wrote and what entries that changed held before (R91), pattern entries that a
PLOAD wrote (R137), recorded inputs (kind, unit, payload; R285), spill queues that accepted an entry, each with whether a packet was open, and queues that served a pop (R236,
R241), lasts that resume in the next cycle and lasts that resumed in this one (R199, R294), operations that left a queue, lines of text that arrived and accesses that ended (R144), lasts that turned
DONE (R151), cores whose strand 0 goes first in the next cycle (R145), stock and HBM bytes written (R215), domains whose target was written and domains whose target the automatic policy changed (R328), domains whose transition completed (R326), plumb triggers that a held
snapshot drops (R374: source bit, tag, number of the event record that caused it), register pages that served an access (R392),
and flash addresses of the valid bytes programmed last (R379, R380). Bed entries are
named by their address. -/
structure Now where
  sets : List SetEv
  incs : List (Nat × Nat × Nat)
  gath : List (Nat × Nat × MaxAbs)
  faults : List (Nat × Nat × Nat)
  clrs : List Nat
  flags : List (Nat × Word)
  drains : List (LastId × CoreId × ArrayId × HalfId)
  beds : List Nat
  bedOld : List (Nat × BitVec 256)
  pats : List (CoreId × Bool × Nat)
  left : List Op
  fetched : List (CoreId × StrandId × Nat)
  ended : List (CoreId × StrandId × Acc)
  dones : List LastId
  tgts : List Dom
  autos : List Dom
  exams : List Dom
  trigs : List (Nat × Nat × Option Nat)
  recs : List (Nat × Nat × List Byte)
  pushed : List (QueueId × Bool)
  popped : List QueueId
  wake : List LastId
  resumed : List LastId
  firsts : List CoreId
  stk : List StkWr
  pages : List Nat
  valid : List Nat
  deriving DecidableEq, Repr

/-- What an HBM stack woke with: contents that nothing states (R331), under the mapping of R206 then in force. -/
structure Fill where
  stack : StackId
  ways : Nat
  upper : Bool
  gen : Nat
  /-- The words written since, as ranges [lo, hi). -/
  wrote : List (Nat × Nat)
  deriving DecidableEq, Repr

/-- What register space shows, as it stood when the cycle began (R392): cycle, cores, operations, lasts, OTP, registers, hub and AOC. -/
structure Start where
  cycle : Nat
  cores : Vector Core 128
  ops : List Op
  slots : List Slot
  lasts : Vector Last 8
  otp : List (Nat × Byte)
  regs : List (Nat × Word)
  hub : Hub
  aoc : Aoc
  deriving DecidableEq, Repr

/-- The device: everything but the queue of commands. -/
structure Dev where
  cycle : Nat
  freeIdx : Nat
  cores : Vector Core 128
  ops : List Op
  slots : List Slot
  bedWrs : List BedWr
  wrs : List Wr
  nextOp : Nat
  nextAcc : Nat
  lasts : Vector Last 8
  mem : List Host.Cell
  ecc : List (Nat × Bool)
  fills : List Fill
  otp : List (Nat × Byte)
  regs : List (Nat × Word)
  now : Now
  start : Start
  hub : Hub
  aoc : Aoc
  saves : List SaveArea
  out : List Out
  deriving DecidableEq, Repr

/-- The block: the device and the commands that wait, first in first out. -/
structure State where
  dev : Dev
  pending : List Instr
  deriving DecidableEq, Repr

/-! Reset (DESIGN CHOICE, log 2, log 17): the module unpowered, every domain OFF, every register at its reset value. -/

def Strand.init : Strand where
  pc := 0
  pcWild := false
  s := Vector.replicate 32 0
  sAvail := Vector.replicate 32 (some 0)
  p := Vector.replicate 8 false
  pAvail := Vector.replicate 8 0
  st := .idle
  resume := .idle
  trap := 0
  stall := 0
  draw := 0
  fetch := []
  notBefore := 0
  acc := []
  ftwait := none
  keys := []
  group := none
  halt := none

def Half.init : Half where
  active := false
  preloaded := false
  fmt := 0
  int := false
  preFmt := 0
  preInt := false
  drainEnd := none
  swapAt := none
  emptyAt := 0
  beat := 1

def Tile.init : Tile := ⟨[], [], [], 0, false⟩

def Arr.init : Arr where
  halves := Vector.replicate 2 Half.init
  act := []
  shadow := []
  ret := []
  parity := []
  tiles := Vector.replicate 4 Tile.init

def Sd.init : Sd := ⟨0, none, none, 0, 0, 0, 0, 0, false, 0⟩

def Hod.init : Hod := ⟨[], 0, none, true, none, none⟩

def Core.init : Core where
  strands := Vector.replicate 2 Strand.init
  lastStrand := 1
  lastDispatch := none
  tallies := Vector.replicate 64 ⟨0, 0, [], none, none⟩
  descs := []
  sdescs := []
  maxabs := Vector.replicate 32 ⟨0, 0, 0⟩
  posts := []
  ptrs := []
  arrays := Vector.replicate 4 Arr.init
  bank0 := []
  bank1 := []
  patActive := false
  patDispatched := false
  hods := Vector.replicate 2 Hod.init
  sds := Vector.replicate 32 Sd.init

def Last.init : Last := ⟨.empty, none, none, none, none, none, none⟩

def Queue.init : Queue := ⟨[], 0, 0, [], 0, 0, false, false, false, false, [], 0⟩

def Link.init : Link where
  st := .off
  txSeq := 0
  acked := 0xFFFF
  replay := []
  resend := []
  tx := []
  nakAck := none
  rxLast := 0xFFFF
  hunting := false
  rsv := Vector.replicate 8 0
  shared := 0
  buf := []
  part := none
  freedR := Vector.replicate 8 0
  freedS := 0
  rvl := 0
  turn := Vector.replicate 8 12
  tRx := 0
  tPeer := 0
  tSent := []
  peerPort := 0
  peerDev := 0
  light := false

def FTime.init : FTime := ⟨0, false, false, false, false, false, 15, [], 0, 0, false, 0, 0, false⟩

def Coursing.init : Coursing := ⟨0, 0, false, false, 0, 0, ⟨0, 0, 0⟩, false, none, [], true, [], [], [], [], [], [], []⟩

def Keystone.init : Keystone := ⟨0, 0, 0, 0, 0, 0, []⟩

def Chan.init : Chan := ⟨0, 0, [], [], []⟩

def Gate.init : Gate := ⟨false, [], none, [], none, [], 0, 0⟩

def Hub.init : Hub where
  queues := Vector.replicate 32 Queue.init
  fhq := Vector.replicate 16 []
  fhWait := []
  fhods := Vector.replicate 16 Hod.init
  fsds := Vector.replicate 16 Sd.init
  links := Vector.replicate 12 Link.init
  inject := []
  ctl := []
  delivered := []
  reqs := []
  members := []
  nextTag := 0
  ftime := FTime.init
  crs := Coursing.init
  keystones := Vector.replicate 64 Keystone.init
  chans := Vector.replicate 4 Chan.init
  gates := Vector.replicate 2 Gate.init
  plumb := ⟨none, 0, 0, [], []⟩
  recSeq := 0
  recQ := []
  ckpt := none

def Ctl.init : Ctl := ⟨false, false, false, 0, 0, 0, 0xFF, [], [], [], none, 0, 0⟩

def Recorder.init : Recorder := ⟨[], 0, [], [], [], 0, 0, 0, 0, none, [], 0, false⟩

def Trust.init : Trust where
  stage := .unpowered
  heldOff := none
  goodAt := 0
  copyB := false
  trial := false
  svn := 0
  fwVersion := 0
  raiseFloor := false
  resA := 0
  resB := 0
  ident := 0
  regenerating := false
  seed := []
  rsaKey := none
  slhKey := none
  log := []
  count := 0
  agg := []
  quote := []
  quotes := 0
  ownerOk := false
  svcOk := false
  floorOk := false
  signed := 0
  awaiting := []
  standQ := []
  prov := none

def Doms.init : Doms where
  hub := .off
  ctl1 := .off
  dies := Vector.replicate 2 .off
  cores := Vector.replicate 128 .off
  stks := Vector.replicate 8 .off
  links := Vector.replicate 12 .off
  gates := Vector.replicate 2 .off
  moving := []
  back := []
  woken := []

def Governor.init : Governor := ⟨0, 0, 0, false, false, false, 0, Vector.replicate 2 4194304⟩

def Aoc.init : Aoc where
  doms := Doms.init
  gov := Governor.init
  ctls := Vector.replicate 2 Ctl.init
  order := []
  formed := 0
  rtag := 0
  cache := []
  longs := []
  memJob := none
  subs := Vector.replicate 4 ⟨0, 0, false⟩
  noticeNo := 0
  svc := []
  rcd := Recorder.init
  trust := Trust.init
  session := none
  smbAddr := none
  syncLow := none
  plumbLow := none
  presentDriven := false
  syncIn := none
  plumbIn := true
  presentN := true
  restoring := []

def Now.init : Now := ⟨[], [], [], [], [], [], [], [], [], [], [], [], [], [], [], [], [], [], [], [], [], [], [], [], [], [], []⟩

def Start.init : Start where
  cycle := 0
  cores := Vector.replicate 128 Core.init
  ops := []
  slots := []
  lasts := Vector.replicate 8 Last.init
  otp := []
  regs := []
  hub := Hub.init
  aoc := Aoc.init

def Dev.init : Dev where
  cycle := 0
  freeIdx := 0
  cores := Vector.replicate 128 Core.init
  ops := []
  slots := []
  bedWrs := []
  wrs := []
  nextOp := 0
  nextAcc := 0
  lasts := Vector.replicate 8 Last.init
  mem := []
  ecc := []
  fills := []
  otp := []
  regs := []
  now := Now.init
  start := Start.init
  hub := Hub.init
  aoc := Aoc.init
  saves := []
  out := []

/-- The block right after reset: nothing waits, nothing is powered (DESIGN CHOICE, log 17). -/
def State.reset : State := ⟨Dev.init, []⟩

end Sys2Proof.Machine
end

