-- ==== Sys2Proof/Machine/Regs.lean ====
section
/-!
DEFINITION. The register map (15_register_map and the register tables of every chapter): addresses, access masks, reset
values.
-/

namespace Sys2Proof.Machine

def regBase : Nat := 0x00F000000000

/-- reg_addr (R388). -/
def regAddr (g o : Nat) : Nat := regBase + g * 0x10000 + o

/-- core_page (R388). -/
def corePage (n : CoreId) (j : Nat) : Nat := 0x1000 + 16 * n.val + j

def aSeq (n : CoreId) (o : Nat) : Nat := regAddr (corePage n 0) o
def aFmt (n : CoreId) (o : Nat) : Nat := regAddr (corePage n 1) o
def aArr (n : CoreId) (o : Nat) : Nat := regAddr (corePage n 2) o
def aBed (n : CoreId) (o : Nat) : Nat := regAddr (corePage n 3) o
def aVec (n : CoreId) (o : Nat) : Nat := regAddr (corePage n 4) o
def aHod (n : CoreId) (o : Nat) : Nat := regAddr (corePage n 5) o
def aSnp (n : CoreId) (o : Nat) : Nat := regAddr (corePage n 6) o
def aCnt (n : CoreId) (o : Nat) : Nat := regAddr (corePage n 7) o
def aGlb (o : Nat) : Nat := regAddr 0 o
def aColm (o : Nat) : Nat := regAddr 1 o
def aPwr (o : Nat) : Nat := regAddr 2 o
def aTru (o : Nat) : Nat := regAddr 3 o
def aEvr (o : Nat) : Nat := regAddr 4 o
def aAcnt (o : Nat) : Nat := regAddr 5 o
def aCtlp (p : CtlId) (o : Nat) : Nat := regAddr 6 (0x400 * p.val + o)
def aLst (o : Nat) : Nat := regAddr 0x100 o
def aMem (o : Nat) : Nat := regAddr 0x101 o
def aFh (n : FhId) (o : Nat) : Nat := regAddr 0x102 (0x80 * n.val + o)
def aFab (o : Nat) : Nat := regAddr 0x103 o
def aFrt (o : Nat) : Nat := regAddr 0x104 o
def aFmc (o : Nat) : Nat := regAddr 0x105 o
def aKs (k : KeyId) (o : Nat) : Nat := regAddr 0x106 (0x10 * k.val + o)
def aCol (ch : ChanId) (o : Nat) : Nat := regAddr 0x107 (0x80 * ch.val + o)
def aRpl (o : Nat) : Nat := regAddr 0x108 o
def aCkp (o : Nat) : Nat := regAddr 0x109 o
def aGate (o : Nat) : Nat := regAddr 0x10A o
def aGef (o : Nat) : Nat := regAddr 0x10B o
def aPlb (o : Nat) : Nat := regAddr 0x10C o
def aHsnp (o : Nat) : Nat := regAddr 0x10D o
def aHcnt (o : Nat) : Nat := regAddr 0x10E o
def aQue (q : QueueId) (o : Nat) : Nat := regAddr (0x120 + q.val) o

def aFlags (c : CoreId) (k : StrandId) : Nat := aFmt c (8 * k.val)
def aArrCtl (c : CoreId) (a : ArrayId) : Nat := aArr c (0x40 * a.val)
def aArrErr (c : CoreId) (a : ArrayId) : Nat := aArr c (0x10 + 0x40 * a.val)
def aBedCtl (c : CoreId) (a : ArrayId) : Nat := aBed c (0x100 * a.val)
def aBedErr (c : CoreId) (a : ArrayId) : Nat := aBed c (8 + 0x100 * a.val)
def aTstat (c : CoreId) (a : ArrayId) (t : TileId) : Nat := aBed c (0x40 + 0x100 * a.val + 8 * t.val)
def aVecStat (c : CoreId) (k : StrandId) : Nat := aVec c (8 * k.val)
def aPatCtl (c : CoreId) : Nat := aVec c 0x100
def aSeqCtl (c : CoreId) : Nat := aSeq c 0
def aTovf (c : CoreId) : Nat := aSeq c 0x28
def aHodErr (c : CoreId) : Nat := aHod c 0x10
def aStkErr (c : CoreId) : Nat := aHod c 0x18
def aLstCtl (l : LastId) : Nat := aLst (0x40 * l.val)
def aLstFlt (l : LastId) (w : Nat) : Nat := aLst (0x10 + 0x40 * l.val + 8 * w)
def aHbmErr (m : StackId) : Nat := aMem (0x80 + 8 * m.val)
def aLnk (l : LinkId) (o : Nat) : Nat := aFab (0x100 + 0x20 * l.val + o)
def aCore (h : Nat) : Nat := aPwr (0x20 + 8 * h)
def aDomTgt : Nat := aPwr 8
def aColmW (c : CoreId) (a : ArrayId) : Nat := aColm (8 + 16 * (4 * c.val + a.val))
def aColmMap (c : CoreId) (a : ArrayId) : Nat := aColm (16 * (4 * c.val + a.val))
def aGateCnt (g : GateId) (i : Nat) : Nat := aGate (0x1008 + 0x100 * g.val + 8 * i)

/-- Access of one register: bits software sets (RW), bits a written 1 clears (W1C), and counts, which are RW and
saturate (lowest bit, width) (R10, R393). -/
structure RegInfo where
  rw : Word
  w1c : Word
  counts : List (Nat × Nat)
  reset : Word
  deriving DecidableEq, Repr

/-- A register with no field that a write reaches. -/
def RegInfo.ro (reset : Word) : RegInfo := ⟨0, 0, [], reset⟩
def RegInfo.plain (mask : Word) : RegInfo := ⟨mask, 0, [], 0⟩

/-- The registers of a core's page kind `j` at offset `o` (Tables 1.11, 3.9, 4.8, 5.13, 6.16, 8.16, 14.4). -/
def coreRegInfo (j o : Nat) : RegInfo :=
  match j with
  | 0 => if o = 0 then .plain 0xFF else if o = 0x28 then ⟨0, 0xFFFFFFFFFFFFFFFF, [], 0⟩ else .ro 0
  | 1 =>
    if o = 0 || o = 8 then ⟨0, 0x1F1F1F1F, [], 0⟩
    else if 0x100 ≤ o && o < 0x180 then .plain 0xFFFFFFFFFFFFFFFF
    else .ro 0
  | 2 =>
    if o % 0x40 = 0 && o < 0x100 then .plain 0xFF
    else if o % 0x40 = 0x10 && o < 0x100 then ⟨0, 7, [], 0⟩
    else .ro 0
  | 3 =>
    if o % 0x100 = 0 && o < 0x400 then .plain 0xFFFF
    else if o % 0x100 = 8 && o < 0x400 then ⟨0, 0x10000, [(0, 16)], 0⟩
    else if 0x40 ≤ o % 0x100 && o % 0x100 < 0x60 && o < 0x400 then ⟨0, 0x20, [], 0⟩
    else .ro 0
  | 4 => if o = 0 || o = 8 then ⟨0, 3, [(16, 16)], 0⟩ else if o = 0x100 then .plain 0xF else .ro 0
  | 5 => if o = 0x10 then ⟨0, 1, [], 0⟩ else if o = 0x18 then ⟨0, 0x10000, [(0, 16)], 0⟩ else .ro 0
  | 7 => if o < 63 * 8 then ⟨0, 0, [(0, 64)], 0⟩ else if o = 0x7F8 then ⟨1, 0, [], 1⟩ else .ro 0
  | _ => .ro 0

/-- The registers of the hub and always-on pages. Reserved bits of COL_DESC_c and FH_SD_n read back as written, so that a COL_CMD or FH_CMD sees
those that are not 0 (Tables 9.14, 8.14, against the "read 0" of Tables 9.13, 8.12); bits that Table 11.14 does not name in an egress flow entry
(vlan bit 12, byte 29 bits [7:1]) are not stored and read 0 (DESIGN CHOICE, log 65). -/
def pageRegInfo (g o : Nat) : RegInfo :=
  match g with
  | 0x0000 =>
    if o = 0 then .ro 0x28850
    else if o = 0x18 then .ro (mkWord [(0, 128), (8, 4), (12, 2), (16, 64), (24, 1024), (35, 32), (41, 8), (45, 32), (51, 16), (56, 4)])
    else if o = 0x98 then ⟨0, 0x8000000000000000, [], 0⟩
    else if 0x100 ≤ o && o < 0x140 then .plain 0xFFFFFFFFFFFFFFFF
    else .ro 0
  | 0x0002 =>
    if o = 0 then .ro 0x100
    else if o = 8 then ⟨0x3FFFFFFF0F, 0, [], 8⟩
    else if o = 0x20 || o = 0x28 then .plain 0xFFFFFFFFFFFFFFFF
    else if o = 0x80 then ⟨0xFFFFFFFFFFFF, 0, [], 0x640000⟩
    else if o = 0x88 then ⟨0xFFFF, 0x800000, [], 850⟩
    else if o = 0x90 || o = 0x98 then ⟨0x7FFFFF, 0, [], 4194304⟩
    else if o = 0xA8 then .plain 6
    else .ro 0
  | 0x0004 =>
    if o = 0 then .ro 0x10000000000
    else if o = 8 then ⟨0, 0, [(16, 32)], 0⟩
    else if o = 0x10 then .plain 0x1FFFFFFFF
    else .ro 0
  | 0x0005 => if o < 16 * 8 then ⟨0, 0, [(0, 64)], 0⟩ else if o = 0x7F8 then ⟨1, 0, [], 1⟩ else .ro 0
  | 0x0006 =>
    let p := o % 0x400
    if 0x800 ≤ o then .ro 0
    else if p = 8 then ⟨0, 0, [(0, 32), (32, 16), (48, 16)], 0⟩
    else if p = 0x10 then ⟨0x3FFFFFFFFF, 0, [], mkWord [(1, 1), (8, 1000000)]⟩
    else if p = 0x18 then .plain 0xFFFFFFFF
    else if 0x100 ≤ p && p < 0x300 then ⟨0xFFFFFFFFFF, 0, [], 0xFF⟩
    else .ro 0
  | 0x0100 => if o < 0x200 && o % 0x40 = 0 then .plain 1 else .ro 0
  | 0x0101 =>
    if o = 0 then .plain 3
    else if 0x40 ≤ o && o < 0x80 then ⟨0, 0, [(0, 32)], 0⟩
    else if 0x80 ≤ o && o < 0xC0 then ⟨0, 0x10000, [(0, 16)], 0⟩
    else .ro 0
  | 0x0102 =>
    if o < 0x800 then
      (if o % 0x80 < 0x40 then .plain 0xFFFFFFFFFFFFFFFF else if o % 0x80 = 0x48 then ⟨0, 0x8000, [], 0⟩ else .ro 0)
    else .ro 0
  | 0x0103 =>
    if o = 0 then ⟨0xFFFF, 0, [], 200⟩
    else if o = 8 then .plain 2
    else if o = 0x10 then .plain 0x7FFFFFFF
    else if o = 0x20 then .ro 0xF00
    else if o = 0x28 then .plain 0xFFFFFFFFFFFFFFFF
    else if 0x100 ≤ o && o < 0x280 then
      (if o % 0x20 = 0 then .plain 7 else if o % 0x20 = 0x10 then ⟨0, 0, [(0, 16), (16, 16), (32, 16)], 0⟩ else .ro 0)
    else .ro 0
  | 0x0104 => if o < 0xC000 then .plain 0x03FF03FF03FF03FF else .ro 0
  | 0x0105 => if o < 0x8000 then .plain 0x1FFFFFFFFFFF else .ro 0
  | 0x0106 =>
    if o < 0x400 then
      (if o % 0x10 = 0 then ⟨0xFFFFFFF1FFFF, 0, [], mkWord [(12, 15), (32, 6144)]⟩ else ⟨0, 0, [(32, 16)], 0⟩)
    else .ro 0
  | 0x0107 =>
    if o < 0x200 then
      (if o % 0x80 < 0x40 then .plain 0xFFFFFFFFFFFFFFFF else if o % 0x80 = 0x48 then ⟨0, 0x1F00, [(32, 16)], 0⟩ else .ro 0)
    else .ro 0
  | 0x0108 =>
    if o = 0 then .plain 0xFB
    else if o = 8 then ⟨0x1F7FFFFFFFFF, 0, [], 0x100000000000⟩
    else if o = 0x10 then ⟨0, 0xC, [(16, 32)], 0⟩
    else if o = 0x20 then .plain 0xFFFFFFFFFFFFFFFF
    else .ro 0
  | 0x0109 => if o = 0 then .plain 0xFFFFFFFFFF else .ro 0
  | 0x010A =>
    if o = 0 then .plain 0x3FFFFFFFFFFFF
    else if 0x1000 ≤ o && o < 0x1200 && 8 ≤ o % 0x100 && o % 0x100 < 0x40 then ⟨0, 0, [(0, 64)], 0⟩
    else if 0x2000 ≤ o && o < 0x4000 then .plain 0x7F
    else .ro 0
  | 0x010B =>
    (match o % 0x40 / 8 with
    | 0 => .plain 0xEFFFFFFFFFFFFFFF
    | 1 => .plain 0xFFFFFFFFFFFFFFFF
    | 2 => .plain 0xFFFFFFFFFFFFFFFF
    | 3 => .plain 0x000001FFFFFFFFFF
    | _ => .ro 0)
  | 0x010C =>
    if o = 0 then ⟨0xFFFF0001, 0, [], 1⟩
    else if o = 8 then ⟨0, 2, [(16, 16)], 0⟩
    else if o = 0x10 then .plain 0xFFFFFFFFFFFFFFFF
    else if o = 0x18 then .plain 0x1FFFFFFFF
    else .ro 0
  | 0x010E => if o < 140 * 8 then ⟨0, 0, [(0, 64)], 0⟩ else if o = 0x7F8 then ⟨1, 0, [], 1⟩ else .ro 0
  | _ =>
    if 0x120 ≤ g && g < 0x140 then
      (match o with
      | 0x1000 => .plain 0x7F
      | 0x1008 => .plain 0x7FFFFFFFFF
      | 0x1010 => .plain 0xFFFFFFFFFFFFFFFF
      | 0x1028 => ⟨0, 0, [(0, 16), (16, 16), (32, 16)], 0⟩
      | _ => .ro 0)
    else .ro 0

/-- What the tables say of the register at a local address. -/
def regInfo (a : Nat) : RegInfo :=
  let g := (a - regBase) / 0x10000
  let o := a % 0x10000
  if 0x1000 ≤ g && g < 0x1800 then coreRegInfo (g % 16) o else pageRegInfo g o

/-- What a register holds that nothing has written since its domain's reset (R391). -/
def regReset (a : Nat) : Word := (regInfo a).reset

/-- The bits of the count fields. -/
def RegInfo.countMask (i : RegInfo) : Word :=
  i.counts.foldl (fun m c => m ||| BitVec.ofNat 64 ((2 ^ c.2 - 1) * 2 ^ c.1)) 0

end Sys2Proof.Machine
end

