-- ==== Sys2Proof/Machine/Ops.lean ====
section
/-!
DEFINITION. The named operations over the device: accessors, registers with the same-cycle rules, counters, events,
address decoding and memory, tallies and posts, keystone breaks, and a fault of a last (R159), which every
command that can fault shares.
-/

namespace Sys2Proof.Machine

/-! Accessors. -/

def Dev.core (d : Dev) (c : CoreId) : Core := d.cores.get c
def Dev.updCore (d : Dev) (c : CoreId) (f : Core → Core) : Dev := { d with cores := vmap d.cores c f }
def Dev.strand (d : Dev) (c : CoreId) (k : StrandId) : Strand := (d.core c).strands.get k
def Dev.updStrand (d : Dev) (c : CoreId) (k : StrandId) (f : Strand → Strand) : Dev :=
  d.updCore c fun x => { x with strands := vmap x.strands k f }
def Dev.arr (d : Dev) (c : CoreId) (a : ArrayId) : Arr := (d.core c).arrays.get a
def Dev.updArr (d : Dev) (c : CoreId) (a : ArrayId) (f : Arr → Arr) : Dev :=
  d.updCore c fun x => { x with arrays := vmap x.arrays a f }
def Dev.half (d : Dev) (c : CoreId) (a : ArrayId) (u : HalfId) : Half := (d.arr c a).halves.get u
def Dev.updHalf (d : Dev) (c : CoreId) (a : ArrayId) (u : HalfId) (f : Half → Half) : Dev :=
  d.updArr c a fun x => { x with halves := vmap x.halves u f }
def Dev.tile (d : Dev) (c : CoreId) (a : ArrayId) (t : TileId) : Tile := (d.arr c a).tiles.get t
def Dev.updTile (d : Dev) (c : CoreId) (a : ArrayId) (t : TileId) (f : Tile → Tile) : Dev :=
  d.updArr c a fun x => { x with tiles := vmap x.tiles t f }
def Dev.last (d : Dev) (l : LastId) : Last := d.lasts.get l
def Dev.updLast (d : Dev) (l : LastId) (f : Last → Last) : Dev := { d with lasts := vmap d.lasts l f }
def Dev.updHub (d : Dev) (f : Hub → Hub) : Dev := { d with hub := f d.hub }
def Dev.updAoc (d : Dev) (f : Aoc → Aoc) : Dev := { d with aoc := f d.aoc }
def Dev.updTally (d : Dev) (c : CoreId) (t : TallyId) (f : Tally → Tally) : Dev :=
  d.updCore c fun x => { x with tallies := vmap x.tallies t f }
def Dev.queue (d : Dev) (q : QueueId) : Queue := d.hub.queues.get q
def Dev.updQueue (d : Dev) (q : QueueId) (f : Queue → Queue) : Dev :=
  d.updHub fun h => { h with queues := vmap h.queues q f }
def Dev.link (d : Dev) (l : LinkId) : Link := d.hub.links.get l
def Dev.updLink (d : Dev) (l : LinkId) (f : Link → Link) : Dev := d.updHub fun h => { h with links := vmap h.links l f }
def Dev.key (d : Dev) (k : KeyId) : Keystone := d.hub.keystones.get k
def Dev.updKey (d : Dev) (k : KeyId) (f : Keystone → Keystone) : Dev :=
  d.updHub fun h => { h with keystones := vmap h.keystones k f }
def Dev.gate (d : Dev) (g : GateId) : Gate := d.hub.gates.get g
def Dev.updGate (d : Dev) (g : GateId) (f : Gate → Gate) : Dev := d.updHub fun h => { h with gates := vmap h.gates g f }
def Dev.chan (d : Dev) (c : ChanId) : Chan := d.hub.chans.get c
def Dev.updChan (d : Dev) (c : ChanId) (f : Chan → Chan) : Dev := d.updHub fun h => { h with chans := vmap h.chans c f }
def Dev.ctl (d : Dev) (p : CtlId) : Ctl := d.aoc.ctls.get p
def Dev.updCtl (d : Dev) (p : CtlId) (f : Ctl → Ctl) : Dev := d.updAoc fun a => { a with ctls := vmap a.ctls p f }
def Dev.updTrust (d : Dev) (f : Trust → Trust) : Dev := d.updAoc fun a => { a with trust := f a.trust }
def Dev.updRcd (d : Dev) (f : Recorder → Recorder) : Dev := d.updAoc fun a => { a with rcd := f a.rcd }
def Dev.updDoms (d : Dev) (f : Doms → Doms) : Dev := d.updAoc fun a => { a with doms := f a.doms }
def Dev.updOp (d : Dev) (i : Nat) (f : Op → Op) : Dev := { d with ops := updFirst (fun o => o.id == i) f d.ops }
def Dev.emit (d : Dev) (o : Out) : Dev := { d with out := d.out ++ [o] }

/-- A free word (DESIGN CHOICE, log 9): the counter advances. -/
def Dev.free (d : Dev) : Word × Dev := (Config.freeWord d.freeIdx, { d with freeIdx := d.freeIdx + 1 })

/-! Registers. -/

/-- What a stored register holds. -/
def Dev.reg (d : Dev) (a : Nat) : Word := sget regReset d.regs a
def Dev.setReg (d : Dev) (a : Nat) (v : Word) : Dev := { d with regs := sset regReset d.regs a v }
def Dev.regFld (d : Dev) (a lo len : Nat) : Nat := fld (d.reg a) lo len
def Dev.setRegFld (d : Dev) (a lo len v : Nat) : Dev := d.setReg a (setFld (d.reg a) lo len v)

/-- Hardware sets W1C bits. Where none of them was set, the position fields take `pos`; the setting is remembered for a
clear in the same cycle (R393). -/
def Dev.hwSet (d : Dev) (a : Nat) (bits posMask pos : Word) : Dev :=
  let old := d.reg a
  let v := if old &&& bits = 0 then (old &&& ~~~posMask) ||| (pos &&& posMask) else old
  let d := d.setReg a (v ||| bits)
  { d with now := { d.now with sets := d.now.sets ++ [⟨a, bits, posMask, pos⟩] } }

/-- Hardware increases a saturating count; the increment is remembered for a write in the same cycle (R393). Every count of an
error register saturates, uncorr_count and drop_count of QUE_ERR too, of which Table 8.22 does not say it (DESIGN CHOICE,
log 48). -/
def Dev.hwInc (d : Dev) (a lo len n : Nat) : Dev :=
  let d := d.setRegFld a lo len (min (2 ^ len - 1) (d.regFld a lo len + n))
  { d with now := { d.now with incs := d.now.incs ++ [(a, lo, n)] } }

/-- A 64-bit count saturates at a gate port (Table 11.12); the counters of R378 wrap. -/
def saturates (a : Nat) : Bool := a / 0x10000 == aGate 0 / 0x10000

/-- A software write under the access codes (R10, R393). -/
def Dev.swWrite (d : Dev) (a : Nat) (v : Word) : Dev :=
  let i := regInfo a
  let old := d.reg a
  let evs := d.now.sets.filter fun e => e.addr == a
  let keep := evs.foldl (fun m e => m ||| e.bits) 0
  let clr := v &&& i.w1c &&& ~~~keep
  let hit := v &&& i.w1c &&& keep
  let base := ((old &&& ~~~i.rw) &&& ~~~clr) ||| (v &&& i.rw)
  let base := match evs.find? fun e => decide (e.bits &&& hit ≠ 0) with
    | some e => (base &&& ~~~(e.posMask &&& ~~~i.w1c)) ||| (e.pos &&& e.posMask &&& ~~~i.w1c)
    | none => base
  let val := i.counts.foldl (fun w c =>
    let inc := (d.now.incs.filter fun e => e.1 == a && e.2.1 == c.1).foldl (fun n e => n + e.2.2) 0
    let x := fld v c.1 c.2 + inc
    setFld w c.1 c.2 (if c.2 = 64 && !saturates a then x else min (2 ^ c.2 - 1) x)) base
  d.setReg a val

/-- Counter `i` of the page at `base` counts `n` more, while CNT_CTL en is 1 (R378). -/
def Dev.count (d : Dev) (base i n : Nat) : Dev :=
  if bitOf (d.reg (base + 0x7F8)) 0 && n ≠ 0 then
    let a := base + 8 * i
    let d := d.setReg a (d.reg a + BitVec.ofNat 64 n)
    { d with now := { d.now with incs := d.now.incs ++ [(a, 0, n)] } }
  else d

def Dev.cnt (d : Dev) (c : CoreId) (i n : Nat) : Dev := d.count (aCnt c 0) i n
def Dev.hcnt (d : Dev) (i n : Nat) : Dev := d.count (aHcnt 0) i n
def Dev.acnt (d : Dev) (i n : Nat) : Dev := d.count (aAcnt 0) i n

/-! Domains (R325, R330). -/

def Dev.hubOn (d : Dev) : Bool := d.aoc.doms.hub == .on
def dieOf (c : CoreId) : DieId := finOf 1 (c.val / 64)
def Dev.coreOn (d : Dev) (c : CoreId) : Bool := d.aoc.doms.cores.get c == .on
def Dev.dieOn (d : Dev) (i : DieId) : Bool := d.aoc.doms.dies.get i == .on
def Dev.dom (d : Dev) (x : Dom) : DomSt :=
  let s := d.aoc.doms
  match x with
  | .ctl1 => s.ctl1
  | .hub => s.hub
  | .die i => s.dies.get i
  | .core c => s.cores.get c
  | .stack m => s.stks.get m
  | .link l => s.links.get l
  | .gate g => s.gates.get g
def Dev.setDom (d : Dev) (x : Dom) (v : DomSt) : Dev :=
  d.updDoms fun s => match x with
    | .ctl1 => { s with ctl1 := v }
    | .hub => { s with hub := v }
    | .die i => { s with dies := vmap s.dies i fun _ => v }
    | .core c => { s with cores := vmap s.cores c fun _ => v }
    | .stack m => { s with stks := vmap s.stks m fun _ => v }
    | .link l => { s with links := vmap s.links l fun _ => v }
    | .gate g => { s with gates := vmap s.gates g fun _ => v }

/-- The AOC runs from firmware: the always-on pages can be reached (R391). -/
def Dev.aocUp (d : Dev) : Bool :=
  match d.aoc.trust.stage with
  | .firmware | .keeper | .tested | .compute => true
  | _ => false

/-! Events (R379, R381). -/

/-- A block raises an event; the AOC accepts it later. -/
def Dev.event (d : Dev) (code sev : Nat) (detail : List Byte) : Dev :=
  let e : Event := ⟨BitVec.ofNat 16 code, sev, if d.hubOn then some d.hub.ftime.ft else none, detail, none⟩
  d.updRcd fun r => { r with raised := r.raised ++ [e] }

/-- An event of a notice kind (Table 11.5): kind, last, core, strand, code. -/
def Dev.eventN (d : Dev) (code sev : Nat) (detail : List Byte) (n : Nat × Nat × Nat × Nat × Nat) : Dev :=
  let e : Event := ⟨BitVec.ofNat 16 code, sev, if d.hubOn then some d.hub.ftime.ft else none, detail, some n⟩
  d.updRcd fun r => { r with raised := r.raised ++ [e] }

/-- The module's own device address, or the self address while it has none (R205). -/
def Dev.ownDev (d : Dev) : Nat := if d.hubOn && bitOf (d.reg (aFab 0x10)) 15 then d.regFld (aFab 0x10) 0 15 else 0x7FFF

/-- Event 0x8001: a register or table write was ignored. -/
def Dev.ignored (d : Dev) (a : Nat) (v : Word) : Dev :=
  d.event 0x8001 1 (leBytes 8 (d.ownDev * 2 ^ 48 + a) ++ leBytes 8 v.toNat)

/-- A refused access (R398): event 0x8002, and GLB_ACCERR holds the first. -/
def Dev.refusedAccess (d : Dev) (a width : Nat) (isWrite : Bool) : Dev :=
  let d := d.hwSet (aGlb 0x98) 0x8000000000000000 0xFFFFFFFFFFFFFF (mkWord [(0, a % 2 ^ 48), (48, width % 128), (55, b2n isWrite)])
  d.event 0x8002 1 (leBytes 8 (d.ownDev * 2 ^ 48 + a) ++ leBytes 1 width ++ leBytes 1 (b2n isWrite))

/-! Addresses and memory. -/

/-- What stands at a local address (Table 8.1). -/
inductive Region where
  | hbm
  | stock (c : CoreId) (o : Nat)
  | bed (c : CoreId) (a : ArrayId) (t : TileId) (o : Nat)
  | desc (c : CoreId) (o : Nat)
  | regs
  | flash (o : Nat)
  | dram (o : Nat)
  | unmapped
  deriving DecidableEq, Repr

def stockBase : Nat := 0x008000000000
def flashBase : Nat := 0x00FF00000000
def dramBase : Nat := 0x00FF10000000

def region (a : Nat) : Region :=
  if a < 0x008000000000 then .hbm
  else if a < 0x008040000000 then .stock (finOf 127 ((a - stockBase) / 0x800000)) ((a - stockBase) % 0x800000)
  else if 0x009000000000 ≤ a && a < 0x009010000000 then
    let x := a - 0x009000000000
    .bed (finOf 127 (x / 0x200000)) (finOf 3 (x / 0x80000)) (finOf 3 (x / 0x20000)) (x % 0x20000)
  else if 0x00A000000000 ≤ a && a < 0x00A001000000 then
    .desc (finOf 127 ((a - 0x00A000000000) / 0x20000)) (a % 0x20000)
  else if regBase ≤ a && a < regBase + 0x100000000 then .regs
  else if flashBase ≤ a && a < dramBase then .flash (a - flashBase)
  else if dramBase ≤ a && a < dramBase + 0x4000000 then .dram (a - dramBase)
  else .unmapped

/-- First byte of a core's slice. -/
def sliceBase (c : CoreId) : Nat := stockBase + c.val * 0x800000

/-- HBM ways in force: 0, 4 or 8 (R206). The self-test chose them: GLB_CAP shows them until the next start of the AOC (R396), MEM_STAT
until the hub wakes (R391). -/
def Dev.hbmWays (d : Dev) : Nat := d.regFld (aGlb 0x10) 22 4

/-- The four ways are M4 to M7 (R206). -/
def Dev.hbmUpper (d : Dev) : Bool := (List.finRange 4).any fun m => d.dom (.stack (finOf 7 m.val)) == .out

/-- Bytes of HBM in force. -/
def Dev.hbmSize (d : Dev) : Nat :=
  match d.hbmWays with
  | 8 => 0x008000000000
  | 4 => 0x004000000000
  | _ => 0

/-- The stack of a local HBM address (R206). -/
def Dev.stackOf (d : Dev) (a : Nat) : StackId :=
  if d.hbmWays = 8 then finOf 7 (a / 4096 % 8)
  else finOf 7 ((a / 4096) % 4 + 4 * b2n d.hbmUpper)

/-- The domain of a register page is ON (Table 15.1, R391). -/
def Dev.pageOn (d : Dev) (a : Nat) : Bool :=
  let g := (a - regBase) / 0x10000
  if g < 6 then d.aocUp
  else if g = 6 then (if 0x400 ≤ a % 0x10000 && a % 0x10000 < 0x800 then d.aocUp && d.aoc.doms.ctl1 == .on else d.aocUp)
  else if (0x100 ≤ g && g ≤ 0x10E) || (0x120 ≤ g && g < 0x140) then d.hubOn
  else if 0x1000 ≤ g && g < 0x1800 && g % 16 < 8 then d.coreOn (finOf 127 ((g - 0x1000) / 16))
  else false

/-- The address is mapped and its domain is ON (R203, R206, R330). HBM in self-refresh counts as reachable (R330). -/
def Dev.reachable (d : Dev) (a : Nat) : Bool :=
  match region a with
  | .hbm => decide (a < d.hbmSize) && d.dieOn (finOf 1 ((d.stackOf a).val / 4)) &&
      (d.dom (.stack (d.stackOf a)) == .on || d.dom (.stack (d.stackOf a)) == .selfRefresh)
  | .stock c _ => d.dieOn (dieOf c)
  | .bed c _ _ _ => d.coreOn c
  | .desc c _ => d.coreOn c
  | .regs => d.pageOn a
  | .flash _ => d.aocUp
  | .dram _ => d.aocUp
  | .unmapped => false

/-- What a byte of memory reads as that nothing has written (DESIGN CHOICE, log 1): stock 0 (R331), erased flash 0xFF (R347), else 0. -/
def memDefault (a : Nat) : Byte := if flashBase ≤ a && a < dramBase then 0xFF else 0

/-- Address `a` still has what its stack woke with (R331). -/
def Fill.keeps (f : Fill) (a : Nat) : Bool :=
  ((f.ways == 8 && decide (a < 0x008000000000) && a / 4096 % 8 == f.stack.val) ||
    (f.ways == 4 && decide (a < 0x004000000000) && a / 4096 % 4 + 4 * b2n f.upper == f.stack.val)) &&
  !(f.wrote.any fun r => decide (r.1 ≤ a) && decide (a < r.2))

/-- What an unlisted byte of memory reads as: a free value where a stack woke from OFF (R331, DESIGN CHOICE, log 1). -/
def memDef : List Fill → Nat → Byte
  | [], a => memDefault a
  | f :: fs, a => if f.keeps a then Config.hbmByte f.gen a else memDef fs a

/-- Whether a word that nothing has written since a wake fails ECC (R331). -/
def eccDef : List Fill → Nat → Option Bool
  | [], _ => none
  | f :: fs, a => if f.keeps a then Config.hbmEcc f.gen a else eccDef fs a

/-- The words [lo, hi) have been written. -/
def wroteWords (fs : List Fill) (lo hi : Nat) : List Fill := fs.map fun f => { f with wrote := (lo, hi) :: f.wrote }

def Dev.byte (d : Dev) (a : Nat) : Byte := sget (memDef d.fills) d.mem a
def Dev.rdMem (d : Dev) (a n : Nat) : List Byte := sgetList (memDef d.fills) d.mem a n

/-- Bytes written to memory: the 64-bit words that they touch are rewritten whole and carry fresh ECC (R209). -/
def Dev.wrMem (d : Dev) (a : Nat) (bs : List Byte) : Dev :=
  let ecc := if d.ecc.isEmpty then [] else d.ecc.filter fun e => !(decide (a < e.1 + 8) && decide (e.1 < a + bs.length))
  if d.fills.isEmpty then { d with mem := ssetList memDefault d.mem a bs, ecc := ecc }
  else
    let lo := a / 8 * 8
    let hi := (a + bs.length + 7) / 8 * 8
    let fs := wroteWords d.fills lo hi
    { d with
      mem := ssetList (memDef fs) d.mem lo (d.rdMem lo (a - lo) ++ bs ++ d.rdMem (a + bs.length) (hi - (a + bs.length)))
      ecc := ecc
      fills := fs }

/-- Whole words of a range take what is listed by offset, and 0 where nothing is listed. -/
def Dev.overlay (d : Dev) (a n : Nat) (cells : List Host.Cell) : Dev :=
  let fs := wroteWords d.fills a (a + n)
  { d with
    mem := sover (memDef fs) d.mem a n cells
    ecc := d.ecc.filter fun e => !(decide (a ≤ e.1) && decide (e.1 < a + n))
    fills := fs }

/-- The bytes of a range that are not 0, by address. -/
def Dev.cellsIn (d : Dev) (a n : Nat) : List Host.Cell :=
  if d.fills.isEmpty then d.mem.filter fun e => decide (a ≤ e.1) && decide (e.1 < a + n)
  else (List.range n).filterMap fun i => if d.byte (a + i) = 0 then none else some (a + i, d.byte (a + i))

/-- Set bytes without touching ECC: erase of a flash range. -/
def Dev.eraseMem (d : Dev) (lo n : Nat) : Dev :=
  { d with mem := skeep (fun a => !(decide (lo ≤ a) && decide (a < lo + n))) d.mem }

/-- ECC errors in the words that [a, a + n) touches: whether a double-bit error is there, and its word. -/
def Dev.eccIn (d : Dev) (a n : Nat) : List (Nat × Bool) :=
  d.ecc.filter (fun e => decide (a / 8 * 8 ≤ e.1) && decide (e.1 < a + n)) ++
  if d.fills.isEmpty then []
  else (List.range ((a + n + 7) / 8 - a / 8)).filterMap fun i => (eccDef d.fills (8 * (a / 8 + i))).map fun b => (8 * (a / 8 + i), b)

/-- A read meets the ECC errors of a range (R208): corrections counted, the first double-bit error recorded, event
0x4001. Answers the address of a double-bit error. -/
def Dev.eccRead (d : Dev) (a n : Nat) : Dev × Option Nat :=
  (d.eccIn a n).foldl (fun (s : Dev × Option Nat) e =>
    let reg := match region e.1 with
      | .stock c _ => aStkErr c
      | _ => aHbmErr (s.1.stackOf e.1)
    match region e.1 with
    | .stock c o =>
      if e.2 then
        (((s.1.hwSet reg 0x10000 0xFFFFFE0000 (mkWord [(17, o)])).event 0x4001 2
          (leBytes 1 1 ++ leBytes 1 c.val ++ leBytes 8 e.1)), some (s.2.getD e.1))
      else (s.1.hwInc reg 0 16 1, s.2)
    | .hbm =>
      if e.2 then
        (((s.1.hwSet reg 0x10000 0xFFFFFFFFFE0000 (mkWord [(17, e.1 % 2 ^ 39)])).event 0x4001 2
          (leBytes 1 2 ++ leBytes 1 (s.1.stackOf e.1).val ++ leBytes 8 e.1)), some (s.2.getD e.1))
      else (s.1.hwInc reg 0 16 1, s.2)
    | _ => s) (d, none)

/-! Descriptors (R153, R154). -/

/-- Word `i` of operation descriptor `n`. -/
def Core.descWord (x : Core) (n i : Nat) : Word := sget (fun _ => 0) x.descs (8 * n + i)
def Core.desc (x : Core) (n : Nat) : List Word := sgetList (fun _ => 0) x.descs (8 * n) 8
def Core.sdesc (x : Core) (m : Nat) : List Word := sgetList (fun _ => 0) x.sdescs (8 * m) 8

/-! Ownership and lasts. -/

def last_of (n : Nat) : LastId := finOf 7 n

/-- The last of a strand, if it is assigned (Table 6.17). -/
def Dev.strandLast (d : Dev) (c : CoreId) (k : StrandId) : Option LastId :=
  let v := d.reg (aSeqCtl c)
  if bitOf v (4 * k.val + 3) then some (last_of (fld v (4 * k.val) 3)) else none

def Dev.halfOwner (d : Dev) (c : CoreId) (a : ArrayId) (u : HalfId) : Option LastId :=
  let v := d.reg (aArrCtl c a)
  if bitOf v (4 * u.val + 3) then some (last_of (fld v (4 * u.val) 3)) else none

def Dev.tileOwner (d : Dev) (c : CoreId) (a : ArrayId) (t : TileId) : Option LastId :=
  let v := d.reg (aBedCtl c a)
  if bitOf v (4 * t.val + 3) then some (last_of (fld v (4 * t.val) 3)) else none

def Dev.patOwner (d : Dev) (c : CoreId) : Option LastId :=
  let v := d.reg (aPatCtl c)
  if bitOf v 3 then some (last_of (fld v 0 3)) else none

/-- Presented width of an array (R399). -/
def Dev.width (d : Dev) (c : CoreId) (a : ArrayId) : Nat := d.regFld (aColmW c a) 0 7

/-- Every core, strand, array, half, tile, in ascending order. -/
def allCores : List CoreId := List.finRange 128
def allStrands : List StrandId := List.finRange 2
def allArrays : List ArrayId := List.finRange 4
def allHalves : List HalfId := List.finRange 2
def allTiles : List TileId := List.finRange 4
def allLasts : List LastId := List.finRange 8

/-- The strands assigned to a last, in ascending core and strand order. -/
def Dev.strandsOf (d : Dev) (l : LastId) : List (CoreId × StrandId) :=
  (allCores.flatMap fun c => allStrands.map fun k => (c, k)).filter fun x => d.strandLast x.1 x.2 == some l

/-- The cores on which a last has a strand. -/
def Dev.coresOf (d : Dev) (l : LastId) : List CoreId := allCores.filter fun c => allStrands.any fun k => d.strandLast c k == some l

/-! The instruction word (Table 6.9). -/

def wWtal (w : BitVec 56) : Nat := (w.toNat / 2 ^ 50) % 64
def wPtal (w : BitVec 56) : TallyId := finOf 63 (w.toNat / 2 ^ 44)
def wWen (w : BitVec 56) : Bool := w.toNat.testBit 43
def wPen (w : BitVec 56) : Bool := w.toNat.testBit 42
def wFld (w : BitVec 56) (lo len : Nat) : Nat := (w.toNat / 2 ^ lo) % 2 ^ len

/-- The whole word of an opcode and bits [55:0]. -/
def insnWord (op : Byte) (w : BitVec 56) : Word := op ++ w

/-! Tallies (R149 to R151). -/

/-- An increment in step 3 of R151. -/
def Dev.tallyInc (d : Dev) (c : CoreId) (t : TallyId) (n : Nat) (o : Option Origin) : Dev :=
  d.updTally c t fun x => { x with inc := x.inc ++ [⟨n, o⟩] }

/-- Value of a tally at the end of the cycle (R151, R193). -/
def Tally.fold (t : Tally) : Nat :=
  match t.tset, t.val with
  | some v, _ => v
  | none, some v => v
  | none, none => min 65535 (t.start - t.dec + t.inc.foldl (fun a i => a + i.amount) 0)

/-- Step 3 of R151 would pass 65 535. -/
def Tally.saturates (t : Tally) : Bool := decide (t.start - t.dec + t.inc.foldl (fun a i => a + i.amount) 0 > 65535)

/-- A last may post: it runs, or is being paused, or its fault came in this very cycle (R152, R159 step 5). -/
def Dev.mayPost (d : Dev) (l : LastId) : Bool :=
  match (d.last l).st with
  | .running | .paused => true
  | .stopped => d.now.faults.any fun f => f.1 == l.val
  | _ => false

/-- The post of a completing instruction (R149). -/
def Dev.post (d : Dev) (o : Origin) : Dev :=
  let w : BitVec 56 := o.insn.setWidth 56
  if wPen w && d.mayPost o.last then d.tallyInc o.core (wPtal w) 1 (some o) else d

/-! Keystones (R276 to R278). -/

def Dev.ksCfg (d : Dev) (k : KeyId) : Word := d.reg (aKs k 0)

/-- A packet of this module. -/
def Packet.blank : Packet := ⟨0, 0, false, false, 0, 0, false, 0, 0, 0, 0, 0, 0, 0, 0, 0, false, false, [], none, 0, none⟩

/-- The ports of a mask, in ascending order. -/
def portsOf (mask : Nat) : List LinkId := (List.finRange 12).filter fun l => mask.testBit l.val

/-- Data of a CTL packet: its kind and up to seven values of 64 bits. The manual gives the use of these packets and their
size, not their layout (DESIGN CHOICE, log 52). -/
def ctlBytes (kind : Nat) (vals : List Nat) : List Byte := leBytes 1 kind ++ vals.flatMap (leBytes 8)

/-- A CTL packet to the peer of a port (Table 9.5). -/
def ctlPacket (src : Nat) (dst : DevAddr) (kind : Nat) (vals : List Nat) : Packet :=
  let b := ctlBytes kind vals
  { Packet.blank with type := 10, cls := 3, src := BitVec.ofNat 15 src, dst := dst, len := BitVec.ofNat 12 (b.length - 1), data := b }

/-- The kind of an identity packet, the only one that a MISCABLED link carries (Table 9.2). -/
def ctlIdentity : Nat := 4

/-- The port sends a CTL packet of this kind now. -/
def Dev.ctlOpen (d : Dev) (kind : Nat) (l : LinkId) : Bool := (d.link l).st == .up || ((d.link l).st == .miscabled && kind == ctlIdentity)

/-- A control message leaves on each of the ports that carries it. -/
def Dev.sendCtl (d : Dev) (ports : List LinkId) (kind : Nat) (vals : List Nat) : Dev :=
  d.updHub fun h => { h with ctl := h.ctl ++ (ports.filter (d.ctlOpen kind)).map fun l => (l, ctlPacket d.ownDev (d.link l).peerDev kind vals) }

/-- A control message of a keystone on ports: kind (0 arrival, 1 release, 2 break), keystone, instant, round. -/
def Dev.ksSend (d : Dev) (kind : Nat) (k : KeyId) (x y : Nat) (ports : List LinkId) : Dev := d.sendCtl ports kind [k.val, x, y]

/-- The neighbours of keystone `k` in its tree: parent and children. -/
def Dev.ksPorts (d : Dev) (k : KeyId) : List LinkId :=
  let v := d.ksCfg k
  portsOf ((if fld v 12 4 < 12 then 2 ^ fld v 12 4 else 0) ||| fld v 20 12)

/-- A break of keystone `k` begins here: arrivals withdrawn, break packets sent, state 3 (R278 steps 1 to 4). -/
def Dev.ksBreak (d : Dev) (k : KeyId) (but : Option LinkId) : Dev :=
  let ports := (d.ksPorts k).filter fun l => some l != but
  let d := d.ksSend 2 k 0 0 ports
  d.updKey k fun x => { x with st := 3, arrived := 0, next := 0, children := 0, waits := [] }

/-! Array operations. -/

/-- An operation of the arrays. -/
def Op.isArr (o : Op) : Bool := o.opcode == 0x40 || o.opcode == 0x41

/-- Halves an array operation uses (Table 3.7). -/
def Op.halfMask (o : Op) : Nat := wFld o.w 2 2
def Op.usesHalf (o : Op) (u : HalfId) : Bool := o.halfMask.testBit u.val

/-- The half has a slot in its cells, a pass that still feeds slots, or a load in progress (Table 3.11). -/
def Dev.halfBusy (d : Dev) (c : CoreId) (a : ArrayId) (u : HalfId) : Bool :=
  decide ((d.half c a u).emptyAt > d.cycle) ||
  d.ops.any fun o => o.isArr && o.phase == .started && o.ecore == c && o.earray == a && o.usesHalf u && (o.rows.isSome || o.feed.isSome)

/-! Strands and lasts completing (R162, R197). -/

/-- Nothing the strand dispatched is outstanding. -/
def Dev.strandIdle (d : Dev) (c : CoreId) (k : StrandId) : Bool :=
  let s := d.strand c k
  s.acc.isEmpty && s.ftwait.isNone && s.keys.isEmpty &&
  !(d.aoc.restoring.any fun r => r.crest.any fun x => x.1 == c && x.2.1 == k) &&
  !(d.ops.any fun o => o.core == c && o.strand == k) &&
  !((d.core c).posts.any fun p => p.strand == k)

/-- Every strand of the last is DONE. -/
def Dev.allDone (d : Dev) (l : LastId) : Bool :=
  let ss := d.strandsOf l
  !ss.isEmpty && ss.all fun x => (d.strand x.1 x.2).st == .done

/-- LAST_DONE (R162): event 0x3006 and notice kind 3. -/
def Dev.lastDone (d : Dev) (l : LastId) : Dev :=
  if (d.last l).st == .running && d.allDone l then
    let d := (d.updLast l fun x => { x with st := .done }).eventN 0x3006 0 (leBytes 1 l.val) (3, l.val, 0xFF, 0xFF, 0)
    { d with now := { d.now with dones := l :: d.now.dones } }
  else d

/-- STRAND_DONE (R197): a HALTING strand becomes DONE in the cycle after the last completion of what it dispatched; its HALT
completes and posts in that cycle. -/
def Dev.settle (d : Dev) (c : CoreId) (k : StrandId) : Dev :=
  let s := d.strand c k
  if s.st == .halting && d.strandIdle c k then
    let d := d.updStrand c k fun x => { x with st := .done, halt := none }
    match d.strandLast c k with
    | none => d
    | some l =>
      let d := match s.halt with
        | some h => d.post ⟨l, c, k, h.pc, insnWord h.opcode h.w⟩
        | none => d
      d.lastDone l
  else d

/-- An instruction completes: its post (R149). -/
def Dev.complete (d : Dev) (o : Origin) : Dev := d.post o

def Op.origin (o : Op) : Origin := ⟨o.last, o.core, o.strand, o.pc, insnWord o.opcode o.w⟩

/-- The operation leaves the list and completes. -/
def Dev.completeOp (d : Dev) (o : Op) : Dev :=
  let d := { d with ops := d.ops.filter fun x => x.id != o.id }
  let d := if o.phase == .queued then { d with now := { d.now with left := d.now.left ++ [o] } } else d
  d.complete o.origin

/-! LAST_FAULT (R159, R160, R234). -/

/-- R234: the runs that the last made on the hods of a core end; outstanding transfers go on. -/
def Core.endRuns (x : Core) (l : LastId) : Core :=
  { x with sds := x.sds.map fun s =>
      match s.active with
      | some r => if r.origin.any fun o => o.last == l then
          { s with active := none, shadow := none, slots := 0, fillNo := 0, filled := 0, relNo := 0 } else s
      | none => s }

/-- LST_FLT_L takes a fault (R160, Table 6.23). -/
def Dev.recordFault (d : Dev) (cause : Nat) (o : Origin) (detail : Word) (extra : Nat) : Dev :=
  let d := d.setReg (aLstFlt o.last 0) (mkWord [(0, cause), (8, o.core.val), (15, o.strand.val), (16, min 0xFFFF extra)])
  let d := d.setReg (aLstFlt o.last 1) (o.pc.setWidth 64)
  let d := d.setReg (aLstFlt o.last 2) o.insn
  d.setReg (aLstFlt o.last 3) detail

/-- R159 step 1: no strand of the last dispatches. -/
def Strand.halted (s : Strand) : Strand :=
  { s with
    st := match s.st with
      | .running | .trapped | .halting | .paused => .stopped
      | st => st
    resume := .idle, halt := none, ftwait := none, keys := [], group := none }

/-- The halves that a last owns. -/
def Dev.halvesOf (d : Dev) (l : LastId) : List (CoreId × ArrayId × HalfId) :=
  allCores.flatMap fun c => allArrays.flatMap fun a => allHalves.filterMap fun u => if d.halfOwner c a u == some l then some (c, a, u) else none

/-- The hod of a core's stream command. -/
def Op.hod (o : Op) : Option (Fin 2) :=
  if o.opcode == 0x60 || o.opcode == 0x61 || o.opcode == 0x62 then some (finOf 1 (wFld o.w 5 1)) else none

/-- A hod no longer holds a command that has left its queue (Table 8.18). -/
def Dev.unheld (d : Dev) (gone : List Op) : Dev :=
  (gone.filter fun x => x.hod.isSome &&
    !(d.ops.any fun y => y.hod == x.hod && y.core == x.core && y.phase == .queued && decide (y.id < x.id))).foldl (fun (d : Dev) x =>
      d.updCore x.core fun y => { y with hods := vmap y.hods (x.hod.getD 0) fun h => { h with held := none } }) d

/-- R159 step 3: operations of the last that are queued, or stopped by a pause, are removed; those queued in halves leave in the
next cycle (R82). -/
def Dev.dropQueued (d : Dev) (l : LastId) : Dev :=
  let drop := fun (x : Op) => x.last == l && ((x.phase == .queued && !x.isArr) || x.phase == .stopped)
  let gone := d.ops.filter drop
  { d with
    ops := d.ops.filter fun x => !drop x
    now := { d.now with left := d.now.left ++ gone.filter fun (x : Op) => x.phase == Phase.queued } }.unheld gone

/-- A fault of a last (R159, R160). A last that turned DONE in this very cycle is stopped as a running one is (R151); a fault
of a STOPPED last only counts. Table 6.1 takes no other last out of its state: a fault of a PAUSED last leaves it PAUSED
(DEDUCED, log 48). `info`, 0 but for remote requests, stands above the number of the last in the event's first word: the status
of Table 9.6 and a module that did not acknowledge (R249, R270; DESIGN CHOICE, log 50). -/
def Dev.faultInfo (d : Dev) (cause : Nat) (o : Origin) (detail : Word) (info : Nat) : Dev :=
  let l := o.last
  if (d.last l).st = .stopped then
    let extra := d.regFld (aLstFlt l 0) 16 16 + 1
    match d.now.faults.find? fun f => f.1 == l.val with
    | some f =>
      if o.core.val < f.2.1 || (o.core.val == f.2.1 && decide (o.strand.val < f.2.2)) then
        { (d.recordFault cause o detail extra) with
          now := { d.now with faults := (l.val, o.core.val, o.strand.val) :: d.now.faults } }
      else d.setRegFld (aLstFlt l 0) 16 16 (min 0xFFFF extra)
    | none => d.setRegFld (aLstFlt l 0) 16 16 (min 0xFFFF extra)
  else if (d.last l).st = .running || ((d.last l).st = .done && d.now.dones.contains l) then
    let d := (d.strandsOf l).foldl (fun d x => d.updStrand x.1 x.2 Strand.halted) d
    -- step 2: the halves are drained from the end of this cycle (R82)
    let d := { d with now := { d.now with drains := d.now.drains ++ (d.halvesOf l).map fun h => (l, h) } }
    let d := d.dropQueued l
    -- R234: hod runs end
    let d := (allCores.filter fun c => (d.core c).sds.toList.any fun s => s.active.isSome).foldl (fun d c => d.updCore c fun x => x.endRuns l) d
    -- R278: keystones of the last break
    let keys := (List.finRange 64).filter fun k => bitOf (d.ksCfg k) 3 && fld (d.ksCfg k) 0 3 == l.val && (d.key k).st != 3
    let d := keys.foldl (fun d k => d.ksBreak k none) d
    -- step 6
    let d := d.recordFault cause o detail 0
    let d := d.updLast l fun x => { x with st := .stopped, pendingLaunch := none }
    let d := { d with now := { d.now with faults := (l.val, o.core.val, o.strand.val) :: d.now.faults } }
    let w0 := (d.reg (aLstFlt l 0)).toNat + l.val * 2 ^ 32 + info % 2 ^ 28 * 2 ^ 36
    d.eventN 0x3001 2 (leBytes 8 w0 ++ (leBytes 8 (d.reg (aLstFlt l 1)).toNat) ++ leBytes 8 o.insn.toNat ++ leBytes 8 detail.toNat)
      (1, l.val, o.core.val, o.strand.val, cause)
  else d

/-- A fault of a last with nothing but its cause, origin and detail. -/
def Dev.fault (d : Dev) (cause : Nat) (o : Origin) (detail : Word) : Dev := d.faultInfo cause o detail 0

/-- A fault that no instruction raised names the lowest strand of the last (R160). -/
def Dev.faultBare (d : Dev) (l : LastId) (cause : Nat) (detail : Word) : Dev :=
  match d.strandsOf l with
  | x :: _ => d.fault cause ⟨l, x.1, x.2, 0, 0⟩ detail
  | [] => d.fault cause ⟨l, 0, 0, 0, 0⟩ detail

end Sys2Proof.Machine
end

