-- ==== Sys2Proof/Machine/Operands.lean ====
section
/-!
DEFINITION. The operand forms of the instruction word (Tables 6.9, 6.10): fields, what each opcode reads and writes, the
queues it enters, and the checks of R157; and the operands of memory instructions.
-/

namespace Sys2Proof.Machine

/-- Engine queues of a core (Table 6.8). -/
inductive QId where
  | half (a : ArrayId) (u : HalfId)
  | fin (a : ArrayId)
  | slice
  | vec
  | sfu
  | pat
  | cvt
  | hod (h : Fin 2)
  deriving DecidableEq, Repr

/-! Fields. -/

def wRd (w : BitVec 56) : Fin 32 := finOf 31 (wFld w 0 5)
def wRa (w : BitVec 56) : Fin 32 := finOf 31 (wFld w 5 5)
def wRb (w : BitVec 56) : Fin 32 := finOf 31 (wFld w 10 5)
def wImm (w : BitVec 56) : Nat := wFld w 10 32
def wPd (w : BitVec 56) : Fin 8 := finOf 7 (wFld w 0 3)
/-- Format B and Y predicate fields. -/
def wBp (w : BitVec 56) : Fin 8 := finOf 7 (wFld w 0 3)
def wBneg (w : BitVec 56) : Bool := w.toNat.testBit 3
def wArray (w : BitVec 56) : ArrayId := finOf 3 (wFld w 0 2)
def wHalf (w : BitVec 56) : Nat := wFld w 2 2
def wTile (w : BitVec 56) : TileId := finOf 3 (wFld w 4 2)
def wMode (w : BitVec 56) : Mode := Mode.ofCode (wFld w 6 2)
def wDesc (w : BitVec 56) : Nat := wFld w 8 10
def wFmtA (w : BitVec 56) : Nat := wFld w 18 4
def wFmtB (w : BitVec 56) : Nat := wFld w 22 4
/-- The mode and format pair of a word, with entry class and beat (R40). -/
def wPair (w : BitVec 56) : Option (Fmt × Fmt × Cls × Nat) :=
  match Fmt.ofCode (wFmtA w), Fmt.ofCode (wFmtB w) with
  | some a, some b => (pairClass (wMode w) a b).map fun r => (a, b, r.1, r.2)
  | _, _ => none
def wEra (w : BitVec 56) : Fin 32 := finOf 31 (wFld w 26 5)
def wCls (w : BitVec 56) : Nat := wFld w 31 3
def wSd (w : BitVec 56) : SdId := finOf 31 (wFld w 0 5)
def wHod (w : BitVec 56) : Fin 2 := finOf 1 (wFld w 5 1)
def wTally (w : BitVec 56) : TallyId := finOf 63 (wFld w 6 6)
def wTra (w : BitVec 56) : Fin 32 := finOf 31 (wFld w 12 5)
def wImm16 (w : BitVec 56) : Nat := wFld w 17 16
def wCode (w : BitVec 56) : Nat := wFld w 0 16
def wYp (w : BitVec 56) : Fin 8 := finOf 7 (wFld w 16 3)
def wYneg (w : BitVec 56) : Bool := w.toNat.testBit 19
def wCond (w : BitVec 56) : Bool := w.toNat.testBit 20
def wYra (w : BitVec 56) : Fin 32 := finOf 31 (wFld w 21 5)

/-- sext32. -/
def sext32 (n : Nat) : Word := (BitVec.ofNat 32 n).signExtend 64

/-! Reading and writing registers (R143, R176). -/

/-- s0 reads 0. -/
def Strand.rdS (s : Strand) (r : Fin 32) : Word := if r = 0 then 0 else s.s.get r
/-- p0 reads 1. -/
def Strand.rdP (s : Strand) (p : Fin 8) : Bool := if p = 0 then true else s.p.get p
/-- Writes to s0 are ignored; the value is available in cycle `at_`. -/
def Strand.wrS (s : Strand) (r : Fin 32) (v : Word) (at_ : Nat) : Strand :=
  if r = 0 then s else { s with s := vmap s.s r fun _ => v, sAvail := vmap s.sAvail r fun _ => some at_ }
/-- Writes to p0 are ignored. -/
def Strand.wrP (s : Strand) (p : Fin 8) (v : Bool) (at_ : Nat) : Strand :=
  if p = 0 then s else { s with p := vmap s.p p fun _ => v, pAvail := vmap s.pAvail p fun _ => at_ }

/-! What an opcode needs (R144). -/

/-- What an instruction reads, writes and enters. -/
structure Needs where
  rs : List (Fin 32)
  ws : List (Fin 32)
  rp : List (Fin 8)
  wp : List (Fin 8)
  queues : List QId
  access : Bool
  desc : Bool
  deriving DecidableEq, Repr

def Needs.nil : Needs := ⟨[], [], [], [], [], false, false⟩

/-- Operand form of an opcode (Table 7.1). -/
inductive Form where
  | s
  | i
  | b
  | m
  | e
  | t
  | y
  | reserved
  deriving DecidableEq, Repr

/-- R171, Table 7.1: every other opcode is reserved. -/
def formOf (op : Nat) : Form :=
  if 0x08 ≤ op && op ≤ 0x1C then .s
  else if 0x24 ≤ op && op ≤ 0x31 then .i
  else if 0x34 ≤ op && op ≤ 0x36 then .b
  else if op = 0x37 then .i
  else if 0x40 ≤ op && op ≤ 0x4D then .e
  else if 0x50 ≤ op && op ≤ 0x5E && op ≠ 0x57 then .m
  else if (0x60 ≤ op && op ≤ 0x62) || (0x68 ≤ op && op ≤ 0x6B) then .t
  else if 0x70 ≤ op && op ≤ 0x77 then .y
  else if 0x78 ≤ op && op ≤ 0x7B then .i
  else .reserved

def isCompare (op : Nat) : Bool := (0x17 ≤ op && op ≤ 0x1C) || op = 0x2B || op = 0x2C

/-- Half queues that a half mask names. -/
def halfQueues (a : ArrayId) (m : Nat) : List QId :=
  (if m.testBit 0 then [.half a 0] else []) ++ (if m.testBit 1 then [.half a 1] else [])

/-- Queues of an engine or stream opcode (Tables 6.8, 7.8, R191). -/
def queuesOf (op : Nat) (w : BitVec 56) : List QId :=
  match op with
  | 0x40 | 0x41 => halfQueues (wArray w) (wHalf w)
  | 0x42 => [.fin (wArray w)]
  | 0x43 | 0x44 => [.slice]
  | 0x45 | 0x46 => [.vec]
  | 0x47 | 0x48 | 0x49 => [.sfu]
  | 0x4A | 0x4B | 0x4C => [.pat]
  | 0x4D => [.cvt]
  | 0x60 | 0x61 | 0x62 => [.hod (wHod w)]
  | _ => []

/-- An engine opcode names an operation descriptor (Table 7.7). -/
def usesDesc (op : Nat) : Bool := (0x40 ≤ op && op ≤ 0x42) || (0x45 ≤ op && op ≤ 0x4B) || op = 0x4D

def needsOf (op : Nat) (w : BitVec 56) : Needs :=
  match formOf op with
  | .s => { Needs.nil with rs := [wRa w, wRb w], ws := if isCompare op then [] else [wRd w], wp := if isCompare op then [wPd w] else [] }
  | .i =>
    let rs := match op with
      | 0x2F | 0x30 | 0x31 | 0x37 | 0x78 | 0x79 | 0x7A | 0x7B => []
      | 0x2E => [wRa w, finOf 31 (wImm w)]
      | _ => [wRa w]
    let rp := match op with
      | 0x2E => [finOf 7 (wImm w / 32)]
      | 0x2F => [finOf 7 (wImm w)]
      | _ => []
    { Needs.nil with rs := rs, rp := rp, ws := if isCompare op || op = 0x79 || op = 0x7A then [] else [wRd w]
                     wp := if isCompare op then [wPd w] else [] }
  | .b => { Needs.nil with rs := if op = 0x34 then [] else [wRa w], rp := [wBp w], ws := if op = 0x35 then [wRa w] else [] }
  | .m =>
    if op = 0x5E then { Needs.nil with rs := [wRa w, wRd w], ws := [wRd w], access := true }
    else if op ≤ 0x56 || op = 0x5C then { Needs.nil with rs := [wRa w], ws := [wRd w], access := true }
    else { Needs.nil with rs := [wRa w, wRd w], access := true }
  | .e => { Needs.nil with rs := if op = 0x43 || op = 0x44 then [wEra w] else [], queues := queuesOf op w, desc := usesDesc op }
  | .t => { Needs.nil with rs := if op = 0x6B then [wTra w] else [], queues := queuesOf op w }
  | .y => { Needs.nil with rs := if op = 0x76 || op = 0x77 then [wYra w] else [], rp := if wCond w then [wYp w] else [] }
  | .reserved => Needs.nil

/-! R157: what makes a word an illegal instruction, apart from the state. -/

/-- wtal or ptal named without its enable. -/
def badTallies (w : BitVec 56) : Bool :=
  (!wWen w && decide (wWtal w ≠ 0)) || (!wPen w && decide ((wPtal w).val ≠ 0))

/-- Positions of flags in an immediate (R201, Table 1.12). -/
def flagMask : Nat := 0x1F1F1F1F

/-- Format E fields of an opcode that must be 0 (Table 7.7): position and width of each. -/
def unusedE (op : Nat) : List (Nat × Nat) :=
  let array := (0, 2)
  let half := (2, 2)
  let tile := (4, 2)
  let mode := (6, 2)
  let desc := (8, 10)
  let pair := (18, 8)
  let ra := (26, 5)
  let cls := (31, 3)
  match op with
  | 0x40 => [ra, cls]
  | 0x41 => [tile, ra, cls]
  | 0x42 => [half, mode, pair, ra, cls]
  | 0x43 => [half, mode, desc, pair, cls]
  | 0x44 => [half, mode, desc, pair]
  | 0x4C => [array, half, tile, mode, desc, pair, ra, cls]
  | _ => [array, half, tile, mode, pair, ra, cls]

def badOperands (op : Nat) (w : BitVec 56) : Bool :=
  let imm := wImm w
  let rd := wFld w 0 5
  let ra := wFld w 5 5
  match formOf op with
  | .s => decide (wFld w 15 27 ≠ 0) || (isCompare op && decide (rd / 8 ≠ 0))
  | .i =>
    (match op with
    | 0x28 | 0x29 | 0x2A => decide (imm > 63)
    | 0x2B | 0x2C => decide (rd / 8 ≠ 0)
    | 0x2E => decide (imm / 512 ≠ 0)
    | 0x2F => decide (imm / 8 ≠ 0) || decide (ra ≠ 0)
    | 0x30 => decide (imm > 7) || decide (ra ≠ 0)
    | 0x31 => decide (imm > 63) || decide (ra ≠ 0)
    | 0x37 => decide (ra ≠ 0)
    | 0x78 => decide (ra ≠ 0) || decide (imm ≠ 0)
    | 0x79 => decide (rd ≠ 0) || decide (ra ≠ 0) || decide (imm &&& flagMask ≠ imm)
    | 0x7A => decide (rd ≠ 0) || decide (ra ≠ 0)
    | 0x7B => decide (ra ≠ 0) || decide (imm &&& flagMask ≠ imm)
    | _ => false)
  | .b =>
    decide (wFld w 4 1 ≠ 0) ||
    (match op with
    | 0x34 => decide (ra ≠ 0)
    | 0x35 => decide (ra = 0)
    | _ => false)
  | .m => false
  | .e => decide (wFld w 34 8 ≠ 0) || (unusedE op).any fun f => decide (wFld w f.1 f.2 ≠ 0)
  | .t =>
    decide (wFld w 33 9 ≠ 0) ||
    (match op with
    | 0x60 | 0x61 | 0x62 => decide (wFld w 6 27 ≠ 0)
    | 0x68 | 0x69 => decide (wFld w 0 6 ≠ 0) || decide (wFld w 12 5 ≠ 0)
    | 0x6A => decide (wFld w 0 17 ≠ 0) || decide (wImm16 w > 63)
    | _ => decide (wFld w 0 12 ≠ 0) || decide (wImm16 w ≠ 0))
  | .y =>
    decide (wFld w 26 16 ≠ 0) || (!wCond w && decide (wFld w 16 4 ≠ 0)) ||
    (match op with
    | 0x70 | 0x74 | 0x75 => decide (wFld w 0 26 ≠ 0)
    | 0x71 => decide (wCode w ≠ 0) || decide (wFld w 21 5 ≠ 0)
    | 0x72 => decide (wFld w 21 5 ≠ 0)
    | 0x73 => decide (wFld w 16 10 ≠ 0)
    | 0x76 => decide (wCode w / 2 ≠ 0) || decide (wFld w 16 5 ≠ 0)
    | _ => decide (wCode w / 8 ≠ 0) || decide (wFld w 16 5 ≠ 0))
  | .reserved => true

/-- R157: the word is an illegal instruction whatever the state. -/
def illegal (op : Nat) (w : BitVec 56) : Bool := badTallies w || badOperands op w

/-- The condition of HALT and TRAP (R197). -/
def condHolds (s : Strand) (w : BitVec 56) : Bool := !wCond w || xor (s.rdP (wYp w)) (wYneg w)

/-- Effective address of format M (R181). -/
def effAddr (s : Strand) (w : BitVec 56) : Word := s.rdS (wRa w) + sext32 (wImm w)

/-- Access size of a memory opcode in bytes (Table 7.6). -/
def accSize (op : Nat) : Nat :=
  match op with
  | 0x50 | 0x51 | 0x58 => 1
  | 0x52 | 0x53 | 0x59 => 2
  | 0x54 | 0x55 | 0x5A => 4
  | _ => 8

def isLoad (op : Nat) : Bool := op ≤ 0x56 || op = 0x5C || op = 0x5E
def isGlobal (op : Nat) : Bool := 0x5C ≤ op

/-- The value a load writes from the bytes it read (Table 7.6). -/
def loadValue (op : Nat) (bs : List Byte) : Word :=
  let v := leNat bs
  match op with
  | 0x51 => (BitVec.ofNat 8 v).signExtend 64
  | 0x53 => (BitVec.ofNat 16 v).signExtend 64
  | 0x55 => (BitVec.ofNat 32 v).signExtend 64
  | _ => BitVec.ofNat 64 v

end Sys2Proof.Machine
end

