-- ==== Sys2Proof/Machine/Flags.lean ====
section
/-!
DEFINITION. The sticky flags (R37, R38) and the max-abs slots (R35, R36).
-/

namespace Sys2Proof.Machine

/-- Lowest bit of an engine's set in FMT_FLAGS (Table 1.12). -/
inductive FlagSet where
  | fin
  | vec
  | sfu
  | cvt
  deriving DecidableEq, Repr

def FlagSet.pos : FlagSet → Nat
  | .fin => 0
  | .vec => 8
  | .sfu => 16
  | .cvt => 24

/-- The word of a FMT_FLAGS register at the start of the cycle is kept when the register first changes in it (R201). -/
def Dev.noteFlags (d : Dev) (a : Nat) : Dev :=
  if d.now.flags.any fun f => f.1 == a then d else { d with now := { d.now with flags := d.now.flags ++ [(a, d.reg a)] } }

/-- A strand's FMT_FLAGS as it stood at the end of the previous cycle (R201). -/
def Dev.flagsBefore (d : Dev) (c : CoreId) (k : StrandId) : Word :=
  match d.now.flags.find? fun f => f.1 == aFlags c k with
  | some f => f.2
  | none => d.reg (aFlags c k)

/-- Flags become visible in the set of the engine and the issuing strand (R37, R38). -/
def Dev.raiseFlags (d : Dev) (c : CoreId) (k : StrandId) (e : FlagSet) (f : Flags) : Dev :=
  if f = 0 then d else (d.noteFlags (aFlags c k)).hwSet (aFlags c k) (BitVec.ofNat 64 (f.toNat * 2 ^ e.pos)) 0 0

/-- Two sets of gathered values joined. -/
def MaxAbs.join (x y : MaxAbs) : MaxAbs :=
  ⟨if x.max.toNat < y.max.toNat then y.max else x.max, min 0xFFFF (x.ov + y.ov), min 0xFFFF (x.un + y.un)⟩

def MaxAbs.zero : MaxAbs := ⟨0, 0, 0⟩

/-- R35: what one element offers a slot. -/
def gatherOf (v : Val) (cv : Cv) : MaxAbs := ⟨BitVec.ofNat 32 (maxAbsP32 v), b2n cv.sat, b2n cv.low⟩

/-- R35: a slot takes what an operation gathered; the update is remembered for a clear in the same cycle (R36). -/
def Dev.gather (d : Dev) (c : CoreId) (n : Nat) (x : MaxAbs) : Dev :=
  let d := d.updCore c fun y => { y with maxabs := vmap y.maxabs (finOf 31 n) fun s => s.join x }
  { d with now := { d.now with gath := d.now.gath ++ [(c.val, n % 32, x)] } }

/-- R36: a slot is cleared; updates of the same cycle remain. -/
def Dev.clearSlot (d : Dev) (c : CoreId) (n : Fin 32) : Dev :=
  let x := (d.now.gath.filter fun g => g.1 == c.val && g.2.1 == n.val).foldl (fun a g => MaxAbs.join a g.2.2) MaxAbs.zero
  d.updCore c fun y => { y with maxabs := vmap y.maxabs n fun _ => x }

/-- R36, R202: every slot whose bit is 1 is cleared. -/
def Dev.clearSlots (d : Dev) (c : CoreId) (mask : Nat) : Dev :=
  (List.finRange 32).foldl (fun d n => if mask.testBit n.val then d.clearSlot c n else d) d

/-- FMT_MAXABS_n (Table 1.15). -/
def MaxAbs.word (x : MaxAbs) : Word := mkWord [(0, x.max.toNat), (32, x.ov), (48, x.un)]

/-- FCLR (R201): a W1C write to the strand's FMT_FLAGS. -/
def Dev.clearFlags (d : Dev) (c : CoreId) (k : StrandId) (mask : Nat) : Dev :=
  (d.noteFlags (aFlags c k)).swWrite (aFlags c k) (BitVec.ofNat 64 mask)

/-- Stochastic rounding of element `i` of an operation (R31 to R33). -/
def Dev.rndOf (d : Dev) (c : CoreId) (l : LastId) (code : Nat) (draw : Word) (i : Nat) : Rnd :=
  if code = 4 then
    ⟨4, srBits (d.reg (aFmt c (0x100 + 16 * l.val))) (d.reg (aFmt c (0x108 + 16 * l.val))) draw (BitVec.ofNat 64 i)⟩
  else ⟨code, 0⟩

end Sys2Proof.Machine
end

