-- ==== Sys2Proof/Machine/Issue.lean ====
section
/-!
DEFINITION. Issue of a strand's next instruction (R143 to R149, R157, R158): readiness, stall codes, the checks of every
opcode, and what every dispatch does.
-/

namespace Sys2Proof.Machine

/-- The operation is one of the queue's (Table 6.8, R168). -/
def Op.enters (o : Op) (c : CoreId) (q : QId) : Bool :=
  o.ecore == c &&
  match q with
  | .half a u => o.isArr && o.earray == a && o.usesHalf u
  | .fin a => o.opcode == 0x42 && o.earray == a
  | .hod h => (o.opcode == 0x60 || o.opcode == 0x61 || o.opcode == 0x62) && wHod o.w == h
  | q => (queuesOf o.opcode.toNat o.w).any fun x => x == q

/-- The queue that an operation waits in holds it. -/
def Op.inQueue (o : Op) (c : CoreId) (q : QId) : Bool := o.phase == .queued && o.enters c q

/-- A queue's entries, in order (R155). -/
def Dev.queueOf (d : Dev) (c : CoreId) (q : QId) : List Op := d.ops.filter fun o => o.inQueue c q

/-- The queue had a free entry at the start of the cycle: 16 at most are held (R144, R155). A PLOAD in the reload port holds
none. -/
def Dev.queueFree (d : Dev) (c : CoreId) (q : QId) : Bool :=
  decide ((d.queueOf c q).length + (d.now.left.filter fun o => o.enters c q).length < 16)

/-- Operations leave their queues in this cycle. -/
def Dev.noteLeft (d : Dev) (os : List Op) : Dev := { d with now := { d.now with left := d.now.left ++ os } }

/-- The PC is misaligned or outside the core's own slice (R147). -/
def badPc (c : CoreId) (pc : LAddr) (wild : Bool) : Bool :=
  wild || decide (pc.toNat % 8 ≠ 0) || decide (pc.toNat < sliceBase c) || decide (pc.toNat ≥ sliceBase c + 0x800000)

/-- The local address of an access, if it is one of this module's (R205). -/
def Dev.accAddr (d : Dev) (a : Acc) : Option Nat :=
  if isGlobal a.opcode.toNat then
    let g := fld a.ea 48 16
    if g = 0x7FFF || g = d.ownDev then some (fld a.ea 0 48) else none
  else if a.ea.toNat < 2 ^ 48 then some a.ea.toNat else none

/-- An access stores to its own core's descriptor table (R144 item 6). -/
def Dev.descStore (d : Dev) (c : CoreId) (a : Acc) : Bool :=
  !isLoad a.opcode.toNat &&
  match (d.accAddr a).map region with
  | some (.desc n o) => n == c && decide (o < 0x10000)
  | _ => false

/-- The strand's stores that were outstanding at the start of the cycle and have taken effect in it. -/
def Dev.endedOf (d : Dev) (c : CoreId) (k : StrandId) : List Acc :=
  (d.now.ended.filter fun x => x.1 == c && x.2.1 == k).map fun x => x.2.2

/-- The strand's next word arrived in its fetch buffer in this very cycle. -/
def Dev.justFetched (d : Dev) (c : CoreId) (k : StrandId) (pc : Nat) : Bool := d.now.fetched.contains (c, k, pc / 64 * 64)

/-- The stall code of a word at the head of a RUNNING strand, 0 when it is ready (R144, Table 6.18): judged on what held at the
start of the cycle. -/
def Dev.stallOf (d : Dev) (c : CoreId) (k : StrandId) (word : Word) : Nat :=
  let s := d.strand c k
  let op := word.toNat / 2 ^ 56
  let w : BitVec 56 := word.setWidth 56
  let n := needsOf op w
  let late := fun (t : Option Nat) => match t with
    | some t => decide (t > d.cycle)
    | none => true
  if d.cycle < s.notBefore || d.justFetched c k s.pc.toNat then 4
  else if wWen w && ((d.core c).tallies.get (finOf 63 (wWtal w))).start == 0 then 1
  else if n.queues.any fun q => !d.queueFree c q then 2
  else if (n.rs ++ n.ws).any (fun r => r ≠ 0 && late (s.sAvail.get r)) ||
      (n.rp ++ n.wp).any (fun p => p ≠ 0 && decide (s.pAvail.get p > d.cycle)) then 3
  else if n.desc && (s.acc ++ d.endedOf c k).any fun a => d.descStore c a then 5
  else if n.access && decide (s.acc.length + (d.endedOf c k).length ≥ 16) then 7
  else 0

/-- The word at the strand's PC in its fetch buffer. -/
def Strand.fetched (s : Strand) : Option Word := (s.fetch.find? fun f => f.1 == s.pc.toNat).map fun f => f.2

/-- The strand could dispatch in this cycle (R144). -/
def Dev.strandReady (d : Dev) (c : CoreId) (k : StrandId) : Bool :=
  let s := d.strand c k
  s.st == .running && (badPc c s.pc s.pcWild ||
    match s.fetched with
    | some w => d.stallOf c k w == 0
    | none => false)

def otherStrand (k : StrandId) : StrandId := if k = 0 then 1 else 0

/-- What a dispatch comes to: the device after the instruction, or a fault with its cause and detail (R158). -/
inductive Disp where
  | ok (d : Dev)
  | fault (cause : Nat) (detail : Word)

/-- What every dispatch does (R145, R149, R152): the wait tally is decremented, the PC moves on, the core and the
counters take note. -/
def Dev.commit (d : Dev) (c : CoreId) (k : StrandId) (w : BitVec 56) : Dev :=
  let d := if wWen w then d.updTally c (finOf 63 (wWtal w)) fun t => { t with dec := t.dec + 1 } else d
  let d := d.updStrand c k fun s => { s with pc := s.pc + 8, stall := 0 }
  let d := d.updCore c fun x => { x with lastStrand := k, lastDispatch := some d.cycle }
  d.cnt c (1 + k.val) 1

def Dev.setStall (d : Dev) (c : CoreId) (k : StrandId) (n : Nat) : Dev :=
  d.updStrand c k fun s => { s with stall := BitVec.ofNat 3 n }

/-- A strand dispatches the instruction at its PC (R144, R145, R157). A strand that cannot dispatch only shows why. An
instruction that faults at dispatch does not count as the core's dispatch of the cycle, so that the other strand may dispatch
in it (DESIGN CHOICE, log 26: R145 does not say). -/
def Dev.issue (d : Dev) (c : CoreId) (k : StrandId) (word : Word) (body : Dev → Origin → Disp) : Dev :=
  let s := d.strand c k
  let w : BitVec 56 := word.setWidth 56
  match d.strandLast c k with
  | none => d
  | some l =>
    if !d.coreOn c || s.st != .running then d.setStall c k 0
    else if badPc c s.pc s.pcWild then d.fault 3 ⟨l, c, k, s.pc, 0⟩ 0
    else match s.fetched with
    | none => d.setStall c k 4
    | some x =>
      if x ≠ word then d
      else
        let n := d.stallOf c k word
        if n ≠ 0 then d.setStall c k n
        else if (d.core c).lastDispatch == some d.cycle then d.setStall c k 6
        else if (d.core c).lastStrand == k && d.strandReady c (otherStrand k) then d.setStall c k 6
        else
          let o : Origin := ⟨l, c, k, s.pc, word⟩
          if illegal (word.toNat / 2 ^ 56) w then d.fault 2 o 0
          else match body (d.commit c k w) o with
            | .ok d' => d'
            | .fault cause detail => d.fault cause o detail

/-- The strand is ready to dispatch `word`: R144 holds, its core has not dispatched in this cycle, and the other strand
has no right to go first (R145). -/
def Dev.canIssue (d : Dev) (c : CoreId) (k : StrandId) (word : Word) : Bool :=
  (d.strandLast c k).isSome && d.coreOn c && (d.strand c k).st == .running && !badPc c (d.strand c k).pc (d.strand c k).pcWild &&
  (d.strand c k).fetched == some word && d.stallOf c k word == 0 &&
  (d.core c).lastDispatch != some d.cycle &&
  !((d.core c).lastStrand == k && d.strandReady c (otherStrand k))

/-- The scalar instruction completes in a later cycle (R149, R173). -/
def Dev.postAt (d : Dev) (o : Origin) (due : Nat) : Dev :=
  d.updCore o.core fun x => { x with posts := x.posts ++
    [⟨due, o.strand, o.last, o.pc, BitVec.ofNat 8 (o.insn.toNat / 2 ^ 56), o.insn.setWidth 56⟩] }

/-- A result of latency `n` for a scalar (R146, R173). -/
def Dev.result (d : Dev) (o : Origin) (r : Fin 32) (v : Word) (n : Nat) : Dev :=
  (d.updStrand o.core o.strand fun s => s.wrS r v (d.cycle + n)).postAt o (d.cycle + n)

/-- A result for a predicate (R176). -/
def Dev.resultP (d : Dev) (o : Origin) (p : Fin 8) (v : Bool) : Dev :=
  (d.updStrand o.core o.strand fun s => s.wrP p v (d.cycle + 1)).postAt o (d.cycle + 1)

/-- The word of an opcode and bits [55:0]. -/
abbrev mkInsn (op : Nat) (w : BitVec 56) : Word := insnWord (BitVec.ofNat 8 op) w

/-- The device part of a state changes; the queue of commands does not. -/
def onDev (s : State) (f : Dev → Dev) : Host.Outcome State Fault Refusal := .next { s with dev := f s.dev }

end Sys2Proof.Machine
end

