-- ==== Sys2Proof/Machine/Descs.lean ====
section
/-!
DEFINITION. Operation descriptors (R217 to R221): their fields, and the checks that dispatch makes on them.
-/

namespace Sys2Proof.Machine

/-- Bits of a descriptor: word, lowest bit, width. -/
abbrev DField := Nat × Nat × Nat

def dget (ws : List Word) (f : DField) : Nat := fld (wordAt ws f.1) f.2.1 f.2.2
def dzero (ws : List Word) (fs : List DField) : Bool := fs.all fun f => dget ws f == 0
def dtype (ws : List Word) : Nat := dget ws (0, 56, 8)

/-- A plane of rows in a slice: offsets end within it and every row starts aligned (R113, R217). -/
def planeOk (addr stride rows nbytes align : Nat) : Bool :=
  addr % align == 0 && (decide (rows ≤ 1) || stride % align == 0) && decide (addr + (rows - 1) * stride + nbytes ≤ 0x800000)

/-- Bytes of an element, 1 for 4-bit elements. -/
def Fmt.bytes (f : Fmt) : Nat := max 1 (f.width / 8)

/-- Bytes of a row of `n` elements (R14). -/
def rowBytes (w n : Nat) : Nat := (n * w + 7) / 8

/-- R27: the rounding code is valid for a target. -/
def validRnd (f : Fmt) (code : Nat) : Bool :=
  if f.isFp || f.isInt then decide (code ≤ 4) else code == 0 || code == 4

/-! Tensor descriptors (Table 8.7). -/

structure TDesc where
  base : Nat
  bs : Nat
  ebase : Nat
  rstride : Nat
  estride : Nat
  tabAddr : Nat
  tabEn : Bool
  z : Int
  k : Int
  zkCol : Bool
  zkAddr : Nat
  deriving DecidableEq, Repr

def tdesc (ws : List Word) : TDesc where
  base := dget ws (0, 0, 23)
  bs := if dget ws (0, 23, 1) = 0 then 32 else 16
  ebase := dget ws (0, 24, 23)
  rstride := dget ws (1, 0, 23)
  estride := dget ws (1, 23, 23)
  tabAddr := dget ws (2, 0, 23)
  tabEn := dget ws (2, 23, 1) == 1
  z := signed 8 (dget ws (2, 24, 8))
  k := signed 6 (dget ws (2, 32, 6))
  zkCol := dget ws (2, 38, 1) == 1
  zkAddr := dget ws (2, 39, 23)

/-- Type, reserved bits and the range of k (R217, R218). -/
def tdescForm (ws : List Word) : Bool :=
  dtype ws == 1 && dzero ws [(0, 47, 9), (1, 46, 18), (2, 62, 2), (3, 0, 64), (4, 0, 64), (5, 0, 64), (6, 0, 64), (7, 0, 64)] &&
  decide (-20 ≤ (tdesc ws).k) && decide ((tdesc ws).k ≤ 12)

/-- An operand of `rows` × `cols` elements: for A, M × K; for B, K × N (R218, R219). -/
def tensorOk (t : TDesc) (f : Fmt) (rows cols : Nat) (isA integer : Bool) : Bool :=
  t.rstride % f.bytes == 0 && planeOk t.base t.rstride rows (rowBytes f.width cols) f.bytes &&
  (!f.isBlock ||
    (let k := if isA then cols else rows
     k % t.bs == 0 && (if isA then planeOk t.ebase t.estride rows (cols / t.bs) 1 else planeOk t.ebase t.estride (rows / t.bs) cols 1))) &&
  (isA || !(f == .i4 || f == .u8) || !t.tabEn || planeOk t.tabAddr 0 1 (if f == .i4 then 32 else 512) 32) &&
  (isA || f != .i8 || integer || !t.zkCol || planeOk t.zkAddr 0 1 (2 * cols) 2)

/-! MMA descriptors (Table 8.8). -/

structure MDesc where
  ta : Nat
  tb : Nat
  init : Bool
  rnd : Nat
  wsrc : Nat
  m : Nat
  k : Nat
  n : Nat
  za : Int
  zb : Int
  deriving DecidableEq, Repr

def mdesc (ws : List Word) : MDesc where
  ta := dget ws (0, 0, 10)
  tb := dget ws (0, 10, 10)
  init := dget ws (0, 20, 1) == 1
  rnd := dget ws (0, 21, 3)
  wsrc := dget ws (0, 24, 2)
  m := dget ws (0, 32, 7)
  k := dget ws (1, 0, 32)
  n := dget ws (1, 32, 7)
  za := signed 8 (dget ws (1, 48, 8))
  zb := signed 8 (dget ws (1, 56, 8))

/-- Type, reserved bits and defined codes (R217). -/
def mdescForm (ws : List Word) : Bool :=
  dtype ws == 2 && dzero ws [(0, 26, 6), (0, 39, 17), (1, 39, 9), (2, 0, 64), (3, 0, 64), (4, 0, 64), (5, 0, 64), (6, 0, 64), (7, 0, 64)] &&
  decide ((mdesc ws).wsrc ≠ 3) && decide ((mdesc ws).rnd ≤ 4)

/-- Columns of one output in the array (Table 3.1). -/
def Cls.columns : Cls → Nat
  | .q512 | .q1024 => 2
  | _ => 1

/-- K elements of one row in one pass (Table 3.1). -/
def kPerRow (a b : Fmt) : Nat := if a == .bp4 && b == .bp4 then 4 else 1

/-- Rows of the half mask's shape. -/
def maskRows (m : Nat) : Nat := if m = 3 then 64 else 32

def passesOf (k per : Nat) : Nat := ceilDiv k per

/-! Finish descriptors (Table 8.9). -/

structure FDesc where
  rows : Nat
  cols : Nat
  conv : Nat
  tgt : Nat
  rnd : Nat
  bs : Nat
  scl : Nat
  bias : Nat
  act : Nat
  irsCol : Bool
  slot : Nat
  sclVal : Nat
  lo : Nat
  hi : Nat
  outAddr : Nat
  outStride : Nat
  sclAddr : Nat
  biasAddr : Nat
  irsAddr : Nat
  loAddr : Nat
  expAddr : Nat
  deriving DecidableEq, Repr

def fdesc (ws : List Word) : FDesc where
  rows := dget ws (0, 0, 7)
  cols := dget ws (0, 7, 7)
  conv := dget ws (0, 14, 2)
  tgt := dget ws (0, 16, 4)
  rnd := dget ws (0, 20, 3)
  bs := if dget ws (0, 23, 1) = 0 then 32 else 16
  scl := dget ws (0, 24, 2)
  bias := dget ws (0, 26, 2)
  act := dget ws (0, 28, 3)
  irsCol := dget ws (0, 31, 1) == 1
  slot := dget ws (0, 32, 5)
  sclVal := dget ws (1, 0, 32)
  lo := dget ws (1, 32, 32)
  hi := dget ws (2, 0, 32)
  outAddr := dget ws (2, 32, 23)
  outStride := dget ws (3, 0, 23)
  sclAddr := dget ws (3, 23, 23)
  biasAddr := dget ws (4, 0, 23)
  irsAddr := dget ws (4, 23, 23)
  loAddr := dget ws (5, 0, 23)
  expAddr := dget ws (5, 23, 23)

def fdescForm (ws : List Word) : Bool :=
  dtype ws == 3 && dzero ws [(0, 37, 19), (2, 55, 9), (3, 46, 18), (4, 46, 18), (5, 46, 18), (6, 0, 64), (7, 0, 64)]

/-- Outputs of a row that the class allows (Table 4.4). -/
def outputsOf (cls : Nat) : Nat :=
  match cls with
  | 2 => 32
  | 3 => 16
  | _ => 64

/-- Table 4.5 and its conditions, all but the class (R103). -/
def finishOk (ws : List Word) (dcls : Nat) : Bool :=
  let f := fdesc ws
  let lo := decodePosit 32 2 f.lo
  let hi := decodePosit 32 2 f.hi
  fdescForm ws && decide (1 ≤ f.rows) && decide (f.rows ≤ 64) && decide (1 ≤ f.cols) && decide (f.cols ≤ outputsOf dcls) &&
  decide (f.conv ≤ 2) && decide (f.scl ≤ 2) && decide (f.bias ≤ 2) && decide (f.act ≤ 4) && decide (f.rnd ≤ 4) &&
  (f.act != 2 || (!lo.isNan && !hi.isNan && !ltV hi lo)) &&
  (f.scl != 2 || planeOk f.sclAddr 0 1 (4 * f.cols) 4) &&
  (f.bias == 0 || planeOk f.biasAddr 0 1 (2 * f.bias * f.cols) (2 * f.bias)) &&
  (match Fmt.ofCode f.tgt with
    | none => false
    | some t =>
      planeOk f.outAddr f.outStride f.rows (rowBytes t.width f.cols) t.bytes &&
      (match f.conv with
        | 0 => validRnd t f.rnd && (!t.isBlock || (f.cols % f.bs == 0 && planeOk f.expAddr (f.cols / f.bs) f.rows (f.cols / f.bs) 1))
        | 1 => t.isInt && f.rnd == 0 && f.scl == 0 && f.bias == 0 && f.act == 0 &&
            planeOk f.irsAddr 0 1 (8 * (if f.irsCol then f.cols else 1)) 8
        | _ => t == .p16 && f.rnd == 0 && planeOk f.loAddr f.outStride f.rows (2 * f.cols) 2))

/-- The conversion kind fits the dispatched class (Table 4.5). -/
def convFits (conv dcls : Nat) : Bool :=
  match conv with
  | 0 => dcls != 0
  | 1 => dcls == 6
  | _ => dcls == 1

/-! Vector descriptors (Table 8.10). -/

structure VDesc where
  fn : Nat
  fa : Nat
  fb : Nat
  fc : Nat
  fd : Nat
  rnd : Nat
  init : Bool
  kind : Nat
  outk : Bool
  rows : Nat
  slotEn : Bool
  slot : Nat
  cols : Nat
  bcA : Nat
  bcB : Nat
  bcC : Nat
  scaled : Bool
  scl : Nat
  aAddr : Nat
  aStride : Nat
  bAddr : Nat
  bStride : Nat
  cAddr : Nat
  cStride : Nat
  dAddr : Nat
  dStride : Nat
  mAddr : Nat
  mStride : Nat
  bs : Nat
  pfirst : Nat
  stAddr : Nat
  stStride : Nat
  pcount : Nat
  deriving DecidableEq, Repr

def vdesc (ws : List Word) : VDesc where
  fn := dget ws (0, 0, 8)
  fa := dget ws (0, 8, 4)
  fb := dget ws (0, 12, 4)
  fc := dget ws (0, 16, 4)
  fd := dget ws (0, 20, 4)
  rnd := dget ws (0, 24, 3)
  init := dget ws (0, 27, 1) == 1
  kind := dget ws (0, 28, 3)
  outk := dget ws (0, 31, 1) == 1
  rows := dget ws (0, 32, 17)
  slotEn := dget ws (0, 49, 1) == 1
  slot := dget ws (0, 50, 5)
  cols := dget ws (1, 0, 25)
  bcA := dget ws (1, 25, 2)
  bcB := dget ws (1, 27, 2)
  bcC := dget ws (1, 29, 2)
  scaled := dget ws (1, 31, 1) == 1
  scl := dget ws (1, 32, 32)
  aAddr := dget ws (2, 0, 23)
  aStride := dget ws (2, 23, 23)
  bAddr := dget ws (3, 0, 23)
  bStride := dget ws (3, 23, 23)
  cAddr := dget ws (4, 0, 23)
  cStride := dget ws (4, 23, 23)
  dAddr := dget ws (5, 0, 23)
  dStride := dget ws (5, 23, 23)
  mAddr := dget ws (6, 0, 23)
  mStride := dget ws (6, 23, 23)
  bs := if dget ws (6, 46, 1) = 0 then 32 else 16
  pfirst := dget ws (6, 47, 12)
  stAddr := dget ws (7, 0, 23)
  stStride := dget ws (7, 23, 23)
  pcount := dget ws (7, 46, 13)

/-- Fields that an opcode does not use (R221), opcode by opcode (DEDUCED, log 24). Every opcode but PLOAD has a source a and its
broadcast bc_a (Table 5.1, R114, R190). -/
def vUnused (op : Nat) : List DField :=
  let fbc : List DField := [(0, 12, 8)]
  let red : List DField := [(0, 27, 5)]
  let slot : List DField := [(0, 49, 6)]
  let bc : List DField := [(1, 27, 4)]
  let scl : List DField := [(1, 31, 33)]
  let b : List DField := [(3, 0, 46)]
  let c : List DField := [(4, 0, 46)]
  let dd : List DField := [(5, 0, 46)]
  let m : List DField := [(6, 0, 46)]
  let bs : List DField := [(6, 46, 1)]
  let pat : List DField := [(6, 47, 12), (7, 46, 13)]
  let st : List DField := [(7, 0, 46)]
  match op with
  | 0x45 => red ++ scl ++ pat ++ st
  | 0x46 => fbc ++ bc ++ scl ++ b ++ c ++ m ++ bs ++ pat
  | 0x47 => fbc ++ [(0, 24, 3)] ++ red ++ slot ++ bc ++ scl ++ b ++ c ++ m ++ bs ++ pat ++ st
  | 0x48 => fbc ++ [(0, 20, 7), (0, 28, 4)] ++ slot ++ bc ++ scl ++ b ++ c ++ dd ++ bs ++ pat
  | 0x49 => fbc ++ red ++ slot ++ bc ++ scl ++ b ++ c ++ bs ++ pat
  | 0x4A => [(0, 12, 20)] ++ slot ++ bc ++ scl ++ b ++ c ++ m ++ bs ++ pat ++ st
  | 0x4B => [(0, 0, 55), (1, 0, 64), (2, 23, 23)] ++ b ++ c ++ dd ++ m ++ bs ++ st
  | _ => [(0, 0, 8)] ++ fbc ++ red ++ bc ++ b ++ [(4, 23, 23)] ++ m ++ pat ++ st

/-- Type, reserved bits, defined codes and unused fields (R217, R221). -/
def vdescForm (op : Nat) (ws : List Word) : Bool :=
  let v := vdesc ws
  dtype ws == 4 && dzero ws [(0, 55, 1), (2, 46, 18), (3, 46, 18), (4, 46, 18), (5, 46, 18), (6, 59, 5), (7, 59, 5)] &&
  dzero ws (vUnused op) && decide (v.fa ≤ 10) && decide (v.fb ≤ 10) && decide (v.fc ≤ 10) && decide (v.fd ≤ 10) &&
  decide (v.rnd ≤ 4) && decide (v.kind ≠ 7) && decide (v.bcA ≤ 2) && decide (v.bcB ≤ 2) && decide (v.bcC ≤ 2) &&
  (op == 0x4B || (decide (1 ≤ v.rows) && decide (v.rows ≤ 65536) && decide (1 ≤ v.cols) && decide (v.cols ≤ 16777216)))

/-- An operand plane: its own rows and elements, and for a block format its exponent plane behind it (R217, R221). -/
def operandOk (v : VDesc) (addr stride : Nat) (f : Option Fmt) (bc : Nat) (implicit : Bool) : Bool :=
  let w := match f with
    | some f => f.width
    | none => 32
  let blk := match f with
    | some f => f.isBlock
    | none => false
  let rows := if bc = 2 then 1 else v.rows
  let cols := if bc = 0 then v.cols else if blk then v.bs else 1
  planeOk addr stride rows (rowBytes w cols) (max 1 (w / 8)) &&
  (!blk || (cols % v.bs == 0 && (!implicit || planeOk (addr + rows * stride) (cols / v.bs) rows (cols / v.bs) 1)))

/-- Source formats of the arithmetic rows of Table 5.2. -/
def arithFmt : Fmt → Bool
  | .p8 | .p16 | .p32 | .fp32 | .fp64 | .bp4 | .bp8 | .i8 => true
  | _ => false

def divFmt : Fmt → Bool
  | .p16 | .p32 | .fp32 | .fp64 => true
  | _ => false

def redFmt : Fmt → Bool
  | .p8 | .p16 | .p32 | .fp32 | .fp64 => true
  | _ => false

/-- What an operation of Table 5.2 reads and writes: number of sources, whether they are 32-bit words, and its result:
0 elements of fd, 1 mask bits, 2 32-bit words. -/
def vopShape (fn : Nat) : Option (Nat × Bool × Nat) :=
  match fn with
  | 0x00 | 0x01 | 0x02 | 0x04 | 0x05 | 0x08 | 0x0D => some (2, false, 0)
  | 0x03 => some (3, false, 0)
  | 0x06 | 0x07 | 0x09 | 0x0E | 0x0F => some (1, false, 0)
  | 0x0A | 0x0B | 0x0C => some (2, false, 1)
  | 0x19 => some (1, true, 0)
  | 0x1A => some (1, false, 2)
  | _ => if 0x10 ≤ fn && fn ≤ 0x18 then some (2, true, 2) else none

/-- The source formats of Table 5.2 for a function. -/
def vopSource (fn : Nat) (f : Fmt) : Bool :=
  match fn with
  | 0x08 | 0x09 => divFmt f
  | 0x0D | 0x0E | 0x0F => true
  | 0x1A => redFmt f
  | _ => arithFmt f

/-- VOP (R113, Table 5.2). A FILL whose bc_a is not 2, the one value that Table 5.2 names, is an invalid descriptor (DESIGN CHOICE, log 64). -/
def vopOk (ws : List Word) : Bool :=
  let v := vdesc ws
  match vopShape v.fn, Fmt.ofCode v.fa, Fmt.ofCode v.fb, Fmt.ofCode v.fc, Fmt.ofCode v.fd with
  | some (n, words, res), some fa, some fb, some fc, some fd =>
    let src := fun (f : Fmt) => if words then none else some f
    vdescForm 0x45 ws &&
    (if words then v.fa == 0 && v.fb == 0 && v.fc == 0
     else vopSource v.fn fa && (decide (n < 2) || vopSource v.fn fb) && (decide (n < 3) || vopSource v.fn fc)) &&
    (v.fn != 0x0D || v.fa == v.fb) && (v.fn != 0x0F || v.bcA == 2) &&
    operandOk v v.aAddr v.aStride (src fa) v.bcA true &&
    (decide (n < 2) || operandOk v v.bAddr v.bStride (src fb) v.bcB true) &&
    (decide (n < 3) || operandOk v v.cAddr v.cStride (src fc) v.bcC true) &&
    (!(res == 1 || v.fn == 0x0D) || planeOk v.mAddr v.mStride v.rows (rowBytes 1 v.cols) 1) &&
    (match res with
      | 0 => validRnd fd v.rnd && operandOk v v.dAddr v.dStride (some fd) 0 true
      | 1 => true
      | _ => v.fd == 0 && operandOk v v.dAddr v.dStride none 0 true)
  | _, _, _, _, _ => false

/-- VRED (R113, R117, Table 5.4). With outk 1 nothing is written to d_addr, and fd and rnd may be any defined code: the rules
name no check of them there (DESIGN CHOICE, log 24). -/
def vredOk (ws : List Word) : Bool :=
  let v := vdesc ws
  match Fmt.ofCode v.fa, Fmt.ofCode v.fd with
  | some fa, some fd =>
    vdescForm 0x46 ws && decide (v.fn ≤ 1) && (if v.fn = 1 then v.fa == 0 && v.kind == 0 else redFmt fa) &&
    !(decide (4 ≤ v.kind) && v.outk) && operandOk v v.aAddr v.aStride (if v.fn = 1 then none else some fa) v.bcA true &&
    (decide (4 ≤ v.kind) || (!v.outk && v.init) || planeOk v.stAddr v.stStride v.rows 192 64) &&
    (v.outk || (divFmt fd && validRnd fd v.rnd &&
      planeOk v.dAddr v.dStride v.rows (fd.bytes * (if v.kind = 2 then 2 else 1)) fd.bytes))
  | _, _ => false

/-- SFN (R113, R121, Table 5.6). -/
def sfnOk (ws : List Word) : Bool :=
  let v := vdesc ws
  match Fmt.ofCode v.fa with
  | some fa =>
    vdescForm 0x47 ws && decide (v.fn ≤ 12) && v.fa == v.fd && (fa == .p16 || fa == .p32 || fa == .fp32) &&
    operandOk v v.aAddr v.aStride (some fa) v.bcA true && operandOk v v.dAddr v.dStride (some fa) 0 true
  | none => false

/-- Sources of a soft maximum (R128). -/
def smaxFmt (f : Fmt) : Bool := f == .p8 || f == .p16 || f == .p32 || f == .fp32

/-- What SMAX1 and SMAX2 share (R113, R128, R221). -/
def smaxOk (op : Nat) (ws : List Word) : Bool :=
  let v := vdesc ws
  match Fmt.ofCode v.fa with
  | some fa =>
    vdescForm op ws && v.fn == 0 && smaxFmt fa && operandOk v v.aAddr v.aStride (some fa) v.bcA true &&
    planeOk v.mAddr v.mStride v.rows (rowBytes 1 v.cols) 1 && planeOk v.stAddr v.stStride v.rows 8 8
  | none => false

/-- SMAX2 (R130). -/
def smax2Ok (ws : List Word) : Bool :=
  let v := vdesc ws
  match Fmt.ofCode v.fd with
  | some fd => smaxOk 0x49 ws && smaxFmt fd && validRnd fd v.rnd && operandOk v v.dAddr v.dStride (some fd) 0 true
  | none => false

/-- PLOOK (R113, R133, R221). -/
def plookOk (ws : List Word) : Bool :=
  let v := vdesc ws
  let size := v.fn % 4
  let mode := v.fn / 4
  let w := if v.fa = 0 || v.fa = 1 then 2 else 1
  vdescForm 0x4A ws && size != 3 && decide (mode ≤ 2) &&
  (if mode = 0 then v.fa == 0 || v.fa == 8 || v.fa == 10 else v.fa == 1 && (mode == 1 || size == 2)) &&
  planeOk v.aAddr v.aStride (if v.bcA = 2 then 1 else v.rows) (w * (if v.bcA = 0 then v.cols else 1)) w && planeOk v.dAddr v.dStride v.rows (2 * v.cols) 2

/-- PLOAD (R135, R221). -/
def ploadOk (ws : List Word) : Bool :=
  let v := vdesc ws
  vdescForm 0x4B ws && v.aAddr % 64 == 0 && decide (1 ≤ v.pcount) && decide (v.pcount ≤ 4096) && decide (v.pfirst + v.pcount ≤ 4096) &&
  decide (v.aAddr + 2 * v.pcount ≤ 0x800000)

/-- CVT (R190). -/
def cvtOk (ws : List Word) : Bool :=
  let v := vdesc ws
  match Fmt.ofCode v.fa, Fmt.ofCode v.fd with
  | some fa, some fd =>
    vdescForm 0x4D ws && validRnd fd v.rnd && !(decodePosit 32 2 v.scl).isNan &&
    operandOk v v.aAddr v.aStride (some fa) v.bcA true && operandOk v v.dAddr v.dStride (some fd) 0 false &&
    (!fd.isBlock || planeOk v.cAddr (v.cols / v.bs) v.rows (v.cols / v.bs) 1)
  | _, _ => false

end Sys2Proof.Machine
end

