-- ==== Sys2Proof/Machine/Views.lean ====
section
/-!
DEFINITION. What every register reads as: the stored word, with the fields that show other state put into it.
-/

namespace Sys2Proof.Machine

def StrandSt.code : StrandSt → Nat
  | .idle => 0
  | .running => 1
  | .trapped => 2
  | .halting => 3
  | .done => 4
  | .stopped => 5
  | .paused => 6

def LastSt.code : LastSt → Nat
  | .empty => 0
  | .loaded => 1
  | .running => 2
  | .paused => 3
  | .stopped => 4
  | .done => 5

/-- Table 12.15. -/
def DomSt.code : DomSt → Nat
  | .off => 0
  | .waking => 1
  | .on => 2
  | .draining => 3
  | .selfRefresh => 4
  | .out => 5

/-- Table 9.2. -/
def LinkSt.code : LinkSt → Nat
  | .off => 0
  | .training => 1
  | .up => 2
  | .down => 3
  | .miscabled => 4

/-- SEQ_STAT (Table 6.18). -/
def Strand.stat (s : Strand) : Word :=
  mkWord [(0, s.st.code), (4, s.stall.toNat), (8, s.trap.toNat), (24, if s.st == .paused then s.resume.code else 0)]

/-- Weight state (Table 3.12). -/
def Half.wstate (h : Half) : Nat := b2n h.active + 2 * b2n h.preloaded

/-- ARR_STAT (Table 3.11). -/
def Dev.arrStat (d : Dev) (c : CoreId) (a : ArrayId) : Word :=
  let u := d.half c a 0
  let l := d.half c a 1
  mkWord [(0, b2n (d.halfBusy c a 0)), (1, b2n (d.halfBusy c a 1)), (2, b2n u.drainEnd.isSome), (3, b2n l.drainEnd.isSome),
    (4, u.wstate), (6, l.wstate), (8, (d.queueOf c (.half a 0)).length), (16, (d.queueOf c (.half a 1)).length),
    (24, u.fmt.toNat), (28, l.fmt.toNat), (32, b2n u.int), (33, b2n l.int)]

/-- The operations in a tile's order (R95). -/
def Dev.tileOps (d : Dev) (c : CoreId) (a : ArrayId) (t : TileId) : List Op :=
  d.ops.filter fun o => o.ecore == c && o.earray == a && o.tiles.contains t

/-- The class that an operation gives its tiles (R94): of an MMA with init 1, and of a RELOAD. -/
def Op.newClass (o : Op) : Option (BitVec 3) :=
  if o.noCls then none
  else if o.opcode == 0x40 && bitOf (wordAt o.desc 0) 20 then (wPair o.w).map fun r => BitVec.ofNat 3 r.2.2.1.code
  else if o.opcode == 0x44 then some (BitVec.ofNat 3 (wCls o.w))
  else none

/-- The dispatched class of a tile (R94): the class it will hold once every operation in its order has completed. -/
def Dev.dcls (d : Dev) (c : CoreId) (a : ArrayId) (t : TileId) : BitVec 3 :=
  (d.tileOps c a t).foldl (fun k o => o.newClass.getD k) (d.tile c a t).cls

/-- Cycles from the last read of an entry to the last write of a FINISH and of a LIFT (R99, R107). -/
def Op.tail (o : Op) : Nat := if o.opcode == 0x42 then 11 else if o.opcode == 0x43 then 2 else 0

/-- A started operation stands between its first and its last access of its tiles (R95, R110). -/
def Op.accessing (o : Op) (now : Nat) : Bool :=
  o.phase == .started &&
  (if o.opcode == 0x40 then decide (0 < o.pos) && (decide (o.due = 0) || decide (now ≤ o.due)) else decide (now + o.tail ≤ o.due))

/-- BED_TSTAT (Table 4.10): special and its position are stored. -/
def Dev.tstat (d : Dev) (c : CoreId) (a : ArrayId) (t : TileId) : Word :=
  let x := d.tile c a t
  let os := d.tileOps c a t
  (d.reg (aTstat c a t) &&& 0x3F3F20#64) |||
  mkWord [(0, x.cls.toNat), (3, b2n (os.any fun o => o.accessing d.cycle)), (4, b2n x.poisoned), (24, min 64 os.length),
    (32, (d.dcls c a t).toNat)]

/-- A PLOOK dispatched before the PLOAD still reads its bank (R135): it waits, or reads in this cycle or later. -/
def Dev.bankRead (d : Dev) (o : Op) : Bool :=
  d.ops.any fun x => x.opcode == 0x4A && x.ecore == o.ecore && decide (x.id < o.id) && x.bank == o.bank &&
    !(x.phase == .started && decide (x.due < d.cycle + 4))

/-- PAT_STAT (Table 5.16). -/
def Dev.patStat (d : Dev) (c : CoreId) : Word :=
  let x := d.core c
  let port := d.ops.any fun o => o.core == c && o.opcode == 0x4B && (o.phase == .port || o.phase == .started)
  let wait := d.ops.any fun o => o.core == c && o.opcode == 0x4B && o.phase == .port && d.bankRead o
  let rd := fun b => d.ops.any fun o => o.core == c && o.opcode == 0x4A && o.phase == .started && o.bank == b
  mkWord [(0, b2n x.patDispatched), (1, b2n port), (2, b2n wait), (3, b2n (rd false)), (4, b2n (rd true)), (8, (d.queueOf c .pat).length)]

/-- HOD_SDSTAT (Table 8.17), less the fault bits of FH_STAT. -/
def Sd.stat (s : Sd) (core : Bool) : Word :=
  let st := if s.active.isNone then 0 else if s.shadow.isNone then 1 else 2
  let hod := match s.active with
    | some r => if core then r.hod.val else 0
    | none => 0
  let last := match s.active with
    | some r => (match r.origin with
      | some o => if core then o.last.val else 0
      | none => 0)
    | none => 0
  let u := max 1 s.slots
  mkWord [(0, st), (2, hod), (3, last), (8, s.filled), (11, s.fillNo % u), (13, s.relNo % u), (16, s.gen.toNat),
    (32, match s.active with
      | some r => r.done
      | none => 0)]

/-- HOD_STAT (Table 8.18). -/
def Dev.hodStat (d : Dev) (c : CoreId) (h : Fin 2) : Word :=
  let x := (d.core c).hods.get h
  let act := ((d.core c).sds.toList.filter fun s => match s.active with
    | some r => r.hod == h
    | none => false).length
  let q := d.queueOf c (.hod h)
  mkWord [(0, act), (4, x.xfers.length), (8, q.length), (13, b2n x.held.isSome),
    (14, match x.held with
      | some v => v.toNat
      | none => 0),
    (16, match x.held, q.head? with
      | some _, some o => (wSd o.w).val
      | _, _ => 0)]

/-- FH_STAT (Table 8.17). -/
def Dev.fhStat (d : Dev) (n : FhId) : Word :=
  let s := d.hub.fsds.get n
  (s.stat false) ||| mkWord [(15, b2n s.fault), (48, s.why)]

/-- Entries a spill queue can hold (R236). -/
def Dev.queCap (d : Dev) (q : QueueId) : Nat :=
  let lg := d.regFld (aQue q 0x1000) 1 5
  128 + (if lg = 0 then 0 else 2 ^ lg / 64)

/-- Entries held: in the head registers, in the ring, in the tail registers. -/
def Queue.count (q : Queue) : Nat := q.head.length + q.ringN + q.tail.length

/-- What a writer's 64 bytes hold (Table 8.15). -/
def QEntry.ofBytes (bs : List Byte) (seq : BitVec 32) : QEntry :=
  let w := BitVec.ofNat 64 (leNat (bs.take 8))
  ⟨bitOf w 1, bitOf w 2, false, fld w 5 6, BitVec.ofNat 16 (fld w 16 16), seq, padTo 56 (bs.drop 8), []⟩

/-- A word of the entry has a double-bit error (R240). -/
def QEntry.broken (e : QEntry) : Bool := e.err || e.ecc.any fun x => x.2

/-- An entry as a pop returns it. -/
def QEntry.toBytes (e : QEntry) : List Byte :=
  leBytes 8 (mkWord [(0, 1), (1, b2n e.sop), (2, b2n e.eop), (3, b2n e.broken), (5, e.bytes), (16, e.source.toNat),
    (32, e.seq.toNat)]).toNat ++ e.data

/-- An entry as it stands in the ring. -/
def QEntry.ofRing (bs : List Byte) : QEntry :=
  let e := QEntry.ofBytes bs (BitVec.ofNat 32 (leAt bs 4 4))
  { e with err := bitOf (BitVec.ofNat 64 (leNat (bs.take 8))) 3 }

/-- Entries of a queue's ring, and the address of place `i` of it (R236). -/
def Dev.ringSize (d : Dev) (q : QueueId) : Nat := d.queCap q - 128
def Dev.ringAddr (d : Dev) (q : QueueId) (i : Nat) : Nat := d.regFld (aQue q 0x1008) 0 39 + 64 * (i % max 1 (d.ringSize q))

/-- Every entry that the queue holds, oldest first. -/
def Dev.queEntries (d : Dev) (q : QueueId) : List QEntry :=
  let x := d.queue q
  x.head ++ ((List.range x.ringN).map fun i => QEntry.ofRing (d.rdMem (d.ringAddr q (x.ringAt + i)) 64)) ++ x.tail

/-- QUE_STAT (Table 8.22). -/
def Dev.queStat (d : Dev) (q : QueueId) : Word :=
  let x := d.queue q
  mkWord [(0, x.count), (23, b2n x.flushing), (24, b2n (decide (x.count = d.queCap q))), (25, b2n x.inPkt),
    (32, min 0xFFFF x.pkts)]

/-- KS_STAT (Table 9.21): late_count is stored. -/
def Dev.ksStat (d : Dev) (k : KeyId) : Word :=
  let x := d.key k
  (d.reg (aKs k 8) &&& 0xFFFF00000000#64) |||
  mkWord [(0, x.round.toNat), (16, min 255 x.arrived), (24, min 15 (portsOf x.children.toNat).length), (28, x.st)]

/-- COL_STAT (Table 9.22): flags and rescues are stored. -/
def Dev.colStat (d : Dev) (ch : ChanId) : Word :=
  let x := d.chan ch
  (d.reg (aCol ch 0x48) &&& 0xFFFF00001F00#64) ||| mkWord [(0, x.st), (4, x.err)]

/-- FAB_LNK_STAT (Table 9.19). -/
def Link.stat (l : Link) : Word := mkWord [(0, l.st.code), (8, l.peerPort.toNat), (16, l.peerDev.toNat), (32, l.shared)]

/-- The averaged offset (R273). -/
def FTime.average (f : FTime) : Int := if f.offs.isEmpty then 0 else (f.offs.foldl (· + ·) 0).tdiv f.offs.length

/-- FAB_FT_STAT (Table 9.20). -/
def FTime.stat (f : FTime) : Word :=
  let o := max (-32768) (min 32767 f.average)
  mkWord [(0, b2n f.lock), (1, b2n f.root), (2, b2n f.gptp), (3, b2n f.acq), (8, f.pport.toNat), (32, lowBits 16 o)]

/-- LST_STAT (Table 6.22). -/
def Last.stat (l : Last) : Word :=
  mkWord [(0, l.st.code), (8, match l.image with
    | some i => i.cores.length
    | none => 0)]

/-- MiB buffers of a gate port (R317, R318). -/
def gateBuf : Nat := 0x200000
def Gate.rxBytes (g : Gate) : Nat := g.rx.foldl (fun n f => n + f.2.2.2.length) 0
/-- Bytes of the transmit buffer in use: a frame counts with its headers, at most 66 bytes (14 or 18 Ethernet, 20 or 40 IP, 8 UDP). -/
def Gate.txBytes (g : Gate) : Nat := g.tx.foldl (fun n f => n + (if f.vlan % 4096 = 0 then 0 else 4) + (if f.dip % 2 ^ 96 = 0xFFFF * 2 ^ 80 then 42 else 62) + f.data.length) 0

/-- GATE_STAT (Table 11.11). -/
def Gate.stat (g : Gate) : Word :=
  mkWord [(0, b2n g.link), (1, g.xoffSent.toNat), (9, b2n (decide (g.rxBytes + 9216 > gateBuf))), (10, b2n (decide (g.txBytes + 9000 > gateBuf)))]

/-- GLB_ERR_CORE bit of a core (Table 15.8). -/
def Dev.coreErr (d : Dev) (c : CoreId) : Bool :=
  d.coreOn c &&
  ((allArrays.any fun a => d.reg (aArrErr c a) &&& 7 ≠ 0 || bitOf (d.reg (aBedErr c a)) 16) ||
   bitOf (d.reg (aHodErr c)) 0 || bitOf (d.reg (aStkErr c)) 16 || d.reg (aTovf c) ≠ 0)

/-- GLB_ERR_HUB (Table 15.9). -/
def Dev.hubErr (d : Dev) : Word :=
  let h := d.hubOn
  mkWord [(0, b2n (h && (List.finRange 8).any fun m => bitOf (d.reg (aHbmErr m)) 16)),
    (1, b2n (h && d.hub.fsds.toList.any fun s => s.fault)),
    (2, b2n (h && d.hub.chans.toList.any fun c => c.st == 3)),
    (3, b2n (h && (List.finRange 12).any fun l => bitOf (d.reg (aLnk l 0)) 0 && ((d.link l).st == .down || (d.link l).st == .miscabled))),
    (4, b2n (h && bitOf (d.reg (aRpl 0x10)) 2)),
    (5, b2n (h && d.lasts.toList.any fun l => l.st == .stopped)),
    (6, b2n (bitOf (d.reg (aPwr 0x88)) 23)),
    (7, b2n (h && d.regFld (aCkp 8) 0 3 == 6)),
    (8, b2n (bitOf (d.reg (aGlb 0x98)) 63))]

/-- A word of states, one field per element. -/
def packStates (width lo : Nat) (l : List DomSt) : List (Nat × Nat) := l.mapIdx fun i s => (lo + width * i, s.code)

/-- Lowest ring number presented (R382, Table 14.11): 256 when none is. -/
def Recorder.oldest (r : Recorder) : Nat :=
  if r.next ≤ 256 then 256
  else
    let lo := max 256 (r.next - 4096)
    ((r.kept ++ r.pend).filter fun p => decide (lo ≤ p.1)).foldl (fun m p => min m p.1) r.next |> fun m => if m = r.next then 256 else m

/-- Fields of core pages that show other state. -/
def Dev.coreView (d : Dev) (c : CoreId) (j o : Nat) (w : Word) : Word :=
  let k : StrandId := finOf 1 (o / 8 % 2)
  match j with
  | 0 =>
    (match o with
    | 0x08 => (d.strand c 0).stat
    | 0x10 => (d.strand c 1).stat
    | 0x18 => (d.strand c 0).pc.setWidth 64
    | 0x20 => (d.strand c 1).pc.setWidth 64
    | _ => w)
  | 1 =>
    if o = 0x10 || o = 0x18 then (d.strand c k).draw
    else if 0x200 ≤ o && o < 0x300 then ((d.core c).maxabs.get (finOf 31 ((o - 0x200) / 8))).word
    else w
  | 2 => if o < 0x100 && o % 0x40 = 8 then d.arrStat c (finOf 3 (o / 0x40)) else w
  | 3 => if o < 0x400 && 0x40 ≤ o % 0x100 && o % 0x100 < 0x60 then d.tstat c (finOf 3 (o / 0x100)) (finOf 3 (o % 0x100 / 8)) else w
  | 4 =>
    if o = 0x108 then d.patStat c
    else if 0x2000 ≤ o && o < 0x6000 then
      let b := if o < 0x4000 then (d.core c).bank0 else (d.core c).bank1
      let i := (o % 0x2000) / 2
      mkWord ((List.range 4).map fun n => (16 * n, (sget (fun _ => (0 : BitVec 16)) b (i + n)).toNat))
    else w
  | 5 =>
    if o = 0 then d.hodStat c 0
    else if o = 8 then d.hodStat c 1
    else if 0x100 ≤ o && o < 0x200 then ((d.core c).sds.get (finOf 31 ((o - 0x100) / 8))).stat true
    else w
  | _ => w

/-- Fields of hub and always-on pages that show other state. -/
def Dev.pageView (d : Dev) (g o : Nat) (w : Word) : Word :=
  match g with
  | 0x0000 =>
    if o = 0x80 || o = 0x88 then
      let h := (o - 0x80) / 8
      mkWord ((List.range 64).map fun i => (i, b2n (d.coreErr (finOf 127 (64 * h + i)))))
    else if o = 0x90 then d.hubErr
    else if o = 0 then (w &&& 0xFFFFFFFF#64) ||| mkWord [(32, d.aoc.trust.fwVersion.toNat)]
    else if o = 8 then Config.serial
    else w
  | 0x0002 =>
    let x := d.aoc.doms
    (match o with
    | 0x10 => mkWord ([(0, x.hub.code), (3, (x.dies.get 0).code), (6, (x.dies.get 1).code), (9, x.ctl1.code)] ++ packStates 3 12 x.stks.toList)
    | 0x18 => mkWord (packStates 3 0 x.links.toList ++ packStates 3 36 x.gates.toList)
    | 0x88 => (w &&& 0x80FFFF#64) ||| mkWord [(16, d.aoc.gov.level), (20, b2n d.aoc.gov.overP), (21, b2n d.aoc.gov.hot), (22, b2n d.aoc.gov.lowV)]
    | 0xB8 => if d.hubOn then w else 0
    | 0xB0 => mkWord [(0, b2n (d.aoc.syncLow.isNone && d.aoc.syncIn.isNone)),
        (1, b2n (d.aoc.plumbIn && !(d.aoc.plumbLow.any fun t => decide (t.1 ≤ d.cycle)))), (2, b2n (d.aoc.presentN && !d.aoc.presentDriven)), (3, b2n d.aoc.smbAddr.isSome)]
    | _ => if 0x40 ≤ o && o < 0x80 then mkWord (packStates 4 0 ((x.cores.toList.drop (16 * ((o - 0x40) / 8))).take 16)) else w)
  | 0x0003 =>
    let t := d.aoc.trust
    (match o with
    | 0 => mkWord [(0, b2n t.copyB), (1, b2n t.trial), (2, t.ident), (4, b2n t.ownerOk), (5, b2n t.svcOk), (6, b2n t.floorOk),
        (7, b2n (sget (fun _ => (0xFF : Byte)) d.otp 0 == 0)), (16, t.svn)]
    | 8 => w ||| mkWord [(32, t.signed)]
    | 0x10 => (w &&& 0xFF00#64) ||| mkWord [(0, t.resA), (4, t.resB)]
    | 0x18 => mkWord [(0, t.count), (32, b2n (decide (t.count > 4096))), (48, min 0xFFFF t.quotes)]
    | _ => w)
  | 0x0004 =>
    let r := d.aoc.rcd
    (match o with
    | 0 => mkWord [(0, r.next), (32, r.oldest)]
    | 8 => (w &&& 0xFFFFFFFF0000#64) ||| mkWord [(0, r.pend.length)]
    | 0x18 => mkWord [(0, r.bufStat), (2, b2n r.bufPend)]
    | 0x20 => mkWord [(0, r.secs), (32, r.cycles)]
    | _ => if 0x40 ≤ o && o < 0x80 then BitVec.ofNat 64 (leAt r.buf (o - 0x40) 8) else w)
  | 0x0006 =>
    if o < 0x800 && o % 0x400 = 0 then
      let p := d.ctl (finOf 1 (o / 0x400))
      mkWord [(0, b2n p.link), (1, b2n p.slow), (2, b2n p.aslock)]
    else w
  | 0x0100 => if o < 0x200 && o % 0x40 = 8 then (d.last (finOf 7 (o / 0x40))).stat else w
  | 0x0102 => if o < 0x800 && o % 0x80 = 0x48 then d.fhStat (finOf 15 (o / 0x80)) else if o < 0x800 && o % 0x80 = 0x40 then 0 else w
  | 0x0103 =>
    (match o with
    | 8 => (w &&& 2) ||| mkWord [(2, d.hub.crs.state), (5, b2n d.hub.crs.corner), (6, d.hub.crs.step)]
    | 0x18 => d.hub.ftime.ft
    | 0x20 => d.hub.ftime.stat
    | _ => if 0x100 ≤ o && o < 0x280 && o % 0x20 = 8 then (d.link (finOf 11 ((o - 0x100) / 0x20))).stat else w)
  | 0x0106 => if o < 0x400 && o % 0x10 = 8 then d.ksStat (finOf 63 (o / 0x10)) else w
  | 0x0107 => if o < 0x200 && o % 0x80 = 0x48 then d.colStat (finOf 3 (o / 0x80)) else if o < 0x200 && o % 0x80 = 0x40 then 0 else w
  | 0x010A => if 0x1000 ≤ o && o < 0x1200 && o % 0x100 = 0 then (d.gate (finOf 1 ((o - 0x1000) / 0x100))).stat else w
  | _ => if 0x120 ≤ g && g < 0x140 && o = 0x1020 then d.queStat (finOf 31 (g - 0x120)) else w

/-- A counter of delays that the model leaves out, on a CNT page (18 + 4a, 55, 56) or an HCNT page (39 + 3s; R378). -/
def delayCount (hubPage : Bool) (i : Nat) : Bool :=
  if hubPage then decide (39 ≤ i) && decide (i ≤ 60) && i % 3 == 0 else i == 18 || i == 22 || i == 26 || i == 30 || i == 55 || i == 56

/-- A word of a page of counters, or of its copy in a snapshot latched at fabric time `t`: what the delays add to it is free (DESIGN CHOICE,
log 15). -/
def Dev.counted (d : Dev) (g o t : Nat) (w : Word) : Word :=
  let core := decide (0x1000 ≤ g) && decide (g < 0x1800)
  let live := fun (i : Nat) (hub : Bool) => if delayCount hub i then w + Config.delays g i d.cycle else w
  let copy := fun (i : Nat) (hub : Bool) => if delayCount hub i then w + Config.delays g i t else w
  if core && g % 16 == 7 then live (o / 8) false
  else if core && g % 16 == 6 && decide (0x800 ≤ o) then copy ((o - 0x800) / 8) false
  else if g == 0x010E then live (o / 8) true
  else if g == 0x010D && decide (0x1000 ≤ o) then copy ((o - 0x1000) / 8) true
  else w

/-- What a 64-bit read of register space returns, without side effects (R10, R390). -/
def Dev.view (d : Dev) (a : Nat) : Word :=
  let g := (a - regBase) / 0x10000
  let o := a % 0x10000
  let w := d.counted g o (d.reg (a - o + 8)).toNat (d.reg a)
  if 0x1000 ≤ g && g < 0x1800 then d.coreView (finOf 127 ((g - 0x1000) / 16)) (g % 16) o w else d.pageView g o w

/-- The device as register space shows it in this cycle: as it stood when the cycle began (R392). -/
def Dev.atStart (d : Dev) : Dev :=
  let s := d.start
  { d with cycle := s.cycle, cores := s.cores, ops := s.ops, slots := s.slots, lasts := s.lasts, otp := s.otp, regs := s.regs, hub := s.hub, aoc := s.aoc }

/-- What register space shows from now on. -/
def Dev.showStart (d : Dev) : Dev :=
  { d with start := ⟨d.cycle, d.cores, d.ops, d.slots, d.lasts, d.otp, d.regs, d.hub, d.aoc⟩ }

end Sys2Proof.Machine
end

