-- ==== Sys2Proof/Machine/EngineDispatch.lean ====
section
/-!
DEFINITION. Dispatch of the engine instructions (R184 to R188, Table 7.8) and of the stream instructions (R191).
-/

namespace Sys2Proof.Machine

/-- What an engine instruction takes along at dispatch (R153, R185). -/
structure Plan where
  desc : List Word
  ta : List Word
  tb : List Word
  stock : LAddr
  draws : Bool
  tiles : List TileId
  deriving DecidableEq, Repr

def Plan.nil : Plan := ⟨[], [], [], 0, false, []⟩

/-- R172: the first failing check; each check with its cause, in the order of R172. -/
def firstFault : List (Bool × Nat) → Option Nat
  | [] => none
  | x :: t => if x.1 then firstFault t else some x.2

/-- R165: the open steal group after an engine instruction. -/
def Group.next (g : Group) (op : Nat) (w : BitVec 56) (m : MDesc) : Group :=
  let same := g.arr == (wArray w).val && g.tile == (wTile w).val
  if op = 0x40 then
    let fits := m.wsrc == 0 && wHalf w == 3 && !wPen w && (if g.stage = 0 then m.init else g.stage == 1 && same)
    if g.stage = 0 then { g with movable := g.movable && fits, stage := 1, arr := (wArray w).val, tile := (wTile w).val }
    else { g with movable := g.movable && fits }
  else if op = 0x42 then { g with movable := g.movable && g.stage == 1 && same && wPen w, stage := 2 }
  else { g with movable := false }

/-- The instruction enters its queues (R155, R185): draw number, tile places, group, pattern bank. -/
def Dev.enter (d : Dev) (o : Origin) (p : Plan) : Dev :=
  let op := o.insn.toNat / 2 ^ 56
  let w : BitVec 56 := o.insn.setWidth 56
  let x := d.core o.core
  let s := d.strand o.core o.strand
  let g := s.group.map fun g => g.next op w (mdesc p.desc)
  let act := x.patDispatched
  let new : Op := {
    id := d.nextOp, core := o.core, strand := o.strand, last := o.last, pc := o.pc, opcode := BitVec.ofNat 8 op, w := w
    ecore := o.core, earray := wArray w, tiles := p.tiles, desc := p.desc, ta := p.ta, tb := p.tb, stock := p.stock
    draw := s.draw, bank := if op = 0x4B then !act else act
    phase := .queued, began := d.cycle, due := 0, pos := 0, base := 0, stop := none, loaded := false, loadAt := 0, rows := none
    tok := false, feed := none, slot0 := none, closed := false, noCls := false, flags := 0
    group := if 0x60 ≤ op then none else g.map fun g => (g.num, false), part := [] }
  let d := d.updStrand o.core o.strand fun s => { s with
    draw := if p.draws then s.draw + 1 else s.draw, group := if 0x60 ≤ op then s.group else g }
  let d := if p.draws then { d with now := { d.now with incs := d.now.incs ++ [(aFmt o.core (0x10 + 8 * o.strand.val), 0, 1)] } } else d
  let d := if op = 0x4C then d.updCore o.core fun x => { x with patDispatched := !x.patDispatched } else d
  -- a PLOAD remembers the first PSWAP dispatched behind it (R136)
  let ops := if op = 0x4C then d.ops.map fun x =>
      if x.opcode == 0x4B && x.ecore == o.core && x.loadAt == 0 then { x with loadAt := d.nextOp + 1 } else x
    else d.ops
  { d with ops := ops ++ [new], nextOp := d.nextOp + 1 }

/-- Dispatch of an engine instruction: its checks in R172's order, then its entry. -/
def engineOp (op : Nat) (checks : Dev → Origin → List (Bool × Nat)) (plan : Dev → Origin → Plan)
    (c : CoreId) (k : StrandId) (w : BitVec 56) (s : State) : Host.Outcome State Fault Refusal :=
  onDev s fun d => d.issue c k (mkInsn op w) fun d o =>
    match firstFault (checks d o) with
    | some cause => .fault cause 0
    | none => .ok (d.enter o (plan d o))

/-- The descriptor a format-E word names. -/
def Dev.named (d : Dev) (o : Origin) : List Word := (d.core o.core).desc (wDesc (o.insn.setWidth 56))

/-- The halves that a mask names are owned by the last (Table 3.7). -/
def Dev.ownsHalves (d : Dev) (o : Origin) (a : ArrayId) (m : Nat) : Bool :=
  (!m.testBit 0 || d.halfOwner o.core a 0 == some o.last) && (!m.testBit 1 || d.halfOwner o.core a 1 == some o.last)

def Dev.ownsTile (d : Dev) (o : Origin) (a : ArrayId) (t : TileId) : Bool := d.tileOwner o.core a t == some o.last

/-- Checks of Table 7.8 that MMA and MMALW share, and the further conditions of R219. -/
def Dev.mmaShared (d : Dev) (o : Origin) : Bool :=
  let w : BitVec 56 := o.insn.setWidth 56
  let ws := d.named o
  let m := mdesc ws
  let ta := (d.core o.core).desc m.ta
  let tb := (d.core o.core).desc m.tb
  decide (wHalf w ≠ 0) && mdescForm ws && tdescForm ta && tdescForm tb &&
  match wPair w with
  | none => false
  | some (fa, fb, cls, _) =>
    let wide := if cls = .q512 || cls = .q1024 then 32 else 64
    decide (1 ≤ m.m) && decide (m.m ≤ 64) && decide (1 ≤ m.n) && decide (m.n ≤ wide) && decide (1 ≤ m.k) &&
    tensorOk (tdesc ta) fa m.m m.k true (wMode w == .integer) && tensorOk (tdesc tb) fb m.k m.n false (wMode w == .integer)

/-- The tiles of an MMA: two for P64 (R68). -/
def mmaTiles (w : BitVec 56) : List TileId :=
  match wPair w with
  | some (_, _, .q1024, _) => [wTile w, wTile w + 1]
  | _ => [wTile w]

/-- The checks of an MMA that concern itself alone (Table 7.8). -/
def Dev.mmaOwn (d : Dev) (o : Origin) : Bool :=
  let w : BitVec 56 := o.insn.setWidth 56
  let m := mdesc (d.named o)
  match wPair w with
  | none => false
  | some (fa, fb, cls, _) =>
    (if wMode w = .ieee then decide (m.rnd ≤ 3) else m.rnd == 0) &&
    (m.wsrc != 2 || decide (passesOf m.k (maskRows (wHalf w) * kPerRow fa fb) = 1)) &&
    (cls != .q1024 || (wTile w).val % 2 == 0) && decide (cls.columns * m.n ≤ d.width o.core (wArray w))

def Dev.mmaChecks (d : Dev) (o : Origin) : List (Bool × Nat) :=
  let w : BitVec 56 := o.insn.setWidth 56
  let a := wArray w
  let m := mdesc (d.named o)
  let ts := mmaTiles w
  let cls := match wPair w with
    | some (_, _, c, _) => c.code
    | none => 0
  [(d.mmaShared o && d.mmaOwn o, 5), (d.ownsHalves o a (wHalf w), 6), (ts.all (fun t => d.ownsTile o a t), 9),
   (m.init || ts.all fun t => (d.dcls o.core a t).toNat == cls, 10)]

/-- The copies of an MMA's descriptors. -/
def Dev.mmaPlan (d : Dev) (o : Origin) : Plan :=
  let w : BitVec 56 := o.insn.setWidth 56
  let ws := d.named o
  let m := mdesc ws
  { Plan.nil with desc := ws, ta := (d.core o.core).desc m.ta, tb := (d.core o.core).desc m.tb, tiles := mmaTiles w }

/-- MMA (R185, Table 7.8). -/
def execMma (c : CoreId) (k : StrandId) (w : BitVec 56) (s : State) : Host.Outcome State Fault Refusal :=
  engineOp 0x40 Dev.mmaChecks Dev.mmaPlan c k w s

/-- MMALW (R74, R187, Table 7.8). It names no tile. -/
def execMmalw (c : CoreId) (k : StrandId) (w : BitVec 56) (s : State) : Host.Outcome State Fault Refusal :=
  engineOp 0x41 (fun d o => [(d.mmaShared o, 5), (d.ownsHalves o (wArray w) (wHalf w), 6)])
    (fun d o => { d.mmaPlan o with tiles := [] }) c k w s

/-- FINISH (R103, R186, Table 7.8). -/
def execFinish (c : CoreId) (k : StrandId) (w : BitVec 56) (s : State) : Host.Outcome State Fault Refusal :=
  engineOp 0x42
    (fun d o =>
      let ws := d.named o
      let dcls := (d.dcls c (wArray w) (wTile w)).toNat
      [(finishOk ws dcls, 5), (d.ownsTile o (wArray w) (wTile w), 9), (convFits (fdesc ws).conv dcls, 10)])
    (fun d o =>
      let ws := d.named o
      { Plan.nil with desc := ws, tiles := [wTile w], draws := (fdesc ws).conv == 0 && (fdesc ws).rnd == 4 }) c k w s

/-- The stock address of LIFT and RELOAD (R97, R188). -/
def Dev.stockOk (d : Dev) (o : Origin) : Bool :=
  let v := ((d.strand o.core o.strand).rdS (wEra (o.insn.setWidth 56))).toNat
  v % 1024 == 0 && decide (sliceBase o.core ≤ v) && decide (v + 0x20000 ≤ sliceBase o.core + 0x800000)

def Dev.stockPlan (d : Dev) (o : Origin) : Plan :=
  let w : BitVec 56 := o.insn.setWidth 56
  { Plan.nil with stock := ((d.strand o.core o.strand).rdS (wEra w)).setWidth 48, tiles := [wTile w] }

/-- LIFT (R97, R100, R188). -/
def execLift (c : CoreId) (k : StrandId) (w : BitVec 56) (s : State) : Host.Outcome State Fault Refusal :=
  engineOp 0x43 (fun d o => [(d.stockOk o, 5), (d.ownsTile o (wArray w) (wTile w), 9)]) Dev.stockPlan c k w s

/-- RELOAD (R98, R188). -/
def execReload (c : CoreId) (k : StrandId) (w : BitVec 56) (s : State) : Host.Outcome State Fault Refusal :=
  engineOp 0x44
    (fun d o => [(d.stockOk o && decide (wCls w ≠ 0) && decide (wCls w ≠ 7), 5), (d.ownsTile o (wArray w) (wTile w), 9)])
    Dev.stockPlan c k w s

/-- VOP (R113, R115, R186). A comparison or an operation on 32-bit integers rounds nothing and takes no draw number, whatever its rounding code
(DESIGN CHOICE, log 64: R186 does not say). -/
def execVop (c : CoreId) (k : StrandId) (w : BitVec 56) (s : State) : Host.Outcome State Fault Refusal :=
  engineOp 0x45 (fun d o => [(vopOk (d.named o), 5)])
    (fun d o =>
      let v := vdesc (d.named o)
      let rounds := match vopShape v.fn with
        | some (_, words, res) => res == 0 || (res == 2 && !words)
        | none => false
      { Plan.nil with desc := d.named o, draws := rounds && v.rnd == 4 }) c k w s

/-- VRED (R117, R186). -/
def execVred (c : CoreId) (k : StrandId) (w : BitVec 56) (s : State) : Host.Outcome State Fault Refusal :=
  engineOp 0x46 (fun d o => [(vredOk (d.named o), 5)])
    (fun d o => { Plan.nil with desc := d.named o, draws := !(vdesc (d.named o)).outk && (vdesc (d.named o)).rnd == 4 }) c k w s

/-- SFN (R121). -/
def execSfn (c : CoreId) (k : StrandId) (w : BitVec 56) (s : State) : Host.Outcome State Fault Refusal :=
  engineOp 0x47 (fun d o => [(sfnOk (d.named o), 5)]) (fun d o => { Plan.nil with desc := d.named o }) c k w s

/-- SMAX1 (R128, R129). -/
def execSmax1 (c : CoreId) (k : StrandId) (w : BitVec 56) (s : State) : Host.Outcome State Fault Refusal :=
  engineOp 0x48 (fun d o => [(smaxOk 0x48 (d.named o), 5)]) (fun d o => { Plan.nil with desc := d.named o }) c k w s

/-- SMAX2 (R128, R130, R186). -/
def execSmax2 (c : CoreId) (k : StrandId) (w : BitVec 56) (s : State) : Host.Outcome State Fault Refusal :=
  engineOp 0x49 (fun d o => [(smax2Ok (d.named o), 5)])
    (fun d o => { Plan.nil with desc := d.named o, draws := (vdesc (d.named o)).rnd == 4 }) c k w s

/-- The banks belong to the last (R132). -/
def Dev.ownsBanks (d : Dev) (o : Origin) : Bool := d.patOwner o.core == some o.last

/-- PLOOK (R132 to R134). -/
def execPlook (c : CoreId) (k : StrandId) (w : BitVec 56) (s : State) : Host.Outcome State Fault Refusal :=
  engineOp 0x4A (fun d o => [(plookOk (d.named o), 5), (d.ownsBanks o, 13)]) (fun d o => { Plan.nil with desc := d.named o }) c k w s

/-- PLOAD (R132, R135). -/
def execPload (c : CoreId) (k : StrandId) (w : BitVec 56) (s : State) : Host.Outcome State Fault Refusal :=
  engineOp 0x4B (fun d o => [(ploadOk (d.named o), 5), (d.ownsBanks o, 13)]) (fun d o => { Plan.nil with desc := d.named o }) c k w s

/-- PSWAP (R132, R136): later dispatches see the other bank active. -/
def execPswap (c : CoreId) (k : StrandId) (w : BitVec 56) (s : State) : Host.Outcome State Fault Refusal :=
  engineOp 0x4C (fun d o => [(d.ownsBanks o, 13)]) (fun _ _ => Plan.nil) c k w s

/-- CVT (R186, R190). -/
def execCvt (c : CoreId) (k : StrandId) (w : BitVec 56) (s : State) : Host.Outcome State Fault Refusal :=
  engineOp 0x4D (fun d o => [(cvtOk (d.named o), 5)])
    (fun d o => { Plan.nil with desc := d.named o, draws := (vdesc (d.named o)).rnd == 4 }) c k w s

/-- ARM (R191): it enters the hod's queue. -/
def execArm (c : CoreId) (k : StrandId) (w : BitVec 56) (s : State) : Host.Outcome State Fault Refusal :=
  engineOp 0x60 (fun _ _ => []) (fun _ _ => Plan.nil) c k w s

/-- REARM (R191). -/
def execRearm (c : CoreId) (k : StrandId) (w : BitVec 56) (s : State) : Host.Outcome State Fault Refusal :=
  engineOp 0x61 (fun _ _ => []) (fun _ _ => Plan.nil) c k w s

/-- SWAP (R191). -/
def execSwap (c : CoreId) (k : StrandId) (w : BitVec 56) (s : State) : Host.Outcome State Fault Refusal :=
  engineOp 0x62 (fun _ _ => []) (fun _ _ => Plan.nil) c k w s

/-- A word whose opcode is reserved reaches dispatch (R157, R171). -/
def execReservedOpcodeDispatch (c : CoreId) (k : StrandId) (w : Word) (s : State) : Host.Outcome State Fault Refusal :=
  if formOf (w.toNat / 2 ^ 56) = .reserved then onDev s fun d => d.issue c k w fun d _ => .ok d else onDev s fun d => d

end Sys2Proof.Machine
end

