-- ==== Sys2Proof/Machine/Blocks.lean ====
section
/-!
DEFINITION. What a core keeps behind its pages and windows: bed entries (R89 to R91, R102), descriptors and tallies (R154),
pattern banks (R137), and the writes that its registers guard (R88, R111, R140, Table 6.17).
-/

namespace Sys2Proof.Machine

/-! Beds. -/

def bedAddr (c : CoreId) (a : ArrayId) (t : TileId) (i j : Nat) : Nat :=
  0x009000000000 + (4 * c.val + a.val) * 0x80000 + t.val * 0x20000 + i * 0x800 + j * 0x20

/-- Entry (i, j) of a tile. -/
def Tile.entry (x : Tile) (i j : Nat) : BitVec 256 := sget (fun _ => 0) x.entries (64 * i + j)

/-- Bytes [lo, hi) of an entry are written with fresh ECC: the marks of the words they cover go. -/
def Dev.bedFresh (d : Dev) (c : CoreId) (a : ArrayId) (t : TileId) (i j lo hi : Nat) : Dev :=
  if d.ecc.isEmpty then d
  else
    let base := bedAddr c a t i j
    { d with ecc := d.ecc.filter fun e => !(decide (base + lo ≤ e.1) && decide (e.1 < base + hi)) }

/-- An entry takes a value. What it held before its first change of the cycle is noted (R91). -/
def Dev.setEntry (d : Dev) (c : CoreId) (a : ArrayId) (t : TileId) (i j : Nat) (v : BitVec 256) : Dev :=
  let k := bedAddr c a t i j
  let d := if d.now.bedOld.any fun x => x.1 == k then d
    else { d with now := { d.now with bedOld := (k, (d.tile c a t).entry i j) :: d.now.bedOld } }
  d.updTile c a t fun x => { x with entries := sset (fun _ => 0) x.entries (64 * i + j) v }

/-- What an entry held at the start of the cycle (R91). -/
def Dev.entryBefore (d : Dev) (c : CoreId) (a : ArrayId) (t : TileId) (i j : Nat) : BitVec 256 :=
  match d.now.bedOld.find? fun x => x.1 == bedAddr c a t i j with
  | some x => x.2
  | none => (d.tile c a t).entry i j

/-- A foot, a reload or a restore writes an entry whole: it wins over a window write of the same cycle (R91). -/
def Dev.footEntry (d : Dev) (c : CoreId) (a : ArrayId) (t : TileId) (i j : Nat) (v : BitVec 256) : Dev :=
  let d := (d.setEntry c a t i j v).bedFresh c a t i j 0 32
  { d with now := { d.now with beds := bedAddr c a t i j :: d.now.beds } }

/-- A foot, a reload or a restore has written the entry in this cycle. -/
def Dev.footWrote (d : Dev) (c : CoreId) (a : ArrayId) (t : TileId) (i j : Nat) : Bool := d.now.beds.contains (bedAddr c a t i j)

/-- The ECC errors of bytes [lo, hi) of an entry are met (R102): corrections counted, the first double-bit error recorded.
Answers whether one is there. -/
def Dev.bedEccIn (d : Dev) (c : CoreId) (a : ArrayId) (t : TileId) (i j lo hi : Nat) : Dev × Bool :=
  if d.ecc.isEmpty then (d, false)
  else
    let base := bedAddr c a t i j
    (d.ecc.filter fun e => decide (base + lo ≤ e.1) && decide (e.1 < base + hi)).foldl (fun (s : Dev × Bool) e =>
      if e.2 then
        ((s.1.hwSet (aBedErr c a) 0x10000 0xFFFC0000 (mkWord [(18, t.val), (20, i), (26, j)])).event 0x4001 2
          (leBytes 1 3 ++ leBytes 1 (4 * c.val + a.val) ++ leBytes 8 e.1), true)
      else (s.1.hwInc (aBedErr c a) 0 16 1, s.2)) (d, false)

/-- The ECC errors of an entry are met. -/
def Dev.bedEcc (d : Dev) (c : CoreId) (a : ArrayId) (t : TileId) (i j : Nat) : Dev × Bool := d.bedEccIn c a t i j 0 32

/-- The entries that `n` bytes at offset `o` of a tile touch: row, column, first byte and byte after the last. -/
def bedCells (o n : Nat) : List (Nat × Nat × Nat × Nat) :=
  (List.range (ceilDiv (o % 32 + n) 32)).map fun x =>
    let e := o / 32 + x
    (e / 64, e % 64, if x = 0 then o % 32 else 0, min 32 (o % 32 + n - 32 * x))

/-- A bed window read of `n` bytes at offset `o` of a tile (R91, R102): the content before what a foot writes at the end of
this cycle. -/
def Dev.bedRead (d : Dev) (c : CoreId) (a : ArrayId) (t : TileId) (o n : Nat) : Dev × List Byte :=
  let bytes := (bedCells o n).flatMap fun x =>
    let v := if d.footWrote c a t x.1 x.2.1 then d.entryBefore c a t x.1 x.2.1 else (d.tile c a t).entry x.1 x.2.1
    ((leBytes 32 v.toNat).drop x.2.2.1).take (x.2.2.2 - x.2.2.1)
  ((bedCells o n).foldl (fun (d : Dev) x => (d.bedEccIn c a t x.1 x.2.1 x.2.2.1 x.2.2.2).1) d, bytes)

/-- A bed window write (R91): it is lost where a foot, a reload or a restore writes the entry in this cycle, and it leaves the
tile record alone. -/
def Dev.bedWrite (d : Dev) (c : CoreId) (a : ArrayId) (t : TileId) (o : Nat) (bs : List Byte) : Dev :=
  ((bedCells o bs.length).foldl (fun (s : Dev × List Byte) x =>
    let n := x.2.2.2 - x.2.2.1
    let d := s.1
    (if d.footWrote c a t x.1 x.2.1 then d
     else
      let old := leBytes 32 ((d.tile c a t).entry x.1 x.2.1).toNat
      let new := old.take x.2.2.1 ++ s.2.take n ++ old.drop x.2.2.2
      (d.setEntry c a t x.1 x.2.1 (BitVec.ofNat 256 (leNat new))).bedFresh c a t x.1 x.2.1 x.2.2.1 x.2.2.2,
     s.2.drop n)) (d, bs)).1

/-! The descriptor and tally region (R154, Tables 6.5 to 6.7). -/

/-- The region takes an access of `n` bytes at offset `o`. The reserved offsets of Table 6.5 take 8 bytes alone, as the tallies
do; an access of another width there is refused (DESIGN CHOICE, log 47: R154 names no width for them). -/
def descAllowed (o n : Nat) : Bool :=
  if o < 0x10800 then (n == 8 || n == 16 || n == 32 || n == 64) && o % n == 0 else n == 8 && o % 8 == 0

def Dev.descWord8 (d : Dev) (c : CoreId) (o : Nat) : Word :=
  let x := d.core c
  if o < 0x10000 then sget (fun _ => 0) x.descs (o / 8)
  else if o < 0x10800 then sget (fun _ => 0) x.sdescs ((o - 0x10000) / 8)
  else if 0x18000 ≤ o && o < 0x18200 then BitVec.ofNat 64 (x.tallies.get (finOf 63 ((o - 0x18000) / 8))).start
  else 0

/-- A write of TAL_VAL (R151 step 4). -/
def Dev.wrTalVal (d : Dev) (c : CoreId) (t : TallyId) (v : Word) : Dev :=
  d.updTally c t fun x => { x with val := some (fld v 0 16) }

/-- A write of TAL_ADD (R151 step 3). -/
def Dev.wrTalAdd (d : Dev) (c : CoreId) (t : TallyId) (v : Word) : Dev := d.tallyInc c t (fld v 0 16) none

def Dev.descSet8 (d : Dev) (c : CoreId) (o : Nat) (v : Word) : Dev :=
  if o < 0x10000 then d.updCore c fun x => { x with descs := sset (fun _ => 0) x.descs (o / 8) v }
  else if o < 0x10800 then d.updCore c fun x => { x with sdescs := sset (fun _ => 0) x.sdescs ((o - 0x10000) / 8) v }
  else if 0x18000 ≤ o && o < 0x18200 then d.wrTalVal c (finOf 63 ((o - 0x18000) / 8)) v
  else if 0x18200 ≤ o && o < 0x18400 then d.wrTalAdd c (finOf 63 ((o - 0x18200) / 8)) v
  else d

/-! Pattern banks (R137). -/

def Core.bank (x : Core) (b : Bool) : List (Nat × BitVec 16) := if b then x.bank1 else x.bank0
def Core.bankGet (x : Core) (b : Bool) (i : Nat) : BitVec 16 := sget (fun _ => 0) (x.bank b) i
def Core.bankSet (x : Core) (b : Bool) (i : Nat) (v : BitVec 16) : Core :=
  if b then { x with bank1 := sset (fun _ => 0) x.bank1 i v } else { x with bank0 := sset (fun _ => 0) x.bank0 i v }

/-- A window write of four entries: an entry that a PLOAD writes in this cycle keeps what the PLOAD wrote (R137). -/
def Dev.wrBank (d : Dev) (c : CoreId) (b : Bool) (w : Nat) (v : Word) : Dev :=
  let free := (List.range 4).filter fun n => !d.now.pats.contains (c, b, 4 * w + n)
  d.updCore c fun x => free.foldl (fun (x : Core) n => x.bankSet b (4 * w + n) (BitVec.ofNat 16 (fld v (16 * n) 16))) x

/-! Guarded registers. -/

/-- The fields of a register whose guard fails keep their value, and the write records event 0x8001. -/
def Dev.guarded (d : Dev) (a : Nat) (v : Word) (fields : List (Nat × Nat × Bool)) : Dev :=
  let old := d.reg a
  let kept := fields.filter fun f => !f.2.2 && fld v f.1 f.2.1 != fld old f.1 f.2.1
  let v' := kept.foldl (fun (w : Word) f => setFld w f.1 f.2.1 (fld old f.1 f.2.1)) v
  let d := d.swWrite a v'
  if kept.isEmpty then d else d.ignored a v

/-- A write that changes a field whose guard fails is ignored whole, and records event 0x8001; one that changes only other
fields takes effect. -/
def Dev.guardedWhole (d : Dev) (a : Nat) (v : Word) (fields : List (Nat × Nat × Bool)) : Dev :=
  if fields.any fun f => !f.2.2 && fld v f.1 f.2.1 != fld (d.reg a) f.1 f.2.1 then d.ignored a v else d.swWrite a v

/-- SEQ_CTL (Table 6.17). -/
def Dev.wrSeqCtl (d : Dev) (c : CoreId) (v : Word) : Dev :=
  let free := fun (k : StrandId) => (d.strand c k).st == .idle || (d.strand c k).st == .done
  d.guarded (aSeqCtl c) v [(0, 4, free 0), (4, 4, free 1)]

/-- ARR_CTL_a (R88). -/
def Dev.wrArrCtl (d : Dev) (c : CoreId) (a : ArrayId) (v : Word) : Dev :=
  let free := fun (u : HalfId) => !d.halfBusy c a u && (d.half c a u).drainEnd.isNone && (d.queueOf c (.half a u)).isEmpty
  d.guardedWhole (aArrCtl c a) v [(0, 4, free 0), (4, 4, free 1)]

/-- BED_CTL_a (R111). -/
def Dev.wrBedCtl (d : Dev) (c : CoreId) (a : ArrayId) (v : Word) : Dev :=
  d.guardedWhole (aBedCtl c a) v (allTiles.map fun t => (4 * t.val, 4, (d.tileOps c a t).isEmpty))

/-- PAT_CTL (R140). The record of an operation that a pause stopped stands in no queue (R292). -/
def Dev.wrPatCtl (d : Dev) (c : CoreId) (v : Word) : Dev :=
  let used := d.ops.any fun o => o.core == c && o.phase != .stopped && (o.opcode == 0x4A || o.opcode == 0x4B || o.opcode == 0x4C)
  d.guardedWhole (aPatCtl c) v [(0, 4, !used)]

/-- CNT_CTL of the page at `base` (Table 14.5). -/
def Dev.wrCntCtl (d : Dev) (base : Nat) (v : Word) : Dev :=
  let d := d.swWrite (base + 0x7F8) v
  if bitOf v 1 then { d with now := { d.now with clrs := base :: d.now.clrs } } else d

/-- An 8-byte write to a register of a core's page kind `j`. -/
def Dev.wrCorePage (d : Dev) (c : CoreId) (j o : Nat) (v : Word) : Dev :=
  let a := regAddr (corePage c j) o
  match j with
  | 0 => if o = 0 then d.wrSeqCtl c v else d.swWrite a v
  | 1 =>
    if o = 0x10 || o = 0x18 then d.updStrand c (finOf 1 ((o - 0x10) / 8)) fun s => { s with
        draw := v + BitVec.ofNat 64 ((d.now.incs.filter fun e => e.1 == a).foldl (fun n e => n + e.2.2) 0) }
    else if o = 0x300 then d.clearSlots c (fld v 0 32)
    else (d.noteFlags a).swWrite a v
  | 2 => if o % 0x40 = 0 && o < 0x100 then d.wrArrCtl c (finOf 3 (o / 0x40)) v else d.swWrite a v
  | 3 => if o % 0x100 = 0 && o < 0x400 then d.wrBedCtl c (finOf 3 (o / 0x100)) v else d.swWrite a v
  | 4 =>
    if o = 0x100 then d.wrPatCtl c v
    else if 0x2000 ≤ o && o < 0x4000 then d.wrBank c false ((o - 0x2000) / 8) v
    else if 0x4000 ≤ o && o < 0x6000 then d.wrBank c true ((o - 0x4000) / 8) v
    else d.swWrite a v
  | 7 => if o = 0x7F8 then d.wrCntCtl (aCnt c 0) v else d.swWrite a v
  | _ => d.swWrite a v

end Sys2Proof.Machine
end

