-- ==== Sys2Proof/Machine/Plumb.lean ====
section
/-!
DEFINITION. The plumb unit and the snapshots (R372 to R377).
-/

namespace Sys2Proof.Machine

/-- From keeper service on the module senses and drives the shared lines and answers on SMBus (R342). -/
def Dev.serves (d : Dev) : Bool :=
  match d.aoc.trust.stage with
  | .keeper | .tested | .compute => true
  | _ => false

/-- The lowest source bit set. -/
def lowestBit (n : Nat) : Nat := ((List.range 8).find? fun i => n.testBit i).getD 8

/-- Snapshot header (Tables 14.2, 14.3). -/
def Dev.snapHdr (d : Dev) : Word :=
  mkWord [(0, 1), (8, d.hub.plumb.src), (16, d.hub.plumb.tag), (32, d.regFld (aPlb 8) 32 32)]

/-- The headers that blocks still to latch will store for the open window follow its sources and tag. -/
def Dev.plumbHeaders (d : Dev) : Dev :=
  let h := d.snapHdr
  d.updHub fun x => { x with plumb := { x.plumb with latches := x.plumb.latches.map fun l =>
    (l.1, l.2.1, if fld l.2.2 32 32 = fld h 32 32 then h else l.2.2) } }

/-- A trigger joins the snapshot of the open window (R374). -/
def Dev.plumbMerge (d : Dev) (bit tag : Nat) : Dev :=
  let p := d.hub.plumb
  let src := p.src ||| 2 ^ bit
  let tag := if bit < lowestBit p.src then tag else p.tag
  (d.updHub fun h => { h with plumb := { h.plumb with src := src, tag := tag } }).plumbHeaders

/-- A trigger is taken: a new snapshot number, the latches of R373, the pulse on PLUMB_N. With hold 1 the unit takes no further
trigger until a release (R374). Snapshots that are still to be latched stay so. -/
def Dev.plumbTake (d : Dev) (bit tag : Nat) : Dev :=
  let t := d.cycle
  let d := d.setReg (aPlb 8) (setFld (d.reg (aPlb 8)) 32 32 (d.regFld (aPlb 8) 32 32 + 1))
  let d := d.updHub fun h => { h with plumb := { h.plumb with taken := some t, src := 2 ^ bit, tag := tag } }
  let hdr := d.snapHdr
  let d := d.updHub fun h => { h with plumb := { h.plumb with
    latches := h.plumb.latches ++ [(t + 12, 0, hdr), (t + 13, 1, hdr), (t + 14, 2, hdr)] } }
  let d := if bitOf (d.reg (aPlb 0)) 0 then d.setRegFld (aPlb 8) 0 1 1 else d
  let d := d.hcnt 138 1
  if bitOf (d.reg (aPwr 0xA8)) 1 && d.serves then
    let from_ := match d.aoc.plumbLow with
      | some x => x.1
      | none => t + 1
    ({ d with aoc := { d.aoc with plumbLow := some (from_, t + 1401) } }).emit .plumb
  else d

/-- The record of the event whose trigger was taken carries flag bit 2 (R376). -/
def Dev.flagRecord (d : Dev) (rec_ : Option Nat) : Dev :=
  match rec_ with
  | none => d
  | some n =>
    let flag := fun (b : List Byte) =>
      let b := b.set 15 ((b.getD 15 0) ||| 4)
      b.take 56 ++ leBytes 4 (crc32 (b.take 56)) ++ b.drop 60
    d.updAoc fun a => { a with rcd := { a.rcd with pend := a.rcd.pend.map fun p => if p.1 == n then (p.1, flag p.2) else p } }

/-- A trigger of source `bit` is raised in the current cycle (R372 to R374), by an event with its record where there is one. One that finds a
held snapshot is dropped at the end of the cycle, where no release of the same cycle lets it be taken. -/
def Dev.plumbTrigger (d : Dev) (bit tag : Nat) (rec_ : Option Nat := none) : Dev :=
  if !d.hubOn then d
  else if d.hub.plumb.taken.any fun t => decide (d.cycle ≤ t + 2) then (d.plumbMerge bit tag).flagRecord rec_
  else if bitOf (d.reg (aPlb 8)) 0 then { d with now := { d.now with trigs := d.now.trigs ++ [(bit, tag, rec_)] } }
  else (d.plumbTake bit tag).flagRecord rec_

/-- A release (R374): the triggers of its cycle that found the snapshot held are raised again. -/
def Dev.plumbRelease (d : Dev) : Dev :=
  let ts := d.now.trigs
  let d := { d.setRegFld (aPlb 8) 0 1 0 with now := { d.now with trigs := [] } }
  ts.foldl (fun (d : Dev) t => d.plumbTrigger t.1 t.2.1 t.2.2) d

/-- The triggers of the cycle that found a held snapshot are dropped (R374). -/
def Dev.plumbDrop (d : Dev) : Dev :=
  d.now.trigs.foldl (fun (d : Dev) t => ((d.setRegFld (aPlb 8) 2 6 (2 ^ t.1)).hwInc (aPlb 8) 16 16 1).hcnt 139 1) d

/-- Registers copied one after another from `dst`. -/
def Dev.copyRegs (d : Dev) (dst : Nat) (vals : List Word) : Dev :=
  foldIdx (fun d i v => d.setReg (dst + 8 * i) v) 0 d vals

/-- Posts to tally `t` still promised (R377). -/
def Dev.pendPosts (d : Dev) (c : CoreId) (t : TallyId) : Nat :=
  let names := fun (w : BitVec 56) => wPen w && wPtal w == t
  let x := d.core c
  let insns := (d.ops.filter fun o => o.core == c && names o.w).length + (x.posts.filter fun p => names p.w).length +
    (x.strands.toList.foldl (fun n s => n + (s.acc.filter fun a => names a.w).length +
      (match s.ftwait with
        | some h => b2n (names h.w)
        | none => 0) + (s.keys.filter fun h => names h.2.w).length +
      (match s.halt with
        | some h => b2n (names h.w)
        | none => 0)) 0)
  let runs := x.sds.toList.foldl (fun n s => [s.active, s.shadow].foldl (fun n r => match r with
    | some r =>
      let w2 := wordAt r.desc 2
      if bitOf w2 63 && wordAt r.desc 7 = 0 && fld (wordAt r.desc 6) 32 6 == t.val then
        n + (if bitOf w2 62 then fld w2 40 16 - r.done else b2n (decide (r.done < fld w2 40 16))) else n
    | none => n) n) 0
  let saves := ((List.finRange 8).filter fun l => match (d.last l).pausing with
    | some p => p.csave.any fun x => x.1 == c && names x.2.2.2
    | none => false).length + (d.aoc.restoring.filter fun r => r.crest.any fun x => x.1 == c && names x.2.2.2).length
  insns + runs + saves

/-- Remote requests of a core's strands and hods not yet answered. -/
def Dev.coreReqs (d : Dev) (c : CoreId) : Nat :=
  (d.hub.reqs.filter fun r => match r.who with
    | .acc n _ _ => n == c
    | .hod (.core n _) _ _ => n == c
    | _ => false).length

/-- The core latches its SNP page (Table 14.2). -/
def Dev.latchCore (d : Dev) (hdr : Word) (c : CoreId) : Dev :=
  if !d.coreOn c then d.setReg (aSnp c 0) 0
  else
    let s := fun o v (d : Dev) => d.setReg (aSnp c o) v
    let v := fun (x : Nat) => d.view x
    let d := d |> s 0 hdr |> s 8 d.hub.ftime.ft |> s 0x10 (v (aSeq c 8)) |> s 0x18 (v (aSeq c 0x10))
      |> s 0x20 (v (aSeq c 0x18)) |> s 0x28 (v (aSeq c 0x20)) |> s 0x30 (v (aSeq c 0x28)) |> s 0x40 (BitVec.ofNat 64 (d.coreReqs c))
    let d := (List.finRange 64).foldl (fun d t =>
      (d.setReg (aSnp c (0x100 + 8 * t.val)) (BitVec.ofNat 64 ((d.core c).tallies.get t).fold)).setReg
        (aSnp c (0x300 + 8 * t.val)) (BitVec.ofNat 64 (d.pendPosts c t))) d
    let d := allArrays.foldl (fun d a =>
      allTiles.foldl (fun d t => d.setReg (aSnp c (0x540 + 8 * (4 * a.val + t.val))) (d.tstat c a t))
        (d.setReg (aSnp c (0x500 + 8 * a.val)) (d.arrStat c a))) d
    let d := (d.setReg (aSnp c 0x5C0) (d.hodStat c 0)).setReg (aSnp c 0x5C8) (d.hodStat c 1)
    let d := (List.finRange 32).foldl (fun d m => d.setReg (aSnp c (0x600 + 8 * m.val)) (((d.core c).sds.get m).stat true)) d
    d.copyRegs (aSnp c 0x800) ((List.range 63).map fun i => d.reg (aCnt c (8 * i)))

/-- Packets in an input buffer, each with its flits that have arrived (R252). -/
def Link.held (k : Link) : List (Packet × Nat) :=
  (k.buf.map fun p => (p, 1 + ceilDiv p.data.length 64)) ++ match k.part with
    | some (p, n) => [(p, 1 + ceilDiv (p.len.toNat + 1) 64 - n)]
    | none => []

/-- Requests from other modules that wait here for their answer (Table 14.3). -/
def Hub.waiting (h : Hub) : Nat := (h.delivered.filter fun p => p.cls == 0).length

/-- The hub latches its HSNP page (Table 14.3). -/
def Dev.latchHub (d : Dev) (hdr : Word) : Dev :=
  let bytes := fun (l : List Nat) => BitVec.ofNat 64 (leNat (l.map fun n => BitVec.ofNat 8 n))
  let d := (d.setReg (aHsnp 0) hdr).setReg (aHsnp 8) d.hub.ftime.ft
  let d := (List.finRange 12).foldl (fun d l =>
    let k := d.link l
    let held := k.held
    let onLane := fun (v : Nat) => (held.filter fun p => (p.1.cls * 2 + b2n p.1.dl) == v && !p.1.pool).foldl (fun n p => n + p.2) 0
    let sh := (held.filter fun p => p.1.pool).foldl (fun n p => n + p.2) 0
    d.copyRegs (aHsnp (0x100 + 0x40 * l.val))
      [mkWord [(0, k.st.code), (3, min 64 k.replay.length), (16, k.shared)], bytes k.rsv.toList, bytes ((List.range 8).map onLane),
       bytes k.freedR.toList, mkWord [(0, sh), (16, k.freedS)]]) d
  let d := (List.finRange 32).foldl (fun d q => d.setReg (aHsnp (0x400 + 8 * q.val)) (d.queStat q)) d
  let d := (List.finRange 64).foldl (fun d k => d.setReg (aHsnp (0x600 + 8 * k.val)) (d.ksStat k)) d
  let d := (List.finRange 4).foldl (fun d c => d.setReg (aHsnp (0x800 + 8 * c.val)) (d.colStat c)) d
  let d := (List.finRange 16).foldl (fun d n => d.setReg (aHsnp (0x840 + 8 * n.val)) (d.fhStat n)) d
  let other := (d.hub.reqs.filter fun r => match r.who with
    | .acc _ _ _ => false
    | .hod (.core _ _) _ _ => false
    | _ => true).length
  let d := (d.setReg (aHsnp 0x8C0) (BitVec.ofNat 64 other)).setReg (aHsnp 0x8C8) (BitVec.ofNat 64 d.hub.waiting)
  d.copyRegs (aHsnp 0x1000) ((List.range 140).map fun i => d.reg (aHcnt (8 * i)))

/-- PLUMB_LATCH (R373): the blocks whose latch cycle this is take their snapshot. -/
def Dev.plumbLatch (d : Dev) : Dev :=
  let due := d.hub.plumb.latches.filter fun l => l.1 ≤ d.cycle
  if due.isEmpty then d
  else
    let d := due.foldl (fun d l =>
      match l.2.1 with
      | 0 => if d.hubOn then d.latchHub l.2.2 else d
      | n => (allCores.filter fun c => (dieOf c).val + 1 == n).foldl (fun d c => d.latchCore l.2.2 c) d) d
    d.updHub fun h => { h with plumb := { h.plumb with latches := h.plumb.latches.filter fun l => !(decide (l.1 ≤ d.cycle)) } }

/-- Triggers due in this cycle are raised (R198, R375). -/
def Dev.plumbRaise (d : Dev) : Dev :=
  let due := d.hub.plumb.raised.filter fun r => r.1 ≤ d.cycle
  if due.isEmpty then d
  else
    let d := d.updHub fun h => { h with plumb := { h.plumb with raised := h.plumb.raised.filter fun r => !(decide (r.1 ≤ d.cycle)) } }
    due.foldl (fun d r => d.plumbTrigger r.2.1 r.2.2) d

/-- A trigger is to be raised in a later cycle. -/
def Dev.plumbLater (d : Dev) (at_ bit tag : Nat) : Dev :=
  d.updHub fun h => { h with plumb := { h.plumb with raised := h.plumb.raised ++ [(at_, bit, tag)] } }

end Sys2Proof.Machine
end

