-- ==== Sys2Proof/Machine/FabCtl.lean ====
section
/-!
DEFINITION. The fabric's control side: link states (R245, R254), coursing (R255 to R258), routing tables (R260, R262),
fabric time (R271 to R275) and keystones (R276 to R278).
-/

namespace Sys2Proof.Machine

def allLinks : List LinkId := List.finRange 12

/-! Links. -/

/-- The link carries packets: UP, and not looped back (Table 9.19). -/
def Dev.routable (d : Dev) (l : LinkId) : Bool := (d.link l).st == .up && !bitOf (d.reg (aLnk l 0)) 2

def Dev.upPorts (d : Dev) : List LinkId := allLinks.filter fun l => (d.link l).st == .up

/-- The module's link map: one bit per port that is UP and correctly cabled (Table 9.7). -/
def Dev.linkMap (d : Dev) : Nat := d.upPorts.foldl (fun m l => m + 2 ^ l.val) 0

/-! Fabric time. -/

/-- Coordinates of a device address (R205). -/
def devX (a : Nat) : Nat := a / 1024 % 32
def devY (a : Nat) : Nat := a / 32 % 32
def devZ (a : Nat) : Nat := a % 32
def devOf (x y z : Nat) : Nat := (x % 32) * 1024 + (y % 32) * 32 + z % 32

def Dev.updTime (d : Dev) (f : FTime → FTime) : Dev := d.updHub fun h => { h with ftime := f h.ftime }
def Dev.updCrs (d : Dev) (f : Coursing → Coursing) : Dev := d.updHub fun h => { h with crs := f h.crs }

/-- The port to the parent of the time tree (R273): 15 for the root and for a module without coordinates. -/
def Dev.parentPort (d : Dev) : Nat :=
  let lower := fun (p : Nat) => if (d.link (finOf 11 p)).st == .up then p else if (d.link (finOf 11 (p + 1))).st == .up then p + 1 else 15
  if !bitOf (d.reg (aFab 0x10)) 15 || d.hub.ftime.root then 15
  else
    let a := d.regFld (aFab 0x10) 0 15
    if 0 < devX a then lower 2 else if 0 < devY a then lower 6 else if 0 < devZ a then lower 10 else 15

def Dev.refreshParent (d : Dev) : Dev :=
  let p := d.parentPort
  if d.hub.ftime.pport.toNat = p then d
  else d.updTime fun t => { t with pport := BitVec.ofNat 4 p, offs := [], small := 0, large := 0 }

/-- 802.1AS time of a control port now: that of its last message, and 5 ns for each 7 cycles since (R3, R275). -/
def Dev.asTimeOf (d : Dev) (p : CtlId) : Word :=
  let c := d.ctl p
  c.time + BitVec.ofNat 64 ((d.cycle - c.timeAt) * 5 / 7)

/-- 802.1AS time of a locked control port (R275). -/
def Dev.asTime (d : Dev) : Option Word := ((List.finRange 2).find? fun p => (d.ctl p).aslock).map d.asTimeOf

/-- A root that no control port gives 802.1AS time any more counts freely (R275). -/
def Dev.asLost (d : Dev) : Dev :=
  if d.hub.ftime.root && d.asTime.isNone then d.updTime fun f => { f with gptp := false, offs := [] } else d

/-- The root steps its count to 0 (R272, R275), once for each wake of the hub. Its count is its own reference: it is locked
from then on (R274; DEDUCED, log 30). -/
def Dev.stepRoot (d : Dev) : Dev :=
  let d := d.updTime fun t => { t with root := true, gptp := d.asTime.isSome }
  if d.hub.ftime.acq then d
  else
    let d := d.updTime fun t => { t with ft := 0, acq := true, lock := true, hold := false }
    let d := match d.asTime, d.hub.ftime.epochSet with
      | some t, false => d.setReg (aFab 0x28) t
      | _, _ => d
    d.updTime fun t => { t with epoch := d.reg (aFab 0x28) }

/-- The exchange that a time flit of the parent completes: its t_rx and t_peer belong to a flit that this port has sent (R273). -/
def Link.completes (k : Link) (f : TimeFlit) : Bool := k.tSent.contains f.tPeer

/-- An exchange with the parent completes (R272 to R274): the step, the offset and the lock. -/
def Dev.exchange (d : Dev) (f : TimeFlit) : Dev :=
  let t := d.hub.ftime
  let t1 : Int := f.tPeer.toNat
  let t2 : Int := f.tRx.toNat
  let t3 : Int := f.tTx.toNat
  let t4 : Int := t.ft.toNat
  let delay : Int := ((t4 - t1) - (t3 - t2)) / 2
  let off : Int := t4 - t3 - delay
  if !t.acq && f.acq then
    d.updTime fun t => { t with ft := BitVec.ofInt 64 (t3 + delay), acq := true, offs := [], small := 0, large := 0 }
  else
    let near := decide (off.natAbs ≤ 2)
    let small := if near then min 16 (t.small + 1) else 0
    let large := if near then 0 else min 16 (t.large + 1)
    let lock := if t.acq && decide (16 ≤ small) then true else if 16 ≤ large then false else t.lock
    d.updTime fun t => { t with offs := (off :: t.offs).take 16, small := small, large := large, lock := lock }

/-! Routing tables (R259, R260, R262). -/

/-- Entry `e` of the routing table. -/
def Dev.route (d : Dev) (e : Nat) : Nat := d.regFld (regAddr 0x104 (8 * (e / 4))) (16 * (e % 4)) 10

/-- The link map of the module at a device address: this module's own, or the one it has flooded. None for a module that no
walk has reached: it floods none (R257). -/
def Dev.mapOf (d : Dev) (a : Nat) : Option Nat :=
  if a = d.regFld (aFab 0x10) 0 15 then some d.linkMap else (d.hub.crs.maps.find? fun m => m.1.toNat == a).map fun m => m.2.toNat

/-- A port of the pair at `p` is UP in a link map. -/
def pairUpIn (m p : Nat) : Bool := m.testBit p || m.testBit (p + 1)

/-- Every module of the ring path has an UP port in the pair: `n` hops from coordinate `c`, +1 or −1 modulo `s`. -/
def Dev.ringUp (d : Dev) (at_ : Nat → Nat) (s p : Nat) (plus : Bool) : Nat → Nat → Bool
  | 0, _ => true
  | n + 1, c => pairUpIn ((d.mapOf (at_ c)).getD 0) p && d.ringUp at_ s p plus n (if plus then (c + 1) % s else (c + s - 1) % s)

/-- Direction in one dimension: none when no move is needed, else the lower port of the pair, or no way (R260, R262). -/
inductive Way where
  | stay
  | go (p : Nat)
  | noWay
  deriving DecidableEq, Repr

def Dev.way (d : Dev) (at_ : Nat → Nat) (s pPlus c t : Nat) : Way :=
  let a := (t + s - c % s) % s
  if a = 0 || s ≤ 1 then .stay
  else
    let okPlus := d.ringUp at_ s pPlus true a c
    let okMinus := d.ringUp at_ s (pPlus + 2) false (s - a) c
    let plusFirst := decide (a ≤ s / 2)
    if plusFirst then (if okPlus then .go pPlus else if okMinus then .go (pPlus + 2) else .noWay)
    else (if okMinus then .go (pPlus + 2) else if okPlus then .go pPlus else .noWay)

/-- The entry that dimension order gives for destination (x, y, z) (R260): 0 where there is none, and where no walk reached it
(R257). -/
def Dev.routeFor (d : Dev) (s : Shape) (x y z : Nat) : Nat :=
  if s.x ≤ x || s.y ≤ y || s.z ≤ z || (d.mapOf (devOf x y z)).isNone then 0
  else
    let own := d.regFld (aFab 0x10) 0 15
    let wx := d.way (fun c => devOf c (devY own) (devZ own)) s.x 0 (devX own) x
    let wy := d.way (fun c => devOf x c (devZ own)) s.y 4 (devY own) y
    let wz := d.way (fun c => devOf x y c) s.z 8 (devZ own) z
    if wx = .noWay || wy = .noWay || wz = .noWay then 0
    else match wx, wy, wz with
      | .go p, _, _ => p + 16 * (p + 1) + 256
      | _, .go p, _ => p + 16 * (p + 1) + 256
      | _, _, .go p => p + 16 * (p + 1) + 256
      | _, _, _ => 12 + 16 * 12 + 256

/-- Every entry with ovr 0 is computed anew (R260, R262). -/
def Dev.fillRoutes (d : Dev) (s : Shape) : Dev :=
  (List.range 6144).foldl (fun d w =>
    let a := regAddr 0x104 (8 * w)
    let old := d.reg a
    let new := (List.range 4).foldl (fun (v : Word) i =>
      if bitOf old (16 * i + 9) then v
      else
        let e := 4 * w + i
        setFld v (16 * i) 16 (d.routeFor s (e % 32) (e / 32 % 32) (e / 1024))) old
    if new = old then d else d.setReg a new) d

/-- The shape in FAB_COORD. -/
def Dev.shape (d : Dev) : Shape := ⟨d.regFld (aFab 0x10) 16 5 + 1, d.regFld (aFab 0x10) 21 5 + 1, d.regFld (aFab 0x10) 26 5 + 1⟩

/-- Mode 1 is manual: no coursing routes, no route-around (R258). -/
def Dev.manual (d : Dev) : Bool := bitOf (d.reg (aFab 8)) 1

/-- A link notice with the link map of a module (R262). -/
def Dev.takeMap (d : Dev) (a : DevAddr) (m : BitVec 12) : Dev :=
  d.updCrs fun c => { c with maps := (a, m) :: c.maps.filter fun x => x.1 != a }

def Dev.recompute (d : Dev) : Dev :=
  if d.manual || d.hub.crs.state != 6 || !bitOf (d.reg (aFab 0x10)) 15 then d else d.fillRoutes d.shape

/-! Kinds of the CTL packets of coursing and link notices (log 52). -/
def ctlOffer : Nat := 5
def ctlElection : Nat := 6
def ctlMap : Nat := 7
def ctlShape : Nat := 8
def ctlNotice : Nat := 9
def ctlRelease : Nat := 10
def ctlPeer : Nat := 11
def ctlTaken : Nat := 12
def ctlDone : Nat := 13

/-- A link leaves UP (R254): its buffers are discarded, event 0x5001, and a link notice goes to every module. -/
def Dev.leaveUp (d : Dev) (l : LinkId) (st : LinkSt) : Dev :=
  let d := d.updLink l fun k => { Link.init with st := st, light := k.light, peerPort := k.peerPort, peerDev := k.peerDev }
  let d := if st = .down then d.hwInc (aLnk l 0x10) 32 16 1 else d
  let d := d.event 0x5001 1 (leBytes 1 l.val ++ leBytes 1 st.code ++ leBytes 2 (d.regFld (aLnk l 0x10) 32 16))
  let d := d.updHub fun h => { h with
    ctl := h.ctl.filter fun x => x.1 != l
    crs := { h.crs with seen := h.crs.seen.filter fun p => p != l.val, heard := h.crs.heard.filter fun x => x.1 != l.val, peers := h.crs.peers.filter fun x => x.1 != l.val } }
  let d := d.sendCtl d.upPorts ctlNotice [d.ownDev, d.linkMap]
  (d.recompute).refreshParent

/-- A link goes to a state that is not UP. -/
def Dev.setLink (d : Dev) (l : LinkId) (st : LinkSt) : Dev :=
  if (d.link l).st = .up then d.leaveUp l st
  else (d.updLink l fun k => { Link.init with st := st, light := k.light, peerPort := k.peerPort, peerDev := k.peerDev }).refreshParent

/-- The link is MISCABLED (R256): event 0x5002. Of what waits for it, identity packets alone are left (Table 9.2). -/
def Dev.miscable (d : Dev) (l : LinkId) (why : Nat) : Dev :=
  let d := (d.updLink l fun k => { k with st := .miscabled }).event 0x5002 2 (leBytes 1 l.val ++ leBytes 1 why ++ leBytes 8 (d.reg (aLnk l 0x18)).toNat)
  (d.updHub fun h => { h with ctl := h.ctl.filter fun x => x.1 != l || leAt x.2.data 0 1 == ctlIdentity }).refreshParent

/-! Coursing. -/

/-- Coursing ends (R255): state 6 or 7, event 0x5003, its notice. -/
def Dev.crsEnd (d : Dev) (ok : Bool) : Dev :=
  let step := if ok then 7 else d.hub.crs.step
  let d := d.updCrs fun c => { c with state := if ok then 6 else 7, step := step, seen := [] }
  let s := d.shape
  d.eventN 0x5003 (if ok then 0 else 2)
    (leBytes 1 (if ok then 6 else 7) ++ leBytes 1 step ++ leBytes 1 s.x ++ leBytes 1 s.y ++ leBytes 1 s.z)
    (if ok then 4 else 5, 0xFF, 0xFF, 0xFF, if ok then 0 else step)

/-- An offer of coordinates in one direction: through the lower UP port of the pair (R257). -/
def Dev.offer (d : Dev) (p : Nat) (o : Nat × Nat × Nat) : Option Dev :=
  let send := fun (p : LinkId) => d.sendCtl [p] ctlOffer [o.1, o.2.1, o.2.2]
  if (d.link (finOf 11 p)).st = .up then some (send (finOf 11 p))
  else if (d.link (finOf 11 (p + 1))).st = .up then some (send (finOf 11 (p + 1)))
  else none

/-- COURSE named a shape. -/
def Coursing.whole (c : Coursing) : Bool := c.shape.x != 0 && c.shape.y != 0 && c.shape.z != 0

/-- One walk from here (R257): in the + direction, and in the − direction where COURSE named a shape. A walk that cannot
continue makes coursing fail unless a shape is named. -/
def Dev.walk (d : Dev) (p size : Nat) (plus minus : Nat × Nat × Nat) : Dev :=
  if d.hub.crs.state != 1 then d
  else if d.hub.crs.sized then
    if size = 1 then d else let d := (d.offer p plus).getD d
      (d.offer (p + 2) minus).getD d
  else match d.offer p plus with
    | some d => d
    | none => d.crsEnd false

/-- The walk in one dimension goes on from this module, which holds `o` (R257). -/
def Dev.walkIn (d : Dev) (dim : Nat) (o : Nat × Nat × Nat) : Dev :=
  let s := d.hub.crs.shape
  let next := fun (c n : Nat) => if d.hub.crs.sized then (c + 1) % max 1 n else c + 1
  let prev := fun (c n : Nat) => (c + n - 1) % max 1 n
  match dim with
  | 0 => d.walk 0 s.x (next o.1 s.x, o.2.1, o.2.2) (prev o.1 s.x, o.2.1, o.2.2)
  | 1 => d.walk 4 s.y (o.1, next o.2.1 s.y, o.2.2) (o.1, prev o.2.1 s.y, o.2.2)
  | _ => d.walk 8 s.z (o.1, o.2.1, next o.2.2 s.z) (o.1, o.2.1, prev o.2.2 s.z)

/-- The size of a dimension, and a place on the line through `o` along one. -/
def sizeAlong (s : Shape) : Nat → Nat
  | 0 => s.x
  | 1 => s.y
  | _ => s.z

def onLine (dim c : Nat) (o : Nat × Nat × Nat) : Nat × Nat × Nat :=
  match dim with
  | 0 => (c, o.2.1, o.2.2)
  | 1 => (o.1, c, o.2.2)
  | _ => (o.1, o.2.1, c)

/-- A walk along a line has come to its end: round the ring of size `s`, or at a module with no UP port in its direction. -/
def Coursing.ended (c : Coursing) (dim : Nat) (plus : Bool) (o : Nat × Nat × Nat) (s : Nat) : Nat → Nat → Bool
  | 0, _ => true
  | f + 1, k =>
    let a := onLine dim k o
    match c.taken.find? fun t => t.1.toNat == devOf a.1 a.2.1 a.2.2 with
    | none => false
    | some t => t.2.testBit (2 * dim + b2n (!plus)) || c.ended dim plus o s f (if plus then (k + 1) % s else (k + s - 1) % s)

/-- The walk on one line has finished. -/
def Coursing.lineDone (c : Coursing) (dim : Nat) (o : Nat × Nat × Nat) : Bool :=
  let s := sizeAlong c.shape dim
  s != 0 && c.ended dim true o s s 0 && (!c.sized || c.ended dim false o s s 0)

/-- The modules that begin a line of the walk along `dim`. -/
def Coursing.bases (c : Coursing) (dim : Nat) : List (Nat × Nat × Nat) :=
  (c.taken.map fun t => (devX t.1.toNat, devY t.1.toNat, devZ t.1.toNat)).filter fun o =>
    o.2.2 == 0 && (dim == 2 || o.2.1 == 0) && (dim != 0 || o.1 == 0)

/-- The x walk has finished, the y walk, the z walk (R257): each on every line that a module of the walk before begins (DEDUCED, log 53). -/
def Coursing.walkDone (c : Coursing) : Nat → Bool
  | 0 => !(c.bases 0).isEmpty && (c.bases 0).all (c.lineDone 0)
  | n + 1 => c.walkDone n && (c.bases (n + 1)).all (c.lineDone (n + 1))

/-- The walks that this module takes part in (R257), each begun once: the x walk on y = z = 0; the y walk on z = 0, from (x, 0, 0) once the
x walk has finished; the z walk, from (x, y, 0) once the y walk has. -/
def Dev.walks (d : Dev) : Dev :=
  match d.hub.crs.offer with
  | none => d
  | some o => [0, 1, 2].foldl (fun (d : Dev) dim =>
      let c := d.hub.crs
      let due := match dim with
        | 0 => o.2.1 == 0 && o.2.2 == 0
        | 1 => o.2.2 == 0 && (o.2.1 != 0 || c.walkDone 0)
        | _ => o.2.2 != 0 || c.walkDone 1
      if c.state = 1 && due && !c.begun.contains dim then (d.updCrs fun c => { c with begun := c.begun ++ [dim] }).walkIn dim o else d) d

/-- The link of port `p` is a dateline for a module at (x, y, z) (R260). A dimension of size 1 has no link in use. -/
def dateline (s : Shape) (x y z p : Nat) : Bool :=
  let ends := fun (c n : Nat) (plus : Bool) => decide (1 < n) && (if plus then decide (c + 1 = n) else decide (c = 0))
  match p / 2 with
  | 0 => ends x s.x true
  | 1 => ends x s.x false
  | 2 => ends y s.y true
  | 3 => ends y s.y false
  | 4 => ends z s.z true
  | _ => ends z s.z false

/-- The device address that Table 9.1 expects behind port `p`, modulo the shape. -/
def peerOf (s : Shape) (x y z p : Nat) : Nat :=
  let up := fun (c n : Nat) => (c + 1) % max 1 n
  let dn := fun (c n : Nat) => (c + n - 1) % max 1 n
  match p / 2 with
  | 0 => devOf (up x s.x) y z
  | 1 => devOf (dn x s.x) y z
  | 2 => devOf x (up y s.y) z
  | 3 => devOf x (dn y s.y) z
  | 4 => devOf x y (up z s.z)
  | _ => devOf x y (dn z s.z)

/-- The device address of the peer on a port: as it said in step 5, or as its offer of coordinates shows. -/
def Coursing.peer (c : Coursing) (s : Shape) (p : Nat) : Option Nat :=
  match c.peers.find? fun x => x.1 == p with
  | some x => some x.2.toNat
  | none => (c.offers.find? fun o => o.1 == p).map fun o => peerOf s (o.2.1 % max 1 s.x) (o.2.2.1 % max 1 s.y) (o.2.2.2 % max 1 s.z) p

/-- Step 5 on one link: the peer is the one Table 9.1 expects, or the link is MISCABLED (R256). A peer that no walk reached has no coordinates
to check (DEDUCED, log 53). -/
def Dev.crsCheck (d : Dev) (x y z : Nat) (l : LinkId) : Dev :=
  let s := d.hub.crs.shape
  match d.hub.crs.peer s l.val with
  | none => d
  | some a =>
    if (d.link l).st != .up then d
    else
      let d := d.updLink l fun k => { k with peerDev := BitVec.ofNat 15 a }
      if a = peerOf s x y z l.val || a = 0x7FFF then d else d.miscable l 3

/-- Step 5 begins (Table 9.7): the shape and the datelines are set, and every UP link tells the peer who is here: a module that no walk
reached is at no coordinates, and has nothing to do in the steps that follow. -/
def Dev.crsStep5 (d : Dev) : Dev :=
  match d.hub.crs.offer with
  | none => (d.updCrs fun c => { c with step := 7 }).sendCtl d.upPorts ctlPeer [31, 31, 31]
  | some (x, y, z) =>
    let s := d.hub.crs.shape
    let v := setFld (setFld (setFld (d.reg (aFab 0x10)) 16 5 (s.x - 1)) 21 5 (s.y - 1)) 26 5 (s.z - 1)
    let d := (d.setReg (aFab 0x10) v).updCrs fun c => { c with step := 5 }
    let d := allLinks.foldl (fun (d : Dev) l => d.setRegFld (aLnk l 0) 1 1 (b2n (dateline s x y z l.val))) d
    d.sendCtl d.upPorts ctlPeer [x, y, z]

/-- Step 6 begins: the link map is flooded. -/
def Dev.crsStep6 (d : Dev) : Dev :=
  match d.hub.crs.offer with
  | none => d
  | some (x, y, z) =>
    let d := allLinks.foldl (fun (d : Dev) l => d.crsCheck x y z l) d
    let d := d.updCrs fun c => { c with step := 6 }
    d.sendCtl d.upPorts ctlMap [d.ownDev, d.linkMap]

/-- A module has filled its routing table; news is passed on to the corner, which gathers completion (Table 9.7). -/
def Dev.crsDone (d : Dev) (a : DevAddr) : Dev :=
  if d.hub.crs.state != 1 || d.hub.crs.done.contains a then d
  else (d.updCrs fun c => { c with done := c.done ++ [a] }).sendCtl d.upPorts ctlDone [a.toNat]

/-- Step 7: the routing table is filled (R260). -/
def Dev.crsStep7 (d : Dev) : Dev := ((d.updCrs fun c => { c with step := 7 }).fillRoutes d.hub.crs.shape).crsDone (BitVec.ofNat 15 d.ownDev)

/-- Steps 5 to 7 go on as far as they can: step 5 ends when every UP link has brought its peer, step 6 when the link map of every module
that took coordinates has arrived (DEDUCED, log 53). -/
def Dev.crsGo (d : Dev) : Dev :=
  if d.hub.crs.state != 1 then d
  else
    let s := d.hub.crs.shape
    let known := fun (d : Dev) => d.upPorts.all fun l => (d.hub.crs.peer s l.val).isSome
    let mapped := fun (d : Dev) => d.hub.crs.taken.all fun t => (d.mapOf t.1.toNat).isSome
    let d := if d.hub.crs.step = 5 && known d then d.crsStep6 else d
    if d.hub.crs.step = 6 && mapped d then d.crsStep7 else d

/-- The walks have finished: step 5 begins, also where no walk came. -/
def Dev.crsPlace (d : Dev) : Dev :=
  let c := d.hub.crs
  if c.state = 1 && (c.step = 4 || (c.step = 3 && c.offer.isNone)) && c.whole && c.walkDone 2 then d.crsStep5.crsGo else d

/-- A module has taken coordinates (R257); news is passed on, and the walks that waited for it begin. -/
def Dev.crsTaken (d : Dev) (a : DevAddr) (ends : Nat) : Dev :=
  if d.hub.crs.state != 1 || d.hub.crs.mode || d.hub.crs.taken.any (fun t => t.1 == a) then d
  else (((d.updCrs fun c => { c with taken := c.taken ++ [(a, ends)] }).sendCtl d.upPorts ctlTaken [a.toNat, ends]).walks).crsPlace

/-- The directions in which no walk can go on from here: bit 2 × dimension for +, the next for −. -/
def Dev.ringEnds (d : Dev) : Nat :=
  (List.range 6).foldl (fun m i =>
    if (d.link (finOf 11 (2 * i))).st = .up || (d.link (finOf 11 (2 * i + 1))).st = .up then m else m + 2 ^ i) 0

/-- The module takes coordinates (R257). -/
def Dev.takeCoords (d : Dev) (x y z : Nat) : Dev :=
  let d := d.setReg (aFab 0x10) (setFld (d.reg (aFab 0x10)) 0 16 (devOf x y z + 2 ^ 15))
  (d.updCrs fun c => { c with offer := some (x, y, z) }).crsTaken (BitVec.ofNat 15 (devOf x y z)) d.ringEnds

/-- Sizes become known, 0 where they are not (R257): each walk that waited for one starts here, and once all are known steps 5 to 7
follow. News is passed on. -/
def Dev.crsShape (d : Dev) (n : Shape) : Dev :=
  let was := d.hub.crs.shape
  let take := fun (old new : Nat) => if old = 0 then new else old
  let s : Shape := ⟨take was.x n.x, take was.y n.y, take was.z n.z⟩
  if d.hub.crs.state != 1 || d.hub.crs.mode || s = was then d
  else if decide (32 < s.x) || decide (32 < s.y) || decide (24 < s.z) then d.crsEnd false
  else (((d.updCrs fun c => { c with shape := s }).sendCtl d.upPorts ctlShape [s.x, s.y, s.z]).walks).crsPlace

/-- An offer fits the coordinates that this module took: the same, or a ring that closes here (R257). -/
def offerFits (s : Shape) (own o : Nat × Nat × Nat) : Bool :=
  let fits := fun (n a b : Nat) => a == b || (b != 0 && a == 0 && (n == 0 || b % n == 0))
  fits s.x own.1 o.1 && fits s.y own.2.1 o.2.1 && fits s.z own.2.2 o.2.2

/-- An offer of coordinates is judged, from step 3 on (R257): the first is taken, a later one that does not fit makes coursing fail, and the
corner learns the sizes from those that reach it. -/
def Dev.offerNow (d : Dev) (o : Nat × Nat × Nat) : Dev :=
  if d.hub.crs.state != 1 then d
  else
    let d := if d.hub.crs.step = 3 then d.updCrs fun c => { c with step := 4 } else d
    match d.hub.crs.offer with
    | none => d.takeCoords o.1 o.2.1 o.2.2
    | some own =>
      if !offerFits d.hub.crs.shape own o then d.crsEnd false
      else if d.hub.crs.corner then d.crsShape ⟨o.1, o.2.1, o.2.2⟩
      else d.crsGo

/-- Step 4 begins: the election is over, and the corner starts the walks. -/
def Dev.crsWalks (d : Dev) : Dev :=
  let me := decide (d.hub.crs.smallest = Config.serial)
  let d := d.updCrs fun c => { c with step := 4, corner := me }
  let d := d.updTime fun t => { t with root := me }
  if me then d.takeCoords 0 0 0 else d

/-- The smallest serial heard on any port, and this module's own. -/
def Coursing.least (c : Coursing) : Word := c.heard.foldl (fun m x => if x.2.toNat < m.toNat then x.2 else m) Config.serial

/-- The election here has settled: every neighbour has told the same smallest serial (R255). -/
def Dev.crsSettled (d : Dev) : Bool := d.upPorts.all fun l => d.hub.crs.heard.any fun x => x.1 == l.val && x.2 == d.hub.crs.smallest

/-- The corner of a settled election starts the walks. -/
def Dev.crsElected (d : Dev) : Dev :=
  let c := d.hub.crs
  if c.state = 1 && c.step = 3 && c.smallest = Config.serial && d.crsSettled then d.crsWalks else d

/-- Step 2 is over: mode 1 ends here; mode 0 goes on to the corner election (R255, R258). Offers that came before are judged now. -/
def Dev.crsStep3 (d : Dev) : Dev :=
  if d.hub.crs.mode then d.crsEnd true
  else
    let d := if d.hub.crs.named ≠ 0 then (d.updCrs fun c => { c with step := 3, smallest := c.named }).crsWalks
      else
        let d := d.updCrs fun c => { c with step := 3, smallest := c.least }
        (d.sendCtl d.upPorts ctlElection [d.hub.crs.smallest.toNat]).crsElected
    (d.hub.crs.offers.foldl (fun (d : Dev) o => d.offerNow o.2) d).crsPlace

/-- Step 2 is over when every UP link has brought its identity packet. -/
def Dev.crsIdentified (d : Dev) : Dev :=
  let c := d.hub.crs
  if c.state = 1 && c.step = 2 && d.upPorts.all fun l => c.seen.contains l.val then d.crsStep3 else d

/-- Step 1 is over when no port is training any more: identity packets leave on every UP link. -/
def Dev.crsTrained (d : Dev) : Dev :=
  let c := d.hub.crs
  if c.state = 1 && c.step = 1 && allLinks.all fun l =>
      (d.link l).st != .training && !(d.dom (.link l) == .waking && bitOf (d.reg (aLnk l 0)) 0) then
    let d := d.updCrs fun c => { c with step := 2 }
    let d := d.upPorts.foldl (fun d l => d.sendCtl [l] ctlIdentity [Config.serial.toNat, l.val, 2]) d
    d.crsIdentified
  else d

/-- Coursing begins (R255). Every port with en 1 that is not UP trains; an identity packet that a peer sent before counts. -/
def Dev.crsBegin (d : Dev) (manual : Bool) (named : Word) (shape : Shape) : Dev :=
  let d := d.setRegFld (aFab 8) 1 1 (b2n manual)
  let d := d.updCrs fun c => { c with
    state := 1, step := 1, mode := manual, corner := false, named := named, smallest := 0, shape := shape, offer := none
    sized := shape.x != 0 && shape.y != 0 && shape.z != 0, maps := [], heard := [], offers := [], peers := [], taken := [], begun := [], done := []
    seen := c.seen.filter fun p => (d.link (finOf 11 p)).st == .up }
  let d := allLinks.foldl (fun d l =>
    if bitOf (d.reg (aLnk l 0)) 0 && d.dom (.link l) == .on && (d.link l).st != .up then d.setLink l .training else d) d
  d.crsTrained

/-- The corner has gathered completion: every module that took coordinates has filled its table (Table 9.7). -/
def Coursing.gathered (c : Coursing) : Bool := c.step == 7 && c.taken.all fun t => c.done.contains t.1

/-- A coursing release, or a failure (R255), which is passed on. The corner releases when it has gathered completion; another module takes the
release when its table is filled. At the first release after the hub woke the root steps (R272). -/
def Dev.crsRelease (d : Dev) (ok : Bool) : Dev :=
  let c := d.hub.crs
  if c.state != 1 || (ok && !(if c.corner then c.gathered else c.step == 7)) then d
  else
    let d := d.sendCtl d.upPorts ctlRelease [b2n ok, c.shape.x, c.shape.y, c.shape.z]
    if !ok then d.crsEnd false
    else
      let d := if c.corner && c.first then d.stepRoot else d
      let d := (d.updCrs fun c => { c with first := false }).refreshParent
      d.crsEnd true

/-! Keystones. -/

def ksLast (v : Word) : Nat := fld v 0 3
def ksLocal (v : Word) : Nat := fld v 4 8
def ksParent (v : Word) : Nat := fld v 12 4
def ksChildren (v : Word) : Nat := fld v 20 12

/-- The module has arrived (R276). -/
def Dev.ksArrived (d : Dev) (k : KeyId) : Bool :=
  let v := d.ksCfg k
  let x := d.key k
  bitOf v 3 && decide (x.st < 2) && decide (x.arrived = ksLocal v) && decide (x.children.toNat = ksChildren v)

/-- An arrived module reports to its parent; an arrived root forms the release instant (R276). -/
def Dev.ksReport (d : Dev) (k : KeyId) : Dev :=
  let v := d.ksCfg k
  if ksParent v < 12 then d.ksSend 0 k 0 0 [finOf 11 (ksParent v)]
  else
    let r := d.hub.ftime.ft + BitVec.ofNat 64 (fld v 32 16)
    let d := d.ksSend 1 k r.toNat (d.key k).round.toNat (portsOf (ksChildren v))
    d.updKey k fun x => { x with st := 2, instant := r }

/-- The arrivals change by `f`; where the module has arrived thereby, it reports. -/
def Dev.ksArrive (d : Dev) (k : KeyId) (f : Keystone → Keystone) : Dev :=
  let was := d.ksArrived k
  let d := d.updKey k f
  if d.ksArrived k && !was then d.ksReport k else d

/-- A local arrival (R276): in the current round, or in the next when the round has its local arrivals. -/
def Dev.ksLocalArrival (d : Dev) (k : KeyId) (c : CoreId) (s : StrandId) : Dev :=
  let x := d.key k
  if x.st = 3 then d
  else if x.st < 2 && x.arrived < ksLocal (d.ksCfg k) then
    d.ksArrive k fun x => { x with st := 1, arrived := x.arrived + 1, waits := x.waits ++ [⟨c, s, false⟩] }
  else d.updKey k fun x => { x with next := x.next + 1, waits := x.waits ++ [⟨c, s, true⟩] }

/-- The round ends (R277): its number increases, arrivals of the next round become current. Answers the strands that are
released. -/
def Dev.ksRound (d : Dev) (k : KeyId) : Dev × List (CoreId × StrandId) :=
  let x := d.key k
  let n := ksLocal (d.ksCfg k)
  let out := (x.waits.filter fun w => !w.next).map fun w => (w.core, w.strand)
  let rest := x.waits.filter fun w => w.next
  let cur := min n x.next
  let waits := (rest.take cur).map (fun w => { w with next := false }) ++ rest.drop cur
  let d := d.updKey k fun x => { x with
    st := if cur = 0 then 0 else 1, round := x.round + 1, arrived := 0, next := x.next - cur, children := 0, waits := waits }
  let d := d.hcnt 134 1
  -- the arrivals that joined the next round count now
  let d := d.updKey k fun x => { x with arrived := cur }
  (if d.ksArrived k then d.ksReport k else d, out)

/-! Register writes. -/

/-- FAB_CRS (R255, Table 9.18). A start while coursing runs has no effect. -/
def Dev.wrFabCrs (d : Dev) (v : Word) : Dev :=
  let d := d.swWrite (aFab 8) v
  if !bitOf v 0 || d.hub.crs.state = 1 then d else d.crsBegin d.manual 0 ⟨0, 0, 0⟩

/-- FAB_COORD (R258, R272, Table 9.18). -/
def Dev.wrFabCoord (d : Dev) (v : Word) : Dev :=
  if !d.manual then d
  else if fld v 0 15 = 0x7FFF then d.ignored (aFab 0x10) v
  else
    let d := d.swWrite (aFab 0x10) v
    let d := if bitOf v 15 && fld v 0 15 = 0 then d.stepRoot else d.updTime fun t => { t with root := false, gptp := false }
    d.refreshParent

/-- FAB_LNK_CFG_l (R245). -/
def Dev.wrLnkCfg (d : Dev) (l : LinkId) (v : Word) : Dev :=
  let was := bitOf (d.reg (aLnk l 0)) 0
  let d := d.swWrite (aLnk l 0) v
  let en := bitOf v 0
  if was == en then d
  else if en then (if d.dom (.link l) == .on then d.setLink l .training else d)
  else (d.setLink l .off).crsTrained

/-- KS_CFG_k (R278, Table 9.21). -/
def Dev.wrKsCfg (d : Dev) (k : KeyId) (v : Word) : Dev :=
  let old := d.ksCfg k
  let new := v &&& (regInfo (aKs k 0)).rw
  let st := (d.key k).st
  if (st = 1 || st = 2) && new ≠ old then d.ignored (aKs k 0) v
  else
    let d := d.setReg (aKs k 0) new
    if bitOf new 3 && !bitOf old 3 then
      let d := d.updKey k fun _ => Keystone.init
      if d.ksArrived k then d.ksReport k else d
    else if !bitOf new 3 then d.updKey k fun x => { x with st := 0, arrived := 0, next := 0, children := 0, waits := [] }
    else d

/-- FAB_FT_EPOCH (R275). -/
def Dev.wrEpoch (d : Dev) (v : Word) : Dev := (d.swWrite (aFab 0x28) v).updTime fun t => { t with epochSet := true }

end Sys2Proof.Machine
end

