-- ==== Sys2Proof/Machine/Power.lean ====
section
/-!
DEFINITION. Power domains (R325 to R333): targets, conditions, transitions, what a domain loses and what it wakes with;
and a protective reset (R336).
-/

namespace Sys2Proof.Machine

def allStacks : List StackId := List.finRange 8
def allDies : List DieId := List.finRange 2
def allGates : List GateId := List.finRange 2

/-- Where a target stands: register, lowest bit, width (Table 12.13). -/
def tgtField : Dom → Nat × Nat × Nat
  | .hub => (aDomTgt, 0, 1)
  | .die i => (aDomTgt, 1 + i.val, 1)
  | .ctl1 => (aDomTgt, 3, 1)
  | .stack m => (aDomTgt, 8 + 2 * m.val, 2)
  | .link l => (aDomTgt, 24 + l.val, 1)
  | .gate g => (aDomTgt, 36 + g.val, 1)
  | .core c => (aCore (c.val / 64), c.val % 64, 1)

/-- A target: 0 OFF, 1 SELF-REFRESH (stacks), 2 ON. -/
def Dev.target (d : Dev) (x : Dom) : Nat :=
  let f := tgtField x
  let v := d.regFld f.1 f.2.1 f.2.2
  if f.2.2 = 1 then 2 * v else v

def Dev.setTarget (d : Dev) (x : Dom) (n : Nat) : Dev :=
  let f := tgtField x
  d.setRegFld f.1 f.2.1 f.2.2 (if f.2.2 = 1 then n / 2 else n)

/-- "Requires ON" (Table 12.2), outermost first. -/
def domNeeds : Dom → List Dom
  | .hub | .ctl1 => []
  | .die _ => [.hub]
  | .core c => [.hub, .die (dieOf c)]
  | .stack m => [.hub, .die (finOf 1 (m.val / 4))]
  | .link _ => [.hub]
  | .gate _ => [.hub]

/-- The stacks that the HBM map of R206 uses. -/
def Dev.usedStacks (d : Dev) : List StackId :=
  match d.hbmWays with
  | 8 => allStacks
  | 4 => allStacks.filter fun m => (m.val / 4 == 1) == d.hbmUpper
  | _ => []

def Dev.allEmpty (d : Dev) : Bool := allLasts.all fun l => (d.last l).st == .empty

def DomSt.down (s : DomSt) : Bool := s == .off || s == .out

/-- No unit of the core is assigned, its queues are empty, and neither hod has an active run (Table 12.4). -/
def Dev.coreFree (d : Dev) (c : CoreId) : Bool :=
  let en := fun (v : Word) (n : Nat) => (List.range n).all fun i => !bitOf v (4 * i + 3)
  en (d.reg (aSeqCtl c)) 2 && allArrays.all (fun a => en (d.reg (aArrCtl c a)) 2 && en (d.reg (aBedCtl c a)) 4) &&
  en (d.reg (aPatCtl c)) 1 && !(d.ops.any fun o => o.core == c || o.ecore == c) && (d.core c).sds.toList.all fun s => s.active.isNone

/-- Table 12.4, for a target of OFF. -/
def Dev.offAllowed (d : Dev) (x : Dom) : Bool :=
  match x with
  | .core c => d.coreFree c
  | .die i => (allCores.filter fun c => dieOf c == i).all (fun c => (d.dom (.core c)).down) &&
      (allStacks.filter fun m => m.val / 4 == i.val).all fun m => (d.dom (.stack m)).down || d.dom (.stack m) == .selfRefresh
  | .stack _ => d.allEmpty && d.usedStacks.all fun m => d.target (.stack m) == 0
  | .hub => allDies.all (fun i => (d.dom (.die i)).down) && allLinks.all (fun l => (d.dom (.link l)).down) &&
      allGates.all (fun g => (d.dom (.gate g)).down) && d.allEmpty
  | _ => true

/-- A stack starts to enter or leave SELF-REFRESH. -/
def Dev.startMove (d : Dev) (m : StackId) : Dev :=
  d.updDoms fun s => { s with moving := if s.moving.contains m then s.moving else s.moving ++ [m] }

/-- Whether a stack comes back once its movement is complete: its target was written to be the state it leaves, or was written in
the cycle of completion (R326). -/
def Dev.noteBack (d : Dev) (m : StackId) : Dev :=
  let n := d.target (.stack m)
  let x := d.dom (.stack m)
  let rev := d.now.exams.contains (.stack m) || (d.aoc.doms.moving.contains m && ((x == .on && n == 2) || (x == .selfRefresh && n == 1)))
  d.updDoms fun s => { s with back := s.back.filter (fun y => y != m) ++ (if rev then [m] else []) }

/-- A target write that was not allowed is recorded with the value written (R329); a target that returns to ON, with what its register held. -/
def Dev.tgtRefused (d : Dev) (x : Dom) (v : Word) : Dev := d.ignored (tgtField x).1 v

/-- A stack is on its way into or out of SELF-REFRESH. -/
def Dev.moves (d : Dev) (x : Dom) : Bool := d.aoc.doms.moving.any fun m => Dom.stack m == x

/-- A domain that is in no transition moves toward its target (R326, R329): from the cycle after its last one on. -/
def Dev.examine (d : Dev) (x : Dom) : Dev :=
  if d.now.exams.contains x || d.moves x then d
  else match d.dom x, d.target x with
  | .off, 2 => d.setDom x .waking
  | .on, 0 => if d.offAllowed x then d.setDom x .draining else (d.setTarget x 2).tgtRefused x (d.reg (tgtField x).1)
  | .on, 1 => match x with
    | .stack m => d.startMove m
    | _ => d
  | .selfRefresh, 0 => if d.offAllowed x then d.setDom x .draining else (d.setTarget x 2).tgtRefused x (d.reg (tgtField x).1)
  | _, _ => d

/-- A target becomes ON, and that of every domain it requires (R328). Ignored for an OUT unit. -/
def Dev.turnOn (d : Dev) (x : Dom) : Dev :=
  if d.dom x == .out then d
  else
    let was := d.target x
    let d := (domNeeds x ++ [x]).foldl (fun (d : Dev) y => (d.setTarget y 2).examine y) d
    match x with
    | .stack m => if was = 2 then d else if d.dom x == .selfRefresh && !d.now.exams.contains x then (d.noteBack m).startMove m else d.noteBack m
    | _ => d

/-- The domain's transition completes in this cycle; it examines its target at the cycle's end, and the next transition starts in the
following cycle (R326, R327). -/
def Dev.transitionDone (d : Dev) (x : Dom) : Dev := { d with now := { d.now with exams := d.now.exams ++ [x] } }

/-- The transition that follows one completed in the cycle before (R326). A stack whose written target became the state that it left
goes back, and so does one that an access met on the way (R330); one that an access returned to ON stays there until it is idle. -/
def Dev.examineNext (d : Dev) (x : Dom) : Dev :=
  match x with
  | .stack m =>
    let rev := d.aoc.doms.back.contains m
    let met := d.aoc.doms.woken.contains m
    let d := d.updDoms fun s => { s with back := s.back.filter (fun y => y != m), woken := s.woken.filter fun y => y != m }
    (match d.dom x with
    | .selfRefresh => if (rev && d.target x = 2) || (met && d.target x ≠ 0) then d.startMove m else d.examine x
    | .on => if d.target x = 0 || rev then d.examine x else d
    | _ => d.examine x)
  | _ => d.examine x

/-! Accesses to HBM that meet a stack in self-refresh. -/

/-- An HBM access meets a stack in SELF-REFRESH, or on the way into or out of it (R207, R330): it waits. -/
def Dev.hbmAwake (d : Dev) (a : Nat) : Bool :=
  d.dom (.stack (d.stackOf a)) == .on && !d.aoc.doms.moving.contains (d.stackOf a)

/-- An access arrives at a stack that is not awake: the stack returns to ON, at once or when it is in SELF-REFRESH (R330). -/
def Dev.hbmWake (d : Dev) (a : Nat) : Dev :=
  let m := d.stackOf a
  match d.dom (.stack m) with
  | .selfRefresh => d.startMove m
  | .on => if d.aoc.doms.moving.contains m then d.updDoms fun s => { s with woken := if s.woken.contains m then s.woken else s.woken ++ [m] } else d
  | _ => d

/-- An address of the range in each of the stacks that it lies in (R206). -/
def rangePages (a n : Nat) : List Nat := (List.range (min 9 (n / 4096 + 2))).map fun i => a + min (4096 * i) (n - 1)

/-- Every access of the range would be served now: none of its stacks is asleep. -/
def Dev.rangeAwake (d : Dev) (a n : Nat) : Bool :=
  match region a with
  | .hbm => (rangePages a n).all fun x => !d.reachable x || d.hbmAwake x
  | _ => true

/-- The range arrives at stacks that are asleep: they return to ON (R330). -/
def Dev.rangeWake (d : Dev) (a n : Nat) : Dev :=
  ((rangePages a n).filter fun x => region x == .hbm && d.reachable x && !d.hbmAwake x).foldl (fun (d : Dev) x => d.hbmWake x) d

/-- No access of the range meets an unmapped address (R204, R330). -/
def Dev.rangeMapped (d : Dev) (a n : Nat) : Bool :=
  if n = 0 then true
  else match region a with
  | .hbm => decide (a + n ≤ d.hbmSize) && (rangePages a n).all d.reachable
  | _ => d.reachable a && d.reachable (a + n - 1)

/-- Coursing sets to ON the target of every link whose en is 1 (R255, R337). -/
def Dev.courseLinks (d : Dev) : Dev :=
  allLinks.foldl (fun (d : Dev) l =>
    if bitOf (d.reg (aLnk l 0)) 0 && d.target (.link l) = 0 then (d.turnOn (.link l)).examine (.link l) else d) d

/-- A register write that names a target of `n` goes before an automatic change of the same cycle, whichever came first (R328): an
automatic change is taken back, and none follows in this cycle. -/
def Dev.tgtWritten (d : Dev) (x : Dom) (n : Nat) : Dev :=
  let d := if !d.now.autos.contains x || n = 0 then d
    else
      let d := if d.dom x == .draining then d.setDom x .on else d
      (d.setTarget x 2).updDoms fun s => { s with moving := s.moving.filter fun y => Dom.stack y != x }
  { d with now := { d.now with tgts := d.now.tgts ++ [x] } }

/-- A register write of target `n`: with ON it writes those of the domains that `x` requires (R328). -/
def Dev.claim (d : Dev) (x : Dom) (n : Nat) : Dev := ((if n = 2 then domNeeds x else []) ++ [x]).foldl (fun (d : Dev) y => d.tgtWritten y n) d

/-- The automatic policy changes a target, or puts a stack into SELF-REFRESH, unless the target was written in this cycle (R328,
R332). -/
def Dev.autoTarget (d : Dev) (x : Dom) (act : Dev → Dev) : Dev :=
  if d.now.tgts.contains x then d else act { d with now := { d.now with autos := d.now.autos ++ [x] } }

/-- A target written with the register value `v` (R326, R328, R329). -/
def Dev.writeTarget (d : Dev) (x : Dom) (n : Nat) (v : Word) : Dev :=
  let d := d.claim x n
  if d.target x = n then d
  else if n = 2 then d.turnOn x
  else if d.dom x == .out then (if n = 0 then d.setTarget x 0 else d)
  else if n = 1 then
    let d := d.setTarget x 1
    (match x with
      | .stack m => d.noteBack m
      | _ => d).examine x
  else
    let ok := match x with
      | .stack _ => d.allEmpty
      | _ => d.offAllowed x
    if ok then d.setTarget x 0 else d.tgtRefused x v

/-- PWR_DOM_TGT: only fields whose value changes take part; stacks go OFF all together or not at all (Table 12.4). -/
def Dev.wrDomTgt (d : Dev) (v : Word) : Dev :=
  let one := fun (d : Dev) (x : Dom) =>
    let f := tgtField x
    let n := fld v f.2.1 f.2.2
    d.writeTarget x (if f.2.2 = 1 then 2 * n else if n = 3 then d.target x else n) v
  let allOff := d.usedStacks.all fun m => fld v (8 + 2 * m.val) 2 == 0
  let sts := allStacks.filter fun m => fld v (8 + 2 * m.val) 2 != 0 || allOff || d.target (.stack m) == 0
  let denied := allStacks.filter fun m => !(sts.contains m)
  let xs : List Dom := [.hub, .die 0, .die 1, .ctl1] ++ sts.map (fun m => .stack m) ++ allLinks.map (fun l => .link l) ++ allGates.map fun g => .gate g
  let d := xs.foldl one d
  let d := if denied.isEmpty then d else d.ignored aDomTgt v
  xs.foldl (fun (d : Dev) x => if d.target x = 0 then d.examine x else d) d

/-- PWR_CORE_TGT_h. -/
def Dev.wrCoreTgt (d : Dev) (h : Fin 2) (v : Word) : Dev :=
  (List.range 64).foldl (fun (d : Dev) i =>
    let x : Dom := .core (finOf 127 (64 * h.val + i))
    let n := if bitOf v i then 2 else 0
    if d.target x = n && !d.now.autos.contains x then d.claim x n else (d.writeTarget x n v).examine x) d

/-- Memory and its ECC state in a range are as nothing has written them. -/
def Dev.forget (d : Dev) (p : Nat → Bool) : Dev :=
  { d with mem := skeep (fun a => !p a) d.mem, ecc := d.ecc.filter fun e => !p e.1 }

/-- What a stack holds is undefined from now on (R331, DESIGN CHOICE, log 1). -/
def Dev.undefined (d : Dev) (m : StackId) : Dev :=
  let f : Fill := ⟨m, d.hbmWays, d.hbmUpper, d.freeIdx, []⟩
  let d := d.forget fun a => f.keeps a
  { d with freeIdx := d.freeIdx + 1, fills := f :: d.fills.filter fun x => !(x.stack == m && x.ways == f.ways && x.upper == f.upper) }

/-- The registers of some pages take their reset values. -/
def Dev.resetPages (d : Dev) (p : Nat → Nat → Bool) : Dev :=
  { d with regs := skeep (fun a => !p ((a - regBase) / 0x10000) (a % 0x10000)) d.regs }

/-- A page of the hub domain (Table 15.1). -/
def hubPage (g : Nat) : Bool := (0x100 ≤ g && g ≤ 0x10E) || (0x120 ≤ g && g < 0x140)

/-- Hod `h` of the core is in service: GLB_HOD_OK once the self-test is done (R396). -/
def Dev.hodGood (d : Dev) (c : CoreId) (h : Nat) : Bool :=
  !bitOf (d.reg (aGlb 0x10)) 63 || bitOf (d.reg (aGlb (0x40 + 8 * ((2 * c.val + h) / 64)))) ((2 * c.val + h) % 64)

/-- The reset state a domain has when its wake completes (R331, R391). -/
def Dev.wakeState (d : Dev) (x : Dom) : Dev :=
  match x with
  | .core c =>
    let lo := bedAddr c 0 0 0 0
    let d := d.updCore c fun _ => { Core.init with hods := Core.init.hods.mapIdx fun h x => { x with ok := d.hodGood c h } }
    let d := { d with ecc := d.ecc.filter fun e => !(decide (lo ≤ e.1) && decide (e.1 < lo + 0x200000)) }
    d.resetPages fun g _ => decide (corePage c 0 ≤ g) && decide (g < corePage c 8)
  | .die i => d.forget fun a => decide (stockBase + i.val * 0x20000000 ≤ a) && decide (a < stockBase + (i.val + 1) * 0x20000000)
  | .hub =>
    let svc := d.aoc.trust.stage != .compute
    let d := { d with hub := { Hub.init with ftime := { FTime.init with run := true } }, lasts := d.lasts.map fun (x : Last) => { Last.init with loading := x.loading, standing := x.standing, reading := x.reading } }
    (d.resetPages fun g _ => hubPage g).setReg (aMem 0) (mkWord [(0, b2n svc)])
  | .stack m => d.undefined m
  | .link l => if bitOf (d.reg (aLnk l 0)) 0 then d.setLink l .training else d
  | .gate _ => d
  | .ctl1 => d.resetPages fun g o => g == 6 && decide (0x400 ≤ o) && decide (o < 0x800)

/-- What a domain loses when its drain completes (Table 12.2). -/
def Dev.drainState (d : Dev) (x : Dom) : Dev :=
  match x with
  | .core c => { d.updCore c fun _ => Core.init with
      slots := d.slots.filter fun x => x.core != c, bedWrs := d.bedWrs.filter fun x => x.core != c, wrs := d.wrs.filter fun x => x.core != c }
  | .die _ => d
  | .hub => { d with hub := Hub.init }
  | .stack m => d.updDoms fun s => { s with moving := s.moving.filter fun y => y != m, back := s.back.filter fun y => y != m, woken := s.woken.filter fun y => y != m }
  | .link l => d.setLink l .off
  | .gate g => d.updGate g fun _ => Gate.init
  | .ctl1 => ((d.updCtl 1 fun _ => Ctl.init).updAoc fun a => { a with order := a.order.filter fun p => p != 1 }).asLost

/-- The way down (R336): every domain but the always-on one goes off, the AOC restarts from mask ROM,
volatile state is lost, the shared lines are released. Flash and OTP stay, but for a valid byte that was being programmed (R379, R380). -/
def Dev.goDown (d : Dev) (stage : Stage) (held : Option Nat) (cause : Nat) : Dev :=
  let r := d.aoc.rcd
  let torn := d.now.valid
  let aoc := { Aoc.init with
    rcd := { Recorder.init with life := r.life }
    trust := { Trust.init with stage := stage, heldOff := held, goodAt := d.cycle }
    syncIn := d.aoc.syncIn, plumbIn := d.aoc.plumbIn, presentN := d.aoc.presentN, formed := d.out.length }
  let d := { d with
    cores := Vector.replicate 128 Core.init, ops := [], slots := [], bedWrs := [], wrs := []
    lasts := Vector.replicate 8 Last.init, regs := []
    now := Now.init, hub := Hub.init, aoc := aoc, fills := [], saves := [] }
  let d := d.forget fun a => decide (a < 0x009010000000) || torn.contains a
  d.setRegFld (aPwr 0) 8 3 cause

/-- A protective reset (R336, Table 12.7). -/
def Dev.protect (d : Dev) (cause : Nat) (held : Option Nat) : Dev :=
  let secs := d.aoc.rcd.secs
  let d := d.goDown (if held.isNone then .good else .unpowered) held cause
  d.updRcd fun r => { r with secs := secs }

end Sys2Proof.Machine
end

