-- ==== Sys2Proof/Machine/Events.lean ====
section
/-!
DEFINITION. The event recorder (R379 to R386) and notices (R313).
-/

namespace Sys2Proof.Machine

/-- First byte of the recorder area (R382). -/
def recBase : Nat := flashBase + 0x0D000000
def ringSlots : Nat := 783360

/-- A record (Table 14.6). -/
def recordBytes (seq secs cycles : Nat) (e : Event) (noticed : Bool) : List Byte :=
  let head := leBytes 4 seq ++ leBytes 4 secs ++ leBytes 4 cycles ++ leBytes 2 e.code.toNat ++ leBytes 1 (e.sev % 4) ++
    leBytes 1 (b2n e.ft.isSome + 2 * b2n noticed) ++ leBytes 8 (match e.ft with
      | some t => t.toNat
      | none => 0) ++ padTo 32 e.detail
  head ++ leBytes 4 (crc32 head) ++ [0xFF, 0xFF, 0xFF, 0x5A]

/-- The record numbered `n`, wherever it stands, and whether it is still pending. -/
def Recorder.find (r : Recorder) (n : Nat) : Option (Bool × List Byte) :=
  match r.pend.find? fun p => p.1 == n with
  | some p => some (true, p.2)
  | none => (r.kept.find? fun p => p.1 == n).map fun p => (false, p.2)

/-- Status of a number (R382, R384): 0 present, 1 overwritten, 2 not yet, 3 skipped. -/
def Recorder.status (r : Recorder) (n : Nat) : Nat :=
  if r.next ≤ n then 2
  else if r.skipped.any fun s => decide (s.1 ≤ n) && decide (n ≤ s.2) then 3
  else if 256 ≤ n && n + 4096 < r.next then 1
  else if (r.find n).isSome then 0 else 3

/-- A record as the recorder returns it: absent numbers in absent form (R386). -/
def Recorder.fetch (r : Recorder) (n : Nat) : List Byte :=
  match r.status n, r.find n with
  | 0, some p => p.2
  | st, _ => leBytes 4 n ++ zeros 58 ++ leBytes 1 st ++ [0]

/-- R385: the record named by the cursor is copied into the window buffer. -/
def Dev.loadWindow (d : Dev) : Dev :=
  d.updRcd fun r =>
    let n := d.regFld (aEvr 0x10) 0 32
    { r with buf := r.fetch n, bufStat := r.status n
             bufPend := match r.status n, r.find n with
               | 0, some p => p.1
               | _, _ => false }

def Dev.wrEvrCur (d : Dev) (v : Word) : Dev := (d.swWrite (aEvr 0x10) v).loadWindow

/-- The cursor advances (R385). -/
def Dev.evrAdvance (d : Dev) : Dev :=
  if bitOf (d.reg (aEvr 0x10)) 32 then (d.setRegFld (aEvr 0x10) 0 32 (d.regFld (aEvr 0x10) 0 32 + 1)).loadWindow else d

/-- A permanent slot that is not erased: its number is skipped (R382). -/
def Dev.skipTorn : Nat → Dev → Dev
  | 0, d => d
  | f + 1, d =>
    let n := d.aoc.rcd.next
    if 256 ≤ n || (d.rdMem (recBase + 64 * n) 64).all (· == 0xFF) then d
    else
      let d := d.updRcd fun r => { r with next := n + 1, skipped := r.skipped ++ [(n, n)] }
      Dev.skipTorn f (d.event 0x7002 1 (leBytes 4 n ++ leBytes 4 n))

/-- R376: the event raises a plumb trigger, once its record, where it has one, is numbered. -/
def Dev.eventTrigger (d : Dev) (e : Event) (rec_ : Option Nat) : Dev :=
  let v := d.reg (aPlb 0x18)
  if bitOf v 32 && decide ((e.code.toNat ^^^ fld v 0 16) &&& fld v 16 16 = 0) then d.plumbTrigger 4 e.code.toNat rec_ else d

/-- The event takes the next number and waits to be written (R381). -/
def Dev.numberEvent (d : Dev) (e : Event) (noticed : Bool) : Dev :=
  let d := Dev.skipTorn 256 d
  let n := d.aoc.rcd.next
  let d := d.updRcd fun r => { r with next := n + 1, pend := r.pend ++ [(n, recordBytes n r.secs r.cycles e noticed)] }
  (d.acnt 7 1).eventTrigger e (some n)

/-- Fabric time that answers and notices carry. -/
def Dev.ftOrZero (d : Dev) : Nat := if d.hubOn then d.hub.ftime.ft.toNat else 0

/-- An NCP header with its body (Table 11.2). The manual gives no target for what the device sends: a free value (DESIGN CHOICE, log 9). -/
def Dev.ncpMessage (d : Dev) (type reqId status detail : Nat) (body : List Byte) : Dev × List Byte :=
  let t := d.free
  (t.2, leBytes 2 0x4E5A ++ leBytes 1 1 ++ leBytes 1 type ++ leBytes 4 reqId ++ leBytes 2 status ++ leBytes 2 detail ++
    leBytes 4 body.length ++ leBytes 8 t.1.toNat ++ leBytes 8 d.ftOrZero ++ body)

/-- A NOTICE goes to every subscriber slot enabled, and takes a notice number in any case (R313). -/
def Dev.sendNotice (d : Dev) (n : Nat × Nat × Nat × Nat × Nat) (evseq : Nat) : Dev :=
  let body := leBytes 1 n.1 ++ leBytes 1 n.2.1 ++ leBytes 1 n.2.2.1 ++ leBytes 1 n.2.2.2.1 ++ leBytes 4 n.2.2.2.2 ++ leBytes 4 evseq ++ zeros 4
  let d := (List.finRange 4).foldl (fun (d : Dev) i =>
    if (d.aoc.subs.get i).en then
      let m := d.ncpMessage 0x20 d.aoc.noticeNo.toNat 0 0 body
      (m.1.emit (.notice i m.2)).acnt 3 1
    else d) d
  d.updAoc fun a => { a with noticeNo := a.noticeNo + 1 }

/-- The AOC accepts the oldest event (R381, R383). -/
def Dev.acceptEvent (d : Dev) : Dev :=
  match d.aoc.rcd.raised with
  | [] => d
  | e :: rest =>
    let d := d.updRcd fun r => { r with raised := rest }
    if 1024 ≤ d.aoc.rcd.pend.length then
      (((d.updRcd fun r => { r with lost := r.lost + 1 }).hwInc (aEvr 8) 16 32 1).acnt 9 1).eventTrigger e none
    else
      let sent := e.notice.isSome && d.aoc.subs.toList.any fun s => s.en
      let d := d.numberEvent e sent
      match e.notice with
      | some n => d.sendNotice n (d.aoc.rcd.next - 1)
      | none => d

/-- Bytes go to flash, the last of them in the end (R379, R380): a power loss of this cycle finds it not yet programmed. -/
def Dev.program (d : Dev) (a : Nat) (bs : List Byte) : Dev :=
  let d := d.wrMem a bs
  { d with now := { d.now with valid := (a + bs.length - 1) :: d.now.valid } }

/-- The oldest pending record is written to its slot (R382, R383), once it is settled whether its trigger is taken (R376, log 56). -/
def Dev.writeRecord (d : Dev) : Dev :=
  match d.aoc.rcd.pend with
  | [] => d
  | p :: rest =>
    if d.now.trigs.any fun t => t.2.2 == some p.1 then d else
    let d := d.updRcd fun r => { r with pend := rest, kept := r.kept ++ [p] }
    let d : Dev :=
      if p.1 < 256 then d.program (recBase + 64 * p.1) p.2
      else
        let k := d.aoc.rcd.slot
        let at_ := recBase + 0x30000 + 64 * k
        let d : Dev := if k % 1024 = 0 then (d.eraseMem at_ 0x10000).acnt 10 1 else d
        (d.program at_ p.2).updRcd fun r => { r with slot := (k + 1) % ringSlots }
    let d := d.acnt 8 1
    if d.aoc.rcd.lost = 0 then d
    else
      let n := d.aoc.rcd.lost
      let e : Event := ⟨0x7001, 1, if d.hubOn then some d.hub.ftime.ft else none, leBytes 4 n, none⟩
      (d.updRcd fun r => { r with lost := 0 }).numberEvent e false

/-- Addresses of the valid entries of the life-counter log (R380). -/
def Dev.lifeEntries (d : Dev) : List Nat :=
  ((d.mem.filter fun c => decide (recBase + 0x10000 ≤ c.1) && decide (c.1 < recBase + 0x30000) && c.1 % 16 == 15 && c.2 == 0x5A).map
    fun c => c.1 - 15).filter fun a => leNat (d.rdMem (a + 8) 4) == crc32 (d.rdMem a 8)

/-- The newest entry: address, cycles, seconds. -/
def Dev.lifeNewest (d : Dev) : Option (Nat × Nat × Nat) :=
  (d.lifeEntries.map fun a => (a, leNat (d.rdMem (a + 4) 4), leNat (d.rdMem a 4))).foldl (fun best e =>
    match best with
    | none => some e
    | some b => if b.2.1 < e.2.1 || (b.2.1 == e.2.1 && decide (b.2.2 < e.2.2)) then some e else some b) none

/-- An entry is written after the newest one; the other sector is erased when the current one fills (R380). -/
def Dev.writeLife (d : Dev) : Dev :=
  let r := d.aoc.rcd
  let lo := recBase + 0x10000
  let at_ := match d.lifeNewest with
    | some e => if e.1 + 16 < lo + 0x20000 then e.1 + 16 else lo
    | none => lo
  let d : Dev := if (at_ - lo) % 0x10000 = 0 && d.lifeNewest.isNone then (d.eraseMem at_ 0x10000).acnt 10 1 else d
  let b := leBytes 4 r.secs ++ leBytes 4 r.cycles
  let d := d.program at_ (b ++ leBytes 4 (crc32 b) ++ [0xFF, 0xFF, 0xFF, 0x5A])
  let next := (at_ - lo + 16) % 0x20000
  let d : Dev := if next % 0x10000 = 0 then (d.eraseMem (lo + next) 0x10000).acnt 10 1 else d
  d.updRcd fun r => { r with life := some (r.cycles, r.secs) }

/-- The records that flash holds: slots whose byte 63 is 0x5A and whose CRC holds (R379), in the permanent slots and in the ring. -/
def Dev.flashRecords (d : Dev) : List (Nat × List Byte) :=
  ((d.mem.filter fun c => c.1 % 64 == 63 && c.2 == 0x5A && decide (recBase ≤ c.1) &&
    (decide (c.1 < recBase + 64 * 256) || (decide (recBase + 0x30000 ≤ c.1) && decide (c.1 < recBase + 0x30000 + 64 * ringSlots)))).map
      fun c => d.rdMem (c.1 - 63) 64).filterMap fun b => if leAt b 56 4 = crc32 (b.take 56) then some (leAt b 0 4, b) else none

/-- The recorder at a start of the AOC from mask ROM (R379 to R382). -/
def Dev.bootRecorder (d : Dev) : Dev :=
  let d := d.updRcd fun r => { r with kept := d.flashRecords }
  let newest := d.lifeNewest
  let earlier := newest.isSome
  let d := d.updRcd fun r => { r with
    cycles := match newest with
      | some e => e.2.1 + 1
      | none => r.cycles + 1
    secs := match newest with
      | some e => e.2.2
      | none => 0 }
  let d := d.writeLife
  let lo := recBase + 0x30000
  let top := (d.mem.filter fun c => decide (lo ≤ c.1) && decide (c.1 < lo + 64 * ringSlots)).getLast?
  let d := d.updRcd fun r => { r with slot := match top with
    | some c => ((c.1 - lo) / 64 + 1) % ringSlots
    | none => 0 }
  let r := d.aoc.rcd
  let after := if r.kept.isEmpty then 0 else r.kept.foldl (fun m p => max m p.1) 0 + 1
  if r.kept.isEmpty && !earlier then d.updRcd fun r => { r with next := 0 }
  else
    (d.updRcd fun r => { r with next := after + 1024, skipped := r.skipped ++ [(after, after + 1023)] }).event 0x7002 1
      (leBytes 4 after ++ leBytes 4 (after + 1023))

/-- The answer body of EVREAD (R386). -/
def Dev.evread (d : Dev) (first count : Nat) : List Byte :=
  let r := d.aoc.rcd
  leBytes 4 r.next ++ leBytes 4 r.oldest ++ leBytes 4 count ++ zeros 4 ++ (List.range count).flatMap fun i => r.fetch ((first + i) % 2 ^ 32)

end Sys2Proof.Machine
end

