-- ==== Sys2Proof/Machine/Recording.lean ====
section
/-!
DEFINITION. The input recorder (R285 to R288), the checkpoint region register (R300), and the registers of the plumb unit
(R374 to R376) and of the control ports (R322).
-/

namespace Sys2Proof.Machine

/-! The input recorder. -/

def Dev.rplState (d : Dev) : Nat := if d.hubOn then d.regFld (aRpl 0x10) 0 2 else 0
def Dev.rplBase (d : Dev) : Nat := d.regFld (aRpl 8) 0 39
def Dev.rplSize (d : Dev) : Nat := 2 ^ d.regFld (aRpl 8) 40 5
def Dev.rplPos (d : Dev) : Nat := d.regFld (aRpl 0x18) 0 35

/-- A record with its header (Table 10.3), padded to a multiple of 32 bytes. -/
def rplBytes (t : Word) (seq kind unit : Nat) (payload : List Byte) : List Byte :=
  leBytes 8 t.toNat ++ leBytes 4 seq ++ leBytes 1 (kind % 16) ++ leBytes 1 unit ++ leBytes 2 payload.length ++ zeros 16 ++
    padTo (32 * ceilDiv payload.length 32) payload

/-- Records on their way reach the ring in order, each once its stacks are awake (R207); one that meets unmapped addresses has no effect
(R204). -/
def Dev.recDrain : Nat → Dev → Dev
  | 0, d => d
  | f + 1, d => match d.hub.recQ with
    | [] => d
    | r :: rest =>
      if !d.rangeAwake r.1 r.2.length then d.rangeWake r.1 r.2.length
      else
        let d := d.updHub fun h => { h with recQ := rest }
        Dev.recDrain f (if d.rangeMapped r.1 r.2.length then d.wrMem r.1 r.2 else d)

def Dev.recServe (d : Dev) : Dev := Dev.recDrain d.hub.recQ.length d

/-- A record is written at the ring position. The recorder reaches HBM as the hub does. -/
def Dev.rplPut (d : Dev) (kind unit : Nat) (payload : List Byte) : Dev :=
  let b := rplBytes d.hub.ftime.ft d.hub.recSeq.toNat kind unit payload
  let a := d.rplBase + d.rplPos
  let d := d.setRegFld (aRpl 0x18) 0 35 (d.rplPos + b.length)
  (d.updHub fun h => { h with recSeq := h.recSeq + 1, recQ := h.recQ ++ [(a, b)] }).recServe

/-- State 3; mode then reads 0 (R288). -/
def Dev.rplDone (d : Dev) : Dev := (d.setRegFld (aRpl 0x10) 0 2 3).setRegFld (aRpl 0) 0 2 0

/-- One record of a cycle goes to the ring, or the ring is full and recording stops (R286). -/
def Dev.rplWrite (d : Dev) (r : Nat × Nat × List Byte) : Dev :=
  if d.rplState != 1 then d
  else
    let n := 32 + 32 * ceilDiv r.2.2.length 32
    if d.rplSize < d.rplPos + n + 32 then
      (((d.hwSet (aRpl 0x10) 4 0 0).event 0x6001 1 (leBytes 8 d.rplPos)).rplPut 7 0 []).rplDone
    else (d.rplPut r.1 r.2.1 r.2.2).hcnt 136 1

/-- A record keeps its place behind those of lower kinds and, within its kind, of lower units (R285). -/
def recInsert (x : Nat × Nat × List Byte) : List (Nat × Nat × List Byte) → List (Nat × Nat × List Byte)
  | [] => [x]
  | y :: t => if x.1 < y.1 || (x.1 == y.1 && x.2.1 < y.2.1) then x :: y :: t else y :: recInsert x t

/-- The records of the cycle are written (R285). -/
def Dev.recFlush (d : Dev) : Dev :=
  if d.now.recs.isEmpty then d else d.now.recs.foldl (fun (d : Dev) r => d.rplWrite r) { d with now := { d.now with recs := [] } }

/-- Recording ends with an end record (R288), behind the inputs of the cycle. -/
def Dev.endRecording (d : Dev) : Dev :=
  let d := d.recFlush
  if d.rplState != 1 then d else (d.rplPut 7 0 []).rplDone

/-- Replay ends: event 0x6005 and notice kind 10 (R288). -/
def Dev.endReplay (d : Dev) : Dev :=
  let d := d.rplDone
  d.eventN 0x6005 0 (leBytes 4 (d.regFld (aRpl 0x10) 16 32) ++ zeros 4 ++ leBytes 8 d.rplPos) (10, 0xFF, 0xFF, 0xFF, 0)

/-- An external input takes effect: it is recorded where its kind is selected (R285). -/
def Dev.record (d : Dev) (kind unit : Nat) (payload : List Byte) : Dev :=
  if d.rplState != 1 || !bitOf (d.reg (aRpl 0)) (2 + kind) then d
  else { d with now := { d.now with recs := recInsert (kind, unit, payload) d.now.recs } }

/-- RPL_CTL (R288, R302, Table 10.12). -/
def Dev.wrRplCtl (d : Dev) (v : Word) : Dev :=
  let old := d.reg (aRpl 0)
  let mode := fld v 0 2
  let v := if mode = 3 then setFld v 0 2 (fld old 0 2) else v
  let mode := fld v 0 2
  match d.rplState with
  | 1 => if mode = 0 then (d.endRecording).swWrite (aRpl 0) v else if (v &&& 0xFB) = (old &&& 0xFB) then d else d.ignored (aRpl 0) v
  | 2 => if mode = 0 then (d.endReplay).swWrite (aRpl 0) v else if (v &&& 0xFB) = (old &&& 0xFB) then d else d.ignored (aRpl 0) v
  | _ =>
    let d := d.swWrite (aRpl 0) v
    if mode = 1 then
      (((d.setRegFld (aRpl 0x10) 0 2 1).setReg (aRpl 0x18) 0).setReg (aRpl 0x28) d.hub.ftime.ft).updHub fun h => { h with recSeq := 0 }
    else if mode = 2 then (d.setRegFld (aRpl 0x10) 0 2 2).setReg (aRpl 0x18) 0
    else d

/-- RPL_RING (R302, Table 10.12). -/
def Dev.wrRplRing (d : Dev) (v : Word) : Dev :=
  let n := fld v 40 5
  let bad := decide (n < 16) || decide (34 < n)
  let v' := if bad then setFld v 40 5 16 else v
  let st := d.rplState
  if st = 1 || st = 2 then
    (if !bad && (v' &&& (regInfo (aRpl 8)).rw) = d.reg (aRpl 8) then d else d.ignored (aRpl 8) v)
  else
    let d := d.swWrite (aRpl 8) v'
    if bad then d.ignored (aRpl 8) v else d

/-- Live inputs of kind `n` are kept out by a replay (R289). -/
def Dev.replaying (d : Dev) (kind : Nat) : Bool := d.rplState == 2 && bitOf (d.reg (aRpl 0)) (2 + kind)

/-! The checkpoint region. -/

/-- Bytes of the checkpoint region (Table 10.13): 1 536 MiB. -/
def ckpSize : Nat := 0x60000000

def overlaps (a n b m : Nat) : Bool := decide (a < b + m) && decide (b < a + n) && decide (n ≠ 0) && decide (m ≠ 0)

/-- The region at `base` overlaps the HBM region of a last that is not EMPTY. -/
def Dev.ckpOverlaps (d : Dev) (base : Nat) : Bool :=
  allLasts.any fun l => (d.last l).st != .empty && match (d.last l).image with
    | some i => overlaps base ckpSize i.hbmBase i.hbmSize
    | none => false

/-- CKP_BASE (R300, Table 10.13). -/
def Dev.wrCkpBase (d : Dev) (v : Word) : Dev :=
  let st := d.regFld (aCkp 8) 0 3
  let old := d.reg (aCkp 0)
  if 1 ≤ st && st ≤ 5 then d.ignored (aCkp 0) v
  else if bitOf v 39 && (!bitOf old 39 || fld v 0 39 != fld old 0 39) && d.ckpOverlaps (fld v 0 39) then d.ignored (aCkp 0) v
  else d.swWrite (aCkp 0) v

/-! The plumb unit. -/

/-- PLB_CTL (R374): a release acts before a trigger of the same write; with hold 0 no snapshot is held. -/
def Dev.wrPlbCtl (d : Dev) (v : Word) : Dev :=
  let d := d.swWrite (aPlb 0) v
  let d := if bitOf v 1 || !bitOf v 0 then d.plumbRelease else d
  if bitOf v 2 then d.plumbTrigger 5 (fld v 16 16) else d

/-- PLB_AT (R375). -/
def Dev.wrPlbAt (d : Dev) (v : Word) : Dev :=
  if v = 0 then d.setReg (aPlb 0x10) 0
  else if v.toNat ≤ d.hub.ftime.ft.toNat then
    ((d.setReg (aPlb 0x10) 0).plumbLater (d.cycle + 1) 3 (fld v 0 16)).hwSet (aPlb 8) 2 0 0
  else d.setReg (aPlb 0x10) v

/-- PLB_EVSEL (R387). -/
def Dev.wrPlbSel (d : Dev) (v : Word) : Dev :=
  let old := d.reg (aPlb 0x18)
  if bitOf old 32 then d.setReg (aPlb 0x18) (setFld old 32 1 (fld v 32 1)) else d.swWrite (aPlb 0x18) v

/-! Pins. -/

/-- PIN_CTL (R342, Table 12.17): before keeper service no line is driven. -/
def Dev.wrPinCtl (d : Dev) (v : Word) : Dev :=
  let d := d.swWrite (aPwr 0xA8) v
  if bitOf v 0 && d.serves then (d.updAoc fun a => { a with syncLow := some (d.cycle + 1400) }).emit .sync else d

/-! Control ports. -/

/-- CTLP_GCFG_p and CTLP_GCL_p_i while en is 1 (R322). Table 11.10 gives len and cycle_ns their ranges and a write outside them no effect: the field
keeps its value, without an event (DESIGN CHOICE, log 60). -/
def Dev.wrCtlp (d : Dev) (p : CtlId) (o : Nat) (v : Word) : Dev :=
  let a := aCtlp p o
  let en := bitOf (d.reg (aCtlp p 0x10)) 0
  if o = 0x10 then
    let old := d.reg a
    let len := if fld v 1 7 = 0 || 64 < fld v 1 7 then fld old 1 7 else fld v 1 7
    let cyc := if fld v 8 30 < 1000 || 1000000000 < fld v 8 30 then fld old 8 30 else fld v 8 30
    let d := if bitOf v 0 then d else d.updCtl p fun c => { c with pos := 0, gates := 0xFF }
    if en && (fld v 1 37 != fld old 1 37) then (d.swWrite a (setFld v 1 37 (fld old 1 37))).ignored a v
    else d.swWrite a (setFld (setFld v 1 7 len) 8 30 cyc)
  else if 0x100 ≤ o && o < 0x300 && en then d.ignored a v
  else d.swWrite a v

end Sys2Proof.Machine
end

