-- ==== Sys2Proof/Machine/Remote.lean ====
section
/-!
DEFINITION. Global addresses (R205), requests to other modules (R248, R263), and writes to this module's memory (R209).
-/

namespace Sys2Proof.Machine

/-- Where a global address leads (R205). -/
inductive Target where
  | here (a : Nat)
  | away (dev : Nat) (a : Nat)
  | group (g : Nat) (a : Nat)
  deriving DecidableEq, Repr

def Dev.targetOf (d : Dev) (g : Word) : Target :=
  let a := fld g 0 48
  let n := fld g 48 15
  if bitOf g 63 then .group n a
  else if n = 0x7FFF || n = d.ownDev then .here a
  else .away n a

/-- Entry `g` of the multicast table (Table 9.10). -/
def Dev.mcEntry (d : Dev) (g : Nat) : Word := if g < 4096 then d.reg (aFmc (8 * g)) else 0

/-- A packet enters the router's injection queue. -/
def Dev.inject (d : Dev) (p : Packet) : Dev := d.updHub fun h => { h with inject := h.inject ++ [p] }

/-- The core of a requester. -/
def Requester.core? : Requester → Option CoreId
  | .acc c _ _ => some c
  | .hod (.core c _) _ _ => some c
  | _ => none

/-- A request leaves with a fresh tag (R248, R249). -/
def Dev.request (d : Dev) (who : Requester) (p : Packet) (addr : Word) (need : Nat) : Dev :=
  let t := d.hub.nextTag
  let own := BitVec.ofNat 15 d.ownDev
  let d := d.inject { p with src := own, issuer := own, tag := t }
  let d := d.updHub fun h => { h with nextTag := t + 1, reqs := h.reqs ++ [⟨t, who, addr, d.cycle, need, []⟩] }
  match who.core? with
  | some c => d.cnt c 59 1
  | none => d

/-- A remote write (R248). -/
def Dev.sendWrite (d : Dev) (who : Requester) (g : Word) (bs : List Byte) : Dev :=
  d.request who { Packet.blank with
    type := 0, dst := BitVec.ofNat 15 (fld g 48 15), len := BitVec.ofNat 12 (bs.length - 1), addr := g.setWidth 48, data := bs } g 0

/-- A remote read. -/
def Dev.sendRead (d : Dev) (who : Requester) (g : Word) (n : Nat) : Dev :=
  d.request who { Packet.blank with
    type := 2, dst := BitVec.ofNat 15 (fld g 48 15), len := BitVec.ofNat 12 (n - 1), addr := g.setWidth 48 } g 0

/-- A remote atomic add (R183). -/
def Dev.sendAtomic (d : Dev) (who : Requester) (g v : Word) : Dev :=
  d.request who { Packet.blank with
    type := 4, dst := BitVec.ofNat 15 (fld g 48 15), addr := g.setWidth 48, operand := v } g 0

/-- A member of a multicast group that has acknowledged earlier writes and not this one: the lowest of them, none where every
known member has (R232, R270; DEDUCED, log 27). -/
def Dev.missingMember (d : Dev) (group : Nat) (acks : List DevAddr) : Option DevAddr :=
  match d.hub.members.find? fun x => x.1 == group with
  | some x => (x.2.filter fun m => !acks.contains m).foldl (fun (b : Option DevAddr) m => match b with
      | some y => if m.toNat < y.toNat then some m else b
      | none => some m) none
  | none => none

/-- The member that a multicast write still waits for, none where it waits for none (R270). Of one that has never acknowledged a write of the
group this module knows nothing but that it is missing: a free device address (DESIGN CHOICE, log 27). -/
def Dev.missing (d : Dev) (r : Req) : Dev × Option Nat :=
  if !bitOf r.addr 63 || r.need ≤ r.acks.length then (d, none)
  else match d.missingMember (fld r.addr 48 15) r.acks with
    | some m => (d, some m.toNat)
    | none =>
      let x := d.free
      (x.2, some (fld x.1 0 15))

/-- What an event says of a failed request: its status, and at a timeout the member that is missing (log 50). -/
def Dev.failInfo (d : Dev) (r : Req) (status : Nat) : Dev × Nat :=
  if status ≠ 8 then (d, status)
  else
    let m := d.missing r
    (m.1, status + match m.2 with
      | some a => 16 * (0x8000 + a)
      | none => 0)

/-- A multicast write (R263): none where the entry here makes it end with status 6 at once. It travels to the root as a unicast
packet, mc 0, with the group in cid (DESIGN CHOICE, log 54). -/
def Dev.sendMulticast (d : Dev) (who : Requester) (g : Word) (bs : List Byte) : Option Dev :=
  let n := fld g 48 15
  let e := d.mcEntry n
  if !bitOf e 13 then none
  else
    let p := { Packet.blank with
      type := 7, len := BitVec.ofNat 12 (bs.length - 1), addr := g.setWidth 48, data := bs, dst := BitVec.ofNat 15 (fld e 15 15), cid := BitVec.ofNat 16 n }
    some (d.request who p g (fld e 30 15))

/-- The cycles of FAB_CFG tmo (R249). -/
def Dev.timeout (d : Dev) : Nat := 1400 * max 10 (d.regFld (aFab 0) 0 16)

/-- How an access ends: done with its bytes, waiting, or failed with a status of Table 9.6. -/
inductive Res where
  | ok (bs : List Byte)
  | wait
  | bad (status : Nat)
  deriving DecidableEq, Repr

/-! Memory. -/

/-- The words that a write covers only in part (R209). -/
def partWords (a n : Nat) : List Nat :=
  let lo := a / 8 * 8
  let hi := (a + n) / 8 * 8
  (if a % 8 ≠ 0 || hi ≤ lo then [lo] else []) ++ (if (a + n) % 8 ≠ 0 && lo < hi then [hi] else [])

/-- Requesters of a class of Table 8.4. -/
def classSize (k : Nat) : Nat := if k = 0 then 17 else if k = 2 then 4 else 2

/-- The class and index under which a master's access enters slice `s` (Table 8.4, R216). -/
def Master.port (m : Master) (s : CoreId) : Nat × Nat :=
  let far := fun (c : CoreId) => (3, b2n (dieOf c != dieOf s))
  match m with
  | .feeder c i => if c == s then (0, i) else far c
  | .hod c h => if c == s then (1, h) else far c
  | .seq c k => if c == s then (2, 2 + k.val) else far c
  | .hub | .fabric => (3, 1)

/-- Where the pointer of a class stands at the bank of slice offset `o` (R211, R213). -/
def ptrKey (o k : Nat) : Nat := 4 * (o / 64 % 16) + k

/-- The place of a master among those that want address `a` in one cycle: at a bank of stock by class and, within a class, from the
class's pointer on (R212, R213); at HBM C0, C1, the hub (R207). -/
def Dev.grantKey (d : Dev) (a : Nat) (m : Master) : Nat :=
  match region a with
  | .stock s o =>
    let p := m.port s
    32 * p.1 + (p.2 + classSize p.1 - sget (fun _ => 0) (d.core s).ptrs (ptrKey o p.1)) % classSize p.1
  | _ => match m with
    | .feeder c _ | .hod c _ | .seq c _ => (dieOf c).val
    | .hub | .fabric => 2

/-- Bytes of a write that take effect when writes of its cycle to the same words are ordered by their grants (R215): where a write
granted later has already been made, its byte stays. -/
def Dev.granted (d : Dev) (a : Nat) (bs : List Byte) (who : Master) : List Byte :=
  match d.now.stk.filter fun e => decide (e.addr < a + bs.length) && decide (a < e.addr + e.len) && e.who != who with
  | [] => bs
  | es => bs.mapIdx fun i b =>
      let x := a + i
      if es.any fun e => decide (e.addr ≤ x) && decide (x < e.addr + e.len) && decide (d.grantKey x who < d.grantKey x e.who) then d.byte x else b

/-- A write to stock or HBM, with its merge (R209), in the order of grants (R215). -/
def Dev.storeWords (d : Dev) (a : Nat) (bs : List Byte) (who : Master) : Dev × Res :=
  let r := (partWords a bs.length).foldl (fun (s : Dev × Bool) w =>
    let e := s.1.eccRead w 8
    (e.1, s.2 || e.2.isSome)) (d, false)
  if r.2 then (r.1, .bad 2)
  else
    let d := r.1.wrMem a (r.1.granted a bs who)
    ({ d with now := { d.now with stk := ⟨a, bs.length, who⟩ :: d.now.stk } }, .ok [])

/-- The contests of a cycle's writes move the pointers (R213): at each bank and class the last contest is won by the last but one of
those served. -/
def Dev.movePtrs (d : Dev) (ws : List StkWr) : Dev :=
  match ws with
  | [] | [_] => d
  | ws =>
    let lines := (ws.flatMap fun w => match region w.addr with
      | .stock s o => (List.range ((o + w.len - 1) / 64 + 1 - o / 64)).map fun i => (s, ptrKey (o + 64 * i) (w.who.port s).1, w.who.port s, d.grantKey w.addr w.who)
      | _ => []).eraseDups
    lines.foldl (fun (d : Dev) x =>
      if (lines.filter fun y => y.1 == x.1 && y.2.1 == x.2.1 && decide (x.2.2.2 < y.2.2.2)).length = 1 then
        d.updCore x.1 fun c => { c with ptrs := sset (fun _ => 0) c.ptrs x.2.1 ((x.2.2.1.2 + 1) % classSize x.2.2.1.1) }
      else d) d

/-- A write of whole local memory: HBM or stock. -/
def Dev.memWrite (d : Dev) (a : Nat) (bs : List Byte) (who : Master := .hub) : Dev × Res :=
  match region a with
  | .hbm =>
    if !d.reachable a then (d, .bad 1)
    else if !d.hbmAwake a then (d.hbmWake a, .wait)
    else (d.hcnt (38 + 3 * (d.stackOf a).val) 1).storeWords a bs who
  | .stock _ _ => if d.reachable a then d.storeWords a bs who else (d, .bad 1)
  | .dram _ => if d.reachable a then (d.wrMem a bs, .ok []) else (d, .bad 1)
  | _ => (d, .bad 1)

end Sys2Proof.Machine
end

