-- ==== Sys2Proof/Machine/Collective.lean ====
section
/-!
DEFINITION. The collective engine (R266 to R269). Partials travel along the tree of R55: the holder of an odd part sends
it to its neighbour, and rank 0 sends the final value to every rank (DEDUCED, log 21).
-/

namespace Sys2Proof.Machine

/-- A descriptor's fields (Table 9.13). -/
structure ColDesc where
  op : Nat
  etype : Nat
  comp : Nat
  rnd : Nat
  cid : Nat
  count : Nat
  src : Nat
  dst : Nat
  ranks : Nat
  nranks : Nat
  myrank : Nat
  notify : Word
  ptab : Nat
  deriving DecidableEq, Repr

def colDesc (ws : List Word) : ColDesc :=
  let w := wordAt ws
  ⟨fld (w 0) 0 2, fld (w 0) 2 3, fld (w 0) 5 2, fld (w 0) 7 2, fld (w 0) 16 16, fld (w 0) 32 32, fld (w 1) 0 48, fld (w 2) 0 48,
   fld (w 3) 0 48, fld (w 4) 0 16, fld (w 4) 16 16, w 5, fld (w 6) 0 48⟩

/-- Bytes of an element. -/
def ColDesc.size (c : ColDesc) : Nat :=
  match c.etype with
  | 0 => 32
  | 1 => 64
  | 2 => 128
  | 3 => 32
  | 4 => 2
  | 5 => 4
  | _ => 8

/-- The ranges that a start reads: the rank list and this rank's input. -/
def ColDesc.reads (c : ColDesc) : List (Nat × Nat) := [(c.ranks, 2 * c.nranks), (c.src, c.count * c.size)]

/-- Table 9.14, codes 1 to 3, in order, but for what the rank list says; 0 for none. -/
def colCheck (ws : List Word) : Nat :=
  let c := colDesc ws
  let w := wordAt ws
  let hi := fun i => decide (fld (w i) 48 16 ≠ 0)
  if c.op = 3 || c.etype = 7 || c.comp = 3 || fld (w 0) 9 7 ≠ 0 || hi 1 || hi 2 || hi 3 || hi 6 || fld (w 4) 32 32 ≠ 0 || w 7 ≠ 0 ||
      c.nranks = 0 || 24576 < c.nranks then 1
  else if c.comp ≠ 0 && (!(c.etype == 4 || c.etype == 5) || c.op == 2 || c.count % 32 != 0) then 2
  else if (c.op = 1 && c.count % c.nranks ≠ 0) || c.nranks ≤ c.myrank then 3
  else 0

/-- Where a part is kept: level and rank. The final value of rank 0 is level 255. -/
def partKey (level rank : Nat) : Nat := level * 65536 + rank

/-- The elements of a part that have arrived, from element `off` on. -/
def Chan.gatherPart (x : Chan) (key : Nat) : Nat → Nat → List Nat
  | 0, _ => []
  | f + 1, off =>
    match x.parts.find? fun p => p.1 == key * 2 ^ 32 + off && !p.2.isEmpty with
    | some p => p.2 ++ x.gatherPart key f (off + p.2.length)
    | none => []

/-- A whole part of `n` elements. -/
def Chan.whole (x : Chan) (key n : Nat) : Option (List Nat) :=
  let l := x.gatherPart key n 0
  if n ≤ l.length then some (l.take n) else none

def Dev.colAdd (d : Dev) (ch : ChanId) (key off : Nat) (vs : List Nat) : Dev :=
  d.updChan ch fun x => { x with parts := x.parts ++ [(key * 2 ^ 32 + off, vs)] }

/-- Addition of two elements (R267). -/
def colSum (c : ColDesc) (a b : Nat) : Nat × Flags :=
  let quire := fun w =>
    let r := quireAdd w (quireOf w a) (quireOf w b)
    (quirePat w r.1, r.2)
  let real := fun (f : Fmt) (rnd : Nat) =>
    let s := addV rnd (decodeElem f 0 a) (decodeElem f 0 b)
    let r := convert f ⟨rnd, 0⟩ s.1
    (r.pat, s.2 ||| r.fl)
  if c.comp ≠ 0 then real .fp32 0
  else match c.etype with
    | 0 => quire 256
    | 1 => quire 512
    | 2 => quire 1024
    | 3 => closeInteger ⟨signed 256 a + signed 256 b, false, 0⟩
    | 4 => real .p16 0
    | 5 => real .fp32 c.rnd
    | _ => real .fp64 c.rnd

def colSums (c : ColDesc) (a b : List Nat) : List Nat × Flags :=
  (List.zip a b).foldl (fun s p => let r := colSum c p.1 p.2; (s.1 ++ [r.1], s.2 ||| r.2)) ([], 0)

/-! Compressed blocks (R268). -/

/-- A block as it is sent: exponent and codes of the first sending, whether it clipped, and the exponent and codes that
count. -/
structure EncBlock where
  e : Int
  q : List Int
  clip : Bool
  e' : Int
  q' : List Int
  /-- New ptab value of the block, if it changes. -/
  tab : Option Int
  deriving DecidableEq, Repr

/-- ⌈log2 q⌉ of a positive rational. -/
def clog2 (q : Rat) : Int := if pow2 (flog2 q) = q then flog2 q else flog2 q + 1

/-- enc_block. -/
def encBlock (x : List Nat) (ep : Option Int) : EncBlock :=
  let vs := x.map fun n => decodeElem .fp32 0 n
  if vs.any Val.isSpecial then
    let q := List.replicate 32 (-128)
    ⟨127, q, false, 127, q, none⟩
  else
    let rs := vs.map fun v => match v with
      | .num q _ => q
      | _ => 0
    let m := rs.foldl (fun a r => if a < qabs r then qabs r else a) 0
    if m = 0 then
      let q := List.replicate 32 0
      ⟨-128, q, false, -128, q, some (-128)⟩
    else
      let ef := min (max (clog2 (m / 127)) (-127)) 127
      let codes := fun (e : Int) => rs.map fun r => roundToInt Rnd.rne (r / pow2 e)
      let e := ep.getD ef
      let q := codes e
      let clip := q.any fun i => decide (127 < i.natAbs)
      ⟨e, q, clip, if clip then ef else e, if clip then codes ef else q, some ef⟩

/-- dec_block, as FP32 patterns. -/
def decBlock (e : Int) (q : List Int) : List Nat :=
  if e = 127 && q.all fun i => i == -128 then List.replicate 32 0x7FC00000
  else q.map fun i => (convert .fp32 Rnd.rne (.ofRat ((i : Rat) * pow2 e))).pat

/-- Runs of 32 elements. -/
def blocksOf : Nat → List Nat → List (List Nat)
  | 0, _ => []
  | f + 1, l => if l.isEmpty then [] else l.take 32 :: blocksOf f (l.drop 32)

def byteOfInt (i : Int) : Byte := BitVec.ofInt 8 i

/-- A compressed COL packet (R269): codes of two blocks a flit, then exponents and the clip bitmap. -/
def colPayload (bs : List (Int × List Int × Bool)) : List Byte :=
  let codes := bs.flatMap fun b => b.2.1.map byteOfInt
  let bitmap := foldIdx (fun n i (b : Int × List Int × Bool) => if b.2.2 then n + 2 ^ i else n) 0 0 bs
  padTo (64 * ceilDiv codes.length 64) codes ++ padTo 56 (bs.map fun b => byteOfInt b.1) ++ leBytes 7 bitmap ++ [0]

/-- The engine reads a range: errors are met as by any reader, and the data as stored is used (R208). The manual does not say what an engine
takes from an unmapped address: free values (DESIGN CHOICE, log 59). -/
def Dev.colRead (d : Dev) (a n : Nat) : Dev × List Byte :=
  if d.rangeMapped a n then ((d.eccRead a n).1, d.rdMem a n)
  else ({ d with freeIdx := d.freeIdx + n },
    (List.range n).map fun i => if d.reachable (a + i) then d.byte (a + i) else (Config.freeWord (d.freeIdx + i)).setWidth 8)

/-- Encoded blocks of a partial: their ptab bytes are read and set (R268). -/
def Dev.colEncode (d : Dev) (c : ColDesc) (v : List Nat) : Dev × List EncBlock :=
  let r := if c.comp = 2 then d.colRead c.ptab (ceilDiv v.length 32) else (d, [])
  foldIdx (fun (s : Dev × List EncBlock) i (x : List Nat) =>
    let at_ := c.ptab + i
    let ep := if c.comp = 2 then some (signed 8 (r.2.getD i 0).toNat) else none
    let b := encBlock x ep
    let d := match c.comp, b.tab with
      | 2, some t => (s.1.memWrite at_ [byteOfInt t]).1
      | _, _ => s.1
    (d, s.2 ++ [b])) 0 (r.1, []) (blocksOf v.length v)

/-- A COL packet to a rank. -/
def Dev.colSend (d : Dev) (ch : ChanId) (c : ColDesc) (rank level off : Nat) (compressed rescue : Bool) (data : List Byte) : Dev :=
  let dev := (d.chan ch).ranks.getD rank 0
  d.request (.col ch rank) { Packet.blank with
    type := 9, cls := 2, dst := dev, len := BitVec.ofNat 12 (data.length - 1), addr := BitVec.ofNat 48 (aCol ch 0), cid := BitVec.ofNat 16 c.cid
    colOff := BitVec.ofNat 32 off, colLevel := BitVec.ofNat 8 level, compressed := compressed, rescue := rescue, data := data } 0 0

/-- Elements in runs of `n`, with their offsets. -/
def runsOf (n : Nat) : Nat → Nat → List Nat → List (Nat × List Nat)
  | 0, _, _ => []
  | f + 1, off, l => if l.isEmpty then [] else (off, l.take n) :: runsOf n f (off + n) (l.drop n)

def Dev.colSendRaw (d : Dev) (ch : ChanId) (c : ColDesc) (rank level : Nat) (v : List Nat) : Dev :=
  (runsOf (4096 / c.size) v.length 0 v).foldl (fun d r =>
    d.colSend ch c rank level r.1 false false (r.2.flatMap fun n => leBytes c.size n)) d

/-- Encoded blocks to a rank; clipped blocks again in rescue packets (R269). -/
def Dev.colSendBlocks (d : Dev) (ch : ChanId) (c : ColDesc) (rank level : Nat) (bs : List EncBlock) : Dev :=
  let groups := (List.range (ceilDiv bs.length 56)).map fun i => (56 * i, (bs.drop (56 * i)).take 56)
  let d := groups.foldl (fun d g =>
    d.colSend ch c rank level (32 * g.1) true false (colPayload (g.2.map fun b => (b.e, b.q, b.clip)))) d
  foldIdx (fun d i (b : EncBlock) =>
    if b.clip then d.colSend ch c rank level (32 * i) true true (colPayload [(b.e', b.q', false)]) else d) 0 d bs

/-- Own input, as the elements that the tree adds. -/
def ColDesc.input (c : ColDesc) (bs : List Byte) : List Nat :=
  (chunk c.size c.count bs).map fun b =>
    let x := leNat b
    if c.comp ≠ 0 && c.etype == 4 then (convert .fp32 Rnd.rne (decodeElem .p16 0 x)).pat else x

/-- The tree up to the level where this rank's part is sent or is the root's value: value, flags, level. None while a
part is missing. -/
def Chan.climb (x : Chan) (c : ColDesc) : Nat → Nat → List Nat → Flags → Option (List Nat × Flags × Nat)
  | 0, l, v, fl => some (v, fl, l)
  | f + 1, l, v, fl =>
    let n := ceilDiv c.nranks (2 ^ l)
    let j := c.myrank / 2 ^ l
    if n ≤ 1 || j % 2 = 1 then some (v, fl, l)
    else if n ≤ j + 1 then x.climb c f (l + 1) v fl
    else match x.whole (partKey l (c.myrank + 2 ^ l)) c.count with
      | none => none
      | some u =>
        let r := colSums c v u
        x.climb c f (l + 1) r.1 (fl ||| r.2)

/-- Marks that this rank has sent its part. -/
def sentKey : Nat := partKey 254 0

def Dev.colOthers (_ : Dev) (c : ColDesc) : List Nat := (List.range c.nranks).filter fun r => r ≠ c.myrank

/-- What can be sent is sent (R267, R268), once the stacks of ptab are awake (R207). -/
def Dev.colAdvance (d : Dev) (ch : ChanId) : Dev :=
  let x := d.chan ch
  let c := colDesc x.desc
  if x.st ≠ 1 || c.op = 2 || (x.parts.any fun p => p.1 == sentKey * 2 ^ 32) then d
  else match x.whole (partKey 0 c.myrank) c.count with
  | none => d
  | some own => match x.climb c 20 0 own 0 with
    | none => d
    | some (v, fl, l) =>
      let tab := (c.ptab, ceilDiv c.count 32)
      if c.comp = 2 && !d.rangeAwake tab.1 tab.2 then d.rangeWake tab.1 tab.2
      else
      let d := if fl = 0 then d else d.hwSet (aCol ch 0x48) (BitVec.ofNat 64 (fl.toNat * 256)) 0 0
      let d := d.updChan ch fun x => { x with parts := x.parts ++ [(sentKey * 2 ^ 32, [])] }
      let root := decide (ceilDiv c.nranks (2 ^ l) ≤ 1)
      if c.comp = 0 then
        (if root then ((d.colOthers c).foldl (fun d r => d.colSendRaw ch c r 255 v) d).colAdd ch (partKey 255 0) 0 v
         else d.colSendRaw ch c (c.myrank - 2 ^ l) l v)
      else
        let e := d.colEncode c v
        let d := e.1
        let n := (e.2.filter fun b => b.clip).length
        let d := if n = 0 then d else d.hwInc (aCol ch 0x48) 32 16 n
        if root then ((d.colOthers c).foldl (fun d r => d.colSendBlocks ch c r 255 e.2) d).colAdd ch (partKey 255 0) 0 (e.2.flatMap fun b => decBlock b.e' b.q')
        else d.colSendBlocks ch c (c.myrank - 2 ^ l) l e.2

/-- State 3 with an error (R266, Table 9.14): event 0x5006. -/
def Dev.colFail (d : Dev) (ch : ChanId) (err dev : Nat) : Dev :=
  (d.updChan ch fun x => { x with st := 3, err := err }).event 0x5006 2 (leBytes 1 ch.val ++ leBytes 1 err ++ leBytes 2 dev)

/-- The blocks of a compressed packet, with those that are to be discarded marked. -/
def colBlocks (p : Packet) (left : Nat) : List (Int × List Int × Bool) :=
  let n := p.data.length - 64
  let k := if p.rescue then 1 else min (n / 32) (min 56 (left / 32))
  let tail := p.data.drop n
  (List.range k).map fun i =>
    (signed 8 (leAt tail i 1), ((p.data.drop (32 * i)).take 32).map fun b => b.toInt, ((leAt tail 56 7).testBit i))

/-- A COL packet's data enters a running collective (R267, R269). -/
def Dev.colData (d : Dev) (ch : ChanId) (p : Packet) : Dev :=
  let x := d.chan ch
  let c := colDesc x.desc
  if p.cid.toNat ≠ c.cid then d.colFail ch 4 p.src.toNat
  else match (List.range c.nranks).find? fun r => x.ranks.getD r 0 == p.src with
  | none => d
  | some r =>
    let lvl := p.colLevel.toNat
    let key := if lvl = 255 then partKey 255 0 else partKey lvl r
    let off := p.colOff.toNat
    let d : Dev :=
      if p.compressed then
        foldIdx (fun (d : Dev) i (b : Int × List Int × Bool) =>
          if b.2.2 then d else d.colAdd ch key (off + 32 * i) (decBlock b.1 b.2.1)) 0 d (colBlocks p (c.count - off))
      else d.colAdd ch key off ((chunk c.size p.data.length p.data).map leNat)
    d.colAdvance ch

/-- The channel a COL packet names. -/
def colChan (p : Packet) : ChanId := finOf 3 ((p.addr.toNat - aCol 0 0) / 0x80)

/-- The channel runs and has read its rank list and input. -/
def Dev.colOn (d : Dev) (ch : ChanId) : Bool := (d.chan ch).st == 1 && !(d.chan ch).ranks.isEmpty

/-- A started collective begins: it reads the rank list, which decides about code 3, and its input. Packets that arrived before wait no
longer. -/
def Dev.colBegin (d : Dev) (ch : ChanId) (ws : List Word) : Dev :=
  let c := colDesc ws
  let list := d.colRead c.ranks (2 * c.nranks)
  let ranks := (chunk 2 c.nranks list.2).map fun b => BitVec.ofNat 15 (leNat b)
  let d := list.1.updChan ch fun x => { x with desc := ws, ranks := [], parts := [] }
  if leAt list.2 (2 * c.myrank) 2 ≠ d.ownDev then d.colFail ch 3 d.ownDev
  else
    let src := d.colRead c.src (c.count * c.size)
    let own := c.input src.2
    let d := src.1.updChan ch fun _ => ⟨1, 0, ws, ranks, []⟩
    let d := d.colAdd ch (partKey 0 c.myrank) 0 own
    let d := if c.op = 2 then (d.colOthers c).foldl (fun d r => d.colSendRaw ch c r 0 own) d else d.colAdvance ch
    let early := d.hub.delivered.filter fun p => p.type == 9 && colChan p == ch
    let d := d.updHub fun h => { h with delivered := h.delivered.filter fun p => !(p.type == 9 && colChan p == ch) }
    early.foldl (fun d p => if (d.chan ch).st = 1 then d.colData ch p else d) d

/-- A running channel goes on when the stacks it reads are awake; its accesses wake those that are not (R207, R330). -/
def Dev.colGo (d : Dev) (ch : ChanId) : Dev :=
  let x := d.chan ch
  if x.st ≠ 1 then d
  else if d.colOn ch then d.colAdvance ch
  else
    let c := colDesc x.desc
    if c.reads.all fun r => d.rangeAwake r.1 r.2 then d.colBegin ch x.desc
    else c.reads.foldl (fun (d : Dev) r => d.rangeWake r.1 r.2) d

/-- The channels go on (R330). -/
def Dev.colsServe (d : Dev) : Dev := if d.hubOn then (List.finRange 4).foldl (fun (d : Dev) ch => d.colGo ch) d else d

/-- COL_CMD start (R266). -/
def Dev.colStart (d : Dev) (ch : ChanId) (v : Word) : Dev :=
  if !bitOf v 0 then d
  else if (d.chan ch).st = 1 then d.ignored (aCol ch 0x40) v
  else
    let ws := (List.range 8).map fun i => d.reg (aCol ch (8 * i))
    let err := colCheck ws
    let d := d.updChan ch fun _ => ⟨1, 0, ws, [], []⟩
    if err ≠ 0 then d.colFail ch err d.ownDev else d.colGo ch

/-- The bytes of this module's part of the result, once every element is there (R267). -/
def Dev.colResult (d : Dev) (ch : ChanId) : Option (List Byte) :=
  let x := d.chan ch
  let c := colDesc x.desc
  let out := fun (n : Nat) => if c.comp ≠ 0 && c.etype == 4 then leBytes 2 (convert .p16 Rnd.rne (decodeElem .fp32 0 n)).pat else leBytes c.size n
  if c.op = 2 then
    (List.range c.nranks).foldl (fun (s : Option (List Byte)) r => match s, x.whole (partKey 0 r) c.count with
      | some s, some v => some (s ++ v.flatMap out)
      | _, _ => none) (some [])
  else match x.whole (partKey 255 0) c.count with
    | none => none
    | some v =>
      let part := if c.op = 1 then
          let n := c.count / max 1 c.nranks
          (v.drop (c.myrank * n)).take n
        else v
      some (part.flatMap out)

end Sys2Proof.Machine
end

