-- ==== Sys2Proof/Machine/RegWrite.lean ====
section
/-!
DEFINITION. What an 8-byte write to register space does (R10, R388 to R394), and the 8-byte writes that posts and notices
make (R226, R238, R266).
-/

namespace Sys2Proof.Machine

/-! Spill queue registers (R241, R243). -/

/-- The flush point: every entry is discarded, but one that began a packet in this cycle (R241). -/
def Dev.flushQueue (d : Dev) (q : QueueId) : Dev :=
  let keep := d.now.pushed.any fun p => p.1 == q && !p.2
  d.updQueue q fun x =>
    let kept := if keep then match (x.head ++ x.tail).getLast? with
        | some e => if e.sop then [e] else []
        | none => []
      else []
    let gone := decide (kept.length < x.count)
    { x with
      fl := x.fl || (x.reading && gone), head := kept, ringAt := 0, ringN := 0, tail := [], flushing := false
      pkts := (kept.filter fun e => e.eop).length, reading := x.reading && !gone }

/-- The flush points of a cycle are reached, after its pops and pushes (R241): the first write-side packet boundary at or after
the request. -/
def Dev.flushCycle (d : Dev) : Dev :=
  ((List.finRange 32).filter fun q => (d.queue q).flushing).foldl (fun (d : Dev) q =>
    let x := d.queue q
    let open_ := match d.now.pushed.find? fun p => p.1 == q with
      | some p => p.2
      | none => x.inPkt
    if open_ && x.inPkt then d else d.flushQueue q) d

/-- QUE_CTL (R241): a flush is requested. -/
def Dev.wrQueCtl (d : Dev) (q : QueueId) (v : Word) : Dev := if bitOf v 0 then d.updQueue q fun x => { x with flushing := true } else d

/-- QUE_CFG, QUE_RING, QUE_NOTE (R243, Table 8.21). A write refused for en or ring_log still writes note_en, and clearing en
closes a packet that is open on the write side (DESIGN CHOICE, log 49). -/
def Dev.wrQueReg (d : Dev) (q : QueueId) (r : QueReg) (v : Word) : Dev :=
  let x := d.queue q
  let busy := decide (x.count ≠ 0) || x.flushing
  match r with
  | .note => d.swWrite (aQue q 0x1010) v
  | .ring =>
    let a := aQue q 0x1008
    if busy && fld v 0 39 != fld (d.reg a) 0 39 then d.ignored a v else d.swWrite a v
  | .cfg =>
    let a := aQue q 0x1000
    let old := d.reg a
    let n := fld v 1 5
    let bad := decide (n ≠ 0) && (decide (n < 16) || decide (28 < n))
    let v' := if bad then setFld v 1 5 0 else v
    if busy && fld v' 0 6 != fld old 0 6 then (d.swWrite a (setFld v' 0 6 (fld old 0 6))).ignored a v
    else
      let d := d.swWrite a v'
      let d := if bitOf v' 0 && !bitOf old 0 then d.updQueue q fun x => { x with seq := 0 } else d
      let d := if !bitOf v' 0 then d.updQueue q fun x => { x with inPkt := false } else d
      if bad then d.ignored a v else d

/-! Fabric hod registers (R235). -/

/-- FH_CMD_n. -/
def Dev.wrFhCmd (d : Dev) (n : FhId) (v : Word) : Dev × Res :=
  let c := fld v 0 2
  if c = 0 then (d, .ok [])
  else if 12 ≤ n.val then (d.ignored (aFh n 0x40) v, .ok [])
  else if 16 ≤ (d.hub.fhq.get n).length || d.hub.fhWait.any fun x => x.1 == n then (d, .wait)
  else (d.updHub fun h => { h with fhq := vmap h.fhq n fun q => q ++ [c] }, .ok [])

/-- FH_STAT_n fault is W1C; a fault of this cycle stays (R242). -/
def Dev.wrFhStat (d : Dev) (n : FhId) (v : Word) : Dev :=
  if bitOf v 15 && !(d.now.sets.any fun e => e.addr == aFh n 0x48) then
    d.updHub fun h => { h with fsds := vmap h.fsds n fun s => { s with fault := false } }
  else d

/-! Dispatch by page. -/

/-- An 8-byte write to a register of a hub or always-on page. -/
def Dev.wrPage (d : Dev) (g o : Nat) (v : Word) : Dev × Res :=
  let a := regAddr g o
  let ok := fun (d : Dev) => (d, Res.ok [])
  match g with
  | 0x0002 =>
    if o = 8 then ok (d.wrDomTgt v)
    else if o = 0x20 then ok (d.wrCoreTgt 0 v)
    else if o = 0x28 then ok (d.wrCoreTgt 1 v)
    else if o = 0xA8 then ok (d.wrPinCtl v)
    else ok (d.swWrite a v)
  | 0x0004 => if o = 0x10 then ok (d.wrEvrCur v) else ok (d.swWrite a v)
  | 0x0005 => if o = 0x7F8 then ok (d.wrCntCtl (aAcnt 0) v) else ok (d.swWrite a v)
  | 0x0006 => if o < 0x800 then ok (d.wrCtlp (finOf 1 (o / 0x400)) (o % 0x400) v) else ok d
  | 0x0102 =>
    if 0x800 ≤ o then ok d
    else if o % 0x80 = 0x40 then d.wrFhCmd (finOf 15 (o / 0x80)) v
    else if o % 0x80 = 0x48 then ok (d.wrFhStat (finOf 15 (o / 0x80)) v)
    else ok (d.swWrite a v)
  | 0x0103 =>
    if o = 8 then ok ((if bitOf v 0 && d.hub.crs.state ≠ 1 then d.courseLinks else d).wrFabCrs v)
    else if o = 0x10 then ok (d.wrFabCoord v)
    else if o = 0x28 then ok (d.wrEpoch v)
    else if 0x100 ≤ o && o < 0x280 && o % 0x20 = 0 then ok (d.wrLnkCfg (finOf 11 ((o - 0x100) / 0x20)) v)
    else ok (d.swWrite a v)
  | 0x0106 => if o < 0x400 && o % 0x10 = 0 then ok (d.wrKsCfg (finOf 63 (o / 0x10)) v) else ok (d.swWrite a v)
  | 0x0107 => if o < 0x200 && o % 0x80 = 0x40 then ok (d.colStart (finOf 3 (o / 0x80)) v) else ok (d.swWrite a v)
  | 0x0108 => if o = 0 then ok (d.wrRplCtl v) else if o = 8 then ok (d.wrRplRing v) else ok (d.swWrite a v)
  | 0x0109 => if o = 0 then ok (d.wrCkpBase v) else ok (d.swWrite a v)
  | 0x010C =>
    if o = 0 then ok (d.wrPlbCtl v) else if o = 0x10 then ok (d.wrPlbAt v) else if o = 0x18 then ok (d.wrPlbSel v) else ok (d.swWrite a v)
  | 0x010E => if o = 0x7F8 then ok (d.wrCntCtl (aHcnt 0) v) else ok (d.swWrite a v)
  | _ =>
    if 0x120 ≤ g && g < 0x140 then
      let q : QueueId := finOf 31 (g - 0x120)
      match o with
      | 0x1000 => ok (d.wrQueReg q .cfg v)
      | 0x1008 => ok (d.wrQueReg q .ring v)
      | 0x1010 => ok (d.wrQueReg q .note v)
      | 0x1018 => ok (d.wrQueCtl q v)
      | _ => ok (d.swWrite a v)
    else ok (d.swWrite a v)

/-- A window of register space that is no register: pop and push windows of a spill queue, transmit windows. -/
def wideWindow (g o : Nat) : Bool := (decide (0x120 ≤ g) && decide (g < 0x140) && decide (o < 0x80)) || (g == 0x10A && decide (0x4000 ≤ o) && decide (o < 0x6000))

/-- A page has served an access in this cycle (R392). -/
def Dev.servePage (d : Dev) (g : Nat) : Dev :=
  if d.now.pages.contains g then d else { d with now := { d.now with pages := g :: d.now.pages } }

/-- An aligned 8-byte write to register space (R12, R390). -/
def Dev.regWrite (d : Dev) (a : Nat) (v : Word) : Dev × Res :=
  let g := (a - regBase) / 0x10000
  let o := a % 0x10000
  if !d.pageOn a then (d, .bad 1)
  else if a % 8 ≠ 0 || wideWindow g o then (d.refusedAccess a 8 true, .ok [])
  else if 0x1000 ≤ g && g < 0x1800 then ((d.servePage g).wrCorePage (finOf 127 ((g - 0x1000) / 16)) (g % 16) o v, .ok [])
  else (d.servePage g).wrPage g o v

/-! Local addresses. -/

/-- A write of 8 bytes to a local address, 8-byte aligned or not. -/
def Dev.write8 (d : Dev) (a : Nat) (v : Word) : Dev × Res :=
  match region a with
  | .regs => d.regWrite a v
  | .desc c o =>
    if !d.coreOn c then (d, .bad 1)
    else if descAllowed o 8 then (d.descSet8 c o v, .ok [])
    else (d.refusedAccess a 8 true, .ok [])
  | .bed c x t o =>
    if !d.coreOn c then (d, .bad 1)
    else if a % 8 ≠ 0 then (d.refusedAccess a 8 true, .ok [])
    else (d.bedWrite c x t o (leBytes 8 v.toNat), .ok [])
  | .flash _ => if d.reachable a then (d.refusedAccess a 8 true, .ok []) else (d, .bad 1)
  | _ => d.memWrite a (leBytes 8 v.toNat)

/-- The fabric hod whose command register an address is. -/
def fhCommandOf (a : Nat) : Option FhId := (List.finRange 16).find? fun n => a == aFh n 0x40

/-- A write of 8 bytes that completes later where it must wait: a stack in SELF-REFRESH takes it when it wakes, the queue of a
fabric hod when an entry frees (R235). -/
def Dev.write8Later (d : Dev) (a : Nat) (v : Word) : Dev :=
  let r := d.write8 a v
  if r.2 ≠ .wait then r.1
  else match fhCommandOf a with
    | some n => r.1.updHub fun h => { h with fhWait := h.fhWait ++ [(n, fld v 0 2)] }
    | none => r.1.wrMem a (leBytes 8 v.toNat)

/-- The write of the value 1 that a post or a notice makes to a global unicast address (R226, R238, R266). -/
def Dev.notify (d : Dev) (l : Option LastId) (g : Word) : Dev :=
  match d.targetOf g with
  | .here a => d.write8Later a 1
  | .away _ _ => d.sendWrite (.notify l) g (leBytes 8 1)
  | .group _ _ => d

/-- A register write that a command names: an 8-byte write to its address. -/
def Dev.wr8 (d : Dev) (a : Nat) (v : Word) : Dev := (d.write8 a v).1

end Sys2Proof.Machine
end

