-- ==== Sys2Proof/Machine/Bus.lean ====
section
/-!
DEFINITION. The accesses that every master makes to local addresses (R203 to R209, R236 to R241, R318, R390): reads,
writes, atomic adds, and ranges of them.
-/

namespace Sys2Proof.Machine

/-! Spill queues (R236 to R241). -/

def Dev.queFull (d : Dev) (q : QueueId) : Bool := decide (d.queCap q ≤ (d.queue q).count)

/-- The queue's registers take what they can: the ring gives its oldest entry to the head, the tail gives its oldest to the head
while the ring is empty, and to the ring when more than 64 are in it (R236; when entries move is a DESIGN CHOICE, log 16). A
single-bit error is corrected on the way to the head (R240). -/
def Dev.queMove (d : Dev) (q : QueueId) : Dev :=
  let x := d.queue q
  let toHead := fun (d : Dev) (e : QEntry) (f : Queue → Queue) =>
    let n := (e.ecc.filter fun y => !y.2).length
    let d := if n = 0 then d else d.hwInc (aQue q 0x1028) 0 16 n
    d.updQueue q fun y => { f y with head := y.head ++ [{ e with ecc := e.ecc.filter fun y => y.2 }] }
  if x.head.length < 64 && x.ringN ≠ 0 then
    let a := d.ringAddr q x.ringAt
    if !d.hbmAwake a then d.hbmWake a
    else
      let marks := (d.eccIn a 64).map fun e => ((e.1 - a) / 8, e.2)
      let d := (d.eccRead a 64).1
      toHead d { QEntry.ofRing (d.rdMem a 64) with ecc := marks } fun y => { y with ringAt := (y.ringAt + 1) % max 1 (d.ringSize q), ringN := y.ringN - 1 }
  else match x.tail with
    | [] => d
    | e :: rest =>
      if x.head.length < 64 then toHead d e fun y => { y with tail := rest }
      else if x.tail.length ≤ 64 then d
      else
        let a := d.ringAddr q (x.ringAt + x.ringN)
        if !d.hbmAwake a then d.hbmWake a
        else
          let d := d.wrMem a e.toBytes
          { d with ecc := d.ecc ++ e.ecc.map fun (y : Nat × Bool) => (a + 8 * y.1, y.2) }.updQueue q fun y => { y with tail := rest, ringN := y.ringN + 1 }

/-- The moves that follow a push or a pop. -/
def Dev.queMoves (d : Dev) (q : QueueId) : Dev := (d.queMove q).queMove q

/-- An enabled queue with room accepts an entry: its packet may complete, and a notice may leave (R238). An entry that a gate
port or the fabric pushes is recorded (R285). -/
def Dev.queAccept (d : Dev) (q : QueueId) (bs : List Byte) (ext : Bool) : Dev :=
  let x := d.queue q
  let e := QEntry.ofBytes bs x.seq
  let d := if ext then d.record (if q.val < 16 then 2 else 3) q.val (padTo 64 bs) else d
  let d := { d with now := { d.now with pushed := d.now.pushed ++ [(q, x.inPkt)] } }
  let d := d.updQueue q fun x => { x with
    tail := x.tail ++ [e], seq := x.seq + 1, pkts := x.pkts + b2n e.eop, inPkt := if e.eop then false else x.inPkt || e.sop }
  let d := (d.hcnt (61 + 2 * q.val) 1).queMoves q
  if e.eop && bitOf (d.reg (aQue q 0x1000)) 6 then (d.hcnt 125 1).notify none (d.reg (aQue q 0x1010)) else d

/-- A gate port is in the midst of pushing a datagram into the queue: no other entry comes between its grants (R316). -/
def Dev.queTaken (d : Dev) (q : QueueId) : Bool :=
  allGates.any fun g => (d.gate g).rest.isSome && match (d.gate g).rx with
    | x :: _ => x.1 == q
    | [] => false

/-- A push that is granted unless the queue is full or has served one in this cycle (R236). -/
def Dev.queTry (d : Dev) (q : QueueId) (bs : List Byte) (ext : Bool) : Dev × Res :=
  if !bitOf (d.reg (aQue q 0x1000)) 0 then (d.hwInc (aQue q 0x1028) 32 16 1, .ok [])
  else if d.queFull q || d.now.pushed.any (fun p => p.1 == q) then (d, .wait)
  else (d.queAccept q bs ext, .ok [])

/-- A push (R236, R238): it also waits behind pushes that wait, and while a gate port's datagram has the queue. -/
def Dev.quePush (d : Dev) (q : QueueId) (bs : List Byte) (ext : Bool) : Dev × Res :=
  if bitOf (d.reg (aQue q 0x1000)) 0 && (!(d.queue q).waiting.isEmpty || d.queTaken q) then (d, .wait)
  else d.queTry q bs ext

/-- A pop (R236, R239, R240): one in a cycle. -/
def Dev.quePop (d : Dev) (q : QueueId) : Dev × Res :=
  if d.now.popped.contains q then (d, .wait)
  else
    let d := (d.queMoves q)
    let x := d.queue q
    match x.head with
    | [] =>
      if x.count ≠ 0 then (d, .wait)
      else
        let d := { d with now := { d.now with popped := q :: d.now.popped } }
        (d.updQueue q fun x => { x with fl := false }, .ok (leBytes 8 (mkWord [(4, b2n x.fl)]).toNat ++ zeros 56))
    | e :: rest =>
      let d := { d with now := { d.now with popped := q :: d.now.popped } }
      let d := d.updQueue q fun x => { x with head := rest, pkts := x.pkts - b2n e.eop, reading := !e.eop }
      let n := (e.ecc.filter fun y => !y.2).length
      let d := if n = 0 then d else d.hwInc (aQue q 0x1028) 0 16 n
      let d := if e.broken then
          let w := (d.hwInc (aQue q 0x1028) 16 16 1).free
          w.2.event 0x4001 2 (leBytes 1 4 ++ leBytes 1 q.val ++ leBytes 8 w.1.toNat)
        else d
      ((d.hcnt (62 + 2 * q.val) 1).queMoves q, .ok e.toBytes)

/-! Gate transmit windows (R318). -/

def Dev.gateCount (d : Dev) (g : GateId) (i : Nat) : Dev := d.hwInc (aGateCnt g i) 0 64 1

/-- A packet is discarded: tx_drop, and an event where the rule says so. -/
def Dev.gateDrop (d : Dev) (g : GateId) (flow : Option Nat) : Dev :=
  let d := d.gateCount g 6
  match flow with
  | some f => d.event 0x4003 1 (leBytes 1 g.val ++ leBytes 2 f)
  | none => d

/-- Egress flow entry `f` (Table 11.14). -/
def Dev.egress (d : Dev) (f : Nat) : List Byte := (List.range 8).flatMap fun i => leBytes 8 (d.reg (aGef (0x40 * f + 8 * i))).toNat

/-- Own MAC address of a gate port, its IPv6 address and its IPv4 address as ::ffff:a.b.c.d (Table 11.7). -/
def Dev.gateOwn (d : Dev) (g : GateId) : Nat × Nat × Nat :=
  let b := d.aoc.svc.drop (128 + 64 * g.val)
  (leAt b 0 6, leAt b 8 16, leNat (zeros 10 ++ [0xFF, 0xFF] ++ leBytes 4 (leAt b 24 4)))

/-- The frame of an egress entry on a gate port (R318): its own addresses as source, nbp_port where the entry has no port. -/
def Dev.gateFrameOf (d : Dev) (g : GateId) (flow : Nat) (entry data : List Byte) : GateFrame :=
  let own := d.gateOwn g
  let dip := leAt entry 8 16
  let nbp := if leAt d.aoc.svc 52 2 = 0 then 52471 else leAt d.aoc.svc 52 2
  { flow := flow, dmac := leAt entry 0 6, smac := own.1, vlan := leAt entry 6 2, dip := dip
    sip := if dip % 2 ^ 96 = 0xFFFF * 2 ^ 80 then own.2.2 else own.2.1
    dport := leAt entry 24 2, sport := if leAt entry 26 2 = 0 then nbp else leAt entry 26 2, data := data }

/-- A packet's eop entry was accepted: the frame is built and queued, or the packet is discarded. -/
def Dev.gateClose (d : Dev) (g : GateId) (es : List QEntry) : Dev :=
  let flow := match es with
    | e :: _ => e.source.toNat % 1024
    | [] => 0
  let data := es.flatMap fun e => e.data.take e.bytes
  let entry := d.egress flow
  if leAt entry 29 1 % 2 = 0 || 9000 < data.length then d.gateDrop g (some flow)
  else
    let o : GateId := finOf 1 (leAt entry 28 1)
    d.updGate o fun x => { x with tx := x.tx ++ [d.gateFrameOf o flow entry data] }

/-- The transmit buffer of the port that a packet's frame goes to has no room for it (R318). -/
def Dev.gateFull (d : Dev) (g : GateId) (e : QEntry) : Bool :=
  let first := if e.sop then e else ((d.gate g).opened.bind fun l => l.head?).getD e
  let o : GateId := finOf 1 (leAt (d.egress (first.source.toNat % 1024)) 28 1)
  decide (gateBuf < (d.gate g).txBytes + 9000) || decide (gateBuf < (d.gate o).txBytes + 9000)

/-- An entry pushed into a transmit window. An entry that neither begins a packet nor continues one belongs to none. -/
def Dev.gatePush (d : Dev) (g : GateId) (bs : List Byte) : Dev × Res :=
  let x := d.gate g
  let e := QEntry.ofBytes bs 0
  if d.gateFull g e then (d, .wait)
  else
    let d := if e.sop && x.opened.isSome then d.gateDrop g none else d
    let es := if e.sop then some [e] else x.opened.map fun l => l ++ [e]
    match es with
    | none => (d, .ok [])
    | some es =>
      if e.eop then ((d.updGate g fun x => { x with opened := none }).gateClose g es, .ok [])
      else (d.updGate g fun x => { x with opened := some es }, .ok [])

/-! Register space (R12, R390). -/

/-- A refused read returns 0. -/
def Dev.refuseRead (d : Dev) (a n : Nat) : Dev × Res := (d.refusedAccess a n false, .ok (zeros n))
def Dev.refuseWrite (d : Dev) (a n : Nat) : Dev × Res := (d.refusedAccess a n true, .ok [])

/-- A page of register space takes an access of a range in this cycle: it has served none yet (R392). The windows of the spill queues and the
transmit windows have rules of their own. -/
def Dev.pageFree (d : Dev) (a : Nat) : Bool :=
  region a != .regs || wideWindow ((a - regBase) / 0x10000) (a % 0x10000) || !d.now.pages.contains ((a - regBase) / 0x10000)

/-- Windows that take 8, 16, 32 or 64 bytes: stream descriptors, collective descriptors (R242, R280), and the event window
(R385). -/
def multiWindow (g o : Nat) : Bool :=
  (g == 0x102 && decide (o < 0x800) && decide (o % 0x80 < 0x40)) || (g == 0x107 && decide (o < 0x200) && decide (o % 0x80 < 0x40)) ||
  (g == 4 && decide (0x40 ≤ o) && decide (o < 0x80))

def wideOk (a n : Nat) : Bool := (n == 8 || n == 16 || n == 32 || n == 64) && a % n == 0

/-- The words of register space, read. -/
def Dev.viewBytes (d : Dev) (a n : Nat) : List Byte := (List.range (n / 8)).flatMap fun i => leBytes 8 (d.atStart.view (a + 8 * i)).toNat

/-- A read of register space, which returns what stood when the cycle began (R392). A 64-byte read of a push window or a transmit window, of which the manual gives the write alone,
returns 0 and is not refused; one of another width is refused as on any page (DESIGN CHOICE, log 47). -/
def Dev.regRead (d : Dev) (a n : Nat) : Dev × Res :=
  let g := (a - regBase) / 0x10000
  let o := a % 0x10000
  if !d.pageOn a then (d, .bad 1)
  else if decide (0x120 ≤ g) && decide (g < 0x140) && decide (o < 0x80) then
    (if o < 0x40 then
      (if n = 64 && o = 0 then
        d.quePop (finOf 31 (g - 0x120))
       else d.refuseRead a n)
     else if n = 64 && a % 64 = 0 then (d, .ok (zeros n)) else d.refuseRead a n)
  else if wideWindow g o then (if n = 64 && a % 64 = 0 then (d, .ok (zeros n)) else d.refuseRead a n)
  else if multiWindow g o then
    (if wideOk a n then
      let bs := d.viewBytes a n
      let d := d.servePage g
      (if g = 4 && o + n = 0x80 then d.evrAdvance else d, .ok bs)
     else d.refuseRead a n)
  else if n = 8 && a % 8 = 0 then (d.servePage g, .ok (leBytes 8 (d.atStart.view a).toNat))
  else d.refuseRead a n

/-- A write of register space. An entry that the fabric pushes into Q16 to Q31 is an external input (R285). -/
def Dev.regWriteN (d : Dev) (a : Nat) (bs : List Byte) (who : Master := .hub) : Dev × Res :=
  let g := (a - regBase) / 0x10000
  let o := a % 0x10000
  let n := bs.length
  if !d.pageOn a then (d, .bad 1)
  else if decide (0x120 ≤ g) && decide (g < 0x140) && decide (o < 0x80) then
    (if n = 64 && o = 0x40 then d.quePush (finOf 31 (g - 0x120)) bs (who == .fabric && decide (0x130 ≤ g)) else d.refuseWrite a n)
  else if wideWindow g o then
    (if n = 64 && a % 64 = 0 then d.gatePush (finOf 1 ((o - 0x4000) / 0x1000)) bs else d.refuseWrite a n)
  else if multiWindow g o && g ≠ 4 then
    (if wideOk a n then
      (foldIdx (fun (d : Dev) i w => (d.regWrite (a + 8 * i) w).1) 0 d (bytesToWords (n / 8) bs), .ok [])
     else d.refuseWrite a n)
  else if n = 8 && a % 8 = 0 then d.regWrite a (BitVec.ofNat 64 (leNat bs))
  else d.refuseWrite a n

/-! One access of at most 64 bytes, naturally aligned by its master. -/

def Dev.busRead (d : Dev) (a n : Nat) : Dev × Res :=
  let get := fun (d : Dev) =>
    let e := d.eccRead a n
    match e.2 with
    | some _ => (e.1, Res.bad 2)
    | none => (e.1, .ok (e.1.rdMem a n))
  match region a with
  | .hbm =>
    if !d.reachable a then (d, .bad 1)
    else if !d.hbmAwake a then (d.hbmWake a, .wait)
    else get (d.hcnt (37 + 3 * (d.stackOf a).val) 1)
  | .stock _ _ => if d.reachable a then get d else (d, .bad 1)
  | .bed c x t o =>
    if !d.coreOn c then (d, .bad 1)
    else if wideOk a n then
      let r := d.bedRead c x t o n
      (r.1, .ok r.2)
    else d.refuseRead a n
  | .desc c o =>
    if !d.coreOn c then (d, .bad 1)
    else if descAllowed o n then (d, .ok ((List.range (n / 8)).flatMap fun i => leBytes 8 (d.descWord8 c (o + 8 * i)).toNat))
    else d.refuseRead a n
  | .regs => d.regRead a n
  | .flash _ => if d.reachable a then (d, .ok (d.rdMem a n)) else (d, .bad 1)
  | .dram _ => if d.reachable a then (d, .ok (d.rdMem a n)) else (d, .bad 1)
  | .unmapped => (d, .bad 1)

def Dev.busWrite (d : Dev) (a : Nat) (bs : List Byte) (who : Master := .hub) : Dev × Res :=
  let n := bs.length
  match region a with
  | .hbm | .stock _ _ | .dram _ | .unmapped => d.memWrite a bs who
  | .bed c x t o =>
    if !d.coreOn c then (d, .bad 1)
    else if wideOk a n then (d.bedWrite c x t o bs, .ok [])
    else d.refuseWrite a n
  | .desc c o =>
    if !d.coreOn c then (d, .bad 1)
    else if descAllowed o n then
      (foldIdx (fun (d : Dev) i w => d.descSet8 c (o + 8 * i) w) 0 d (bytesToWords (n / 8) bs), .ok [])
    else d.refuseWrite a n
  | .regs => d.regWriteN a bs who
  | .flash _ => if d.reachable a then d.refuseWrite a n else (d, .bad 1)

/-- AADD at its target (R183): 8 bytes of HBM or stock; the old value is returned. -/
def Dev.busAtomic (d : Dev) (a : Nat) (v : Word) (who : Master := .hub) : Dev × Res :=
  let there := match region a with
    | .hbm | .stock _ _ => true
    | _ => false
  if !there then (d, if d.reachable a then .bad 4 else .bad 1)
  else
    let r := d.busRead a 8
    match r.2 with
    | .ok bs =>
      let w := r.1.memWrite a (leBytes 8 (leNat bs + v.toNat)) who
      (match w.2 with
        | .ok _ => (w.1, .ok bs)
        | x => (w.1, x))
    | x => (r.1, x)

/-! Accesses of a range. Those of one command are served one after the other; the first waits while its page has served another access in
this cycle (R392, DESIGN CHOICE, log 62). -/

def Dev.accRead (d : Dev) (a n : Nat) : Dev × Res := if d.pageFree a then d.busRead a n else (d, .wait)
def Dev.accWrite (d : Dev) (a : Nat) (bs : List Byte) (who : Master := .hub) : Dev × Res :=
  if d.pageFree a then d.busWrite a bs who else (d, .wait)

/-- The largest naturally aligned access at `a` of at most `n` and `cap` bytes. -/
def natural (cap a n : Nat) : Nat :=
  if cap ≥ 64 && a % 64 = 0 && n ≥ 64 then 64
  else if cap ≥ 32 && a % 32 = 0 && n ≥ 32 then 32
  else if cap ≥ 16 && a % 16 = 0 && n ≥ 16 then 16
  else if a % 8 = 0 && n ≥ 8 then 8
  else if a % 4 = 0 && n ≥ 4 then 4
  else if a % 2 = 0 && n ≥ 2 then 2
  else 1

/-- The accesses of a range, ascending: address and width. -/
def split (cap : Nat) : Nat → Nat → Nat → List (Nat × Nat)
  | 0, _, _ => []
  | f + 1, a, n =>
    if n = 0 then []
    else
      let k := natural cap a n
      (a, k) :: split cap f (a + k) (n - k)

/-- A range is read in ascending accesses; it ends at the first that does not succeed. -/
def Dev.rangeRead (d : Dev) (cap a n : Nat) : Dev × Res :=
  if !d.pageFree a then (d, .wait) else
  (split cap n a n).foldl (fun (s : Dev × Res) x =>
    match s.2 with
    | .ok bs =>
      let r := s.1.busRead x.1 x.2
      (match r.2 with
        | .ok b => (r.1, .ok (bs ++ b))
        | y => (r.1, y))
    | _ => s) (d, .ok [])

/-- A range is written in ascending accesses; it ends at the first that does not succeed. The number of bytes written. -/
def Dev.rangePut (d : Dev) (cap a : Nat) (bs : List Byte) (who : Master := .hub) : Dev × Res × Nat :=
  if !d.pageFree a then (d, .wait, 0) else
  (split cap bs.length a bs.length).foldl (fun (s : Dev × Res × Nat) x =>
    match s.2.1 with
    | .ok _ =>
      let r := s.1.busWrite x.1 ((bs.drop (x.1 - a)).take x.2) who
      (r.1, r.2, match r.2 with
        | .ok _ => s.2.2 + x.2
        | _ => s.2.2)
    | _ => s) (d, .ok [], 0)

end Sys2Proof.Machine
end

