-- ==== Sys2Proof/Machine/Special.lean ====
section
/-!
DEFINITION. The special functions (R121 to R127). A result lies within the accuracy bound of Table 5.6 of the value rounded
to nearest even and keeps the order of R126; which of the results so allowed it is, is free (DESIGN CHOICE, log 8). The value itself is
formed from a rational that lies closer to it than 2^-600.
-/

namespace Sys2Proof.Machine

/-! Rational approximations, in fixed point with `sfP` fraction bits. -/

def sfP : Nat := 768
def sfOne : Int := ((2 ^ sfP : Nat) : Int)
def toFx (q : Rat) : Int := (q * (sfOne : Rat)).floor
def ofFx (i : Int) : Rat := mkRat i (2 ^ sfP)
def fxMul (a b : Int) : Int := a * b / sfOne

/-- Σ t(n), t(n+1) = t(n) × r / (n + 1). -/
def expTerms (r : Int) : Nat → Nat → Int → Int
  | 0, _, _ => 0
  | f + 1, n, t => t + expTerms r f (n + 1) (fxMul t r / ((n + 1 : Nat) : Int))

def sqTimes : Nat → Int → Int
  | 0, v => v
  | n + 1, v => sqTimes n (fxMul v v)

/-- e^x; beyond ±256 the value at ±256. -/
def expQ (x : Rat) : Rat :=
  let a := if qabs x > 256 then 256 else qabs x
  let v := ofFx (sqTimes 9 (expTerms (toFx (a / 512)) 150 0 sfOne))
  if x < 0 then 1 / v else v

/-- Σ z^(2n+1) s^n / (2n+1) with s = ±1. -/
def arcTerms (z2 : Int) (neg : Bool) : Nat → Nat → Int → Int
  | 0, _, _ => 0
  | f + 1, n, t => t / ((2 * n + 1 : Nat) : Int) + arcTerms z2 neg f (n + 1) (if neg then -(fxMul t z2) else fxMul t z2)

def atanhQ (z : Rat) : Rat := ofFx (arcTerms (toFx (z * z)) false 250 0 (toFx z))
def atanQ (z : Rat) : Rat := ofFx (arcTerms (toFx (z * z)) true 180 0 (toFx z))
def ln2Q : Rat := 2 * atanhQ (1 / 3)
def piQ : Rat := 16 * atanQ (1 / 5) - 4 * atanQ (1 / 239)

/-- ln q of a positive rational. -/
def lnQ (q : Rat) : Rat :=
  let e := flog2 q
  let m := q / pow2 e
  2 * atanhQ ((m - 1) / (m + 1)) + (e : Rat) * ln2Q

/-- √q of a nonnegative rational. -/
def rootQ (q : Rat) : Rat := mkRat (isqrt (toFx q * sfOne).toNat) (2 ^ sfP)

/-- t(n+1) = t(n) × u / (2n + 3). -/
def erfTerms (u : Int) : Nat → Nat → Int → Int
  | 0, _, _ => 0
  | f + 1, n, t => t + erfTerms u f (n + 1) (fxMul t u / ((2 * n + 3 : Nat) : Int))

/-- erf z of 0 ≤ z; beyond 12 the value at 12. -/
def erfQ (z : Rat) : Rat :=
  let z := if z > 12 then 12 else z
  2 / rootQ piQ * expQ (-(z * z)) * ofFx (erfTerms (toFx (2 * z * z)) 1300 0 (toFx z))

def clampQ (m x : Rat) : Rat := if x > m then m else if x < -m then -m else x

/-- A negative value that lies below every format's range: it stands for that of GELU and SILU beyond the largest seam, whose
result there is 0 (R124, R125). -/
def sfTiny : Rat := -(pow2 (-400))

/-- The function's value at a nonzero real argument of its domain (Table 5.6). -/
def sfValue (fn : Nat) (x : Rat) : Rat :=
  match fn with
  | 0 => expQ x
  | 1 => if x.den = 1 then pow2 (max (-400) (min 400 x.num)) else expQ (clampQ 256 x * ln2Q)
  | 2 => lnQ x
  | 3 => let e := flog2 x
    if pow2 e = x then (e : Rat) else lnQ x / ln2Q
  | 4 => 1 / x
  | 5 => let e := flog2 x
    if pow2 e = x && e % 2 = 0 then pow2 (-(e / 2)) else 1 / rootQ x
  | 6 => sqrtApprox x
  | 7 => 1 / (1 + expQ (-x))
  | 8 => let t := expQ (2 * clampQ 64 x)
    (t - 1) / (t + 1)
  | 9 => if x < 0 then -(erfQ (-x)) else erfQ x
  | 10 =>
    let r := erfQ (clampQ 17 (qabs x) / rootQ 2)
    if x ≤ -16 then sfTiny else if x < 0 then x * (1 - r) / 2 else if x ≥ 16 then x else x * (1 + r) / 2
  | 11 => if x ≥ 128 then x else if x ≤ -128 then sfTiny else x / (1 + expQ (-x))
  | _ => if x ≥ 128 then x else lnQ (1 + expQ x)

/-- Arguments with an exact result among Table 5.7, and every exact square root. -/
def sfExact (fn : Nat) (x : Rat) : Bool :=
  match fn with
  | 1 => x.den == 1
  | 3 => pow2 (flog2 x) == x
  | 4 => pow2 (flog2 (qabs x)) == qabs x
  | 5 => pow2 (flog2 x) == x && flog2 x % 2 == 0
  | 6 => decide (sqrtApprox x * sqrtApprox x = x)
  | 2 => x == 1
  | _ => false

/-- Accuracy bound d of Table 5.6. -/
def sfBound (fn : Nat) (f : Fmt) : Nat := if fn = 6 then 0 else if f = .p16 then 1 else 2

/-- Beyond the largest seam (Table 5.10). -/
def sfBeyond (fn : Nat) (x : Rat) : Bool :=
  match fn with
  | 10 => decide (qabs x ≥ 16)
  | 11 | 12 => decide (qabs x ≥ 128)
  | _ => false

/-- A pattern's place in the order of its format, and back. -/
def sfOrd (f : Fmt) (p : Nat) : Int :=
  if f = .fp32 then (if p ≥ 2 ^ 31 then -((p - 2 ^ 31 : Nat) : Int) else (p : Int)) else signed f.width p

def sfPat (f : Fmt) (i : Int) : Nat :=
  if f = .fp32 then (if i < 0 then 2 ^ 31 + i.natAbs else i.natAbs) else lowBits f.width i

def sfNan (f : Fmt) : Nat := if f = .fp32 then 0x7FC00000 else 2 ^ (f.width - 1)

/-- The largest place in the order whose value is at most `q`, and the smallest whose value is at least `q`. -/
def sfLow (f : Fmt) (q : Rat) : Int :=
  let i := sfOrd f (convert f Rnd.rne (.ofRat q)).pat
  match decodeElem f 0 (sfPat f i) with
  | .num v _ => if v > q then i - 1 else i
  | _ => i

def sfHigh (f : Fmt) (q : Rat) : Int :=
  let i := sfOrd f (convert f Rnd.rne (.ofRat q)).pat
  match decodeElem f 0 (sfPat f i) with
  | .num v _ => if v < q then i + 1 else i
  | _ => i

/-- Between which places the result must lie, by the limits of R124 and by the order of R126 towards the exact points of
Table 5.7 and the results beyond the largest seam (Table 5.10). -/
def sfSpan (fn : Nat) (f : Fmt) (x : Rat) : Int × Int :=
  let top : Int := if f = .fp32 then 0x7F7FFFFF else 2 ^ (f.width - 1) - 1
  let at_ := fun (q : Rat) => sfOrd f (convert f Rnd.rne (.ofRat q)).pat
  let e := flog2 (qabs x)
  let r : Int × Int := match fn with
    | 0 => if x < 0 then (0, at_ 1) else (at_ 1, top)
    | 1 => (max 0 (sfLow f (pow2 (max (-400) (min 400 x.floor)))), sfHigh f (pow2 (max (-400) (min 400 x.ceil))))
    | 2 => if x < 1 then (-top, 0) else (0, top)
    | 3 => (sfLow f (e : Rat), sfHigh f ((e + 1 : Int) : Rat))
    | 4 => if x < 0 then (sfLow f (-(pow2 (-e))), sfHigh f (-(pow2 (-(e + 1))))) else (sfLow f (pow2 (-(e + 1))), sfHigh f (pow2 (-e)))
    | 5 => (sfLow f (pow2 (-(e / 2 + 1))), sfHigh f (pow2 (-(e / 2))))
    | 7 => if x < 0 then (0, at_ (1 / 2)) else (at_ (1 / 2), at_ 1)
    | 8 | 9 => (0, at_ 1)
    | 10 => if x < 0 then (-top, 0) else (0, at_ 16)
    | 11 => if x < 0 then (-top, 0) else (0, at_ 128)
    | 12 => (0, at_ 128)
    | _ => (0, top)
  -- in FP32 a value below the smallest subnormal is rounded as IEEE says: one that is not stays off the zero (R124, R126)
  let y := sfValue fn x
  let far := f == .fp32 && decide (pow2 (-149) ≤ qabs y)
  let lo := if far && decide (0 < y) then max 1 r.1 else r.1
  let hi := if far && decide (y < 0) then min (-1) r.2 else r.2
  (max (-top) lo, min top hi)

/-- The place the unit takes before the bound is applied: by an unknown function that keeps the order on each interval of
the monotone column of Table 5.6, and by a free number of at most `d` places from `o` where there is no such entry. -/
def sfPick (fn : Nat) (f : Fmt) (code key : Nat) (x : Rat) (o d : Int) : Int :=
  let i := sfOrd f key
  let order := fun (br : Nat) (j : Int) => ((Config.sfuOrder fn code br (j + 2 ^ 31).toNat : Nat) : Int) - 2 ^ 31
  let free := o - d + ((Config.sfuResult fn code key % (2 * d.toNat + 1) : Nat) : Int)
  match fn with
  | 4 => order (if x < 0 then 1 else 0) (-i)
  | 5 => order 0 (-i)
  | 10 => if x ≥ -1 / 2 then order 0 i else if x ≤ -1 then order 1 (-i) else free
  | 11 => if x ≥ -1 then order 0 i else if x ≤ -2 then order 1 (-i) else free
  | _ => order 0 i

/-- The pattern at a place; a zero that stands for a value below zero keeps its sign in FP32. -/
def sfAt (f : Fmt) (neg : Bool) (i : Int) : Nat := if i = 0 && neg && f == .fp32 then 2 ^ 31 else sfPat f i

/-- A finite result that is no exact point: pattern and flags. `key` is the argument's pattern. A RECIP that overflows FP32 below zero gives
-infinity, as the order of R126 asks, where R124 names +infinity alone (DESIGN CHOICE, log 64). -/
def sfFinite (fn : Nat) (f : Fmt) (code key : Nat) (x : Rat) : Nat × Flags :=
  let y := sfValue fn x
  let posit := f != .fp32
  let n := f.width
  if posit && decide (qabs y < 1 / positTop n 2) && decide (y ≠ 0) then (0, fUN ||| fNX)
  else
    let r := convert f Rnd.rne (.ofRat y)
    let limit := match fn with
      | 7 => r.pat == (convert f Rnd.rne (.ofRat 1)).pat || r.pat == 0
      | 8 | 9 => sfOrd f r.pat == sfOrd f (convert f Rnd.rne (.ofRat 1)).pat || sfOrd f r.pat == -(sfOrd f (convert f Rnd.rne (.ofRat 1)).pat)
      | _ => false
    if sfExact fn x && r.fl = 0 then (r.pat, 0)
    else if limit || sfBeyond fn x || r.fl &&& fOV = fOV || (!posit && decide (qabs y < pow2 (-149))) then (r.pat, r.fl ||| fNX)
    else if sfBound fn f = 0 then (r.pat, r.fl ||| fNX)
    else
      let o := sfOrd f r.pat
      let d : Int := (sfBound fn f : Nat)
      let sp := sfSpan fn f x
      (sfAt f (decide (y < 0)) (max (max (o - d) sp.1) (min (min (o + d) sp.2) (sfPick fn f code key x o d))), r.fl ||| fNX)

/-- Negation of a pattern (R127). -/
def sfNeg (f : Fmt) (p : Nat) : Nat := if f = .fp32 then (p + 2 ^ 31) % 2 ^ 32 else (2 ^ f.width - p) % 2 ^ f.width

/-- A zero argument (Tables 5.7, 5.8). -/
def sfZero (fn : Nat) (f : Fmt) (code : Nat) (nz : Bool) : Nat × Flags :=
  let fp := f == .fp32
  let c := fun (q : Rat) => ((convert f Rnd.rne (.ofRat q)).pat, (0 : Flags))
  let z0 := if fp && nz then 2 ^ 31 else 0
  match fn with
  | 0 | 1 => c 1
  | 2 | 3 => (if fp then 0xFF800000 else sfNan f, fDZ)
  | 4 | 5 => (if fp then 0x7F800000 + z0 else sfNan f, fDZ)
  | 7 => c (1 / 2)
  | 12 => sfFinite 12 f code 0 0
  | _ => (z0, 0)

/-- An infinite argument (Table 5.8); a domain error below zero. -/
def sfInf (fn : Nat) (neg : Bool) : Nat × Flags :=
  let one := 0x3F800000
  let inf := 0x7F800000
  let sgn := 2 ^ 31
  match fn with
  | 0 | 1 | 12 => (if neg then 0 else inf, 0)
  | 7 => (if neg then 0 else one, 0)
  | 4 => (if neg then sgn else 0, 0)
  | 5 => if neg then (0x7FC00000, fNV) else (0, 0)
  | 2 | 3 | 6 => if neg then (0x7FC00000, fNV) else (inf, 0)
  | 8 | 9 => (if neg then one + sgn else one, 0)
  | _ => (if neg then sgn else inf, 0)

/-- One special function on one pattern (R121 to R124, R127): result pattern and flags. -/
def sfuEval (fn : Nat) (f : Fmt) (x : Nat) : Nat × Flags :=
  let code := match f with
    | .p16 => 1
    | .p32 => 2
    | _ => 6
  match decodeElem f 0 x with
  | .nar => (sfNan f, 0)
  | .nan s => (sfNan f, flagIf s fNV)
  | .inf neg => sfInf fn neg
  | .num q nz =>
    if q = 0 then sfZero fn f code nz
    else if q < 0 && (fn = 2 || fn = 3 || fn = 5 || fn = 6) then (sfNan f, fNV)
    else if q < 0 && (fn = 8 || fn = 9) then
      let r := sfFinite fn f code (sfNeg f x) (-q)
      (sfNeg f r.1, r.2)
    else sfFinite fn f code x q

end Sys2Proof.Machine
end

