-- ==== Sys2Proof/Machine/Planes.lean ====
section
/-!
DEFINITION. What the engines that work on the slice share (R112 to R116, R208, R209, R218, R221): planes of elements and
their addresses, rows in pieces, reads with ECC, results and the cycle of their write, and an operation's start and end.
-/

namespace Sys2Proof.Machine

/-! Planes. -/

/-- A plane of elements: `fmt` none for 32-bit words, `bc` its broadcast (R114). Addresses are local addresses. -/
structure Plane where
  base : Nat
  stride : Nat
  fmt : Option Fmt
  ebase : Nat
  estride : Nat
  bs : Nat
  bc : Nat
  deriving DecidableEq, Repr

def Plane.width (p : Plane) : Nat :=
  match p.fmt with
  | some f => f.width
  | none => 32

def Plane.isBlock (p : Plane) : Bool :=
  match p.fmt with
  | some f => f.isBlock
  | none => false

/-- Row and element that an operand supplies for element (r, e) (R114). -/
def Plane.at_ (p : Plane) (r e : Nat) : Nat × Nat := (if p.bc = 2 then 0 else r, if p.bc = 0 then e else 0)

/-- An element's pattern. -/
def Dev.elemPat (d : Dev) (p : Plane) (r e : Nat) : Nat :=
  let x := p.at_ r e
  let w := p.width
  let a := p.base + x.1 * p.stride + x.2 * w / 8
  if w = 4 then (if x.2 % 2 = 0 then (d.byte a).toNat % 16 else (d.byte a).toNat / 16) else leNat (d.rdMem a (w / 8))

/-- An element's block exponent (R16, R17); 0 outside block formats. -/
def Dev.elemExp (d : Dev) (p : Plane) (r e : Nat) : Int :=
  if p.isBlock then
    let x := p.at_ r e
    signed 8 (d.byte (p.ebase + x.1 * p.estride + x.2 / p.bs)).toNat
  else 0

/-- An element's value; a 32-bit word is a two's-complement integer. -/
def Dev.elemVal (d : Dev) (p : Plane) (r e : Nat) : Val :=
  match p.fmt with
  | some f => decodeElem f (d.elemExp p r e) (d.elemPat p r e)
  | none => .ofRat (signed 32 (d.elemPat p r e))

/-! Rows in pieces (R116, Table 10.5). -/

/-- The pieces of rows that the row-major indexes [lo, hi) make: row, first element, element after the last. -/
def pieces (cols : Nat) : Nat → Nat → Nat → List (Nat × Nat × Nat)
  | 0, _, _ => []
  | f + 1, lo, hi =>
    if hi ≤ lo then []
    else
      let r := lo / cols
      let e1 := min cols (hi - r * cols)
      (r, lo % cols, e1) :: pieces cols f ((r + 1) * cols) hi

/-- Read cycles from row-major index `pos` to the end. -/
def cyclesFrom (rows cols rate pos : Nat) : Nat :=
  if rows * cols ≤ pos then 0 else ceilDiv (cols - pos % cols) rate + (rows - 1 - pos / cols) * ceilDiv cols rate

/-- The index at which an operation that has read for `cyc` cycles from `pos` stops: the next element whose index within
its row is a multiple of 32, or the row's end (Table 10.5). -/
def stopAt (rows cols rate pos cyc : Nat) : Nat :=
  let first := ceilDiv (cols - pos % cols) rate
  let up := fun r e => r * cols + min cols (ceilDiv e 32 * 32)
  if cyc < first then up (pos / cols) (pos % cols + cyc * rate)
  else
    let c := ceilDiv cols rate
    min (rows * cols) (up (pos / cols + 1 + (cyc - first) / c) ((cyc - first) % c * rate))

/-- The row-major index that `cyc` read cycles from `pos` reach: every row takes read cycles of its own (R107, R116). -/
def readTo (rows cols rate pos cyc : Nat) : Nat :=
  let first := ceilDiv (cols - pos % cols) rate
  if cyc < first then pos + cyc * rate
  else
    let c := ceilDiv cols rate
    min (rows * cols) ((pos / cols + 1 + (cyc - first) / c) * cols + (cyc - first) % c * rate)

/-- The index up to which a started operation's elements have been read by the end of cycle `now`, in whole blocks of `bs`. -/
def Op.readIdx (o : Op) (rows cols rate bs now : Nat) : Nat :=
  let i := min (o.stop.getD (rows * cols)) (readTo rows cols rate o.base (now + 1 - o.began))
  i - i % cols % bs

/-- The bytes of a plane that a piece reads: address and length. -/
def Plane.reads (p : Plane) (x : Nat × Nat × Nat) : List (Nat × Nat) :=
  let lo := p.at_ x.1 x.2.1
  let hi := p.at_ x.1 (x.2.2 - 1)
  let w := p.width
  (p.base + lo.1 * p.stride + lo.2 * w / 8, (hi.2 * w + w + 7) / 8 - lo.2 * w / 8) ::
    (if p.isBlock then [(p.ebase + lo.1 * p.estride + lo.2 / p.bs, hi.2 / p.bs - lo.2 / p.bs + 1)] else [])

/-! Reads and writes of an operation. -/

/-- The ECC errors of what an operation reads are met (R208): the address of a double-bit error. -/
def Dev.scan (d : Dev) (rs : List (Nat × Nat)) : Dev × Option Nat :=
  if d.ecc.isEmpty then (d, none)
  else rs.foldl (fun (s : Dev × Option Nat) r =>
    let e := s.1.eccRead r.1 r.2
    (e.1, match s.2 with
      | some a => some a
      | none => e.2)) (d, none)

/-- The feeder-class requester that writes an operation's results (Table 8.4). -/
def Op.writer (o : Op) : Master :=
  .feeder o.ecore (match o.opcode.toNat with
    | 0x42 => 8 + o.earray.val
    | 0x43 | 0x44 => 12
    | 0x47 | 0x48 | 0x49 => 14
    | 0x4A => 15
    | 0x4D => 16
    | _ => 13)

/-- The writes of an operation; the address of a merge that met a double-bit error (R209). -/
def Dev.putAll (d : Dev) (ws : List (Nat × List Byte)) (who : Master) : Dev × Option Nat :=
  ws.foldl (fun (s : Dev × Option Nat) w =>
    let r := s.1.storeWords w.1 w.2 who
    match r.2 with
    | .ok _ => (r.1, s.2)
    | _ => (r.1, some (s.2.getD w.1))) (d, none)

/-- What an operation does to the slice, its flags and what it gathers. -/
structure Eff where
  writes : List (Nat × List Byte)
  fl : Flags
  g : MaxAbs
  deriving DecidableEq, Repr

def Eff.nil : Eff := ⟨[], 0, MaxAbs.zero⟩
def Eff.join (x y : Eff) : Eff := ⟨x.writes ++ y.writes, x.fl ||| y.fl, x.g.join y.g⟩

/-- Two 4-bit elements to a byte (R14); an odd row end keeps the upper half of its last byte, `old` (DEDUCED, log 7). -/
def packNibbles (old : Nat) : List Nat → List Byte
  | [] => []
  | [x] => [BitVec.ofNat 8 (x % 16 + 16 * (old / 16))]
  | x :: y :: t => BitVec.ofNat 8 (x % 16 + 16 * (y % 16)) :: packNibbles old t

/-- The write of patterns from element `e` of row `r` on; `e` is even for 4-bit elements. -/
def Dev.rowWrite (d : Dev) (p : Plane) (r e : Nat) (ps : List Nat) : Nat × List Byte :=
  let w := p.width
  let a := p.base + r * p.stride + e * w / 8
  if w = 4 then (a, packNibbles (d.byte (a + ps.length / 2)).toNat ps) else (a, ps.flatMap fun x => leBytes (w / 8) x)

/-- Bits of a mask row from element `e`, a multiple of 8; a row end keeps the bits beyond it (DEDUCED, log 7). -/
def Dev.maskWrite (d : Dev) (addr stride r e : Nat) (bits : List Bool) : Nat × List Byte :=
  let a := addr + r * stride + e / 8
  let bytes := (List.range (ceilDiv bits.length 8)).map fun i =>
    let part := (bits.drop (8 * i)).take 8
    let old := (d.byte (a + i)).toNat
    BitVec.ofNat 8 (foldIdx (fun n j b => n + b2n b * 2 ^ j) 0 0 part + old / 2 ^ part.length * 2 ^ part.length)
  (a, bytes)

/-- Mask bit of element (r, e) (R114). -/
def Dev.maskBit (d : Dev) (addr stride r e : Nat) : Bool := (d.byte (addr + r * stride + e / 8)).toNat.testBit (e % 8)

/-- The elements of a row piece converted to `f` and written (R18, R19, R26 to R31, R35). `i` is the index of the first. -/
def Dev.convRow (d : Dev) (p : Plane) (f : Fmt) (rnd : Nat → Rnd) (r e i : Nat) (vs : List Val) : Eff :=
  if f.isBlock then
    let blocks := chunkVals vs.length vs
    foldIdx (fun (a : Eff) j b =>
      let x := blockExp f b
      let cs := b.mapIdx fun n v => (v, convertBlockElem f x (rnd (i + p.bs * j + n)) v)
      a.join (outs (d.rowWrite p r (e + p.bs * j) (cs.map fun c => c.2.pat)) cs
        [(p.ebase + r * p.estride + e / p.bs + j, leBytes 1 (lowBits 8 x))])) 0 Eff.nil blocks
  else
    let cs := vs.mapIdx fun n v => (v, convert f (rnd (i + n)) v)
    outs (d.rowWrite p r e (cs.map fun c => c.2.pat)) cs []
where
  chunkVals : Nat → List Val → List (List Val)
    | 0, _ => []
    | n + 1, l => if l.isEmpty then [] else l.take (max 1 p.bs) :: chunkVals n (l.drop (max 1 p.bs))
  outs (w : Nat × List Byte) (cs : List (Val × Cv)) (more : List (Nat × List Byte)) : Eff :=
    ⟨w :: more, cs.foldl (fun (fl : Flags) c => fl ||| c.2.fl) 0, cs.foldl (fun (g : MaxAbs) c => g.join (gatherOf c.1 c.2)) MaxAbs.zero⟩

/-! An operation's course. -/

/-- Operations that `p` names could not start before the next cycle. -/
def Dev.bump (d : Dev) (p : Op → Bool) : Dev :=
  { d with ops := d.ops.map fun x => if x.phase == .queued && p x then { x with began := max x.began d.cycle } else x }

/-- Operations of the same queues, or of the same tiles. -/
def Op.behind (o x : Op) : Bool :=
  x.ecore == o.ecore &&
  ((queuesOf o.opcode.toNat o.w).any (fun q => (queuesOf x.opcode.toNat x.w).contains q) ||
   (x.earray == o.earray && x.tiles.any fun t => o.tiles.contains t))

/-- A fault of a running operation: it is removed, and its last stops (R159, R208). -/
def Dev.opFault (d : Dev) (o : Op) (cause : Nat) (detail : Nat) : Dev :=
  ({ d with ops := d.ops.filter fun x => x.id != o.id }).fault cause o.origin (BitVec.ofNat 64 detail)

/-- An operation completes: its flags become visible (R38), what waits behind it may start in the next cycle, and it
posts. -/
def Dev.endOp (d : Dev) (o : Op) (set : FlagSet) : Dev :=
  ((d.raiseFlags o.core o.strand set o.flags).bump o.behind).completeOp o

/-- R106: the tile notes special outputs. -/
def Dev.noteSpecial (d : Dev) (c : CoreId) (a : ArrayId) (t : TileId) (l : List (Nat × Nat)) : Dev :=
  match l with
  | [] => d
  | x :: r =>
    let low := r.foldl (fun (m : Nat × Nat) y => if 64 * y.1 + y.2 < 64 * m.1 + m.2 then y else m) x
    let old := d.reg (aTstat c a t)
    let cur := (fld old 8 6, fld old 16 6)
    let best := if bitOf old 5 && decide (64 * cur.1 + cur.2 < 64 * low.1 + low.2) then cur else low
    let d := d.hwSet (aTstat c a t) 0x20 0x3F3F00 (mkWord [(8, low.1), (16, low.2)])
    d.setReg (aTstat c a t) ((d.reg (aTstat c a t) &&& ~~~0x3F3F00#64) ||| mkWord [(8, best.1), (16, best.2)])

/-- Results on their way are written: their elements reach the max-abs slot and the tile's special record in that cycle (R35,
R106), and their flags wait with the operation for its completion. -/
def Dev.landWr (d : Dev) (w : Wr) : Dev :=
  let who := match d.ops.find? fun x => x.id == w.op with
    | some o => o.writer
    | none => .feeder w.core 13
  let r := d.putAll w.writes who
  match r.2 with
  | some a =>
    (match r.1.ops.find? fun x => x.id == w.op with
    | some o => r.1.opFault o 4 a
    | none => r.1)
  | none =>
    let d := match w.slot with
      | some n => r.1.gather w.core n w.g
      | none => r.1
    let d := match w.bed with
      | some b => d.noteSpecial b.1 b.2.1 b.2.2 w.sp
      | none => d
    (d.cnt w.core w.cnt w.n).updOp w.op fun x => { x with flags := x.flags ||| w.fl }

/-- Results whose cycle has come, of the operations that `p` names, are written. -/
def Dev.land (d : Dev) (p : Nat → Bool) : Dev :=
  let due := d.wrs.filter fun w => decide (w.due ≤ d.cycle) && p w.op
  if due.isEmpty then d
  else due.foldl (fun (d : Dev) w => d.landWr w) { d with wrs := d.wrs.filter fun w => !(decide (w.due ≤ d.cycle) && p w.op) }

/-- Results of the operation are still on their way. -/
def Dev.landing (d : Dev) (o : Op) : Bool := d.wrs.any fun w => w.op == o.id

/-- The operation as it stands now. -/
def Dev.opNow (d : Dev) (o : Op) : Op := (d.ops.find? fun x => x.id == o.id).getD o

/-- The head of a queue may start: it has waited a cycle. -/
def Dev.head (d : Dev) (c : CoreId) (q : QId) : Option Op :=
  match d.queueOf c q with
  | o :: _ => if o.began < d.cycle then some o else none
  | [] => none

/-- A started operation of a core that has one of the opcodes. -/
def Dev.running (d : Dev) (c : CoreId) (ops : List Byte) : Option Op :=
  d.ops.find? fun o => o.phase == .started && o.ecore == c && ops.contains o.opcode

/-- It starts in this cycle and lasts `n` cycles. None of its steal group moves any more (R167). -/
def Dev.startOp (d : Dev) (o : Op) (n : Nat) : Dev :=
  let d := (d.noteLeft [o]).updOp o.id fun x => { x with phase := .started, began := d.cycle, due := d.cycle + n, base := x.pos }
  match o.group with
  | none => d
  | some g =>
    let d := d.updStrand o.core o.strand fun s => { s with group := s.group.map fun y => if y.num = g.1 then { y with movable := false } else y }
    { d with ops := d.ops.map fun x =>
      if x.core == o.core && x.strand == o.strand && (x.group.map fun y => y.1) == some g.1 then { x with group := some (g.1, false) } else x }

end Sys2Proof.Machine
end

