-- ==== Sys2Proof/Machine/Cells.lean ====
section
/-!
DEFINITION. What an array computes (02_dot_product_contract, R64 to R76, R416): rows of weight slices, the activations of a
slot, and what the foot writes for a slot's output. A weight register holds patterns from bit 0 upward and a block exponent in
[23:16]; a wide output keeps its weight in its lower column (DESIGN CHOICE, log 19).
-/

namespace Sys2Proof.Machine

/-- What an MMA or MMALW word and its descriptor say of its passes (Tables 2.5, 3.1, 3.3). -/
structure MmaShape where
  fa : Fmt
  fb : Fmt
  cls : Cls
  beat : Nat
  mode : Mode
  h : Nat
  /-- Row of the array that its row 0 is. -/
  base : Nat
  per : Nat
  m : MDesc
  passes : Nat
  deriving DecidableEq, Repr

def Op.shape (o : Op) : MmaShape :=
  let x := (wPair o.w).getD (.p16, .p16, .q256, 1)
  let m := mdesc o.desc
  let h := maskRows o.halfMask
  let per := kPerRow x.1 x.2.1
  { fa := x.1, fb := x.2.1, cls := x.2.2.1, beat := x.2.2.2, mode := wMode o.w, h := h
    base := if o.halfMask = 2 then 32 else 0, per := per, m := m, passes := passesOf m.k (h * per) }

/-- The halves of a mask. -/
def Op.halves (o : Op) : List HalfId := allHalves.filter fun u => o.usesHalf u

/-- K element `q` of row `r` in pass `p` (Table 3.3); none beyond the extent. -/
def MmaShape.kOf (s : MmaShape) (p r q : Nat) : Option Nat :=
  let k := (p * s.h + r) * s.per + q
  if k < s.m.k then some k else none

/-! Operand elements (R218). -/

def Dev.tensorElem (d : Dev) (o : Op) (t : TDesc) (f : Fmt) (row e : Nat) : Nat :=
  let a := sliceBase o.core + t.base + row * t.rstride + e * f.width / 8
  if f.width = 4 then (if e % 2 = 0 then (d.byte a).toNat % 16 else (d.byte a).toNat / 16) else leNat (d.rdMem a (f.width / 8))

/-- A[i][k]: pattern and block exponent. -/
def Dev.aElem (d : Dev) (o : Op) (s : MmaShape) (i k : Nat) : Nat × Int :=
  let t := tdesc o.ta
  (d.tensorElem o t s.fa i k,
   if s.fa.isBlock then signed 8 (d.byte (sliceBase o.core + t.ebase + i * t.estride + k / t.bs)).toNat else 0)

/-! Weights (R67, R70, R74, R218). -/

/-- Zero point and shift of column `j` (R25). -/
def Dev.zk (d : Dev) (o : Op) (j : Nat) : Int × Int :=
  let t := tdesc o.tb
  if t.zkCol then
    let v := leNat (d.rdMem (sliceBase o.core + t.zkAddr + 2 * j) 2)
    (signed 8 v, signed 6 (v / 256))
  else (t.z, t.k)

/-- A per-column entry that R218 forbids. -/
def Dev.zkBad (d : Dev) (o : Op) (s : MmaShape) : Bool :=
  let t := tdesc o.tb
  s.fb == .i8 && s.mode != .integer && t.zkCol &&
  (List.range s.m.n).any fun j =>
    let v := leNat (d.rdMem (sliceBase o.core + t.zkAddr + 2 * j) 2)
    decide (v / 2 ^ 14 ≠ 0) || decide (signed 6 (v / 256) < -20) || decide (signed 6 (v / 256) > 12)

/-- An integer weight expanded to P16 (R24, R25). -/
def Dev.expand (d : Dev) (o : Op) (s : MmaShape) (x j : Nat) : Nat :=
  let t := tdesc o.tb
  match s.fb with
  | .i8 =>
    let zk := d.zk o j
    (roundPosit 16 2 Rnd.rne (((signed 8 x - zk.1 : Int) : Rat) * pow2 zk.2)).1
  | f =>
    if t.tabEn then leNat (d.rdMem (sliceBase o.core + t.tabAddr + 2 * x) 2)
    else (roundPosit 16 2 Rnd.rne (if f = .i4 then ((signed 4 x : Int) : Rat) else (x : Rat))).1

/-- What the weight feeder writes into the register of row `r` and output `c` for slice `p`. -/
def Dev.weightWord (d : Dev) (o : Op) (s : MmaShape) (p r c : Nat) : Word :=
  let t := tdesc o.tb
  if s.m.n ≤ c then 0
  else
    let ks := (List.range s.per).filterMap fun q => (s.kOf p r q).map fun k => (q, k)
    match ks with
    | [] => 0
    | (_, k0) :: _ =>
      let pats := ks.foldl (fun n x => n + d.tensorElem o t s.fb x.2 c * 2 ^ (s.fb.width * x.1)) 0
      if s.fb.isInt && s.mode != .integer then BitVec.ofNat 64 (d.expand o s pats c)
      else if s.fb.isBlock then
        BitVec.ofNat 64 (pats + (d.byte (sliceBase o.core + t.ebase + k0 / t.bs * t.estride + c)).toNat * 2 ^ 16)
      else BitVec.ofNat 64 pats

/-- Keys [lo, hi) of a register plane replaced by `new`. -/
def splice (lo hi : Nat) (new old : List (Nat × Word)) : List (Nat × Word) :=
  skeep (fun k => decide (k < lo)) old ++ new ++ skeep (fun k => decide (hi ≤ k)) old

/-- Row `r` of slice `p` is written (R70, R74): into the shadow registers, or, once the token of its pass has entered, into the
registers that have become active. The registers carry fresh parity (R83). -/
def Dev.loadRow (d : Dev) (o : Op) (s : MmaShape) (p r : Nat) : Dev :=
  let w := d.width o.ecore o.earray
  let n := s.cls.columns
  let lo := 64 * (s.base + r)
  let new := (List.range w).filterMap fun j =>
    let v := if j % n = 0 then d.weightWord o s p r (j / n) else 0
    if v = 0 then none else some (lo + j, v)
  let kind := if o.tok then 0 else 1
  d.updArr o.ecore o.earray fun x => { x with
    act := if o.tok then splice lo (lo + 64) new x.act else x.act
    shadow := if o.tok then x.shadow else splice lo (lo + 64) new x.shadow
    parity := x.parity.filter fun e => !(e.1 == kind && e.2.1 == s.base + r) }

/-- The exchange of active and shadow registers in rows [lo, hi) (R70, R71): keys count 64 to a row. -/
def Arr.switch (x : Arr) (lo hi : Nat) : Arr :=
  let mine := fun k => decide (64 * lo ≤ k) && decide (k < 64 * hi)
  let row := fun (e : Nat × Nat × Nat) => decide (lo ≤ e.2.1) && decide (e.2.1 < hi)
  { x with
    act := splice (64 * lo) (64 * hi) (skeep mine x.shadow) x.act
    shadow := splice (64 * lo) (64 * hi) (skeep mine x.act) x.shadow
    parity := x.parity.map fun e => if row e && decide (e.1 < 2) then (1 - e.1, e.2) else e }

/-- The weights of rows [lo, hi) become 0, with good parity (R74). -/
def Arr.clearRows (x : Arr) (lo hi : Nat) : Arr :=
  let keep := fun k => decide (k < 64 * lo) || decide (64 * hi ≤ k)
  { x with
    act := skeep keep x.act, shadow := skeep keep x.shadow
    parity := x.parity.filter fun e => !(decide (e.1 < 2) && decide (lo ≤ e.2.1) && decide (e.2.1 < hi)) }

/-- The value of element `q` of a weight register. -/
def weightVal (s : MmaShape) (w : Word) (q : Nat) : Val :=
  let e := signed 8 (fld w 16 8)
  match s.fb with
  | .bp4 => decodeElem .bp4 e (fld w (4 * q) 4)
  | .bp8 => decodeElem .bp8 e (fld w 0 8)
  | .i8 | .i4 | .u8 => if s.mode = .integer then .ofRat (signed 8 (fld w 0 8)) else decodePosit 16 2 (fld w 0 16)
  | f => decodeElem f 0 (fld w 0 f.width)

/-! Outputs and entries (Table 2.3, R68). -/

/-- Tile and first bed column of output `c`. -/
def Op.place (o : Op) (s : MmaShape) (c : Nat) : TileId × Nat :=
  match s.cls, o.tiles with
  | .q1024, t :: u :: _ => if c < 16 then (t, 4 * c) else (u, 4 * (c - 16))
  | cls, t :: _ => (t, cls.span * c)
  | cls, [] => (0, cls.span * c)

/-- The bits of an output: its entries joined. -/
def Tile.bits (x : Tile) (span i j : Nat) : Nat :=
  (List.range span).foldl (fun n m => n + (x.entry i (j + m)).toNat * 2 ^ (256 * m)) 0

/-- The entries of an output in columns j + m, m in [lo, hi), take their part of `v`. -/
def Dev.putBits (d : Dev) (c : CoreId) (a : ArrayId) (t : TileId) (i j lo hi v : Nat) : Dev :=
  ((List.range hi).drop lo).foldl (fun (d : Dev) m => d.footEntry c a t i (j + m) (BitVec.ofNat 256 (v / 2 ^ (256 * m)))) d

/-- The tile as the foot finds it: a window write of this cycle does not count in the entries of output (i, j) (R91). -/
def Dev.footTile (d : Dev) (c : CoreId) (a : ArrayId) (t : TileId) (span i j : Nat) : Tile :=
  let x := d.tile c a t
  if d.now.bedOld.isEmpty then x
  else { x with entries := (List.range span).foldl (fun l m =>
    if d.footWrote c a t i (j + m) then l else sset (fun _ => 0) l (64 * i + j + m) (d.entryBefore c a t i (j + m))) x.entries }

/-- The working sum that an output's entries and extension hold (R416). -/
def Tile.work (x : Tile) (cls : Cls) (i j : Nat) : Work :=
  let w := cls.width
  let e := (sget (fun _ => (0 : BitVec 4)) x.ext (64 * i + j)).toNat
  if e / 4 % 2 = 1 then ⟨0, true, 0⟩
  else ⟨signed (w + 2) (x.bits cls.span i j + e % 4 * 2 ^ w), false, sget (fun _ => 0) x.frac (64 * i + j)⟩

/-- An operation's starting value of an output as a working sum (R43, R48, R56). -/
def Tile.startWork (x : Tile) (cls : Cls) (i j : Nat) : Work :=
  let b := x.bits cls.span i j
  if cls.isQuire then
    match quireOf cls.width b with
    | some v => ⟨v, false, 0⟩
    | none => ⟨0, true, 0⟩
  else ⟨signed 256 b, false, 0⟩

/-- What the foot leaves for an output: its stored bits, extension, part below one unit, and flags. -/
structure Foot where
  bits : Nat
  ext : BitVec 4
  frac : Nat
  fl : Flags
  deriving DecidableEq, Repr

/-- A working sum between passes: its low bits and its extension; one with the NaR mark reads as NaR (R416). -/
def Work.keep (cls : Cls) (s : Work) : Foot :=
  let w := cls.width
  let full := lowBits (w + 2) s.sum
  if s.nar then ⟨2 ^ (w - 1), 4, 0, 0⟩ else ⟨full % 2 ^ w, BitVec.ofNat 4 (full / 2 ^ w), s.frac, 0⟩

/-- Key of a running IEEE value on the return path (R76): half, output row, column. -/
def retKey (s : MmaShape) (i c : Nat) : Nat := ((if s.base = 32 then 64 else 0) + i) * 64 + c

/-! A slot (R65, R67). -/

/-- The activations that row `i` of A puts into pass `p`, by array row; rows without a K element are left out (R67). -/
def Dev.slotAct (d : Dev) (o : Op) (s : MmaShape) (p i : Nat) : List (Nat × List (Nat × Int)) :=
  (List.range s.h).filterMap fun r =>
    let xs := (List.range s.per).filterMap fun q => (s.kOf p r q).map fun k => d.aElem o s i k
    if xs.isEmpty then none else some (r, xs)

/-- The operand pairs of output `c` in a slot, by row: pattern, exponent, weight register, element of it. -/
def Slot.terms (l : Slot) (s : MmaShape) (wts : List (Nat × Word)) (c : Nat) : List (Nat × List (Nat × Int × Word × Nat)) :=
  l.act.map fun r =>
    let w := sget (fun _ => (0 : Word)) wts (64 * (s.base + r.1) + s.cls.columns * c)
    (r.1, r.2.mapIdx fun q a => (a.1, a.2, w, q))

/-- The weights that a slot meets: those now active, or those it met before a later token switched them. -/
def Dev.slotWeights (d : Dev) (l : Slot) : List (Nat × Word) := l.wts.getD (d.arr l.core l.array).act

/-- The products of a row (R47). -/
def rowProducts (s : MmaShape) (ts : List (Nat × Int × Word × Nat)) : List (Option Rat × Flags) :=
  ts.map fun t => product (s.fa.isBlock || s.fb.isBlock) (decodeElem s.fa t.2.1 t.1) (weightVal s t.2.2.1 t.2.2.2)

/-- Runs of rows that share an aligned group: 16 rows each (R53, R67). -/
def groupRows (rows : List (Nat × List (Option Rat))) : List (List (List (Option Rat))) :=
  (List.range 4).filterMap fun g =>
    let l := (rows.filter fun r => r.1 / 16 == g).map fun r => r.2
    if l.isEmpty then none else some l

/-- What the foot writes for a slot's output in column `j` of a tile (R48, R52, R56, R416). The last pass applies the test of
R48 or R56 to the operation's total. IEEE sums take their own way (`ieeeOut`). -/
def Slot.foot (l : Slot) (s : MmaShape) (wts : List (Nat × Word)) (x : Tile) (c j : Nat) : Foot :=
  let rows := l.terms s wts c
  let start := l.first && s.m.init
  let w0 : Work := if start then ⟨0, false, 0⟩ else if l.first then x.startWork s.cls l.row j else x.work s.cls l.row j
  match s.mode with
  | .exact =>
    let ps := rows.flatMap fun r => rowProducts s r.2
    let t := w0.addTerms (quireF s.cls.width) (ps.map fun q => q.1)
    let fl := ps.foldl (fun (f : Flags) q => f ||| q.2) 0
    let z := closeQuire s.cls.width t
    if l.last then ⟨z.1, 0, 0, fl ||| z.2⟩ else { t.keep s.cls with fl := fl }
  | .integer =>
    let ps := rows.flatMap fun r => r.2.map fun t => (signed 8 t.1, signed 8 (fld t.2.2.1 0 8))
    let t := { w0 with sum := w0.sum + intTerms s.m.za s.m.zb ps }
    let z := closeInteger t
    if l.last then ⟨z.1, 0, 0, z.2⟩ else t.keep s.cls
  | _ =>
    let pr := rows.map fun r => (r.1, rowProducts s r.2)
    let q0 := if start then some 0 else quireOf 256 (x.bits 1 l.row j)
    let r := alignedAdd q0 (groupRows (pr.map fun r => (r.1, r.2.map fun q => q.1)))
    ⟨quirePat 256 r.1, 0, 0, pr.foldl (fun (f : Flags) r => r.2.foldl (fun (f : Flags) q => f ||| q.2) f) r.2⟩

/-- The running value of an IEEE output after the rows of a slot (R54, R76). -/
def Slot.ieeeOut (l : Slot) (s : MmaShape) (wts : List (Nat × Word)) (c : Nat) : Nat × Flags :=
  let acc := sget (fun _ => 0) l.acc c
  ieeeChain s.fa s.m.rnd acc ((l.terms s wts c).flatMap fun r => r.2.map fun t => (decodeElem s.fa 0 t.1, weightVal s t.2.2.1 t.2.2.2))

/-- What row `i` of pass `p` reads of A (R208). -/
def Op.aReads (o : Op) (s : MmaShape) (p i : Nat) : List (Nat × Nat) :=
  let t := tdesc o.ta
  let k0 := p * s.h * s.per
  let k1 := min s.m.k ((p + 1) * s.h * s.per)
  let w := s.fa.width
  (sliceBase o.core + t.base + i * t.rstride + k0 * w / 8, ((k1 - k0) * w + 7) / 8) ::
    (if s.fa.isBlock then [(sliceBase o.core + t.ebase + i * t.estride + k0 / t.bs, (k1 - 1) / t.bs - k0 / t.bs + 1)] else [])

/-- What the weight feeder reads for row `r` of slice `p` (R208, R218); tables and per-column entries with row 0. -/
def Op.bReads (o : Op) (s : MmaShape) (p r : Nat) : List (Nat × Nat) :=
  let t := tdesc o.tb
  let b := sliceBase o.core
  (((List.range s.per).filterMap fun q => s.kOf p r q).flatMap fun k =>
    (b + t.base + k * t.rstride, rowBytes s.fb.width s.m.n) ::
      (if s.fb.isBlock then [(b + t.ebase + k / t.bs * t.estride, s.m.n)] else [])) ++
  (if r ≠ 0 then [] else
    (if (s.fb == .i4 || s.fb == .u8) && t.tabEn then [(b + t.tabAddr, if s.fb = .i4 then 32 else 512)] else []) ++
    (if s.fb == .i8 && s.mode != .integer && t.zkCol then [(b + t.zkAddr, 2 * s.m.n)] else []))

/-! When a slot reaches what (R65, R66, R76). -/

/-- Cycle at whose end the foot writes output `c` of a slot, in its first column. -/
def Slot.footAt (l : Slot) (s : MmaShape) (c : Nat) : Nat := l.at_ + s.beat * (s.cls.columns * c + s.h) + s.beat + 5

/-- Cycle in which an IEEE output leaves the last row. -/
def Slot.leavesAt (l : Slot) (s : MmaShape) (c : Nat) : Nat := l.at_ + s.beat * (c + s.h)

/-- The outputs from the slot's next on whose cycle, by `at_`, has come. -/
def Slot.dueOuts (l : Slot) (s : MmaShape) (now : Nat) (at_ : Nat → Nat) : List Nat :=
  ((List.range s.m.n).drop l.done).takeWhile fun c => decide (at_ c ≤ now)

end Sys2Proof.Machine
end

