-- ==== Sys2Proof/Machine/Finish.lean ====
section
/-!
DEFINITION. Finishing and the slice port (R97 to R107): what one output becomes, the rows of a FINISH, lifts and reloads.
-/

namespace Sys2Proof.Machine

/-! The stages of R104. -/

/-- A zero without a sign, where no IEEE value took part (R50, DEDUCED, log 26). -/
def Val.plain (fp : Bool) : Val → Val
  | .num q nz => .num q (nz && fp)
  | v => v

/-- The exact scale of finishing and of CVT (R104, R190): a NaR or NaN source or scale gives NaR, with no flag. -/
def scaleV (fp : Bool) (v s : Val) : Val × Flags :=
  match v, s with
  | .num _ _, .num _ _ => ((mulV v s).1.plain fp, 0)
  | .inf n, .num b _ => if b = 0 then (.nar, fNV) else (.inf (xor n (decide (b < 0))), 0)
  | _, _ => (.nar, 0)

/-- The exact bias of R104. -/
def biasV (v b : Val) : Val :=
  match v, b with
  | .num _ _, .num _ _ => (addV 0 v b).1
  | .inf n, .num _ _ => .inf n
  | _, _ => .nar

/-- The activations of R104: value and flags. -/
def actV (act : Nat) (lo hi v : Val) : Val × Flags :=
  match act with
  | 1 => (match v with
    | .num q nz => (if q > 0 then .num q nz else .zero, 0)
    | .inf n => (if n then .zero else v, 0)
    | _ => (v, 0))
  | 2 => (match v with
    | .num _ _ => (if ltV v lo then lo else if ltV hi v then hi else v, 0)
    | .inf n => (if n then lo else hi, 0)
    | _ => (v, 0))
  | 3 | 4 => (match v with
    | .num q _ =>
      let a := roundPosit 32 2 Rnd.rne q
      let r := sfuEval (if act = 3 then 10 else 11) .p32 a.1
      (decodePosit 32 2 r.1, a.2 ||| r.2)
    | _ => (v, 0))
  | _ => (v, 0)

/-- The value of an entry's bits by class (Table 2.3); a NaN entry makes NaR (R104). -/
def entryVal (cls : Cls) (bits : Nat) : Val :=
  let v := match cls with
    | .f32 => decodeFp 8 23 (bits % 2 ^ 32)
    | .f64 => decodeFp 11 52 (bits % 2 ^ 64)
    | .z256 => .ofRat (signed 256 bits)
    | c => quireVal c.width (quireOf c.width bits)
  if v.isNan then .nar else v

/-- Plain entry class of a tile code. -/
def clsOf (n : Nat) : Cls := (Cls.ofCode n).getD .none

/-- The bits of output (i, c) within one tile (Table 2.3; R106 for Q1024). -/
def Tile.output (x : Tile) (cls : Cls) (i c : Nat) : Nat := x.bits cls.span i (cls.span * c)

/-- The stages before conversion, of output (i, c) with bits `b`. -/
def Dev.finStages (d : Dev) (o : Op) (f : FDesc) (cls : Cls) (b c : Nat) : Val × Flags :=
  let base := sliceBase o.core
  let fp := cls == .f32 || cls == .f64
  let v := entryVal cls b
  let s : Val × Flags := match f.scl with
    | 1 => scaleV fp v (decodePosit 32 2 f.sclVal)
    | 2 => scaleV fp v (decodePosit 32 2 (leNat (d.rdMem (base + f.sclAddr + 4 * c) 4)))
    | _ => (v, 0)
  let v := match f.bias with
    | 1 => biasV s.1 (decodePosit 16 2 (leNat (d.rdMem (base + f.biasAddr + 2 * c) 2)))
    | 2 => biasV s.1 (decodePosit 32 2 (leNat (d.rdMem (base + f.biasAddr + 4 * c) 4)))
    | _ => s.1
  let a := actV f.act (decodePosit 32 2 f.lo) (decodePosit 32 2 f.hi) v
  (a.1, s.2 ||| a.2)

/-- The value is NaN, infinite or NaR as stored. -/
def patSpecial (f : Fmt) (x : Nat) : Bool := !f.isInt && (decodeElem f 0 x).isSpecial

/-- Plane of a FINISH's output, and of the low parts of pair output. -/
def Op.outPlane (o : Op) (f : FDesc) : Plane :=
  let t := (Fmt.ofCode f.tgt).getD .p8
  ⟨sliceBase o.core + f.outAddr, f.outStride, some t, sliceBase o.core + f.expAddr, f.cols / f.bs, f.bs, 0⟩

/-- Special outputs of a row: the elements whose stored form is special. -/
def specials (i : Nat) (l : List Bool) : List (Nat × Nat) := foldIdx (fun a c b => if b then a ++ [(i, c)] else a) 0 [] l

/-- Outputs [c0, c1) of row `i` of a FINISH (R104): effect and special outputs. A saturation of int_rescale (conv 1) counts in ov_count, which
R35 says of saturations under R19, R28 and R29 (DESIGN CHOICE, log 64). -/
def Dev.finPiece (d : Dev) (o : Op) (f : FDesc) (cls : Cls) (i c0 c1 : Nat) : Eff × List (Nat × Nat) :=
  let x := d.tile o.ecore o.earray (o.tiles.headD 0)
  let base := sliceBase o.core
  let p := o.outPlane f
  let t := (Fmt.ofCode f.tgt).getD .p8
  let outs := (List.range (c1 - c0)).map fun n => (c0 + n, x.output cls i (c0 + n))
  let specials := fun (l : List Bool) => foldIdx (fun a n b => if b then a ++ [(i, c0 + n)] else a) 0 ([] : List (Nat × Nat)) l
  match f.conv with
  | 1 =>
    let rs := outs.map fun b =>
      let w := BitVec.ofNat 64 (leNat (d.rdMem (base + f.irsAddr + (if f.irsCol then 8 * b.1 else 0)) 8))
      let m := signed 32 (fld w 0 32)
      let sh := fld w 32 6
      let zo := signed 9 (fld w 40 9)
      let q := signed 256 b.2
      let r := intRescale q m sh zo t
      (lowBits t.width r.1, r.2.1, gatherOf (.ofRat (mkRat (q * m) (2 ^ sh) + (zo : Rat))) ⟨0, 0, r.2.2, false⟩)
    (⟨[d.rowWrite p i c0 (rs.map fun r => r.1)], rs.foldl (fun (a : Flags) r => a ||| r.2.1) 0,
      rs.foldl (fun (a : MaxAbs) r => a.join r.2.2) MaxAbs.zero⟩, [])
  | 2 =>
    let rs := outs.map fun b =>
      let v := d.finStages o f cls b.2 b.1
      (v, pairOut v.1)
    let lo : Plane := { p with base := base + f.loAddr }
    (⟨[d.rowWrite p i c0 (rs.map fun r => r.2.1), d.rowWrite lo i c0 (rs.map fun r => r.2.2.1)],
      rs.foldl (fun (a : Flags) r => a ||| r.1.2 ||| r.2.2.2.1) 0,
      rs.foldl (fun (a : MaxAbs) r => a.join (gatherOf r.1.1 ⟨0, 0, r.2.2.2.2.1, r.2.2.2.2.2⟩)) MaxAbs.zero⟩,
     specials (rs.map fun r => r.2.1 == 0x8000))
  | _ =>
    let vs := outs.map fun b => d.finStages o f cls b.2 b.1
    let e := d.convRow p t (fun n => d.rndOf o.core o.last f.rnd o.draw n) i c0 (i * f.cols + c0) (vs.map fun v => v.1)
    let pats := if t.isBlock then vs.map fun v => v.1.isSpecial
      else vs.mapIdx fun n v => patSpecial t (convert t (d.rndOf o.core o.last f.rnd o.draw (i * f.cols + c0 + n)) v.1).pat
    ({ e with fl := e.fl ||| vs.foldl (fun (a : Flags) v => a ||| v.2) 0 }, specials pats)

/-- What outputs [c0, c1) of row `i` of a FINISH read beside the entries (R107, R208). -/
def FDesc.reads (f : FDesc) (base i c0 c1 : Nat) : List (Nat × Nat) :=
  let n := c1 - c0
  (if f.scl = 2 then [(base + f.sclAddr + 4 * c0, 4 * n)] else []) ++
  (if f.bias ≠ 0 then [(base + f.biasAddr + 2 * f.bias * c0, 2 * f.bias * n)] else []) ++
  (if f.conv = 1 then (if f.irsCol then [(base + f.irsAddr + 8 * c0, 8 * n)] else if i = 0 && c0 = 0 then [(base + f.irsAddr, 8)] else [])
   else [])

/-- Outputs per cycle (Table 4.6). -/
def finRate (cls : Cls) (act : Nat) : Nat :=
  let n := match cls with
    | .q512 => 8
    | .q1024 => 4
    | _ => 16
  if act = 3 || act = 4 then n / 2 else n

/-- The bed errors that reading columns [lo, hi) of a row meets (R102). -/
def Dev.bedScan (d : Dev) (c : CoreId) (a : ArrayId) (t : TileId) (i lo hi : Nat) : Dev × Bool :=
  if d.ecc.isEmpty then (d, false)
  else ((List.range hi).drop lo).foldl (fun (s : Dev × Bool) j =>
    let r := s.1.bedEcc c a t i j
    (r.1, s.2 || r.2)) (d, false)

/-- R102: a double-bit error poisons the tile and stops the operation's last. The operation of an array stays with its half
until the drain takes it. -/
def Dev.bedFault (d : Dev) (o : Op) (t : TileId) : Dev :=
  let d := d.updTile o.ecore o.earray t fun x => { x with poisoned := true }
  if o.isArr then d.fault 12 o.origin 0 else d.opFault o 12 0

/-- The tile class that an operation's tile holds. -/
def Dev.opCls (d : Dev) (o : Op) : Cls := clsOf (d.tile o.ecore o.earray (o.tiles.headD 0)).cls.toNat

/-- The outputs that a FINISH reads in this cycle: they are written 11 cycles later (R107). -/
def Dev.finishCycle (d : Dev) (o : Op) : Dev :=
  let f := fdesc o.desc
  let t := o.tiles.headD 0
  let cls := d.opCls o
  let bs := if ((Fmt.ofCode f.tgt).getD .p8).isBlock then f.bs else 1
  let hi := o.readIdx f.rows f.cols (finRate cls f.act) bs d.cycle
  if hi ≤ o.pos then d
  else
    let ps := pieces f.cols (f.rows + 1) o.pos hi
    let b := ps.foldl (fun (s : Dev × Bool) p =>
      let r := s.1.bedScan o.ecore o.earray t p.1 (cls.span * p.2.1) (cls.span * p.2.2)
      (r.1, s.2 || r.2)) (d, false)
    if b.2 then b.1.bedFault o t
    else
      let e := b.1.scan (ps.flatMap fun p => f.reads (sliceBase o.core) p.1 p.2.1 p.2.2)
      match e.2 with
      | some a => e.1.opFault o 4 a
      | none =>
        let d := e.1
        let rs := ps.map fun p => d.finPiece o f cls p.1 p.2.1 p.2.2
        let eff := rs.foldl (fun (a : Eff) x => a.join x.1) Eff.nil
        let w : Wr := ⟨d.cycle + 11, o.id, o.core, eff.writes, eff.fl, some f.slot, eff.g, some (o.ecore, o.earray, t),
          rs.flatMap fun x => x.2, 33 + 2 * o.earray.val, hi - o.pos⟩
        { d with wrs := d.wrs ++ [w] }.updOp o.id fun x => { x with pos := hi }

/-! The slice port (R97 to R100). -/

/-- The entries that a lift or a reload moves in this cycle: 32 in row-major order (R99). -/
def Op.portEntries (o : Op) (now : Nat) : List Nat := (List.range (min 4096 (o.base + 32 * (now + 1 - o.began)))).drop o.pos

/-- The entries that a lift reads in this cycle: they are written to stock 2 cycles later (R97, R99, R102). -/
def Dev.liftCycle (d : Dev) (o : Op) : Dev :=
  let ks := o.portEntries d.cycle
  let t := o.tiles.headD 0
  if ks.isEmpty then d
  else
    let r := ks.foldl (fun (s : Dev × Bool) k =>
      let e := s.1.bedEcc o.ecore o.earray t (k / 64) (k % 64)
      (e.1, s.2 || e.2)) (d, false)
    if r.2 then r.1.bedFault o t
    else
      let x := r.1.tile o.ecore o.earray t
      let w : Wr := ⟨d.cycle + 2, o.id, o.core, [(o.stock.toNat + 32 * o.pos, ks.flatMap fun k => leBytes 32 (x.entry (k / 64) (k % 64)).toNat)],
        0, none, MaxAbs.zero, none, [], 61, 0⟩
      { r.1 with wrs := r.1.wrs ++ [w] }.updOp o.id fun y => { y with pos := o.pos + ks.length }

/-- The entries that a reload writes in this cycle (R98, R99, R208). -/
def Dev.reloadCycle (d : Dev) (o : Op) : Dev :=
  let ks := o.portEntries d.cycle
  let t := o.tiles.headD 0
  if ks.isEmpty then d
  else
    let a := o.stock.toNat + 32 * o.pos
    let r := d.scan [(a, 32 * ks.length)]
    match r.2 with
    | some x => r.1.opFault o 4 x
    | none =>
      let d := r.1
      let d := ks.foldl (fun (d : Dev) k => d.footEntry o.ecore o.earray t (k / 64) (k % 64)
        (BitVec.ofNat 256 (leNat (d.rdMem (o.stock.toNat + 32 * k) 32)))) d
      let d := d.updTile o.ecore o.earray t fun x => { x with
        ext := skeep (fun k => !ks.contains k) x.ext, frac := skeep (fun k => !ks.contains k) x.frac }
      d.updOp o.id fun y => { y with pos := o.pos + ks.length }

end Sys2Proof.Machine
end

