-- ==== Sys2Proof/Machine/Arrays.lean ====
section
/-!
DEFINITION. The arrays, cycle by cycle (R65 to R83, R95, R96): when an operation may start and load, the slots that enter, what
the foot writes for them, loads row by row, stops by a pause, and the drain of a half.
-/

namespace Sys2Proof.Machine

/-! Tile order (R95, R96). -/

/-- Operations before `o` in a tile's order. -/
def Dev.earlier (d : Dev) (o : Op) (t : TileId) : List Op := (d.tileOps o.ecore o.earray t).takeWhile fun x => x.id != o.id

/-- A FINISH or lift whose last read of the tile lies in an earlier cycle. -/
def Op.readAll (o : Op) (now : Nat) : Bool :=
  o.phase == .started && o.stop.isNone && (o.opcode == 0x42 || o.opcode == 0x43) && decide (o.due < now + o.tail)

/-- A started MMA whose every slot has entered (R65). -/
def Op.injected (o : Op) : Bool := o.phase == .started && o.opcode == 0x40 && o.pos == o.shape.passes && o.feed.isNone

/-- Its last slot has entered, or enters in this cycle; of an MMALW: its load has begun. -/
def Op.fed (o : Op) (now : Nat) : Bool :=
  if o.opcode == 0x41 then o.loaded
  else o.injected || (o.phase == .started && (o.pos + (if o.feed.any fun f => f.1 == 0 then 1 else 0)) == o.shape.passes &&
    o.feed.any fun f => decide (f.1 + 1 = o.shape.m.m) && decide (f.2 ≤ now))

/-- An array operation whose last entry, or last shadow row, was written in an earlier cycle (R80, R95). -/
def Op.written (o : Op) (now : Nat) : Bool :=
  if o.opcode == 0x41 then o.loaded && o.rows.isNone else o.injected && decide (o.due < now)

/-- `y` may follow `x` chained (R96). -/
def Op.chains (x y : Op) (now : Nat) : Bool :=
  x.opcode == 0x40 && x.fed now && y.opcode == 0x40 && x.halfMask == y.halfMask && x.shape.beat == y.shape.beat && !y.shape.m.init &&
  y.shape.mode != .ieee && x.shape.mode != .ieee

/-- Every earlier operation on the operation's tiles has made its last access, or the operation is chained to it. -/
def Dev.tileFree (d : Dev) (o : Op) : Bool :=
  o.tiles.all fun t => (d.earlier o t).all fun x => x.readAll d.cycle || (x.opcode == 0x40 && x.written d.cycle) || x.chains o d.cycle

/-! Starting an array operation. -/

/-- Started array operations on the array. -/
def Dev.arrOps (d : Dev) (c : CoreId) (a : ArrayId) : List Op :=
  d.ops.filter fun o => o.isArr && o.phase == .started && o.ecore == c && o.earray == a

/-- The feeders let the operation start: R80, and the order of a half's queue. -/
def Dev.feedersFree (d : Dev) (o : Op) : Bool :=
  (d.arrOps o.ecore o.earray).all fun x =>
    x.written d.cycle ||
    (if o.halfMask = 3 then x.halfMask == 3 && x.fed d.cycle else if x.halfMask = 3 then false else x.halfMask != o.halfMask || x.fed d.cycle)

/-- It is at the head of every queue it entered. -/
def Dev.atHeads (d : Dev) (o : Op) : Bool :=
  (queuesOf o.opcode.toNat o.w).all fun q => (d.head o.ecore q).any fun x => x.id == o.id

/-- A preload whose load has begun and whose slice a wsrc-1 MMA may take. -/
def Dev.preloading (d : Dev) (o : Op) (u : HalfId) : Option Op :=
  (d.arrOps o.ecore o.earray).find? fun x => x.opcode == 0x41 && x.loaded && !x.closed && x.usesHalf u

/-- The weight state suits the MMA (Table 3.14, R187). -/
def Dev.weightsOk (d : Dev) (o : Op) : Bool :=
  let s := o.shape
  let f := BitVec.ofNat 4 (wFmtB o.w)
  let int := s.mode == .integer
  o.halves.all fun u =>
    let h := d.half o.ecore o.earray u
    match s.m.wsrc with
    | 1 => (match d.preloading o u with
      | some x => wFmtB x.w == wFmtB o.w && (wMode x.w == .integer) == int
      | none => h.preloaded && h.preFmt == f && h.preInt == int)
    | 2 => h.active && h.fmt == f && h.int == int
    | _ => true

/-- The tile that makes an operation fault on reaching it (R101). -/
def Dev.poisonedTile (d : Dev) (o : Op) : Bool := o.tiles.any fun t => (d.tile o.ecore o.earray t).poisoned

/-- Its first pass needs a load (Table 3.5): of an MMALW and a wsrc-0 MMA, and of an MMA resumed between passes. -/
def Op.loadsFirst (o : Op) : Bool := o.opcode == 0x41 || o.pos ≠ 0 || o.shape.m.wsrc == 0

/-- The weight feeder of the operation's halves is free, and the previous switching token has passed (R72). -/
def Dev.loadAllowed (d : Dev) (o : Op) : Bool :=
  o.halves.all fun u =>
    let h := d.half o.ecore o.earray u
    (match h.swapAt with
      | some t => decide (t + 63 * h.beat ≤ d.cycle)
      | none => true) &&
    (d.arrOps o.ecore o.earray).all fun x => !x.usesHalf u || x.rows.isNone

/-- The operation starts; the source of its first pass's weights is settled (R74). -/
def Dev.startMma (d : Dev) (o : Op) : Dev :=
  (d.startOp o 0).updOp o.id fun x => { x with due := 0, loaded := !o.loadsFirst, loadAt := 0, rows := none, tok := false, feed := none, slot0 := none }

/-- An operation ahead of `o` in a queue of its halves has not completed: a weight-state fault waits for it (R83). -/
def Dev.aheadRuns (d : Dev) (o : Op) : Bool := (d.arrOps o.ecore o.earray).any fun x => o.halves.any fun v => x.usesHalf v

/-- MMA_START (R72, R80, R83, R95, R101, R187): the operation at the head of a half queue starts, or faults there. -/
def Dev.mmaStart (d : Dev) (c : CoreId) (a : ArrayId) (u : HalfId) : Dev :=
  match d.head c (.half a u) with
  | none => d
  | some o =>
    if !d.atHeads o || !d.feedersFree o || o.halves.any (fun v => (d.half c a v).drainEnd.isSome) then d
    else if o.opcode == 0x40 && o.pos = 0 && !d.weightsOk o then (if d.aheadRuns o then d else d.fault 7 o.origin 0)
    else if !d.tileFree o || (o.loadsFirst && !d.loadAllowed o) then d
    else if o.opcode == 0x40 && !o.shape.m.init && d.poisonedTile o then d.fault 11 o.origin 0
    else d.startMma o

def execMmaStart (c : CoreId) (a : ArrayId) (u : HalfId) (s : State) : Host.Outcome State Fault Refusal :=
  onDev s fun d => d.mmaStart c a u

/-! Loads (R70, R72, R75, R218). -/

/-- The started operation of a half whose next slice is to be loaded. -/
def Dev.loadNext (d : Dev) (c : CoreId) (a : ArrayId) (u : HalfId) : Option Op :=
  (d.arrOps c a).find? fun o => o.usesHalf u && !o.loaded && o.stop.isNone && (o.opcode == 0x41 || decide (o.pos < o.shape.passes))

/-- WEIGHT_LOAD_START (R72, R75, R218): the load begins; a slice that waits in the shadow registers, or on its way there, is
overwritten. -/
def Dev.weightLoadStart (d : Dev) (c : CoreId) (a : ArrayId) (u : HalfId) : Dev :=
  match d.loadNext c a u with
  | none => d
  | some o =>
    if !d.loadAllowed o then d
    else
      let s := o.shape
      if d.zkBad o s then d.fault 5 o.origin 0
      else
        let mine := fun (x : Op) => x.opcode == 0x41 && x.id != o.id && x.phase == .started && x.ecore == c && x.earray == a &&
          o.halves.any fun v => x.usesHalf v
        let d := { d with ops := d.ops.map fun x => if mine x then { x with closed := true } else x }
        let d := o.halves.foldl (fun (d : Dev) v => d.updHalf c a v fun h => { h with preloaded := false }) d
        d.updOp o.id fun x => { x with
          loaded := true, loadAt := d.cycle, rows := some 0, tok := false, due := if o.opcode == 0x41 then d.cycle + s.h * s.beat - 1 else x.due }

def execWeightLoadStart (c : CoreId) (a : ArrayId) (u : HalfId) (s : State) : Host.Outcome State Fault Refusal :=
  onDev s fun d => d.weightLoadStart c a u

/-- The rows of a load whose beat ends in this cycle are read and written, in ascending order (R70, R208). -/
def Dev.loadRows (d : Dev) (o : Op) : Dev :=
  match o.rows with
  | none => d
  | some r0 =>
    let s := o.shape
    let r1 := min s.h ((d.cycle + 1 - o.loadAt) / s.beat)
    let p := if o.opcode == 0x41 then 0 else if o.tok then o.pos - 1 else o.pos
    if r1 ≤ r0 then d
    else
      let rs := (List.range r1).drop r0
      let e := d.scan (rs.flatMap fun r => o.bReads s p r)
      match e.2 with
      | some x => (e.1.updOp o.id fun y => { y with rows := none }).fault 4 o.origin (BitVec.ofNat 64 x)
      | none =>
        let d := rs.foldl (fun (d : Dev) r => d.loadRow o s p r) e.1
        (d.cnt o.ecore (20 + 4 * o.earray.val) rs.length).updOp o.id fun y => { y with rows := if r1 = s.h then none else some r1 }

/-! Slots. -/

/-- The started MMA of a half whose next pass is to enter. -/
def Dev.passNext (d : Dev) (c : CoreId) (a : ArrayId) (u : HalfId) : Option Op :=
  (d.arrOps c a).find? fun o => o.opcode == 0x40 && o.usesHalf u && o.stop.isNone && decide (o.pos < o.shape.passes)

/-- The next pass's token switches weights (R71, R74). -/
def Op.switches (o : Op) : Bool := !(o.pos == 0 && o.shape.m.wsrc == 2)

/-- The load of the next pass's slice began a beat ago or earlier (R73): its own, or that of the preload it takes. -/
def Dev.sliceReady (d : Dev) (o : Op) : Bool :=
  o.loaded &&
  (if !o.switches then true
   else if o.pos = 0 && o.shape.m.wsrc == 1 then o.halves.all fun u => match d.preloading o u with
     | some x => decide (x.loadAt + x.shape.beat ≤ d.cycle)
     | none => true
   else decide (o.loadAt + o.shape.beat ≤ d.cycle))

/-- A beat of the operation begins in this cycle (R65). -/
def Op.onBeat (o : Op) (now : Nat) : Bool :=
  match o.slot0 with
  | some t => (now - t) % o.shape.beat == 0
  | none => true

/-- Every running value that the next pass takes will have returned when its slot reaches row 0 (R54, R76, R78). -/
def Dev.valuesBack (d : Dev) (o : Op) : Bool :=
  let s := o.shape
  s.mode != .ieee || d.slots.all fun l => l.op != o.id || decide (l.at_ + s.beat * s.h ≤ d.cycle + s.beat * l.row)

/-- The first slot may enter: no pass of its halves still feeds, the slots before it have moved on, the beat, and the load
(R65, R66, R73, R77). -/
def Dev.slotAllowed (d : Dev) (o : Op) : Bool :=
  let s := o.shape
  let w := d.width o.ecore o.earray
  d.sliceReady o && o.onBeat d.cycle && d.valuesBack o &&
  (d.arrOps o.ecore o.earray).all (fun x => x.feed.isNone || !(o.halves.any fun u => x.usesHalf u)) &&
  o.halves.all fun u =>
    let h := d.half o.ecore o.earray u
    let b := h.beat
    decide (h.emptyAt ≤ d.cycle) ||
    (if b = s.beat then decide (h.emptyAt ≤ d.cycle + b * (w + s.h - 1) + 6) else decide (h.emptyAt ≤ d.cycle + b + 6))

/-- Units of the activity account that one slot costs (R334). -/
def MmaShape.cost (s : MmaShape) : Nat :=
  let n := if s.fa = .bp4 && s.fb = .bp4 then 63 else 64 * s.beat
  if s.h = 64 then n else (n + 1) / 2

/-- Slots in the operation's halves, and its loads, meet the token (R71): what earlier slots have still to pass keeps their
weights; a load in progress goes on into the registers that become active; a preload is consumed. -/
def Dev.switchWeights (d : Dev) (o : Op) (s : MmaShape) : Dev :=
  let c := o.ecore
  let a := o.earray
  let act := (d.arr c a).act
  let pass := fun (l : Slot) =>
    if l.core == c && l.array == a && (o.halves.any fun u => l.mask.testBit u.val) then { l with wts := some (l.wts.getD act), flips := l.flips + 1 }
    else l
  let meet := fun (x : Op) =>
    if x.isArr && x.phase == .started && x.ecore == c && x.earray == a && (o.halves.any fun u => x.usesHalf u) then
      { x with tok := x.tok || x.rows.isSome, closed := x.closed || x.opcode == 0x41 }
    else x
  let d := { d with slots := d.slots.map pass, ops := d.ops.map meet }
  let d := d.updArr c a fun x => x.switch s.base (s.base + s.h)
  o.halves.foldl (fun (d : Dev) u => d.updHalf c a u fun h => { h with
    active := true, fmt := BitVec.ofNat 4 (wFmtB o.w), int := s.mode == .integer, preloaded := false, swapAt := some d.cycle }) d

/-- The swap token of a pass enters with its first slot (R71): weights switch, an initialising MMA takes its tiles (R92, R101). -/
def Dev.passToken (d : Dev) (o : Op) : Dev :=
  let s := o.shape
  let c := o.ecore
  let a := o.earray
  let d := if o.switches then d.switchWeights o s
    else o.halves.foldl (fun (d : Dev) u => d.updHalf c a u fun h => { h with swapAt := if h.beat = s.beat then h.swapAt else none }) d
  let d := o.halves.foldl (fun (d : Dev) u => d.updHalf c a u fun h => { h with beat := s.beat }) d
  let d := if o.pos = 0 && s.m.init then o.tiles.foldl (fun (d : Dev) t => d.updTile c a t fun x =>
    { x with poisoned := false, cls := BitVec.ofNat 3 s.cls.code, ext := [], frac := [] }) d else d
  d.updOp o.id fun x => { x with pos := x.pos + 1, loaded := false, due := 0 }

/-- Slot `m` of the operation's pass enters in this cycle, or is held back a beat where the activity account is short (R65,
R78, R208, R334). -/
def Dev.feedSlot (d : Dev) (o : Op) (m : Nat) : Dev :=
  let s := o.shape
  let c := o.ecore
  let a := o.earray
  let p := if m = 0 then o.pos else o.pos - 1
  let die := dieOf c
  if d.aoc.gov.units.get die < s.cost then
    ((d.cnt c (18 + 4 * a.val) 1).cnt c (19 + 4 * a.val) 1).updOp o.id fun x => { x with feed := some (m, d.cycle + s.beat) }
  else
    let r := d.scan (o.aReads s p m)
    match r.2 with
    | some x => (r.1.updOp o.id fun y => { y with feed := none }).fault 4 o.origin (BitVec.ofNat 64 x)
    | none =>
      let d := r.1.updAoc fun x => { x with gov := { x.gov with units := vmap x.gov.units die fun n => n - s.cost } }
      let act := d.slotAct o s p m
      let d := if m = 0 then d.passToken o else d
      let l : Slot := { op := o.id, origin := o.origin, core := c, array := a, mask := o.halfMask, row := m, at_ := d.cycle, act := act
                        base := s.base, beat := s.beat, cols := s.cls.columns * s.m.n, dead := false
                        fresh := p == o.base, first := p == 0, last := p + 1 == s.passes, pass := p
                        wts := none, flips := 0, acc := [], done := 0 }
      let stop := d.cycle + s.beat * (d.width c a + s.h) + 6
      let d := o.halves.foldl (fun (d : Dev) u => d.updHalf c a u fun h => { h with emptyAt := max h.emptyAt stop }) d
      ({ d with slots := d.slots ++ [l] }.cnt c (17 + 4 * a.val) 1).updOp o.id fun x => { x with
        feed := if m + 1 = s.m.m then none else some (m + 1, d.cycle + s.beat)
        due := if m + 1 = s.m.m && p + 1 = s.passes then stop - 1 else x.due }

/-- PASS_START (R65, R73, R77): the first slot of the next pass is to enter in this cycle with its token, in its place among the
slots of the cycle (R334). -/
def Dev.passStart (d : Dev) (c : CoreId) (a : ArrayId) (u : HalfId) : Dev :=
  match d.passNext c a u with
  | none => d
  | some o => if !d.slotAllowed o || (d.last o.last).pausing.any (fun p => decide (p.began < d.cycle)) then d
    else d.updOp o.id fun x => { x with feed := some (0, d.cycle), slot0 := some (x.slot0.getD d.cycle) }

def execPassStart (c : CoreId) (a : ArrayId) (u : HalfId) (s : State) : Host.Outcome State Fault Refusal :=
  onDev s fun d => d.passStart c a u

/-- A slot of the operation is due. -/
def Op.slotDue (o : Op) (now : Nat) : Bool := o.opcode == 0x40 && o.phase == .started && o.feed.any fun f => decide (f.2 ≤ now)

/-- The slots whose beat begins in this cycle enter, in ascending core, array and half order (R334). -/
def Dev.feedCycle (d : Dev) : Dev :=
  if !(d.ops.any fun o => o.slotDue d.cycle) then d
  else allCores.foldl (fun d c => allArrays.foldl (fun d a => allHalves.foldl (fun (d : Dev) u =>
    match (d.arrOps c a).find? fun o => o.slotDue d.cycle && o.usesHalf u with
    | some o => (match o.feed with
      | some f => d.feedSlot o f.1
      | none => d)
    | none => d) d) d) d

/-! Parity (R83). -/

/-- Logical column of a physical one (R84). -/
def Dev.logCol (d : Dev) (c : CoreId) (a : ArrayId) (p : Nat) : Option Nat :=
  let m := d.reg (aColmMap c a)
  if bitOf m p then none else some ((List.range p).filter fun q => !bitOf m q).length

/-- The first register with a parity mismatch whose value a slot uses in this cycle. Of several mismatches of a cycle the one listed
first counts for the oldest slot that meets any (DESIGN CHOICE, log 16). -/
def Dev.parityHit (d : Dev) (l : Slot) : Option (Nat × Nat × Nat) :=
  (d.arr l.core l.array).parity.find? fun e =>
    let i := e.2.1 - l.base
    decide (l.base ≤ e.2.1) && (l.act.any fun r => r.1 == i) &&
    (if e.1 = 2 then decide (l.at_ + l.beat * i = d.cycle)
     else e.1 == l.flips % 2 && match d.logCol l.core l.array e.2.2 with
       | some j => decide (j < l.cols) && decide (l.at_ + l.beat * (i + j) = d.cycle)
       | none => false)

/-- The slots meet the parity mismatches of the registers that they use in this cycle. The slot behind one that has met a
mismatch in a staggering register rewrites that register. -/
def Dev.parityCycle (d : Dev) : Dev :=
  d.slots.foldl (fun (d : Dev) l =>
    if (d.arr l.core l.array).parity.isEmpty then d
    else match d.parityHit l with
      | some e =>
        let d := if e.1 = 2 then d.updArr l.core l.array fun x => { x with parity := x.parity.filter fun y => y != e } else d
        (d.hwSet (aArrErr l.core l.array) 4 0x3F3F00 (mkWord [(8, e.2.1), (16, e.2.2)])).fault 8 l.origin 0
      | none => d) d

/-! The foot (R48, R52, R54, R56, R66, R76). -/

def Dev.updSlot (d : Dev) (l : Slot) (f : Slot → Slot) : Dev :=
  { d with slots := updFirst (fun x => x.op == l.op && x.pass == l.pass && x.row == l.row) f d.slots }

/-- The foot writes an output of a slot: its first column now, its second a beat later (R66, R68). -/
def Dev.footOut (d : Dev) (o : Op) (s : MmaShape) (l : Slot) (c : Nat) : Dev :=
  let pl := o.place s c
  let span := s.cls.span
  let n := span / s.cls.columns
  let e := if l.first && s.m.init then (d, false) else d.bedScan l.core l.array pl.1 l.row pl.2 (pl.2 + span)
  if e.2 then e.1.bedFault o pl.1
  else
    let d := e.1
    let f := l.foot s (d.slotWeights l) (d.footTile l.core l.array pl.1 span l.row pl.2) c pl.2
    let d := d.putBits l.core l.array pl.1 l.row pl.2 0 n f.bits
    let k := 64 * l.row + pl.2
    let d := d.updTile l.core l.array pl.1 fun x => { x with
      ext := sset (fun _ => (0 : BitVec 4)) x.ext k f.ext, frac := sset (fun _ => 0) x.frac k f.frac }
    let rest : List BedWr := ((List.range span).drop n).map fun m =>
      ⟨l.footAt s c + s.beat, o.id, l.core, l.array, pl.1, l.row, pl.2 + m, BitVec.ofNat 256 (f.bits / 2 ^ (256 * m))⟩
    { d with bedWrs := d.bedWrs ++ rest }.updOp o.id fun x => { x with flags := x.flags ||| f.fl }

/-- Entries that the foot writes in cycle `now` at the latest, of the operations that `p` names. -/
def Dev.footRest (d : Dev) (p : Nat → Bool) (now : Nat) : Dev :=
  let mine := fun (w : BedWr) => decide (w.due ≤ now) && p w.op
  let due := d.bedWrs.filter mine
  if due.isEmpty then d
  else due.foldl (fun (d : Dev) w => d.footEntry w.core w.array w.tile w.row w.col w.val) { d with bedWrs := d.bedWrs.filter fun w => !mine w }

/-- A slot's outputs are written up to cycle `now`; a slot whose last output is written is gone. -/
def Dev.footSlot (d : Dev) (now : Nat) (l : Slot) : Dev :=
  match d.ops.find? fun o => o.id == l.op with
  | none => d
  | some o =>
    let s := o.shape
    if s.mode == .ieee then d
    else
      let cs := l.dueOuts s now (l.footAt s)
      if cs.isEmpty then d
      else (cs.foldl (fun (d : Dev) c => d.footOut o s l c) d).updSlot l fun x => { x with done := x.done + cs.length }

/-- Slots whose last output has been written, or returned to the top, have left; one of a draining half leaves the last column. -/
def Dev.slotsGone (d : Dev) : Dev :=
  { d with slots := d.slots.filter fun l =>
    if l.dead then decide (d.cycle < l.at_ + l.beat * (d.width l.core l.array + if l.mask = 3 then 64 else 32))
    else match d.ops.find? fun o => o.id == l.op with
      | some o => decide (l.done < o.shape.m.n)
      | none => false }

/-- Everything the foot writes up to cycle `now` for the operations that `p` names. -/
def Dev.feet (d : Dev) (p : Nat → Bool) (now : Nat) : Dev :=
  if d.slots.isEmpty && d.bedWrs.isEmpty then d
  else
    let d := d.footRest p now
    ((d.slots.filter fun l => p l.op).foldl (fun (d : Dev) l => d.footSlot now l) d).slotsGone

/-! IEEE chains (R54, R76). -/

/-- The values that leave the last row in this cycle: to the foot after the last pass that runs, else to the top. -/
def Dev.ieeeLeave (d : Dev) (l : Slot) : Dev :=
  match d.ops.find? fun o => o.id == l.op with
  | none => d
  | some o =>
    let s := o.shape
    if s.mode != .ieee then d
    else
      let cs := l.dueOuts s d.cycle (l.leavesAt s)
      if cs.isEmpty then d
      else
        let final := l.last || (o.stop.isSome && l.pass + 1 == o.pos)
        let d := cs.foldl (fun (d : Dev) c =>
          let r := l.ieeeOut s (d.slotWeights l) c
          let pl := o.place s c
          let d := d.updOp o.id fun x => { x with flags := x.flags ||| r.2 }
          if final then
            { d with bedWrs := d.bedWrs ++ [⟨l.leavesAt s c + s.beat + 5, o.id, l.core, l.array, pl.1, l.row, pl.2, BitVec.ofNat 256 r.1⟩] }
          else d.updArr l.core l.array fun x => { x with ret := sset (fun _ => 0) x.ret (retKey s l.row c) (r.1 + 1) }) d
        d.updSlot l fun x => { x with done := x.done + cs.length }

/-- The starting value of a slot's output `c` (R76): its entry, +0 under init 1, or what has returned to the top. -/
def Dev.ieeeTake (d : Dev) (o : Op) (s : MmaShape) (l : Slot) (c : Nat) : Dev × Nat :=
  let pl := o.place s c
  if l.first && s.m.init then (d, 0)
  else if l.fresh then
    let e := d.bedScan l.core l.array pl.1 l.row pl.2 (pl.2 + 1)
    (if e.2 then e.1.bedFault o pl.1 else e.1, (d.tile l.core l.array pl.1).bits 1 l.row pl.2 % 2 ^ s.cls.width)
  else
    let k := retKey s l.row c
    (d.updArr l.core l.array fun x => { x with ret := sset (fun _ => 0) x.ret k 0 }, sget (fun _ => 0) (d.arr l.core l.array).ret k - 1)

/-- The values that enter row 0 in this cycle. -/
def Dev.ieeeEnter (d : Dev) (l : Slot) : Dev :=
  match d.ops.find? fun o => o.id == l.op with
  | none => d
  | some o =>
    let s := o.shape
    if s.mode != .ieee then d
    else
      let cs := ((List.range s.m.n).drop l.acc.length).takeWhile fun c => decide (l.at_ + s.beat * c ≤ d.cycle)
      let r := cs.foldl (fun (x : Dev × List (Nat × Nat)) c =>
        let v := x.1.ieeeTake o s l c
        (v.1, x.2 ++ [(c, v.2)])) (d, l.acc)
      if cs.isEmpty then d else r.1.updSlot l fun x => { x with acc := r.2 }

def Dev.ieeeCycle (d : Dev) : Dev :=
  let d := d.slots.foldl (fun (d : Dev) l => d.ieeeLeave l) d
  d.slots.foldl (fun (d : Dev) l => d.ieeeEnter l) d

/-! Stops by a pause (R292, Table 10.5). -/

/-- A started MMA takes no further pass. One whose last pass has begun runs to its end; one that has begun none is recorded. The
load of a pass that has entered goes on; one for a pass that does not is left. -/
def Dev.stopMma (d : Dev) (o : Op) : Dev :=
  if o.pos = o.shape.passes then d
  else if o.pos = 0 then d.updOp o.id fun x => { x with phase := .stopped, loaded := false, rows := none, feed := none }
  else d.updOp o.id fun x => { x with
    stop := some o.pos, rows := if x.tok then x.rows else none, loaded := false
    feed := match x.feed with
      | some (0, _) => none
      | f => f }

/-- The running values that an IEEE operation has on the return path go to their entries (R76). -/
def Dev.retOut (d : Dev) (o : Op) (s : MmaShape) : Dev :=
  if s.mode != .ieee then d
  else (List.range s.m.m).foldl (fun (d : Dev) i => (List.range s.m.n).foldl (fun (d : Dev) c =>
    let k := retKey s i c
    let pl := o.place s c
    match (d.arr o.ecore o.earray).ret.find? fun e => e.1 == k with
    | none => d
    | some e => (d.footEntry o.ecore o.earray pl.1 i pl.2 (BitVec.ofNat 256 (e.2 - 1))).updArr o.ecore o.earray fun x =>
        { x with ret := sset (fun _ => 0) x.ret k 0 }) d) d

/-- A stopping MMA whose last entry has been written becomes an operation record; it resumes as init 0. -/
def Dev.stopCycle (d : Dev) : Dev :=
  (d.ops.filter fun o => o.opcode == 0x40 && o.phase == .started && o.stop.isSome && o.feed.isNone).foldl (fun (d : Dev) o =>
    if (d.slots.any fun l => l.op == o.id) || (d.bedWrs.any fun w => w.op == o.id) then d
    else (d.retOut o o.shape).updOp o.id fun x => { x with
      phase := .stopped, stop := none, desc := x.desc.set 0 (setFld (wordAt x.desc 0) 20 1 0) }) d

/-! One cycle of the arrays. -/

/-- Rows, slots, running values and the foot in this cycle: what is read is read before what is written. -/
def Dev.arrayCycle (d : Dev) : Dev :=
  let d := d.feedCycle
  let d := (d.ops.filter fun o => o.phase == .started && o.rows.isSome).foldl (fun (d : Dev) o => d.loadRows o) d
  if d.slots.isEmpty && d.bedWrs.isEmpty then d.stopCycle
  else (d.parityCycle.ieeeCycle.feet (fun _ => true) d.cycle).stopCycle

/-! Completion. -/

/-- MMA_COMPLETE (R66, R76, R416): the oldest MMA of the half that has injected every slot and written its last entry. -/
def Dev.mmaComplete (d : Dev) (c : CoreId) (a : ArrayId) (u : HalfId) : Dev :=
  match (d.arrOps c a).find? fun o => o.opcode == 0x40 && o.usesHalf u with
  | none => d
  | some o =>
    if !o.injected || decide (d.cycle < o.due) then d
    else
      let d := d.feet (fun i => i == o.id) d.cycle
      if (d.slots.any fun l => l.op == o.id) || (d.bedWrs.any fun w => w.op == o.id) then d else d.endOp (d.opNow o) .fin

def execMmaComplete (c : CoreId) (a : ArrayId) (u : HalfId) (s : State) : Host.Outcome State Fault Refusal :=
  onDev s fun d => d.mmaComplete c a u

/-- MMALW_COMPLETE (R70, R75, R187): the last row is in; the slice waits in the shadow registers unless it has been consumed
or overwritten. -/
def Dev.mmalwComplete (d : Dev) (c : CoreId) (a : ArrayId) (u : HalfId) : Dev :=
  match (d.arrOps c a).find? fun o => o.opcode == 0x41 && o.usesHalf u && o.loaded with
  | none => d
  | some o =>
    if d.cycle < o.due then d
    else
      let d := d.loadRows o
      let d := if o.closed then d else o.halves.foldl (fun (d : Dev) v => d.updHalf c a v fun h => { h with
        preloaded := true, preFmt := BitVec.ofNat 4 (wFmtB o.w), preInt := wMode o.w == .integer }) d
      d.endOp (d.opNow o) .fin

def execMmalwComplete (c : CoreId) (a : ArrayId) (u : HalfId) (s : State) : Host.Outcome State Fault Refusal :=
  onDev s fun d => d.mmalwComplete c a u

/-! The drain of a half (R82). -/

/-- Beat and beginning of the beat of slot f, and rows, of a half that a fault reached in cycle `t`; none where it has no slot
in its cells and no load. -/
def Dev.drainBeat (d : Dev) (c : CoreId) (a : ArrayId) (u : HalfId) (t : Nat) : Option (Nat × Nat × Nat) :=
  let ls := d.slots.filter fun l => l.core == c && l.array == a && l.mask.testBit u.val && !l.dead
  let h := if (ls.any fun l => l.mask == 3) || ((d.arrOps c a).any fun o => o.halfMask == 3) then 64 else 32
  match ls.getLast? with
  | some l =>
    let b := (d.half c a u).beat
    some (b, l.at_ + b * ((t - l.at_) / b), h)
  | none =>
    let loads := (d.arrOps c a).filter fun o => o.usesHalf u && (o.rows.isSome || o.feed.isSome)
    if decide (t < (d.half c a u).emptyAt) || !loads.isEmpty then
      some (loads.foldl (fun n o => max n o.shape.beat) (d.half c a u).beat, t, h)
    else none

/-- A half that a fault of last `l` reached in cycle `t` begins to drain in the next (R82, steps 3 and 6). -/
def Dev.drainHalf (d : Dev) (c : CoreId) (a : ArrayId) (u : HalfId) (t : Nat) (f : Option (Nat × Nat × Nat)) : Dev :=
  let stop := match f with
    | some x => x.2.1 + x.1 * (d.width c a + x.2.2) + 6
    | none => t + 2
  let d := d.updHalf c a u fun x => { x with active := false, preloaded := false, swapAt := none, drainEnd := some stop, emptyAt := stop }
  let d := d.updArr c a fun x => { x with ret := x.ret.filter fun e => e.1 / 4096 != u.val && !(u.val == 1 && (f.any fun y => y.2.2 == 64)) }
  d.hwSet (aArrErr c a) (BitVec.ofNat 64 (2 ^ u.val)) 0 0

/-- The operations of faulted lasts that are queued in halves are removed (R82, step 5). -/
def Dev.dropArrays (d : Dev) (ls : List Nat) : Dev :=
  let gone := fun (o : Op) => o.isArr && o.phase == .queued && ls.contains o.last.val
  { d with ops := d.ops.filter fun o => !gone o, now := { d.now with left := d.now.left ++ d.ops.filter gone } }

/-- The halves that faults reached in cycle `t` (R82). Entries up to the end of slot f's beat are written; after them the tiles
of the started operations are poisoned, the operations go, and their slots continue through the cells. -/
def Dev.drainAll (d : Dev) (t : Nat) (hs : List (LastId × CoreId × ArrayId × HalfId)) : Dev :=
  if hs.isEmpty then d
  else
    let mine := fun (o : Op) => o.isArr && o.phase == .started && hs.any fun h => o.last == h.1 && o.ecore == h.2.1 && o.earray == h.2.2.1 && o.usesHalf h.2.2.2
    let beats := hs.map fun h => (h, d.drainBeat h.2.1 h.2.2.1 h.2.2.2 t)
    let d := (d.ops.filter mine).foldl (fun (d : Dev) o =>
      let f := beats.find? fun x => o.ecore == x.1.2.1 && o.earray == x.1.2.2.1 && o.usesHalf x.1.2.2.2
      match f with
      | some (_, some x) => d.feet (fun i => i == o.id) (x.2.1 + x.1 - 1)
      | _ => d) d
    let os := d.ops.filter mine
    let busy := fun (o : Op) => o.opcode == 0x40 &&
      (!o.injected || (d.slots.any fun l => l.op == o.id) || d.bedWrs.any fun w => w.op == o.id)
    let d := (os.filter busy).foldl (fun (d : Dev) o => o.tiles.foldl (fun (d : Dev) t => d.updTile o.ecore o.earray t fun x =>
      { x with poisoned := true, ext := [], frac := [] }) d) d
    let gone := fun (i : Nat) => os.any fun o => o.id == i
    let d := { d with
      ops := d.ops.filter fun o => !gone o.id, slots := d.slots.map fun l => if gone l.op then { l with dead := true } else l, bedWrs := d.bedWrs.filter fun w => !gone w.op }
    beats.foldl (fun (d : Dev) x => d.drainHalf x.1.2.1 x.1.2.2.1 x.1.2.2.2 t x.2) d

/-- HALF_DRAIN_END (R74, R82): the half is idle, and its weights are 0. -/
def Dev.halfDrainEnd (d : Dev) (c : CoreId) (a : ArrayId) (u : HalfId) : Dev :=
  match (d.half c a u).drainEnd with
  | none => d
  | some t =>
    if d.cycle < t then d
    else
      let d := { d with slots := d.slots.filter fun l => !(l.dead && l.core == c && l.array == a && l.mask.testBit u.val) }
      (d.updArr c a fun x => x.clearRows (32 * u.val) (32 * u.val + 32)).updHalf c a u fun h => { h with
        drainEnd := none, active := false, preloaded := false, swapAt := none }

def execHalfDrainEnd (c : CoreId) (a : ArrayId) (u : HalfId) (s : State) : Host.Outcome State Fault Refusal :=
  onDev s fun d => d.halfDrainEnd c a u

end Sys2Proof.Machine
end

