-- ==== Sys2Proof/Machine/Outlets.lean ====
section
/-!
DEFINITION. The commands of the finishing units and the slice port (R95, R97 to R107), their work cycle by cycle, and their
stop by a pause (Table 10.5).
-/

namespace Sys2Proof.Machine

/-! Finishing. -/

/-- FINISH_START (R95, R101, R107). -/
def Dev.finishStart (d : Dev) (c : CoreId) (a : ArrayId) : Dev :=
  match d.head c (.fin a) with
  | none => d
  | some o =>
    if (d.ops.any fun x => x.opcode == 0x42 && x.phase == .started && x.ecore == c && x.earray == a) || !d.tileFree o then d
    else if d.poisonedTile o then d.fault 11 o.origin 0
    else
      let f := fdesc o.desc
      d.startOp o (cyclesFrom f.rows f.cols (finRate (d.opCls o) f.act) o.pos - 1 + 11)

def execFinishStart (c : CoreId) (a : ArrayId) (s : State) : Host.Outcome State Fault Refusal := onDev s fun d => d.finishStart c a

/-- Elements, outputs or entries that an operation reads in all. -/
def Op.total (o : Op) : Nat :=
  match o.opcode.toNat with
  | 0x42 => (fdesc o.desc).rows * (fdesc o.desc).cols
  | 0x43 | 0x44 => 4096
  | _ => (vdesc o.desc).rows * (vdesc o.desc).cols

/-- The operation has read everything, and in this cycle writes the last of its results. -/
def Dev.lastWrite (d : Dev) (o : Op) : Bool := decide (o.due ≤ d.cycle) && o.pos == o.total && o.stop.isNone

/-- The last results of an operation are written and it completes. -/
def Dev.endRun (d : Dev) (o : Op) (set : FlagSet) : Dev :=
  let d := d.land fun i => i == o.id
  if d.landing o then d
  else match d.ops.find? fun x => x.id == o.id with
    | some x => d.endOp x set
    | none => d

/-- FINISH_COMPLETE (R105, R107). -/
def Dev.finishComplete (d : Dev) (c : CoreId) (a : ArrayId) : Dev :=
  match d.ops.find? fun x => x.opcode == 0x42 && x.phase == .started && x.ecore == c && x.earray == a with
  | none => d
  | some o => if d.lastWrite o then d.endRun o .fin else d

def execFinishComplete (c : CoreId) (a : ArrayId) (s : State) : Host.Outcome State Fault Refusal := onDev s fun d => d.finishComplete c a

/-! The slice port. -/

/-- SLICE_PORT_START (R95, R99 to R101). -/
def Dev.slicePortStart (d : Dev) (c : CoreId) : Dev :=
  match d.head c .slice with
  | none => d
  | some o =>
    if (d.running c [0x43, 0x44]).isSome || !d.tileFree o then d
    else
      let x := d.tile c o.earray (o.tiles.headD 0)
      if o.opcode == 0x44 then d.startOp o 127
      else if x.cls = 0 then d.fault 10 o.origin 0
      else if x.poisoned then d.fault 11 o.origin 0
      else d.startOp o 129

def execSlicePortStart (c : CoreId) (s : State) : Host.Outcome State Fault Refusal := onDev s fun d => d.slicePortStart c

/-- LIFT_COMPLETE (R97, R99). -/
def Dev.liftComplete (d : Dev) (c : CoreId) : Dev :=
  match d.running c [0x43] with
  | none => d
  | some o => if d.lastWrite o then (d.cnt c 61 1).endRun o .fin else d

def execLiftComplete (c : CoreId) (s : State) : Host.Outcome State Fault Refusal := onDev s fun d => d.liftComplete c

/-- RELOAD_COMPLETE (R98): the last entries are written, the tile takes the class, and it is no longer poisoned. -/
def Dev.reloadComplete (d : Dev) (c : CoreId) : Dev :=
  match d.running c [0x44] with
  | none => d
  | some o =>
    if d.cycle < o.due then d
    else
      let d := d.reloadCycle o
      match d.ops.find? fun x => x.id == o.id with
      | none => d
      | some x =>
        if x.pos ≠ 4096 then d
        else
          let d := d.updTile c o.earray (o.tiles.headD 0) fun y => { y with cls := BitVec.ofNat 3 (wCls o.w), poisoned := false }
          (d.cnt c 61 1).endOp x .fin

def execReloadComplete (c : CoreId) (s : State) : Host.Outcome State Fault Refusal := onDev s fun d => d.reloadComplete c

/-! One cycle, and a stop. -/

/-- What the finishing units and the slice ports read in this cycle, and what reloads write. -/
def Dev.outletCycle (d : Dev) : Dev :=
  (d.ops.filter fun o => o.phase == .started && (o.opcode == 0x42 || o.opcode == 0x43 || o.opcode == 0x44)).foldl (fun (d : Dev) o =>
    match o.opcode.toNat with
    | 0x42 => d.finishCycle o
    | 0x43 => d.liftCycle o
    | _ => d.reloadCycle o) d

/-- A started FINISH stops at the end of the row being read (Table 10.5). -/
def Dev.stopFinish (d : Dev) (o : Op) : Dev :=
  let f := fdesc o.desc
  let rate := finRate (d.opCls o) f.act
  let i := readTo f.rows f.cols rate o.base (d.cycle - o.began)
  let stop := min o.total (ceilDiv i f.cols * f.cols)
  if stop = o.total then d
  else d.updOp o.id fun x => { x with
    stop := some stop, due := o.began + (cyclesFrom f.rows f.cols rate o.base - cyclesFrom f.rows f.cols rate stop) - 1 + 11 }

/-- An operation that has read up to its stop point and written what it read becomes an operation record. -/
def Dev.stoppedCycle (d : Dev) : Dev :=
  (d.ops.filter fun o => o.phase == .started && !o.isArr && o.stop.any fun n => decide (n ≤ o.pos)).foldl (fun (d : Dev) o =>
    if d.landing o then d else d.updOp o.id fun x => { x with phase := .stopped, stop := none }) d

end Sys2Proof.Machine
end

