-- ==== Sys2Proof/Machine/Vector.lean ====
section
/-!
DEFINITION. The vector engine and the convert engine (R112 to R120, R189, R190, R417): what a piece of a row becomes.
-/

namespace Sys2Proof.Machine

/-! Operand planes. -/

/-- A source plane of a vector descriptor (R114, R221). -/
def Op.src (o : Op) (v : VDesc) (addr stride : Nat) (f : Option Fmt) (bc : Nat) : Plane :=
  let base := sliceBase o.core + addr
  let rx := if bc = 2 then 1 else v.rows
  let cx := if bc = 0 then v.cols else v.bs
  ⟨base, stride, f, base + rx * stride, cx / v.bs, v.bs, bc⟩

def fmtOf (n : Nat) : Fmt := (Fmt.ofCode n).getD .p8

def Op.srcA (o : Op) (v : VDesc) (words : Bool) : Plane := o.src v v.aAddr v.aStride (if words then none else some (fmtOf v.fa)) v.bcA
def Op.srcB (o : Op) (v : VDesc) (words : Bool) : Plane := o.src v v.bAddr v.bStride (if words then none else some (fmtOf v.fb)) v.bcB
def Op.srcC (o : Op) (v : VDesc) : Plane := o.src v v.cAddr v.cStride (some (fmtOf v.fc)) v.bcC
def Op.dst (o : Op) (v : VDesc) (words : Bool) : Plane := o.src v v.dAddr v.dStride (if words then none else some (fmtOf v.fd)) 0

/-- The rounding of element `i` of an operation. -/
def Dev.vrnd (d : Dev) (o : Op) (v : VDesc) (i : Nat) : Rnd := d.rndOf o.core o.last v.rnd o.draw i

/-! Element operations (Table 5.2). -/

/-- The exact result of an arithmetic operation (R115); `fp`: some source is FP32 or FP64. -/
def vopArith (fn : Nat) (fp : Bool) (rnd : Nat) (x y z : Val) : Val × Flags :=
  let r := match fn with
    | 0x00 => addV rnd x y
    | 0x01 => addV rnd x (negV y)
    | 0x02 => mulV x y
    | 0x03 => fmaV rnd x y z
    | 0x04 => maxV true x y
    | 0x05 => maxV false x y
    | 0x06 => (absV x, 0)
    | 0x07 => (if fp then negV x else negP x, 0)
    | 0x08 => divV (!fp) x y
    | 0x09 => sqrtV x
    | _ => (x, 0)
  (r.1.plain fp, r.2)

/-- A comparison (Table 5.2): the mask bit and the flags. -/
def vopCompare (fn : Nat) (fp : Bool) (x y : Val) : Bool × Flags :=
  if fp then
    (match fn with
      | 0x0A => ltV x y
      | 0x0B => ltV x y || eqV x y
      | _ => eqV x y, flagIf (x.isSig || y.isSig) fNV)
  else
    (match fn with
      | 0x0A => ltP x y
      | 0x0B => ltP x y || eqP x y
      | _ => eqP x y, 0)

/-- 32-bit integer operations (Table 5.2). -/
def vopInt (fn : Nat) (a b : BitVec 32) : BitVec 32 :=
  match fn with
  | 0x10 => a + b
  | 0x11 => a - b
  | 0x12 => a * b
  | 0x13 => a &&& b
  | 0x14 => a ||| b
  | 0x15 => a ^^^ b
  | 0x16 => a <<< (b.toNat % 32)
  | 0x17 => a >>> (b.toNat % 32)
  | _ => a.sshiftRight (b.toNat % 32)

/-- FTOI (Table 5.2): pattern, flags, saturated. -/
def vopFtoi (m : Rnd) (v : Val) : Cv :=
  match v with
  | .num q _ =>
    let r := roundSat (-(2 ^ 31 : Nat)) ((2 ^ 31 : Nat) - 1) m q
    ⟨lowBits 32 r.1, r.2.1, r.2.2, false⟩
  | .inf n => ⟨if n then 2 ^ 31 else 2 ^ 31 - 1, fNV, false, false⟩
  | _ => ⟨0, fNV, false, false⟩

/-- Elements e0 to e1 - 1. -/
def span (e0 e1 : Nat) : List Nat := (List.range (e1 - e0)).map fun n => e0 + n

/-- A piece of a row of a VOP (R115). A SEL that writes the selected pattern as it is updates the max-abs slot like a conversion
(DESIGN CHOICE, log 7: R35 and R115 do not say). A DIV of posit sources is a posit operation, NaN and DZ on division by zero, whatever the
format of its destination (DESIGN CHOICE, log 64). -/
def Dev.vopPiece (d : Dev) (o : Op) (v : VDesc) (r e0 e1 : Nat) : Eff :=
  let es := span e0 e1
  let fpOf := fun (n : Nat) => (fmtOf n).isFp
  let i0 := r * v.cols + e0
  let fn := v.fn
  if 0x10 ≤ fn && fn ≤ 0x18 then
    let a := o.srcA v true
    let b := o.srcB v true
    ⟨[d.rowWrite (o.dst v true) r e0 (es.map fun e =>
      (vopInt fn (BitVec.ofNat 32 (d.elemPat a r e)) (BitVec.ofNat 32 (d.elemPat b r e))).toNat)], 0, MaxAbs.zero⟩
  else if fn = 0x19 then
    d.convRow (o.dst v false) (fmtOf v.fd) (d.vrnd o v) r e0 i0 (es.map fun e => d.elemVal (o.srcA v true) r e)
  else if fn = 0x1A then
    let cs := es.map fun e =>
      let x := d.elemVal (o.srcA v false) r e
      (x, vopFtoi (d.vrnd o v (r * v.cols + e)) x)
    ⟨[d.rowWrite (o.dst v true) r e0 (cs.map fun c => c.2.pat)], cs.foldl (fun (f : Flags) c => f ||| c.2.fl) 0,
      cs.foldl (fun (g : MaxAbs) c => g.join (gatherOf c.1 c.2)) MaxAbs.zero⟩
  else if fn = 0x0A || fn = 0x0B || fn = 0x0C then
    let fp := fpOf v.fa || fpOf v.fb
    let cs := es.map fun e => vopCompare fn fp (d.elemVal (o.srcA v false) r e) (d.elemVal (o.srcB v false) r e)
    ⟨[d.maskWrite (sliceBase o.core + v.mAddr) v.mStride r e0 (cs.map fun c => c.1)], cs.foldl (fun (f : Flags) c => f ||| c.2) 0,
      MaxAbs.zero⟩
  else if fn = 0x0D then
    let pick := fun e => if d.maskBit (sliceBase o.core + v.mAddr) v.mStride r e then o.srcA v false else o.srcB v false
    if v.fd = v.fa && !(fmtOf v.fd).isBlock then
      ⟨[d.rowWrite (o.dst v false) r e0 (es.map fun e => d.elemPat (pick e) r e)], 0,
        es.foldl (fun (g : MaxAbs) e => g.join (gatherOf (d.elemVal (pick e) r e) ⟨0, 0, false, false⟩)) MaxAbs.zero⟩
    else d.convRow (o.dst v false) (fmtOf v.fd) (d.vrnd o v) r e0 i0 (es.map fun e => d.elemVal (pick e) r e)
  else
    let n := match vopShape fn with
      | some x => x.1
      | none => 1
    let fp := fpOf v.fa || (decide (2 ≤ n) && fpOf v.fb) || (decide (3 ≤ n) && fpOf v.fc)
    let xs := es.map fun e =>
      let y := if 2 ≤ n then d.elemVal (o.srcB v false) r e else Val.zero
      let z := if 3 ≤ n then d.elemVal (o.srcC v) r e else Val.zero
      vopArith fn fp v.rnd (d.elemVal (o.srcA v false) r e) y z
    let c := d.convRow (o.dst v false) (fmtOf v.fd) (d.vrnd o v) r e0 i0 (xs.map fun x => x.1)
    { c with fl := c.fl ||| xs.foldl (fun (f : Flags) x => f ||| x.2) 0 }

/-- What a piece of a VOP reads. -/
def Op.vopReads (o : Op) (v : VDesc) (p : Nat × Nat × Nat) : List (Nat × Nat) :=
  match vopShape v.fn with
  | none => []
  | some (n, words, _) =>
    (o.srcA v words).reads p ++ (if 2 ≤ n then (o.srcB v words).reads p else []) ++ (if 3 ≤ n then (o.srcC v).reads p else []) ++
    (if v.fn = 0x0D then [(sliceBase o.core + v.mAddr + p.1 * v.mStride + p.2.1 / 8, (p.2.2 - p.2.1 + 7) / 8)] else [])

/-- Elements per cycle (Table 5.2, R116). -/
def vopRate (v : VDesc) : Nat :=
  let n := match vopShape v.fn with
    | some x => x.1
    | none => 1
  let compare := v.fn = 0x0A || v.fn = 0x0B || v.fn = 0x0C
  let wide := v.fa = 7 || (decide (2 ≤ n) && v.fb == 7) || (decide (3 ≤ n) && v.fc == 7) || (!compare && v.fd == 7)
  if v.fn = 8 || v.fn = 9 then (if wide then 8 else 32) else if v.fn ≤ 0x0E && wide then 64 else 128

/-! Reductions. -/

/-- What a row reduction carries (Tables 5.4, 5.5): sums of an exact or an integer source, lanes of an FP source, or the
best value so far. -/
inductive RedSt where
  | exact (s1 s2 : Option Int) (n : Nat)
  | int (s : Int) (n : Nat)
  | lanes (s1 s2 : List Nat) (n : Nat)
  | best (v : Option Val)
  deriving DecidableEq, Repr

/-- Lanes of an FP reduction (R120). -/
def redLanes (v : VDesc) : Nat := if v.fa = 7 then 64 else 128

/-- What kind of row state a VRED carries. -/
def redClass (v : VDesc) : Nat := if 4 ≤ v.kind then 3 else if v.fn = 1 then 1 else if (fmtOf v.fa).isFp then 2 else 0

/-- The state of a row before its first element (R117, R118, R120): from zero, or from its record. -/
def Dev.redStart (d : Dev) (o : Op) (v : VDesc) (r : Nat) : RedSt × Flags :=
  let a := sliceBase o.core + v.stAddr + r * v.stStride
  let rec8 := fun k => leNat (d.rdMem (a + k) 8)
  match redClass v with
  | 3 => (.best none, 0)
  | 1 => if v.init then (.int 0 0, 0) else (.int (signed 256 (leNat (d.rdMem a 32))) (rec8 128), 0)
  | 2 =>
    let z := List.replicate (redLanes v) 0
    if v.init then (.lanes z z 0, 0)
    else
      let f := fmtOf v.fa
      let x := convert f Rnd.rne (decodeFp 11 52 (rec8 0))
      let y := convert f Rnd.rne (decodeFp 11 52 (rec8 64))
      (.lanes (x.pat :: z.tail) (y.pat :: z.tail) (rec8 128), x.fl ||| y.fl)
  | _ =>
    if v.init then (.exact (some 0) (some 0) 0, 0)
    else (.exact (quireOf 512 (leNat (d.rdMem a 64))) (quireOf 512 (leNat (d.rdMem (a + 64) 64))) (rec8 128), 0)

/-- Whether the kind forms squares. -/
def redSquares (kind : Nat) : Bool := kind == 1 || kind == 2 || kind == 3

/-- One element joins a row's state (R117, R120, R34, R417). -/
def redStep (v : VDesc) (s : RedSt × Flags) (e : Nat) (x : Val) : RedSt × Flags :=
  match s.1 with
  | .exact s1 s2 n =>
    let q := match x with
      | .num a _ => some a
      | _ => none
    let a := quireAdd 512 s1 (q.map (quireUnits 240))
    let b := if redSquares v.kind then quireAdd 512 s2 (q.map fun a => quireUnits 240 (a * a)) else (s2, 0)
    (.exact a.1 b.1 (n + 1), s.2 ||| a.2 ||| b.2)
  | .int t n => (.int (match x with
      | .num a _ => signed 256 (lowBits 256 (t + a.floor))
      | _ => t) (n + 1), s.2)
  | .lanes s1 s2 n =>
    let f := fmtOf v.fa
    let l := e % redLanes v
    let a := addV 0 (decodeElem f 0 (s1.getD l 0)) x
    let ca := convert f Rnd.rne a.1
    let b := fmaPat f 0 (s2.getD l 0) x x
    if redSquares v.kind then (.lanes (s1.set l ca.pat) (s2.set l b.1) (n + 1), s.2 ||| a.2 ||| ca.fl ||| b.2)
    else (.lanes (s1.set l ca.pat) s2 (n + 1), s.2 ||| a.2 ||| ca.fl)
  | .best b =>
    let fl := s.2 ||| flagIf x.isSig fNV
    if x.isNan then (.best b, fl)
    else
      let y := if v.kind = 6 then absV x else x
      (.best (some (match b with
        | none => y
        | some z => (maxV (v.kind != 5) z y).1)), fl)

/-- A row's state as kept in an operation record (Table 10.5), and back. -/
def RedSt.pack : RedSt → List Nat
  | .exact a b n => [quirePat 512 a, quirePat 512 b, n]
  | .int s n => [lowBits 256 s, n]
  | .lanes a b n => n :: (a ++ b)
  | .best none => []
  | .best (some (.inf s)) => [1, b2n s]
  | .best (some (.num q nz)) => [2, b2n (decide (q < 0)), q.num.natAbs, q.den, b2n nz]
  | .best _ => []

def RedSt.unpack (v : VDesc) (l : List Nat) : RedSt :=
  match redClass v, l with
  | 0, [a, b, n] => .exact (quireOf 512 a) (quireOf 512 b) n
  | 1, [s, n] => .int (signed 256 s) n
  | 2, n :: t => .lanes (t.take (redLanes v)) (t.drop (redLanes v)) n
  | _, [1, s] => .best (some (.inf (s == 1)))
  | _, [2, s, a, b, z] => .best (some (.num (signQ (s == 1) (mkRat a b)) (z == 1)))
  | _, _ => .best none

/-- The outputs of a row, before rounding to fd (R117, R119, R120, R417). -/
def redOutputs (v : VDesc) (s : RedSt) : List Val × Flags :=
  match s with
  | .best b => ([match b with
      | some x => x
      | none => if v.kind = 6 then .zero else .nar], 0)
  | .int t _ => ([.ofRat t], 0)
  | .exact s1 s2 n =>
    let q1 := quireVal 512 s1
    let q2 := quireVal 512 s2
    match v.kind with
    | 0 => ([q1], 0)
    | 1 => ([q2], 0)
    | 3 => ([match q2 with
        | .num b _ => .ofRat (b / n)
        | x => x], 0)
    | _ => (match q1, q2 with
      | .num a _, .num b _ => ([.ofRat (a / n), .ofRat (b / n - a / n * (a / n))], 0)
      | _, _ => ([.nar, .nar], 0))
  | .lanes a b n =>
    let f := fmtOf v.fa
    let add := fun (x y : Nat × Flags) =>
      let r := addV 0 (decodeElem f 0 x.1) (decodeElem f 0 y.1)
      let c := convert f Rnd.rne r.1
      (c.pat, x.2 ||| y.2 ||| r.2 ||| c.fl)
    let tree := fun (l : List Nat) => (combineTree add 8 (l.map fun p => (p, (0 : Flags)))).headD (0, 0)
    let s1 := tree a
    let s2 := tree b
    let op := fun (r : Val × Flags) (fl : Flags) => let c := convert f Rnd.rne r.1; (decodeElem f 0 c.pat, fl ||| r.2 ||| c.fl)
    let cn := convert f Rnd.rne (.ofRat n)
    let nv := decodeElem f 0 cn.pat
    let sums := s1.2 ||| s2.2
    match v.kind with
    | 0 => ([decodeElem f 0 s1.1], sums)
    | 1 => ([decodeElem f 0 s2.1], sums)
    | 3 =>
      let m := op (divV false (decodeElem f 0 s2.1) nv) (sums ||| cn.fl)
      ([m.1], m.2)
    | _ =>
      let mean := op (divV false (decodeElem f 0 s1.1) nv) (sums ||| cn.fl)
      let ms := op (divV false (decodeElem f 0 s2.1) nv) mean.2
      let sq := op (mulV mean.1 mean.1) ms.2
      let var := op (addV 0 ms.1 (negV sq.1)) sq.2
      ([mean.1, if ltV var.1 .zero then .zero else var.1], var.2)

/-- The record of a row (Table 5.5, R118, R120), and the flags of the lanes' combination. -/
def redRecord (v : VDesc) (s : RedSt) : List Byte × Flags :=
  match s with
  | .exact a b n => (leBytes 64 (quirePat 512 a) ++ leBytes 64 (quirePat 512 b) ++ leBytes 8 n ++ zeros 56, 0)
  | .int t n => (leBytes 32 (lowBits 256 t) ++ zeros 96 ++ leBytes 8 n ++ zeros 56, 0)
  | .lanes _ _ n =>
    let x := redOutputs { v with kind := 0 } s
    let y := redOutputs { v with kind := 1 } s
    let p := fun (l : List Val) => leBytes 8 (convert .fp64 Rnd.rne (l.headD .zero)).pat ++ zeros 56
    (p x.1 ++ p y.1 ++ leBytes 8 n ++ zeros 56, x.2)
  | .best _ => (zeros 192, 0)

/-- A piece of a row of a VRED: the state it leaves where the row goes on, and its effect. -/
def Dev.vredPiece (d : Dev) (o : Op) (v : VDesc) (part : List Nat) (r e0 e1 : Nat) : List Nat × Eff :=
  let a := o.srcA v (v.fn == 1)
  let s0 := if e0 = 0 then d.redStart o v r else (RedSt.unpack v part, 0)
  let s := (span e0 e1).foldl (fun s e => redStep v s e (d.elemVal a r e)) s0
  if e1 < v.cols then (s.1.pack, ⟨[], s.2, MaxAbs.zero⟩)
  else if v.outk then
    let x := redRecord v s.1
    ([], ⟨[(sliceBase o.core + v.stAddr + r * v.stStride, x.1)], s.2 ||| x.2, MaxAbs.zero⟩)
  else
    let x := redOutputs v s.1
    let c := d.convRow (o.dst v false) (fmtOf v.fd) (d.vrnd o v) r 0 (if v.kind = 2 then 2 * r else r) x.1
    ([], { c with fl := c.fl ||| s.2 ||| x.2 })

/-- Elements per cycle (Table 5.3). -/
def vredRate (v : VDesc) : Nat := if v.fa = 7 then 64 else if v.fa = 2 && v.kind < 4 then 32 else 128

/-! Conversion (R190). -/

/-- A piece of a row of a CVT. -/
def Dev.cvtPiece (d : Dev) (o : Op) (v : VDesc) (r e0 e1 : Nat) : Eff :=
  let a := o.srcA v false
  let fp := (fmtOf v.fa).isFp
  let base := sliceBase o.core
  let dp : Plane := ⟨base + v.dAddr, v.dStride, some (fmtOf v.fd), base + v.cAddr, v.cols / v.bs, v.bs, 0⟩
  let xs := (span e0 e1).map fun e =>
    let x := d.elemVal a r e
    if v.scaled then scaleV fp x (decodePosit 32 2 v.scl) else (x, (0 : Flags))
  let c := d.convRow dp (fmtOf v.fd) (d.vrnd o v) r e0 (r * v.cols + e0) (xs.map fun x => x.1)
  { c with fl := c.fl ||| xs.foldl (fun (f : Flags) x => f ||| x.2) 0 }

end Sys2Proof.Machine
end

