-- ==== Sys2Proof/Machine/Sfu.lean ====
section
/-!
DEFINITION. The special-function unit and the pattern engine (R121, R128 to R136): what a piece of a row becomes.
-/

namespace Sys2Proof.Machine

/-! SFN. -/

/-- A piece of a row of an SFN (R121). -/
def Dev.sfnPiece (d : Dev) (o : Op) (v : VDesc) (r e0 e1 : Nat) : Eff :=
  let rs := (span e0 e1).map fun e => sfuEval v.fn (fmtOf v.fa) (d.elemPat (o.srcA v false) r e)
  ⟨[d.rowWrite (o.dst v false) r e0 (rs.map fun x => x.1)], rs.foldl (fun (f : Flags) x => f ||| x.2) 0, MaxAbs.zero⟩

/-! The soft maximum (R128 to R131). Patterns are of the working format `w`. -/

/-- The working format of a source format. -/
def smaxW (f : Fmt) : Fmt := if f = .fp32 then .fp32 else .p32

/-- The state of a row with a special element. -/
def smaxNan (w : Fmt) : Nat := if w = .fp32 then 0x7FC00000 else 0x80000000

def patNan (w : Fmt) (x : Nat) : Bool := (decodeElem w 0 x).isNan

/-- One rounded operation of the working format. -/
def wOp (w : Fmt) (r : Val × Flags) : Nat × Flags :=
  let c := convert w Rnd.rne r.1
  (c.pat, r.2 ||| c.fl)

def subW (w : Fmt) (x y : Nat) : Nat × Flags :=
  let a := addV 0 (decodeElem w 0 x) (negV (decodeElem w 0 y))
  wOp w (a.1.plain (w == .fp32), a.2)
def addW (w : Fmt) (x y : Nat) : Nat × Flags := wOp w (addV 0 (decodeElem w 0 x) (decodeElem w 0 y))
def mulW (w : Fmt) (x y : Nat) : Nat × Flags := wOp w (mulV (decodeElem w 0 x) (decodeElem w 0 y))

/-- x ≥ y on patterns of the working format: posits in the order of R15, NaR the least, FP32 in IEEE 754, where a NaN compares
false. -/
def wGe (w : Fmt) (x y : Nat) : Bool :=
  let a := decodeElem w 0 x
  let b := decodeElem w 0 y
  if w = .fp32 then ltV b a || eqV a b else !ltP a b

/-- merge of R129 on states (m, s), with flags. -/
def smaxMerge (w : Fmt) (a b : Nat × Nat × Flags) : Nat × Nat × Flags :=
  let fl := a.2.2 ||| b.2.2
  if patNan w a.2.1 || patNan w b.2.1 then (smaxNan w, smaxNan w, fl)
  else if (decodeElem w 0 a.2.1).isZero then (b.1, b.2.1, fl)
  else if (decodeElem w 0 b.2.1).isZero then (a.1, a.2.1, fl)
  else
    let hi := if wGe w a.1 b.1 then a else b
    let lo := if wGe w a.1 b.1 then b else a
    let df := subW w lo.1 hi.1
    let ex := sfuEval 0 w df.1
    let mu := mulW w lo.2.1 ex.1
    let su := addW w hi.2.1 mu.1
    (hi.1, su.1, fl ||| df.2 ||| ex.2 ||| mu.2 ||| su.2)

/-- An element as a state, or none when it is left out: the mask, and −∞ in FP32 (R128, R129). -/
def smaxElem (w : Fmt) (v : Val) : Option (Nat × Nat × Flags) :=
  match v with
  | .inf true => none
  | .inf false => some (smaxNan w, smaxNan w, fNV)
  | .nan sig => some (smaxNan w, smaxNan w, flagIf sig fNV)
  | .nar => some (smaxNan w, smaxNan w, 0)
  | x => some ((convert w Rnd.rne x).pat, (convert w Rnd.rne (.ofRat 1)).pat, 0)

/-- Lane states of a row as patterns, m and s in turn (Table 10.5), and back. -/
def packLanes (l : List (Nat × Nat × Flags)) : List Nat := l.flatMap fun x => [x.1, x.2.1]

def unpackLanes : List Nat → List (Nat × Nat × Flags)
  | m :: s :: t => (m, s, 0) :: unpackLanes t
  | _ => []

/-- A piece of a row of an SMAX1 (R129). -/
def Dev.smax1Piece (d : Dev) (o : Op) (v : VDesc) (part : List Nat) (r e0 e1 : Nat) : List Nat × Eff :=
  let f := fmtOf v.fa
  let w := smaxW f
  let base := sliceBase o.core
  let lanes0 := if e0 = 0 then List.replicate 32 (0, 0, (0 : Flags)) else unpackLanes part
  let lanes := (span e0 e1).foldl (fun (l : List (Nat × Nat × Flags)) e =>
    if d.maskBit (base + v.mAddr) v.mStride r e then l
    else match smaxElem w (d.elemVal (o.srcA v false) r e) with
      | none => l
      | some x => l.set (e % 32) (smaxMerge w (l.getD (e % 32) (0, 0, 0)) x)) lanes0
  let fl := lanes.foldl (fun (a : Flags) x => a ||| x.2.2) 0
  if e1 < v.cols then (packLanes lanes, ⟨[], fl, MaxAbs.zero⟩)
  else
    let t := (combineTree (smaxMerge w) 6 lanes).headD (0, 0, 0)
    let a := base + v.stAddr + r * v.stStride
    let x := if v.init then t else smaxMerge w (leNat (d.rdMem a 4), leNat (d.rdMem (a + 4) 4), 0) t
    ([], ⟨[(a, leBytes 4 x.1 ++ leBytes 4 x.2.1)], fl ||| x.2.2, MaxAbs.zero⟩)

/-- A zero output of an FP destination is +0 (R130). -/
def plusZero (f : Fmt) (x : Nat) : Nat := if f = .fp32 && x = 0x80000000 then 0 else x

/-- A piece of a row of an SMAX2 (R130). -/
def Dev.smax2Piece (d : Dev) (o : Op) (v : VDesc) (r e0 e1 : Nat) : Eff :=
  let w := smaxW (fmtOf v.fa)
  let base := sliceBase o.core
  let a := base + v.stAddr + r * v.stStride
  let m := leNat (d.rdMem a 4)
  let s := leNat (d.rdMem (a + 4) 4)
  let ys := (span e0 e1).map fun e =>
    let x := d.elemVal (o.srcA v false) r e
    if d.maskBit (base + v.mAddr) v.mStride r e || x == .inf true then (Val.zero, (0 : Flags))
    else if patNan w s then (.nar, 0)
    else if (decodeElem w 0 s).isZero then (.zero, 0)
    else
      let xp := wOp w (x, 0)
      let df := subW w xp.1 m
      let ex := sfuEval 0 w df.1
      let y := divV false (decodeElem w 0 ex.1) (decodeElem w 0 s)
      (y.1, xp.2 ||| df.2 ||| ex.2 ||| y.2)
  let dp := o.dst v false
  let fd := fmtOf v.fd
  let c := d.convRow dp fd (d.vrnd o v) r e0 (r * v.cols + e0) (ys.map fun y => y.1)
  let pats := ys.mapIdx fun n y => plusZero fd (convert fd (d.vrnd o v (r * v.cols + e0 + n)) y.1).pat
  { c with writes := [d.rowWrite dp r e0 pats], fl := c.fl ||| ys.foldl (fun (f : Flags) y => f ||| y.2) 0, g := MaxAbs.zero }

/-- R131: what SMAX2 notes in VEC_STAT when it begins a row. -/
def Dev.smax2Note (d : Dev) (o : Op) (v : VDesc) (r : Nat) : Dev :=
  let w := smaxW (fmtOf v.fa)
  let s := leNat (d.rdMem (sliceBase o.core + v.stAddr + r * v.stStride + 4) 4)
  let reg := aVecStat o.core o.strand
  if patNan w s then d.hwSet reg 2 0 0
  else if (decodeElem w 0 s).isZero then (d.hwSet reg 1 0 0).hwInc reg 16 16 1
  else d

/-! Patterns (R133, R134). -/

/-- Entries of a table size code. -/
def patSize (v : VDesc) : Nat := 256 * 4 ^ (v.fn % 4)

/-- Row and element that source a supplies for element (r, e) (R114). -/
def VDesc.bcAt (v : VDesc) (r e : Nat) : Nat × Nat := (if v.bcA = 2 then 0 else r, if v.bcA = 0 then e else 0)

/-- One lookup: result and flags. -/
def Core.lookup (x : Core) (b : Bool) (v : VDesc) (u : Nat) : Nat × Flags :=
  let size := patSize v
  let get := fun i => (x.bankGet b i).toNat
  match v.fn / 4 with
  | 0 => if u < size then (get u, 0) else (0x8000, fNV)
  | 1 => (get (u / (65536 / size)), 0)
  | _ =>
    let i := u / 16
    let t := if i = 0x7FF then 0 else u % 16
    match decodePosit 16 2 (get i), decodePosit 16 2 (get ((i + 1) % 4096)) with
    | .num p _, .num q _ => roundPosit 16 2 Rnd.rne (p + (q - p) * mkRat t 16)
    | .num p _, _ => if i = 0x7FF then roundPosit 16 2 Rnd.rne p else (0x8000, 0)
    | _, _ => (0x8000, 0)

/-- A piece of a row of a PLOOK. -/
def Dev.plookPiece (d : Dev) (o : Op) (v : VDesc) (r e0 e1 : Nat) : Eff :=
  let base := sliceBase o.core
  let w := if v.fa = 0 || v.fa = 1 then 2 else 1
  let x := d.core o.ecore
  let rs := (span e0 e1).map fun e =>
    let y := v.bcAt r e
    x.lookup o.bank v (leNat (d.rdMem (base + v.aAddr + y.1 * v.aStride + w * y.2) w))
  ⟨[(base + v.dAddr + r * v.dStride + 2 * e0, rs.flatMap fun y => leBytes 2 y.1)], rs.foldl (fun (f : Flags) y => f ||| y.2) 0,
    MaxAbs.zero⟩

def Op.plookReads (o : Op) (v : VDesc) (p : Nat × Nat × Nat) : List (Nat × Nat) :=
  let w := if v.fa = 0 || v.fa = 1 then 2 else 1
  let lo := v.bcAt p.1 p.2.1
  let hi := v.bcAt p.1 (p.2.2 - 1)
  [(sliceBase o.core + v.aAddr + lo.1 * v.aStride + w * lo.2, w * (hi.2 + 1 - lo.2))]

end Sys2Proof.Machine
end

