-- ==== Sys2Proof/Machine/Engines.lean ====
section
/-!
DEFINITION. The commands of the vector engine, the special-function unit, the pattern engine and the convert engine (R112,
R116, R121, R133 to R136, R189, R190), what they read and write cycle by cycle, and the stop of a started operation by a pause
(Table 10.5).
-/

namespace Sys2Proof.Machine

/-! One operation's rate, latency and pieces. -/

/-- Elements per cycle and cycles from the last read to the last write, by opcode. -/
def Op.pace (o : Op) : Nat × Nat :=
  let v := vdesc o.desc
  match o.opcode.toNat with
  | 0x45 => (vopRate v, if v.fn = 8 || v.fn = 9 then 24 else 9)
  | 0x46 => (vredRate v, 9)
  | 0x47 | 0x48 | 0x49 => (32, 22)
  | 0x4A => (if v.fn / 4 = 2 then 32 else 64, 4)
  | _ => (64, 8)

/-- The flag set of an opcode's engine (R37, R112). -/
def Op.flagSet (o : Op) : FlagSet :=
  match o.opcode.toNat with
  | 0x45 | 0x46 | 0x4A => .vec
  | 0x47 | 0x48 | 0x49 => .sfu
  | 0x4D => .cvt
  | _ => .fin

/-- The row state a piece leaves for the next, and its effect. -/
def Dev.piece (d : Dev) (o : Op) (v : VDesc) (part : List Nat) (p : Nat × Nat × Nat) : List Nat × Eff :=
  match o.opcode.toNat with
  | 0x45 => ([], d.vopPiece o v p.1 p.2.1 p.2.2)
  | 0x46 => d.vredPiece o v part p.1 p.2.1 p.2.2
  | 0x47 => ([], d.sfnPiece o v p.1 p.2.1 p.2.2)
  | 0x48 => d.smax1Piece o v part p.1 p.2.1 p.2.2
  | 0x49 => ([], d.smax2Piece o v p.1 p.2.1 p.2.2)
  | 0x4A => ([], d.plookPiece o v p.1 p.2.1 p.2.2)
  | _ => ([], d.cvtPiece o v p.1 p.2.1 p.2.2)

/-- What a piece reads of the slice. -/
def Op.pieceReads (o : Op) (v : VDesc) (p : Nat × Nat × Nat) : List (Nat × Nat) :=
  let base := sliceBase o.core
  let mask := [(base + v.mAddr + p.1 * v.mStride + p.2.1 / 8, (p.2.2 - p.2.1 + 7) / 8)]
  let st := fun (n : Nat) => [(base + v.stAddr + p.1 * v.stStride, n)]
  match o.opcode.toNat with
  | 0x45 => o.vopReads v p
  | 0x46 => (o.srcA v (v.fn == 1)).reads p ++ (if v.init || 4 ≤ v.kind || p.2.1 ≠ 0 then [] else st 192)
  | 0x48 => (o.srcA v false).reads p ++ mask ++ (if v.init || p.2.2 < v.cols then [] else st 8)
  | 0x49 => (o.srcA v false).reads p ++ mask ++ st 8
  | 0x4A => o.plookReads v p
  | _ => (o.srcA v false).reads p

/-- The counter of an engine's elements (Table 14.4). -/
def Op.counter (o : Op) : Nat :=
  match o.opcode.toNat with
  | 0x45 | 0x46 => 41
  | 0x47 | 0x48 | 0x49 => 43
  | 0x4A => 45
  | _ => 48

/-- Elements of the destination that are converted together: a block (R18), else one. -/
def Op.blockOf (o : Op) : Nat :=
  let v := vdesc o.desc
  let conv := (o.opcode == 0x45 && !(decide (0x0A ≤ v.fn) && decide (v.fn ≤ 0x0C)) && !(decide (0x10 ≤ v.fn) && v.fn != 0x19)) ||
    o.opcode == 0x47 || o.opcode == 0x49 || o.opcode == 0x4D
  if conv && (fmtOf v.fd).isBlock then v.bs else 1

/-- The elements that a started operation reads in this cycle, in row-major order: what they become is written after the
engine's latency (R116). All of them are read before anything of the cycle is written (DESIGN CHOICE, log 7), so that a
result that overlaps later sources is seen by the reads of the cycles after its write only. -/
def Dev.runCycle (d : Dev) (o : Op) : Dev :=
  let v := vdesc o.desc
  let hi := o.readIdx v.rows v.cols o.pace.1 o.blockOf d.cycle
  if hi ≤ o.pos then d
  else
    let ps := pieces v.cols (v.rows + 1) o.pos hi
    let e := d.scan (ps.flatMap fun p => o.pieceReads v p)
    match e.2 with
    | some a => e.1.opFault o 4 a
    | none =>
      let d := if o.opcode == 0x49 then (ps.filter fun p => p.2.1 == 0).foldl (fun (d : Dev) p => d.smax2Note o v p.1) e.1 else e.1
      let all := ps.foldl (fun (a : List Nat × Eff) p =>
        let r := d.piece o v a.1 p
        (r.1, a.2.join r.2)) (o.part, Eff.nil)
      let w : Wr := ⟨d.cycle + o.pace.2, o.id, o.core, all.2.writes, all.2.fl, if v.slotEn then some v.slot else none, all.2.g, none, [],
        o.counter, hi - o.pos⟩
      { d with wrs := d.wrs ++ [w] }.updOp o.id fun x => { x with pos := hi, part := all.1 }

/-- Cycles from the start to the last write. -/
def Op.lasts (o : Op) : Nat :=
  let v := vdesc o.desc
  cyclesFrom v.rows v.cols o.pace.1 o.pos - 1 + o.pace.2

/-- The operation at the head of an engine's queue starts, where nothing of the engine runs. -/
def Dev.engineStart (d : Dev) (c : CoreId) (q : QId) (ops : List Byte) : Dev :=
  match d.head c q with
  | none => d
  | some o => if (d.running c ops).isSome then d else d.startOp o o.lasts

/-- The running operation of one opcode writes its last result and completes. `busy` is the counter of busy cycles. -/
def Dev.engineComplete (d : Dev) (c : CoreId) (op : Byte) (busy : Option Nat) : Dev :=
  match d.running c [op] with
  | none => d
  | some o =>
    if !d.lastWrite o then d
    else
      let d := match busy with
        | some i => d.cnt c i 1
        | none => d
      d.endRun o o.flagSet

/-! The vector engine. -/

def execVectorStart (c : CoreId) (s : State) : Host.Outcome State Fault Refusal :=
  onDev s fun d => d.engineStart c .vec [0x45, 0x46]

def execVopComplete (c : CoreId) (s : State) : Host.Outcome State Fault Refusal :=
  onDev s fun d => d.engineComplete c 0x45 (some 42)

def execVredComplete (c : CoreId) (s : State) : Host.Outcome State Fault Refusal :=
  onDev s fun d => d.engineComplete c 0x46 (some 42)

/-! The special-function unit. -/

def execSfuStart (c : CoreId) (s : State) : Host.Outcome State Fault Refusal :=
  onDev s fun d => d.engineStart c .sfu [0x47, 0x48, 0x49]

def execSfnComplete (c : CoreId) (s : State) : Host.Outcome State Fault Refusal :=
  onDev s fun d => d.engineComplete c 0x47 (some 44)

def execSmax1Complete (c : CoreId) (s : State) : Host.Outcome State Fault Refusal :=
  onDev s fun d => d.engineComplete c 0x48 (some 44)

def execSmax2Complete (c : CoreId) (s : State) : Host.Outcome State Fault Refusal :=
  onDev s fun d => d.engineComplete c 0x49 (some 44)

/-! The convert engine. -/

def execCvtStart (c : CoreId) (s : State) : Host.Outcome State Fault Refusal :=
  onDev s fun d => d.engineStart c .cvt [0x4D]

def execCvtComplete (c : CoreId) (s : State) : Host.Outcome State Fault Refusal :=
  onDev s fun d => d.engineComplete c 0x4D none

/-! The pattern engine. -/

/-- A PLOAD dispatched before a PSWAP that was dispatched before `o` has not completed (R136). -/
def Dev.ploadAhead (d : Dev) (o : Op) : Bool :=
  d.ops.any fun x => x.opcode == 0x4B && x.ecore == o.ecore && x.loadAt != 0 && decide (x.loadAt ≤ o.id)

/-- PLOOK_START (R112, R133, R134, R136). -/
def Dev.plookStart (d : Dev) (c : CoreId) : Dev :=
  match d.head c .pat with
  | none => d
  | some o => if o.opcode != 0x4A || (d.running c [0x4A]).isSome || d.ploadAhead o then d else d.startOp o o.lasts

def execPlookStart (c : CoreId) (s : State) : Host.Outcome State Fault Refusal := onDev s fun d => d.plookStart c

def execPlookComplete (c : CoreId) (s : State) : Host.Outcome State Fault Refusal :=
  onDev s fun d => d.engineComplete c 0x4A none

/-- PSWAP_PROCESS (R136): it completes in this cycle. -/
def Dev.pswapProcess (d : Dev) (c : CoreId) : Dev :=
  match d.head c .pat with
  | none => d
  | some o =>
    if o.opcode != 0x4C then d
    else (d.updCore c fun x => { x with patActive := !x.patActive }).endOp o .vec

def execPswapProcess (c : CoreId) (s : State) : Host.Outcome State Fault Refusal := onDev s fun d => d.pswapProcess c

/-- The PLOAD in the reload port, waiting or writing. -/
def Dev.inPort (d : Dev) (c : CoreId) : Option Op :=
  d.ops.find? fun o => o.opcode == 0x4B && o.ecore == c && (o.phase == .port || o.phase == .started)

/-- PLOAD_PORT_ENTRY (R135): the head of the queue passes into the port. It holds no queue entry there. -/
def Dev.ploadPortEntry (d : Dev) (c : CoreId) : Dev :=
  match d.head c .pat with
  | none => d
  | some o =>
    if o.opcode != 0x4B || (d.inPort c).isSome then d
    else ((d.noteLeft [o]).updOp o.id fun x => { x with phase := .port, began := d.cycle }).bump fun x => x.ecore == c && x.inQueue c .pat

def execPloadPortEntry (c : CoreId) (s : State) : Host.Outcome State Fault Refusal := onDev s fun d => d.ploadPortEntry c

/-- PLOAD_WRITE_START (R135). -/
def Dev.ploadWriteStart (d : Dev) (c : CoreId) : Dev :=
  match d.ops.find? fun o => o.opcode == 0x4B && o.ecore == c && o.phase == .port with
  | none => d
  | some o =>
    if d.cycle < o.began || d.bankRead o then d
    else
      d.updOp o.id fun x => { x with
        phase := .started, began := d.cycle, due := d.cycle + (ceilDiv (vdesc o.desc).pcount 128 - 1) }

def execPloadWriteStart (c : CoreId) (s : State) : Host.Outcome State Fault Refusal := onDev s fun d => d.ploadWriteStart c

/-- The entries that a PLOAD writes in this cycle: 128 (R135, R137, R208). -/
def Dev.ploadCycle (d : Dev) (o : Op) : Dev :=
  let v := vdesc o.desc
  let hi := min v.pcount (128 * (d.cycle + 1 - o.began))
  if hi ≤ o.pos then d
  else
    let a := sliceBase o.core + v.aAddr + 2 * o.pos
    let r := d.scan [(a, 2 * (hi - o.pos))]
    match r.2 with
    | some x => r.1.opFault o 4 x
    | none =>
      let bs := r.1.rdMem a (2 * (hi - o.pos))
      let ns := (List.range hi).drop o.pos
      let d := r.1.updCore o.ecore fun x => ns.foldl (fun (x : Core) n =>
        x.bankSet o.bank (v.pfirst + n) (BitVec.ofNat 16 (leAt bs (2 * (n - o.pos)) 2))) x
      let d := { d with now := { d.now with pats := d.now.pats ++ ns.map fun n => (o.ecore, o.bank, v.pfirst + n) } }
      (d.cnt o.ecore 46 ns.length).updOp o.id fun x => { x with pos := hi }

/-- PLOAD_COMPLETE (R135). -/
def Dev.ploadComplete (d : Dev) (c : CoreId) : Dev :=
  match d.running c [0x4B] with
  | none => d
  | some o =>
    if d.cycle < o.due then d
    else
      let d := d.ploadCycle o
      match d.ops.find? fun x => x.id == o.id with
      | none => d
      | some x => if x.pos < (vdesc o.desc).pcount then d else d.endOp x .vec

def execPloadComplete (c : CoreId) (s : State) : Host.Outcome State Fault Refusal := onDev s fun d => d.ploadComplete c

/-! One cycle of the engines. -/

/-- An operation of the engines that read planes. -/
def Op.isRun (o : Op) : Bool :=
  o.opcode == 0x45 || o.opcode == 0x46 || o.opcode == 0x47 || o.opcode == 0x48 || o.opcode == 0x49 || o.opcode == 0x4A || o.opcode == 0x4D

/-- The cycles counted in CNT 42, 44 and 47 (R378): an engine at work on an operation, a PLOAD that waits (R135). -/
def Dev.busyCycle (d : Dev) : Dev :=
  d.ops.foldl (fun (d : Dev) o =>
    if o.phase == .started && (o.opcode == 0x45 || o.opcode == 0x46) then d.cnt o.ecore 42 1
    else if o.phase == .started && (o.opcode == 0x47 || o.opcode == 0x48 || o.opcode == 0x49) then d.cnt o.ecore 44 1
    else if o.opcode == 0x4B && o.phase == .port then d.cnt o.ecore 47 1
    else d) d

/-- What the engines read in this cycle, then what they write in it; operations that a pause has stopped are recorded. -/
def Dev.engineCycle (d : Dev) : Dev :=
  let d := d.busyCycle
  let d := (d.ops.filter fun o => o.phase == .started && o.isRun).foldl (fun (d : Dev) o => d.runCycle o) d.outletCycle
  let d := (d.ops.filter fun o => o.phase == .started && o.opcode == 0x4B).foldl (fun (d : Dev) o => d.ploadCycle o) d
  (d.land fun _ => true).stoppedCycle

/-! Stops by a pause (R292, Table 10.5). -/

/-- A started operation runs to the next element whose index within its row is a multiple of 32, or to the row's end. -/
def Dev.stopRun (d : Dev) (o : Op) : Dev :=
  let v := vdesc o.desc
  let stop := min o.total (stopAt v.rows v.cols o.pace.1 o.base (d.cycle - o.began))
  if stop = o.total then d
  else d.updOp o.id fun x => { x with stop := some stop }

/-- Every started operation of a last is brought to its stop point. A PLOOK runs to its end before a context save (R138). -/
def Dev.stopOps (d : Dev) (l : LastId) (keep : Bool) : Dev :=
  (d.ops.filter fun o => o.last == l && o.phase == .started).foldl (fun (d : Dev) o =>
    match o.opcode.toNat with
    | 0x40 => d.stopMma o
    | 0x42 => d.stopFinish o
    | 0x4A => if keep then d else d.stopRun o
    | 0x45 | 0x46 | 0x47 | 0x48 | 0x49 | 0x4D => d.stopRun o
    | _ => d) d

end Sys2Proof.Machine
end

