-- ==== Sys2Proof/Machine/Links.lean ====
section
/-!
DEFINITION. Links: training and light (R245, R254), frames (R246, R252, R253), coursing messages (R255 to R258), link notices
(R262) and the slew of fabric time (R274).
-/

namespace Sys2Proof.Machine

/-! States. -/

/-- LINK_TRAINING_COMPLETE (R245). -/
def execLinkTrainingComplete (l : LinkId) (s : State) : Host.Outcome State Fault Refusal :=
  onDev s fun d =>
    if (d.link l).st != .training then d
    else ((d.updLink l fun k => { Link.init with
      st := .up, rsv := Vector.replicate 8 66, shared := 496, light := true, peerPort := k.peerPort, peerDev := k.peerDev }).refreshParent).crsTrained

/-- LINK_TRAINING_TIMEOUT (R245). -/
def execLinkTrainingTimeout (l : LinkId) (s : State) : Host.Outcome State Fault Refusal :=
  onDev s fun d => if (d.link l).st != .training then d else (d.updLink l fun k => { k with st := .down }).crsTrained

/-- LOSS_OF_LIGHT (R245, R254). -/
def execLossOfLight (l : LinkId) (s : State) : Host.Outcome State Fault Refusal :=
  onDev s fun d =>
    let d := d.updLink l fun k => { k with light := false }
    if (d.link l).st == .up || (d.link l).st == .miscabled then d.setLink l .down else d

/-- LIGHT_RETURN (R245): a DOWN port retrains while en is 1. -/
def execLightReturn (l : LinkId) (s : State) : Host.Outcome State Fault Refusal :=
  onDev s fun d =>
    let d := d.updLink l fun k => { k with light := true }
    if (d.link l).st == .down && bitOf (d.reg (aLnk l 0)) 0 && d.dom (.link l) == .on then d.setLink l .training else d

/-- FAB_LNK_CFG_WRITE (R245). -/
def execFabLnkCfgWrite (l : LinkId) (v : Word) (s : State) : Host.Outcome State Fault Refusal := onDev s fun d => d.wr8 (aLnk l 0) v

/-! Flits and frames. -/

/-- Packets of a type that carries data (Table 9.5). -/
def carries (type : Nat) : Bool := type == 0 || type == 3 || type == 7 || type == 9 || type == 10

/-- Flits of a packet (R247), and its lane (R250). -/
def flits (p : Packet) : Nat := 1 + ceilDiv p.data.length 64
def laneOf (p : Packet) : Fin 8 := finOf 7 (2 * p.cls + b2n p.dl)

/-- The flits that carry a packet: its header flit, then its data (R247). -/
def flitsOf (p : Packet) : List Flit :=
  .header { p with data := [], via := none, done := 0, copyTo := none } :: (List.range (flits p - 1)).map fun i => .data ((p.data.drop (64 * i)).take 64)

/-- Two bits of stype (Table 9.3). -/
def flitStype : Flit → Nat
  | .idle => 0
  | .header _ => 1
  | .data _ => 2
  | .time _ => 3

/-- The bytes of a header flit (Table 9.4). -/
def headerBytes (p : Packet) : List Byte :=
  leBytes 8 (mkWord [(0, p.type), (4, p.cls), (6, b2n p.dl), (7, b2n p.pool), (8, p.src.toNat), (23, p.dst.toNat), (38, b2n p.mc), (39, p.len.toNat)]).toNat ++
  leBytes 8 (p.addr.toNat + 2 ^ 48 * p.tag.toNat) ++ leBytes 8 (mkWord [(0, p.status.toNat), (8, p.issuer.toNat), (23, p.cid.toNat)]).toNat ++
  leBytes 8 p.operand.toNat ++
  padTo 32 (leBytes 8 (mkWord [(0, p.colOff.toNat), (32, p.colLevel.toNat), (40, b2n p.compressed), (41, b2n p.rescue)]).toNat)

/-- The 64 bytes of a slot (Tables 9.4 and 9.15). -/
def flitBytes : Flit → List Byte
  | .idle => zeros 64
  | .header p => headerBytes p
  | .data bs => padTo 64 bs
  | .time t => padTo 64 (leBytes 8 t.tTx.toNat ++ leBytes 8 t.tRx.toNat ++ leBytes 8 t.tPeer.toNat ++ leBytes 1 (b2n t.acq))

/-- Header bytes 0 to 11 of a frame (Table 9.3). -/
def frameHead (f : Frame) : List Byte :=
  let stypes := foldIdx (fun n i (x : Flit) => n + flitStype x * 4 ^ i) 0 0 f.slots
  leBytes 12 (f.seq.toNat + 2 ^ 16 * f.ack.toNat + 2 ^ 32 * b2n f.nak + 2 ^ 33 * b2n (decide (f.seq.toNat % 1024 = 0)) + 2 ^ 36 * stypes +
    2 ^ 72 * f.rvl.val + 2 ^ 75 * f.rcnt + 2 ^ 80 * f.scnt)

/-- The CRC of a frame (R246). -/
def frameCheck (f : Frame) : BitVec 32 := BitVec.ofNat 32 (crc32 (frameHead f ++ f.slots.flatMap flitBytes))

/-- The frame was corrected and its CRC holds; any other is bad (R246). -/
def frameGood (f : Frame) : Bool := f.decoded && f.slots.length == 18 && f.crc == frameCheck f

/-- A frame with its CRC, as the sender forms it. -/
def frameSealed (f : Frame) : Frame := { f with crc := frameCheck f }

/-! Sending. -/

/-- Credits for the packet on the link (R251): shared ones first. -/
def Link.credit (k : Link) (p : Packet) : Option Bool :=
  if flits p ≤ k.shared then some true else if flits p ≤ k.rsv.get (laneOf p) then some false else none

/-- The output takes another packet now: what it holds fits the next frame (DESIGN CHOICE, log 37), and there are credits for
every flit (R247, R251). -/
def Link.ready (k : Link) (p : Packet) : Bool := decide (k.tx.length < 18) && (k.credit p).isSome

/-- The link carries the routed packet now: it is UP and ready. -/
def Dev.canSend (d : Dev) (l : LinkId) (p : Packet) : Bool := d.routable l && (d.link l).ready p

/-- A packet takes its credits; its flits wait for slots. -/
def Link.load (k : Link) (p : Packet) : Link :=
  match k.credit p with
  | none => k
  | some pool =>
    let n := flits p
    let k := if pool then { k with shared := k.shared - n } else { k with rsv := vmap k.rsv (laneOf p) fun c => c - n }
    { k with tx := k.tx ++ flitsOf { p with pool := pool } }

/-- A packet leaves on a link that can carry it (R247, R251). -/
def Dev.sendPacket (d : Dev) (l : LinkId) (p : Packet) : Dev := d.updLink l fun k => k.load p

/-- A CTL packet that waits for the link can leave now. -/
def Dev.ctlReady (d : Dev) (l : LinkId) : Option (LinkId × Packet) :=
  (d.hub.ctl.find? fun x => x.1 == l).filter fun x => (d.link l).ready x.2

/-- CTL packets that wait for a link go ahead of every other packet (R250): as many as are ready, at most `f`. -/
def Dev.loadCtl (l : LinkId) : Nat → Dev → Dev
  | 0, d => d
  | f + 1, d => match d.ctlReady l with
    | some x => Dev.loadCtl l f ((d.updHub fun h => { h with ctl := eraseFirst (· == x) h.ctl }).sendPacket l x.2)
    | none => d

/-- The lane whose freed reserved credits the next frame returns (R252). -/
def Link.nextLane (k : Link) : Fin 8 :=
  (((List.finRange 8).map fun i => k.rvl + i).find? fun v => decide (k.freedR.get v ≠ 0)).getD k.rvl

/-- The time flit of a frame sent now (Table 9.15). -/
def Dev.timeFlit (d : Dev) (k : Link) : TimeFlit := ⟨d.hub.ftime.ft, k.tRx, k.tPeer, d.hub.ftime.acq⟩

/-- The slots of a frame: the time flit where its number asks for one, then the flits that wait. -/
def frameSlots (time : Option TimeFlit) (fs : List Flit) : List Flit :=
  let l := (match time with
    | some t => [Flit.time t]
    | none => []) ++ fs
  l ++ List.replicate (18 - l.length) .idle

/-- A new frame leaves (R246, R252, R253, R273). -/
def Dev.newFrame (d : Dev) (l : LinkId) : Dev :=
  let k := d.link l
  let v := k.nextLane
  let rc := min 31 (k.freedR.get v)
  let sc := min 63 k.freedS
  let time := if k.txSeq.toNat % 1024 = 0 then some (d.timeFlit k) else none
  let n := min k.tx.length (if time.isSome then 17 else 18)
  let f := frameSealed {
    decoded := true, corrected := false, replayed := false, seq := k.txSeq, ack := k.rxLast, nak := k.hunting, rvl := v, rcnt := rc, scnt := sc
    slots := frameSlots time (k.tx.take n), crc := 0 }
  let d := d.updLink l fun k => { k with
    txSeq := k.txSeq + 1, replay := k.replay ++ [(f, 0)], freedR := vmap k.freedR v fun c => c - rc, freedS := k.freedS - sc, rvl := v + 1
    tx := k.tx.drop n, tSent := match time with
      | some t => (t.tTx :: k.tSent).take 2
      | none => k.tSent }
  (d.emit (.frame l f)).hcnt (1 + 2 * l.val) n

/-- A frame of the replay leaves again (R253). -/
def Dev.oldFrame (d : Dev) (l : LinkId) (f : Frame) : Dev :=
  ((d.updLink l fun k => { k with resend := k.resend.drop 1 }).emit (.frame l { f with replayed := true })).hcnt (25 + l.val) 1

/-- With 64 frames unacknowledged an idle frame repeats the newest acknowledged seq (R253). It returns no credits (log 37). -/
def Dev.idleFrame (d : Dev) (l : LinkId) : Dev :=
  let k := d.link l
  let time := if k.acked.toNat % 1024 = 0 then some (d.timeFlit k) else none
  d.emit (.frame l (frameSealed {
    decoded := true, corrected := false, replayed := false, seq := k.acked, ack := k.rxLast, nak := k.hunting, rvl := 0, rcnt := 0, scnt := 0
    slots := frameSlots time [], crc := 0 }))

/-- A frame begins in this cycle: one each 6.4 ns, 8.96 cycles (R3, R246); the phase is a DESIGN CHOICE (log 37). -/
def frameStarts (cycle : Nat) : Bool := (cycle + 1) * 25 / 224 != cycle * 25 / 224

/-- A link that is UP or MISCABLED sends its next frame (R246, R253). -/
def Dev.sendFrame (d : Dev) (l : LinkId) : Dev :=
  match (d.link l).resend with
  | f :: _ => d.oldFrame l f
  | [] => if (d.link l).replay.length < 64 then (Dev.loadCtl l d.hub.ctl.length d).newFrame l else d.idleFrame l

/-! Receiving. -/

/-- The frames up to `ack` have arrived. -/
def Link.acknowledge (k : Link) (ack : BitVec 16) : Link :=
  match k.replay.findIdx? fun f => f.1.seq == ack with
  | some i => { k with replay := k.replay.drop (i + 1), acked := ack }
  | none => k

/-- Every frame from ack + 1 onward is to be sent again, on the first nak for that ack. The link falls once a frame has been
replayed 8 times without success. -/
def Dev.serveNak (d : Dev) (l : LinkId) (ack : BitVec 16) : Dev :=
  let k := d.link l
  if k.nakAck == some ack then d
  else if k.replay.any fun f => decide (8 ≤ f.2) then d.setLink l .down
  else d.updLink l fun k => { k with nakAck := some ack, resend := k.replay.map Prod.fst, replay := k.replay.map fun f => (f.1, f.2 + 1) }

/-- Acknowledgement and nak of a good frame. -/
def Dev.frameAck (d : Dev) (l : LinkId) (f : Frame) : Dev :=
  let d := d.updLink l fun k => k.acknowledge f.ack
  if f.nak then d.serveNak l f.ack else d.updLink l fun k => { k with nakAck := none }

/-- The receiver waits for a replay from now on (R253). -/
def Dev.hunt (d : Dev) (l : LinkId) : Dev :=
  if (d.link l).hunting then d else (d.updLink l fun k => { k with hunting := true }).hwInc (aLnk l 0x10) 16 16 1

/-- The flits of a packet are gone: their credits are freed to the pool that they used (R252). -/
def Link.free (k : Link) (p : Packet) : Link :=
  if p.pool then { k with freedS := k.freedS + flits p } else { k with freedR := vmap k.freedR (laneOf p) fun n => n + flits p }

/-- A packet whose last flit has arrived enters the input buffer. A MISCABLED link carries identity packets alone (Table 9.2): another is
gone. -/
def Link.accept (k : Link) (p : Packet) : Link :=
  let k := { k with part := none }
  if k.st == .up || (p.type == 10 && leAt p.data 0 1 == ctlIdentity) then { k with buf := k.buf ++ [p] } else k.free p

/-- A flit arrives on link `l` (R247). -/
def Link.takeFlit (l : LinkId) (k : Link) : Flit → Link
  | .header p =>
    let p := { p with data := [], via := some l, done := 0, copyTo := none }
    if carries p.type then { k with part := some (p, ceilDiv (p.len.toNat + 1) 64) } else k.accept p
  | .data bs =>
    (match k.part with
    | none => k
    | some (p, n) =>
      let p := { p with data := (p.data ++ bs).take (p.len.toNat + 1) }
      if n ≤ 1 then k.accept p else { k with part := some (p, n - 1) })
  | .idle => k
  | .time _ => k

/-- The time flit of a frame. -/
def frameTime (f : Frame) : Option TimeFlit :=
  match f.slots with
  | .time t :: _ => some t
  | _ => none

/-- A good frame in order: credits, flits, time flit. -/
def Dev.takeFrame (d : Dev) (l : LinkId) (f : Frame) : Dev :=
  let d := d.updLink l fun k => f.slots.foldl (Link.takeFlit l) { k with
    rxLast := f.seq, hunting := false, rsv := vmap k.rsv f.rvl fun c => min 66 (c + f.rcnt), shared := min 496 (k.shared + f.scnt) }
  let d := d.hcnt (2 + 2 * l.val) (f.slots.filter fun x => flitStype x == 1 || flitStype x == 2).length
  match frameTime f, f.replayed with
  | some t, false =>
    let whole := (d.link l).completes t
    let d := d.updLink l fun k => { k with tRx := d.hub.ftime.ft, tPeer := t.tTx }
    if d.hub.ftime.pport.toNat = l.val && whole then d.exchange t else d
  | _, _ => d

/-- Frames repeated by the peer while it may send no new one (R253): their number lies among the last 64 taken. -/
def Link.repeats (k : Link) (f : Frame) : Bool := decide ((k.rxLast - f.seq).toNat ≤ 64)

/-- A frame arrives (R246, R252, R253, R273). -/
def Dev.frameIn (d : Dev) (l : LinkId) (f : Frame) : Dev :=
  let k := d.link l
  if k.st != .up && k.st != .miscabled then d
  else if !frameGood f then d.hunt l
  else
    let d := if f.corrected then d.hwInc (aLnk l 0x10) 0 16 1 else d
    if f.seq = k.rxLast + 1 then (d.frameAck l f).takeFrame l f
    else if k.hunting then d
    else if k.repeats f then d.frameAck l f
    else d.hunt l

/-- FRAME_RECEIVE (R246, R252, R253, R273). -/
def execFrameReceive (l : LinkId) (f : Frame) (s : State) : Host.Outcome State Fault Refusal := onDev s fun d => d.frameIn l f

/-- The links in one cycle (R246): each that carries frames sends one when it is time. A looped-back link receives its own
(Table 9.19). -/
def Dev.linksCycle (d : Dev) : Dev :=
  if !frameStarts d.cycle then d
  else
    (allLinks.filter fun l => (d.link l).st == .up || (d.link l).st == .miscabled).foldl (fun (d : Dev) l =>
      let n := d.out.length
      let d := d.sendFrame l
      if bitOf (d.reg (aLnk l 0)) 2 then (d.out.drop n).foldl (fun (d : Dev) o => match o with
        | .frame _ f => d.frameIn l f
        | _ => d) d
      else d) d

/-! Fabric time. -/

/-- FABRIC_TIME_SLEW (R274): one cycle, once in 2 048 cycles. -/
def execFabricTimeSlew (s : State) : Host.Outcome State Fault Refusal :=
  onDev s fun d =>
    let t := d.hub.ftime
    if !d.hubOn || !t.run || d.cycle < t.slewAt + 2048 || t.average = 0 then d
    else if 0 < t.average then d.updTime fun t => { t with slewAt := d.cycle, hold := true }
    else d.updTime fun t => { t with slewAt := d.cycle, ft := t.ft + 1 }

/-! Coursing. -/

/-- FAB_CRS_START (R255). -/
def execFabCrsStart (v : Word) (s : State) : Host.Outcome State Fault Refusal := onDev s fun d => d.wr8 (aFab 8) v

/-- An identity packet (R255, R256). One that comes before step 2, or before this module's COURSE, counts too. A link that is MISCABLED
already takes what the packet says, and stays so. -/
def Dev.identityIn (d : Dev) (l : LinkId) (serial : Word) (port : Nat) (rev : Byte) : Dev :=
  let st := (d.link l).st
  if st != .up && st != .miscabled then d
  else
    let d := (d.setReg (aLnk l 0x18) serial).updLink l fun k => { k with peerPort := BitVec.ofNat 4 port }
    let bad := if port ≠ l.val ^^^ 2 then 1 else if rev ≠ 2 then 2 else 0
    let d := if bad = 0 || st == .miscabled then d else d.miscable l bad
    (d.updCrs fun c => { c with seen := if c.seen.contains l.val then c.seen else c.seen ++ [l.val] }).crsIdentified

/-- IDENTITY_PACKET (R255, R256). -/
def execIdentityPacket (l : LinkId) (serial : Word) (port : Nat) (rev : Byte) (s : State) : Host.Outcome State Fault Refusal :=
  onDev s fun d => d.identityIn l serial port rev

/-- A smaller serial has become known: it is flooded, and unseats a module that took itself for the corner (R255). -/
def Dev.crsLower (d : Dev) : Dev :=
  let d := d.updCrs fun c => { c with step := 3, smallest := c.least, corner := false, offer := if c.corner then none else c.offer }
  (d.updTime fun t => { t with root := false }).sendCtl d.upPorts ctlElection [d.hub.crs.smallest.toNat]

/-- The smallest serial that a neighbour has seen (R255). -/
def Dev.electionIn (d : Dev) (l : LinkId) (serial : Word) : Dev :=
  let c := d.hub.crs
  if c.state ≠ 1 || c.mode || c.named ≠ 0 then d
  else
    let d := d.updCrs fun c => { c with heard := (l.val, serial) :: c.heard.filter fun x => x.1 != l.val }
    if c.step < 3 then d
    else if serial.toNat < c.smallest.toNat then d.crsLower
    else d.crsElected

/-- CORNER_ELECTION (R255). -/
def execCornerElection (l : LinkId) (serial : Word) (s : State) : Host.Outcome State Fault Refusal := onDev s fun d => d.electionIn l serial

/-- An offer of coordinates (R257). One that comes while this module is in step 1 or 2 waits for step 3. -/
def Dev.offerIn (d : Dev) (l : LinkId) (x y z : Nat) : Dev :=
  if d.hub.crs.state != 1 || d.hub.crs.mode then d
  else
    let d := d.updCrs fun c => { c with offers := c.offers ++ [(l.val, x, y, z)] }
    if d.hub.crs.step < 3 then d else d.offerNow (x, y, z)

/-- COORDINATE_OFFER (R257). -/
def execCoordinateOffer (l : LinkId) (x y z : Nat) (s : State) : Host.Outcome State Fault Refusal := onDev s fun d => d.offerIn l x y z

/-- A peer tells its coordinates (step 5 of Table 9.7, R256). -/
def Dev.peerIn (d : Dev) (l : LinkId) (x y z : Nat) : Dev :=
  let a : DevAddr := BitVec.ofNat 15 (devOf x y z)
  ((d.updLink l fun k => { k with peerDev := a }).updCrs fun c => { c with peers := (l.val, a) :: c.peers.filter fun p => p.1 != l.val }).crsGo

/-- A module's link map comes in; one that is new is passed on (R255, R262). -/
def Dev.mapFlood (d : Dev) (kind : Nat) (dev : DevAddr) (map : BitVec 12) : Dev :=
  let new := !(d.hub.crs.maps.any fun m => m.1 == dev && m.2 == map)
  let d := d.takeMap dev map
  if new then d.sendCtl d.upPorts kind [dev.toNat, map.toNat] else d

/-- A link map of step 6 (R255): the routing table follows it in step 7 and afterwards. -/
def Dev.mapIn (d : Dev) (dev : DevAddr) (map : BitVec 12) : Dev :=
  let filling := d.hub.crs.state = 1 && d.hub.crs.step = 7
  let d := d.mapFlood ctlMap dev map
  if filling then (if d.hub.crs.offer.isSome then d.fillRoutes d.hub.crs.shape else d) else d.crsGo.recompute

/-- LINK_MAP_FLOOD (R255). -/
def execLinkMapFlood (dev : DevAddr) (map : BitVec 12) (s : State) : Host.Outcome State Fault Refusal :=
  onDev s fun d => if d.hubOn then d.mapIn dev map else d

/-- A link notice (R262). -/
def Dev.noticeIn (d : Dev) (dev : DevAddr) (map : BitVec 12) : Dev := (d.mapFlood ctlNotice dev map).recompute

/-- LINK_NOTICE (R262). -/
def execLinkNotice (dev : DevAddr) (map : BitVec 12) (s : State) : Host.Outcome State Fault Refusal :=
  onDev s fun d => if d.hubOn then d.noticeIn dev map else d

/-- COURSING_RELEASE (R255, R272). The shape that it carries is the one known from step 4. -/
def execCoursingRelease (ok : Bool) (_ : Shape) (s : State) : Host.Outcome State Fault Refusal := onDev s fun d => d.crsRelease ok

/-- FAB_COORD_WRITE (R258, R272). -/
def execFabCoordWrite (v : Word) (s : State) : Host.Outcome State Fault Refusal := onDev s fun d => d.wr8 (aFab 0x10) v

end Sys2Proof.Machine
end

