-- ==== Sys2Proof/Machine/LoadStore.lean ====
section
/-!
DEFINITION. Scalar loads, stores and atomic adds (R148, R181 to R183, R208 to R210), and instruction fetch (R147).
-/

namespace Sys2Proof.Machine

/-- Uncontended latency to a local address (Table 8.3, R181). -/
def accLatency (c : CoreId) (ea : Word) : Nat :=
  if 2 ^ 48 ≤ ea.toNat then 1
  else match region ea.toNat with
    | .stock n _ => if n = c then 10 else if dieOf n = dieOf c then 32 else 56
    | .bed _ _ _ _ | .desc _ _ | .regs => 40
    | .hbm => 420
    | .dram _ => 600
    | .flash _ => 2000
    | .unmapped => 1

/-- Table 8.3 for an address of this module: HBM of the other die takes 460. -/
def Dev.accLat (d : Dev) (c : CoreId) (ea : Word) : Nat :=
  match region ea.toNat with
  | .hbm => if ea.toNat < 2 ^ 48 && (d.stackOf ea.toNat).val / 4 ≠ (dieOf c).val then 460 else accLatency c ea
  | _ => accLatency c ea

/-- The access is outstanding from its dispatch on (R144, R181); a load's register is not available until it completes. -/
def Dev.startAcc (d : Dev) (o : Origin) (ea data : Word) (remote : Bool) (lat : Nat) : Dev :=
  let w : BitVec 56 := o.insn.setWidth 56
  let op := o.insn.toNat / 2 ^ 56
  let a : Acc := ⟨d.nextAcc, BitVec.ofNat 8 op, w, o.pc, ea, data, d.cycle + lat, remote⟩
  let d := { d with nextAcc := d.nextAcc + 1 }
  d.updStrand o.core o.strand fun s => { s with
    acc := s.acc ++ [a]
    sAvail := if isLoad op && wRd w ≠ 0 then vmap s.sAvail (wRd w) fun _ => none else s.sAvail }

/-- Dispatch of a format-M instruction with a local address (R181). -/
def memLocal (op : Nat) (c : CoreId) (k : StrandId) (w : BitVec 56) (s : State) : Host.Outcome State Fault Refusal :=
  onDev s fun d => d.issue c k (mkInsn op w) fun d o =>
    let t := d.strand c k
    let ea := effAddr t w
    if ea.toNat % accSize op ≠ 0 then .fault 4 ea
    else .ok (d.startAcc o ea (if isLoad op then 0 else t.rdS (wRd w)) false (d.accLat c ea))

/-- Dispatch of LDG, STG, AADD (R182, R183). -/
def memGlobal (op : Nat) (c : CoreId) (k : StrandId) (w : BitVec 56) (s : State) : Host.Outcome State Fault Refusal :=
  onDev s fun d => d.issue c k (mkInsn op w) fun d o =>
    let t := d.strand c k
    let ea := effAddr t w
    let v := t.rdS (wRd w)
    if ea.toNat % 8 ≠ 0 then .fault 4 ea
    else match d.targetOf ea with
    | .here a => .ok (d.startAcc o ea v false (d.accLat c (BitVec.ofNat 64 a)))
    | .away _ _ =>
      let who : Requester := .acc c k d.nextAcc
      let d := d.startAcc o ea v true 0
      .ok (match op with
        | 0x5C => d.sendRead who ea 8
        | 0x5D => d.sendWrite who ea (leBytes 8 v.toNat)
        | _ => d.sendAtomic who ea v)
    | .group _ _ =>
      if op ≠ 0x5D then .fault 4 ea
      else
        let who : Requester := .acc c k d.nextAcc
        match (d.startAcc o ea v true 0).sendMulticast who ea (leBytes 8 v.toNat) with
        | some d => .ok d
        -- answered as status 6 (R263), which the event carries (R249)
        | none => .ok (d.faultInfo 17 o ea 6)

/-- An outstanding access by its number. -/
def Strand.access (s : Strand) (id : Nat) : Option Acc := s.acc.find? fun a => a.id == id

/-- No earlier access of the strand to the same 8-byte word is outstanding (R148): of this module's memory, whichever address
names it, or of another's. -/
def Dev.accFirst (d : Dev) (s : Strand) (a : Acc) : Bool :=
  let word := fun (x : Acc) => match d.accAddr x with
    | some l => l / 8
    | none => x.ea.toNat / 8 + 2 ^ 61
  !(s.acc.any fun b => decide (b.id < a.id) && word b == word a)

/-- The instruction behind an access. -/
def Dev.accOrigin (d : Dev) (c : CoreId) (k : StrandId) (a : Acc) : Option Origin :=
  (d.strandLast c k).map fun l => ⟨l, c, k, a.pc, insnWord a.opcode a.w⟩

/-- The access leaves the strand; a store still counts as outstanding in this cycle (R144). -/
def Dev.dropAcc (d : Dev) (c : CoreId) (k : StrandId) (a : Acc) : Dev :=
  let d := d.updStrand c k fun s => { s with acc := s.acc.filter fun b => b.id != a.id }
  if isLoad a.opcode.toNat then d else { d with now := { d.now with ended := d.now.ended ++ [(c, k, a)] } }

/-- An access completes: a load writes its register; the instruction posts (R148, R149). -/
def Dev.finishAcc (d : Dev) (c : CoreId) (k : StrandId) (a : Acc) (bs : List Byte) : Dev :=
  let d := d.dropAcc c k a
  let d : Dev := if isLoad a.opcode.toNat then
      d.updStrand c k fun s => s.wrS (wRd a.w) (loadValue a.opcode.toNat bs) d.cycle
    else d
  match d.accOrigin c k a with
  | some o => d.complete o
  | none => d

/-- An access fails: the register keeps its value and the last faults (R181, R208, R249). `info` is what the event says of a
failed remote request. -/
def Dev.failAcc (d : Dev) (c : CoreId) (k : StrandId) (a : Acc) (cause : Nat) (info : Nat := 0) : Dev :=
  let d := d.dropAcc c k a
  let d : Dev := if isLoad a.opcode.toNat && wRd a.w ≠ 0 then
      d.updStrand c k fun s => { s with sAvail := vmap s.sAvail (wRd a.w) fun _ => some d.cycle }
    else d
  match d.accOrigin c k a with
  | some o => d.faultInfo cause o a.ea info
  | none => d

/-- An outstanding local access is served (R181, R208 to R210). -/
def Dev.serveAcc (d : Dev) (c : CoreId) (k : StrandId) (id : Nat) (wantLoad : Bool) : Dev :=
  match (d.strand c k).access id with
  | none => d
  | some a =>
    let op := a.opcode.toNat
    if a.remote || isLoad op != wantLoad || decide (d.cycle < a.due) || !d.accFirst (d.strand c k) a then d
    else match d.accAddr a with
    | none => d.failAcc c k a 4
    | some x =>
      let n := accSize op
      let r := if op = 0x5E then d.busAtomic x a.data (.seq c k)
        else if isLoad op then d.accRead x n
        else d.accWrite x (leBytes n a.data.toNat) (.seq c k)
      match r.2 with
      | .ok bs => r.1.finishAcc c k a bs
      | .wait => r.1
      | .bad _ => r.1.failAcc c k a 4

/-- LOAD_DATA_RETURN (R146, R181). -/
def execLoadDataReturn (c : CoreId) (k : StrandId) (id : Nat) (s : State) : Host.Outcome State Fault Refusal :=
  onDev s fun d => d.serveAcc c k id true

/-- STORE_COMPLETE (R181, R210). -/
def execStoreComplete (c : CoreId) (k : StrandId) (id : Nat) (s : State) : Host.Outcome State Fault Refusal :=
  onDev s fun d => d.serveAcc c k id false

/-- The words that a line of text brings into the fetch buffer: 32 instructions from the line of the PC (R147). -/
def Strand.takeLine (s : Strand) (line : Nat) (bs : List Byte) : Strand :=
  let lo := s.pc.toNat / 64 * 64
  let keep := s.fetch.filter fun f => decide (lo ≤ f.1) && decide (f.1 < lo + 256) && f.1 / 64 * 64 != line
  { s with fetch := keep ++ (List.range 8).map fun i => (line + 8 * i, BitVec.ofNat 64 (leAt bs (8 * i) 8)) }

/-- FETCH_RETURN (R147): a line of the core's own slice, no more than 32 instructions ahead. -/
def execFetchReturn (c : CoreId) (k : StrandId) (line : BitVec 48) (s : State) : Host.Outcome State Fault Refusal :=
  onDev s fun d =>
    let t := d.strand c k
    let a := line.toNat
    let lo := t.pc.toNat / 64 * 64
    match d.strandLast c k with
    | none => d
    | some l =>
      if !d.coreOn c || a % 64 ≠ 0 || badPc c line false || a < lo || lo + 256 ≤ a then d
      else
        let e := d.eccRead a 64
        match e.2 with
        | some x => e.1.fault 4 ⟨l, c, k, t.pc, 0⟩ (BitVec.ofNat 64 x)
        | none =>
          let d := e.1.updStrand c k fun s => s.takeLine a (e.1.rdMem a 64)
          if t.fetch.any fun f => f.1 / 64 * 64 == a then d else { d with now := { d.now with fetched := (c, k, a) :: d.now.fetched } }

/-- LD8U (R181, Table 7.6). -/
def execLd8u (c : CoreId) (k : StrandId) (w : BitVec 56) (s : State) : Host.Outcome State Fault Refusal :=
  memLocal 0x50 c k w s

/-- LD8S (R181, Table 7.6). -/
def execLd8s (c : CoreId) (k : StrandId) (w : BitVec 56) (s : State) : Host.Outcome State Fault Refusal :=
  memLocal 0x51 c k w s

/-- LD16U (R181, Table 7.6). -/
def execLd16u (c : CoreId) (k : StrandId) (w : BitVec 56) (s : State) : Host.Outcome State Fault Refusal :=
  memLocal 0x52 c k w s

/-- LD16S (R181, Table 7.6). -/
def execLd16s (c : CoreId) (k : StrandId) (w : BitVec 56) (s : State) : Host.Outcome State Fault Refusal :=
  memLocal 0x53 c k w s

/-- LD32U (R181, Table 7.6). -/
def execLd32u (c : CoreId) (k : StrandId) (w : BitVec 56) (s : State) : Host.Outcome State Fault Refusal :=
  memLocal 0x54 c k w s

/-- LD32S (R181, Table 7.6). -/
def execLd32s (c : CoreId) (k : StrandId) (w : BitVec 56) (s : State) : Host.Outcome State Fault Refusal :=
  memLocal 0x55 c k w s

/-- LD64 (R181, Table 7.6). -/
def execLd64 (c : CoreId) (k : StrandId) (w : BitVec 56) (s : State) : Host.Outcome State Fault Refusal :=
  memLocal 0x56 c k w s

/-- ST8 (R181, Table 7.6). -/
def execSt8 (c : CoreId) (k : StrandId) (w : BitVec 56) (s : State) : Host.Outcome State Fault Refusal :=
  memLocal 0x58 c k w s

/-- ST16 (R181, Table 7.6). -/
def execSt16 (c : CoreId) (k : StrandId) (w : BitVec 56) (s : State) : Host.Outcome State Fault Refusal :=
  memLocal 0x59 c k w s

/-- ST32 (R181, Table 7.6). -/
def execSt32 (c : CoreId) (k : StrandId) (w : BitVec 56) (s : State) : Host.Outcome State Fault Refusal :=
  memLocal 0x5A c k w s

/-- ST64 (R181, Table 7.6). -/
def execSt64 (c : CoreId) (k : StrandId) (w : BitVec 56) (s : State) : Host.Outcome State Fault Refusal :=
  memLocal 0x5B c k w s

/-- LDG (R182, R183, Table 7.6). -/
def execLdg (c : CoreId) (k : StrandId) (w : BitVec 56) (s : State) : Host.Outcome State Fault Refusal :=
  memGlobal 0x5C c k w s

/-- STG (R182, R183, Table 7.6). -/
def execStg (c : CoreId) (k : StrandId) (w : BitVec 56) (s : State) : Host.Outcome State Fault Refusal :=
  memGlobal 0x5D c k w s

/-- AADD (R182, R183, Table 7.6). -/
def execAadd (c : CoreId) (k : StrandId) (w : BitVec 56) (s : State) : Host.Outcome State Fault Refusal :=
  memGlobal 0x5E c k w s

end Sys2Proof.Machine
end

