-- ==== Sys2Proof/Machine/Hods.lean ====
section
/-!
DEFINITION. Hods (R222 to R235): the commands they take, runs and their transfers, slots, posts, deadlines, stream faults.
-/

namespace Sys2Proof.Machine

/-! One view of core hods and fabric hods. -/

def Dev.hod (d : Dev) : HodRef → Hod
  | .core c h => (d.core c).hods.get h
  | .fab n => d.hub.fhods.get n

def Dev.updHod (d : Dev) (h : HodRef) (f : Hod → Hod) : Dev :=
  match h with
  | .core c i => d.updCore c fun x => { x with hods := vmap x.hods i f }
  | .fab n => d.updHub fun x => { x with fhods := vmap x.fhods n f }

/-- A descriptor's runs; a fabric hod has one descriptor. -/
def Dev.sd (d : Dev) (h : HodRef) (m : SdId) : Sd :=
  match h with
  | .core c _ => (d.core c).sds.get m
  | .fab n => d.hub.fsds.get n

def Dev.updSd (d : Dev) (h : HodRef) (m : SdId) (f : Sd → Sd) : Dev :=
  match h with
  | .core c _ => d.updCore c fun x => { x with sds := vmap x.sds m f }
  | .fab n => d.updHub fun x => { x with fsds := vmap x.fsds n f }

/-- The stream descriptor as it stands (R223, R224). -/
def Dev.sdWords (d : Dev) (h : HodRef) (m : SdId) : List Word :=
  match h with
  | .core c _ => (d.core c).sdesc m.val
  | .fab n => (List.range 8).map fun i => d.reg (aFh n (8 * i))

/-- The hod as a master of memory; a fabric hod is in the hub. -/
def hodMaster : HodRef → Master
  | .core c h => .hod c h.val
  | .fab _ => .hub

def hodIndex : HodRef → Nat
  | .core _ h => h.val
  | .fab _ => 0

def hodIsCore : HodRef → Bool
  | .core _ _ => true
  | .fab _ => false

/-- The hod's domain is ON. -/
def Dev.hodOn (d : Dev) : HodRef → Bool
  | .core c _ => d.coreOn c
  | .fab _ => d.hubOn

/-- Stream descriptor fields (Table 8.12). -/
structure SDesc where
  src : Word
  dst : Word
  len : Nat
  rows : Nat
  tiles : Nat
  mode : Nat
  depth : Nat
  sloc : Bool
  dloc : Bool
  ptile : Bool
  pen : Bool
  srs : Int
  sts : Int
  drs : Int
  dts : Int
  deadline : Nat
  period : Nat
  tally : TallyId
  haltMiss : Bool
  notify : Word
  deriving DecidableEq, Repr

def sdescOf (w : List Word) : SDesc where
  src := wordAt w 0
  dst := wordAt w 1
  len := fld (wordAt w 2) 0 24
  rows := fld (wordAt w 2) 24 16
  tiles := fld (wordAt w 2) 40 16
  mode := fld (wordAt w 2) 56 2
  depth := fld (wordAt w 2) 58 2
  sloc := bitOf (wordAt w 2) 60
  dloc := bitOf (wordAt w 2) 61
  ptile := bitOf (wordAt w 2) 62
  pen := bitOf (wordAt w 2) 63
  srs := signed 32 (fld (wordAt w 3) 0 32)
  sts := signed 32 (fld (wordAt w 3) 32 32)
  drs := signed 32 (fld (wordAt w 4) 0 32)
  dts := signed 32 (fld (wordAt w 4) 32 32)
  deadline := (wordAt w 5).toNat
  period := fld (wordAt w 6) 0 32
  tally := finOf 63 (fld (wordAt w 6) 32 6)
  haltMiss := bitOf (wordAt w 6) 38
  notify := wordAt w 7

/-- The queue whose pop window an address is (R230). -/
def popWindow (a : Nat) : Option QueueId :=
  match region a with
  | .regs =>
    let g := (a - regBase) / 0x10000
    if 0x120 ≤ g && g < 0x140 && a % 0x10000 = 0 then some (finOf 31 (g - 0x120)) else none
  | _ => none

/-- The run is valid (Table 8.14 code 1, R230, R235). -/
def SDesc.valid (s : SDesc) (w : List Word) (core : Bool) : Bool :=
  s.mode != 3 && decide (s.len ≠ 0) && decide (s.rows ≠ 0) && decide (s.tiles ≠ 0) && fld (wordAt w 6) 39 25 == 0 &&
  (!s.sloc || fld s.src 48 16 == 0) && (!s.dloc || fld s.dst 48 16 == 0) && (s.sloc || !bitOf s.src 63) &&
  (s.mode != 2 || (s.rows == 1 && decide (9 ≤ s.len) && (popWindow (fld s.src 0 48)).isSome)) &&
  !bitOf s.notify 63 && (core || !s.pen || decide (s.notify ≠ 0))

/-! Stream faults (R233, R235). -/

/-- A stream fault of a core's hod stops the last that `o` names; one of a fabric hod stops the run. The manual names no
event code for the latter (DESIGN CHOICE, log 9). `info` is that of `Dev.faultInfo`. -/
def Dev.streamFaultInfo (d : Dev) (h : HodRef) (m : SdId) (code : Nat) (addr : Nat) (o : Option Origin) (info : Nat) : Dev :=
  match h with
  | .core c i =>
    let d := d.hwSet (aHodErr c) 1 0xFFFFFFFFFFFF07FE (mkWord [(1, code), (5, m.val), (10, i.val), (16, addr % 2 ^ 48)])
    (match o with
      | some o => d.faultInfo 16 o 0 info
      | none => d)
  | .fab n =>
    let d := d.updSd h m fun s => { s with fault := true, why := code, active := none, shadow := none, slots := 0, fillNo := 0, filled := 0, relNo := 0 }
    let d := { d with now := { d.now with sets := d.now.sets ++ [(⟨aFh n 0x48, 0x8000, 0, 0⟩ : SetEv)] } }
    let w := d.free
    w.2.event (fld w.1 0 16) 1 (if info = 0 then [] else leBytes 4 info)

def Dev.streamFault (d : Dev) (h : HodRef) (m : SdId) (code : Nat) (addr : Nat) (o : Option Origin) : Dev :=
  d.streamFaultInfo h m code addr o 0

/-! Taking commands (R228, R229). -/

/-- The command at the head of the hod's queue: 1 ARM, 2 REARM, 3 SWAP; its descriptor; its operation. -/
def Dev.hodHead (d : Dev) (h : HodRef) : Option (Nat × SdId × Option Op) :=
  if !d.hodOn h || (d.hod h).took == some d.cycle then none
  else match h with
  | .core c i =>
    (match d.queueOf c (.hod i) with
      | o :: _ => if o.began < d.cycle then some (o.opcode.toNat - 0x5F, wSd o.w, some o) else none
      | [] => none)
  | .fab n =>
    (match d.hub.fhq.get n with
      | k :: _ => some (k, 0, none)
      | [] => none)

/-- The command leaves the queue. The oldest write of FH_CMD that waits for the entry completes (R235). -/
def Dev.hodTaken (d : Dev) (h : HodRef) : Dev :=
  let d := d.updHod h fun x => { x with held := none, took := some d.cycle }
  match h with
  | .core _ _ => d
  | .fab n =>
    let more := match d.hub.fhWait.find? fun x => x.1 == n with
      | some x => [x.2]
      | none => []
    d.updHub fun x => { x with fhq := vmap x.fhq n fun q => q.tail ++ more, fhWait := eraseFirst (fun y => y.1 == n) x.fhWait }

/-- The command completes; a core's instruction posts. -/
def Dev.hodDone (d : Dev) (h : HodRef) (o : Option Op) : Dev :=
  let d := d.hodTaken h
  match o with
  | some o => d.completeOp o
  | none => d

/-- The command is held at the head (Table 8.18). -/
def Dev.hodHold (d : Dev) (h : HodRef) (why : BitVec 2) : Dev := d.updHod h fun x => { x with held := some why }

/-- The command raises a stream fault; it does not complete. -/
def Dev.hodFault (d : Dev) (h : HodRef) (m : SdId) (code : Nat) (o : Option Op) : Dev :=
  let d := d.hodTaken h
  let d := match o with
    | some x => { d with ops := d.ops.filter fun y => y.id != x.id }.noteLeft [x]
    | none => d
  d.streamFault h m code 0 (o.map Op.origin)

/-- Active runs of the hod (R222). -/
def Dev.activeRuns (d : Dev) (h : HodRef) : Nat :=
  match h with
  | .core c i => ((d.core c).sds.toList.filter fun s => s.active.any fun r => r.hod == i).length
  | .fab _ => 0

/-- Slots of a ring (R229). -/
def Dev.slotsFor (d : Dev) (s : SDesc) (o : Option Op) : Nat :=
  let rt := match o with
    | some x => (match (d.last x.last).image with
      | some i => i.flags.toNat.testBit 0
      | none => false)
    | none => false
  if d.regFld (aMem 0) 0 2 = 0 || rt then min (s.depth + 1) 2 else s.depth + 1

/-- A run becomes active (R227, R228). -/
def Sd.activate (s : Sd) (r : Run) : Sd := { s with gen := s.gen + 1, active := some r }

/-- ARM, or REARM as ARM: the run becomes active and the slot ring is reset. -/
def Dev.armRun (d : Dev) (h : HodRef) (m : SdId) (r : Run) (u : Nat) : Dev :=
  d.updSd h m fun s => { s.activate r with slots := u, fillNo := 0, filled := 0, relNo := 0 }

/-- The run a command presents (R224). -/
def Dev.newRun (d : Dev) (h : HodRef) (m : SdId) (o : Option Op) : Run :=
  ⟨d.sdWords h m, o.map Op.origin, finOf 1 (hodIndex h), 0, 0, 0, 0, [], [], none, false⟩

/-- The active run of the descriptor is on the core's other hod. -/
def Dev.otherHod (d : Dev) (h : HodRef) (m : SdId) : Bool := hodIsCore h && (d.sd h m).active.any fun r => r.hod.val != hodIndex h

/-- ARM_TAKEN and REARM_TAKEN (R228, R233, Table 8.14). A command that must be held is not taken yet, so nothing of it is judged;
one that is taken raises the lowest code that applies. -/
def Dev.armTaken (d : Dev) (h : HodRef) (kind : Nat) : Dev :=
  match d.hodHead h with
  | none => d
  | some (k, m, o) =>
    if k ≠ kind then d
    else
      let s := d.sd h m
      let w := d.sdWords h m
      let sd := sdescOf w
      if s.active.isNone && 8 ≤ d.activeRuns h then d.hodHold h 1
      else if kind = 2 && s.active.isSome && !d.otherHod h m && (s.shadow.isSome || s.freedAt = d.cycle) then d.hodHold h 0
      else if !sd.valid w (hodIsCore h) then d.hodFault h m 1 o
      else if kind = 1 && s.active.isSome then d.hodFault h m 2 o
      else if d.otherHod h m then d.hodFault h m 3 o
      else if s.active.isNone then (d.armRun h m (d.newRun h m o) (d.slotsFor sd o)).hodDone h o
      else (d.updSd h m fun s => { s with shadow := some (d.newRun h m o) }).hodDone h o

/-- SWAP_TAKEN (R229). -/
def Dev.swapTaken (d : Dev) (h : HodRef) : Dev :=
  match d.hodHead h with
  | none => d
  | some (k, m, o) =>
    if k ≠ 3 then d
    else
      let s := d.sd h m
      match s.active with
      | none => d.hodFault h m 4 o
      | some r =>
        let sd := sdescOf r.desc
        if sd.mode = 0 then d.hodFault h m 4 o
        else if s.filled ≠ 0 then (d.updSd h m fun s => { s with filled := s.filled - 1, relNo := s.relNo + 1 }).hodDone h o
        else if r.done < sd.tiles || s.shadow.isSome then d.hodHold h 2
        else d.hodFault h m 4 o

def execArmTaken (h : HodRef) (s : State) : Host.Outcome State Fault Refusal := onDev s fun d => d.armTaken h 1
def execRearmTaken (h : HodRef) (s : State) : Host.Outcome State Fault Refusal := onDev s fun d => d.armTaken h 2
def execSwapTaken (h : HodRef) (s : State) : Host.Outcome State Fault Refusal := onDev s fun d => d.swapTaken h

/-! Transfers (R225, R229, R230, R232). -/

/-- A byte address moved by a signed distance. -/
def moveAddr (a : Word) (n : Int) : Word := a + BitVec.ofInt 64 n

/-- Where an address of a run leads. -/
def Dev.runTarget (d : Dev) (w : Word) (loc : Bool) : Target := if loc then .here (fld w 0 48) else d.targetOf w

/-- Tiles of the ring counted from its reset: the number of the run's current tile. -/
def Sd.tileNo (s : Sd) (r : Run) : Nat := s.fillNo + (r.tile - r.done)

/-- Source and destination of the run's next transfer. -/
def Sd.nextAddrs (s : Sd) (r : Run) : Word × Word :=
  let x := sdescOf r.desc
  let row : Int := (r.row : Int)
  let t : Int := (r.tile : Int)
  let k : Int := if x.mode = 0 then t else ((s.tileNo r % max 1 s.slots : Nat) : Int)
  (moveAddr x.src (t * x.sts + row * x.srs + (r.off : Int)), moveAddr x.dst (k * x.dts + row * x.drs + (r.off : Int)))

/-- The last of a run lets it issue: it runs, and no pause of it began in an earlier cycle (R234, R292). -/
def Dev.runMayIssue (d : Dev) (r : Run) : Bool :=
  match r.origin with
  | some o => (d.last o.last).st == .running && (d.last o.last).pausing.all fun p => p.began == d.cycle
  | none => true

/-- A tile of the run may be filled: it has a slot, and multicast members are close enough (R229, R232). -/
def Dev.slotFree (d : Dev) (s : Sd) (r : Run) : Bool :=
  let x := sdescOf r.desc
  let mc := !x.dloc && bitOf x.dst 63
  decide (r.tile < x.tiles) && d.runMayIssue r &&
  (x.mode == 0 || decide (s.tileNo r < s.relNo + s.slots)) && (!mc || decide (r.tile < r.done + 4))

/-- A mode-2 run has popped its tile's whole packet. -/
def Run.packed (r : Run) : Bool := match r.pkt.getLast? with
  | some e => e.eop
  | none => false

/-- The run can issue its next transfer. -/
def Dev.canTransfer (d : Dev) (s : Sd) (r : Run) : Bool := d.slotFree s r && ((sdescOf r.desc).mode != 2 || r.packed)

/-- The descriptor whose run is served next: round-robin after the one served last. -/
def Dev.nextRun (d : Dev) (h : HodRef) : Option (SdId × Run) :=
  let all : List SdId := if hodIsCore h then List.finRange 32 else [0]
  let n := (d.hod h).served
  let order := (all.filter fun m => decide (n < m.val)) ++ all.filter fun m => decide (m.val ≤ n)
  order.findSome? fun m =>
    let s := d.sd h m
    match s.active with
    | some r => if (!hodIsCore h || r.hod.val == hodIndex h) && d.canTransfer s r then some (m, r) else none
    | none => none

/-- A packet in its slot (R230): header and payload. Bits [31:0] count the payload kept, behind any truncation (DESIGN CHOICE,
log 47). -/
def packetBytes (len : Nat) (es : List QEntry) : List Byte :=
  let pay := es.flatMap fun e => e.data.take e.bytes
  let kept := pay.take (len - 8)
  leBytes 8 (mkWord [(0, kept.length), (32, b2n (es.any QEntry.broken)), (33, b2n (decide (len - 8 < pay.length))),
    (48, match es with
      | e :: _ => e.source.toNat
      | [] => 0)]).toNat ++ kept

/-- Bytes of a row of the run's tile: for a packet, its header and the payload kept. -/
def Run.rowLen (r : Run) : Nat :=
  let x := sdescOf r.desc
  if x.mode = 2 then (packetBytes x.len r.pkt).length else x.len

/-- The run moves past `n` bytes. -/
def Run.advance (r : Run) (n : Nat) : Run :=
  let x := sdescOf r.desc
  if r.off + n < r.rowLen then { r with off := r.off + n }
  else if r.row + 1 < x.rows then { r with off := 0, row := r.row + 1 }
  else { r with off := 0, row := 0, tile := r.tile + 1, pkt := [], whole := false }

/-- Bytes to the next 4 KiB boundary. -/
def toBoundary (a : Word) : Nat := 4096 - a.toNat % 4096

/-- The stream-fault code of a status. -/
def streamCode (status : Nat) : Nat := if status = 2 then 6 else 5

/-- A transfer's write to another module leaves (R248, R263). -/
def Dev.sendXfer (d : Dev) (h : HodRef) (m : SdId) (tile : Nat) (dst : Word) (bs : List Byte) : Option Dev :=
  match d.targetOf dst with
  | .group _ _ => d.sendMulticast (.hod h m tile) dst bs
  | _ => some (d.sendWrite (.hod h m tile) dst bs)

/-- The destination lies in this module. -/
def Dev.localDst (d : Dev) (dloc : Bool) (dst : Word) : Option Nat :=
  match d.runTarget dst dloc with
  | .here a => some a
  | _ => none

/-- The run's transfer is outstanding from now on. -/
def Dev.pushXfer (d : Dev) (h : HodRef) (m : SdId) (r : Run) (n : Nat) (x : Xfer) : Dev :=
  let d := d.updHod h fun y => { y with xfers := y.xfers ++ [x], served := m.val, issued := some d.cycle }
  let d := d.updSd h m fun s => { s with active := some (r.advance n) }
  match h with
  | .core c i => d.cnt c (51 + i.val) 1
  | .fab _ => d

/-- TRANSFER_ISSUE (R222, R225, R229, R230, R232). A multicast entry that is not valid answers status 6 at once (R263). -/
def Dev.transferIssue (d : Dev) (h : HodRef) : Dev :=
  let hd := d.hod h
  if !d.hodOn h || !hd.ok || 6 ≤ hd.xfers.length || hd.issued == some d.cycle then d
  else match d.nextRun h with
  | none => d
  | some (m, r) =>
    let s := d.sd h m
    let x := sdescOf r.desc
    let ad := s.nextAddrs r
    let tag := d.hub.nextTag
    if x.mode = 2 then
      let bs := ((packetBytes x.len r.pkt).drop r.off).take (min 4096 (toBoundary ad.2))
      let xf := fun (t : Option (BitVec 16)) => (⟨m, r.tile, bs.length, ad.1, ad.2, some bs, t, s.gen, x.dloc⟩ : Xfer)
      match d.localDst x.dloc ad.2 with
      | some _ => d.pushXfer h m r bs.length (xf none)
      | none => match d.sendXfer h m r.tile ad.2 bs with
        | some d => d.pushXfer h m r bs.length (xf (some tag))
        | none => d.streamFaultInfo h m 7 (fld ad.2 0 48) r.origin 6
    else
      let n := min (x.len - r.off) (min (toBoundary ad.1) (toBoundary ad.2))
      match d.runTarget ad.1 x.sloc with
      | .group _ _ => d
      | .away _ _ => (d.sendRead (.hod h m r.tile) ad.1 n).pushXfer h m r n ⟨m, r.tile, n, ad.1, ad.2, none, some tag, s.gen, x.dloc⟩
      | .here a =>
        match d.localDst x.dloc ad.2 with
        | some _ => d.pushXfer h m r n ⟨m, r.tile, n, ad.1, ad.2, none, none, s.gen, x.dloc⟩
        | none =>
          let q := d.rangeRead 64 a n
          match q.2 with
          | .wait => q.1
          | .bad st => q.1.streamFault h m (streamCode st) a r.origin
          | .ok bs => match q.1.sendXfer h m r.tile ad.2 bs with
            | some d => d.pushXfer h m r n ⟨m, r.tile, n, ad.1, ad.2, some bs, some tag, s.gen, x.dloc⟩
            | none => q.1.streamFaultInfo h m 7 (fld ad.2 0 48) r.origin 6

/-! Packets (R230). -/

/-- A mode-2 run takes an entry of its next packet: one a cycle from a queue here, once the queue holds a complete packet; from
another module's pop window by a 64-byte read, one at a time, once a read of that queue's QUE_STAT has shown a complete packet
(DEDUCED, log 29). -/
def Dev.packetPop (d : Dev) (h : HodRef) (m : SdId) (r : Run) : Dev :=
  let x := sdescOf r.desc
  let s := d.sd h m
  if x.mode ≠ 2 || r.packed || r.popTag.isSome || !d.slotFree s r || !(d.hod h).ok then d
  else
    let set := fun (d : Dev) (f : Run → Run) => d.updSd h m fun s => { s with active := s.active.map f }
    match d.runTarget x.src x.sloc, popWindow (fld x.src 0 48) with
    | .here _, some q =>
      if !d.hubOn || (r.pkt.isEmpty && (d.queue q).pkts = 0) then d
      else
        let p := d.quePop q
        (match p.2 with
          | .ok bs => if leAt bs 0 1 % 2 = 1 then set p.1 fun r => { r with pkt := r.pkt ++ [QEntry.ofRing bs] } else p.1
          | _ => p.1)
    | .away _ _, some _ =>
      let tag := d.hub.nextTag
      set (if r.whole then d.sendRead (.hod h m r.tile) x.src 64 else d.sendRead (.hod h m r.tile) (x.src + 0x1020) 8) fun r => { r with popTag := some tag }
    | _, _ => d

/-- Every hod whose domain is ON takes the entries of a cycle. -/
def Dev.packetsCycle (d : Dev) : Dev :=
  let d := (allCores.filter fun c => d.coreOn c && (d.core c).sds.toList.any fun s => s.active.isSome).foldl (fun (d : Dev) c =>
    (List.finRange 32).foldl (fun (d : Dev) m => match ((d.core c).sds.get m).active with
      | some r => d.packetPop (.core c r.hod) m r
      | none => d) d) d
  if !d.hubOn then d
  else (List.finRange 16).foldl (fun (d : Dev) n => match (d.hub.fsds.get n).active with
    | some r => d.packetPop (.fab n) 0 r
    | none => d) d

def execTransferIssue (h : HodRef) (s : State) : Host.Outcome State Fault Refusal := onDev s fun d => d.transferIssue h

/-! Completion (R226). -/

/-- A post of a run. -/
def Dev.runPost (d : Dev) (h : HodRef) (x : SDesc) (o : Option Origin) : Dev :=
  if x.notify ≠ 0 then d.notify (o.map fun o => o.last) x.notify
  else match h with
  | .core c _ => d.tallyInc c x.tally 1 none
  | .fab _ => d

/-- Tiles complete in order: at most `f` of them (R226, R228). -/
def Dev.tilesDone (h : HodRef) (m : SdId) : Nat → Dev → Dev
  | 0, d => d
  | f + 1, d =>
    let s := d.sd h m
    match s.active with
    | none => d
    | some r =>
      let x := sdescOf r.desc
      if r.tile ≤ r.done || (d.hod h).xfers.any (fun y => y.m == m && y.gen == s.gen && y.tile == r.done) then d
      else
        let r' := { r with done := r.done + 1 }
        let d := d.updSd h m fun s => { s with
          active := some r'
          fillNo := if x.mode = 0 then s.fillNo else s.fillNo + 1
          filled := if x.mode = 0 then s.filled else s.filled + 1 }
        let d := if x.pen && x.ptile then d.runPost h x r.origin else d
        if r'.done < x.tiles then Dev.tilesDone h m f d
        else
          let d := if x.pen && !x.ptile then d.runPost h x r.origin else d
          d.updSd h m fun s => if s.shadow.isSome then { s with freedAt := d.cycle } else { s with active := none }

/-- Tiles of the active run that have been issued, whole or in part, and have not completed. -/
def Dev.tilesOpen (d : Dev) (h : HodRef) (m : SdId) : Nat :=
  match (d.sd h m).active with
  | some r => r.tile + 1 - r.done
  | none => 0

/-- A transfer has taken effect. -/
def Dev.xferDone (d : Dev) (h : HodRef) (i : Nat) (x : Xfer) : Dev :=
  let d := d.updHod h fun y => { y with xfers := y.xfers.eraseIdx i }
  let d := match h with
    | .core c k => d.cnt c (49 + k.val) x.len
    | .fab _ => d
  if (d.sd h x.m).gen = x.gen then Dev.tilesDone h x.m (d.tilesOpen h x.m) d else d

/-- A transfer fails: the stream fault names its run (R233). -/
def Dev.xferFail (d : Dev) (h : HodRef) (i : Nat) (x : Xfer) (code addr : Nat) (info : Nat := 0) : Dev :=
  let d := d.updHod h fun y => { y with xfers := y.xfers.eraseIdx i }
  match (d.sd h x.m).active with
  | some r => if (d.sd h x.m).gen = x.gen then d.streamFaultInfo h x.m code addr r.origin info else d
  | none => d

/-- A transfer whose bytes are here is written. Where the destination makes it wait, the rest follows later. -/
def Dev.xferWrite (d : Dev) (h : HodRef) (i : Nat) (x : Xfer) (a : Nat) (bs : List Byte) : Dev :=
  if !d.rangeAwake a bs.length then d.rangeWake a bs.length
  else
    let w := d.rangePut 64 a bs (hodMaster h)
    match w.2.1 with
    | .ok _ => w.1.xferDone h i x
    | .wait => w.1.updHod h fun y => { y with
        xfers := y.xfers.set i { x with data := some (bs.drop w.2.2), dst := x.dst + BitVec.ofNat 64 w.2.2 } }
    | .bad st => w.1.xferFail h i x (streamCode st) a

/-- TRANSFER_COMPLETE (R225, R226): a transfer to this module reads its source, where it lies here, and writes. One that
waits for another module does not complete by this command. -/
def Dev.transferComplete (d : Dev) (h : HodRef) (i : Nat) : Dev :=
  match (d.hod h).xfers[i]? with
  | none => d
  | some x =>
    if x.tag.isSome || (d.hod h).issued == some d.cycle then d
    else
      let dst := match d.targetOf x.dst with
        | .here a => a
        | _ => fld x.dst 0 48
      match x.data with
      | some bs => d.xferWrite h i x dst bs
      | none =>
        let src := fld x.src 0 48
        if !d.rangeAwake src x.len then d.rangeWake src x.len
        else if !d.rangeAwake dst x.len then d.rangeWake dst x.len
        else
          let r := d.rangeRead 64 src x.len
          match r.2 with
          | .ok bs => r.1.xferWrite h i x dst bs
          | .wait => r.1
          | .bad st => r.1.xferFail h i x (streamCode st) src

def execTransferComplete (h : HodRef) (i : Nat) (s : State) : Host.Outcome State Fault Refusal :=
  onDev s fun d => d.transferComplete h i

/-- The answer to a read of another module's queue (R230): its QUE_STAT, whose bits [47:32] count the complete packets, or an entry. -/
def Dev.popReply (d : Dev) (h : HodRef) (m : SdId) (tag : BitVec 16) (ans : Option (List Byte)) (info : Nat) : Dev :=
  match (d.sd h m).active with
  | none => d
  | some r =>
    if r.popTag ≠ some tag then d
    else match ans with
      | none => d.streamFaultInfo h m 7 (fld (sdescOf r.desc).src 0 48) r.origin info
      | some bs =>
        if !r.whole then d.updSd h m fun s => { s with active := some { r with popTag := none, whole := leAt bs 4 2 != 0 } }
        else
        let more := if leAt bs 0 1 % 2 = 1 then [QEntry.ofRing bs] else []
        d.updSd h m fun s => { s with active := some { r with popTag := none, pkt := r.pkt ++ more } }

/-- The answer to a transfer's remote request (R226, R248): its data, its acknowledgement, or an error. -/
def Dev.hodReply (d : Dev) (h : HodRef) (m : SdId) (tag : BitVec 16) (ans : Option (List Byte)) (info : Nat) : Dev :=
  match ((d.hod h).xfers.findIdx? fun x => x.tag == some tag) with
  | none => d.popReply h m tag ans info
  | some i =>
    match (d.hod h).xfers[i]? with
    | none => d
    | some x =>
      match ans with
      | none => d.xferFail h i x 7 (fld (if x.data.isNone then x.src else x.dst) 0 48) info
      | some bs =>
        if x.data.isSome then d.xferDone h i x
        else
          let put := fun (d : Dev) (t : Option (BitVec 16)) => d.updHod h fun y => { y with
            xfers := y.xfers.set i { x with data := some bs, tag := t } }
          match d.localDst x.dloc x.dst with
          | some _ => put d none
          | none =>
            let t := d.hub.nextTag
            match d.sendXfer h x.m x.tile x.dst bs with
            | some d => put d (some t)
            | none => d.xferFail h i x 7 (fld x.dst 0 48) 6

/-- SHADOW_RUN_ACTIVATE (R227, R228). -/
def Dev.shadowActivate (d : Dev) (h : HodRef) (m : SdId) : Dev :=
  let s := d.sd h m
  match s.active, s.shadow with
  | some r, some n =>
    if (sdescOf r.desc).tiles ≤ r.done && s.freedAt < d.cycle then
      d.updSd h m fun s => { s.activate n with shadow := none, freedAt := d.cycle }
    else d
  | _, _ => d

def execShadowRunActivate (h : HodRef) (m : SdId) (s : State) : Host.Outcome State Fault Refusal :=
  onDev s fun d => d.shadowActivate h m

/-! Deadlines (R231). -/

/-- The member of a multicast run that a tile still waits for (R232): that of its first request which waits for one, 0xFFFF where none does. -/
def Dev.straggler (d : Dev) (h : HodRef) (m : SdId) (tile : Nat) : Dev × Nat :=
  match d.hub.reqs.find? fun r => r.who == .hod h m tile && bitOf r.addr 63 && decide (r.acks.length < r.need) with
  | some r =>
    let x := d.missing r
    (x.1, x.2.getD 0xFFFF)
  | none => (d, 0xFFFF)

/-- Tile `tile` of a run misses its deadline now: it is late, and its miss has not been recorded (R231). -/
def Dev.late (d : Dev) (i : Fin 2) (r : Run) (tile : Nat) : Bool :=
  let x := sdescOf r.desc
  let rt := match r.origin.bind fun o => (d.last o.last).image with
    | some im => im.flags.toNat.testBit 0
    | none => false
  rt && r.hod == i && x.deadline != 0 && decide (tile < x.tiles) && decide (r.done ≤ tile) && !r.missed.contains tile &&
  decide ((x.deadline + tile * x.period) % 2 ^ 64 ≤ d.hub.ftime.ft.toNat)

/-- DEADLINE_MISS (R231): of the active run of the descriptor, or of the one in its shadow slot. -/
def Dev.deadlineMiss (d : Dev) (h : HodRef) (m : SdId) (tile : Nat) : Dev :=
  match h with
  | .fab _ => d
  | .core c i =>
    let s := d.sd h m
    let hit := fun (r : Option Run) => r.any fun r => d.late i r tile
    let note := fun (r : Run) => { r with missed := r.missed ++ [tile] }
    let go := fun (r : Run) (d : Dev) (act : Bool) => match r.origin with
      | none => d
      | some o =>
        let d := (d.hwInc (aMem (0x40 + 8 * o.last.val)) 0 32 1).cnt c 62 1
        let late := if act then d.straggler h m tile else (d, 0xFFFF)
        let d := late.1.event 0x4002 1 (leBytes 1 o.last.val ++ leBytes 1 c.val ++ leBytes 1 i.val ++ leBytes 1 m.val ++
          leBytes 2 (s.gen.toNat + b2n (!act)) ++ leBytes 2 0 ++ leBytes 4 tile ++ leBytes 2 late.2)
        if (sdescOf r.desc).haltMiss then d.fault 15 o 0 else d
    if hit s.active then
      (match s.active with
        | some r => go r (d.updSd h m fun s => { s with active := some (note r) }) true
        | none => d)
    else if hit s.shadow then
      (match s.shadow with
        | some r => go r (d.updSd h m fun s => { s with shadow := some (note r) }) false
        | none => d)
    else d

def execDeadlineMiss (h : HodRef) (m : SdId) (tile : Nat) (s : State) : Host.Outcome State Fault Refusal :=
  onDev s fun d => d.deadlineMiss h m tile

/-! Fabric hod commands (R235). -/

/-- A write of FH_CMD_n by a master: one that finds the queue full completes when an entry frees (R235). -/
def Dev.fhCommand (d : Dev) (n : FhId) (v : Word) : Dev :=
  d.write8Later (aFh n 0x40) v

def execFhArm (n : FhId) (s : State) : Host.Outcome State Fault Refusal := onDev s fun d => d.fhCommand n 1
def execFhRearm (n : FhId) (s : State) : Host.Outcome State Fault Refusal := onDev s fun d => d.fhCommand n 2
def execFhSwap (n : FhId) (s : State) : Host.Outcome State Fault Refusal := onDev s fun d => d.fhCommand n 3

end Sys2Proof.Machine
end

