-- ==== Sys2Proof/Machine/Lasts.lean ====
section
/-!
DEFINITION. What a last goes through: the measurement log (R359), answers (R307, R309), program images and loading (R163, R164,
R418), launch (R142), unload (R310), pause and resume (R292, R294).
-/

namespace Sys2Proof.Machine

/-! Measurements and answers. -/

/-- A log entry (Table 13.7) enters the log and the aggregate. -/
def Dev.measure (d : Dev) (kind unit : Nat) (digest : List Byte) (info : Nat) : Dev :=
  d.updTrust fun t =>
    let e := leBytes 4 t.count ++ leBytes 1 kind ++ leBytes 1 unit ++ zeros 2 ++ padTo 48 digest ++ leBytes 4 info ++
      leBytes 4 d.aoc.rcd.secs
    { t with log := if t.count < 4096 then t.log ++ [e] else t.log, count := t.count + 1, agg := sha384 (padTo 48 t.agg ++ e) }

/-- A request that the recorder injected: its answer is built and discarded (R287). -/
def Asker.injected (a : Asker) : Bool := a.src == 0 && a.sport == 0

/-- An answer (R307). One that is kept enters the answer cache (R309). -/
def Dev.answer (d : Dev) (a : Asker) (status detail : Nat) (body : List Byte) (keep : Bool) : Dev :=
  let m := d.ncpMessage (a.type + 0x80) a.reqId.toNat status detail body
  let d := if keep then m.1.updAoc fun x => { x with cache := x.cache ++ [⟨a, m.2, d.cycle⟩] } else m.1
  if a.injected then d else (d.emit (.answer a m.2)).acnt 1 1

/-- A long request ends with its answer (R308). -/
def Dev.reply (d : Dev) (a : Option Asker) (status detail : Nat) (body : List Byte) : Dev :=
  match a with
  | none => d
  | some a => (d.updAoc fun x => { x with longs := eraseFirst (fun l => l.asker == a) x.longs }).answer a status detail body true

/-- A long request runs on the last. -/
def Dev.longOn (d : Dev) (l : LastId) : Bool := d.aoc.longs.any fun x => x.scope == some l

/-! Program images. -/

/-- Physical core `p` of logical core `i` in a core map. -/
def mapCore (m : List Byte) (i : Nat) : Nat := (m.getD i 0).toNat

/-- A logical core entry (Table 6.13) with its physical core. -/
def parseCore (b : List Byte) (p : Nat) : LCore :=
  ⟨finOf 127 p, BitVec.ofNat 2 (leAt b 0 1), BitVec.ofNat 8 (leAt b 1 1), BitVec.ofNat 16 (leAt b 2 2), BitVec.ofNat 32 (leAt b 4 4),
   leAt b 8 1 == 1, 0, 0⟩

/-- Halves of array `a` that the entry requests, its tiles, its compiled width. -/
def LCore.halvesOf (c : LCore) (a : Nat) : Nat := c.halves.toNat / 4 ^ a % 4
def LCore.tilesOf (c : LCore) (a : Nat) : Nat := c.tiles.toNat / 16 ^ a % 16
def LCore.widthOf (c : LCore) (a : Nat) : Nat := c.width.toNat / 256 ^ a % 256
def LCore.usesArray (c : LCore) (a : Nat) : Bool := decide (c.halvesOf a ≠ 0) || decide (c.tilesOf a ≠ 0)

def coreEntryOk (b : List Byte) (c : LCore) : Bool :=
  decide (leAt b 0 1 < 4) && decide (leAt b 8 1 < 2) && (b.drop 9).all (· == 0) &&
  (List.range 4).all fun a => if c.usesArray a then decide (62 ≤ c.widthOf a) && decide (c.widthOf a ≤ 64) else c.widthOf a == 0

/-- A section entry as it stands (Table 6.14). -/
structure SectEntry where
  kind : Nat
  lcore : Nat
  strand : Nat
  target : Nat
  len : Nat
  src : Nat
  zero : Bool
  deriving DecidableEq, Repr

def parseSect (b : List Byte) : SectEntry :=
  ⟨leAt b 0 2, leAt b 2 2, leAt b 4 1, leAt b 8 8, leAt b 16 8, leAt b 24 8, leAt b 5 3 == 0⟩

/-- The header's numbers. -/
def imgCores (b : List Byte) : Nat := leAt b 16 2
def imgSects (b : List Byte) : List SectEntry := (List.range (leAt b 80 4)).map fun i => parseSect (b.drop (leAt b 72 8 + 32 * i))
def imgCoreBytes (b : List Byte) (i : Nat) : List Byte := (b.drop (leAt b 64 8 + 16 * i)).take 16

/-- R418. -/
def sectOk (b : List Byte) (s : SectEntry) : Bool :=
  let core := parseCore (imgCoreBytes b s.lcore) 0
  let entries := fun (n lo count : Nat) =>
    decide (s.len ≠ 0) && s.len % n == 0 && decide (lo ≤ s.target) && decide (s.target + s.len / n ≤ lo + count)
  s.zero && decide (s.src + s.len ≤ b.length) && (s.kind == 6 || decide (s.lcore < imgCores b)) && (s.kind == 1 || s.strand == 0) &&
  (match s.kind with
  | 1 => decide (s.target + s.len ≤ 0x800000) && decide (s.strand < 2) && core.strands.toNat.testBit s.strand
  | 2 => entries 64 (leAt b 20 2) (leAt b 22 2)
  | 3 => entries 64 (leAt b 24 1) (leAt b 25 1)
  | 4 => entries 2 0 4096 && core.pattern
  | 5 => decide (s.target + s.len ≤ 0x800000)
  | 6 => decide (s.target + s.len ≤ leAt b 84 4)
  | 7 => entries 2 (leAt b 18 1) (leAt b 19 1)
  | _ => false)

/-- Every strand requested has a text section (R418). -/
def textOk (b : List Byte) : Bool :=
  let ss := imgSects b
  (List.range (imgCores b)).all fun i =>
    let c := parseCore (imgCoreBytes b i) 0
    (List.range 2).all fun k => !c.strands.toNat.testBit k || ss.any fun s => s.kind == 1 && s.lcore == i && s.strand == k

/-- Check 1 of Table 6.15, apart from where the image lies. -/
def imageOk (b m : List Byte) : Bool :=
  let n := imgCores b
  decide (128 ≤ b.length) && leAt b 0 4 == 0x4951485A && leAt b 4 2 == 1 && decide (leAt b 7 1 < 4) && leAt b 8 8 == b.length &&
  decide (1 ≤ n) && decide (n ≤ 128) && decide (leAt b 18 1 + leAt b 19 1 ≤ 64) && decide (leAt b 20 2 + leAt b 22 2 ≤ 1024) &&
  decide (leAt b 24 1 + leAt b 25 1 ≤ 32) && decide (leAt b 26 1 + leAt b 27 1 ≤ 32) && leAt b 28 4 == 0 &&
  ((b.drop 88).take 40).all (· == 0) && decide (leAt b 64 8 + 16 * n ≤ b.length) && decide (leAt b 72 8 + 32 * leAt b 80 4 ≤ b.length) &&
  (List.range n).all (fun i => coreEntryOk (imgCoreBytes b i) (parseCore (imgCoreBytes b i) 0)) && (imgSects b).all (sectOk b) && textOk b &&
  m.length == n && m.all fun p => decide (p.toNat < 128)

/-- The address where a strand of a logical core begins: its first text section. -/
def entryOf (b : List Byte) (i k : Nat) (c : CoreId) : Nat :=
  match (imgSects b).find? fun s => s.kind == 1 && s.lcore == i && s.strand == k with
  | some s => sliceBase c + s.target
  | none => 0

/-- The image that a last takes (R163), from bytes that pass check 1. -/
def parseImage (b m : List Byte) (hbm : Nat) : Image where
  flags := b.getD 7 0
  talBase := leAt b 18 1
  talCount := leAt b 19 1
  descBase := leAt b 20 2
  descCount := leAt b 22 2
  sdBase := leAt b 24 1
  sdCount := leAt b 25 1
  slotBase := leAt b 26 1
  slotCount := leAt b 27 1
  keyLo := BitVec.ofNat 64 (leAt b 32 8)
  keyHi := BitVec.ofNat 64 (leAt b 40 8)
  draw0 := BitVec.ofNat 64 (leAt b 48 8)
  draw1 := BitVec.ofNat 64 (leAt b 56 8)
  hbmBase := hbm
  hbmSize := leAt b 84 4
  cores := (List.range (imgCores b)).map fun i =>
    let c := parseCore (imgCoreBytes b i) (mapCore m i)
    { c with entry0 := entryOf b i 0 c.phys, entry1 := entryOf b i 1 c.phys }
  sects := (imgSects b).map fun s => ⟨s.kind, finOf 127 (mapCore m s.lcore), s.target, (b.drop s.src).take s.len⟩

/-- Bytes [a, a + n) lie wholly within one region that can hold an image (R164). -/
def Dev.imagePlace (d : Dev) (a n : Nat) : Bool :=
  match region a with
  | .hbm => decide (a + n ≤ d.hbmSize) && d.reachable a
  | .stock _ _ => decide (a + n ≤ stockBase + 0x40000000) && d.reachable a && d.reachable (a + n - 1)
  | .dram _ => decide (a + n ≤ dramBase + 0x4000000) && d.aocUp
  | .flash _ => decide (a + n ≤ dramBase) && d.aocUp
  | _ => false

/-! The checks of Table 6.15 that depend on the state. -/

/-- Two ranges [a, a + n) and [b, b + m) meet. -/
def meet (a n b m : Nat) : Bool := decide (n ≠ 0) && decide (m ≠ 0) && decide (a < b + m) && decide (b < a + n)

/-- The ranges of two images that share a core overlap. -/
def Image.clash (x y : Image) : Bool :=
  meet x.talBase x.talCount y.talBase y.talCount || meet x.descBase x.descCount y.descBase y.descCount ||
  meet x.sdBase x.sdCount y.sdBase y.sdCount || meet x.slotBase x.slotCount y.slotBase y.slotCount

/-- Another last's image is on the core. -/
def Dev.sharers (d : Dev) (l : LastId) (c : CoreId) : List Image :=
  allLasts.filterMap fun x => if x == l then none else match (d.last x).image with
    | some i => if i.cores.any fun y => y.phys == c then some i else none
    | none => none

/-- What the entry requests is in service and unassigned; a restore also takes what the last `own` owns already (Tables 6.15,
10.10). -/
def Dev.coreUnits (d : Dev) (own : Option LastId) (c : LCore) : Bool :=
  let mine := fun (o : Option LastId) => o.isNone || (own.isSome && o == own)
  allStrands.all (fun k => !c.strands.toNat.testBit k.val || mine (d.strandLast c.phys k)) &&
  allArrays.all (fun a =>
    allHalves.all (fun u => !(c.halvesOf a.val).testBit u.val || mine (d.halfOwner c.phys a u)) &&
    allTiles.all (fun t => !(c.tilesOf a.val).testBit t.val || mine (d.tileOwner c.phys a t)) &&
    (!c.usesArray a.val || decide (d.width c.phys a ≠ 0))) &&
  (!c.pattern || mine (d.patOwner c.phys)) && d.dom (.core c.phys) != .out

/-- On a core that it shares with another last, no range of the image overlaps that last's. -/
def Dev.rangesFree (d : Dev) (l : LastId) (i : Image) : Bool := i.cores.all fun c => (d.sharers l c.phys).all fun y => !i.clash y

/-- Check 4 of Table 6.15. -/
def Dev.resourcesOk (d : Dev) (l : LastId) (i : Image) : Bool :=
  decide (i.cores.map fun c => c.phys).Nodup && (i.cores.all fun c => d.coreUnits none c) && d.rangesFree l i

/-- Check 5. -/
def Dev.widthsOk (d : Dev) (i : Image) : Bool :=
  i.cores.all fun c => allArrays.all fun a => decide (c.widthOf a.val ≤ d.width c.phys a) || !c.usesArray a.val

/-- Check 6. -/
def Dev.hbmOk (d : Dev) (l : LastId) (i : Image) : Bool :=
  let ck := d.reg (aCkp 0)
  i.hbmSize == 0 || (decide (i.hbmBase + i.hbmSize ≤ d.hbmSize) &&
    allLasts.all (fun x => x == l || match (d.last x).image with
      | some y => !meet i.hbmBase i.hbmSize y.hbmBase y.hbmSize
      | none => true) &&
    !(bitOf ck 39 && meet i.hbmBase i.hbmSize (fld ck 0 39) 0x60000000))

/-- Checks 3 to 6: 0, or the code of the first that fails. A last that another load is writing is busy too. -/
def Dev.loadCheck (d : Dev) (l : LastId) (i : Image) : Nat :=
  if (d.last l).st != .empty || (d.last l).loading.isSome then 3
  else if !d.resourcesOk l i then 4
  else if !d.widthsOk i then 5
  else if !d.hbmOk l i then 6
  else 0

/-- A refusal is recorded (R164, R301). -/
def Dev.refuseLoad (d : Dev) (l : Nat) (code leaf : Nat) : Dev := d.event 0x3003 1 (leBytes 1 l ++ leBytes 1 code ++ leBytes 4 leaf)

/-! Loading. -/

/-- Descriptor or tally sections in their places; pattern tables in bank 0. -/
def Core.putSect (x : Core) (s : Sect) : Core :=
  match s.kind with
  | 2 => { x with descs := ssetList (fun _ => 0) x.descs (8 * s.target) (bytesToWords (s.bytes.length / 8) s.bytes) }
  | 3 => { x with sdescs := ssetList (fun _ => 0) x.sdescs (8 * s.target) (bytesToWords (s.bytes.length / 8) s.bytes) }
  | 4 => { x with bank0 := ssetList (fun _ => 0) x.bank0 s.target ((chunk 2 s.bytes.length s.bytes).map fun b => BitVec.ofNat 16 (leNat b)) }
  | 7 =>
    let put := fun (v : Vector Tally 64) (i : Nat) (b : List Byte) => vmap v (finOf 63 (s.target + i)) fun _ => (⟨leNat b, 0, [], none, none⟩ : Tally)
    { x with tallies := foldIdx put 0 x.tallies (chunk 2 s.bytes.length s.bytes) }
  | _ => x

/-- A section is written (R418). -/
def Dev.putSect (d : Dev) (i : Image) (s : Sect) : Dev :=
  match s.kind with
  | 1 | 5 => d.wrMem (sliceBase s.core + s.target) s.bytes
  | 6 => d.wrMem (i.hbmBase + s.target) s.bytes
  | _ => d.updCore s.core fun x => x.putSect s

/-- Where the sections for HBM go: address and length. -/
def Image.hbmSects (i : Image) : List (Nat × Nat) := (i.sects.filter fun s => s.kind == 6).map fun s => (i.hbmBase + s.target, s.bytes.length)

/-- An owner field: the last and its enable, or 0. -/
def ownField (l : LastId) (en : Bool) : Nat := if en then l.val + 8 else 0

/-- The halves and tiles of the entry belong to `l` (en 1), or to nobody (en 0). -/
def Dev.assignUnits (d : Dev) (l : LastId) (en : Bool) (c : LCore) : Dev :=
  let v := ownField l en
  allArrays.foldl (fun (d : Dev) a =>
    let d := allHalves.foldl (fun (d : Dev) u => if (c.halvesOf a.val).testBit u.val then d.setRegFld (aArrCtl c.phys a) (4 * u.val) 4 v else d) d
    allTiles.foldl (fun (d : Dev) t => if (c.tilesOf a.val).testBit t.val then d.setRegFld (aBedCtl c.phys a) (4 * t.val) 4 v else d) d) d

/-- Owner fields of the control registers: the units of the entry belong to `l` (en 1), or to nobody (en 0). -/
def Dev.assign (d : Dev) (l : LastId) (en : Bool) (c : LCore) : Dev :=
  let v := ownField l en
  let d := allStrands.foldl (fun (d : Dev) k => if c.strands.toNat.testBit k.val then d.setRegFld (aSeqCtl c.phys) (4 * k.val) 4 v else d) d
  let d := d.assignUnits l en c
  if c.pattern then d.setRegFld (aPatCtl c.phys) 0 4 v else d

/-- The physical cores of an image. -/
def Image.physCores (i : Image) : List CoreId := i.cores.map fun c => c.phys

def Dev.coresReady (d : Dev) (i : Image) : Bool := i.physCores.all fun c => d.coreOn c

/-- Steps 1 to 4 of R164. -/
def Dev.writeImage (d : Dev) (l : LastId) (i : Image) (raw : List Byte) : Dev :=
  let d := i.sects.foldl (fun (d : Dev) s => d.putSect i s) d
  let d := i.cores.foldl (fun (d : Dev) c => d.assign l true c) d
  let d := d.setReg (aLstCtl l) (mkWord [(0, i.flags.toNat / 2 % 2), (1, i.flags.toNat % 2)])
  let d := d.measure 5 l.val (sha384 raw) 0
  d.updLast l fun x => { x with st := .loaded, image := some i, loading := none }

/-- A load whose image passed the checks wakes its cores and waits for them (R333). -/
def Dev.beginLoad (d : Dev) (l : LastId) (i : Image) (asker : Option Asker) (raw : List Byte) (st : Option Standing) : Dev :=
  let d := i.physCores.foldl (fun (d : Dev) c => d.turnOn (.core c)) d
  d.updLast l fun x => { x with loading := some (i, asker, raw), standing := st }

/-! Launch. -/

/-- What launch sets on a strand (R142). -/
def Strand.launched (s : Strand) (entry : Nat) (draw : Word) (now : Nat) : Strand :=
  { Strand.init with pc := BitVec.ofNat 48 entry, draw := draw, st := .running, trap := s.trap, notBefore := now + 1 }

/-- What launch sets on a core (R33, R35, R74, R92, R132, R142, R145, R213). The pattern banks become 0 where the image's entry
asked for them, whatever PAT_CTL has been written to since the load (DESIGN CHOICE, log 47). -/
def Core.launched (x : Core) (i : Image) (c : LCore) (now : Nat) : Core :=
  let within := fun (lo n k : Nat) => decide (lo ≤ k) && decide (k < lo + n)
  let x := { x with
    strands := x.strands.mapIdx fun k s => if c.strands.toNat.testBit k then s.launched (if k = 0 then c.entry0 else c.entry1) (if k = 0 then i.draw0 else i.draw1) now else s
    ptrs := []
    tallies := x.tallies.mapIdx fun t v => if within i.talBase i.talCount t then ⟨0, 0, [], none, none⟩ else v
    maxabs := x.maxabs.mapIdx fun n v => if within i.slotBase i.slotCount n then MaxAbs.zero else v
    arrays := x.arrays.mapIdx fun a v =>
      let v := (List.range 2).foldl (fun (v : Arr) u => if (c.halvesOf a).testBit u then v.clearRows (32 * u) (32 * u + 32) else v) v
      { v with
        halves := v.halves.mapIdx fun u h => if (c.halvesOf a).testBit u then Half.init else h
        tiles := v.tiles.mapIdx fun t y => if (c.tilesOf a).testBit t then { y with cls := 0, poisoned := false, ext := [], frac := [] } else y } }
  if c.pattern then { x with bank0 := [], bank1 := [], patActive := false, patDispatched := false } else x

/-- LST_FLT_L is cleared (Table 6.23). -/
def Dev.clearFault (d : Dev) (l : LastId) : Dev := (List.range 4).foldl (fun (d : Dev) w => d.setReg (aLstFlt l w) 0) d

/-- In the next cycle strand 0 of these cores goes first (R145). -/
def Dev.strandFirst (d : Dev) (cs : List CoreId) : Dev := { d with now := { d.now with firsts := d.now.firsts ++ cs } }

/-- Launch (R142). The loader writes the owners of halves and tiles (R79, R92); Table 4.10 gives a position a meaning only while
special is 1, and it becomes 0 with special (DESIGN CHOICE, log 57). -/
def Dev.launch (d : Dev) (l : LastId) : Dev :=
  match (d.last l).image with
  | none => d
  | some i =>
    let d := i.cores.foldl (fun (d : Dev) c =>
      let d := d.updCore c.phys fun x => x.launched i c d.cycle
      let d := allStrands.foldl (fun (d : Dev) k => if c.strands.toNat.testBit k.val then d.setReg (aFlags c.phys k) 0 else d) d
      let d := allArrays.foldl (fun (d : Dev) a => allTiles.foldl (fun (d : Dev) t =>
        if (c.tilesOf a.val).testBit t.val then d.setReg (aTstat c.phys a t) 0 else d) d) d
      (d.setReg (aFmt c.phys (0x100 + 16 * l.val)) i.keyLo).setReg (aFmt c.phys (0x108 + 16 * l.val)) i.keyHi) d
    let d := (i.sects.filter fun s => s.kind == 2 || s.kind == 3 || s.kind == 4 || s.kind == 7).foldl (fun (d : Dev) s =>
      d.updCore s.core fun x => x.putSect s) d
    let d := (i.cores.foldl (fun (d : Dev) c => d.assignUnits l true c) d).strandFirst i.physCores
    let d := d.clearFault l
    d.updLast l fun x => { x with st := .running, pendingLaunch := none, pausing := none }

/-! Unload. -/

/-- Nothing of the last is in progress in its cores. -/
def Dev.lastQuiet (d : Dev) (l : LastId) : Bool :=
  !(d.ops.any fun o => o.last == l && o.phase != .stopped) &&
  allCores.all fun c => allArrays.all fun a => allHalves.all fun u =>
    d.halfOwner c a u != some l || ((d.half c a u).drainEnd.isNone && !d.halfBusy c a u)

/-- The last's units are released; its strands are IDLE (R310). -/
def Dev.unload (d : Dev) (l : LastId) : Dev :=
  let mine := d.strandsOf l
  let d := mine.foldl (fun (d : Dev) x => d.updStrand x.1 x.2 fun s => { s with
    st := .idle, resume := .idle, acc := [], ftwait := none, keys := [], group := none, halt := none, fetch := [] }) d
  let gone := d.ops.filter fun o => o.last == l
  let d := { d with ops := d.ops.filter fun o => o.last != l }.unheld gone
  let d := allCores.foldl (fun (d : Dev) c =>
    if (d.core c).sds.toList.any fun s => s.active.isSome then d.updCore c fun x => x.endRuns l else d) d
  let d := match (d.last l).image with
    | some i => i.cores.foldl (fun (d : Dev) c => d.assign l false c) d
    | none => d
  let d := (d.clearFault l).setRegFld (aLstCtl l) 1 1 0
  d.updLast l fun _ => Last.init

/-! Pause (R292). -/

/-- A pause is requested: its steps begin in the next cycle (R170, R292). -/
def Dev.startPause (d : Dev) (l : LastId) (p : Pausing) : Dev := d.updLast l fun x => { x with pausing := some { p with began := d.cycle } }

/-- An operation of the pattern engine: a context save waits for it (R138). -/
def Op.isPattern (o : Op) : Bool := o.opcode == 0x4A || o.opcode == 0x4B || o.opcode == 0x4C

/-- Steps 1 to 3 of R292, in the cycle after the request: strands stop, queued operations become records, started ones are brought
to their stop points. Where a context save follows, the pattern engine goes on until it has nothing more of the last to do: R138
puts the save behind every PLOAD and PLOOK dispatched before it (DEDUCED, log 51). -/
def Dev.stopLast (d : Dev) (l : LastId) (p : Pausing) : Dev :=
  let d := (d.strandsOf l).foldl (fun (d : Dev) x => d.updStrand x.1 x.2 fun s =>
    if s.st == .running || s.st == .halting then { s with resume := s.st, st := .paused, stall := 0 } else s) d
  let out := fun (o : Op) => o.last == l && (o.phase == Phase.queued || o.phase == Phase.port) && !(p.keep && o.isPattern)
  let gone := d.ops.filter fun (o : Op) => out o && o.phase == .queued
  let d := { d with ops := d.ops.map fun (o : Op) => if out o then { o with phase := .stopped, due := d.cycle } else o }
  (d.unheld gone).stopOps l p.keep

/-- Pauses requested in the cycle before take hold. -/
def Dev.pausesBegin (d : Dev) : Dev :=
  allLasts.foldl (fun (d : Dev) l => match (d.last l).pausing with
    | some p => if (d.last l).st == .running && p.began + 1 == d.cycle then d.stopLast l p else d
    | none => d) d

/-- A transfer belongs to a run of the last. -/
def Dev.xferOf (d : Dev) (l : LastId) (h : HodRef) (x : Xfer) : Bool :=
  let s := d.sd h x.m
  s.gen == x.gen && s.active.any fun r => r.origin.any fun o => o.last == l

def Requester.last? (d : Dev) : Requester → Option LastId
  | .acc c k _ => d.strandLast c k
  | .hod h m _ => ((d.sd h m).active.bind fun r => r.origin).map fun o => o.last
  | .notify l => l
  | _ => none

/-- Every step of R292 is done. -/
def Dev.pauseReady (d : Dev) (l : LastId) : Bool :=
  (d.last l).pausing.all (fun p => decide (p.began < d.cycle)) &&
  d.ops.all (fun o => o.last != l || (o.phase == .stopped && decide (o.due ≤ d.cycle))) &&
  (d.strandsOf l).all (fun x => (d.strand x.1 x.2).acc.isEmpty && !((d.core x.1).posts.any fun p => p.last == l)) &&
  allCores.all (fun c => (List.finRange 2).all fun h => ((d.core c).hods.get h).xfers.all fun x => !d.xferOf l (.core c h) x) &&
  d.hub.reqs.all fun r => Requester.last? d r.who != some l

/-- The KEYSTONEs and FTWAITs of the last whose instant passed during the pause complete in the cycle after the resume (R294). -/
def Dev.pastWaits (d : Dev) (l : LastId) : Dev :=
  (d.strandsOf l).foldl (fun (d : Dev) x =>
    let s := d.strand x.1 x.2
    let past := s.keys.filter fun k => k.2.instant != 0
    let ft := match s.ftwait with
      | some h => if h.instant.toNat ≤ d.hub.ftime.ft.toNat then [h] else []
      | none => []
    let d := d.updStrand x.1 x.2 fun s => { s with
      keys := s.keys.filter fun k => k.2.instant == 0
      ftwait := if ft.isEmpty then s.ftwait else none }
    ((past.map fun k => k.2) ++ ft).foldl (fun (d : Dev) h => d.complete ⟨l, x.1, x.2, h.pc, insnWord h.opcode h.w⟩) d) d

/-- R294: the operation records enter their queues again, and the strands dispatch from the next cycle. -/
def Dev.resume (d : Dev) (l : LastId) : Dev :=
  let d := d.updLast l fun x => { x with st := .running, pausing := none }
  let cores := d.coresOf l
  let d := cores.foldl (fun (d : Dev) c => d.updCore c fun x => { x with ptrs := [] }) d
  let d := d.strandFirst cores
  let d := (d.strandsOf l).foldl (fun (d : Dev) x => d.updStrand x.1 x.2 fun s =>
    if s.st == .paused then { s with st := s.resume, resume := .idle, notBefore := d.cycle + 1 } else s) d
  let d := { d with ops := d.ops.map fun (o : Op) => if o.last == l && o.phase == Phase.stopped then { o with phase := .queued, began := d.cycle } else o }
  { d with now := { d.now with resumed := l :: d.now.resumed } }

end Sys2Proof.Machine
end

