-- ==== Sys2Proof/Machine/Context.lean ====
section
/-!
DEFINITION. The items of a save area as bytes (Table 10.6, R9). Tables 4.7, 5.5 and 10.6 fix some of them; the bytes of the others
are a DESIGN CHOICE (log 11): numbers stand least significant byte first, eight bytes each, in the order of the fields here.
-/

namespace Sys2Proof.Machine

/-! Readers. -/

/-- A reader of bytes: what it reads and the bytes behind, or none where they do not spell it. -/
abbrev Rd := StateT (List Byte) Option

def rdBytes (n : Nat) : Rd (List Byte) := fun l => if l.length < n then none else some (l.take n, l.drop n)

/-- A number of `n` bytes. -/
def rdNat (n : Nat) : Rd Nat := do return leNat (← rdBytes n)

def rd8 : Rd Nat := rdNat 8

def rdBool : Rd Bool := do return (← rd8) == 1

def rdWord : Rd Word := do return BitVec.ofNat 64 (← rd8)

/-- `n` things one behind another. -/
def rdMany {α : Type} (f : Rd α) : Nat → Rd (List α)
  | 0 => pure []
  | n + 1 => do
    let x ← f
    return x :: (← rdMany f n)

/-- A count and as many things. -/
def rdList {α : Type} (f : Rd α) : Rd (List α) := do rdMany f (← rd8)

def rdOpt {α : Type} (f : Rd α) : Rd (Option α) := do
  if ← rdBool then return some (← f) else return none

/-! Writers. -/

def en8 (n : Nat) : List Byte := leBytes 8 n
def enBool (b : Bool) : List Byte := en8 (b2n b)
def enList {α : Type} (f : α → List Byte) (l : List α) : List Byte := en8 l.length ++ l.flatMap f

def enOpt {α : Type} (f : α → List Byte) : Option α → List Byte
  | some x => en8 1 ++ f x
  | none => en8 0

/-- The elements of a vector that a list gives. -/
def vfill {α : Type} {n : Nat} (v : Vector α n) (l : List α) : Vector α n := v.mapIdx fun i x => l.getD i x

/-! Strands. -/

def StrandSt.ofCode (n : Nat) : StrandSt :=
  match n with
  | 1 => .running
  | 2 => .trapped
  | 3 => .halting
  | 4 => .done
  | 5 => .stopped
  | 6 => .paused
  | _ => .idle

def Held.bytes (h : Held) : List Byte := en8 h.instant.toNat ++ en8 h.pc.toNat ++ en8 h.opcode.toNat ++ en8 h.w.toNat

def rdHeld : Rd Held := do
  let i ← rd8; let p ← rd8; let o ← rd8; let w ← rd8
  return ⟨BitVec.ofNat 64 i, BitVec.ofNat 48 p, BitVec.ofNat 8 o, BitVec.ofNat 56 w⟩

/-- PC, registers, draw counter, SEQ_STAT, outstanding KEYSTONEs and FTWAIT, a HALT that waits. -/
def Strand.bytes (s : Strand) : List Byte :=
  en8 s.pc.toNat ++ enBool s.pcWild ++ wordsToBytes s.s.toList ++ s.p.toList.flatMap enBool ++ en8 s.st.code ++ en8 s.resume.code ++
  en8 s.trap.toNat ++ en8 s.draw.toNat ++ enOpt Held.bytes s.ftwait ++ enList (fun k => en8 k.1.val ++ k.2.bytes) s.keys ++
  enOpt Held.bytes s.halt

def rdStrand : Rd Strand := do
  let pc ← rd8; let wild ← rdBool; let s ← rdMany rdWord 32; let p ← rdMany rdBool 8; let st ← rd8; let rs ← rd8
  let trap ← rd8; let draw ← rdWord; let ft ← rdOpt rdHeld
  let keys ← rdList do
    let k ← rd8
    return ((finOf 63 k : KeyId), ← rdHeld)
  let halt ← rdOpt rdHeld
  return { Strand.init with
    pc := BitVec.ofNat 48 pc, pcWild := wild, s := vfill Strand.init.s s, p := vfill Strand.init.p p, st := StrandSt.ofCode st
    resume := StrandSt.ofCode rs, trap := BitVec.ofNat 16 trap, draw := draw, ftwait := ft, keys := keys, halt := halt }

/-! Streams. -/

def Origin.bytes (o : Origin) : List Byte := en8 o.last.val ++ en8 o.core.val ++ en8 o.strand.val ++ en8 o.pc.toNat ++ en8 o.insn.toNat

def rdOrigin : Rd Origin := do
  let l ← rd8; let c ← rd8; let k ← rd8; let p ← rd8; let i ← rdWord
  return ⟨last_of l, finOf 127 c, finOf 1 k, BitVec.ofNat 48 p, i⟩

/-- An entry as Table 8.15 lays it out. -/
def rdQEntry : Rd QEntry := do return QEntry.ofRing (← rdBytes 64)

def Run.bytes (r : Run) : List Byte :=
  wordsToBytes (r.desc.take 8) ++ enOpt Origin.bytes r.origin ++ en8 r.hod.val ++ en8 r.tile ++ en8 r.row ++ en8 r.off ++ en8 r.done ++
  enList en8 r.missed ++ enList QEntry.toBytes r.pkt ++ enBool r.whole

def rdRun : Rd Run := do
  let desc ← rdMany rdWord 8; let o ← rdOpt rdOrigin; let h ← rd8; let t ← rd8; let r ← rd8; let f ← rd8; let n ← rd8
  let m ← rdList rd8; let p ← rdList rdQEntry; let y ← rdBool
  return ⟨desc, o, finOf 1 h, t, r, f, n, m, p, none, y⟩

/-- Generation, runs and slot ring. -/
def Sd.bytes (s : Sd) : List Byte :=
  en8 s.gen.toNat ++ enOpt Run.bytes s.active ++ enOpt Run.bytes s.shadow ++ en8 s.slots ++ en8 s.fillNo ++ en8 s.filled ++ en8 s.relNo ++
  enBool s.fault ++ en8 s.why

def rdSd : Rd Sd := do
  let g ← rd8; let a ← rdOpt rdRun; let b ← rdOpt rdRun; let u ← rd8; let f ← rd8; let n ← rd8; let r ← rd8; let x ← rdBool; let w ← rd8
  return ⟨BitVec.ofNat 16 g, a, b, u, f, n, r, 0, x, w⟩

/-! Operation records. -/

/-- Where the numbers of a partial row state stand in its 2 KiB: offset and width of each (Table 5.5, Table 10.5). -/
def Op.partPlaces (o : Op) : List (Nat × Nat) :=
  let v := vdesc o.desc
  if o.opcode == 0x48 then (List.range 64).map fun i => (4 * i, 4)
  else match redClass v with
    | 0 => [(0, 64), (64, 64), (128, 8)]
    | 1 => [(0, 32), (128, 8)]
    | 2 => (List.range (2 * redLanes v)).map fun i => (8 * i, 8)
    | _ => [(0, 1), (1, 1), (8, 256), (264, 256), (520, 8)]

/-- The numbers of an FP reduction's state begin with its count, which stands in the record itself. -/
def Op.lanes (o : Op) : Bool := o.opcode == 0x46 && redClass (vdesc o.desc) == 2

def Op.partBytes (o : Op) : List Byte :=
  let xs := if o.lanes then o.part.drop 1 else o.part
  ((o.partPlaces.zip xs).foldl (fun (b : List Byte) x => b.take x.1.1 ++ zeros (x.1.1 - b.length) ++ leBytes x.1.2 x.2) []) |> padTo 2048

/-- The numbers that 2 KiB of partial state hold. -/
def Op.partOf (o : Op) (count n : Nat) (b : List Byte) : List Nat :=
  let xs := (o.partPlaces.take n).map fun p => leAt b p.1 p.2
  if o.lanes then count :: xs else xs

/-- The operation carries partial row state. -/
def Op.hasPart (o : Op) : Bool := (o.opcode == 0x46 || o.opcode == 0x48) && !o.part.isEmpty

/-- The operation is an MMA that stopped between passes and whose entries have extensions (R416). -/
def Op.hasExt (o : Op) : Bool := o.opcode == 0x40 && o.pos ≠ 0 && (let m := wMode o.w; m == .exact || m == .integer)

/-- An operation record, 256 bytes. -/
def Op.record (o : Op) : List Byte :=
  let n := if o.lanes then o.part.length - 1 else o.part.length
  let g := match o.group with
    | some g => (g.1, 1 + b2n g.2)
    | none => (0, 0)
  let tiles := o.tiles.foldl (fun m t => m ||| 2 ^ t.val) 0
  let ta := if o.lanes then [BitVec.ofNat 64 (o.part.headD 0)] else o.ta
  en8 (insnWord o.opcode o.w).toNat ++ en8 o.id ++ en8 o.draw.toNat ++ leBytes 6 o.pos ++ leBytes 2 n ++ leBytes 6 o.pc.toNat ++
  leBytes 1 o.core.val ++ leBytes 1 (o.strand.val + 2 * o.last.val) ++ leBytes 6 o.stock.toNat ++ leBytes 1 o.ecore.val ++
  leBytes 1 (o.earray.val + 16 * tiles) ++ leBytes 1 (o.flags.toNat + 32 * b2n o.bank + 64 * b2n o.closed + 128 * b2n o.noCls) ++
  leBytes 1 g.2 ++ leBytes 4 g.1 ++ leBytes 4 o.loadAt ++ zeros 6 ++ padTo 64 (wordsToBytes o.desc) ++ padTo 64 (wordsToBytes ta) ++
  padTo 64 (wordsToBytes o.tb)

/-- What a record says, with the number of its partial state's numbers. -/
def Op.ofRecord (b : List Byte) : Op × Nat :=
  let g := leAt b 49 1
  let f := leAt b 48 1
  ({ id := leAt b 8 8, core := finOf 127 (leAt b 38 1), strand := finOf 1 (leAt b 39 1 % 2), last := last_of (leAt b 39 1 / 2 % 8)
     pc := BitVec.ofNat 48 (leAt b 32 6), opcode := b.getD 7 0, w := BitVec.ofNat 56 (leAt b 0 7), ecore := finOf 127 (leAt b 46 1)
     earray := finOf 3 (leAt b 47 1 % 4), tiles := allTiles.filter fun t => (leAt b 47 1 / 16).testBit t.val
     desc := bytesToWords 8 (b.drop 64), ta := bytesToWords 8 (b.drop 128), tb := bytesToWords 8 (b.drop 192)
     stock := BitVec.ofNat 48 (leAt b 40 6), draw := BitVec.ofNat 64 (leAt b 16 8), bank := f.testBit 5, phase := .stopped, began := 0
     due := 0, pos := leAt b 24 6, base := 0, stop := none, loaded := false, loadAt := leAt b 54 4, rows := none, tok := false
     feed := none, slot0 := none, closed := f.testBit 6, noCls := f.testBit 7, flags := BitVec.ofNat 5 f
     group := if g = 0 then none else some (leAt b 50 4, g == 2), part := [] }, leAt b 30 2)

/-- A tile's 4-bit extensions, 2 KiB: entry 2 i in the low half of byte i. -/
def Tile.extBytes (t : Tile) : List Byte :=
  let e := fun k => (sget (fun _ => (0 : BitVec 4)) t.ext k).toNat
  if t.ext.isEmpty then zeros 2048 else (List.range 2048).map fun i => BitVec.ofNat 8 (e (2 * i) + 16 * e (2 * i + 1))

def extOf (b : List Byte) : List (Nat × BitVec 4) :=
  (foldIdx (fun (l : List (Nat × BitVec 4)) i x =>
    let lo := BitVec.ofNat 4 x.toNat
    let hi := BitVec.ofNat 4 (x.toNat / 16)
    l ++ (if lo = 0 then [] else [(2 * i, lo)]) ++ (if hi = 0 then [] else [(2 * i + 1, hi)])) 0 [] b)

/-- A record and what follows it. -/
def Dev.opBytes (d : Dev) (o : Op) : List Byte :=
  o.record ++ (if o.hasPart then o.partBytes else []) ++
  (if o.hasExt then o.tiles.flatMap fun t => (d.tile o.ecore o.earray t).extBytes else [])

/-- A record read back, with the extensions of its tiles. -/
def rdOp : Rd (Op × List (TileId × List (Nat × BitVec 4))) := do
  let r := Op.ofRecord (← rdBytes 256)
  let o := r.1
  let part ← rdMany (rdBytes 2048) (if r.2 = 0 then 0 else 1)
  let ext ← if o.hasExt then rdMany (rdBytes 2048) o.tiles.length else pure []
  let nums := part.flatMap fun b => o.partOf (wordAt o.ta 0).toNat r.2 b
  return ({ o with part := nums, ta := if o.lanes then [] else o.ta }, o.tiles.zip (ext.map extOf))

/-- Records to the end of the item. -/
def rdOps : Nat → Rd (List (Op × List (TileId × List (Nat × BitVec 4))))
  | 0 => pure []
  | n + 1 => fun l => if l.isEmpty then some ([], []) else (do
      let x ← rdOp
      return x :: (← rdOps n)) l

/-! Weights (Table 3.12). -/

def Half.bytes (h : Half) : List Byte :=
  leBytes 8 (mkWord [(0, b2n h.active), (1, b2n h.preloaded), (8, h.fmt.toNat), (12, b2n h.int), (16, h.preFmt.toNat), (20, b2n h.preInt)]).toNat

def Half.ofWord (w : Word) : Half :=
  { Half.init with
    active := bitOf w 0, preloaded := bitOf w 1, fmt := BitVec.ofNat 4 (fld w 8 4), int := bitOf w 12, preFmt := BitVec.ofNat 4 (fld w 16 4)
    preInt := bitOf w 20 }

/-! Lasts. -/

def LastSt.ofCode (n : Nat) : LastSt :=
  match n with
  | 1 => .loaded
  | 2 => .running
  | 3 => .paused
  | 4 => .stopped
  | 5 => .done
  | _ => .empty

def LCore.bytes (c : LCore) : List Byte :=
  en8 c.phys.val ++ en8 c.strands.toNat ++ en8 c.halves.toNat ++ en8 c.tiles.toNat ++ en8 c.width.toNat ++ enBool c.pattern ++ en8 c.entry0 ++ en8 c.entry1

def rdLCore : Rd LCore := do
  let p ← rd8; let s ← rd8; let h ← rd8; let t ← rd8; let w ← rd8; let b ← rdBool; let x ← rd8; let y ← rd8
  return ⟨finOf 127 p, BitVec.ofNat 2 s, BitVec.ofNat 8 h, BitVec.ofNat 16 t, BitVec.ofNat 32 w, b, x, y⟩

def Sect.enc (s : Sect) : List Byte := en8 s.kind ++ en8 s.core.val ++ en8 s.target ++ enList (fun b => [b]) s.bytes

def rdSect : Rd Sect := do
  let k ← rd8; let c ← rd8; let t ← rd8; let n ← rd8
  return ⟨k, finOf 127 c, t, ← rdBytes n⟩

def Image.bytes (i : Image) : List Byte :=
  en8 i.flags.toNat ++ [i.talBase, i.talCount, i.descBase, i.descCount, i.sdBase, i.sdCount, i.slotBase, i.slotCount].flatMap en8 ++
  wordsToBytes [i.keyLo, i.keyHi, i.draw0, i.draw1] ++ en8 i.hbmBase ++ en8 i.hbmSize ++ enList LCore.bytes i.cores ++ enList Sect.enc i.sects

def rdImage : Rd Image := do
  let f ← rd8; let n ← rdMany rd8 8; let w ← rdMany rdWord 4; let b ← rd8; let z ← rd8; let cs ← rdList rdLCore; let ss ← rdList rdSect
  let a := fun i => n.getD i 0
  return { flags := BitVec.ofNat 8 f, talBase := a 0, talCount := a 1, descBase := a 2, descCount := a 3, sdBase := a 4, sdCount := a 5
           slotBase := a 6, slotCount := a 7, keyLo := wordAt w 0, keyHi := wordAt w 1, draw0 := wordAt w 2, draw1 := wordAt w 3
           hbmBase := b, hbmSize := z, cores := cs, sects := ss }

/-! Keystones, queues, channels. -/

def Keystone.bytes (x : Keystone) : List Byte :=
  [x.st, x.round.toNat, x.arrived, x.next, x.children.toNat, x.instant.toNat].flatMap en8 ++
  enList (fun w => en8 w.core.val ++ en8 w.strand.val ++ enBool w.next) x.waits

def rdKeystone : Rd Keystone := do
  let n ← rdMany rd8 6
  let ws ← rdList do
    let c ← rd8; let k ← rd8; let b ← rdBool
    return (⟨finOf 127 c, finOf 1 k, b⟩ : KWait)
  let a := fun i => n.getD i 0
  return ⟨a 0, BitVec.ofNat 16 (a 1), a 2, a 3, BitVec.ofNat 12 (a 4), BitVec.ofNat 64 (a 5), ws⟩

/-- Head and tail entries of a queue, and where its ring stands; the ring itself stays in HBM. -/
def Queue.bytes (q : Queue) : List Byte :=
  [q.ringAt, q.ringN, q.pkts, q.seq.toNat].flatMap en8 ++ [q.flushing, q.inPkt, q.reading, q.fl].flatMap enBool ++
  enList QEntry.toBytes q.head ++ enList QEntry.toBytes q.tail

def rdQueue : Rd Queue := do
  let n ← rdMany rd8 4; let b ← rdMany rdBool 4; let h ← rdList rdQEntry; let t ← rdList rdQEntry
  let a := fun i => n.getD i 0
  let f := fun i => b.getD i false
  return { Queue.init with
    head := h, ringAt := a 0, ringN := a 1, tail := t, pkts := a 2, seq := BitVec.ofNat 32 (a 3), flushing := f 0, inPkt := f 1
    reading := f 2, fl := f 3 }

/-- A collective channel; a value is at most 1 024 bits wide. -/
def Chan.bytes (x : Chan) : List Byte :=
  en8 x.st ++ en8 x.err ++ enList (fun w => en8 w.toNat) x.desc ++ enList (fun r => en8 r.toNat) x.ranks ++
  enList (fun p => en8 p.1 ++ enList (leBytes 128) p.2) x.parts

def rdChan : Rd Chan := do
  let s ← rd8; let e ← rd8; let w ← rdList rdWord; let r ← rdList rd8
  let ps ← rdList do
    let k ← rd8
    return (k, ← rdList (rdNat 128))
  return ⟨s, e, w, r.map fun n => BitVec.ofNat 15 n, ps⟩

end Sys2Proof.Machine
end

