-- ==== Sys2Proof/Machine/Area.lean ====
section
/-!
DEFINITION. Save areas as bytes (R293, R297, R299): what is latched at the save instant, its directory, header and digests, and what an
area in HBM says when it is read back. Table 10.8 fixes the header; the fields of a directory entry are a DESIGN CHOICE (log 11): kind (2
bytes), core (2), array, tile, strand, last (1 each), offset (8), length (8), and 8 bytes of zeros. The kinds number the rows of Table
10.6.
-/

namespace Sys2Proof.Machine

/-- What an item belongs to. -/
structure ItemKey where
  kind : Nat
  core : CoreId
  array : ArrayId
  tile : TileId
  strand : StrandId
  last : LastId
  deriving DecidableEq, Repr

def ItemKey.of (kind : Nat) (c : CoreId) (l : LastId) : ItemKey := ⟨kind, c, 0, 0, 0, l⟩

/-- An item: its bytes by offset, those that are not listed being 0, and its length. -/
structure Item where
  key : ItemKey
  cells : List Host.Cell
  length : Nat
  deriving DecidableEq, Repr

/-- The bytes of a string that are not 0, from `a`. -/
def cellsFrom (a : Nat) (bs : List Byte) : List Host.Cell :=
  (foldIdx (fun (l : List Host.Cell) i b => if b = 0 then l else (a + i, b) :: l) 0 [] bs).reverse

def Item.ofBytes (k : ItemKey) (bs : List Byte) : Item := ⟨k, cellsFrom 0 bs, bs.length⟩

/-! What is latched (Table 10.6). -/

/-- Values of keys `lo` to `lo + n - 1` of a table of eight-word entries. -/
def entriesOf (m : List (Nat × Word)) (lo n : Nat) : List Byte := wordsToBytes (sgetList (fun _ => 0) m (8 * lo) (8 * n))

/-- A tally as it stands at the save instant; the CSAVE that asked for the save counts as complete in it (R199). -/
def Dev.savedTally (d : Dev) (c : CoreId) (t : TallyId) : Nat :=
  let posts := (allLasts.filter fun l => match (d.last l).pausing with
    | some p => p.csave.any fun x => x.1 == c && wPen x.2.2.2 && wPtal x.2.2.2 == t
    | none => false).length
  min 65535 (((d.core c).tallies.get t).fold + posts)

/-- Row 1: each strand of the last. -/
def Dev.strandItems (d : Dev) (l : LastId) (c : LCore) : List Item :=
  (allStrands.filter fun k => d.strandLast c.phys k == some l).map fun k =>
    Item.ofBytes { ItemKey.of 1 c.phys l with strand := k } ((d.strand c.phys k).bytes ++ en8 (d.reg (aFlags c.phys k)).toNat)

/-- Row 2, with the draw keys of the last: a saved context draws what the unpaused one does (R296). -/
def Dev.coreItem (d : Dev) (l : LastId) (i : Image) (c : LCore) : Item :=
  let x := d.core c.phys
  let tals := (List.finRange 64).filter fun t => decide (i.talBase ≤ t.val) && decide (t.val < i.talBase + i.talCount)
  Item.ofBytes (ItemKey.of 2 c.phys l) (
    en8 i.talBase ++ enList (fun t => en8 (d.savedTally c.phys t)) tals ++
    en8 i.descBase ++ en8 i.descCount ++ entriesOf x.descs i.descBase i.descCount ++
    en8 i.sdBase ++ en8 i.sdCount ++ entriesOf x.sdescs i.sdBase i.sdCount ++
    ((List.finRange 32).filter fun m => decide (i.sdBase ≤ m.val) && decide (m.val < i.sdBase + i.sdCount)).flatMap (fun m => (x.sds.get m).bytes) ++
    en8 (d.reg (aFmt c.phys (0x100 + 16 * l.val))).toNat ++ en8 (d.reg (aFmt c.phys (0x108 + 16 * l.val))).toNat)

/-- Row 3: the banks where the last owns them, VEC_STAT of its strands. -/
def Dev.patItem (d : Dev) (l : LastId) (i : Image) (c : LCore) : Item :=
  let x := d.core c.phys
  let own := d.patOwner c.phys == some l
  let bank := fun (b : List (Nat × BitVec 16)) => (sgetList (fun _ => (0 : BitVec 16)) b 0 4096).flatMap fun v => leBytes 2 v.toNat
  Item.ofBytes (ItemKey.of 3 c.phys l) (
    en8 i.slotBase ++ en8 i.slotCount ++
    ((List.finRange 32).filter fun n => decide (i.slotBase ≤ n.val) && decide (n.val < i.slotBase + i.slotCount)).flatMap (fun n =>
      let m := x.maxabs.get n
      en8 m.max.toNat ++ en8 m.ov ++ en8 m.un) ++
    enList (fun (k : StrandId) => en8 k.val ++ en8 (d.reg (aVecStat c.phys k)).toNat) (allStrands.filter fun k => d.strandLast c.phys k == some l) ++
    enBool own ++ (if own then enBool x.patActive ++ enBool x.patDispatched ++ bank x.bank0 ++ bank x.bank1 else []))

/-- Row 4: the operation records of a core, in dispatch order. -/
def Dev.opsItem (d : Dev) (ls : List LastId) (c : CoreId) : List Item :=
  match d.ops.filter fun o => o.core == c && ls.contains o.last with
  | [] => []
  | os => [Item.ofBytes (ItemKey.of 4 c 0) (os.flatMap fun o => d.opBytes o)]

/-- Row 5: an array with a half of the last, 64 KiB of cells and then the state of both halves, with bit 24 for those of the last. -/
def Dev.weightItems (d : Dev) (l : LastId) (c : LCore) : List Item :=
  let mine := fun (a : ArrayId) (u : HalfId) => d.halfOwner c.phys a u == some l
  (allArrays.filter fun a => allHalves.any (mine a)).map fun a =>
    let state := fun (u : HalfId) => leBytes 8 (leNat (d.half c.phys a u).bytes + b2n (mine a u) * 2 ^ 24)
    let x := d.arr c.phys a
    let at_ := fun (off : Nat) (m : List (Nat × Word)) => m.flatMap fun e => cellsFrom (16 * e.1 + off) (leBytes 8 e.2.toNat)
    let cells := (at_ 0 x.act ++ at_ 8 x.shadow).foldl (fun (m : List Host.Cell) e => sset (fun _ => 0) m e.1 e.2) []
    ⟨{ ItemKey.of 5 c.phys l with array := a }, cells ++ cellsFrom 65536 (state 0 ++ state 1), 65600⟩

/-- Row 6: a bed save unit (Table 4.7). -/
def Dev.bedItems (d : Dev) (l : LastId) (c : LCore) : List Item :=
  allArrays.flatMap fun a => (allTiles.filter fun t => d.tileOwner c.phys a t == some l).map fun t =>
    let x := d.tile c.phys a t
    let st := d.tstat c.phys a t
    let own := d.reg (aBedCtl c.phys a)
    let head := mkWord [(0, x.cls.toNat), (3, b2n x.poisoned), (4, fld st 5 1), (8, fld st 8 6), (16, fld st 16 6), (24, fld own (4 * t.val) 3), (27, fld own (4 * t.val + 3) 1)]
    ⟨{ ItemKey.of 6 c.phys l with array := a, tile := t },
     cellsFrom 0 (leBytes 8 head.toNat) ++ x.entries.flatMap fun e => cellsFrom (64 + 32 * e.1) (leBytes 32 e.2.toNat), 131136⟩

/-- Row 7: a stock slice. -/
def Dev.sliceItem (d : Dev) (c : CoreId) : Item :=
  let lo := sliceBase c
  ⟨ItemKey.of 7 c 0, (d.mem.filter fun e => decide (lo ≤ e.1) && decide (e.1 < lo + 0x800000)).map fun e => (e.1 - lo, e.2), 0x800000⟩

/-- The keystones whose last is `l`. -/
def Dev.keysOf (d : Dev) (l : LastId) : List KeyId := (List.finRange 64).filter fun k => bitOf (d.ksCfg k) 3 && ksLast (d.ksCfg k) == l.val

/-- Row 8: LST registers, MEM_DLCNT, keystones; and the image that the last was loaded from, which gives it its resources. -/
def Dev.lastItem (d : Dev) (l : LastId) : Item :=
  Item.ofBytes (ItemKey.of 8 0 l) (
    wordsToBytes ([aLstCtl l, aLstFlt l 0, aLstFlt l 1, aLstFlt l 2, aLstFlt l 3, aMem (0x40 + 8 * l.val)].map fun a => d.reg a) ++
    enList (fun k => en8 k.val ++ en8 (d.reg (aKs k 0)).toNat ++ en8 (d.reg (aKs k 8)).toNat ++ (d.key k).bytes) (d.keysOf l) ++
    enOpt Image.bytes (d.last l).image)

/-- Row 9: what the hub adds at module scope. -/
def Dev.hubItem (d : Dev) : Item :=
  Item.ofBytes (ItemKey.of 9 0 0) (
    (List.finRange 32).flatMap (fun q =>
      wordsToBytes ([0x1000, 0x1008, 0x1010, 0x1028].map fun o => d.reg (aQue q o)) ++ (d.queue q).bytes) ++
    (List.finRange 4).flatMap (fun ch => wordsToBytes ((List.range 10).map fun i => d.reg (aCol ch (8 * i))) ++ (d.chan ch).bytes) ++
    (List.finRange 16).flatMap (fun n => wordsToBytes ((List.range 8).map fun i => d.reg (aFh n (8 * i))) ++ (d.hub.fsds.get n).bytes) ++
    en8 (d.reg (aFab 0x28)).toNat)

/-- The items of the lasts in `ls`, in the order of Table 10.6, core by core. -/
def Dev.saveItems (d : Dev) (mod : Bool) (ls : List LastId) : List Item :=
  let imgs := ls.filterMap fun l => (d.last l).image.map fun i => (l, i)
  let parts := allCores.flatMap fun p => imgs.flatMap fun x => (x.2.cores.filter fun c => c.phys == p).map fun c => (x.1, x.2, c)
  let cores := allCores.filter fun p => parts.any fun x => x.2.2.phys == p
  parts.flatMap (fun x => d.strandItems x.1 x.2.2) ++ parts.map (fun x => d.coreItem x.1 x.2.1 x.2.2) ++
  parts.map (fun x => d.patItem x.1 x.2.1 x.2.2) ++ cores.flatMap (fun p => d.opsItem ls p) ++
  parts.flatMap (fun x => d.weightItems x.1 x.2.2) ++ parts.flatMap (fun x => d.bedItems x.1 x.2.2) ++ cores.map (fun p => d.sliceItem p) ++
  ls.map (fun l => d.lastItem l) ++ (if mod then [d.hubItem] else [])

/-! The area. -/

/-- Items are aligned to 64 bytes, stock slices to 1 MiB. -/
def Item.align (x : Item) : Nat := if x.key.kind = 7 then 0x100000 else 64

def alignUp (a n : Nat) : Nat := ceilDiv a n * n

/-- The offset of each item. -/
def placed : Nat → List Item → List (Nat × Item)
  | _, [] => []
  | o, x :: t =>
    let a := alignUp o x.align
    (a, x) :: placed (a + x.length) t

def dirEntry (x : Nat × Item) : List Byte :=
  let k := x.2.key
  leBytes 2 k.kind ++ leBytes 2 k.core.val ++ leBytes 1 k.array.val ++ leBytes 1 k.tile.val ++ leBytes 1 k.strand.val ++ leBytes 1 k.last.val ++
  leBytes 8 x.1 ++ leBytes 8 x.2.length ++ zeros 8

/-- Leaves of an area whose leaf table begins at `off` (R299). -/
def leavesOf (off : Nat) : Nat := ceilDiv (off - 4096) 0x100000

/-- A save reads the slices that it copies (R208). -/
def Dev.readSlices (d : Dev) (ls : List LastId) : Dev :=
  if d.ecc.isEmpty then d
  else (ls.flatMap fun l => (d.last l).image.elim [] Image.physCores).eraseDups.foldl (fun (d : Dev) c => (d.eccRead (sliceBase c) 0x800000).1) d

/-- The area at the save instant; its root waits for the digest (Table 10.8). -/
def Dev.saveArea (d : Dev) (addr : Nat) (scope : SaveScope) (ls : List LastId) : SaveArea :=
  let mod := scope == .module
  let xs := d.saveItems mod ls
  let items := placed (4096 + 32 * xs.length) xs
  let off := alignUp (items.foldl (fun n x => max n (x.1 + x.2.length)) 4096) 64
  let n := leavesOf off
  let head := leBytes 4 0x50434B5A ++ leBytes 2 1 ++ [2] ++ leBytes 1 (b2n mod) ++ leBytes 8 (off + 48 * n) ++
    leBytes 8 d.hub.ftime.ft.toNat ++ leBytes 8 Config.serial.toNat ++ leBytes 1 (ls.foldl (fun m l => m + 2 ^ l.val) 0) ++ zeros 7 ++
    leBytes 8 4096 ++ leBytes 4 xs.length ++ leBytes 4 n ++ leBytes 8 off
  { addr := addr, scope := scope, length := off + 48 * n
    cells := cellsFrom 0 head ++ cellsFrom 4096 (items.flatMap dirEntry) ++ items.flatMap fun x => x.2.cells.map fun e => (x.1 + e.1, e.2) }

/-- The save area is latched. -/
def Dev.latchSave (d : Dev) (addr : Nat) (scope : SaveScope) (ls : List LastId) : Dev :=
  let d := d.readSlices ls
  { d with saves := (d.saves.filter fun s => s.scope != scope) ++ [d.saveArea addr scope ls] }

/-- Its bytes are in HBM; none is where a stack of it is OFF (R330, log 11). -/
def Dev.copySave (d : Dev) (a : SaveArea) : Dev :=
  let d := { d with saves := d.saves.filter fun s => s != a }
  if d.rangeMapped a.addr a.length then d.overlay a.addr a.length a.cells else d

/-! Digests (R299). -/

/-- Bytes of leaf `i`. -/
def Dev.leafBytes (d : Dev) (addr off i : Nat) : List Byte := d.rdMem (addr + 4096 + i * 0x100000) (min 0x100000 (off - 4096 - i * 0x100000))

def Dev.leafDigest (d : Dev) (addr off i : Nat) : List Byte := sha384 (0 :: leBytes 8 i ++ d.leafBytes addr off i)

/-- One level of the tree. -/
def digestLevel : List (List Byte) → List (List Byte)
  | x :: y :: t => sha384 (1 :: x ++ y) :: digestLevel t
  | l => l

/-- The root above leaves; 32 levels are enough for any area. -/
def digestRoot : Nat → List (List Byte) → List Byte
  | 0, l => l.headD []
  | n + 1, l => match l with
    | [x] => x
    | [] => []
    | l => digestRoot n (digestLevel l)

def Dev.areaLength (d : Dev) (addr : Nat) : Nat := leNat (d.rdMem (addr + 8) 8)
def Dev.areaLeaves (d : Dev) (addr : Nat) : Nat := leNat (d.rdMem (addr + 52) 4)
def Dev.areaTable (d : Dev) (addr : Nat) : Nat := leNat (d.rdMem (addr + 56) 8)

/-- Leaf digests, then the root, then dstate 1 (R299, R300). -/
def Dev.writeDigest (d : Dev) (addr : Nat) : Dev :=
  let off := d.areaTable addr
  let ls := (List.range (d.areaLeaves addr)).map fun i => d.leafDigest addr off i
  ((d.wrMem (addr + off) ls.flatten).wrMem (addr + 64) (padTo 48 (digestRoot 32 ls))).wrMem (addr + 112) [1]

/-- The first leaf whose recomputed digest differs from the leaf table, or that a double-bit error lies in; leaf 0 where only the
root or dstate is wrong. None where the check passes. -/
def Dev.digestCheck (d : Dev) (addr : Nat) : Option Nat :=
  let off := d.areaTable addr
  let ls := (List.range (d.areaLeaves addr)).map fun i => d.leafDigest addr off i
  let bad := (List.range ls.length).find? fun i => ls.getD i [] != d.rdMem (addr + off + 48 * i) 48 ||
    (d.eccIn (addr + 4096 + i * 0x100000) (min 0x100000 (off - 4096 - i * 0x100000))).any fun e => e.2
  match bad with
  | some i => some i
  | none => if digestRoot 32 ls != d.rdMem (addr + 64) 48 || d.byte (addr + 112) != 1 then some 0 else none

/-- An area whose stacks are asleep, its header first: what wakes them (R330). -/
def Dev.areaWake (d : Dev) (addr : Nat) : Option Dev :=
  let n := if d.rangeAwake addr 4096 then d.areaLength addr else 4096
  if d.rangeAwake addr n then none else some (d.rangeWake addr n)

/-- The digest reads the leaves (R208). -/
def Dev.readLeaves (d : Dev) (addr : Nat) : Dev := (d.eccRead (addr + 4096) (d.areaTable addr - 4096)).1

/-- A double-bit error lies in the leaves, or they are unmapped: the address. -/
def Dev.areaError (d : Dev) (addr : Nat) : Option Nat :=
  let n := d.areaTable addr
  if !d.rangeMapped addr (d.areaLength addr) then some (addr + 4096)
  else ((d.eccIn (addr + 4096) (n - 4096)).find? fun e => e.2).map fun e => e.1

/-- The leaf of an address in the area. -/
def leafOf (addr a : Nat) : Nat := (a - addr - 4096) / 0x100000

/-! Reading an area back. -/

/-- A directory entry: what the item is, its address and length. -/
structure DirEntry where
  key : ItemKey
  addr : Nat
  length : Nat
  deriving DecidableEq, Repr

def parseEntry (addr : Nat) (b : List Byte) : Option DirEntry :=
  let f := fun o n => leAt b o n
  if decide (1 ≤ f 0 2) && decide (f 0 2 ≤ 9) && decide (f 2 2 < 128) && decide (f 4 1 < 4) && decide (f 5 1 < 4) && decide (f 6 1 < 2) &&
      decide (f 7 1 < 8) && f 24 8 == 0 && f 8 8 % (if f 0 2 = 7 then 0x100000 else 64) == 0 then
    some ⟨⟨f 0 2, finOf 127 (f 2 2), finOf 3 (f 4 1), finOf 3 (f 5 1), finOf 1 (f 6 1), last_of (f 7 1)⟩, addr + f 8 8, f 16 8⟩
  else none

/-- A saved last: its registers, its keystones, its image. -/
structure SavedLast where
  regs : List Word
  keys : List (Nat × Word × Word × Keystone)
  image : Option Image
  deriving DecidableEq, Repr

def rdLast : Rd SavedLast := do
  let r ← rdMany rdWord 6
  let ks ← rdList do
    let k ← rd8; let a ← rdWord; let b ← rdWord
    return (k, a, b, ← rdKeystone)
  return ⟨r, ks, ← rdOpt rdImage⟩

/-- An item read whole. -/
def Dev.itemOf {α : Type} (d : Dev) (e : DirEntry) (f : Rd α) : Option α := (f (d.rdMem e.addr e.length)).map fun r => r.1

/-- What a core's item of row 2 holds: tallies, descriptors and stream descriptors from their first numbers, runs, draw keys. -/
structure SavedCore where
  talBase : Nat
  tals : List Nat
  descBase : Nat
  descs : List Word
  sdBase : Nat
  sdescs : List Word
  sds : List Sd
  keys : List Word
  deriving DecidableEq, Repr

def rdCore : Rd SavedCore := do
  let tb ← rd8; let ts ← rdList rd8; let db ← rd8; let dn ← rd8; let ds ← rdMany rdWord (8 * dn); let sb ← rd8; let sn ← rd8
  let ss ← rdMany rdWord (8 * sn); let rs ← rdMany rdSd sn; let k ← rdMany rdWord 2
  return ⟨tb, ts, db, ds, sb, ss, rs, k⟩

/-- What a core's item of row 3 holds; the banks where the last owns them. -/
structure SavedPat where
  slotBase : Nat
  slots : List MaxAbs
  vec : List (StrandId × Word)
  banks : Option (Bool × Bool × List Nat × List Nat)
  deriving DecidableEq, Repr

def rdPat : Rd SavedPat := do
  let b ← rd8; let n ← rd8
  let ms ← rdMany (do
    let m ← rd8; let o ← rd8; let u ← rd8
    return (⟨BitVec.ofNat 32 m, o, u⟩ : MaxAbs)) n
  let v ← rdList do
    let k ← rd8
    return ((finOf 1 k : StrandId), ← rdWord)
  let banks ← rdOpt do
    let a ← rdBool; let x ← rdBool; let b0 ← rdMany (rdNat 2) 4096; let b1 ← rdMany (rdNat 2) 4096
    return (a, x, b0, b1)
  return ⟨b, ms, v, banks⟩

def rdStrandItem : Rd (Strand × Word) := do
  let s ← rdStrand
  return (s, ← rdWord)

/-- What the hub's item holds: queues, channels and fabric hods with their registers, the epoch offset. -/
structure SavedHub where
  queues : List (List Word × Queue)
  chans : List (List Word × Chan)
  fhs : List (List Word × Sd)
  epoch : Word
  deriving DecidableEq, Repr

def rdWith {α : Type} (n : Nat) (f : Rd α) : Rd (List Word × α) := do
  let w ← rdMany rdWord n
  return (w, ← f)

def rdHub : Rd SavedHub := do
  let q ← rdMany (rdWith 4 rdQueue) 32; let c ← rdMany (rdWith 10 rdChan) 4; let f ← rdMany (rdWith 8 rdSd) 16
  return ⟨q, c, f, ← rdWord⟩

/-- The item reads as its kind says. -/
def Dev.itemSound (d : Dev) (e : DirEntry) : Bool :=
  match e.key.kind with
  | 1 => (d.itemOf e rdStrandItem).isSome
  | 2 => (d.itemOf e rdCore).isSome
  | 3 => (d.itemOf e rdPat).isSome
  | 4 => (d.itemOf e (rdOps e.length)).isSome
  | 5 => e.length == 65600
  | 6 => e.length == 131136
  | 7 => e.length == 0x800000
  | 8 => (d.itemOf e rdLast).isSome
  | _ => (d.itemOf e rdHub).isSome

/-- The directory of the area at `addr`, where all of it is sound (Table 10.10, check 1). -/
def Dev.areaDir (d : Dev) (addr : Nat) : Option (List DirEntry) :=
  let n := leNat (d.rdMem (addr + 48) 4)
  let off := d.areaTable addr
  if off < 4096 + 32 * n then none
  else
    let es := (chunk 32 n (d.rdMem (addr + 4096) (32 * n))).map (parseEntry addr)
    if es.all fun e => e.any fun e => decide (addr + 4096 + 32 * n ≤ e.addr) && decide (e.addr + e.length ≤ addr + off) && d.itemSound e then some (es.filterMap id) else none

/-- The saved lasts of a directory; none where one does not read. -/
def Dev.areaLasts (d : Dev) (es : List DirEntry) : Option (List (LastId × SavedLast)) :=
  let xs := (es.filter fun e => e.key.kind == 8).map fun e => (d.itemOf e rdLast).map fun x => (e.key.last, x)
  if xs.all Option.isSome then some (xs.filterMap id) else none

/-- An area that passes check 1: its directory and its lasts. -/
structure AreaView where
  dir : List DirEntry
  lasts : List (LastId × SavedLast)
  deriving DecidableEq, Repr

/-- Check 1 of Table 10.10. -/
def Dev.areaAt (d : Dev) (r : Restoring) : Option AreaView :=
  let h := d.rdMem r.addr 64
  let off := leAt h 56 8
  let n := leAt h 52 4
  if d.rangeMapped r.addr 4096 && leAt h 0 4 = 0x50434B5A && leAt h 4 2 = 1 && leAt h 7 1 = b2n (r.scope == .module) && ((h.drop 33).take 7).all (· == 0) &&
      (d.cellsIn (r.addr + 113) (4096 - 113)).all (fun e => e.2 == 0) && leAt h 40 8 = 4096 && decide (4096 ≤ off) && n = leavesOf off && leAt h 8 8 = off + 48 * n &&
      d.rangeMapped r.addr (off + 48 * n) then
    match d.areaDir r.addr with
    | none => none
    | some es => match d.areaLasts es with
      | none => none
      | some ls => if leAt h 32 1 = ls.foldl (fun m x => m + 2 ^ x.1.val) 0 && (r.scope == .module || ls.length == 1) then some ⟨es, ls⟩ else none
  else none

end Sys2Proof.Machine
end

