-- ==== Sys2Proof/Machine/Saving.lean ====
section
/-!
DEFINITION. Saves, checkpoints and restores (R293 to R301): CSAVE, CREST, PAUSE_COMPLETE, SAVE_COMPLETE, DIGEST_COMPLETE,
RESTORE_COMPLETE.
-/

namespace Sys2Proof.Machine

def allKeys : List KeyId := List.finRange 64

/-! CSAVE, the end of a pause, of a save, of a digest. -/

/-- An address of a save area: local HBM, aligned to 64 KiB (R199, R297). -/
def Dev.saveAddrOk (d : Dev) (v : Word) : Bool := v.toNat % 0x10000 == 0 && decide (v.toNat < d.hbmSize)

/-- CSAVE (R199). Of two that strands of one last dispatch in one cycle, the one commanded later governs the save; the other never
completes or posts (DESIGN CHOICE, log 58: R199 does not say). -/
def execCsave (c : CoreId) (k : StrandId) (w : BitVec 56) (s : State) : Host.Outcome State Fault Refusal :=
  onDev s fun d => d.issue c k (mkInsn 0x76 w) fun d o =>
    let v := (d.strand c k).rdS (wYra w)
    if !d.saveAddrOk v then .fault 4 v
    else
      -- the CSAVE governs the save that an NCP pause of this cycle asked for
      let ncp := (d.last o.last).pausing.bind fun p => p.asker
      .ok (d.startPause o.last ⟨some v.toNat, wCode w % 2 == 1 && ncp.isNone, ncp, some (c, k, o.pc, w), false, 0, d.cycle, true⟩)

/-- CKP_STAT state. -/
def Dev.ckpState (d : Dev) (n : Nat) : Dev := d.setRegFld (aCkp 8) 0 3 n

/-- The lasts that a module save names. -/
def Dev.liveLasts (d : Dev) : List LastId := allLasts.filter fun l => (d.last l).st != .empty

/-- A context save meets the ECC errors of the last's tiles (R102): a double-bit error poisons its tile. -/
def Dev.saveScan (d : Dev) (l : LastId) : Dev × Bool :=
  match (d.last l).image with
  | none => (d, false)
  | some i =>
    if d.ecc.isEmpty then (d, false)
    else i.cores.foldl (fun (s : Dev × Bool) c => allArrays.foldl (fun (s : Dev × Bool) a =>
      (allTiles.filter fun t => d.tileOwner c.phys a t == some l).foldl (fun (s : Dev × Bool) t =>
        let lo := bedAddr c.phys a t 0 0
        let marks := s.1.ecc.filter fun e => decide (lo ≤ e.1) && decide (e.1 < lo + 0x20000)
        let r := ((marks.map fun e => (e.1 - lo) / 32).eraseDups).foldl (fun (s : Dev × Bool) n =>
          let x := s.1.bedEcc c.phys a t (n / 64) (n % 64)
          (x.1, s.2 || x.2)) (s.1, false)
        (if r.2 then r.1.updTile c.phys a t fun x => { x with poisoned := true } else r.1, s.2 || r.2)) s) s) (d, false)

/-- A checkpoint reads the tiles of a last that it did not stop itself, too: a double-bit error raises its fault for that last. -/
def Dev.scanOther (d : Dev) (l : LastId) : Dev :=
  let r := d.saveScan l
  if r.2 then r.1.faultBare l 12 0 else r.1

/-- A checkpoint that is stopping the lasts pauses one launched since the request too; once no last runs, that is the save instant:
the area is latched and the copy begins (R298, Table 10.13). -/
def Dev.ckpCopy (d : Dev) : Dev :=
  match d.hub.ckpt with
  | none => d
  | some k =>
    if d.regFld (aCkp 8) 0 3 != 1 then d
    else
      let new := allLasts.filter fun l => (d.last l).st == .running && (d.last l).pausing.isNone
      let d := new.foldl (fun (d : Dev) l => d.startPause l ⟨none, false, none, none, false, 0, d.cycle, true⟩) d
      let d := d.updHub fun h => { h with ckpt := some { k with resume := k.resume ++ new } }
      if allLasts.any fun l => (d.last l).st == .running then d
      else
        let d := (d.liveLasts.filter fun l => !k.resume.contains l).foldl (fun (d : Dev) l => d.scanOther l) d
        (d.latchSave (d.regFld (aCkp 0) 0 39) .module d.liveLasts).ckpState 2

/-- PAUSE_COMPLETE (R292): the last is PAUSED in its save instant, and what a save takes is latched; or its fault has ended the
pause. -/
def execPauseComplete (l : LastId) (s : State) : Host.Outcome State Fault Refusal :=
  onDev s fun d =>
    match (d.last l).pausing with
    | none => d
    | some p =>
      let drop := fun (d : Dev) => d.updLast l fun x => { x with pausing := none }
      match (d.last l).st with
      | .stopped => ((drop d).reply p.asker 11 (d.regFld (aLstFlt l 0) 0 8) []).ckpCopy
      | .running =>
        if !d.pauseReady l then d
        else
          let r := if p.keep then d.saveScan l else (d, false)
          if r.2 then
            (match p.csave with
              | some x => r.1.fault 12 ⟨l, x.1, x.2.1, x.2.2.1, mkInsn 0x76 x.2.2.2⟩ 0
              | none => r.1.faultBare l 12 0)
          else
            let d := (r.1.updLast l fun x => { x with st := .paused, pausing := some { p with instant := d.hub.ftime.ft } }).acnt 4 1
            match p.save with
            | some a => d.latchSave a (.last l) [l]
            | none => ((drop d).reply p.asker 0 0 []).ckpCopy
      | _ => d

/-- The last last of a checkpoint has resumed: the digest begins, and the request is answered (R298, R300). -/
def Dev.ckpResumed (d : Dev) (k : Ckpt) : Dev :=
  let stop := d.cycle - k.began
  let d := (d.ckpState 3).setRegFld (aCkp 8) 32 32 (min 0xFFFFFFFF stop)
  let d := d.updHub fun h => { h with ckpt := some { k with asker := none, stop := stop, resume := [], saved := true } }
  (d.acnt 5 1).reply k.asker 0 0 (leBytes 4 stop ++ zeros 4)

/-- The lasts that a checkpoint stopped resume one a cycle, in ascending number (R298). -/
def Dev.ckpResume (d : Dev) : Dev :=
  match d.hub.ckpt with
  | none => d
  | some k =>
    if !k.saved || d.regFld (aCkp 8) 0 3 != 2 then d
    else match k.resume with
      | [] => d
      | l :: rest =>
        let d := if (d.last l).st == .paused then d.resume l else d
        let k := { k with resume := rest }
        if rest.isEmpty then d.ckpResumed k else d.updHub fun h => { h with ckpt := some k }

/-- SAVE_COMPLETE (R293, R297, R298): the latched area is in HBM, once the stacks that take it are awake (R330). At module scope the
lasts then resume. -/
def execSaveComplete (x : SaveScope) (s : State) : Host.Outcome State Fault Refusal :=
  onDev s fun d =>
    match d.saves.find? fun a => a.scope == x with
    | none => (match x with
      | .module => d.ckpCopy
      | .last _ => d)
    | some a =>
      if !d.rangeAwake a.addr a.length then d.rangeWake a.addr a.length
      else match x with
      | .last l =>
        (match (d.last l).pausing with
        | some p => (d.copySave a).updLast l fun y => { y with pausing := some { p with saved := true } }
        | none => { d with saves := d.saves.filter fun y => y != a })
      | .module =>
        match d.hub.ckpt with
        | none => d
        | some k =>
          let d := d.copySave a
          let back := allLasts.filter fun l => k.resume.contains l && (d.last l).st == .paused
          let k := { k with saved := true, resume := back }
          if back.isEmpty then d.ckpResumed k else d.updHub fun h => { h with ckpt := some k }

/-- The save of a last is finished: the CSAVE completes, the pause is answered, and the last may resume in the next cycle (R199,
R292). -/
def Dev.endSave (d : Dev) (l : LastId) (p : Pausing) : Dev :=
  let d := d.updLast l fun x => { x with pausing := none }
  let d := match p.csave with
    | some x => d.post ⟨l, x.1, x.2.1, x.2.2.1, mkInsn 0x76 x.2.2.2⟩
    | none => d
  let d := d.reply p.asker 0 0 (leBytes 8 p.instant.toNat)
  if p.resume then { d with now := { d.now with wake := l :: d.now.wake } } else d

/-- DIGEST_COMPLETE (R299, R300). -/
def execDigestComplete (x : SaveScope) (s : State) : Host.Outcome State Fault Refusal :=
  onDev s fun d =>
    match x with
    | .last l =>
      (match (d.last l).pausing with
      | some p => match p.save with
        | some a =>
          if !p.saved then d
          else match d.areaWake a with
          | some d => d
          | none =>
          let d := d.readLeaves a
          match d.areaError a with
          | some e => ((d.ckpState 6).eventN 0x6002 2 (leBytes 4 (leafOf a e)) (7, 0xFF, 0xFF, 0xFF, 0)).endSave l p
          | none => (d.writeDigest a).endSave l p
        | none => d
      | none => d)
    | .module =>
      if d.regFld (aCkp 8) 0 3 != 3 then d
      else
        let a := d.regFld (aCkp 0) 0 39
        match d.areaWake a with
        | some d => d
        | none =>
        let d := (d.readLeaves a).updHub fun h => { h with ckpt := none }
        match d.areaError a with
        | some e => (d.ckpState 6).eventN 0x6002 2 (leBytes 4 (leafOf a e)) (7, 0xFF, 0xFF, 0xFF, 0)
        | none =>
          ((d.writeDigest a).ckpState 4).eventN 0x6004 0 (leBytes 4 (d.areaLeaves a) ++ zeros 4 ++ d.rdMem (a + 16) 8) (6, 0xFF, 0xFF, 0xFF, 0)

/-! Restores. -/

/-- The saved last and the last that takes its context. -/
def Restoring.pairs (r : Restoring) (a : AreaView) : List (LastId × LastId × SavedLast) :=
  a.lasts.map fun x => (x.1, match r.scope with
    | .last l => l
    | .module => x.1, x.2)

/-- The images of an area, each with the last that takes it. -/
def Restoring.images (r : Restoring) (a : AreaView) : List (LastId × Image) :=
  (r.pairs a).filterMap fun p => p.2.2.image.map fun i => (p.2.1, i)

/-- A unit of the entry is assigned to the last, or unassigned, and R295's condition holds. -/
def Dev.restoreUnits (d : Dev) (l : LastId) (c : LCore) : Bool :=
  d.coreUnits (some l) c && allStrands.all fun k => match d.strandLast c.phys k with
    | some x => x == l || (d.last x).st != .running
    | none => true

/-- On a core that an image shares with a last that stays, their ranges do not overlap (Table 6.15). -/
def Dev.restoreRanges (d : Dev) (taken : List LastId) (i : Image) : Bool :=
  (allLasts.filter fun x => !taken.contains x).all fun x => match (d.last x).image with
    | some y => !(y.cores.any fun c => i.physCores.contains c.phys) || !i.clash y
    | none => true

/-- R109: the unit's header is sound, and its tile, where it is assigned, belongs to the header's owner. -/
def Dev.bedUnitOk (d : Dev) (e : DirEntry) : Bool :=
  let h := d.rdMem e.addr 64
  let w := BitVec.ofNat 64 (leAt h 0 8)
  fld w 0 3 != 7 && fld w 5 3 == 0 && fld w 14 2 == 0 && fld w 22 2 == 0 && fld w 28 36 == 0 && (h.drop 8).all (· == 0) &&
  match d.tileOwner e.key.core e.key.array e.key.tile with
  | some o => fld w 24 3 == o.val
  | none => true

/-- The last that takes the context of a saved one. -/
def Restoring.name (r : Restoring) (a : AreaView) (l : LastId) : LastId :=
  match (r.pairs a).find? fun p => p.1 == l with
  | some p => p.2.1
  | none => l

/-- State of half `u` in a weight image, with bit 24 where the half was the saved last's. -/
def Dev.savedHalf (d : Dev) (e : DirEntry) (u : Nat) : Word := BitVec.ofNat 64 (leNat (d.rdMem (e.addr + 65536 + 8 * u) 8))

/-- The halves that a weight image is of. -/
def Dev.savedMask (d : Dev) (e : DirEntry) : Nat := b2n (bitOf (d.savedHalf e 0) 24) + 2 * b2n (bitOf (d.savedHalf e 1) 24)

/-- What an item names is assigned to the last `l` that takes it, or unassigned (check 4); a tile is judged by its header (R109). -/
def Dev.itemFree (d : Dev) (e : DirEntry) (l : LastId) : Bool :=
  let c := e.key.core
  let mine := fun (o : Option LastId) => o.isNone || o == some l
  match e.key.kind with
  | 1 => mine (d.strandLast c e.key.strand)
  | 3 => (d.itemOf e rdPat).all fun x => x.banks.isNone || mine (d.patOwner c)
  | 5 => allHalves.all fun u => !(d.savedMask e).testBit u.val || mine (d.halfOwner c e.key.array u)
  | _ => true

/-- The checks of Table 10.10 before the digest: 0, or the code. -/
def Dev.restoreCheck (d : Dev) (r : Restoring) : Nat :=
  match d.areaAt r with
  | none => 1
  | some a =>
    let ps := r.pairs a
    let imgs := r.images a
    if leNat (d.rdMem (r.addr + 6) 1) ≠ 2 then 2
    else if !(ps.all fun p => (d.last p.2.1).st == .empty || (d.last p.2.1).st == .stopped) then 3
    else if !(imgs.all fun p => (p.2.cores.all fun c => d.restoreUnits p.1 c) && d.restoreRanges (ps.map fun p => p.2.1) p.2) ||
        !(a.dir.all fun e => d.itemFree e (r.name a e.key.last)) then 4
    else if !(imgs.all fun p => d.widthsOk p.2) then 5
    else 0

/-- An owner in a saved origin becomes the last that takes the context. -/
def Sd.renamed (s : Sd) (m : LastId → LastId) : Sd :=
  let f := fun (r : Run) => { r with origin := r.origin.map fun o => { o with last := m o.last } }
  { s with active := s.active.map f, shadow := s.shadow.map f }

/-- The 64-bit words that sparse bytes from `a` spell, by index. -/
def sparseWords (w a : Nat) (m : List Host.Cell) : List (Nat × Nat) :=
  m.foldl (fun (l : List (Nat × Nat)) e => let k := (e.1 - a) / w; sset (fun _ => 0) l k (sget (fun _ => 0) l k + e.2.toNat * 256 ^ ((e.1 - a) % w))) []

/-- A core's row-2 item is written; draw keys go to the slots of the last that takes the context. -/
def Dev.restoreCore (d : Dev) (c : CoreId) (l : LastId) (name : LastId → LastId) (x : SavedCore) : Dev :=
  let put := fun (m : List (Nat × Word)) (lo : Nat) (ws : List Word) => ssetList (fun _ => (0 : Word)) m (8 * lo) ws
  let at_ := fun (lo k n : Nat) => decide (lo ≤ k) && decide (k < lo + n)
  let d := d.updCore c fun y => { y with
    tallies := y.tallies.mapIdx fun t v => if at_ x.talBase t x.tals.length then ⟨x.tals.getD (t - x.talBase) 0, 0, [], none, none⟩ else v
    descs := put y.descs x.descBase x.descs
    sdescs := put y.sdescs x.sdBase x.sdescs
    sds := y.sds.mapIdx fun m v => if at_ x.sdBase m x.sds.length then ((x.sds.getD (m - x.sdBase) v).renamed name) else v }
  (d.setReg (aFmt c (0x100 + 16 * (name l).val)) (wordAt x.keys 0)).setReg (aFmt c (0x108 + 16 * (name l).val)) (wordAt x.keys 1)

/-- A core's row-3 item is written; saved banks belong to the last that takes the context. -/
def Dev.restorePat (d : Dev) (c : CoreId) (l : LastId) (x : SavedPat) : Dev :=
  let bank := fun (l : List Nat) => ssetList (fun _ => (0 : BitVec 16)) [] 0 (l.map fun n => BitVec.ofNat 16 n)
  let d := d.updCore c fun y => { y with
    maxabs := y.maxabs.mapIdx fun n v => if x.slotBase ≤ n && n < x.slotBase + x.slots.length then x.slots.getD (n - x.slotBase) v else v }
  let d := x.vec.foldl (fun (d : Dev) w => d.setReg (aVecStat c w.1) w.2) d
  match x.banks with
  | some b => (d.setRegFld (aPatCtl c) 0 4 (ownField l true)).updCore c fun y => { y with patActive := b.1, patDispatched := b.2.1, bank0 := bank b.2.2.1, bank1 := bank b.2.2.2 }
  | none => d

/-- The cells of the saved last's halves take a weight image; their parity is fresh, and they belong to the last that takes the
context. -/
def Dev.restoreWeights (d : Dev) (e : DirEntry) (l : LastId) : Dev :=
  let mask := d.savedMask e
  let ws := sparseWords 8 e.addr (d.cellsIn e.addr 65536)
  let mine := fun (k : Nat) => mask.testBit (k / 2048)
  let pick := fun (b : Nat) => (ws.filter fun w => w.1 % 2 == b && mine (w.1 / 2)).map fun w => (w.1 / 2, BitVec.ofNat 64 w.2)
  let over_ := fun (old : List (Nat × Word)) (new : List (Nat × Word)) =>
    new.foldl (fun m x => sset (fun _ => (0 : Word)) m x.1 x.2) (skeep (fun k => !mine k) old)
  let d := (allHalves.filter fun u => mask.testBit u.val).foldl (fun (d : Dev) u =>
    d.setRegFld (aArrCtl e.key.core e.key.array) (4 * u.val) 4 (ownField l true)) d
  d.updArr e.key.core e.key.array fun x => { x with
    act := over_ x.act (pick 0)
    shadow := over_ x.shadow (pick 1)
    parity := x.parity.filter fun p => p.1 == 2 || !mask.testBit (p.2.1 / 32)
    halves := x.halves.mapIdx fun u h => if mask.testBit u then Half.ofWord (d.savedHalf e u) else h }

/-- A bed save unit is written: entries, then the record, the owner and its enable as the header has them (R108, R109). -/
def Dev.restoreBed (d : Dev) (e : DirEntry) : Dev :=
  let w := BitVec.ofNat 64 (leNat (d.rdMem e.addr 8))
  let c := e.key.core
  let a := e.key.array
  let t := e.key.tile
  let lo := bedAddr c a t 0 0
  let es := (sparseWords 32 (e.addr + 64) (d.cellsIn (e.addr + 64) 131072)).map fun x => (x.1, BitVec.ofNat 256 x.2)
  let d := d.updTile c a t fun x => { x with entries := es, ext := [], frac := [], cls := BitVec.ofNat 3 (fld w 0 3), poisoned := bitOf w 3 }
  let d := { d with
    ecc := d.ecc.filter fun e => !(decide (lo ≤ e.1) && decide (e.1 < lo + 0x20000))
    now := { d.now with beds := (List.range 4096).map (fun n => lo + 32 * n) ++ d.now.beds } }
  let st := d.reg (aTstat c a t) &&& ~~~0x3F3F20#64
  let d := d.setReg (aTstat c a t) (st ||| mkWord [(5, fld w 4 1), (8, fld w 8 6), (16, fld w 16 6)])
  d.setRegFld (aBedCtl c a) (4 * t.val) 4 (fld w 24 4)

/-- A whole slice is written. -/
def Dev.restoreSlice (d : Dev) (e : DirEntry) : Dev :=
  d.overlay (sliceBase e.key.core) 0x800000 ((d.cellsIn e.addr 0x800000).map fun x => (x.1 - e.addr, x.2))

/-- The registers, keystones and image of a last; it is PAUSED. -/
def Dev.restoreLast (d : Dev) (l' : LastId) (x : SavedLast) : Dev :=
  let d := foldIdx (fun (d : Dev) i a => d.setReg a (wordAt x.regs i)) 0 d [aLstCtl l', aLstFlt l' 0, aLstFlt l' 1, aLstFlt l' 2, aLstFlt l' 3, aMem (0x40 + 8 * l'.val)]
  let d := x.keys.foldl (fun (d : Dev) k =>
    let n : KeyId := finOf 63 k.1
    ((d.setReg (aKs n 0) (setFld k.2.1 0 3 l'.val)).setReg (aKs n 8) k.2.2.1).updKey n fun _ => k.2.2.2) d
  let d := match x.image with
    | some i => i.cores.foldl (fun (d : Dev) c => d.assign l' true c) d
    | none => d
  d.updLast l' fun _ => { Last.init with st := .paused, image := x.image }

/-- The hub's item is written; pushes and pops that wait go on waiting. -/
def Dev.restoreHub (d : Dev) (x : SavedHub) : Dev :=
  let d := foldIdx (fun (d : Dev) i q =>
    let n : QueueId := finOf 31 i
    let d := foldIdx (fun (d : Dev) j w => d.setReg (aQue n ([0x1000, 0x1008, 0x1010, 0x1028].getD j 0)) w) 0 d q.1
    d.updQueue n fun y => { q.2 with waiting := y.waiting, pops := y.pops }) 0 d x.queues
  let d := foldIdx (fun (d : Dev) i c =>
    let n : ChanId := finOf 3 i
    let d := foldIdx (fun (d : Dev) j w => d.setReg (aCol n (8 * j)) w) 0 d c.1
    d.updHub fun h => { h with chans := vmap h.chans n fun _ => c.2 }) 0 d x.chans
  let d := foldIdx (fun (d : Dev) i f =>
    let n : FhId := finOf 15 i
    let d := foldIdx (fun (d : Dev) j w => d.setReg (aFh n (8 * j)) w) 0 d f.1
    d.updHub fun h => { h with fsds := vmap h.fsds n fun _ => f.2 }) 0 d x.fhs
  d.setReg (aFab 0x28) x.epoch

/-- Operation records in dispatch sequence order. -/
def opInsert {α : Type} (x : Op × α) : List (Op × α) → List (Op × α)
  | [] => [x]
  | y :: t => if x.1.id ≤ y.1.id then x :: y :: t else y :: opInsert x t

/-- Operation records come back with fresh numbers, in their order, ahead of what has been dispatched since, and their tiles get
their extensions (R294, R416). -/
def Dev.restoreOps (d : Dev) (es : List DirEntry) (name : LastId → LastId) : Dev :=
  let all := ((es.filter fun e => e.key.kind == 4).flatMap fun e => (d.itemOf e (rdOps e.length)).getD []).foldr opInsert []
  let n := d.nextOp
  let top := all.foldl (fun m x => max m (max (x.1.id + 1) x.1.loadAt)) 0
  let new := all.map fun x => { x.1 with id := x.1.id + n, last := name x.1.last, loadAt := if x.1.loadAt = 0 then 0 else x.1.loadAt + n }
  let d := { d with ops := new ++ d.ops, nextOp := n + top }
  all.foldl (fun (d : Dev) x => x.2.foldl (fun (d : Dev) t => d.updTile x.1.ecore x.1.earray t.1 fun y => { y with ext := t.2 }) d) d

/-- One item is written to the resources that it names. -/
def Dev.restoreItem (d : Dev) (ps : List (LastId × LastId × SavedLast)) (name : LastId → LastId) (e : DirEntry) : Dev :=
  let c := e.key.core
  match e.key.kind with
  | 1 => (match d.itemOf e rdStrandItem with
    | some x => ((d.updStrand c e.key.strand fun _ => x.1).setReg (aFlags c e.key.strand) x.2).setRegFld (aSeqCtl c) (4 * e.key.strand.val) 4
        (ownField (name e.key.last) true)
    | none => d)
  | 2 => (match d.itemOf e rdCore with
    | some x => d.restoreCore c e.key.last name x
    | none => d)
  | 3 => (match d.itemOf e rdPat with
    | some x => d.restorePat c (name e.key.last) x
    | none => d)
  | 5 => d.restoreWeights e (name e.key.last)
  | 7 => d.restoreSlice e
  | 8 => (match ps.find? fun p => p.1 == e.key.last with
    | some p => d.restoreLast p.2.1 p.2.2
    | none => d)
  | 9 => (match d.itemOf e rdHub with
    | some x => d.restoreHub x
    | none => d)
  | _ => d

/-- Everything a restore writes (R293, R295), its measurement first (R359); bed units after the owners of the other units. -/
def Dev.writeRestore (d : Dev) (r : Restoring) (a : AreaView) : Dev :=
  let ps := r.pairs a
  let name := r.name a
  let unit := match ps with
    | p :: _ => p.2.1.val
    | [] => 0
  let d := d.measure 6 unit (d.rdMem (r.addr + 64) 48) 0
  let d := { d with ops := d.ops.filter fun o => !(ps.any fun p => p.2.1 == o.last) }
  let d := a.dir.foldl (fun (d : Dev) e => d.restoreItem ps name e) d
  let d := (a.dir.filter fun e => e.key.kind == 6).foldl (fun (d : Dev) e => d.restoreBed e) d
  d.restoreOps a.dir name

/-- The cores that an area needs wake (R333). -/
def Dev.wakeFor (d : Dev) (r : Restoring) (a : AreaView) : Dev :=
  ((r.images a).flatMap fun p => p.2.physCores).foldl (fun (d : Dev) c => d.turnOn (.core c)) d

/-- A restore begins: CKP_STAT shows it, and the stacks and the cores that it needs wake (R301, R330, R333). -/
def Dev.beginRestore (d : Dev) (r : Restoring) : Dev :=
  let d := (d.updAoc fun x => { x with restoring := x.restoring ++ [r] }).ckpState 5
  match d.areaWake r.addr with
  | some d => d
  | none => match d.areaAt r with
    | none => d
    | some a => if d.restoreCheck r ≠ 0 then d else d.wakeFor r a

/-- A restore ends: the CREST completes and posts, the request is answered. -/
def Dev.endRestore (d : Dev) (r : Restoring) (code leaf : Nat) : Dev :=
  let d := d.updAoc fun x => { x with restoring := eraseFirst (· == r) x.restoring }
  let l := match r.scope with
    | .last l => l.val
    | .module => 0xFF
  let d := if code = 0 then (d.ckpState 4).acnt 6 1 else ((d.setRegFld (aCkp 8) 8 4 code).ckpState 6).refuseLoad l code leaf
  let d := match r.crest with
    | some x => (match d.strandLast x.1 x.2.1 with
      | some o => d.complete ⟨o, x.1, x.2.1, x.2.2.1, mkInsn 0x77 x.2.2.2⟩
      | none => d)
    | none => d
  if code = 0 then d.reply r.asker 0 0 [] else d.reply r.asker 4 code []

/-- CREST (R200). -/
def execCrest (c : CoreId) (k : StrandId) (w : BitVec 56) (s : State) : Host.Outcome State Fault Refusal :=
  onDev s fun d => d.issue c k (mkInsn 0x77 w) fun d o =>
    let v := (d.strand c k).rdS (wYra w)
    if !d.saveAddrOk v then .fault 4 v
    else .ok (d.beginRestore ⟨v.toNat, none, some (c, k, o.pc, w), .last (last_of (wCode w))⟩)

/-- RESTORE_COMPLETE (R301): the checks in their order, then the writes. It waits while a stack of the area is asleep, and while a core
that it needs is not ON, which it turns ON (R330, R333). -/
def execRestoreComplete (x : SaveScope) (s : State) : Host.Outcome State Fault Refusal :=
  onDev s fun d =>
    match d.aoc.restoring.find? fun r => r.scope == x with
    | none => d
    | some r =>
      match d.areaWake r.addr with
      | some d => d
      | none =>
      let code := d.restoreCheck r
      if code ≠ 0 then d.endRestore r code 0
      else match d.areaAt r with
      | none => d
      | some a =>
        if !((r.images a).all fun p => d.coresReady p.2) then d.wakeFor r a
        else
        let d := d.readLeaves r.addr
        match d.digestCheck r.addr with
        | some leaf => d.endRestore r 7 leaf
        | none =>
          if !((a.dir.filter fun e => e.key.kind == 6).all fun e => d.bedUnitOk e) then d.endRestore r 8 0
          else (d.writeRestore r a).endRestore r 0 0

end Sys2Proof.Machine
end

