-- ==== Sys2Proof/Machine/Sync.lean ====
section
/-!
DEFINITION. Synchronisation and system instructions (R161, R162, R192 to R198, R201, R202), keystones (R276 to R278) and tile
stealing (R165 to R168).
-/

namespace Sys2Proof.Machine

/-- TADD (R192): an increment in step 3 of R151. -/
def execTadd (c : CoreId) (k : StrandId) (w : BitVec 56) (s : State) : Host.Outcome State Fault Refusal :=
  onDev s fun d => d.issue c k (mkInsn 0x68 w) fun d o => .ok ((d.tallyInc c (wTally w) (wImm16 w) (some o)).post o)

/-- TSET (R193): a replacement in step 4 of R151. -/
def execTset (c : CoreId) (k : StrandId) (w : BitVec 56) (s : State) : Host.Outcome State Fault Refusal :=
  onDev s fun d => d.issue c k (mkInsn 0x69 w) fun d o => .ok ((d.updTally c (wTally w) fun t => { t with tset := some (wImm16 w) }).post o)

/-- KEYSTONE (R194, R276). -/
def execKeystone (c : CoreId) (k : StrandId) (w : BitVec 56) (s : State) : Host.Outcome State Fault Refusal :=
  onDev s fun d => d.issue c k (mkInsn 0x6A w) fun d o =>
    let n : KeyId := finOf 63 (wImm16 w)
    let v := d.ksCfg n
    if !bitOf v 3 || ksLast v ≠ o.last.val || (d.strand c k).keys.any fun x => x.1 == n then .fault 2 0
    else .ok ((d.updStrand c k fun t => { t with keys := t.keys ++ [(n, ⟨0, o.pc, 0x6A, w⟩)] }).ksLocalArrival n c k)

/-- FTWAIT (R195). -/
def execFtwait (c : CoreId) (k : StrandId) (w : BitVec 56) (s : State) : Host.Outcome State Fault Refusal :=
  onDev s fun d => d.issue c k (mkInsn 0x6B w) fun d o =>
    let v := (d.strand c k).rdS (wTra w)
    if (d.strand c k).ftwait.isSome then .fault 2 0
    else if v.toNat ≤ d.hub.ftime.ft.toNat then .ok (d.post o)
    else .ok (d.updStrand c k fun t => { t with ftwait := some ⟨v, o.pc, 0x6B, w⟩ })

/-- FTWAIT_INSTANT (R195). A last that is not running takes it at its resume (R294). -/
def execFtwaitInstant (c : CoreId) (k : StrandId) (s : State) : Host.Outcome State Fault Refusal :=
  onDev s fun d =>
    match (d.strand c k).ftwait, d.strandLast c k with
    | some h, some l =>
      if d.hub.ftime.ft.toNat < h.instant.toNat || (d.last l).st != .running || (d.last l).pausing.isSome then d
      else (d.updStrand c k fun t => { t with ftwait := none }).complete ⟨l, c, k, h.pc, insnWord h.opcode h.w⟩
    | _, _ => d

/-- NOP (R196). -/
def execNop (c : CoreId) (k : StrandId) (w : BitVec 56) (s : State) : Host.Outcome State Fault Refusal :=
  onDev s fun d => d.issue c k (mkInsn 0x70 w) fun d o => .ok (d.post o)

/-- HALT (R162, R197): the strand is HALTING; it is DONE once nothing of it is outstanding. -/
def execHalt (c : CoreId) (k : StrandId) (w : BitVec 56) (s : State) : Host.Outcome State Fault Refusal :=
  onDev s fun d => d.issue c k (mkInsn 0x71 w) fun d o =>
    if condHolds (d.strand c k) w then .ok (d.updStrand c k fun t => { t with st := .halting, halt := some ⟨0, o.pc, 0x71, w⟩ })
    else .ok (d.post o)

/-- TRAP (R161, R197). -/
def execTrap (c : CoreId) (k : StrandId) (w : BitVec 56) (s : State) : Host.Outcome State Fault Refusal :=
  onDev s fun d => d.issue c k (mkInsn 0x72 w) fun d o =>
    if condHolds (d.strand c k) w then
      let d := d.updStrand c k fun t => { t with st := .trapped, trap := BitVec.ofNat 16 (wCode w) }
      let d := d.eventN 0x3002 0 (leBytes 1 o.last.val ++ leBytes 1 c.val ++ leBytes 1 k.val ++ zeros 1 ++ leBytes 2 (wCode w) ++ zeros 2 ++
        leBytes 8 o.pc.toNat) (2, o.last.val, c.val, k.val, wCode w)
      .ok (d.post o)
    else .ok (d.post o)

/-- SNAP (R198): the trigger is raised in the next cycle, and the instruction completes then. -/
def execSnap (c : CoreId) (k : StrandId) (w : BitVec 56) (s : State) : Host.Outcome State Fault Refusal :=
  onDev s fun d => d.issue c k (mkInsn 0x73 w) fun d o => .ok ((d.plumbLater (d.cycle + 1) 0 (wCode w)).postAt o (d.cycle + 1))

/-- TGRPB (R165): a group opens; one that was open stays immovable. -/
def execTgrpb (c : CoreId) (k : StrandId) (w : BitVec 56) (s : State) : Host.Outcome State Fault Refusal :=
  onDev s fun d => d.issue c k (mkInsn 0x74 w) fun d o =>
    let n := d.nextOp
    .ok (({ d with nextOp := n + 1 }.updStrand c k fun t => { t with group := some ⟨n, true, 0, 0, 0⟩ }).post o)

/-- Tile stealing is active for the last (R166). -/
def Dev.stealing (d : Dev) (l : LastId) : Bool := bitOf (d.reg (aLstCtl l)) 0 && !bitOf (d.reg (aLstCtl l)) 1

/-- TGRPE (R165): the open group closes, movable where R165 holds. -/
def execTgrpe (c : CoreId) (k : StrandId) (w : BitVec 56) (s : State) : Host.Outcome State Fault Refusal :=
  onDev s fun d => d.issue c k (mkInsn 0x75 w) fun d o =>
    match (d.strand c k).group with
    | none => .ok (d.post o)
    | some g =>
      let d := d.updStrand c k fun t => { t with group := none }
      if g.movable && g.stage == 2 && d.stealing o.last then
        let mark := fun (x : Op) => if x.core == c && x.strand == k && (x.group.map fun y => y.1) == some g.num then { x with group := some (g.num, true) } else x
        .ok ({ d with ops := d.ops.map mark }.post o)
      else .ok (d.post o)

/-- FRD (R201). -/
def execFrd (c : CoreId) (k : StrandId) (w : BitVec 56) (s : State) : Host.Outcome State Fault Refusal :=
  onDev s fun d => d.issue c k (mkInsn 0x78 w) fun d o => .ok (d.result o (wRd w) (d.flagsBefore c k) 1)

/-- FCLR (R201). -/
def execFclr (c : CoreId) (k : StrandId) (w : BitVec 56) (s : State) : Host.Outcome State Fault Refusal :=
  onDev s fun d => d.issue c k (mkInsn 0x79 w) fun d o => .ok ((d.clearFlags c k (wImm w)).post o)

/-- MXCLR (R202). -/
def execMxclr (c : CoreId) (k : StrandId) (w : BitVec 56) (s : State) : Host.Outcome State Fault Refusal :=
  onDev s fun d => d.issue c k (mkInsn 0x7A w) fun d o => .ok ((d.clearSlots c (wImm w)).post o)

/-- FTST (R201). -/
def execFtst (c : CoreId) (k : StrandId) (w : BitVec 56) (s : State) : Host.Outcome State Fault Refusal :=
  onDev s fun d => d.issue c k (mkInsn 0x7B w) fun d o =>
    .ok (d.result o (wRd w) (if d.flagsBefore c k &&& BitVec.ofNat 64 (wImm w) = 0 then 0 else 1) 1)

/-! Keystones. -/

/-- The round of a keystone whose release instant fabric time has reached ends (R277): its KEYSTONEs complete; that of a
paused strand completes at the resume (R294). -/
def Dev.ksDue (d : Dev) (k : KeyId) : Dev :=
  let x := d.key k
  if x.st ≠ 2 || d.hub.ftime.ft.toNat < x.instant.toNat then d
  else
    let r := d.ksRound k
    r.2.foldl (fun (d : Dev) y =>
      let t := d.strand y.1 y.2
      match t.keys.find? fun z => z.1 == k, d.strandLast y.1 y.2 with
      | some h, some l =>
        if (d.last l).st == .running && (d.last l).pausing.isNone then
          (d.updStrand y.1 y.2 fun t => { t with keys := t.keys.filter fun z => z.1 != k }).complete ⟨l, y.1, y.2, h.2.pc, insnWord h.2.opcode h.2.w⟩
        else d.updStrand y.1 y.2 fun t => { t with keys := t.keys.map fun z => if z.1 == k then (z.1, { z.2 with instant := 1 }) else z }
      | _, _ => d) r.1

/-- An arrival packet from a child (R276). -/
def Dev.ksArrivalIn (d : Dev) (k : KeyId) (port : LinkId) : Dev :=
  let d := d.ksDue k
  let v := d.ksCfg k
  if !d.hubOn || !bitOf v 3 || !(ksChildren v).testBit port.val || (d.key k).st ≥ 2 then d
  else d.ksArrive k fun x => { x with st := 1, children := x.children ||| BitVec.ofNat 12 (2 ^ port.val) }

/-- KEYSTONE_ARRIVAL (R276). -/
def execKeystoneArrival (k : KeyId) (port : LinkId) (s : State) : Host.Outcome State Fault Refusal := onDev s fun d => d.ksArrivalIn k port

/-- A release packet (R276, R277). -/
def Dev.ksReleaseIn (d : Dev) (k : KeyId) (instant : Word) (round : BitVec 16) : Dev :=
  let v := d.ksCfg k
  if !d.hubOn || !bitOf v 3 || (d.key k).st ≥ 2 || (d.key k).round ≠ round then d
  else
    let d := d.ksSend 1 k instant.toNat round.toNat (portsOf (ksChildren v))
    let late := decide (instant.toNat < d.hub.ftime.ft.toNat)
    let d := if late then ((d.hwInc (aKs k 8) 32 16 1).event 0x5005 1 (leBytes 1 k.val ++ zeros 1 ++ leBytes 2 round.toNat)).hcnt 135 1 else d
    d.updKey k fun x => { x with st := 2, instant := instant }

/-- KEYSTONE_RELEASE (R276, R277). -/
def execKeystoneRelease (k : KeyId) (instant : Word) (round : BitVec 16) (s : State) : Host.Outcome State Fault Refusal :=
  onDev s fun d => d.ksReleaseIn k instant round

/-- KEYSTONE_RELEASE_INSTANT (R277). -/
def execKeystoneReleaseInstant (k : KeyId) (s : State) : Host.Outcome State Fault Refusal := onDev s fun d => d.ksDue k

/-- A break packet (R278). -/
def Dev.ksBreakIn (d : Dev) (k : KeyId) : Dev :=
  let v := d.ksCfg k
  if !d.hubOn || !bitOf v 3 || (d.key k).st = 3 then d
  else
    let d := d.ksBreak k none
    let l := last_of (ksLast v)
    if bitOf v 16 && (d.last l).st == .running then d.faultBare l 17 (BitVec.ofNat 64 (k.val + 2 ^ 63)) else d

/-- KEYSTONE_BREAK (R278). -/
def execKeystoneBreak (k : KeyId) (_port : LinkId) (s : State) : Host.Outcome State Fault Refusal := onDev s fun d => d.ksBreakIn k

/-- KS_CFG_WRITE (R278). -/
def execKsCfgWrite (k : KeyId) (v : Word) (s : State) : Host.Outcome State Fault Refusal := onDev s fun d => d.wr8 (aKs k 0) v

/-! Tile stealing. -/

/-- Movable groups of a core on one array: number, strand. -/
def Dev.movableGroups (d : Dev) (c : CoreId) (a : ArrayId) (l : LastId) : List (Nat × StrandId) :=
  let os := d.ops.filter fun o => o.core == c && o.ecore == c && o.earray == a && o.last == l && o.opcode == 0x42 && o.phase == Phase.queued
  os.filterMap fun o => match o.group with
    | some (n, true) => some (n, o.strand)
    | _ => none

/-- The operations of a group. -/
def Dev.groupOps (d : Dev) (c : CoreId) (g : Nat × StrandId) : List Op :=
  d.ops.filter fun o => o.core == c && o.strand == g.2 && (o.group.map fun y => y.1) == some g.1

/-- A thief array is eligible for the last (R167). -/
def Dev.thiefFor (d : Dev) (c : CoreId) (a : ArrayId) : Option LastId :=
  match d.halfOwner c a 0 with
  | none => none
  | some l =>
    if d.halfOwner c a 1 == some l && d.stealing l && (d.last l).st == .running && d.coreOn c &&
        allHalves.all (fun u => (d.queueOf c (.half a u)).isEmpty && !d.halfBusy c a u && (d.half c a u).drainEnd.isNone) &&
        !(d.ops.any fun o => o.ecore == c && o.earray == a && (o.opcode == 0x42 || o.isArr)) &&
        allTiles.any fun t => d.tileOwner c a t == some l && (d.tileOps c a t).isEmpty then some l else none

/-- The lowest tile of the thief that is free, with the next one for a tile pair (R168, R68). -/
def Dev.thiefTiles (d : Dev) (c : CoreId) (a : ArrayId) (l : LastId) (pair : Bool) : Option (List TileId) :=
  let free := fun (t : TileId) => d.tileOwner c a t == some l && (d.tileOps c a t).isEmpty
  if pair then (([0, 2] : List TileId).find? fun t => free t && free (t + 1)).map fun t => [t, t + 1]
  else (allTiles.find? free).map fun t => [t]

/-- Compiled width of an array in the last's image. -/
def Dev.compiledWidth (d : Dev) (l : LastId) (c : CoreId) (a : ArrayId) : Nat :=
  match (d.last l).image with
  | some i => (match i.cores.find? fun x => x.phys == c with
    | some x => x.widthOf a.val
    | none => 0)
  | none => 0

/-- The group moves to a thief array (R168). -/
def Dev.moveGroup (d : Dev) (v : CoreId) (va : ArrayId) (g : Nat × StrandId) (c : CoreId) (a : ArrayId) (l : LastId) : Option Dev :=
  let os := d.groupOps v g
  let tiles := os.foldl (fun (m : List TileId) o => if m.length < o.tiles.length then o.tiles else m) []
  let free := tiles.all fun t => (d.tileOps v va t).all fun o => os.any (fun x => x.id == o.id) || os.all fun x => decide (o.id < x.id)
  if d.width c a < d.compiledWidth l v va || !free then none
  else match d.thiefTiles c a l (tiles.length == 2) with
  | none => none
  | some new =>
    -- the victim tile's dispatched class returns to the class held now
    let d := { d with ops := d.ops.map fun (o : Op) =>
      if o.ecore == v && o.earray == va && o.tiles.any (fun t => tiles.contains t) then { o with noCls := true } else o }.noteLeft os
    let moved : List Op := os.map fun (o : Op) => { o with
      ecore := c, earray := a, tiles := new.take o.tiles.length, group := some (g.1, false), began := d.cycle }
    let d := { d with ops := (d.ops.filter fun (o : Op) => !(os.any fun (x : Op) => x.id == o.id)) ++ moved }
    some ((d.cnt v 57 1).cnt c 58 1)

/-- One thief array's turn (R167). -/
def Dev.stealFor (d : Dev) (die : DieId) (c : CoreId) (a : ArrayId) : Dev :=
  match d.thiefFor c a with
  | none => d
  | some l =>
    let rich := fun (v : CoreId) => allArrays.filter fun va => decide (2 ≤ (d.movableGroups v va l).length)
    match allCores.find? fun v => dieOf v == die && v != c && !(rich v).isEmpty with
    | none => d
    | some v =>
      let gs := (rich v).flatMap fun va => (d.movableGroups v va l).map fun g => (va, g)
      let age := fun (g : Nat × StrandId) => (d.groupOps v g).foldl (fun m o => min m o.id) d.nextOp
      let ok := gs.filter fun g => (d.moveGroup v g.1 g.2 c a l).isSome
      match ok with
      | [] => d
      | x :: rest =>
        let g := rest.foldl (fun b y => if age y.2 < age b.2 then y else b) x
        (d.moveGroup v g.1 g.2 c a l).getD d

/-- STEAL_ROUND (R167): at most one group per thief array. -/
def execStealRound (die : DieId) (s : State) : Host.Outcome State Fault Refusal :=
  onDev s fun d =>
    (allCores.filter fun c => dieOf c == die).foldl (fun (d : Dev) c => allArrays.foldl (fun (d : Dev) a => d.stealFor die c a) d) d

end Sys2Proof.Machine
end

