-- ==== Sys2Proof/Machine/Packets.lean ====
section
/-!
DEFINITION. The router (R259 to R261, R263), requests that arrive here and answers to this module's own (R248, R249), MEMR and
MEMW (R311), collective commands (R266).
-/

namespace Sys2Proof.Machine

/-! Routing. -/

/-- Where a packet goes from here. -/
inductive Hop where
  | deliver
  | out (l : LinkId)
  | lost
  deriving DecidableEq, Repr

/-- The entry of a destination, its port for the address, or the other port of the pair (R259, R261). -/
def Dev.hop (d : Dev) (dst addr : Nat) : Hop :=
  if 24 ≤ devZ dst then .lost
  else
    let e := d.route (devX dst + 32 * devY dst + 1024 * devZ dst)
    let p := if addr.testBit 12 then e / 16 % 16 else e % 16
    if !e.testBit 8 then .lost
    else if p = 12 then .deliver
    else if 12 < p then .lost
    else if d.routable (finOf 11 p) then .out (finOf 11 p)
    else if d.routable (finOf 11 (p ^^^ 1)) then .out (finOf 11 (p ^^^ 1))
    else .lost

/-- The dateline bit of a packet on an output (R260): cleared where the hop before was in another dimension, or there was none. -/
def Dev.withDl (d : Dev) (l : LinkId) (p : Packet) : Packet :=
  { p with dl := if bitOf (d.reg (aLnk l 0)) 1 then true else (p.via.any fun i => i.val / 4 == l.val / 4) && p.dl }

/-- A response of this module; one to itself does not pass the router. -/
def Dev.sendBack (d : Dev) (p : Packet) : Dev :=
  if p.dst.toNat = d.ownDev then d.updHub fun h => { h with delivered := h.delivered ++ [p] } else d.inject p

/-- The answer to a request (R248). -/
def Dev.respond (d : Dev) (q : Packet) (dst : DevAddr) (type status : Nat) (operand : Word) (data : List Byte) : Dev :=
  let d := d.sendBack { Packet.blank with
    type := type, cls := 1, src := BitVec.ofNat 15 d.ownDev, dst := dst, len := if data.isEmpty then 0 else BitVec.ofNat 12 (data.length - 1)
    addr := q.addr, tag := q.tag, status := BitVec.ofNat 8 status, operand := operand, data := data }
  if type = 6 then d.hcnt 131 1 else d

/-- A packet is discarded (R261): event 0x5004; a request is answered with an ERR. -/
def Dev.discard (d : Dev) (p : Packet) (status : Nat) (answer : Bool) : Dev :=
  let d := (d.event 0x5004 1 (leBytes 1 p.type ++ leBytes 1 p.cls ++ leBytes 2 p.src.toNat ++ leBytes 2 p.dst.toNat ++ leBytes 1 status)).hcnt 133 1
  if answer then d.respond p (if p.mc then p.issuer else p.src) 6 status 0 [] else d

/-- The multicast entry's root. -/
def mcRoot (e : Word) : Nat := fld e 15 15

/-- The group of a multicast write: on its way to the root it is in cid (log 54). -/
def mcGroup (p : Packet) : Nat := if p.mc then p.dst.toNat else p.cid.toNat

/-- A push from the fabric into Q16 to Q31 is held back by a replay of fabric entries: it stays in its buffer (R289). -/
def Dev.heldBack (d : Dev) (p : Packet) : Bool :=
  (p.type == 0 || p.type == 7) && d.replaying 3 &&
    (List.range 16).any fun i => overlaps (p.addr.toNat + p.done) (p.data.length - p.done) (aQue (finOf 31 (16 + i)) 0x40) 64

/-- The port that carries a tree copy: the one named, or the other of its pair (R261, R263). -/
def Dev.treePort (d : Dev) (l : LinkId) : Option LinkId :=
  if d.routable l then some l else if d.routable (finOf 11 (l.val ^^^ 1)) then some (finOf 11 (l.val ^^^ 1)) else none

/-- Where the router takes a packet: a multicast write that came along the tree is for the module that it has reached, and a copy of one goes to
its port (R263). -/
def Dev.hopOf (d : Dev) (p : Packet) : Hop :=
  match p.copyTo with
  | some l => (match d.treePort l with
    | some o => .out o
    | none => .lost)
  | none => if p.type = 7 && (p.mc || p.dst.toNat = d.ownDev) then .deliver else d.hop p.dst.toNat p.addr.toNat

/-- Classes in the order of service: control, response, collective, request (R250). -/
def classOrder : List Nat := [3, 1, 2, 0]

/-- The first packet of each lane, in the order of R250. -/
def laneHeads (ps : List Packet) : List Packet :=
  classOrder.flatMap fun c => ([true, false] : List Bool).filterMap fun b => ps.find? fun p => p.cls == c && p.dl == b

/-- The inputs of the router in rotation order, and what they hold. -/
def routerAt (i : Nat) : RouterIn := if h : i < 12 then .port ⟨i, h⟩ else .own
def routerInput : RouterIn → Nat
  | .port l => l.val
  | .own => 12
def Dev.inputOf (d : Dev) : RouterIn → List Packet
  | .own => d.hub.inject.filter fun p => p.copyTo.isNone
  | .port l => (d.link l).buf

/-- The input that a copy of a multicast write came in on. -/
def copyInput (p : Packet) : RouterIn :=
  match p.via with
  | some l => .port l
  | none => .own

/-- The packets that an input offers: the first of each lane, and the copies of the multicast writes that came in on it. -/
def Dev.offers (d : Dev) (r : RouterIn) : List Packet :=
  laneHeads (d.inputOf r) ++ d.hub.inject.filter fun p => p.copyTo.isSome && copyInput p == r

/-- The lane that a packet is to take on an output, and whether it can leave now. -/
def Dev.wants (d : Dev) (l : LinkId) (p : Packet) : Bool := decide (p.type < 10) && d.hopOf p == .out l && d.canSend l (d.withDl l p)

/-- What output `l` serves next (R250): nothing while a CTL packet of this module is ready for it, which goes ahead, then the first lane in order
with a packet that can leave, and of its inputs the next in rotation. -/
def Dev.nextOut (d : Dev) (l : LinkId) : Option (RouterIn × Packet) :=
  if (d.ctlReady l).isSome then none
  else
  let heads := (List.range 13).flatMap fun i => (d.offers (routerAt i)).filterMap fun p =>
    if d.wants l p then some (routerAt i, p) else none
  let lane := fun (x : RouterIn × Packet) => laneOf (d.withDl l x.2)
  (classOrder.flatMap fun c => [2 * c + 1, 2 * c]).findSome? fun v =>
    let xs := heads.filter fun x => (lane x).val == v
    let last := (d.link l).turn.get (finOf 7 v)
    (((List.range 13).map fun j => (last + 1 + j) % 13).findSome? fun i => xs.find? fun x => routerInput x.1 == i)

/-- The packet leaves its input; its flits free their credits (R252). -/
def Dev.takeFrom (d : Dev) (r : RouterIn) (p : Packet) : Dev :=
  match if p.copyTo.isSome then RouterIn.own else r with
  | .own => d.updHub fun h => { h with inject := eraseFirst (· == p) h.inject }
  | .port l => d.updLink l fun k =>
      let k := { k with buf := eraseFirst (· == p) k.buf }
      k.free p

/-- A CTL packet from the peer of a port (log 52). A MISCABLED link carries identity packets alone (Table 9.2). -/
def Dev.ctlIn (d : Dev) (l : LinkId) (p : Packet) : Dev :=
  let v := fun i => leAt p.data (1 + 8 * i) 8
  let key : KeyId := finOf 63 (v 0)
  let dev : DevAddr := BitVec.ofNat 15 (v 0)
  if !d.ctlOpen (leAt p.data 0 1) l then d
  else match leAt p.data 0 1 with
  | 0 => d.ksArrivalIn key l
  | 1 => d.ksReleaseIn key (BitVec.ofNat 64 (v 1)) (BitVec.ofNat 16 (v 2))
  | 2 => d.ksBreakIn key
  | 4 => d.identityIn l (BitVec.ofNat 64 (v 0)) (v 1) (BitVec.ofNat 8 (v 2))
  | 5 => d.offerIn l (v 0) (v 1) (v 2)
  | 6 => d.electionIn l (BitVec.ofNat 64 (v 0))
  | 7 => d.mapIn dev (BitVec.ofNat 12 (v 1))
  | 8 => d.crsShape ⟨v 0, v 1, v 2⟩
  | 9 => d.noticeIn dev (BitVec.ofNat 12 (v 1))
  | 10 => d.crsRelease (v 0 == 1)
  | 11 => d.peerIn l (v 0) (v 1) (v 2)
  | 12 => d.crsTaken dev (v 1)
  | 13 => d.crsDone dev
  | _ => d

/-- A packet at the head of a lane goes on, is delivered, or is discarded; none while it waits (R250, R251, R261). -/
def Dev.tryForward (d : Dev) (r : RouterIn) (p : Packet) : Option Dev :=
  let gone := d.takeFrom r p
  if 11 ≤ p.type then some (gone.discard p 5 false)
  else if p.type = 10 then (match r with
    | .port l => some (gone.ctlIn l p)
    | .own => some gone)
  else match d.hopOf p with
    | .deliver => if d.heldBack p then none else some (gone.updHub fun h => { h with delivered := h.delivered ++ [p] })
    | .lost => some (gone.discard p 3 (p.cls == 0 || p.cls == 2))
    | .out l =>
      match d.nextOut l with
      | some (q, x) =>
        if q = r ∧ x = p then
          let y := d.withDl l p
          some (((gone.sendPacket l y).updLink l fun k => { k with turn := vmap k.turn (laneOf y) fun _ => routerInput r }).hcnt 132 1)
        else none
      | none => none

/-- PACKET_FORWARD (R250, R251, R259 to R261): the input's first packet that the router serves now. -/
def execPacketForward (r : RouterIn) (s : State) : Host.Outcome State Fault Refusal :=
  onDev s fun d => if !d.hubOn then d else ((d.offers r).findSome? fun p => d.tryForward r p).getD d

/-! Requests that arrive. -/

/-- The packet as its header and data give it. -/
def asSent (p : Packet) : Packet := { p with via := none, done := 0, copyTo := none }

/-- The packet has been served. -/
def Dev.arrived (d : Dev) (p : Packet) : Dev := d.updHub fun h => { h with delivered := eraseFirst (fun x => asSent x == asSent p) h.delivered }

/-- The packet waits: so many bytes of it have been written. -/
def Dev.keepPacket (d : Dev) (p : Packet) (done : Nat) : Dev :=
  let same := fun x => asSent x == asSent p
  let q := { p with done := done }
  d.updHub fun h => { h with
    delivered := if h.delivered.any same then updFirst same (fun _ => q) h.delivered else h.delivered ++ [q] }

/-- Packets that arrive in the order they were sent (R248): of one class, source, destination and 4 KiB page. -/
def sameFlow (p q : Packet) : Bool := p.cls == q.cls && p.src == q.src && p.dst == q.dst && p.mc == q.mc && p.addr >>> 12 == q.addr >>> 12

/-- A request is served in its turn: behind the packets of its flow that came before it. One that has not been delivered by the
router arrives with its command (DESIGN CHOICE, log 12). -/
def Dev.inTurn (d : Dev) (p : Packet) (f : Packet → Dev → Dev) : Dev :=
  if !d.hubOn then d
  else match d.hub.delivered.find? (sameFlow p) with
    | none => f p d
    | some q => if asSent q == asSent p then f q d else d.keepPacket p p.done

/-- The data of a packet has the length that its header gives. -/
def formed (p : Packet) (data : Bool) : Bool := p.data.length == if data then p.len.toNat + 1 else 0

/-- A write arrives: done, or its error, or what is left of it waits. -/
def Dev.writeArrives (d : Dev) (p : Packet) (fin : Dev → Nat → Dev) : Dev :=
  let a := p.addr.toNat + p.done
  let bs := p.data.drop p.done
  if d.heldBack p then d.keepPacket p p.done
  else if !d.rangeAwake a bs.length then (d.rangeWake a bs.length).keepPacket p p.done
  else
    let w := d.rangePut 64 a bs .fabric
    match w.2.1 with
    | .ok _ => fin (w.1.arrived p) 0
    | .bad st => fin (w.1.arrived p) st
    | .wait => w.1.keepPacket p (p.done + w.2.2)

/-- WR (R248). -/
def execWr (p : Packet) (s : State) : Host.Outcome State Fault Refusal :=
  onDev s fun d =>
    if p.type ≠ 0 then d
    else d.inTurn p fun p d =>
      if !formed p true then (d.arrived p).respond p p.src 6 5 0 []
      else d.writeArrives p fun d st => (if st = 0 then d.respond p p.src 1 0 0 [] else d.respond p p.src 6 st 0 []).hcnt 130 1

/-- RD (R248). -/
def execRd (p : Packet) (s : State) : Host.Outcome State Fault Refusal :=
  onDev s fun d =>
    if p.type ≠ 2 then d
    else d.inTurn p fun p d =>
      if !formed p false then (d.arrived p).respond p p.src 6 5 0 []
      else
        let a := p.addr.toNat
        let n := p.len.toNat + 1
        let r := if d.rangeAwake a n then d.rangeRead 64 a n else (d.rangeWake a n, .wait)
        match r.2 with
          | .wait => r.1.keepPacket p 0
          | .ok bs => ((r.1.arrived p).respond p p.src 3 0 0 bs).hcnt 130 1
          | .bad st => ((r.1.arrived p).respond p p.src 6 st 0 []).hcnt 130 1

/-- AA (R183, R248). -/
def execAa (p : Packet) (s : State) : Host.Outcome State Fault Refusal :=
  onDev s fun d =>
    if p.type ≠ 4 then d
    else d.inTurn p fun p d =>
      if !formed p false || p.addr.toNat % 8 ≠ 0 then (d.arrived p).respond p p.src 6 5 0 []
      else
        let r := d.busAtomic p.addr.toNat p.operand
        match r.2 with
          | .wait => r.1.keepPacket p 0
          | .ok bs => ((r.1.arrived p).respond p p.src 5 0 (BitVec.ofNat 64 (leNat bs)) []).hcnt 130 1
          | .bad st => ((r.1.arrived p).respond p p.src 6 st 0 []).hcnt 130 1

/-- The copy of a multicast write for the tree (R263): the root's is a new packet, with dl 0; another goes on from its link. -/
def mcCopy (e : Word) (p : Packet) : Packet :=
  let q := { p with mc := true, dst := BitVec.ofNat 15 (mcGroup p), src := BitVec.ofNat 15 (mcRoot e), done := 0 }
  if p.mc then q else { q with via := none, dl := false }

/-- MWR (R263): at the root, or at a module that the tree reaches. The copies go to their ports, in their turn (R250), when the local write is
done. -/
def execMwr (p : Packet) (s : State) : Host.Outcome State Fault Refusal :=
  onDev s fun d =>
    if p.type ≠ 7 then d
    else d.inTurn p fun p d =>
      let e := d.mcEntry (mcGroup p)
      let root := !p.mc || decide (mcRoot e = d.ownDev)
      if !bitOf e 13 || (root && !bitOf e 14) then (d.arrived p).respond p p.issuer 6 6 0 []
      else if !formed p true then (d.arrived p).respond p p.issuer 6 5 0 []
      else
        let send := fun (d : Dev) => (portsOf (fld e 0 12)).foldl (fun (d : Dev) l => d.inject { mcCopy e p with copyTo := some l }) d
        if !bitOf e 12 then send (d.arrived p)
        else d.writeArrives p fun d st =>
          send ((if st = 0 then d.respond p p.issuer 8 0 1 [] else d.respond p p.issuer 6 st 0 []).hcnt 130 1)

/-! MEMR and MEMW. -/

/-- The job ends with its answer. -/
def Dev.memEnd (d : Dev) (j : MemJob) (status detail : Nat) (body : List Byte) : Dev :=
  (d.updAoc fun a => { a with memJob := none }).answer j.asker status detail body true

/-- Accesses go on, at most `f` of them, until one has to wait (R311). -/
def Dev.memRun : Nat → MemJob → Dev → Dev
  | 0, j, d => d.updAoc fun a => { a with memJob := some j }
  | f + 1, j, d =>
    if j.len ≤ j.done then d.memEnd j 0 0 (if j.write then [] else j.data)
    else
      let g := j.addr + BitVec.ofNat 64 j.done
      let a := fld g 0 48
      let n := natural (if region a == .regs then 8 else 64) a (j.len - j.done)
      let bs := (j.data.drop j.done).take n
      let stay := fun (d : Dev) (j : MemJob) => d.updAoc fun x => { x with memJob := some j }
      match d.targetOf g with
      | .here a =>
        let r := if j.write then d.busWrite a bs else d.busRead a n
        (match r.2 with
        | .ok b => Dev.memRun f { j with done := j.done + n, data := if j.write then j.data else j.data ++ b } r.1
        | .wait => stay r.1 j
        | .bad _ => r.1.memEnd j 5 j.done [])
      | .away _ _ =>
        let t := d.hub.nextTag
        if !d.hubOn then d.memEnd j 5 j.done [] else
        stay (if j.write then d.sendWrite .aoc g bs else d.sendRead .aoc g n) { j with tag := some t }
      | .group _ _ =>
        let t := d.hub.nextTag
        match if j.write && d.hubOn then d.sendMulticast .aoc g bs else none with
        | some d => stay d { j with tag := some t }
        | none => d.memEnd j 5 j.done []

/-- A job begins or goes on: its first access waits while its page has served another of the cycle (R392). -/
def Dev.memStart (d : Dev) (f : Nat) (j : MemJob) : Dev :=
  match d.targetOf (j.addr + BitVec.ofNat 64 j.done) with
  | .here a => if d.pageFree a then d.memRun f j else d.updAoc fun x => { x with memJob := some j }
  | _ => d.memRun f j

/-- A remote access of the job is answered. -/
def Dev.memReply (d : Dev) (tag : BitVec 16) (ans : Option (List Byte)) : Dev :=
  match d.aoc.memJob with
  | none => d
  | some j =>
    if j.tag ≠ some tag then d
    else match ans with
    | none => d.memEnd j 5 j.done []
    | some bs =>
      let a := fld (j.addr + BitVec.ofNat 64 j.done) 0 48
      let n := natural (if region a == .regs then 8 else 64) a (j.len - j.done)
      Dev.memRun j.len { j with done := j.done + n, data := if j.write then j.data else j.data ++ bs, tag := none } d

/-! Answers to this module's requests. -/

def Dev.findReq (d : Dev) (tag : BitVec 16) : Option Req := d.hub.reqs.find? fun r => r.tag == tag
def Dev.dropReq (d : Dev) (tag : BitVec 16) : Dev := d.updHub fun h => { h with reqs := h.reqs.filter fun r => r.tag != tag }

/-- A request has succeeded: the bytes it brought. -/
def Dev.reqDone (d : Dev) (r : Req) (bs : List Byte) : Dev :=
  let d := d.dropReq r.tag
  match r.who with
  | .acc c k id => (match (d.strand c k).access id with
    | some a => d.finishAcc c k a bs
    | none => d)
  | .hod h m _ => d.hodReply h m r.tag (some bs) 0
  | .aoc => d.memReply r.tag (some bs)
  | .notify _ => d
  | .col _ _ => d

/-- A request has failed with a status of Table 9.6 (R249). -/
def Dev.reqFail (d : Dev) (r : Req) (status : Nat) : Dev :=
  let f := d.failInfo r status
  let info := f.2
  let d := f.1.dropReq r.tag
  match r.who with
  | .acc c k id => (match (d.strand c k).access id with
    | some a => d.failAcc c k a 17 info
    | none => d)
  | .hod h m _ => d.hodReply h m r.tag none info
  | .aoc => d.memReply r.tag none
  | .notify _ => d
  | .col ch rank => if (d.chan ch).st = 1 then d.colFail ch 5 ((d.chan ch).ranks.getD rank 0).toNat else d

/-- A response of the type arrives in its turn; one that answers no outstanding request is discarded (R248). -/
def Dev.response (d : Dev) (p : Packet) (type : Nat) (f : Dev → Req → Dev) : Dev :=
  if p.type ≠ type then d
  else d.inTurn p fun p d => match d.findReq p.tag with
  | some r => f (d.arrived p) r
  | none => d.arrived p

/-- WACK (R248). -/
def execWack (p : Packet) (s : State) : Host.Outcome State Fault Refusal := onDev s fun d => d.response p 1 fun d r => d.reqDone r []

/-- RDR (R248). -/
def execRdr (p : Packet) (s : State) : Host.Outcome State Fault Refusal := onDev s fun d => d.response p 3 fun d r => d.reqDone r p.data

/-- AAR (R183, R248). -/
def execAar (p : Packet) (s : State) : Host.Outcome State Fault Refusal :=
  onDev s fun d => d.response p 5 fun d r => d.reqDone r (leBytes 8 p.operand.toNat)

/-- ERR (R249). -/
def execErr (p : Packet) (s : State) : Host.Outcome State Fault Refusal :=
  onDev s fun d => d.response p 6 fun d r =>
    let d := match r.who.core? with
      | some c => d.cnt c 60 1
      | none => d
    d.reqFail r p.status.toNat

/-- A module of a group has acknowledged: it is one of its members (R270). -/
def Dev.noteMember (d : Dev) (g : Nat) (m : DevAddr) : Dev :=
  d.updHub fun h => { h with members := match h.members.find? fun x => x.1 == g with
    | some x => if x.2.contains m then h.members else updFirst (fun y => y.1 == g) (fun y => (y.1, y.2 ++ [m])) h.members
    | none => h.members ++ [(g, [m])] }

/-- MACK (R263): the write completes with the last of its acknowledgements. -/
def execMack (p : Packet) (s : State) : Host.Outcome State Fault Refusal :=
  onDev s fun d => d.response p 8 fun d r =>
    let d := d.noteMember (fld r.addr 48 15) p.src
    if r.acks.length + 1 < r.need then
      d.updHub fun h => { h with reqs := updFirst (fun x => x.tag == r.tag) (fun x => { x with acks := x.acks ++ [p.src] }) h.reqs }
    else d.reqDone r []

/-- Multicast writes that wait for no member have completed (R263). -/
def Dev.countedReqs (d : Dev) : Dev := (d.hub.reqs.filter fun r => bitOf r.addr 63 && r.need == 0).foldl (fun (d : Dev) r => d.reqDone r []) d

/-- REQUEST_TIMEOUT (R249): status 8, decided here. -/
def execRequestTimeout (tag : BitVec 16) (s : State) : Host.Outcome State Fault Refusal :=
  onDev s fun d =>
    match d.findReq tag with
    | none => d
    | some r => if d.cycle < r.sent + d.timeout then d else d.reqFail r 8

/-! Collectives. -/

/-- COL_START (R266). -/
def execColStart (ch : ChanId) (v : Word) (s : State) : Host.Outcome State Fault Refusal := onDev s fun d => d.wr8 (aCol ch 0x40) v

/-- COL (R267 to R269). A packet that comes before the start waits for it. -/
def execCol (p : Packet) (s : State) : Host.Outcome State Fault Refusal :=
  onDev s fun d =>
    if p.type ≠ 9 then d
    else d.inTurn p fun p d => if d.colOn (colChan p) then (d.arrived p).colData (colChan p) p else d.keepPacket p 0

/-- COLLECTIVE_DONE (R266): the result is written, state 2 is set, notify is written. -/
def execCollectiveDone (ch : ChanId) (s : State) : Host.Outcome State Fault Refusal :=
  onDev s fun d =>
    let x := d.chan ch
    if !d.colOn ch then d
    else match d.colResult ch with
    | none => d
    | some bs =>
      let c := colDesc x.desc
      if !d.rangeAwake c.dst bs.length then d.rangeWake c.dst bs.length
      else if !d.pageFree c.dst then d
      else
        let d := (d.rangePut 64 c.dst bs).1
        let d := d.updChan ch fun x => { x with st := 2 }
        let d := d.updHub fun h => { h with reqs := h.reqs.filter fun r => match r.who with
          | .col q _ => q != ch
          | _ => true }
        let d := d.hcnt (126 + ch.val) (if c.op = 2 then c.count * c.nranks else c.count)
        if c.notify = 0 then d else d.notify none c.notify

end Sys2Proof.Machine
end

