-- ==== Sys2Proof/Machine/Ncp.lean ====
section
/-!
DEFINITION. NCP requests (R306 to R313, R419): arrival, acceptance, and what each request of Table 11.3 does. FWUPD and ATTEST
stand in Trust.lean.
-/

namespace Sys2Proof.Machine

/-! Arrival (R303, R304, R306, R307). -/

/-- The control port takes requests: from keeper service on, or port 0 in recovery (R337, R352). -/
def Dev.ncpServes (d : Dev) (p : CtlId) : Bool :=
  match d.aoc.trust.stage with
  | .keeper | .tested | .compute => p.val == 0 || d.dom .ctl1 == .on
  | .recovery => p.val == 0
  | _ => false

def Dev.ncpPort (d : Dev) : Nat := if leAt d.aoc.svc 30 2 = 0 then 52470 else leAt d.aoc.svc 30 2

/-- A frame discarded under R303 or R307. -/
def Dev.dropFrame (d : Dev) (p : CtlId) : Dev := d.hwInc (aCtlp p 8) 48 16 1

/-- Duplicate elimination of 802.1CB (Table 11.1): none when the frame is eliminated. The history is the module's. -/
def Dev.eliminate (d : Dev) (mac : BitVec 48) (tag : Option (BitVec 16)) : Option Dev :=
  match tag with
  | none => some d
  | some n =>
    let h := (d.ctl 0).history
    if h.contains (mac, n) then none
    else
      let h := if 32 ≤ (h.filter fun e => e.1 == mac).length then eraseFirst (fun e => e.1 == mac) h else h
      some (d.updCtl 0 fun c => { c with history := h ++ [(mac, n)] })

/-- A frame on a control port (R304): one with another VLAN ID is discarded, a duplicate eliminated. -/
def Dev.letIn (d : Dev) (p : CtlId) (t : EthTag) (k : Dev → Dev) : Dev :=
  if t.vid ≠ 0 && t.vid.toNat ≠ leAt d.aoc.svc 6 2 % 4096 then d
  else match d.eliminate t.mac t.rtag with
    | none => d.hwInc (aCtlp p 8) 32 16 1
    | some d => k d

/-- The payload is an NCP message that a host may send (R307). -/
def ncpFormed (b : List Byte) : Bool :=
  decide (32 ≤ b.length) && leAt b 0 2 == 0x4E5A && leAt b 2 1 == 1 && b.length == 32 + leAt b 12 4 && decide (leAt b 12 4 ≤ 8968) &&
  leAt b 3 1 != 0x20 && decide (leAt b 3 1 < 0x80)

/-- NCP_DATAGRAM_ARRIVAL (R303, R306, R307). -/
def execNcpDatagramArrival (p : CtlId) (g : Datagram) (s : State) : Host.Outcome State Fault Refusal :=
  onDev s fun d =>
    if !(d.ncpServes p && (d.ctl p).link) then d
    else d.letIn p ⟨g.mac, g.vid, g.rtag⟩ fun d =>
      if !g.sound then d.dropFrame p
      else if g.dport.toNat ≠ d.ncpPort then d
      else if !ncpFormed g.payload || 64 ≤ (d.ctl p).waiting.length then d.dropFrame p
      else (d.updCtl p fun c => { c with waiting := c.waiting ++ [g] }).updAoc fun a => { a with order := a.order ++ [p] }

/-! Acceptance (R308, R309). -/

/-- What a request type requires of its body (Table 11.3, R419): length, reserved bytes, fields with an invalid value; and
where it may be carried out: in recovery, in keeper service, during a replay. -/
structure ReqSpec where
  len : Nat
  zero : List Nat := []
  bad : List (Nat × Bool) := []
  recov : Bool := false
  keeper : Bool := false
  replay : Bool := false

/-- The detail of a malformed answer (R419). -/
def bodyFault (b : List Byte) (r : ReqSpec) : Option Nat :=
  if b.length < r.len then some b.length
  else if r.len < b.length then some r.len
  else
    let offs := (r.zero.filter fun o => b.getD o 0 != 0) ++ (r.bad.filter fun x => x.2).map fun x => x.1
    match offs with
    | [] => none
    | o :: os => some (os.foldl min o)

/-- Two requests have one key in the answer cache (R309). -/
def sameKey (a b : Asker) : Bool := a.src == b.src && a.sport == b.sport && a.reqId == b.reqId

/-- Some die in service has a core with what compute service needs (R341). -/
def Dev.computeUnits (d : Dev) : Bool :=
  d.hubOn && allCores.any fun c =>
    d.dom (.die (dieOf c)) != .out && d.dom (.core c) != .out && (allArrays.any fun a => decide (d.width c a ≠ 0)) &&
    (List.finRange 2).any fun h => d.hodGood c h.val

/-- Start-up still runs toward compute service (R339, R340). -/
def Dev.startingUp (d : Dev) : Bool := d.aoc.trust.stage != .tested || d.computeUnits

/-- A request that passed the body checks: the answers that keep it from being carried out (R309, R337, R340, R352, R419). -/
def Dev.ncpGate (d : Dev) (a : Asker) (r : ReqSpec) (k : Dev → Dev) : Dev :=
  let no := fun (status detail : Nat) => d.answer a status detail [] false
  let st := d.aoc.trust.stage
  if st == .recovery && !r.recov then no 4 0x11
  else if st != .recovery && st != .compute && !r.keeper then (if d.startingUp then no 3 0 else no 4 0x10)
  else if d.replaying 1 && !r.replay && !a.injected then no 6 0
  else if 256 ≤ d.aoc.cache.length + d.aoc.longs.length then no 3 0
  else k d

def Dev.ncpRun (d : Dev) (a : Asker) (b : List Byte) (r : ReqSpec) (k : Dev → Dev) : Dev :=
  match bodyFault b r with
  | some o => d.answer a 1 o [] false
  | none => d.ncpGate a r k

/-- A request is accepted (R308): counted, recorded (R285), and judged against its target and the answer cache (R309). -/
def Dev.ncpAccept (d : Dev) (p : CtlId) (src : BitVec 128) (sport : BitVec 16) (m : List Byte) (run : Dev → Asker → List Byte → Dev) : Dev :=
  let a : Asker := ⟨p, src, sport, BitVec.ofNat 32 (leAt m 4 4), leAt m 3 1⟩
  let d := ((d.hwInc (aCtlp p 8) 0 32 1).acnt 0 1).record 1 p.val m
  let target := leAt m 16 8
  if target ≠ 0 && target ≠ Config.serial.toNat then d.answer a 10 0 [] false
  else if a.injected then run d a (m.drop 32)
  else match d.aoc.cache.find? fun c => sameKey c.asker a with
    | some c => (d.emit (.answer a c.answer)).acnt 2 1
    | none => if d.aoc.longs.any fun l => sameKey l.asker a then d.answer a 9 0 [] false else run d a (m.drop 32)

/-- The oldest waiting request is this port's (R308). -/
def Dev.ncpFirst (d : Dev) (p : CtlId) : Bool := d.aoc.order.head?.all (· == p)

/-- The request at the head of a control port is taken, if it is the oldest of all and of the command's kind (R308). While a MEMR or MEMW goes on
no other request is taken; `hold` says that this one has to wait. -/
def Dev.ncpTake (d : Dev) (p : CtlId) (mine : List Byte → Bool) (run : Dev → Asker → List Byte → Dev)
    (hold : Dev → List Byte → Option Dev := fun _ _ => none) : Dev :=
  match (d.ctl p).waiting with
  | [] => d
  | g :: rest =>
    if !d.ncpServes p || !d.ncpFirst p || d.aoc.memJob.isSome || !mine g.payload then d
    else match hold d (g.payload.drop 32) with
      | some d => d
      | none => ((d.updCtl p fun c => { c with waiting := rest }).updAoc fun a => { a with order := a.order.drop 1 }).ncpAccept p g.src g.sport g.payload run

/-- The message has type `n`. -/
def isType (n : Nat) (m : List Byte) : Bool := leAt m 3 1 == n

/-- Types that Table 11.3 does not list. -/
def unknownType (m : List Byte) : Bool := leAt m 3 1 == 0 || decide (0x13 < leAt m 3 1)

def rng (lo hi : Nat) : List Nat := (List.range (hi - lo)).map fun i => lo + i

/-! Long requests (R308). -/

def Dev.startLong (d : Dev) (a : Asker) (scope : Option LastId) : Dev := d.updAoc fun x => { x with longs := x.longs ++ [⟨a, scope⟩] }

/-- A long request of module scope runs. -/
def Dev.moduleLong (d : Dev) : Bool := d.aoc.longs.any fun l => l.scope.isNone

/-- A checkpoint or a restore uses the save machinery. -/
def Dev.ckpBusy (d : Dev) : Bool :=
  let st := d.regFld (aCkp 8) 0 3
  st == 1 || st == 2 || st == 3 || !d.aoc.restoring.isEmpty

def stateCode (x : Last) : Nat := x.st.code

/-! The requests. -/

def Dev.runUnknown (d : Dev) (a : Asker) (_ : List Byte) : Dev := d.answer a 2 0 [] false

/-- IDENT. -/
def Dev.runIdent (d : Dev) (a : Asker) (b : List Byte) : Dev :=
  d.ncpRun a b { len := 0, recov := true, keeper := true, replay := true } fun d =>
    let r := d.aoc.rcd
    let dev := if d.hubOn && bitOf (d.reg (aFab 0x10)) 15 then d.regFld (aFab 0x10) 0 15 else 0xFFFF
    d.answer a 0 0 (leBytes 8 Config.serial.toNat ++ leBytes 2 0x8850 ++ [2, 0] ++ leBytes 4 d.aoc.trust.fwVersion.toNat ++ leBytes 2 dev ++
      (allLasts.flatMap fun l => leBytes 1 (d.last l).st.code) ++ zeros 2 ++ leBytes 4 r.secs ++ leBytes 4 r.cycles) true

/-- A LOAD that was accepted reads its image: once the stacks it lies in are awake (R330), the checks of R164 judge it. -/
def Dev.readImage (d : Dev) (l : LastId) (a : Asker) (b : List Byte) : Dev :=
  let x := leAt b 8 8
  let len := leAt b 16 8
  if d.imagePlace x len && !d.rangeAwake x len then (d.updLast l fun y => { y with reading := some (a, b) }).rangeWake x len
  else
    let d := d.updLast l fun y => { y with reading := none }
    let refuse := fun (d : Dev) (code : Nat) => (d.refuseLoad l.val code 0).reply (some a) 4 code []
    if !d.imagePlace x len then refuse d 1
    else
      let e := d.eccRead x len
      let d := e.1
      match e.2 with
      | some bad => d.reply (some a) 5 (bad - x) []
      | none =>
        let raw := d.rdMem x len
        let map := b.drop 32
        if !imageOk raw map then refuse d 1
        else if leAt raw 6 1 ≠ 2 then refuse d 2
        else
          let i := parseImage raw map (leAt b 24 8)
          let code := d.loadCheck l i
          if code ≠ 0 then refuse d code else d.beginLoad l i (some a) raw none

/-- LOADs that wait for a stack go on. -/
def Dev.loadsServe (d : Dev) : Dev :=
  allLasts.foldl (fun (d : Dev) l => match (d.last l).reading with
    | some r => d.readImage l r.1 r.2
    | none => d) d

/-- LOAD (R164, R310, R333): a long request, whose image is read while others are taken (R308). -/
def Dev.runLoad (d : Dev) (a : Asker) (b : List Byte) : Dev :=
  let n := leAt b 1 1
  d.ncpRun a b { len := 32 + n, zero := rng 2 8, bad := [(0, decide (7 < leAt b 0 1))] } fun d =>
    let l := last_of (leAt b 0 1)
    if d.longOn l || d.moduleLong then d.answer a 3 0 [] false
    else (d.startLong a (some l)).readImage l a b

/-- UNLOAD waits until what the last had in progress has ended (R310). -/
def Dev.holdUnload (d : Dev) (b : List Byte) : Option Dev :=
  if b.length = 8 && leAt b 0 1 < 8 && !d.lastQuiet (last_of (leAt b 0 1)) &&
    ((d.last (last_of (leAt b 0 1))).st == .stopped || (d.last (last_of (leAt b 0 1))).st == .done) then some d else none

/-- A request of a last: 8 bytes, or 16 with a second word. -/
def lastSpec (b : List Byte) (n : Nat) : ReqSpec := { len := n, zero := rng 1 8, bad := [(0, decide (7 < leAt b 0 1))] }

/-- A standing program that NCP intervened with is not restarted (R321). -/
def Dev.unwatch (d : Dev) (l : LastId) : Dev := d.updLast l fun x => { x with standing := x.standing.map fun s => { s with watched := false } }

def Dev.runUnload (d : Dev) (a : Asker) (b : List Byte) : Dev :=
  d.ncpRun a b (lastSpec b 8) fun d =>
    let l := last_of (leAt b 0 1)
    let x := d.last l
    if d.longOn l then d.answer a 3 0 [] false
    else if x.st == .empty || x.st == .running then d.answer a 8 x.st.code [] false
    else (d.unload l).answer a 0 0 [] true

def Dev.runLaunch (d : Dev) (a : Asker) (b : List Byte) : Dev :=
  d.ncpRun a b (lastSpec b 16) fun d =>
    let l := last_of (leAt b 0 1)
    let x := d.last l
    let t := leAt b 8 8
    if x.st != .loaded && x.st != .done then d.answer a 8 x.st.code [] false
    else if x.pendingLaunch.isSome then d.answer a 3 0 [] false
    else if t ≠ 0 && t ≤ d.hub.ftime.ft.toNat then d.answer a 7 0 [] false
    else
      let d := if t = 0 then d.launch l else d.updLast l fun y => { y with pendingLaunch := some (BitVec.ofNat 64 t) }
      d.answer a 0 0 [] true

def Dev.runHalt (d : Dev) (a : Asker) (b : List Byte) : Dev :=
  d.ncpRun a b (lastSpec b 8) fun d =>
    let l := last_of (leAt b 0 1)
    let x := d.last l
    -- a PAUSE of the last still runs, though the last is PAUSED: its digests are not complete
    let saving := x.st == .paused && x.pausing.any fun p => p.asker.isSome
    if x.st != .running && !saving then d.answer a 8 x.st.code [] false
    else
      let d := if saving then d.updLast l fun y => { y with st := .running } else d
      let d := (d.unwatch l).faultBare l 1 0
      let d := match x.pausing with
        | some p => ((d.updLast l fun y => { y with pausing := none }).reply p.asker 11 1 []).ckpCopy
        | none => d
      d.answer a 0 0 [] true

def Dev.runPause (d : Dev) (a : Asker) (b : List Byte) : Dev :=
  let f := leAt b 1 1
  let addr := BitVec.ofNat 64 (leAt b 8 8)
  d.ncpRun a b { len := 16, zero := rng 2 8, bad := [(0, decide (7 < leAt b 0 1)), (1, decide (3 < f)), (8, f % 2 == 1 && !d.saveAddrOk addr)] } fun d =>
    let l := last_of (leAt b 0 1)
    let x := d.last l
    if x.st != .running then d.answer a 8 x.st.code [] false
    else if d.longOn l || d.moduleLong then d.answer a 3 0 [] false
    else match x.pausing with
      | some p =>
        -- a CSAVE of this cycle governs the save (R199)
        if p.asker.isNone && p.csave.isSome && p.began == d.cycle then
          ((d.startLong a (some l)).unwatch l).updLast l fun y => { y with pausing := some { p with asker := some a, resume := false } }
        else d.answer a 3 0 [] false
      | none =>
        if f % 2 = 1 && d.ckpBusy then d.answer a 3 0 [] false
        else ((d.startLong a (some l)).unwatch l).startPause l
          ⟨if f % 2 = 1 then some addr.toNat else none, f == 3, some a, none, false, 0, d.cycle, f % 2 == 1⟩

def Dev.runLresume (d : Dev) (a : Asker) (b : List Byte) : Dev :=
  d.ncpRun a b (lastSpec b 8) fun d =>
    let l := last_of (leAt b 0 1)
    let x := d.last l
    if x.st != .paused then d.answer a 8 x.st.code [] false
    else if x.pausing.isSome || d.moduleLong then d.answer a 3 0 [] false
    else (d.resume l).answer a 0 0 [] true

/-- SRESUME (R161, R170, R310). A strand of a last that is on its way to PAUSED waits for its resume (DEDUCED, log 40). -/
def Dev.runSresume (d : Dev) (a : Asker) (b : List Byte) : Dev :=
  d.ncpRun a b { len := 8, zero := rng 2 8, bad := [(0, decide (127 < leAt b 0 1)), (1, decide (1 < leAt b 1 1))] } fun d =>
    let c : CoreId := finOf 127 (leAt b 0 1)
    let k : StrandId := finOf 1 (leAt b 1 1)
    let l := d.strandLast c k
    let paused := l.any fun l => (d.last l).st == .paused
    let pausing := l.any fun l => (d.last l).pausing.isSome
    if (d.strand c k).st != .trapped || paused then
      d.answer a 8 (match l with
        | some l => (d.last l).st.code
        | none => 0) [] false
    else
      (d.updStrand c k fun s => if pausing then { s with st := .paused, resume := .running } else { s with st := .running, notBefore := d.cycle + 1 }).answer a 0 0 [] true

/-- Bytes of the windows and pages that keeper service reaches (R340). -/
def keeperRange (a n : Nat) : Bool :=
  match region a with
  | .flash _ => decide (a + n ≤ dramBase)
  | .dram _ => decide (a + n ≤ dramBase + 0x4000000)
  | .regs => decide (a + n ≤ regBase + 0x70000)
  | _ => false

def Dev.memKeeper (d : Dev) (g : Word) (n : Nat) : Bool :=
  match d.targetOf g with
  | .here a => keeperRange a n
  | _ => false

/-- The range lies in this module's RPL page. -/
def Dev.memRpl (d : Dev) (g : Word) (n : Nat) : Bool :=
  match d.targetOf g with
  | .here a => decide (aRpl 0 ≤ a) && decide (a + n ≤ aRpl 0 + 0x10000)
  | _ => false

/-- MEMR (R311). -/
def Dev.runMemr (d : Dev) (a : Asker) (b : List Byte) : Dev :=
  let g := BitVec.ofNat 64 (leAt b 0 8)
  let n := leAt b 8 4
  d.ncpRun a b { len := 16, zero := rng 12 16, bad := [(0, bitOf g 63), (8, n == 0 || decide (8192 < n))], keeper := d.memKeeper g n, replay := true } fun d =>
    d.memStart (n + 1) ⟨a, false, g, n, 0, [], none⟩

/-- MEMW (R311). -/
def Dev.runMemw (d : Dev) (a : Asker) (b : List Byte) : Dev :=
  let g := BitVec.ofNat 64 (leAt b 0 8)
  let n := leAt b 8 4
  d.ncpRun a b { len := 16 + n, zero := rng 12 16, bad := [(8, n == 0)], keeper := d.memKeeper g n, replay := d.memRpl g n } fun d =>
    d.memStart (n + 1) ⟨a, true, g, n, 0, b.drop 16, none⟩

/-- A MEMR or MEMW that waited on this module goes on. -/
def Dev.memGoOn (d : Dev) (write : Bool) : Option Dev :=
  match d.aoc.memJob with
  | some j => if j.write == write && j.tag.isNone then some (d.memStart (j.len + 1) j) else some d
  | none => none

/-- SNAP (R312, R372). -/
def Dev.runSnap (d : Dev) (a : Asker) (b : List Byte) : Dev :=
  d.ncpRun a b { len := 8, zero := rng 2 8 } fun d =>
    if !d.hubOn then d.answer a 4 0x13 [] false else (d.plumbTrigger 1 (leAt b 0 2)).answer a 0 0 [] true

/-- EVREAD (R386). -/
def Dev.runEvread (d : Dev) (a : Asker) (b : List Byte) : Dev :=
  let n := leAt b 4 4
  d.ncpRun a b { len := 8, bad := [(4, n == 0 || decide (128 < n))], recov := true, keeper := true, replay := true } fun d =>
    d.answer a 0 0 (d.evread (leAt b 0 4) n) true

/-- COURSE (R255, R312). With the hub not ON coursing cannot start. -/
def Dev.runCourse (d : Dev) (a : Asker) (b : List Byte) : Dev :=
  d.ncpRun a b { len := 16, zero := [1, 5, 6, 7], bad := [(0, decide (1 < leAt b 0 1))] } fun d =>
    if !d.hubOn || d.hub.crs.state = 1 then d.answer a 3 0 [] false
    else (d.courseLinks.crsBegin (leAt b 0 1 == 1) (BitVec.ofNat 64 (leAt b 8 8)) ⟨leAt b 2 1, leAt b 3 1, leAt b 4 1⟩).answer a 0 0 [] true

/-- CKPT (R298, R300). -/
def Dev.runCkpt (d : Dev) (a : Asker) (b : List Byte) : Dev :=
  d.ncpRun a b { len := 0 } fun d =>
    if !bitOf (d.reg (aCkp 0)) 39 then d.answer a 4 0x20 [] false
    else if !d.aoc.longs.isEmpty || d.ckpBusy then d.answer a 3 0 [] false
    else
      let run := allLasts.filter fun l => (d.last l).st == .running
      let d := (d.startLong a none).ckpState 1
      let d := (run.filter fun l => (d.last l).pausing.isNone).foldl (fun (d : Dev) l => d.startPause l ⟨none, false, none, none, false, 0, d.cycle, true⟩) d
      (d.updHub fun h => { h with ckpt := some ⟨some a, d.cycle, 0, run, false⟩ }).ckpCopy

/-- RESTORE (R301). -/
def Dev.runRestore (d : Dev) (a : Asker) (b : List Byte) : Dev :=
  let addr := BitVec.ofNat 64 (leAt b 8 8)
  d.ncpRun a b { len := 16, zero := rng 2 8
                 bad := [(0, decide (1 < leAt b 0 1)), (1, decide (7 < leAt b 1 1)), (8, !d.saveAddrOk addr)] } fun d =>
    let l := last_of (leAt b 1 1)
    let one := leAt b 0 1 == 0
    if d.moduleLong || d.ckpBusy || (if one then d.longOn l else !d.aoc.longs.isEmpty) then d.answer a 3 0 [] false
    else (d.startLong a (if one then some l else none)).beginRestore ⟨addr.toNat, some a, none, if one then .last l else .module⟩

/-- SUBSCRIBE (R313). -/
def Dev.runSubscribe (d : Dev) (a : Asker) (b : List Byte) : Dev :=
  d.ncpRun a b { len := 24, zero := rng 4 8, bad := [(0, decide (3 < leAt b 0 1)), (1, decide (1 < leAt b 1 1))], keeper := true } fun d =>
    (d.updAoc fun x => { x with subs := vmap x.subs (finOf 3 (leAt b 0 1)) fun _ =>
      ⟨BitVec.ofNat 128 (leAt b 8 16), BitVec.ofNat 16 (leAt b 2 2), leAt b 1 1 == 1⟩ }).answer a 0 0 [] true

/-- RPLSTOP (R288). -/
def Dev.runRplstop (d : Dev) (a : Asker) (b : List Byte) : Dev :=
  d.ncpRun a b { len := 0, replay := true } fun d =>
    (d.wr8 (aRpl 0) (setFld (d.reg (aRpl 0)) 0 2 0)).answer a 0 0 [] true

/-! The commands. -/

def execNcpUnknownType (p : CtlId) (s : State) : Host.Outcome State Fault Refusal :=
  onDev s fun d => d.ncpTake p unknownType Dev.runUnknown
def execNcpIdent (p : CtlId) (s : State) : Host.Outcome State Fault Refusal :=
  onDev s fun d => d.ncpTake p (isType 1) Dev.runIdent
def execNcpLoad (p : CtlId) (s : State) : Host.Outcome State Fault Refusal :=
  onDev s fun d => d.ncpTake p (isType 2) Dev.runLoad
def execNcpUnload (p : CtlId) (s : State) : Host.Outcome State Fault Refusal :=
  onDev s fun d => d.ncpTake p (isType 3) Dev.runUnload Dev.holdUnload
def execNcpLaunch (p : CtlId) (s : State) : Host.Outcome State Fault Refusal :=
  onDev s fun d => d.ncpTake p (isType 4) Dev.runLaunch
def execNcpHalt (p : CtlId) (s : State) : Host.Outcome State Fault Refusal :=
  onDev s fun d => d.ncpTake p (isType 5) Dev.runHalt
def execNcpPause (p : CtlId) (s : State) : Host.Outcome State Fault Refusal :=
  onDev s fun d => d.ncpTake p (isType 6) Dev.runPause
def execNcpLresume (p : CtlId) (s : State) : Host.Outcome State Fault Refusal :=
  onDev s fun d => d.ncpTake p (isType 7) Dev.runLresume
def execNcpSresume (p : CtlId) (s : State) : Host.Outcome State Fault Refusal :=
  onDev s fun d => d.ncpTake p (isType 8) Dev.runSresume
def execNcpMemr (p : CtlId) (s : State) : Host.Outcome State Fault Refusal :=
  onDev s fun d => (d.memGoOn false).getD (d.ncpTake p (isType 9) Dev.runMemr)
def execNcpMemw (p : CtlId) (s : State) : Host.Outcome State Fault Refusal :=
  onDev s fun d => (d.memGoOn true).getD (d.ncpTake p (isType 10) Dev.runMemw)
def execNcpSnap (p : CtlId) (s : State) : Host.Outcome State Fault Refusal :=
  onDev s fun d => d.ncpTake p (isType 11) Dev.runSnap
def execNcpEvread (p : CtlId) (s : State) : Host.Outcome State Fault Refusal :=
  onDev s fun d => d.ncpTake p (isType 12) Dev.runEvread
def execNcpCourse (p : CtlId) (s : State) : Host.Outcome State Fault Refusal :=
  onDev s fun d => d.ncpTake p (isType 13) Dev.runCourse
def execNcpCkpt (p : CtlId) (s : State) : Host.Outcome State Fault Refusal :=
  onDev s fun d => d.ncpTake p (isType 14) Dev.runCkpt
def execNcpRestore (p : CtlId) (s : State) : Host.Outcome State Fault Refusal :=
  onDev s fun d => d.ncpTake p (isType 15) Dev.runRestore
def execNcpSubscribe (p : CtlId) (s : State) : Host.Outcome State Fault Refusal :=
  onDev s fun d => d.ncpTake p (isType 18) Dev.runSubscribe
def execNcpRplstop (p : CtlId) (s : State) : Host.Outcome State Fault Refusal :=
  onDev s fun d => d.ncpTake p (isType 19) Dev.runRplstop

/-- ANSWER_CACHE_EXPIRY (R309): an entry leaves once it has been held for 2 s of the A clock. -/
def execAnswerCacheExpiry (i : Nat) (s : State) : Host.Outcome State Fault Refusal :=
  onDev s fun d =>
    match d.aoc.cache[i]? with
    | some c => if d.cycle < c.sentAt + 2800000000 then d else d.updAoc fun x => { x with cache := x.cache.eraseIdx i }
    | none => d

/-- LAUNCH_AT_INSTANT (R142, R310). -/
def execLaunchAtInstant (l : LastId) (s : State) : Host.Outcome State Fault Refusal :=
  onDev s fun d =>
    match (d.last l).pendingLaunch with
    | some t => if d.hub.ftime.ft.toNat < t.toNat then d else d.launch l
    | none => d

end Sys2Proof.Machine
end

