-- ==== Sys2Proof/Machine/Tick.lean ====
section
/-!
DEFINITION. The end of an A-clock cycle (DESIGN CHOICE, log 3): the parts that only count, post and settle. Cycle.lean puts
them together.
-/

namespace Sys2Proof.Machine

/-- Scalar instructions whose result becomes available in this cycle complete (R149). -/
def Dev.dueCore (d : Dev) (c : CoreId) : Dev :=
  let due := (d.core c).posts.filter fun p => decide (p.due ≤ d.cycle)
  if due.isEmpty then d
  else
    let d := d.updCore c fun x => { x with posts := x.posts.filter fun p => !decide (p.due ≤ d.cycle) }
    due.foldl (fun d p => d.complete ⟨p.last, c, p.strand, p.pc, insnWord p.opcode p.w⟩) d

/-- Strands of a core that are HALTING with nothing outstanding become DONE (R197). -/
def Dev.settleCore (d : Dev) (c : CoreId) : Dev :=
  allStrands.foldl (fun d k => if (d.strand c k).st == .halting then d.settle c k else d) d

/-- A tally that something happened to in this cycle. -/
def Tally.touched (t : Tally) : Bool := decide (t.dec ≠ 0) || !t.inc.isEmpty || t.val.isSome || t.tset.isSome

/-- R151: the tally events of the cycle take effect together. -/
def Dev.foldTally (d : Dev) (c : CoreId) (t : TallyId) : Dev :=
  let x := (d.core c).tallies.get t
  if !x.touched then d
  else
    let d := if x.saturates then
        x.inc.foldl (fun d i => match i.origin with
          | some o => d.fault 14 o (BitVec.ofNat 64 t.val)
          | none => d.event 0x3005 1 (leBytes 1 c.val ++ leBytes 1 t.val))
          (d.hwSet (aTovf c) (BitVec.ofNat 64 (2 ^ t.val)) 0 0)
      else d
    d.updTally c t fun _ => ⟨x.fold, 0, [], none, none⟩

def Dev.foldCore (d : Dev) (c : CoreId) : Dev :=
  if (d.core c).tallies.toList.any Tally.touched then (List.finRange 64).foldl (fun d t => d.foldTally c t) d else d

/-- Why a strand did not dispatch in this cycle (Table 6.18): 0 where it dispatched, does not run, or could have. -/
def Dev.stallNow (d : Dev) (c : CoreId) (k : StrandId) : Nat :=
  let s := d.strand c k
  if s.st != .running || !d.coreOn c || (d.strandLast c k).isNone then 0
  else if (d.core c).lastDispatch == some d.cycle && (d.core c).lastStrand == k then 0
  else match s.fetched with
    | none => if badPc c s.pc s.pcWild then 0 else 4
    | some w =>
      let n := d.stallOf c k w
      if n = 0 && (d.core c).lastDispatch == some d.cycle then 6 else n

/-- The stall codes of a core are shown and counted (Tables 6.18, 14.4). -/
def Dev.stallCore (d : Dev) (c : CoreId) : Dev :=
  if !d.coreOn c then d
  else
    allStrands.foldl (fun d k =>
      let n := d.stallNow c k
      let d := if (d.strand c k).stall.toNat = n then d else d.setStall c k n
      if n = 0 then d else d.cnt c (2 + n + 7 * k.val) 1) (d.cnt c 0 1)

/-- The counter pages cleared in this cycle (Table 14.5), before the blocks latch what the cycle leaves (R373). -/
def Dev.clearPages (d : Dev) : Dev :=
  d.now.clrs.foldl (fun (d : Dev) b => { d with regs := skeep (fun a => !(decide (b ≤ a) && decide (a < b + 0x7F8))) d.regs }) d

/-- Operating seconds: each second since power good is counted at its end (R380). -/
def Dev.tickSecond (d : Dev) : Dev :=
  if (d.aoc.trust.stage != .unpowered || d.aoc.trust.heldOff == some 3) && (d.cycle + 1 - d.aoc.trust.goodAt) % 1400000000 = 0 && d.aoc.trust.goodAt ≤ d.cycle then
    d.updAoc fun a => { a with rcd := { a.rcd with secs := a.rcd.secs + 1 } }
  else d

/-- The cycle's counts move on: counters, tallies, fabric time, pins, and the counter pages cleared at its end. -/
def Dev.tickCounts (d : Dev) : Dev :=
  let d := allCores.foldl (fun d c => d.stallCore c) d
  let d := allCores.foldl (fun d c => d.foldCore c) d
  let d := if d.hubOn then d.hcnt 0 1 else d
  let d := d.plumbRaise.plumbDrop.clearPages.plumbLatch
  -- R271, R274: the count increases by 1, unless the slew holds it for this cycle
  let d := if d.hubOn && d.hub.ftime.run then
      d.updHub fun h => { h with ftime := { h.ftime with ft := if h.ftime.hold then h.ftime.ft else h.ftime.ft + 1, hold := false } }
    else d
  let d := d.updAoc fun a => { a with
    syncLow := a.syncLow.filter fun t => decide (d.cycle + 1 < t)
    syncIn := a.syncIn.filter fun t => decide (d.cycle + 1 < t)
    plumbLow := a.plumbLow.filter fun t => decide (d.cycle + 1 < t.2) }
  d.tickSecond

end Sys2Proof.Machine
end

