-- ==== Sys2Proof/Machine/Trust.lean ====
section
/-!
DEFINITION. Firmware trust, identity, attestation and firmware update (R345 to R371). The root keys and what the PUF gives are
constants of Config without a body (DESIGN CHOICE, log 10).
-/

namespace Sys2Proof.Machine

/-! Signatures (R345). -/

/-- A dual signature `sig` by the key pair `pub` over `body` under a purpose. -/
def dualValid (pub : List Byte) (purpose : Nat) (body sig : List Byte) : Bool :=
  let m := leBytes 4 purpose ++ body
  rsaVerify (pub.take 388) m (sig.take 384) && slhVerify slh192s ((pub.drop 388).take 48) m (sig.drop 384)

/-- The hashes of a root pair that the mask ROM holds: 0 of its RSA key, 1 of its SLH-DSA key (R346). -/
def rootHash (r part : Nat) : List Byte :=
  if part = 0 then sha384 ((Config.rootPub r).take 388) else sha384 (((Config.rootPub r).drop 388).take 48)

def Dev.flash (d : Dev) (o n : Nat) : List Byte := d.rdMem (flashBase + o) n

/-- Root pair 0 is revoked (R346). -/
def Dev.rev0 (d : Dev) : Bool := sget (fun _ => (0xFF : Byte)) d.otp 0 == 0

/-- A root pair in force signed the body. -/
def Dev.rootValid (d : Dev) (purpose : Nat) (body sig : List Byte) : Bool :=
  (!d.rev0 && dualValid (Config.rootPub 0) purpose body sig) || dualValid (Config.rootPub 1) purpose body sig

/-! The provisioning record (R355, R356). -/

def provBase (copy : Nat) : Nat := 0x10000 + 0x20000 * copy

/-- A copy's header is valid. -/
def Dev.provValid (d : Dev) (copy : Nat) : Bool :=
  let h := d.flash (provBase copy) 64
  leAt h 0 4 == 0x5250515A && leAt h 56 4 == crc32 (h.take 56) && leAt h 63 1 == 0x5A

def Dev.provSeq (d : Dev) (copy : Nat) : Nat := leAt (d.flash (provBase copy) 64) 4 4

/-- The copy in force: the newest at the boot; one committed since takes effect at the next (R355, R370). -/
def Dev.provCopy (d : Dev) : Option Nat := d.aoc.trust.prov

/-- The copy with a valid header and the higher seq. -/
def Dev.provNewest (d : Dev) : Option Nat :=
  match d.provValid 0, d.provValid 1 with
  | true, true => if d.provSeq 0 < d.provSeq 1 then some 1 else some 0
  | true, false => some 0
  | false, true => some 1
  | false, false => none

/-- Blocks of Table 13.6: offset and length of the body. -/
def blockOff (b : Nat) : Nat := 0x1000 + 0x6000 * b
def blockLen (b : Nat) : Nat :=
  match b with
  | 0 => 4208
  | 1 => 444
  | 2 => 640
  | _ => 16

def Dev.blockBody (d : Dev) (copy b : Nat) : List Byte := d.flash (provBase copy + blockOff b) (blockLen b)
def Dev.blockSig (d : Dev) (copy b : Nat) : List Byte := d.flash (provBase copy + blockOff b + 0x1C00) (384 + 16224)

/-- Serial 0 or the module's own. -/
def serialFits (n : Nat) : Bool := n == 0 || n == Config.serial.toNat

def Dev.ownerValid (d : Dev) (copy : Nat) : Bool :=
  d.rootValid 3 (d.blockBody copy 1) (d.blockSig copy 1) && serialFits (leAt (d.blockBody copy 1) 436 8)

/-- A block of a copy is valid. -/
def Dev.blockValid (d : Dev) (copy b : Nat) : Bool :=
  let body := d.blockBody copy b
  match b with
  | 0 => d.rootValid 2 body (d.blockSig copy 0) && leAt body 0 8 == Config.serial.toNat
  | 1 => d.ownerValid copy
  | 2 => d.ownerValid copy && dualValid ((d.blockBody copy 1).take 436) 4 body (d.blockSig copy 2)
  | _ => d.rootValid 5 body (d.blockSig copy 3) && serialFits (leAt body 8 8)

def Dev.provBlock (d : Dev) (b : Nat) : Bool :=
  match d.provCopy with
  | some c => d.blockValid c b
  | none => false

/-- Body of a block in force. -/
def Dev.provBody (d : Dev) (b : Nat) : List Byte :=
  match d.provCopy with
  | some c => if d.blockValid c b then d.blockBody c b else []
  | none => []

/-! The rollback floor (R353). -/

def popcount8 (b : Byte) : Nat := ((List.range 8).filter fun i => b.toNat.testBit i).length

/-- Programmed bytes of the counter. -/
def Dev.otpFloor (d : Dev) : Nat := ((List.range 512).filter fun i => decide (popcount8 (sget (fun _ => (0xFF : Byte)) d.otp (0x100 + i)) ≤ 4)).length

def Dev.signedFloor (d : Dev) : Nat := leAt (d.provBody 3) 0 4

def Dev.floor (d : Dev) : Nat := max d.otpFloor d.signedFloor

/-! Firmware copies (R348, R349). -/

/-- Flash offset of copy A (0) or B (1). -/
def copyBase (c : Nat) : Nat := 0x01000000 + 0x02000000 * c

def stageOf (m : List Byte) (i : Nat) : List Byte := (m.drop (512 + 64 * i)).take 64

/-- Check 1 of Table 13.4. -/
def manifestOk (m : List Byte) : Bool :=
  let n := leAt m 17 1
  let st := (List.range n).map fun i => stageOf m i
  leAt m 0 4 == 0x4657515A && leAt m 4 2 == 1 && decide (leAt m 7 1 < 2) && decide (1 ≤ n) && decide (n ≤ 16) &&
  ((m.drop 18).take 14).all (· == 0) && ((m.drop 468).take 44).all (· == 0) && ((m.take 4096).drop (512 + 64 * n)).all (· == 0) &&
  st.all (fun s => decide (1 ≤ leAt s 0 1) && decide (leAt s 0 1 ≤ 4) && leAt s 1 3 == 0 && decide (leAt s 4 4 + leAt s 8 4 ≤ 0x2000000) &&
    decide (leAt s 12 4 + leAt s 8 4 ≤ 0x4000000)) &&
  decide (st.foldl (fun t s => t + leAt s 8 4) 0 ≤ 0x1000000) && (st.filter fun s => leAt s 0 1 == 1).length == 1

/-- An uncorrectable flash error lies in the `n` bytes at offset `o` of a copy. -/
def Dev.copyError (d : Dev) (c o n : Nat) : Bool :=
  d.ecc.any fun e => e.2 && decide (flashBase + copyBase c + o ≤ e.1) && decide (e.1 < flashBase + copyBase c + o + n)

/-- Check 6 of Table 13.4 over the stages in order: 8 for a read error, 6 for a hash that differs, 0 for none. -/
def Dev.stageCode (d : Dev) (c : Nat) (m : List Byte) : Nat :=
  ((List.range (leAt m 17 1)).filterMap fun i =>
    let s := stageOf m i
    if d.copyError c (leAt s 4 4) (leAt s 8 4) then some 8
    else if sha384 (d.flash (copyBase c + leAt s 4 4) (leAt s 8 4)) ≠ s.drop 16 then some 6 else none).headD 0

/-- Checks 1 to 5 of Table 13.4: 0, or the code of the first that fails; a check that meets an uncorrectable read fails with 8. -/
def Dev.verifyHead (d : Dev) (c : Nat) : Nat :=
  let m := d.flash (copyBase c) 4096
  let r := leAt m 16 1
  let sig := d.flash (copyBase c + 0x1000) (384 + 16224)
  let msg := leBytes 4 1 ++ m
  if d.copyError c 0 4096 then 8
  else if !manifestOk m then 1
  else if leAt m 6 1 ≠ 2 then 2
  else if 1 < r || (r = 0 && d.rev0) || sha384 ((m.drop 32).take 388) ≠ rootHash r 0 || sha384 ((m.drop 420).take 48) ≠ rootHash r 1 then 3
  else if d.copyError c 0x1000 384 then 8
  else if !rsaVerify ((m.drop 32).take 388) msg (sig.take 384) then 4
  else if d.copyError c 0x1180 16224 then 8
  else if !slhVerify slh192s ((m.drop 420).take 48) msg (sig.drop 384) then 5
  else 0

/-- Table 13.4 from the code of checks 1 to 5 and that of check 6: 15 when the copy is verified. -/
def Dev.verdict (d : Dev) (c head stages : Nat) : Nat :=
  if head ≠ 0 then head
  else if stages ≠ 0 then stages
  else if leAt (d.flash (copyBase c) 4096) 8 4 < d.floor then 7
  else 15

/-- A copy is checked where it lies (R369). -/
def Dev.verifyCopy (d : Dev) (c : Nat) : Nat := d.verdict c (d.verifyHead c) (d.stageCode c (d.flash (copyBase c) 4096))

/-- Check 6 at a boot, stage by stage: a stage is copied into the pseudo-static DRAM and hashed from that copy (R349). -/
def Dev.copyStages (c : Nat) (m : List Byte) : Nat → Nat → Dev → Dev × Nat
  | 0, _, d => (d, 0)
  | n + 1, i, d =>
    let s := stageOf m i
    let len := leAt s 8 4
    let at_ := dramBase + leAt s 12 4
    if d.copyError c (leAt s 4 4) len then (d, 8)
    else
      let d := d.wrMem at_ (d.flash (copyBase c + leAt s 4 4) len)
      if sha384 (d.rdMem at_ len) ≠ s.drop 16 then (d, 6) else Dev.copyStages c m n (i + 1) d

/-- The mask ROM checks a copy (R349). -/
def Dev.verifyBoot (d : Dev) (c : Nat) : Dev × Nat :=
  let m := d.flash (copyBase c) 4096
  let head := d.verifyHead c
  if head ≠ 0 then (d, head)
  else
    let r := Dev.copyStages c m (leAt m 17 1) 0 d
    (r.1, r.1.verdict c 0 r.2)

/-! Boot-select records (R350). -/

structure BootRec where
  seq : Nat
  preferred : Nat
  state : Nat
  tries : Nat
  fail : Nat
  deriving DecidableEq, Repr

def bootBytes (r : BootRec) : List Byte :=
  let h := leBytes 4 0x5342515A ++ leBytes 4 r.seq ++ leBytes 1 r.preferred ++ leBytes 1 r.state ++ leBytes 1 r.tries ++ leBytes 1 r.fail ++ zeros 44
  h ++ leBytes 4 (crc32 h) ++ [0xFF, 0xFF, 0xFF, 0x5A]

/-- The newest valid record, with its slot. -/
def Dev.bootNewest (d : Dev) : Option (Nat × BootRec) :=
  let marks := (d.mem.filter fun e => decide (flashBase ≤ e.1) && decide (e.1 < flashBase + 0x10000) && e.1 % 64 == 63 && e.2 == 0x5A).map fun e =>
    (e.1 - flashBase) / 64
  let recs := marks.filterMap fun k =>
    let b := d.flash (64 * k) 64
    if leAt b 56 4 = crc32 (b.take 56) then some (k, (⟨leAt b 4 4, leAt b 8 1 % 2, leAt b 9 1, leAt b 10 1, leAt b 11 1⟩ : BootRec)) else none
  recs.foldl (fun (best : Option (Nat × BootRec)) r => match best with
    | some b => if b.2.seq < r.2.seq then some r else best
    | none => some r) none

def Dev.bootRec (d : Dev) : BootRec :=
  match d.bootNewest with
  | some r => r.2
  | none => ⟨0, 0, 0, 0, 0⟩

/-- A record is appended; when it begins a half, the other half is erased after it. -/
def Dev.bootAppend (d : Dev) (r : BootRec) : Dev :=
  match d.bootNewest with
  | none => d.wrMem flashBase (bootBytes { r with seq := 0 })
  | some old =>
    let k := (old.1 + 1) % 1024
    let d := d.wrMem (flashBase + 64 * k) (bootBytes { r with seq := old.2.seq + 1 })
    if k % 512 = 0 then d.eraseMem (flashBase + (if k = 0 then 0x8000 else 0)) 0x8000 else d

/-! Identity (R357, R358). -/

def Dev.identFault (d : Dev) (step : Nat) : Dev :=
  (d.updTrust fun t => { t with ident := 3, regenerating := false }).event 0x1005 3 (leBytes 1 step)

/-- The derived keys are compared with the factory block. -/
def Dev.identCheck (d : Dev) : Dev :=
  let f := d.provBody 0
  let t := d.aoc.trust
  if t.rsaKey.all fun k => sha384 k.pub ≠ (f.drop 16).take 48 then d.identFault 2
  else if t.slhKey.all fun k => sha384 k.pub ≠ (f.drop 64).take 48 then d.identFault 3
  else d.updTrust fun t => { t with ident := 1, regenerating := false }

/-- A label of R357: ASCII without terminator. -/
def label (s : String) : List Byte := s.toList.map fun c => BitVec.ofNat 8 c.toNat

def wrapKey (seed : List Byte) : List Byte := hkdf384 seed (label "QT8850 wrap") 32

def slhIdentity (seed : List Byte) : SlhKey :=
  slhKeygen slh192f (hkdf384 seed (label "QT8850 slh sk") 24) (hkdf384 seed (label "QT8850 slh prf") 24) (hkdf384 seed (label "QT8850 slh pk") 24)

/-- The key cache: nonce, both primes enciphered, tag (DESIGN CHOICE, log 10: the manual gives no layout of it). -/
def cacheLen : Nat := 12 + 384 + 16

/-- The wrapped RSA key in the cache, where it unwraps. -/
def Dev.cachedKey (d : Dev) (seed : List Byte) : Option RsaKey :=
  if d.ecc.any fun e => e.2 && decide (flashBase + 0x50000 ≤ e.1) && decide (e.1 < flashBase + 0x50000 + cacheLen) then none
  else (gcmUnwrap (wrapKey seed) (d.flash 0x50000 cacheLen) 384).map fun b => ⟨beNat (b.take 192), beNat (b.drop 192)⟩

/-- Identity at boot. Without a valid factory block nothing can be extracted. -/
def Dev.identBoot (d : Dev) : Dev :=
  match if d.provBlock 0 then Config.pufSeed (((d.provBody 0).drop 112).take 4096) d.aoc.rcd.cycles else none with
  | none => d.identFault 1
  | some seed =>
    let rsa := d.cachedKey seed
    let d := d.updTrust fun t => { t with seed := seed, slhKey := some (slhIdentity seed), rsaKey := rsa }
    if rsa.isSome then d.identCheck else d.updTrust fun t => { t with ident := 2, regenerating := true }

/-- `n` free bytes: a nonce, a salt (DESIGN CHOICE, log 10). -/
def Dev.freeBytes : Nat → Dev → List Byte × Dev
  | 0, d => ([], d)
  | n + 1, d =>
    let w := d.free
    let r := Dev.freeBytes n w.2
    (leBytes 8 w.1.toNat ++ r.1, r.2)

/-- RSA_REGENERATION_COMPLETE (R357, R358): the wrapped key goes to the cache. -/
def execRsaRegenerationComplete (s : State) : Host.Outcome State Fault Refusal :=
  onDev s fun d =>
    if !d.aoc.trust.regenerating then d
    else
      let seed := d.aoc.trust.seed
      match rsaGenerate (hkdf384 seed (label "QT8850 rsa") 48) with
      | none => d.identCheck
      | some k =>
        let iv := Dev.freeBytes 2 d
        let d := (iv.2.eraseMem (flashBase + 0x50000) 0x10000).wrMem (flashBase + 0x50000)
          (gcmWrap (wrapKey seed) (iv.1.take 12) (beBytes 192 k.p ++ beBytes 192 k.q))
        (d.updTrust fun t => { t with rsaKey := some k }).identCheck

/-! Mask ROM (R351, R352). -/

/-- A copy starts: the ROM and the stages are measured. -/
def Dev.startCopy (d : Dev) (c : Nat) (r : BootRec) : Dev :=
  let m := d.flash (copyBase c) 4096
  let st := (List.range (leAt m 17 1)).map fun i => (i, stageOf m i)
  let d := d.measure 1 0 Config.romDigest (Config.serial.toNat % 2 ^ 32)
  let d := st.foldl (fun (d : Dev) s => d.measure 2 s.1 (s.2.drop 16) (leAt m 8 4)) d
  d.updTrust fun t => { t with
    stage := .firmware, copyB := c == 1, trial := r.state == 1 && r.preferred == c, svn := leAt m 8 4
    fwVersion := BitVec.ofNat 32 (leAt m 12 4), raiseFloor := (leAt m 7 1) % 2 == 1 }

/-- The AOC reads the provisioning record (R319, R356). -/
def Dev.readProvision (d : Dev) : Dev :=
  let ok := (List.range 4).map fun b => (b, d.provBlock b)
  let d := ok.foldl (fun (d : Dev) b => if b.2 then d.measure 3 b.1 (sha384 (d.provBody b.1)) 0 else d.event 0x1004 2 (leBytes 1 b.1)) d
  let svc := d.provBody 2
  let d := d.updTrust fun t => { t with ownerOk := d.provBlock 1, svcOk := d.provBlock 2, floorOk := d.provBlock 3, signed := d.signedFloor }
  d.updAoc fun a => { a with
    svc := svc
    subs := a.subs.mapIdx fun i _ =>
      let e := svc.drop (256 + 32 * i)
      ⟨BitVec.ofNat 128 (leAt e 0 16), BitVec.ofNat 16 (leAt e 16 2), leAt e 18 1 % 2 == 1⟩ }

/-- The copies are tried in order; `code` is the fallback's reason so far. -/
def Dev.tryCopies (d : Dev) (r : BootRec) : List Nat → Nat → Dev
  | [], _ =>
    let t := d.aoc.trust
    (d.updTrust fun t => { t with stage := .recovery }).event 0x1003 3 (leBytes 1 t.resA ++ leBytes 1 t.resB)
  | c :: cs, code =>
    let r0 := d.verifyBoot c
    let v := r0.2
    let d := r0.1.updTrust fun t => if c = 0 then { t with resA := v } else { t with resB := v }
    if v ≠ 15 then Dev.tryCopies (d.event 0x1001 2 (leBytes 1 c ++ leBytes 1 v)) r cs v
    else
      let d := if code ≠ 0 then d.event 0x1002 2 (leBytes 1 c ++ leBytes 1 code) else d
      ((d.startCopy c r).readProvision.identBoot).examine .ctl1

/-- MASK_ROM_BOOT (R351). -/
def execMaskRomBoot (s : State) : Host.Outcome State Fault Refusal :=
  onDev s fun d =>
    if d.aoc.trust.stage != .good then d
    else
      let cause := d.regFld (aPwr 0) 8 3
      let d := d.bootRecorder
      let d := if 2 ≤ cause && cause ≤ 5 then d.event 0x2004 3 (leBytes 1 cause) else d
      let rc := d.bootRec
      let other := 1 - rc.preferred
      let expired := rc.state = 1 && rc.tries = 0
      let d := if expired then d.bootAppend ⟨0, other, 0, 0, 9⟩
        else if rc.state = 1 then d.bootAppend { rc with tries := rc.tries - 1 } else d
      let d := d.updTrust fun t => { t with prov := d.provNewest }
      let new := d.bootRec
      let d := (d.setRegFld (aTru 0x10) 8 8 new.fail).setReg (aTru 8) (BitVec.ofNat 64 d.otpFloor)
      d.tryCopies new (if expired then [other, rc.preferred] else [rc.preferred, other]) (if expired then 9 else 0)

/-! Attestation (R361, R362). -/

/-- Requests that stop at an identity fault or a regeneration (R357, R358). -/
def Dev.attest (d : Dev) (a : Asker) (b : List Byte) (r : ReqSpec) (k : Dev → Dev) : Dev :=
  d.ncpRun a b { r with zero := rng 1 8 ++ r.zero, keeper := true } fun d =>
    match d.aoc.trust.ident with
    | 3 => d.answer a 4 12 [] false
    | 1 => if d.moduleLong then d.answer a 3 0 [] false else k d
    | _ => d.answer a 3 0 [] false

/-- Quote body (Table 13.9). -/
def Dev.quoteBody (d : Dev) (nonce : List Byte) : List Byte :=
  let t := d.aoc.trust
  padTo 192 (leBytes 4 0x5451515A ++ leBytes 2 1 ++ [2] ++ leBytes 1 (b2n (decide (4096 < t.count)) + 2 * b2n t.trial + 4 * b2n t.copyB) ++
    leBytes 8 Config.serial.toNat ++ nonce ++ padTo 48 t.agg ++ leBytes 4 t.count ++ leBytes 4 t.svn ++ leBytes 4 d.floor ++
    leBytes 4 t.fwVersion.toNat ++ leBytes 4 d.aoc.rcd.secs ++ leBytes 4 d.aoc.rcd.cycles ++ leBytes 8 d.ftOrZero ++ leBytes 8 t.quotes)

/-- The identity keys that op 3 gives. -/
def Trust.identityPub (t : Trust) : List Byte := padTo 388 ((t.rsaKey.map RsaKey.pub).getD []) ++ padTo 48 ((t.slhKey.map SlhKey.pub).getD [])

/-- Op 0, and every op that Table 13.8 does not list (malformed at byte 0). -/
def Dev.runQuote (d : Dev) (a : Asker) (b : List Byte) : Dev :=
  d.attest a b { len := 56, bad := [(0, decide (3 < leAt b 0 1))] } fun d =>
    let body := d.quoteBody ((b.drop 8).take 48)
    let msg := leBytes 4 7 ++ body
    let n := d.aoc.trust.quotes
    let k := d.aoc.trust
    let salt := Dev.freeBytes 6 d
    let rnd := Dev.freeBytes 3 salt.2
    let sig := padTo 384 ((k.rsaKey.map fun k => k.sign msg salt.1).getD []) ++ padTo 35664 ((k.slhKey.map fun k => k.sign slh192f msg rnd.1).getD [])
    (rnd.2.updTrust fun t => { t with quote := body ++ sig, quotes := n + 1 }).answer a 0 0
      (leBytes 8 n ++ leBytes 4 36240 ++ zeros 4) true

/-- Op 1. -/
def Dev.runReadQuote (d : Dev) (a : Asker) (b : List Byte) : Dev :=
  let o := leAt b 8 4
  let n := leAt b 12 4
  let q := d.aoc.trust.quote
  d.attest a b { len := 16, bad := [(8, decide (q.length < o + n)), (12, n == 0 || decide (8192 < n))] } fun d =>
    d.answer a 0 0 ((q.drop o).take n) true

/-- Op 2. -/
def Dev.runReadLog (d : Dev) (a : Asker) (b : List Byte) : Dev :=
  let o := leAt b 8 4
  let n := leAt b 12 4
  let l := d.aoc.trust.log
  d.attest a b { len := 16, bad := [(8, decide (l.length < o + n)), (12, n == 0 || decide (128 < n))] } fun d =>
    d.answer a 0 0 (((l.drop o).take n).flatten) true

/-- Op 3. -/
def Dev.runIdentity (d : Dev) (a : Asker) (b : List Byte) : Dev :=
  d.attest a b { len := 8 } fun d =>
    d.answer a 0 0 (d.aoc.trust.identityPub ++ padTo 112 (d.provBody 0) ++ (match d.provCopy with
      | some c => d.blockSig c 0
      | none => [])) true

def isOp (n : Nat) (op : Nat → Bool) (m : List Byte) : Bool := isType n m && op (leAt m 32 1)

def execAttestQuote (p : CtlId) (s : State) : Host.Outcome State Fault Refusal :=
  onDev s fun d => d.ncpTake p (isOp 17 fun o => o == 0 || decide (3 < o)) Dev.runQuote
def execAttestReadQuote (p : CtlId) (s : State) : Host.Outcome State Fault Refusal :=
  onDev s fun d => d.ncpTake p (isOp 17 (· == 1)) Dev.runReadQuote
def execAttestReadLog (p : CtlId) (s : State) : Host.Outcome State Fault Refusal :=
  onDev s fun d => d.ncpTake p (isOp 17 (· == 2)) Dev.runReadLog
def execAttestIdentity (p : CtlId) (s : State) : Host.Outcome State Fault Refusal :=
  onDev s fun d => d.ncpTake p (isOp 17 (· == 3)) Dev.runIdentity

/-! Firmware update (R363 to R370). -/

def areaSize (area : Nat) : Nat :=
  match area with
  | 0 => 0x02000000
  | 1 => 0x08000000
  | _ => 0x20000

/-- The copy that area 0 names: the one that does not run. In recovery the manual does not say which of the two a request
means, so a free value picks it (DESIGN CHOICE, log 9). -/
def Dev.areaCopy (d : Dev) : Dev × Nat :=
  if d.aoc.trust.stage = .recovery then
    let w := d.free
    (w.2, fld w.1 0 1)
  else (d, if d.aoc.trust.copyB then 0 else 1)

/-- Flash offset of an area. -/
def Dev.areaBase (d : Dev) (area : Nat) : Dev × Nat :=
  match area with
  | 0 =>
    let c := d.areaCopy
    (c.1, copyBase c.2)
  | 1 => (d, 0x05000000)
  | _ => (d, provBase (match d.provCopy with
    | some 0 => 1
    | _ => 0))

/-- What every FWUPD request meets (R337, R352, R419); `n` data bytes follow the fields. -/
def Dev.fwupd (d : Dev) (a : Asker) (b : List Byte) (n : Nat) (bad : List (Nat × Bool)) (k : Dev → Dev) : Dev :=
  d.ncpRun a b { len := 16 + n, zero := [3], bad := (1, decide (2 < leAt b 1 1)) :: (2, decide (1 < leAt b 2 1)) :: bad, keeper := true
                 recov := leAt b 1 1 == 0 } fun d =>
    if d.moduleLong then d.answer a 3 0 [] false else k d

def Session.owner (s : Session) (a : Asker) : Bool := s.src == a.src && s.sport == a.sport

/-- A session request of its owner; one from elsewhere is busy, one without a session malformed (R364). -/
def Dev.inSession (d : Dev) (a : Asker) (k : Dev → Session → Dev) : Dev :=
  match d.aoc.session with
  | none => d.answer a 1 0 [] false
  | some s => if s.owner a then k d s else d.answer a 3 0 [] false

def Dev.closeSession (d : Dev) : Dev := d.updAoc fun x => { x with session := none }

/-- Op 0, and every op that Table 13.10 does not list (malformed at byte 0). -/
def Dev.runBegin (d : Dev) (a : Asker) (b : List Byte) : Dev :=
  let area := leAt b 1 1
  let n := leAt b 4 4
  let o := leAt b 8 8
  d.fwupd a b 0 [(0, decide (4 < leAt b 0 1)), (4, decide (areaSize area < o + n)), (8, area != 1 && o != 0)] fun d =>
    if d.aoc.session.any fun s => !s.owner a then d.answer a 3 0 [] false
    else if area = 0 && d.aoc.trust.trial then d.answer a 3 0 [] false
    else
      let x := d.areaBase area
      let lo := x.2 + o
      let first := lo / 0x10000 * 0x10000
      let d := if n = 0 then x.1 else x.1.eraseMem (flashBase + first) (ceilDiv (lo + n) 0x10000 * 0x10000 - first)
      (d.updAoc fun y => { y with session := some ⟨a.src, a.sport, area, lo, lo + n, 0⟩ }).answer a 0 0 [] true

/-- Flash programming clears bits and sets none (PRESUMED, log 10): the first of the bytes that cannot be programmed where they go. -/
def Dev.programFail (d : Dev) (a : Nat) (bs : List Byte) : Option Nat :=
  (List.range bs.length).find? fun i => (d.byte (a + i) &&& bs.getD i 0) != bs.getD i 0

/-- Op 1. A write that meets bytes not erased, which it cannot program, ends in a memory error at the first of them. An offset counts from the area's start; areas 0 and 2 begin where their session does. -/
def Dev.runWrite (d : Dev) (a : Asker) (b : List Byte) : Dev :=
  let n := leAt b 4 4
  let o := leAt b 8 8
  d.fwupd a b n [(4, decide (8192 < n))] fun d =>
    d.inSession a fun d s =>
      let lo := (if s.area = 1 then 0x05000000 else s.lo) + o
      if s.area ≠ leAt b 1 1 then d.answer a 1 1 [] false
      else if lo < s.lo || s.hi < lo + n then d.answer a 1 8 [] false
      else match d.programFail (flashBase + lo) (b.drop 16) with
        | some i => (d.wrMem (flashBase + lo) ((b.drop 16).take i)).answer a 5 i [] false
        | none => ((d.wrMem (flashBase + lo) (b.drop 16)).updAoc fun y => { y with session := some { s with written := s.written + n } }).answer a 0 0 [] true

/-- A standing entry of a service section lies in the written range of area 1. -/
def entryIn (svc : List Byte) (e lo hi : Nat) : Bool :=
  let x := svc.drop (384 + 32 * e)
  leAt x 13 1 % 2 == 1 && decide (lo < leAt x 0 4 + leAt x 4 4) && decide (leAt x 0 4 < hi)

/-- Codes 4 or 5 of a standing image's dual signature (R360): 0 when it verifies. -/
def Dev.standingCode (d : Dev) (pub svc : List Byte) (e : Nat) : Nat :=
  let x := svc.drop (384 + 32 * e)
  let off := leAt x 0 4
  let len := leAt x 4 4
  let sig := d.flash (ceilDiv (off + len) 64 * 64) (384 + 16224)
  let msg := leBytes 4 6 ++ d.flash off len
  if !rsaVerify (pub.take 388) msg (sig.take 384) then 4
  else if !slhVerify slh192s ((pub.drop 388).take 48) msg (sig.drop 384) then 5 else 0

/-- 0 for a valid dual signature, else 4 or 5 for the part that fails first (R349, R370). -/
def dualCode (pub : List Byte) (purpose : Nat) (body sig : List Byte) : Nat :=
  let m := leBytes 4 purpose ++ body
  if !rsaVerify (pub.take 388) m (sig.take 384) then 4
  else if !slhVerify slh192s ((pub.drop 388).take 48) m (sig.drop 384) then 5 else 0

/-- The same under the root pairs in force: 0 where one of them signed, else the code of the pair that came furthest. -/
def Dev.rootCode (d : Dev) (purpose : Nat) (body sig : List Byte) : Nat :=
  let c1 := dualCode (Config.rootPub 1) purpose body sig
  if d.rev0 then c1
  else
    let c0 := dualCode (Config.rootPub 0) purpose body sig
    if c0 = 0 || c1 = 0 then 0 else max c0 c1

/-- Service section and owner keys of the newest provisioning record: those of a record committed since the boot (R370). -/
def Dev.newService (d : Dev) : List Byte × List Byte :=
  match d.provNewest with
  | some c => (if d.blockValid c 2 then d.blockBody c 2 else [], d.blockBody c 1)
  | none => ([], [])

/-- R370 for area 2: 0, or the code. -/
def Dev.provCommit (d : Dev) (copy : Nat) : Nat :=
  let h := d.flash (provBase copy) 64
  let old := d.provCopy
  let floorFree := (d.blockBody copy 3).all (· == 0xFF)
  let own := d.rootCode 3 (d.blockBody copy 1) (d.blockSig copy 1)
  let svc := dualCode ((d.blockBody copy 1).take 436) 4 (d.blockBody copy 2) (d.blockSig copy 2)
  let flo := d.rootCode 5 (d.blockBody copy 3) (d.blockSig copy 3)
  if leAt h 0 4 ≠ 0x5250515A || leAt h 56 4 ≠ crc32 (h.take 56) then 1
  else if (match old with
    | some c => leAt h 4 4 ≠ d.provSeq c + 1 || d.blockBody copy 0 ≠ d.blockBody c 0 || d.blockSig copy 0 ≠ d.blockSig c 0
    | none => false) then 1
  else if own ≠ 0 then own
  else if !serialFits (leAt (d.blockBody copy 1) 436 8) then 1
  else if svc ≠ 0 then svc
  else if floorFree then 0
  else if flo ≠ 0 then flo
  else if !serialFits (leAt (d.blockBody copy 3) 8 8) then 1
  else if leAt (d.blockBody copy 3) 0 4 < d.signedFloor then 7 else 0

/-- Op 2 (R369, R370). -/
def Dev.runCommit (d : Dev) (a : Asker) (b : List Byte) : Dev :=
  d.fwupd a b 0 [] fun d =>
    d.inSession a fun d s =>
      if s.area ≠ leAt b 1 1 then d.answer a 1 1 [] false
      else
        let copy := if s.area = 0 then (s.lo - copyBase 0) / 0x02000000 else (s.lo - provBase 0) / 0x20000
        let code := match s.area with
          | 0 => d.verifyCopy copy % 15
          | 1 =>
            let n := d.newService
            ((List.range 8).filterMap fun e =>
              if entryIn n.1 e s.lo s.hi && d.standingCode n.2 n.1 e ≠ 0 then some (d.standingCode n.2 n.1 e) else none).headD 0
          | _ => d.provCommit copy
        let svn := if s.area = 0 then leNat (d.flash (s.lo + 8) 4) else 0
        let d := d.closeSession.event 0x1007 0 (leBytes 1 s.area ++ leBytes 1 code ++ leBytes 4 svn)
        if code ≠ 0 then d.answer a 4 code [] true
        else match s.area with
          | 0 =>
            let rec_ := d.aoc.trust.stage == .recovery
            let d := (d.bootAppend ⟨0, copy, 1, 3, d.bootRec.fail⟩).answer a 0 0 [] true
            if rec_ || leAt b 2 1 % 2 = 1 then d.protect 5 none else d
          | 1 => d.answer a 0 0 [] true
          | _ => (d.wrMem (flashBase + provBase copy + 63) [0x5A]).answer a 0 0 [] true

/-- Op 3. -/
def Dev.runAbort (d : Dev) (a : Asker) (b : List Byte) : Dev :=
  d.fwupd a b 0 [] fun d => d.inSession a fun d _ => d.closeSession.answer a 0 0 [] true

/-- Op 4. -/
def Dev.runStatus (d : Dev) (a : Asker) (b : List Byte) : Dev :=
  d.fwupd a b 0 [] fun d =>
    d.answer a 0 0 (match d.aoc.session with
      | some s => leBytes 1 s.area ++ [1, 0, 0] ++ leBytes 4 s.written ++ leBytes 16 s.src.toNat
      | none => zeros 24) true

def execFwupdBegin (p : CtlId) (s : State) : Host.Outcome State Fault Refusal :=
  onDev s fun d => d.ncpTake p (isOp 16 fun o => o == 0 || decide (4 < o)) Dev.runBegin
def execFwupdWrite (p : CtlId) (s : State) : Host.Outcome State Fault Refusal :=
  onDev s fun d => d.ncpTake p (isOp 16 (· == 1)) Dev.runWrite
def execFwupdCommit (p : CtlId) (s : State) : Host.Outcome State Fault Refusal :=
  onDev s fun d => d.ncpTake p (isOp 16 (· == 2)) Dev.runCommit
def execFwupdAbort (p : CtlId) (s : State) : Host.Outcome State Fault Refusal :=
  onDev s fun d => d.ncpTake p (isOp 16 (· == 3)) Dev.runAbort
def execFwupdStatus (p : CtlId) (s : State) : Host.Outcome State Fault Refusal :=
  onDev s fun d => d.ncpTake p (isOp 16 (· == 4)) Dev.runStatus

/-- FWUPD_SESSION_TIMEOUT (R364). -/
def execFwupdSessionTimeout (s : State) : Host.Outcome State Fault Refusal := onDev s fun d => d.closeSession

end Sys2Proof.Machine
end

