-- ==== Sys2Proof/Machine/Start.lean ====
section
/-!
DEFINITION. Start-up and standing programs: power good to compute service (R337 to R341), the self-test (R84, R338, R396, R399),
protective resets (R336, R404), the loader's writes (R164), standing programs (R320, R321).
-/

namespace Sys2Proof.Machine

/-! Power and resets. -/

/-- POWER_GOOD (R337): the AOC starts. A thermal trip still holds start-up off. -/
def execPowerGood (s : State) : Host.Outcome State Fault Refusal :=
  onDev s fun d =>
    if d.aoc.trust.stage == .unpowered && d.aoc.trust.heldOff != some 3 then
      d.updTrust fun t => { t with stage := .good, heldOff := none, goodAt := d.cycle }
    else d

/-- The module is powered. -/
def Dev.powered (d : Dev) : Bool := d.aoc.trust.stage != .unpowered || d.aoc.trust.heldOff == some 3

/-- The pseudo-static DRAM loses its content with the supply. -/
def Dev.loseDram (d : Dev) : Dev := d.forget fun a => decide (dramBase ≤ a) && decide (a < dramBase + 0x4000000)

/-- BROWN_OUT (R336). -/
def execBrownOut (s : State) : Host.Outcome State Fault Refusal := onDev s fun d => if d.powered then d.protect 2 (some 2) else d

/-- THERMAL_TRIP (R336). -/
def execThermalTrip (s : State) : Host.Outcome State Fault Refusal :=
  onDev s fun d => if d.aoc.trust.stage != .unpowered then d.protect 3 (some 3) else d

/-- THERMAL_RESUME (R336). -/
def execThermalResume (s : State) : Host.Outcome State Fault Refusal :=
  onDev s fun d =>
    if d.aoc.trust.heldOff == some 3 then d.updTrust fun t => { t with stage := .good, heldOff := none, goodAt := d.cycle } else d

/-- WATCHDOG_EXPIRY (R336). -/
def execWatchdogExpiry (s : State) : Host.Outcome State Fault Refusal :=
  onDev s fun d => if d.aoc.trust.stage != .unpowered && d.aoc.trust.stage != .good then d.protect 4 none else d

/-- OVER_VOLTAGE (R404): the input switch opens. -/
def execOverVoltage (s : State) : Host.Outcome State Fault Refusal := onDev s fun d => (d.goDown .unpowered (some 0) 1).loseDram

/-- POWER_LOSS (R403). -/
def execPowerLoss (s : State) : Host.Outcome State Fault Refusal := onDev s fun d => (d.goDown .unpowered none 1).loseDram

/-! Keeper service (R339, R351, R354). -/

/-- OTP bytes are programmed up to the running copy's svn (R354). -/
def Dev.raiseFloor (d : Dev) : Dev :=
  let t := d.aoc.trust
  let old := d.otpFloor
  if !t.raiseFloor || t.trial || t.svn ≤ old then d
  else
    let n := min t.svn 512
    let d := { d with otp := (rng old n).foldl (fun o i => sset (fun _ => (0xFF : Byte)) o (0x100 + i) 0) d.otp }
    (d.setReg (aTru 8) (BitVec.ofNat 64 d.otpFloor)).event 0x1006 0 (leBytes 2 old ++ leBytes 2 d.otpFloor)

/-- A trial copy that reaches keeper service is confirmed (R351). -/
def Dev.confirm (d : Dev) : Dev :=
  let r := d.bootRec
  if d.aoc.trust.trial && r.state = 1 && r.preferred = b2n d.aoc.trust.copyB then
    (d.bootAppend { r with state := 0, tries := 0 }).updTrust fun t => { t with trial := false }
  else d

/-- KEEPER_SERVICE_READY (R337, R339, R342). The compute stages begin: hub, dies, cores and stacks are turned ON. -/
def execKeeperServiceReady (s : State) : Host.Outcome State Fault Refusal :=
  onDev s fun d =>
    if d.aoc.trust.stage != .firmware then d
    else
      let d := (d.confirm.raiseFloor).updTrust fun t => { t with stage := .keeper }
      let d := (d.setRegFld (aPwr 0) 0 2 1).updAoc fun a => { a with presentDriven := true }
      let xs : List Dom := [.hub] ++ allDies.map (fun i => .die i) ++ allCores.map (fun c => .core c) ++ allStacks.map fun m => .stack m
      xs.foldl (fun (d : Dev) x => d.turnOn x) d

/-! The self-test (R84, R338). -/

def SelfTestOut (d : Dev) (kind index sub : Nat) : Dev := d.event 0x2001 2 (leBytes 1 kind ++ leBytes 2 index ++ leBytes 2 sub)

/-- A unit is put out of service. -/
def Dev.setOut (d : Dev) (x : Dom) : Dev := (d.setTarget x 0).setDom x .out

def arrayTest (r : SelfTest) (k : Nat) : ArrayTest :=
  match r.arrays.find? fun e => e.1 == k with
  | some e => e.2
  | none => ⟨0, false⟩

/-- The core fails before its arrays are tested. -/
def coreBad (r : SelfTest) (c : CoreId) : Bool :=
  r.seqBad.contains c || (r.bankBad.any fun b => b.1 == c) || (r.hodBad.contains (c, 0) && r.hodBad.contains (c, 1)) || r.dieBad.contains (dieOf c)

/-- COLM_W of an array: width and why (R84, R399). -/
def arrayWidth (r : SelfTest) (c : CoreId) (a : ArrayId) : Nat × Nat :=
  let t := arrayTest r (4 * c.val + a.val)
  let n := 64 - ((List.range 64).filter fun i => t.failed.toNat.testBit i).length
  if coreBad r c then (0, 3) else if t.pathBad then (0, 2) else if n < 62 then (0, 1) else (n, 0)

/-- The physical column on which logical column `j` lies (R400): the `j`-th one that the map does not bypass. -/
def physColumn (map : Word) (j : Nat) : Option Nat := ((List.range 64).filter fun p => !map.toNat.testBit p)[j]?

/-- The core goes OUT. -/
def coreGone (r : SelfTest) (c : CoreId) : Bool := coreBad r c || allArrays.all fun a => (arrayWidth r c a).1 == 0

def stackGone (r : SelfTest) (m : StackId) : Bool := r.stackBad.contains m || r.dieBad.contains (finOf 1 (m.val / 4))

/-- The HBM map chosen (R206): ways and group. -/
def hbmMap (r : SelfTest) : Nat × Nat :=
  let ok := fun (l : List Nat) => l.all fun m => !stackGone r (finOf 7 m)
  if ok [0, 1, 2, 3, 4, 5, 6, 7] then (8, 0) else if ok [0, 1, 2, 3] then (4, 0) else if ok [4, 5, 6, 7] then (4, 1) else (0, 0)

/-- Units that failed go OUT, each with its event. -/
def Dev.selfTestUnits (d : Dev) (r : SelfTest) : Dev :=
  let d := r.bankBad.foldl (fun (d : Dev) b => SelfTestOut d 7 b.1.val b.2.val) d
  let d := r.hodBad.foldl (fun (d : Dev) h => SelfTestOut d 3 h.1.val h.2.val) d
  let d := allCores.foldl (fun (d : Dev) c =>
    if coreBad r c then d
    else allArrays.foldl (fun (d : Dev) a => if (arrayWidth r c a).1 = 0 then SelfTestOut d 2 c.val a.val else d) d) d
  let d := allCores.foldl (fun (d : Dev) c => if coreGone r c then SelfTestOut (d.setOut (.core c)) 1 c.val 0 else d) d
  let d := r.dieBad.foldl (fun (d : Dev) i => SelfTestOut (d.setOut (.die i)) 4 i.val 0) d
  let d := allStacks.foldl (fun (d : Dev) m => if stackGone r m then SelfTestOut (d.setOut (.stack m)) 5 m.val 0 else d) d
  r.opticBad.foldl (fun (d : Dev) l =>
    SelfTestOut (d.setOut (if l.val < 12 then .link (finOf 11 l.val) else .gate (finOf 1 (l.val - 12)))) 6 l.val 0) d

/-- COLM, GLB_CAP, GLB_CORE_OK, GLB_HOD_OK and MEM_STAT show the outcome (R206, R396, R399). -/
def Dev.selfTestRegs (d : Dev) (r : SelfTest) : Dev :=
  let cas := allCores.flatMap fun c => allArrays.map fun a => (c, a)
  let d := cas.foldl (fun (d : Dev) x =>
    let w := arrayWidth r x.1 x.2
    let map := if w.2 < 2 then (arrayTest r (4 * x.1.val + x.2.val)).failed else 0
    (d.setReg (aColmMap x.1 x.2) map).setReg (aColmW x.1 x.2) (mkWord [(0, w.1), (8, w.2)])) d
  let num := fun (n : Nat) => (cas.filter fun x => (arrayWidth r x.1 x.2).1 == n).length
  let d := d.setReg (aColm 0x2000) (mkWord [(0, num 64), (16, num 63), (32, num 62), (48, num 0)])
  let good := allCores.filter fun c => !coreGone r c
  let okStacks := allStacks.filter fun m => !stackGone r m
  let map := hbmMap r
  let optic := fun (l : Nat) => b2n (!(r.opticBad.any fun x => x.val == l))
  let arrays := (cas.filter fun x => !coreGone r x.1 && (arrayWidth r x.1 x.2).1 != 0).length
  let d := d.setReg (aGlb 0x10) (mkWord ([(0, good.length), (8, arrays), (18, okStacks.length), (22, map.1),
    (26, b2n (!r.dieBad.contains 0)), (27, b2n (!r.dieBad.contains 1)), (63, 1)] ++ (List.range 14).map fun l => (28 + l, optic l)))
  let d := (List.range 2).foldl (fun (d : Dev) w => d.setReg (aGlb (0x20 + 8 * w))
    (mkWord ((good.filter fun c => c.val / 64 == w).map fun c => (c.val % 64, 1)))) d
  let hods := (good.flatMap fun c => [(c, (0 : Fin 2)), (c, 1)]).filter fun h => !r.hodBad.contains h
  let d := (List.range 4).foldl (fun (d : Dev) w => d.setReg (aGlb (0x40 + 8 * w))
    (mkWord ((hods.filter fun h => h.1.val / 32 == w).map fun h => (2 * (h.1.val % 32) + h.2.val, 1)))) d
  let d := { d with cores := d.cores.mapIdx fun c (x : Core) => { x with hods := x.hods.mapIdx fun h (y : Hod) => { y with ok := d.hodGood (finOf 127 c) h } } }
  let d := d.setReg (aMem 8) (mkWord ([(0, map.1), (4, map.2)] ++ okStacks.map fun m => (5 + m.val, 1)))
  -- the stacks have woken from OFF, and the test says nothing of what it leaves in them (R331)
  d.usedStacks.foldl Dev.undefined d

/-- SELF_TEST_COMPLETE (R338). The units under test have woken. -/
def execSelfTestComplete (r : SelfTest) (s : State) : Host.Outcome State Fault Refusal :=
  onDev s fun d =>
    let woken := fun (x : Dom) => d.dom x == .on
    if d.aoc.trust.stage != .keeper || !d.hubOn || !(allDies.all (fun i => woken (.die i)) && allCores.all (fun c => woken (.core c)) &&
      allStacks.all fun m => woken (.stack m)) then d
    else
      let d := ((d.selfTestUnits r).selfTestRegs r).updTrust fun t => { t with stage := .tested }
      if d.computeUnits then d else d.event 0x2005 2 []

/-! Standing programs (R320, R321). -/

def standEntry (svc : List Byte) (e : StandId) : List Byte := (svc.drop (384 + 32 * e.val)).take 32

/-- A standing program restarted (8) or abandoned (9): event 0x3004 and its notice. -/
def Dev.standNotice (d : Dev) (e : StandId) (l : Nat) (kind restarts : Nat) : Dev :=
  d.eventN 0x3004 1 (leBytes 1 e.val ++ leBytes 1 (kind - 8) ++ leBytes 1 restarts) (kind, l, 0xFF, 0xFF, restarts)

/-- A standing entry is verified, measured, checked, and its load begins (R320). -/
def Dev.standLoad (d : Dev) (e : StandId) (restarts : Nat) : Dev :=
  let x := standEntry d.aoc.svc e
  let off := leAt x 0 4
  let len := leAt x 4 4
  let l := last_of (leAt x 12 1)
  let drop := fun (d : Dev) => d.standNotice e l.val 9 restarts
  if d.standingCode (d.provBody 1) d.aoc.svc e.val ≠ 0 then drop d
  else
    let raw := d.flash off len
    let d := d.measure 4 e.val (sha384 raw) 0
    let map := d.flash (leAt x 8 4) (imgCores raw)
    let refuse := fun (d : Dev) (code : Nat) => drop (d.refuseLoad (leAt x 12 1) code 0)
    if 7 < leAt x 12 1 || !d.imagePlace (flashBase + off) len || !imageOk raw map then refuse d 1
    else if leAt raw 6 1 ≠ 2 then refuse d 2
    else
      let i := parseImage raw map (leAt x 16 8)
      let code := d.loadCheck l i
      if code ≠ 0 then refuse d code
      else
        let d := d.beginLoad l i none raw (some ⟨e, restarts, true⟩)
        if restarts = 0 then d else (d.standNotice e l.val 8 restarts).acnt 15 1

/-- The standing entries that are due are loaded, one after another, in order (R320): the next when the one before has been launched or has
failed. -/
def Dev.standGo : Nat → Dev → Dev
  | 0, d => d
  | f + 1, d => match d.aoc.trust.standQ with
    | [] => d
    | x :: rest =>
      if allLasts.any fun l => (d.last l).loading.any fun y => y.2.1.isNone then d
      else Dev.standGo f ((d.updTrust fun t => { t with standQ := rest }).standLoad x.1 x.2)

def Dev.standNext (d : Dev) : Dev := Dev.standGo d.aoc.trust.standQ.length d

/-- Standing entries become due. -/
def Dev.standAdd (d : Dev) (es : List (StandId × Nat)) : Dev := (d.updTrust fun t => { t with standQ := t.standQ ++ es }).standNext

/-- LOADER_WRITE_SECTIONS (R164, R333): the assigned cores are ON, the checks still hold; a standing program is launched. -/
def execLoaderWriteSections (l : LastId) (s : State) : Host.Outcome State Fault Refusal :=
  onDev s fun d =>
    match (d.last l).loading with
    | none => d
    | some (i, asker, raw) =>
      if !d.coresReady i then d
      else if !i.hbmSects.all (fun x => d.rangeAwake x.1 x.2) then i.hbmSects.foldl (fun (d : Dev) x => d.rangeWake x.1 x.2) d
      else
        let code := (d.updLast l fun x => { x with loading := none }).loadCheck l i
        let st := (d.last l).standing
        if code ≠ 0 then
          let d := (d.updLast l fun x => { x with loading := none, standing := none }).refuseLoad l.val code 0
          let d := match st with
            | some y => d.standNotice y.entry l.val 9 y.restarts
            | none => d
          (d.reply asker 4 code []).standNext
        else
          let d := (d.writeImage l i raw).reply asker 0 0 []
          (if st.isSome && asker.isNone then d.launch l else d).standNext

/-- The entry is enabled; it waits for boot coursing where `late` says so. -/
def Dev.standDue (d : Dev) (e : StandId) (late : Bool) : Bool :=
  let f := leAt (standEntry d.aoc.svc e) 13 1
  decide (f % 2 = 1) && (decide (f / 2 % 2 = 1) == late)

/-- COMPUTE_SERVICE_READY (R337, R339, R341): cores OFF, stacks in SELF-REFRESH, svc 0; standing programs start, boot coursing
starts where the record asks for it. -/
def execComputeServiceReady (s : State) : Host.Outcome State Fault Refusal :=
  onDev s fun d =>
    if d.aoc.trust.stage != .tested || !d.computeUnits then d
    else
      let d := allCores.foldl (fun (d : Dev) c =>
        if d.dom (.core c) == .out then d else ((d.setTarget (.core c) 0).setDom (.core c) .off).drainState (.core c)) d
      let d := allStacks.foldl (fun (d : Dev) m => if d.dom (.stack m) == .out then d else (d.drainState (.stack m)).setDom (.stack m) .selfRefresh) d
      let ms := min 0xFFFF ((d.cycle - d.aoc.trust.goodAt) / 1400000)
      let d := ((d.setRegFld (aPwr 0) 0 2 2).setRegFld (aPwr 0) 16 16 ms).setReg (aMem 0) 0
      let d := d.updTrust fun t => { t with stage := .compute }
      let svc := d.aoc.svc
      let d := d.standAdd (((List.finRange 8).filter fun e => d.standDue e false).map fun e => (e, 0))
      let f := leAt svc 54 1
      if f % 2 = 1 then
        let d := d.updTrust fun t => { t with awaiting := (List.finRange 8).filter fun e => d.standDue e true }
        d.courseLinks.crsBegin (f / 2 % 2 == 1) (BitVec.ofNat 64 (leAt svc 56 8)) ⟨leAt svc 64 1, leAt svc 65 1, leAt svc 66 1⟩
      else d

/-- The last that a standing entry runs as. -/
def Dev.standLast (d : Dev) (e : StandId) : Option LastId :=
  allLasts.find? fun l => (d.last l).standing.any fun s => s.entry == e

/-- STANDING_LAUNCH_AFTER_COURSING (R320): boot coursing has completed or failed, and the entry is the lowest that waits for it. Each
waits and starts once. -/
def execStandingLaunchAfterCoursing (e : StandId) (s : State) : Host.Outcome State Fault Refusal :=
  onDev s fun d =>
    if d.aoc.trust.stage == .compute && d.aoc.trust.awaiting.head? == some e && (d.hub.crs.state = 6 || d.hub.crs.state = 7) then
      (d.updTrust fun t => { t with awaiting := t.awaiting.tail }).standAdd [(e, 0)]
    else d

/-- STANDING_RESTART (R321). -/
def execStandingRestart (e : StandId) (s : State) : Host.Outcome State Fault Refusal :=
  onDev s fun d =>
    match d.standLast e with
    | none => d
    | some l =>
      match (d.last l).standing with
      | none => d
      | some y =>
        if !y.watched || (d.last l).st != .stopped || !d.lastQuiet l then d
        else
          let d := d.unload l
          if y.restarts < leAt (standEntry d.aoc.svc e) 14 1 then d.standAdd [(e, y.restarts + 1)]
          else d.standNotice e l.val 9 y.restarts

end Sys2Proof.Machine
end

