-- ==== Sys2Proof/Machine/Ports.lean ====
section
/-!
DEFINITION. The control ports as Ethernet ports (R303 to R305, R322), the addresses of both kinds of port (R303, R314, R319,
R352, R356), and what they answer to ARP, NDP and echo. An address is the number whose byte i is byte i of its field (R9).
-/

namespace Sys2Proof.Machine

/-- MAC address of the factory block (R352), 0 without a provisioning record. -/
def Dev.factoryMac (d : Dev) : Nat :=
  match d.provCopy with
  | some c => leAt (d.blockBody c 0) 8 6
  | none => 0

/-- The link-local address formed from a MAC address by modified EUI-64. -/
def linkLocal (mac : Nat) : Nat :=
  let b := leBytes 6 mac
  leNat ([0xFE, 0x80] ++ zeros 6 ++ [(b.getD 0 0) ^^^ 2, b.getD 1 0, b.getD 2 0, 0xFF, 0xFE, b.getD 3 0, b.getD 4 0, b.getD 5 0])

/-- An IPv4 address as ::ffff:a.b.c.d. -/
def mapped (ip4 : Nat) : Nat := leNat (zeros 10 ++ [0xFF, 0xFF] ++ leBytes 4 ip4)

/-- MAC, IPv6 and IPv4 address of a port, 0 where absent (R319). Without a valid service block, and in recovery, the control
port has the factory MAC and a link-local address (R352, R356). -/
def Dev.addresses (d : Dev) (e : EthPort) : Nat × Nat × Nat :=
  let s := d.aoc.svc
  match e with
  | .ctl _ => if s.isEmpty then (d.factoryMac, linkLocal d.factoryMac, 0) else (leAt s 0 6, leAt s 8 16, leAt s 24 4)
  | .gate g =>
    let b := s.drop (128 + 64 * g.val)
    (leAt b 0 6, leAt b 8 16, leAt b 24 4)

/-- The port is powered and its link is up. -/
def Dev.ethUp (d : Dev) (e : EthPort) : Bool :=
  match e with
  | .ctl p => (if p.val = 0 then d.aocUp || d.aoc.trust.stage == .recovery else d.aocUp && d.dom .ctl1 == .on) && (d.ctl p).link
  | .gate g => d.dom (.gate g) == .on && (d.gate g).link

/-- An address that is present and equals `n`. -/
def isAddr (own n : Nat) : Bool := own != 0 && own == n

/-- A frame that reached a port goes on: on a control port if R304 admits it. -/
def Dev.ethTake (d : Dev) (e : EthPort) (t : EthTag) (k : Dev → Dev) : Dev :=
  if !d.ethUp e then d
  else match e with
    | .ctl p => d.letIn p t k
    | .gate _ => k d

/-- ARP_REQUEST (R303, R304, R314). -/
def execArpRequest (e : EthPort) (f : Framed ArpMsg) (s : State) : Host.Outcome State Fault Refusal :=
  onDev s fun d => d.ethTake e f.tag fun d =>
    let r := f.msg
    let a := d.addresses e
    if isAddr a.2.2 r.targetIp.toNat then d.emit (.arp e ⟨BitVec.ofNat 48 a.1, BitVec.ofNat 32 a.2.2, r.senderIp⟩) else d

/-- NDP_REQUEST (R303, R304, R314). -/
def execNdpRequest (e : EthPort) (f : Framed NdpMsg) (s : State) : Host.Outcome State Fault Refusal :=
  onDev s fun d => d.ethTake e f.tag fun d =>
    let r := f.msg
    let a := d.addresses e
    if isAddr a.2.1 r.targetIp.toNat then d.emit (.ndp e ⟨BitVec.ofNat 48 a.1, BitVec.ofNat 128 a.2.1, r.senderIp⟩) else d

/-- A frame discarded: rx_drop of a control port, drop_fmt of a gate port. -/
def Dev.dropEth (d : Dev) (e : EthPort) : Dev :=
  match e with
  | .ctl p => d.dropFrame p
  | .gate g => d.gateCount g 1

/-- ICMP_ECHO_REQUEST (R303, R304, R314). One for another address is no frame of a control port; a gate port counts it. -/
def execIcmpEchoRequest (e : EthPort) (f : Framed EchoMsg) (s : State) : Host.Outcome State Fault Refusal :=
  onDev s fun d => d.ethTake e f.tag fun d =>
    let r := f.msg
    let a := d.addresses e
    if !r.sound then d.dropEth e
    else if isAddr a.2.1 r.targetIp.toNat || (a.2.2 != 0 && mapped a.2.2 == r.targetIp.toNat) then d.emit (.echo e ⟨r.targetIp, r.senderIp, true, r.data⟩)
    else match e with
      | .ctl _ => d
      | .gate g => d.gateCount g 1

/-! Egress of the control ports (R304, R305). What the AOC forms stands in `out`; each port sends the frames in turn. -/

/-- 802.1CB replication (Table 11.7): bit 12 of ctl_vlan. -/
def Dev.frer (d : Dev) : Bool := leAt d.aoc.svc 6 2 / 4096 % 2 == 1

/-- Traffic class of the module's frames: the PCP of ctl_vlan. -/
def Dev.ctlClass (d : Dev) : Nat := leAt d.aoc.svc 6 2 / 8192

/-- Ports that send a message (R304, R313); none for one that leaves elsewhere. -/
def Dev.ctlPorts (d : Dev) (o : Out) : List CtlId :=
  let one := fun (p : CtlId) => if d.frer then [0, 1] else [p]
  match o with
  | .answer a _ => one a.port
  | .notice _ _ => one (if (d.ctl 0).link then 0 else 1)
  | .arp (.ctl p) _ => one p
  | .ndp (.ctl p) _ => one p
  | .echo (.ctl p) _ => one p
  | _ => []

/-- Bytes that a message takes on the wire, from preamble to gap: Ethernet, 802.1Q, R-TAG, IP and UDP around it. -/
def Dev.wireBytes (d : Dev) (o : Out) (rtag : Bool) : Nat :=
  let ip := fun (a : Nat) => if a % 2 ^ 96 = mapped 0 then 20 else 40
  let body := match o with
    | .answer a bs => ip a.src.toNat + 8 + bs.length
    | .notice i bs => ip (d.aoc.subs.get i).addr.toNat + 8 + bs.length
    | .arp _ _ => 28
    | .ndp _ _ => 72
    | .echo _ r => ip r.targetIp.toNat + 8 + r.data.length
    | _ => 0
  38 + max 46 body + (if leAt d.aoc.svc 6 2 % 4096 = 0 then 0 else 4) + (if rtag then 6 else 0)

/-- Messages formed since the last cycle enter the queues of their ports. -/
def Dev.ctlForm (d : Dev) : Dev :=
  let n := d.aoc.formed
  let d := foldIdx (fun (d : Dev) i o =>
    let ps := d.ctlPorts o
    if ps.isEmpty then d
    else
      let tag := if d.frer then some d.aoc.rtag else none
      let d := (ps.filter fun p => d.ethUp (.ctl p)).foldl (fun (d : Dev) p => d.updCtl p fun c => { c with tx := c.tx ++ [(d.ctlClass, n + i, tag)] }) d
      if d.frer then d.updAoc fun a => { a with rtag := a.rtag + 1 } else d) 0 d (d.out.drop n)
  d.updAoc fun a => { a with formed := d.out.length }

/-- Rate of a port in Mb/s. -/
def Ctl.rate (c : Ctl) : Nat := if c.slow then 1000 else 2500

/-- The gate control list is in force (R305). -/
def Dev.gatesOn (d : Dev) (p : CtlId) : Bool := bitOf (d.reg (aCtlp p 0x10)) 0 && (d.ctl p).aslock

/-- Entries of the list, and the end of entry `i` in the cycle in ns: the last one holds until the cycle ends (R305). -/
def Dev.gclLen (d : Dev) (p : CtlId) : Nat := d.regFld (aCtlp p 0x10) 1 7
def Dev.gclCycle (d : Dev) (p : CtlId) : Nat := d.regFld (aCtlp p 0x10) 8 30
def Dev.gclGates (d : Dev) (p : CtlId) (i : Nat) : Nat := fld (d.reg (aCtlp p (0x100 + 8 * i))) 0 8
def Dev.gclEnd (d : Dev) (p : CtlId) (i : Nat) : Nat :=
  if d.gclLen p ≤ i + 1 then d.gclCycle p
  else min (d.gclCycle p) ((List.range (i + 1)).foldl (fun n j => n + fld (d.reg (aCtlp p (0x100 + 8 * j))) 8 32) 0)

/-- Time since the cycle began in ns: a cycle begins at each multiple of cycle_ns. -/
def Dev.gclTime (d : Dev) (p : CtlId) : Nat := (d.asTimeOf p).toNat % max 1 (d.gclCycle p)

/-- The entry that the time has reached. -/
def Dev.gatePos (d : Dev) (p : CtlId) : Nat :=
  ((List.range (d.gclLen p)).find? fun i => decide (d.gclTime p < d.gclEnd p i)).getD (d.gclLen p - 1)

/-- Entry `i` comes into force in every cycle: it is not cut at the cycle's end, and its interval is not 0 (R305). -/
def Dev.gclInForce (d : Dev) (p : CtlId) (i : Nat) : Bool := decide ((if i = 0 then 0 else d.gclEnd p (i - 1)) < d.gclEnd p i)

/-- For how long the gate of a class stays open, in ns: none where it never closes. An entry that never comes into force closes nothing. -/
def Dev.openFor (d : Dev) (p : CtlId) (cls : Nat) : Option Nat :=
  let n := d.gclLen p
  let i := (d.ctl p).pos
  let isOpen := fun j => !d.gclInForce p (j % n) || (d.gclGates p (j % n)).testBit cls
  if !d.gatesOn p then none
  else match ((List.range n).map fun j => i + j).find? fun j => !isOpen j with
    | none => none
    | some j => some (if j = i then 0 else if j < n then d.gclEnd p (j - 1) - d.gclTime p
        else d.gclCycle p - d.gclTime p + (if j = n then 0 else d.gclEnd p (j - n - 1)))

/-- Idle slope of a class in Mb/s (R304): none where it is not shaped. -/
def Dev.slope (d : Dev) (p : CtlId) (cls : Nat) : Option Nat :=
  let s := if cls = 6 then d.regFld (aCtlp p 0x18) 0 16 else if cls = 5 then d.regFld (aCtlp p 0x18) 16 16 else 0
  if s = 0 then none else some s

/-- The credit-based shaper of a class in one cycle (IEEE 802.1Qav). -/
def Dev.shape1 (d : Dev) (p : CtlId) (cls : Nat) (credit : Int) : Int :=
  match d.slope p cls with
  | none => 0
  | some s =>
    let c := d.ctl p
    if c.cur.any fun x => x.1 == cls then credit + s - c.rate
    else if c.tx.any fun x => x.1 == cls then credit + s
    else min 0 (credit + s)

/-- A frame of a class may begin now: its gate is open for long enough, and the shaper lets it (R304, R305). -/
def Dev.mayBegin (d : Dev) (p : CtlId) (cls bytes : Nat) : Bool :=
  let c := d.ctl p
  (c.gates.getLsbD cls) && (d.openFor p cls).all (fun ns => decide (ceilDiv (bytes * 8000) c.rate ≤ ns)) &&
  (if cls = 6 then decide (0 ≤ c.credit6) else if cls = 5 then decide (0 ≤ c.credit5) else true)

/-- One control port in one cycle: the frame on the wire ends, the shaper moves, the next frame begins, highest class first. -/
def Dev.ctlSend (d : Dev) (p : CtlId) : Dev :=
  if !d.ethUp (.ctl p) then d.updCtl p fun c => { c with tx := [], cur := none }
  else
    let d := d.updCtl p fun c => { c with
      cur := c.cur.filter fun x => decide (d.cycle < x.2), credit5 := d.shape1 p 5 c.credit5, credit6 := d.shape1 p 6 c.credit6 }
    if (d.ctl p).cur.isSome then d
    else
      let head := fun c => (d.ctl p).tx.find? fun x => x.1 == c
      let len := fun (x : Nat × Nat × Option (BitVec 16)) => d.wireBytes ((d.out[x.2.1]?).getD .plumb) x.2.2.isSome
      match [7, 6, 5, 4, 3, 2, 1, 0].findSome? fun c => (head c).filter fun x => d.mayBegin p c (len x) with
      | none => d
      | some x =>
        (d.updCtl p fun c => { c with tx := eraseFirst (· == x) c.tx, cur := some (x.1, d.cycle + ceilDiv (len x * 11200) c.rate) }).emit
          (.sent p x.2.1 x.2.2)

/-- The control ports in one cycle. -/
def Dev.ctlCycle (d : Dev) : Dev :=
  let d := (if (d.out.drop d.aoc.formed).isEmpty then d else d.ctlForm)
  let busy := fun (p : CtlId) => !(d.ctl p).tx.isEmpty || (d.ctl p).cur.isSome || decide ((d.ctl p).credit5 ≠ 0 ∨ (d.ctl p).credit6 ≠ 0)
  ((List.finRange 2).filter busy).foldl (fun (d : Dev) p => d.ctlSend p) d

/-! 802.1AS and gate control lists (R275, R304, R305). -/

/-- 802.1AS runs (Table 11.7 flags). -/
def Dev.gptpOn (d : Dev) : Bool := leAt d.aoc.svc 54 1 / 4 % 2 == 1

/-- The fabric time that belongs to an 802.1AS time, by the epoch of the root's step (R275). -/
def Dev.fabricTimeOf (d : Dev) (t : Word) : Int :=
  let x : Int := 7 * ((t.toNat : Int) - d.hub.ftime.epoch.toNat)
  if x % 5 ≤ 2 then x / 5 else x / 5 + 1

/-- The time root takes an 802.1AS time: the offset to it enters its average, which the slew follows (R274, R275). -/
def Dev.epochSample (d : Dev) (t : Word) : Dev :=
  if !d.hubOn || !d.hub.ftime.root || !d.hub.ftime.acq then d
  else
    let d := d.record 5 0 (leBytes 8 t.toNat)
    let o : Int := (d.hub.ftime.ft.toNat : Int) - d.fabricTimeOf t
    d.updTime fun f => { f with gptp := true, offs := ((f.offs ++ [o]).reverse.take 16).reverse }

/-- The gates of an entry are in force, or every gate is open (R305). -/
def Dev.setGates (d : Dev) (p : CtlId) (i : Nat) : Dev :=
  let on := d.gatesOn p
  d.updCtl p fun c => if on then { c with pos := i, gates := BitVec.ofNat 8 (d.gclGates p i) } else { c with pos := 0, gates := 0xFF }

/-- GPTP_MESSAGE (R275, R304). A port that is no longer locked opens every gate (R305). -/
def execGptpMessage (p : CtlId) (t : Word) (locked : Bool) (s : State) : Host.Outcome State Fault Refusal :=
  onDev s fun d =>
    if !d.ethUp (.ctl p) || !d.gptpOn then d
    else
      let d := d.updCtl p fun c => { c with time := t, timeAt := d.cycle, aslock := locked }
      let d := if locked then d else (d.setGates p 0).asLost
      if locked && !d.replaying 5 then d.epochSample t else d

/-- GPTP_LOCK_LOSS (R305): aslock clears, every gate opens; a root without another locked port counts freely (R275). -/
def execGptpLockLoss (p : CtlId) (s : State) : Host.Outcome State Fault Refusal :=
  onDev s fun d => (d.updCtl p fun c => { c with aslock := false, pos := 0, gates := 0xFF }).asLost

/-- GATE_CONTROL_CYCLE (R305): the list takes the entry that the 802.1AS time has reached, the first where a cycle has just begun. -/
def execGateControlCycle (p : CtlId) (s : State) : Host.Outcome State Fault Refusal :=
  onDev s fun d => if d.ethUp (.ctl p) then d.setGates p (d.gatePos p) else d

/-- GATE_CONTROL_LIST_ENTRY (R305): after interval_ns the next entry; the last holds until the cycle ends. -/
def execGateControlListEntry (p : CtlId) (s : State) : Host.Outcome State Fault Refusal :=
  onDev s fun d => if d.ethUp (.ctl p) then d.setGates p (d.gatePos p) else d

/-- CTLP_GCFG_WRITE (R322). -/
def execCtlpGcfgWrite (p : CtlId) (v : Word) (s : State) : Host.Outcome State Fault Refusal := onDev s fun d => d.wr8 (aCtlp p 0x10) v

/-- CONTROL_PORT_LINK_CHANGE (R304): 802.1AS is lost with the link. -/
def execControlPortLinkChange (p : CtlId) (up slow : Bool) (s : State) : Host.Outcome State Fault Refusal :=
  onDev s fun d =>
    let powered := if p.val = 0 then d.aocUp || d.aoc.trust.stage == .recovery else d.aocUp && d.dom .ctl1 == .on
    if !powered then d
    else if up then d.updCtl p fun c => { c with link := true, slow := slow }
    else (d.updCtl p fun c => { c with link := false, slow := false, aslock := false, pos := 0, gates := 0xFF }).asLost

end Sys2Proof.Machine
end

