-- ==== Sys2Proof/Machine/Spill.lean ====
section
/-!
DEFINITION. The commands of the spill queues (R236 to R243).
-/

namespace Sys2Proof.Machine

/-- A write to the push window that meets a full queue waits (R238). -/
def Dev.pushCommand (d : Dev) (q : QueueId) (bytes : List Byte) : Dev :=
  let r := d.busWrite (aQue q 0x40) bytes
  match r.2 with
  | .wait => r.1.updQueue q fun x => { x with waiting := x.waiting ++ [bytes] }
  | _ => r.1

/-- The oldest push that waits, once an entry has freed (R238). -/
def Dev.pushWaiting (d : Dev) (q : QueueId) : Dev :=
  match (d.queue q).waiting with
  | [] => d
  | b :: rest =>
    let e := d.updQueue q fun x => { x with waiting := rest }
    if !d.hubOn then d
    else if !bitOf (d.reg (aQue q 0x1000)) 0 then e.hwInc (aQue q 0x1028) 32 16 1
    else if d.queFull q || d.queTaken q || d.now.pushed.any (fun p => p.1 == q) then d
    else e.queAccept q b false

/-- PUSH (R238). -/
def execPush (q : QueueId) (bytes : List Byte) (s : State) : Host.Outcome State Fault Refusal :=
  onDev s fun d => d.pushCommand q bytes

/-- POP (R239, R240): what the read returned is an output. A pop behind another of its cycle waits (R236). -/
def execPop (q : QueueId) (width : Nat) (s : State) : Host.Outcome State Fault Refusal :=
  onDev s fun d =>
    let r := d.busRead (aQue q 0) width
    match r.2 with
    | .ok bs => r.1.emit (.popped q bs)
    | .wait => r.1.updQueue q fun x => { x with pops := x.pops + 1 }
    | _ => r.1

/-- The pops that waited from an earlier cycle are served first, one in each queue; entries that waited for their ring move. -/
def Dev.popsServe (d : Dev) : Dev :=
  if !d.hubOn then d
  else ((List.finRange 32).filter fun q => (d.queue q).pops ≠ 0 || (d.queue q).ringN ≠ 0 || !(d.queue q).tail.isEmpty).foldl (fun (d : Dev) q =>
    if (d.queue q).pops = 0 then d.queMoves q
    else
      let r := d.quePop q
      match r.2 with
      | .ok bs => (r.1.updQueue q fun x => { x with pops := x.pops - 1 }).emit (.popped q bs)
      | _ => r.1) d

/-- QUE_FLUSH (R241). -/
def execQueFlush (q : QueueId) (v : Word) (s : State) : Host.Outcome State Fault Refusal :=
  onDev s fun d => d.wr8 (aQue q 0x1018) v

/-- QUE_CFG_WRITE (R243). -/
def execQueCfgWrite (q : QueueId) (r : QueReg) (v : Word) (s : State) : Host.Outcome State Fault Refusal :=
  onDev s fun d => d.wr8 (aQue q (match r with
    | .cfg => 0x1000
    | .ring => 0x1008
    | .note => 0x1010)) v

end Sys2Proof.Machine
end

