-- ==== Sys2Proof/Machine/Gates.lean ====
section
/-!
DEFINITION. The gate ports (R314 to R318): NBP datagrams into queues, flow control, transmit windows; and the pushes that wait for
a queue (R238).
-/

namespace Sys2Proof.Machine

/-- The port works: hub and port ON, link up. -/
def Dev.gateUp (d : Dev) (g : GateId) : Bool := d.hubOn && d.ethUp (.gate g)

def Dev.nbpPort (d : Dev) : Nat := if leAt d.aoc.svc 52 2 = 0 then 52471 else leAt d.aoc.svc 52 2

/-! Reception. -/

/-- The entries of a datagram (R316): 56 data bytes each, sop on the first, eop on the last. -/
def nbpEntries (g : GateId) (flow : Nat) (b : List Byte) : List (List Byte) :=
  let parts := chunk 56 b.length b
  let n := parts.length
  parts.mapIdx fun i x => QEntry.toBytes ⟨i == 0, i + 1 == n, false, x.length, BitVec.ofNat 16 (flow + 0x8000 * g.val), 0, padTo 56 x, []⟩

/-- The port whose datagram is pushed into the queue: the one that has begun, else the one whose datagram arrived first, before
cycle `now`, port 0 first. -/
def Dev.gateTurn (d : Dev) (q : QueueId) (now : Nat) : Option GateId :=
  let heads := allGates.filterMap fun g => match (d.gate g).rx with
    | x :: _ => if x.1 = q && decide (x.2.2.1 < now) then some (g, x.2.2.1) else none
    | [] => none
  match heads.find? fun h => (d.gate h.1).rest.isSome with
  | some h => some h.1
  | none => (heads.foldl (fun (best : Option (GateId × Nat)) h => match best with
      | some b => if h.2 < b.2 then some h else best
      | none => some h) none).map fun h => h.1

/-- One entry of the datagram at the head of port `g` is pushed, if its queue takes it in this cycle (R236, R317, R238). During a
replay of gate entries a datagram that waits is discarded instead (R289). -/
def Dev.gateEntry (d : Dev) (g : GateId) : Dev :=
  match (d.gate g).rx with
  | [] => d
  | x :: rx =>
    if d.replaying 2 && (d.gate g).rest.isNone then (d.updGate g fun y => { y with rx := rx }).gateCount g 4
    else match (d.gate g).rest.getD (nbpEntries g x.2.1 x.2.2.2) with
    | [] => d.updGate g fun y => { y with rx := rx, rest := none }
    | e :: es =>
      match if (d.gate g).rest.isSome then d.queTry x.1 e true else d.quePush x.1 e true with
      | (d, .wait) => d
      | (d, _) => d.updGate g fun y => if es.isEmpty then { y with rx := rx, rest := none } else { y with rest := some es }

/-- The gate ports push into the queues, as far as datagrams arrived before cycle `now`. -/
def Dev.gatePump (d : Dev) (now : Nat) : Dev :=
  allGates.foldl (fun (d : Dev) g => match (d.gate g).rx with
    | x :: _ => if d.gateTurn x.1 now == some g then d.gateEntry g else d
    | [] => d) d

/-- Priority flow control (R317): XOFF for the class of a full queue, XON once its queues have 128 free entries. -/
def Dev.gatePfc (d : Dev) (g : GateId) : Dev :=
  if !d.gateUp g then d
  else
    let en := bitOf (d.reg (aGate 0)) (48 + g.val)
    let cls := fun (q : Nat) => fld (d.reg (aGate 0)) (3 * q) 3
    let on := fun (q : QueueId) => bitOf (d.reg (aQue q 0x1000)) 0
    (List.finRange 8).foldl (fun (d : Dev) c =>
      let qs := ((List.range 16).filter fun q => cls q = c.val).map fun q => (finOf 31 q : QueueId)
      let sent := (d.gate g).xoffSent.toNat.testBit c.val
      let full := en && qs.any fun q => on q && d.queFull q
      let free := qs.all fun q => !on q || decide ((d.queue q).count + 128 ≤ d.queCap q)
      if full && !sent then
        (d.updGate g fun x => { x with xoffSent := x.xoffSent ||| BitVec.ofNat 8 (2 ^ c.val) }).emit (.pfc g c.val true)
      else if sent && (free || !en) then
        (d.updGate g fun x => { x with xoffSent := x.xoffSent &&& ~~~BitVec.ofNat 8 (2 ^ c.val) }).emit (.pfc g c.val false)
      else d) d

/-- At the end of a cycle both ports look after their datagrams, those that have just arrived included, and their flow control. -/
def Dev.gatesServe (d : Dev) : Dev :=
  if !d.hubOn then d else allGates.foldl (fun (d : Dev) g => d.gatePfc g) (d.gatePump (d.cycle + 1))

/-- R315. -/
def nbpOk (f : NbpFrame) : Bool :=
  f.sound && decide (16 ≤ f.payload.length) && leAt f.payload 0 1 == 1 && f.payload.length == 16 + leAt f.payload 12 2

/-- NBP_DATAGRAM_RECEIVE (R315 to R317, R289). -/
def execNbpDatagramReceive (g : GateId) (f : NbpFrame) (s : State) : Host.Outcome State Fault Refusal :=
  onDev s fun d =>
    if !d.gateUp g then d
    else if gateBuf < (d.gate g).rxBytes + f.payload.length then d.gateCount g 3
    else if f.dport.toNat ≠ d.nbpPort || !nbpOk f then d.gateCount g 1
    else
      let flow := leAt f.payload 2 2 % 1024
      let e := d.reg (aGate (0x2000 + 8 * flow))
      if !(bitOf e 4 && bitOf e (5 + g.val)) then d.gateCount g 2
      else if d.replaying 2 then d.gateCount g 4
      else
        let d := d.gateCount g 0
        d.updGate g fun x => { x with rx := x.rx ++ [(finOf 31 (fld e 0 4), flow, d.cycle, f.payload)] }

/-- DEFERRED_PUSH (R238, R317): the push that waits for the queue, or the next entry of a gate port's datagram. -/
def execDeferredPush (q : QueueId) (s : State) : Host.Outcome State Fault Refusal :=
  onDev s fun d =>
    let d := d.pushWaiting q
    if !d.hubOn then d
    else match d.gateTurn q d.cycle with
      | some g => d.gateEntry g
      | none => d

/-- PFC_FRAME_RECEIVE (R314). -/
def execPfcFrameReceive (g : GateId) (cls : Fin 8) (xoff : Bool) (s : State) : Host.Outcome State Fault Refusal :=
  onDev s fun d =>
    if !d.gateUp g then d
    else
      let b := BitVec.ofNat 8 (2 ^ cls.val)
      d.updGate g fun x => { x with xoffRcvd := if xoff then x.xoffRcvd ||| b else x.xoffRcvd &&& ~~~b }

/-! Transmission (R318). -/

/-- Entries of a write to the window, in address order; those behind one that waits wait too. -/
def Dev.gateEntries (d : Dev) (g : GateId) : List (List Byte) → Dev
  | [] => d
  | e :: es =>
    if !(d.gate g).waiting.isEmpty then d.updGate g fun x => { x with waiting := x.waiting ++ (e :: es) }
    else match d.busWrite (aGate (0x4000 + 0x1000 * g.val)) e with
      | (d, .wait) => d.updGate g fun x => { x with waiting := x.waiting ++ (e :: es) }
      | (d, _) => Dev.gateEntries d g es

/-- GATE_TRANSMIT_PUSH (R318). -/
def execGateTransmitPush (g : GateId) (bytes : List Byte) (s : State) : Host.Outcome State Fault Refusal :=
  onDev s fun d => d.gateEntries g (chunk 64 bytes.length bytes)

/-- Class of a queued frame: the PCP of its egress entry, 0 for an untagged frame. -/
def frameClass (f : GateFrame) : Nat := if f.vlan % 4096 = 0 then 0 else f.vlan / 8192

/-- GATE_FRAME_SEND (R318): the oldest frame leaves unless its class is paused; pushes that waited for space go on. -/
def execGateFrameSend (g : GateId) (s : State) : Host.Outcome State Fault Refusal :=
  onDev s fun d =>
    match (d.gate g).tx with
    | [] => d
    | x :: rest =>
      if !d.gateUp g || (d.gate g).xoffRcvd.toNat.testBit (frameClass x) then d
      else
        let d := ((d.updGate g fun y => { y with tx := rest }).emit (.gateFrame g x)).gateCount g 5
        allGates.foldl (fun (d : Dev) w =>
          let held := (d.gate w).waiting
          (d.updGate w fun y => { y with waiting := [] }).gateEntries w held) d

/-- GATE_PORT_LINK_CHANGE (R314). -/
def execGatePortLinkChange (g : GateId) (up : Bool) (s : State) : Host.Outcome State Fault Refusal :=
  onDev s fun d =>
    if d.hubOn && d.dom (.gate g) == .on then
      d.updGate g fun x => if up then { x with link := true } else { x with link := false, xoffRcvd := 0, xoffSent := 0 }
    else d

end Sys2Proof.Machine
end

