-- ==== Sys2Proof/Machine/Observe.lean ====
section
/-!
DEFINITION. The commands of the plumb unit, the counters and the event recorder (R372 to R386).
-/

namespace Sys2Proof.Machine

/-- PLB_TRIG, PLB_RELEASE (R374): writes of PLB_CTL. -/
def execPlbTrig (v : Word) (s : State) : Host.Outcome State Fault Refusal := onDev s fun d => d.wr8 (aPlb 0) v
def execPlbRelease (v : Word) (s : State) : Host.Outcome State Fault Refusal := onDev s fun d => d.wr8 (aPlb 0) v

/-- PLB_AT_WRITE (R375). -/
def execPlbAtWrite (v : Word) (s : State) : Host.Outcome State Fault Refusal := onDev s fun d => d.wr8 (aPlb 0x10) v

/-- PLB_AT_FIRE (R375): fabric time has reached the instant. -/
def execPlbAtFire (s : State) : Host.Outcome State Fault Refusal :=
  onDev s fun d =>
    let t := d.reg (aPlb 0x10)
    if !d.hubOn || t = 0 || d.hub.ftime.ft.toNat < t.toNat then d
    else (d.setReg (aPlb 0x10) 0).plumbTrigger 3 (fld t 0 16)

/-- CNT_CLEAR (R378): a write of CNT_CTL. -/
def execCntClear (g : CntPage) (v : Word) (s : State) : Host.Outcome State Fault Refusal :=
  onDev s fun d => d.wr8 (match g with
    | .core c => aCnt c 0x7F8
    | .hub => aHcnt 0x7F8
    | .aon => aAcnt 0x7F8) v

/-- The AOC runs, from mask ROM on. -/
def Dev.aocRuns (d : Dev) : Bool := d.aocUp || d.aoc.trust.stage == .recovery

/-- EVENT_ACCEPT (R381). -/
def execEventAccept (s : State) : Host.Outcome State Fault Refusal := onDev s fun d => if d.aocRuns then d.acceptEvent else d

/-- EVENT_RECORD_WRITE (R383). -/
def execEventRecordWrite (s : State) : Host.Outcome State Fault Refusal := onDev s fun d => if d.aocRuns then d.writeRecord else d

/-- LIFE_COUNTER_WRITE (R380): 60 s after the entry before. -/
def execLifeCounterWrite (s : State) : Host.Outcome State Fault Refusal :=
  onDev s fun d => if d.aocRuns then (d.updRcd fun r => { r with secs := max r.secs (match r.life with
    | some e => e.2 + 60
    | none => r.secs + 60) }).writeLife else d

/-- EVR_CUR_WRITE (R385). -/
def execEvrCurWrite (v : Word) (s : State) : Host.Outcome State Fault Refusal := onDev s fun d => d.wr8 (aEvr 0x10) v

/-- EVR_WINDOW_ADVANCE (R385): a read of the word at window offset 0x38; what it returned is an output. The page serves it where it has served no other access of the cycle (R392). -/
def execEvrWindowAdvance (s : State) : Host.Outcome State Fault Refusal :=
  onDev s fun d =>
    let r := d.accRead (aEvr 0x78) 8
    match r.2 with
    | .ok bs => r.1.emit (.readBack (aEvr 0x78) bs)
    | _ => r.1

end Sys2Proof.Machine
end

