-- ==== Sys2Proof/Machine/Pins.lean ====
section
/-!
DEFINITION. The shared lines (R285, R289, R342) and SMBus (R343).
-/

namespace Sys2Proof.Machine

/-- The line's level from outside is kept for PIN_STAT (Table 12.17). SYNC is pulled low for 1 µs, as every module pulls it (Table 12.10; DEDUCED,
log 63: the table of commands has no rising edge of it). What an edge of pin `code` (0 SYNC, 1 PLUMB_N, 2 PRESENT_N) to `level` does to its receiver (Table 12.10). -/
def Dev.pinReceive (d : Dev) (code : Nat) (level : Bool) : Dev :=
  match code with
  | 0 =>
    if level then d.updAoc fun a => { a with syncIn := none }
    else (d.updAoc fun a => { a with syncIn := some (d.cycle + 1400) }).setReg (aPwr 0xB8) (if d.hubOn then d.hub.ftime.ft else 0)
  | 1 =>
    let d := d.updAoc fun a => { a with plumbIn := level }
    if !level && bitOf (d.reg (aPwr 0xA8)) 2 && d.aoc.plumbLow.isNone then d.plumbTrigger 2 0 else d
  | _ => d.updAoc fun a => { a with presentN := level }

/-- A live edge: recorded and received, or ignored during a replay of pin edges (R285, R289). -/
def Dev.pinEdge (d : Dev) (code : Nat) (level : Bool) : Dev :=
  if !d.serves then d
  else if d.replaying 4 then d.event 0x6003 0 (leBytes 1 code ++ leBytes 1 (b2n level))
  else (d.record 4 code [BitVec.ofNat 8 (b2n level)]).pinReceive code level

/-- SYNC_EDGE, PLUMB_N_EDGE, PRESENT_N_EDGE (R285, R342, R374, R408). -/
def execSyncEdge (s : State) : Host.Outcome State Fault Refusal := onDev s fun d => d.pinEdge 0 false
def execPlumbNEdge (level : Bool) (s : State) : Host.Outcome State Fault Refusal := onDev s fun d => d.pinEdge 1 level
def execPresentNEdge (level : Bool) (s : State) : Host.Outcome State Fault Refusal := onDev s fun d => d.pinEdge 2 level

/-- SYNC_PULSE (R342). -/
def execSyncPulse (v : Word) (s : State) : Host.Outcome State Fault Refusal := onDev s fun d => d.wr8 (aPwr 0xA8) v

/-! SMBus (R343). -/

/-- The packet error code: CRC-8 with the polynomial x^8 + x^2 + x + 1 over every byte of the transaction, addresses included (PRESUMED from
the System Management Bus Specification, log 44). -/
def pec (bs : List Byte) : Byte :=
  bs.foldl (fun (c : Byte) b => (List.range 8).foldl (fun (c : Byte) _ => (c <<< 1) ^^^ (if c.toNat.testBit 7 then 0x07 else 0)) (c ^^^ b)) 0

/-- A read transaction with address `addr`: the data, in a block read behind its count, and the PEC. -/
def Dev.smbusSend (d : Dev) (addr cmd : Nat) (block : Bool) (bytes : List Byte) : Dev :=
  d.emit (.smbus cmd bytes (pec (leBytes 1 (2 * addr) ++ leBytes 1 cmd ++ leBytes 1 (2 * addr + 1) ++ (if block then leBytes 1 bytes.length else []) ++ bytes)))

/-- The module's UDID: the serial number in the device-specific field, its last four bytes (log 44). -/
def smbUdid : List Byte := padTo 12 Config.udid ++ beBytes 4 Config.serial.toNat

/-- SMBUS_ADDRESS_RESOLUTION (R343): the module gives its UDID at the protocol's default address, and takes the address assigned. -/
def execSmbusAddressResolution (addr : BitVec 7) (s : State) : Host.Outcome State Fault Refusal :=
  onDev s fun d =>
    if d.serves then
      (d.smbusSend 0x61 3 true (smbUdid ++ leBytes 1 (match d.aoc.smbAddr with
        | some x => 2 * x.toNat + 1
        | none => 0xFF))).updAoc fun a => { a with smbAddr := some addr }
    else d

/-- A command of Table 12.11 is answered once an address is assigned. -/
def Dev.smbus (d : Dev) (cmd : Nat) (bytes : List Byte) : Dev :=
  match d.aoc.smbAddr with
  | some x => if d.serves then d.smbusSend x.toNat cmd (cmd == 1) bytes else d
  | none => d

/-- A unit is out of service. -/
def Dev.anyOut (d : Dev) : Bool :=
  let x := d.aoc.doms
  (x.dies.toList ++ x.cores.toList ++ x.stks.toList ++ x.links.toList ++ x.gates.toList).any (· == .out) ||
  (d.aoc.trust.stage != .keeper && allCores.any fun c => allArrays.any (fun a => d.width c a == 0) || !d.hodGood c 0 || !d.hodGood c 1)

def Dev.meas (d : Dev) (lo len : Nat) : Nat := d.regFld (aPwr 0xA0) lo len

def execSmbusReadStatus (s : State) : Host.Outcome State Fault Refusal :=
  onDev s fun d => d.smbus 0 (leBytes 1 (d.regFld (aPwr 0) 0 2 + 4 * b2n (d.aoc.gov.level != 0) + 8 * b2n d.anyOut))
def execSmbusReadSerial (s : State) : Host.Outcome State Fault Refusal := onDev s fun d => d.smbus 1 (leBytes 8 Config.serial.toNat)
def execSmbusReadRevision (s : State) : Host.Outcome State Fault Refusal := onDev s fun d => d.smbus 2 [2]
def execSmbusReadInputPower (s : State) : Host.Outcome State Fault Refusal := onDev s fun d => d.smbus 0x10 (leBytes 2 (d.meas 0 16))
def execSmbusReadInputVoltage (s : State) : Host.Outcome State Fault Refusal := onDev s fun d => d.smbus 0x11 (leBytes 2 (d.meas 16 16))
def execSmbusReadDieTemperature (s : State) : Host.Outcome State Fault Refusal := onDev s fun d => d.smbus 0x12 (leBytes 1 (d.meas 32 8))
def execSmbusReadHbmTemperature (s : State) : Host.Outcome State Fault Refusal := onDev s fun d => d.smbus 0x13 (leBytes 1 (d.meas 40 8))
def execSmbusReadGovernorLevel (s : State) : Host.Outcome State Fault Refusal := onDev s fun d => d.smbus 0x14 (leBytes 1 d.aoc.gov.level)

/-- SMBUS_OTHER_COMMAND (R343): not acknowledged. A command of Table 12.11 is another row's. -/
def execSmbusOtherCommand (_cmd : Byte) (s : State) : Host.Outcome State Fault Refusal := onDev s fun d => d

end Sys2Proof.Machine
end

