-- ==== Sys2Proof/Machine/PowerCmds.lean ====
section
/-!
DEFINITION. The commands of the power domains (R326 to R332) and of the governor (R334, R335).
-/

namespace Sys2Proof.Machine

/-- DOMAIN_TARGET_WRITE, CORE_TARGET_WRITE (R326, R328, R329). -/
def execDomainTargetWrite (v : Word) (s : State) : Host.Outcome State Fault Refusal := onDev s fun d => d.wr8 aDomTgt v
def execCoreTargetWrite (h : Fin 2) (v : Word) (s : State) : Host.Outcome State Fault Refusal := onDev s fun d => d.wr8 (aCore h.val) v

/-- WAKE_COMPLETE (R326, R328, R331): held while a domain it requires is not ON. -/
def execWakeComplete (x : Dom) (s : State) : Host.Outcome State Fault Refusal :=
  onDev s fun d =>
    if d.dom x != .waking || !((domNeeds x).all fun y => d.dom y == .on) then d
    else
      let d := (((d.setDom x .on).wakeState x).acnt 11 1).transitionDone x
      match x with
      | .link _ => d.crsTrained
      | .stack m => d.noteBack m
      | _ => d

/-- DRAIN_COMPLETE (R326). -/
def execDrainComplete (x : Dom) (s : State) : Host.Outcome State Fault Refusal :=
  onDev s fun d => if d.dom x != .draining then d else (((d.drainState x).setDom x .off).acnt 12 1).transitionDone x

/-- SELF_REFRESH_TRANSITION (R326). -/
def execSelfRefreshTransition (m : StackId) (s : State) : Host.Outcome State Fault Refusal :=
  onDev s fun d =>
    if !d.aoc.doms.moving.contains m then d
    else
      let d := d.updDoms fun x => { x with moving := x.moving.filter fun y => y != m }
      match d.dom (.stack m) with
      | .on => (d.setDom (.stack m) .selfRefresh).transitionDone (.stack m)
      | .selfRefresh => (d.setDom (.stack m) .on).transitionDone (.stack m)
      | _ => d

/-- CORE_IDLE_EXPIRY (R332). -/
def execCoreIdleExpiry (c : CoreId) (s : State) : Host.Outcome State Fault Refusal :=
  onDev s fun d =>
    if d.regFld (aPwr 0x80) 0 16 ≠ 0 && d.coreOn c && d.coreFree c && d.target (.core c) = 2 then
      d.autoTarget (.core c) fun d => (d.setTarget (.core c) 0).examine (.core c)
    else d

/-- HBM_IDLE_EXPIRY (R330, R332). -/
def execHbmIdleExpiry (m : StackId) (s : State) : Host.Outcome State Fault Refusal :=
  onDev s fun d =>
    if d.regFld (aPwr 0x80) 16 16 ≠ 0 && d.dom (.stack m) == .on && d.target (.stack m) ≠ 0 then
      d.autoTarget (.stack m) fun d => d.startMove m
    else d

/-- DIE_IDLE_EXPIRY (R332). -/
def execDieIdleExpiry (i : DieId) (s : State) : Host.Outcome State Fault Refusal :=
  onDev s fun d =>
    if d.regFld (aPwr 0x80) 32 16 ≠ 0 && d.dom (.die i) == .on && d.target (.die i) = 2 &&
      (allCores.filter fun c => dieOf c == i).all fun c => (d.dom (.core c)).down then
      d.autoTarget (.die i) fun d => (d.setTarget (.die i) 0).examine (.die i)
    else d

/-! The governor. -/

/-- The effective budget of a die (R335, Table 12.6). -/
def Dev.budget (d : Dev) (i : DieId) : Nat :=
  let b := min 4194304 (d.regFld (aPwr (0x90 + 8 * i.val)) 0 23)
  if d.aoc.gov.level < 5 then b else b * (20 - d.aoc.gov.level) / 16

/-- ACTIVITY_WINDOW (R334): a window begins where fabric time is a multiple of 256. -/
def execActivityWindow (i : DieId) (s : State) : Host.Outcome State Fault Refusal :=
  onDev s fun d =>
    if !d.hubOn || d.hub.ftime.ft.toNat % 256 ≠ 0 then d
    else d.updAoc fun a => { a with gov := { a.gov with units := vmap a.gov.units i fun _ => d.budget i } }

/-- PWR_GOV cap: above 850 as 850, below 200 as 200 (Table 12.16). -/
def Dev.powerCap (d : Dev) : Nat := max 200 (min 850 (d.regFld (aPwr 0x88) 0 16))

/-- The sensors are read: PWR_MEAS and the conditions of R335. -/
def Dev.sense (d : Dev) (r : Sensors) : Dev :=
  let d := d.setReg (aPwr 0xA0) (mkWord [(0, r.power.toNat), (16, r.volt.toNat), (32, r.tdie.toNat), (40, r.thbm.toNat)])
  let cap := d.powerCap
  d.updAoc fun a => { a with gov := { a.gov with
    overP := decide (cap < r.power.toNat), hot := decide (95 ≤ r.tdie.toNat), lowV := decide (r.volt.toNat < 42000) } }

/-- The level rises to `n`. Both records of R335 carry the highest level and the condition that raised it to there: what Table 14.7 lists, then the
other of the two (DEDUCED, log 61). -/
def Dev.raiseTo (d : Dev) (n : Nat) : Dev :=
  let g := d.aoc.gov
  if n ≤ g.level then d
  else
    let cond := b2n g.overP + 2 * b2n g.hot + 4 * b2n g.lowV
    let d := if g.level = 0 then
        ((d.hwSet (aPwr 0x88) 0x800000 0 0).event 0x2002 1 (leBytes 1 cond ++ leBytes 1 n)).updAoc fun a =>
          { a with gov := { a.gov with highest := 0, ms := 0 } }
      else d
    (d.updAoc fun a => { a with gov := { a.gov with
      level := n, highest := max a.gov.highest n, cond := if a.gov.highest < n then cond else a.gov.cond } }).acnt 13 1

/-- `ms` milliseconds pass with the level above 0. -/
def Dev.governorTime (d : Dev) (ms : Nat) : Dev :=
  if d.aoc.gov.level = 0 then d else (d.updAoc fun a => { a with gov := { a.gov with ms := a.gov.ms + ms } }).acnt 14 ms

/-- GOVERNOR_RAISE (R335): the readings of 1 ms. -/
def execGovernorRaise (r : Sensors) (s : State) : Host.Outcome State Fault Refusal :=
  onDev s fun d =>
    if !d.aocUp then d
    else
      let d := (d.governorTime 1).sense r
      let g := d.aoc.gov
      if g.overP || g.hot || g.lowV then d.raiseTo (min 15 (g.level + 1)) else d

/-- GOVERNOR_LOWER (R335): 10 ms without a condition, the power at 95 % of the cap or less. -/
def execGovernorLower (r : Sensors) (s : State) : Host.Outcome State Fault Refusal :=
  onDev s fun d =>
    if !d.aocUp then d
    else
      let d := (d.governorTime 10).sense r
      let g := d.aoc.gov
      if g.overP || g.hot || g.lowV || 95 * d.powerCap < 100 * r.power.toNat || g.level = 0 then d
      else
        let d := d.updAoc fun a => { a with gov := { a.gov with level := g.level - 1 } }
        if g.level = 1 then d.event 0x2003 0 (leBytes 1 g.highest ++ leBytes 4 g.ms ++ leBytes 1 g.cond) else d

/-- HARD_GOVERNOR_THRESHOLD (R335): input below 40 V. -/
def execHardGovernorThreshold (mV : BitVec 16) (s : State) : Host.Outcome State Fault Refusal :=
  onDev s fun d =>
    if !d.aocUp || 40000 ≤ mV.toNat then d
    else
      let d := (d.setRegFld (aPwr 0xA0) 16 16 mV.toNat).updAoc fun a => { a with gov := { a.gov with lowV := true } }
      d.raiseTo 15

end Sys2Proof.Machine
end

