-- ==== Sys2Proof/Machine/Replay.lean ====
section
/-!
DEFINITION. The commands of the input recorder (R285 to R289) and of the checkpoint region (R300).
-/

namespace Sys2Proof.Machine

/-- RPL_RECORD_START, RPL_REPLAY_START, RPL_STOP (R288): writes of RPL_CTL. -/
def execRplRecordStart (v : Word) (s : State) : Host.Outcome State Fault Refusal := onDev s fun d => d.wr8 (aRpl 0) v
def execRplReplayStart (v : Word) (s : State) : Host.Outcome State Fault Refusal := onDev s fun d => d.wr8 (aRpl 0) v
def execRplStop (v : Word) (s : State) : Host.Outcome State Fault Refusal := onDev s fun d => d.wr8 (aRpl 0) v

/-- CKP_BASE_WRITE (R300). -/
def execCkpBaseWrite (v : Word) (s : State) : Host.Outcome State Fault Refusal := onDev s fun d => d.wr8 (aCkp 0) v

/-- What a request of any type does (Table 11.3). -/
def runAny (m : List Byte) : Dev → Asker → List Byte → Dev :=
  match leAt m 3 1 with
  | 1 => Dev.runIdent
  | 2 => Dev.runLoad
  | 3 => Dev.runUnload
  | 4 => Dev.runLaunch
  | 5 => Dev.runHalt
  | 6 => Dev.runPause
  | 7 => Dev.runLresume
  | 8 => Dev.runSresume
  | 9 => Dev.runMemr
  | 10 => Dev.runMemw
  | 11 => Dev.runSnap
  | 12 => Dev.runEvread
  | 13 => Dev.runCourse
  | 14 => Dev.runCkpt
  | 15 => Dev.runRestore
  | 16 => (match leAt m 32 1 with
    | 1 => Dev.runWrite
    | 2 => Dev.runCommit
    | 3 => Dev.runAbort
    | 4 => Dev.runStatus
    | _ => Dev.runBegin)
  | 17 => (match leAt m 32 1 with
    | 1 => Dev.runReadQuote
    | 2 => Dev.runReadLog
    | 3 => Dev.runIdentity
    | _ => Dev.runQuote)
  | 18 => Dev.runSubscribe
  | 19 => Dev.runRplstop
  | _ => Dev.runUnknown

/-- A recorded request has to wait, as the live one would. -/
def Dev.holdAny (d : Dev) (m : List Byte) : Option Dev :=
  if d.aoc.memJob.isSome then some d
  else if leAt m 3 1 = 3 then d.holdUnload (m.drop 32) else none

/-- A recorded input takes effect: the device after it, and whether it did (R287). -/
def Dev.injectRecord (d : Dev) (kind unit : Nat) (payload : List Byte) : Dev × Bool :=
  match kind with
  | 1 => match d.holdAny payload with
    | some d => (d, false)
    | none => (d.ncpAccept (finOf 1 unit) 0 0 payload (runAny payload), true)
  | 2 | 3 => match d.quePush (finOf 31 unit) payload true with
    | (d, .wait) => (d, false)
    | (d, _) => (d, true)
  | 4 => (d.pinReceive unit (leAt payload 0 1 % 2 == 1), true)
  | 5 => (d.epochSample (BitVec.ofNat 64 (leAt payload 0 8)), true)
  | _ => (d, true)

/-- RPL_INJECT (R287): the record at the ring position, once fabric time has reached its instant plus the offset. The ring is read as any HBM
is (R207, R208); where it is unmapped replay ends (DESIGN CHOICE, log 59). -/
def execRplInject (s : State) : Host.Outcome State Fault Refusal :=
  onDev s fun d =>
    if d.rplState != 2 || !d.hub.recQ.isEmpty then d
    else
      let a := d.rplBase + d.rplPos
      if d.rplSize < d.rplPos + 32 || !d.rangeMapped a 32 then d.endReplay
      else if !d.rangeAwake a 32 then d.rangeWake a 32
      else
        let h := d.rdMem a 32
        let t := BitVec.ofNat 64 (leAt h 0 8) + d.reg (aRpl 0x20)
        let kind := leAt h 12 1 % 16
        let len := leAt h 14 2
        let now := d.hub.ftime.ft.toNat
        if now < t.toNat then d
        else if kind = 7 then ((d.eccRead a 32).1).endReplay
        else if kind = 6 then ((d.eccRead a 32).1).setRegFld (aRpl 0x18) 0 35 0
        else if !d.rangeMapped (a + 32) len then d.endReplay
        else if !d.rangeAwake (a + 32) len then d.rangeWake (a + 32) len
        else
          let pos := d.rplPos + 32 + 32 * ceilDiv len 32
          let r := d.injectRecord kind (leAt h 13 1) (d.rdMem (a + 32) len)
          if !r.2 then r.1
          else
            let d := (r.1.eccRead a (32 + len)).1
            let d := if d.rplState == 2 then d.setRegFld (aRpl 0x18) 0 35 pos else d
            let d := if 1 ≤ kind && kind ≤ 5 then d.hcnt 137 1 else d
            if t.toNat < now then (d.hwSet (aRpl 0x10) 8 0 0).hwInc (aRpl 0x10) 16 32 1 else d

end Sys2Proof.Machine
end

