-- ==== Sys2Proof/Machine/Writes.lean ====
section
/-!
DEFINITION. Register writes that the table lists as commands of their own (R151, R35, R88, R111, R140, Table 6.17), and a write to
any register (R10 to R12, R388 to R394).
-/

namespace Sys2Proof.Machine

/-- Byte `o` of a core's descriptor and tally region (R154). -/
def aDesc (c : CoreId) (o : Nat) : Nat := 0x00A000000000 + c.val * 0x20000 + o

def execTalValWrite (c : CoreId) (t : TallyId) (v : Word) (s : State) : Host.Outcome State Fault Refusal :=
  onDev s fun d => d.wr8 (aDesc c (0x18000 + 8 * t.val)) v
def execTalAddWrite (c : CoreId) (t : TallyId) (v : Word) (s : State) : Host.Outcome State Fault Refusal :=
  onDev s fun d => d.wr8 (aDesc c (0x18200 + 8 * t.val)) v
def execFmtMaxabsClr (c : CoreId) (v : Word) (s : State) : Host.Outcome State Fault Refusal := onDev s fun d => d.wr8 (aFmt c 0x300) v
def execArrCtlWrite (c : CoreId) (a : ArrayId) (v : Word) (s : State) : Host.Outcome State Fault Refusal := onDev s fun d => d.wr8 (aArrCtl c a) v
def execBedCtlWrite (c : CoreId) (a : ArrayId) (v : Word) (s : State) : Host.Outcome State Fault Refusal := onDev s fun d => d.wr8 (aBedCtl c a) v
def execPatCtlWrite (c : CoreId) (v : Word) (s : State) : Host.Outcome State Fault Refusal := onDev s fun d => d.wr8 (aPatCtl c) v
def execSeqCtlWrite (c : CoreId) (v : Word) (s : State) : Host.Outcome State Fault Refusal := onDev s fun d => d.wr8 (aSeqCtl c) v

/-- The spill queue whose push window an address lies in. -/
def pushWindow (a : Nat) : Option QueueId :=
  let g := (a - regBase) / 0x10000
  if regBase ≤ a && 0x120 ≤ g && g < 0x140 && 0x40 ≤ a % 0x10000 && a % 0x10000 < 0x80 then some (finOf 31 (g - 0x120)) else none

/-- REGISTER_WRITE (R10 to R12): a write of 8 to 64 bytes. One that meets a full queue waits there (R238), one that meets a full
transmit buffer waits there (R318). -/
def execRegisterWrite (addr : LAddr) (bytes : List Byte) (s : State) : Host.Outcome State Fault Refusal :=
  onDev s fun d =>
    let a := addr.toNat
    let tx := a - aGate 0x4000
    match pushWindow a with
    | some q => if a = aQue q 0x40 then d.pushCommand q bytes else (d.busWrite a bytes).1
    | none =>
      match fhCommandOf a with
      | some n => if bytes.length = 8 && d.pageOn a then d.fhCommand n (BitVec.ofNat 64 (leNat bytes)) else (d.busWrite a bytes).1
      | none =>
      if aGate 0x4000 ≤ a && tx < 0x2000 && a % 64 = 0 && bytes.length = 64 then d.gateEntries (finOf 1 (tx / 0x1000)) [bytes]
      else (d.busWrite a bytes).1

end Sys2Proof.Machine
end

