-- ==== Sys2Proof/Machine/Cycle.lean ====
section
/-!
DEFINITION. What a step does on an empty queue (DESIGN CHOICE, log 3): one A-clock cycle ends.
-/

namespace Sys2Proof.Machine

/-- An operation on an array that waits at the head of a queue for its place in a tile's order (R95). -/
def Dev.waitsForTile (d : Dev) (o : Op) : Bool :=
  o.phase == .queued && (o.isArr || o.opcode == 0x42 || o.opcode == 0x43 || o.opcode == 0x44) && !d.tileFree o &&
  (queuesOf o.opcode.toNat o.w).any fun q => (d.head o.ecore q).any fun x => x.id == o.id

/-- Counters CNT 34 + 2a, 53 and 54 (Table 14.4). -/
def Dev.countWaits (d : Dev) : Dev :=
  let ws := d.ops.filter fun o => d.waitsForTile o
  let cells := if ws.isEmpty then [] else allCores.flatMap fun c => (allArrays.filter fun a => ws.any fun o => o.ecore == c && o.earray == a).map fun a => (c, a)
  let d := cells.foldl (fun (d : Dev) x => d.cnt x.1 (34 + 2 * x.2.val) 1) d
  allCores.foldl (fun (d : Dev) c => (List.finRange 2).foldl (fun (d : Dev) h =>
    if ((d.core c).hods.get h).held.isSome then d.cnt c (53 + h.val) 1 else d) d) d

/-- What happens by itself in a cycle after its commands: the gate ports, the arrays, the engines, the hods' packets, the links and
the control ports do what the cycle lets them, scalar results become available, flush points are reached, the inputs of the cycle
are recorded, and the counts move. -/
def Dev.cycleWork (d : Dev) : Dev :=
  let d := d.gatesServe.countWaits.arrayCycle.engineCycle.packetsCycle.linksCycle.ctlCycle
  ((allCores.foldl (fun (d : Dev) c => d.dueCore c) d).flushCycle.recFlush).tickCounts

/-- The KEYSTONEs and FTWAITs of a last that resumed in the cycle before (R294). -/
def Dev.afterResume (d : Dev) (l : LastId) : Dev :=
  let keys := (d.strandsOf l).flatMap fun x => (d.strand x.1 x.2).keys.map fun k => k.1
  (keys.foldl (fun (d : Dev) k => d.ksDue k) d).pastWaits l

/-- The next cycle begins: the halves that a fault of the old one reached drain (R82), strands whose last operation has completed are
DONE (R197), pauses take hold (R170), waiting pops are served (R239), domains whose transition completed move on (R326), and lasts
resume (R199, R294, R298). -/
def Dev.nextCycle (d : Dev) : Dev :=
  let old := d.now
  let d := { d with cycle := d.cycle + 1, now := Now.init }.drainAll d.cycle old.drains
  let d := if old.faults.isEmpty then d else d.dropArrays (old.faults.map fun f => f.1)
  let d := d.movePtrs old.stk
  let d := old.firsts.foldl (fun (d : Dev) c => d.updCore c fun x => { x with lastStrand := 1 }) d
  let d := (allCores.foldl (fun (d : Dev) c => d.settleCore c) d).pausesBegin.popsServe
  let d := old.resumed.foldl (fun (d : Dev) l => d.afterResume l) d
  let d := (old.exams.foldl (fun (d : Dev) x => d.examineNext x) d).recServe.colsServe.loadsServe.countedReqs
  (old.wake.foldl (fun (d : Dev) l => d.resume l) d).ckpResume.showStart

/-- One A-clock cycle ends. -/
def Dev.cycleEnd (d : Dev) : Dev := d.cycleWork.nextCycle

end Sys2Proof.Machine
end

