-- ==== Sys2Proof/Machine/Scalar.lean ====
section
/-!
DEFINITION. Scalar instructions (R174 to R178), branches and calls (R179, R180).
-/

namespace Sys2Proof.Machine

/-- A format-S instruction writing `f ra rb` to rd with latency `n` (R173, R174). -/
def aluS (op n : Nat) (f : Word → Word → Word) (c : CoreId) (k : StrandId) (w : BitVec 56) (s : State) :
    Host.Outcome State Fault Refusal :=
  onDev s fun d => d.issue c k (mkInsn op w) fun d o =>
    let t := d.strand c k
    .ok (d.result o (wRd w) (f (t.rdS (wRa w)) (t.rdS (wRb w))) n)

/-- A format-S compare writing pd (R176). -/
def cmpS (op : Nat) (f : Word → Word → Bool) (c : CoreId) (k : StrandId) (w : BitVec 56) (s : State) :
    Host.Outcome State Fault Refusal :=
  onDev s fun d => d.issue c k (mkInsn op w) fun d o =>
    let t := d.strand c k
    .ok (d.resultP o (wPd w) (f (t.rdS (wRa w)) (t.rdS (wRb w))))

/-- A format-I instruction writing `f ra imm` to rd (R177). -/
def aluI (op : Nat) (f : Word → Nat → Word) (c : CoreId) (k : StrandId) (w : BitVec 56) (s : State) :
    Host.Outcome State Fault Refusal :=
  onDev s fun d => d.issue c k (mkInsn op w) fun d o =>
    .ok (d.result o (wRd w) (f ((d.strand c k).rdS (wRa w)) (wImm w)) 1)

/-- A format-I compare writing pd (R176, R177). -/
def cmpI (op : Nat) (f : Word → Word → Bool) (c : CoreId) (k : StrandId) (w : BitVec 56) (s : State) :
    Host.Outcome State Fault Refusal :=
  onDev s fun d => d.issue c k (mkInsn op w) fun d o =>
    .ok (d.resultP o (wPd w) (f ((d.strand c k).rdS (wRa w)) (sext32 (wImm w))))

/-- R175: quotients and remainders never fault. -/
def divS (a b : Word) : Word :=
  if b = 0 then 0xFFFFFFFFFFFFFFFF else BitVec.ofInt 64 (a.toInt.tdiv b.toInt)
def divU (a b : Word) : Word := if b = 0 then 0xFFFFFFFFFFFFFFFF else BitVec.ofNat 64 (a.toNat / b.toNat)
def remS (a b : Word) : Word := if b = 0 then a else BitVec.ofInt 64 (a.toInt.tmod b.toInt)
def remU (a b : Word) : Word := if b = 0 then a else BitVec.ofNat 64 (a.toNat % b.toNat)

/-- The high 64 bits of a 128-bit product. -/
def mulHighS (a b : Word) : Word := BitVec.ofInt 64 ((a.toInt * b.toInt) / ((2 ^ 64 : Nat) : Int))
def mulHighU (a b : Word) : Word := BitVec.ofNat 64 (a.toNat * b.toNat / 2 ^ 64)

/-- ADD (R174, Table 7.3). -/
def execAdd (c : CoreId) (k : StrandId) (w : BitVec 56) (s : State) :
    Host.Outcome State Fault Refusal :=
  aluS 0x08 1 (fun a b => a + b) c k w s

/-- SUB (R174, Table 7.3). -/
def execSub (c : CoreId) (k : StrandId) (w : BitVec 56) (s : State) :
    Host.Outcome State Fault Refusal :=
  aluS 0x09 1 (fun a b => a - b) c k w s

/-- MUL (R174, Table 7.3). -/
def execMul (c : CoreId) (k : StrandId) (w : BitVec 56) (s : State) :
    Host.Outcome State Fault Refusal :=
  aluS 0x0A 3 (fun a b => a * b) c k w s

/-- MULHS (R174, Table 7.3). -/
def execMulhs (c : CoreId) (k : StrandId) (w : BitVec 56) (s : State) :
    Host.Outcome State Fault Refusal :=
  aluS 0x0B 3 (mulHighS) c k w s

/-- MULHU (R174, Table 7.3). -/
def execMulhu (c : CoreId) (k : StrandId) (w : BitVec 56) (s : State) :
    Host.Outcome State Fault Refusal :=
  aluS 0x0C 3 (mulHighU) c k w s

/-- DIVS (R175, Table 7.3). -/
def execDivs (c : CoreId) (k : StrandId) (w : BitVec 56) (s : State) :
    Host.Outcome State Fault Refusal :=
  aluS 0x0D 24 (divS) c k w s

/-- DIVU (R175, Table 7.3). -/
def execDivu (c : CoreId) (k : StrandId) (w : BitVec 56) (s : State) :
    Host.Outcome State Fault Refusal :=
  aluS 0x0E 24 (divU) c k w s

/-- REMS (R175, Table 7.3). -/
def execRems (c : CoreId) (k : StrandId) (w : BitVec 56) (s : State) :
    Host.Outcome State Fault Refusal :=
  aluS 0x0F 24 (remS) c k w s

/-- REMU (R175, Table 7.3). -/
def execRemu (c : CoreId) (k : StrandId) (w : BitVec 56) (s : State) :
    Host.Outcome State Fault Refusal :=
  aluS 0x10 24 (remU) c k w s

/-- AND (R174, Table 7.3). -/
def execAnd (c : CoreId) (k : StrandId) (w : BitVec 56) (s : State) :
    Host.Outcome State Fault Refusal :=
  aluS 0x11 1 (fun a b => a &&& b) c k w s

/-- OR (R174, Table 7.3). -/
def execOr (c : CoreId) (k : StrandId) (w : BitVec 56) (s : State) :
    Host.Outcome State Fault Refusal :=
  aluS 0x12 1 (fun a b => a ||| b) c k w s

/-- XOR (R174, Table 7.3). -/
def execXor (c : CoreId) (k : StrandId) (w : BitVec 56) (s : State) :
    Host.Outcome State Fault Refusal :=
  aluS 0x13 1 (fun a b => a ^^^ b) c k w s

/-- SHL (R174, Table 7.3). -/
def execShl (c : CoreId) (k : StrandId) (w : BitVec 56) (s : State) :
    Host.Outcome State Fault Refusal :=
  aluS 0x14 1 (fun a b => a <<< (b.toNat % 64)) c k w s

/-- SHR (R174, Table 7.3). -/
def execShr (c : CoreId) (k : StrandId) (w : BitVec 56) (s : State) :
    Host.Outcome State Fault Refusal :=
  aluS 0x15 1 (fun a b => a >>> (b.toNat % 64)) c k w s

/-- SRA (R174, Table 7.3). -/
def execSra (c : CoreId) (k : StrandId) (w : BitVec 56) (s : State) :
    Host.Outcome State Fault Refusal :=
  aluS 0x16 1 (fun a b => a.sshiftRight (b.toNat % 64)) c k w s

/-- CEQ (R174, R176). -/
def execCeq (c : CoreId) (k : StrandId) (w : BitVec 56) (s : State) :
    Host.Outcome State Fault Refusal :=
  cmpS 0x17 (fun a b => a == b) c k w s

/-- CNE (R174, R176). -/
def execCne (c : CoreId) (k : StrandId) (w : BitVec 56) (s : State) :
    Host.Outcome State Fault Refusal :=
  cmpS 0x18 (fun a b => a != b) c k w s

/-- CLT (R174, R176). -/
def execClt (c : CoreId) (k : StrandId) (w : BitVec 56) (s : State) :
    Host.Outcome State Fault Refusal :=
  cmpS 0x19 (fun a b => a.slt b) c k w s

/-- CLTU (R174, R176). -/
def execCltu (c : CoreId) (k : StrandId) (w : BitVec 56) (s : State) :
    Host.Outcome State Fault Refusal :=
  cmpS 0x1A (fun a b => a.ult b) c k w s

/-- CLE (R174, R176). -/
def execCle (c : CoreId) (k : StrandId) (w : BitVec 56) (s : State) :
    Host.Outcome State Fault Refusal :=
  cmpS 0x1B (fun a b => a.sle b) c k w s

/-- CLEU (R174, R176). -/
def execCleu (c : CoreId) (k : StrandId) (w : BitVec 56) (s : State) :
    Host.Outcome State Fault Refusal :=
  cmpS 0x1C (fun a b => a.ule b) c k w s

/-- ADDI (R177, Table 7.4). -/
def execAddi (c : CoreId) (k : StrandId) (w : BitVec 56) (s : State) :
    Host.Outcome State Fault Refusal :=
  aluI 0x24 (fun a i => a + sext32 i) c k w s

/-- ANDI (R177, Table 7.4). -/
def execAndi (c : CoreId) (k : StrandId) (w : BitVec 56) (s : State) :
    Host.Outcome State Fault Refusal :=
  aluI 0x25 (fun a i => a &&& BitVec.ofNat 64 i) c k w s

/-- ORI (R177, Table 7.4). -/
def execOri (c : CoreId) (k : StrandId) (w : BitVec 56) (s : State) :
    Host.Outcome State Fault Refusal :=
  aluI 0x26 (fun a i => a ||| BitVec.ofNat 64 i) c k w s

/-- XORI (R177, Table 7.4). -/
def execXori (c : CoreId) (k : StrandId) (w : BitVec 56) (s : State) :
    Host.Outcome State Fault Refusal :=
  aluI 0x27 (fun a i => a ^^^ BitVec.ofNat 64 i) c k w s

/-- SHLI (R177, Table 7.4). -/
def execShli (c : CoreId) (k : StrandId) (w : BitVec 56) (s : State) :
    Host.Outcome State Fault Refusal :=
  aluI 0x28 (fun a i => a <<< i) c k w s

/-- SHRI (R177, Table 7.4). -/
def execShri (c : CoreId) (k : StrandId) (w : BitVec 56) (s : State) :
    Host.Outcome State Fault Refusal :=
  aluI 0x29 (fun a i => a >>> i) c k w s

/-- SRAI (R177, Table 7.4). -/
def execSrai (c : CoreId) (k : StrandId) (w : BitVec 56) (s : State) :
    Host.Outcome State Fault Refusal :=
  aluI 0x2A (fun a i => a.sshiftRight i) c k w s

/-- LDIH (R177, Table 7.4). -/
def execLdih (c : CoreId) (k : StrandId) (w : BitVec 56) (s : State) :
    Host.Outcome State Fault Refusal :=
  aluI 0x2D (fun a i => BitVec.ofNat 64 (a.toNat % 2 ^ 32 + i * 2 ^ 32)) c k w s

/-- CEQI (R176, R177). -/
def execCeqi (c : CoreId) (k : StrandId) (w : BitVec 56) (s : State) :
    Host.Outcome State Fault Refusal :=
  cmpI 0x2B (fun a b => a == b) c k w s

/-- CLTI (R176, R177). -/
def execClti (c : CoreId) (k : StrandId) (w : BitVec 56) (s : State) :
    Host.Outcome State Fault Refusal :=
  cmpI 0x2C (fun a b => a.slt b) c k w s

/-- SEL (R177): ra if p xor neg, else rb. -/
def execSel (c : CoreId) (k : StrandId) (w : BitVec 56) (s : State) :
    Host.Outcome State Fault Refusal :=
  onDev s fun d => d.issue c k (mkInsn 0x2E w) fun d o =>
    let t := d.strand c k
    let v := if xor (t.rdP (finOf 7 (wImm w / 32))) ((wImm w).testBit 8) then t.rdS (wRa w) else t.rdS (finOf 31 (wImm w))
    .ok (d.result o (wRd w) v 1)

/-- PRD (R177): a predicate as 0 or 1. -/
def execPrd (c : CoreId) (k : StrandId) (w : BitVec 56) (s : State) :
    Host.Outcome State Fault Refusal :=
  onDev s fun d => d.issue c k (mkInsn 0x2F w) fun d o =>
    .ok (d.result o (wRd w) (if (d.strand c k).rdP (finOf 7 (wImm w)) then 1 else 0) 1)

/-- The values of GETS (R178, Table 7.5). -/
def Dev.getsValue (d : Dev) (c : CoreId) (k : StrandId) (code : Nat) : Word :=
  match code with
  | 0 => BitVec.ofNat 64 c.val
  | 1 => BitVec.ofNat 64 k.val
  | 2 => match d.strandLast c k with
    | some l => BitVec.ofNat 64 l.val
    | none => 0
  | 3 => BitVec.ofNat 64 d.ownDev
  | 4 => d.hub.ftime.ft
  | 5 => BitVec.ofNat 64 (sliceBase c)
  | 6 => 2
  | _ => mkWord [(0, d.width c 0), (8, d.width c 1), (16, d.width c 2), (24, d.width c 3)]

/-- GETS (R178). -/
def execGets (c : CoreId) (k : StrandId) (w : BitVec 56) (s : State) :
    Host.Outcome State Fault Refusal :=
  onDev s fun d => d.issue c k (mkInsn 0x30 w) fun d o => .ok (d.result o (wRd w) (d.getsValue c k (wImm w)) 1)

/-- TRD (R177, R150): the tally's value at the end of the previous cycle. -/
def execTrd (c : CoreId) (k : StrandId) (w : BitVec 56) (s : State) :
    Host.Outcome State Fault Refusal :=
  onDev s fun d => d.issue c k (mkInsn 0x31 w) fun d o =>
    .ok (d.result o (wRd w) (BitVec.ofNat 64 ((d.core c).tallies.get (finOf 63 (wImm w))).start) 1)

/-- The strand goes on at `target`; its next dispatch comes in c + 4 at the earliest (R147, R173). -/
def Dev.jump (d : Dev) (c : CoreId) (k : StrandId) (target : Word) : Dev :=
  d.updStrand c k fun s => { s with
    pc := target.setWidth 48, pcWild := decide (target.toNat ≥ 2 ^ 48), notBefore := d.cycle + 4 }

/-- b + 8 × offset. -/
def branchTarget (b : LAddr) (off : Nat) : Word := b.setWidth 64 + (sext32 off) * 8

/-- BR (R179). -/
def execBr (c : CoreId) (k : StrandId) (w : BitVec 56) (s : State) :
    Host.Outcome State Fault Refusal :=
  onDev s fun d => d.issue c k (mkInsn 0x34 w) fun d o =>
    let d := if xor ((d.strand c k).rdP (wBp w)) (wBneg w) then d.jump c k (branchTarget o.pc (wImm w)) else d
    .ok (d.postAt o (d.cycle + 1))

/-- LOOP (R179): the counter is decremented first. -/
def execLoop (c : CoreId) (k : StrandId) (w : BitVec 56) (s : State) :
    Host.Outcome State Fault Refusal :=
  onDev s fun d => d.issue c k (mkInsn 0x35 w) fun d o =>
    let t := d.strand c k
    let n := t.rdS (wRa w) - 1
    let d := if n ≠ 0 && xor (t.rdP (wBp w)) (wBneg w) then d.jump c k (branchTarget o.pc (wImm w)) else d
    .ok (d.result o (wRa w) n 1)

/-- JR (R179). -/
def execJr (c : CoreId) (k : StrandId) (w : BitVec 56) (s : State) :
    Host.Outcome State Fault Refusal :=
  onDev s fun d => d.issue c k (mkInsn 0x36 w) fun d o =>
    let t := d.strand c k
    let d := if xor (t.rdP (wBp w)) (wBneg w) then d.jump c k (t.rdS (wRa w) + (sext32 (wImm w)) * 8) else d
    .ok (d.postAt o (d.cycle + 1))

/-- CALL (R180). -/
def execCall (c : CoreId) (k : StrandId) (w : BitVec 56) (s : State) :
    Host.Outcome State Fault Refusal :=
  onDev s fun d => d.issue c k (mkInsn 0x37 w) fun d o =>
    .ok ((d.jump c k (branchTarget o.pc (wImm w))).result o (wRd w) (o.pc.setWidth 64 + 8) 1)

end Sys2Proof.Machine
end

