-- ==== Sys2Proof/Machine/Dispatch.lean ====
section
/-!
DEFINITION. What each command does: one arm per constructor of Instr.
-/

namespace Sys2Proof.Machine

def exec (i : Instr) (s : State) : Host.Outcome State Fault Refusal :=
  match i with
  | .add c k w => Sys2Proof.Machine.execAdd c k w s
  | .sub c k w => Sys2Proof.Machine.execSub c k w s
  | .mul c k w => Sys2Proof.Machine.execMul c k w s
  | .mulhs c k w => Sys2Proof.Machine.execMulhs c k w s
  | .mulhu c k w => Sys2Proof.Machine.execMulhu c k w s
  | .divs c k w => Sys2Proof.Machine.execDivs c k w s
  | .divu c k w => Sys2Proof.Machine.execDivu c k w s
  | .rems c k w => Sys2Proof.Machine.execRems c k w s
  | .remu c k w => Sys2Proof.Machine.execRemu c k w s
  | .and c k w => Sys2Proof.Machine.execAnd c k w s
  | .or c k w => Sys2Proof.Machine.execOr c k w s
  | .xor c k w => Sys2Proof.Machine.execXor c k w s
  | .shl c k w => Sys2Proof.Machine.execShl c k w s
  | .shr c k w => Sys2Proof.Machine.execShr c k w s
  | .sra c k w => Sys2Proof.Machine.execSra c k w s
  | .ceq c k w => Sys2Proof.Machine.execCeq c k w s
  | .cne c k w => Sys2Proof.Machine.execCne c k w s
  | .clt c k w => Sys2Proof.Machine.execClt c k w s
  | .cltu c k w => Sys2Proof.Machine.execCltu c k w s
  | .cle c k w => Sys2Proof.Machine.execCle c k w s
  | .cleu c k w => Sys2Proof.Machine.execCleu c k w s
  | .addi c k w => Sys2Proof.Machine.execAddi c k w s
  | .andi c k w => Sys2Proof.Machine.execAndi c k w s
  | .ori c k w => Sys2Proof.Machine.execOri c k w s
  | .xori c k w => Sys2Proof.Machine.execXori c k w s
  | .shli c k w => Sys2Proof.Machine.execShli c k w s
  | .shri c k w => Sys2Proof.Machine.execShri c k w s
  | .srai c k w => Sys2Proof.Machine.execSrai c k w s
  | .ceqi c k w => Sys2Proof.Machine.execCeqi c k w s
  | .clti c k w => Sys2Proof.Machine.execClti c k w s
  | .ldih c k w => Sys2Proof.Machine.execLdih c k w s
  | .sel c k w => Sys2Proof.Machine.execSel c k w s
  | .prd c k w => Sys2Proof.Machine.execPrd c k w s
  | .gets c k w => Sys2Proof.Machine.execGets c k w s
  | .trd c k w => Sys2Proof.Machine.execTrd c k w s
  | .br c k w => Sys2Proof.Machine.execBr c k w s
  | .loop c k w => Sys2Proof.Machine.execLoop c k w s
  | .jr c k w => Sys2Proof.Machine.execJr c k w s
  | .call c k w => Sys2Proof.Machine.execCall c k w s
  | .ld8u c k w => Sys2Proof.Machine.execLd8u c k w s
  | .ld8s c k w => Sys2Proof.Machine.execLd8s c k w s
  | .ld16u c k w => Sys2Proof.Machine.execLd16u c k w s
  | .ld16s c k w => Sys2Proof.Machine.execLd16s c k w s
  | .ld32u c k w => Sys2Proof.Machine.execLd32u c k w s
  | .ld32s c k w => Sys2Proof.Machine.execLd32s c k w s
  | .ld64 c k w => Sys2Proof.Machine.execLd64 c k w s
  | .st8 c k w => Sys2Proof.Machine.execSt8 c k w s
  | .st16 c k w => Sys2Proof.Machine.execSt16 c k w s
  | .st32 c k w => Sys2Proof.Machine.execSt32 c k w s
  | .st64 c k w => Sys2Proof.Machine.execSt64 c k w s
  | .ldg c k w => Sys2Proof.Machine.execLdg c k w s
  | .stg c k w => Sys2Proof.Machine.execStg c k w s
  | .aadd c k w => Sys2Proof.Machine.execAadd c k w s
  | .mma c k w => Sys2Proof.Machine.execMma c k w s
  | .mmalw c k w => Sys2Proof.Machine.execMmalw c k w s
  | .finish c k w => Sys2Proof.Machine.execFinish c k w s
  | .lift c k w => Sys2Proof.Machine.execLift c k w s
  | .reload c k w => Sys2Proof.Machine.execReload c k w s
  | .vop c k w => Sys2Proof.Machine.execVop c k w s
  | .vred c k w => Sys2Proof.Machine.execVred c k w s
  | .sfn c k w => Sys2Proof.Machine.execSfn c k w s
  | .smax1 c k w => Sys2Proof.Machine.execSmax1 c k w s
  | .smax2 c k w => Sys2Proof.Machine.execSmax2 c k w s
  | .plook c k w => Sys2Proof.Machine.execPlook c k w s
  | .pload c k w => Sys2Proof.Machine.execPload c k w s
  | .pswap c k w => Sys2Proof.Machine.execPswap c k w s
  | .cvt c k w => Sys2Proof.Machine.execCvt c k w s
  | .arm c k w => Sys2Proof.Machine.execArm c k w s
  | .rearm c k w => Sys2Proof.Machine.execRearm c k w s
  | .swap c k w => Sys2Proof.Machine.execSwap c k w s
  | .tadd c k w => Sys2Proof.Machine.execTadd c k w s
  | .tset c k w => Sys2Proof.Machine.execTset c k w s
  | .keystone c k w => Sys2Proof.Machine.execKeystone c k w s
  | .ftwait c k w => Sys2Proof.Machine.execFtwait c k w s
  | .nop c k w => Sys2Proof.Machine.execNop c k w s
  | .halt c k w => Sys2Proof.Machine.execHalt c k w s
  | .trap c k w => Sys2Proof.Machine.execTrap c k w s
  | .snap c k w => Sys2Proof.Machine.execSnap c k w s
  | .tgrpb c k w => Sys2Proof.Machine.execTgrpb c k w s
  | .tgrpe c k w => Sys2Proof.Machine.execTgrpe c k w s
  | .csave c k w => Sys2Proof.Machine.execCsave c k w s
  | .crest c k w => Sys2Proof.Machine.execCrest c k w s
  | .frd c k w => Sys2Proof.Machine.execFrd c k w s
  | .fclr c k w => Sys2Proof.Machine.execFclr c k w s
  | .mxclr c k w => Sys2Proof.Machine.execMxclr c k w s
  | .ftst c k w => Sys2Proof.Machine.execFtst c k w s
  | .fetchReturn c k line => Sys2Proof.Machine.execFetchReturn c k line s
  | .loadDataReturn c k id => Sys2Proof.Machine.execLoadDataReturn c k id s
  | .storeComplete c k id => Sys2Proof.Machine.execStoreComplete c k id s
  | .mmaStart c a u => Sys2Proof.Machine.execMmaStart c a u s
  | .weightLoadStart c a u => Sys2Proof.Machine.execWeightLoadStart c a u s
  | .passStart c a u => Sys2Proof.Machine.execPassStart c a u s
  | .mmaComplete c a u => Sys2Proof.Machine.execMmaComplete c a u s
  | .mmalwComplete c a u => Sys2Proof.Machine.execMmalwComplete c a u s
  | .halfDrainEnd c a u => Sys2Proof.Machine.execHalfDrainEnd c a u s
  | .finishStart c a => Sys2Proof.Machine.execFinishStart c a s
  | .finishComplete c a => Sys2Proof.Machine.execFinishComplete c a s
  | .slicePortStart c => Sys2Proof.Machine.execSlicePortStart c s
  | .liftComplete c => Sys2Proof.Machine.execLiftComplete c s
  | .reloadComplete c => Sys2Proof.Machine.execReloadComplete c s
  | .vectorStart c => Sys2Proof.Machine.execVectorStart c s
  | .vopComplete c => Sys2Proof.Machine.execVopComplete c s
  | .vredComplete c => Sys2Proof.Machine.execVredComplete c s
  | .sfuStart c => Sys2Proof.Machine.execSfuStart c s
  | .sfnComplete c => Sys2Proof.Machine.execSfnComplete c s
  | .smax1Complete c => Sys2Proof.Machine.execSmax1Complete c s
  | .smax2Complete c => Sys2Proof.Machine.execSmax2Complete c s
  | .plookStart c => Sys2Proof.Machine.execPlookStart c s
  | .plookComplete c => Sys2Proof.Machine.execPlookComplete c s
  | .pswapProcess c => Sys2Proof.Machine.execPswapProcess c s
  | .ploadPortEntry c => Sys2Proof.Machine.execPloadPortEntry c s
  | .ploadWriteStart c => Sys2Proof.Machine.execPloadWriteStart c s
  | .ploadComplete c => Sys2Proof.Machine.execPloadComplete c s
  | .cvtStart c => Sys2Proof.Machine.execCvtStart c s
  | .cvtComplete c => Sys2Proof.Machine.execCvtComplete c s
  | .stealRound d => Sys2Proof.Machine.execStealRound d s
  | .armTaken h => Sys2Proof.Machine.execArmTaken h s
  | .rearmTaken h => Sys2Proof.Machine.execRearmTaken h s
  | .swapTaken h => Sys2Proof.Machine.execSwapTaken h s
  | .transferIssue h => Sys2Proof.Machine.execTransferIssue h s
  | .transferComplete h n => Sys2Proof.Machine.execTransferComplete h n s
  | .shadowRunActivate h m => Sys2Proof.Machine.execShadowRunActivate h m s
  | .deadlineMiss h m tile => Sys2Proof.Machine.execDeadlineMiss h m tile s
  | .push q bytes => Sys2Proof.Machine.execPush q bytes s
  | .deferredPush q => Sys2Proof.Machine.execDeferredPush q s
  | .pop q width => Sys2Proof.Machine.execPop q width s
  | .queFlush q v => Sys2Proof.Machine.execQueFlush q v s
  | .queCfgWrite q r v => Sys2Proof.Machine.execQueCfgWrite q r v s
  | .fhArm n => Sys2Proof.Machine.execFhArm n s
  | .fhRearm n => Sys2Proof.Machine.execFhRearm n s
  | .fhSwap n => Sys2Proof.Machine.execFhSwap n s
  | .talValWrite c t v => Sys2Proof.Machine.execTalValWrite c t v s
  | .talAddWrite c t v => Sys2Proof.Machine.execTalAddWrite c t v s
  | .fmtMaxabsClr c v => Sys2Proof.Machine.execFmtMaxabsClr c v s
  | .arrCtlWrite c a v => Sys2Proof.Machine.execArrCtlWrite c a v s
  | .bedCtlWrite c a v => Sys2Proof.Machine.execBedCtlWrite c a v s
  | .patCtlWrite c v => Sys2Proof.Machine.execPatCtlWrite c v s
  | .seqCtlWrite c v => Sys2Proof.Machine.execSeqCtlWrite c v s
  | .registerWrite addr bytes => Sys2Proof.Machine.execRegisterWrite addr bytes s
  | .ncpDatagramArrival p g => Sys2Proof.Machine.execNcpDatagramArrival p g s
  | .ncpUnknownType p => Sys2Proof.Machine.execNcpUnknownType p s
  | .ncpIdent p => Sys2Proof.Machine.execNcpIdent p s
  | .ncpLoad p => Sys2Proof.Machine.execNcpLoad p s
  | .loaderWriteSections l => Sys2Proof.Machine.execLoaderWriteSections l s
  | .ncpUnload p => Sys2Proof.Machine.execNcpUnload p s
  | .ncpLaunch p => Sys2Proof.Machine.execNcpLaunch p s
  | .launchAtInstant l => Sys2Proof.Machine.execLaunchAtInstant l s
  | .ncpHalt p => Sys2Proof.Machine.execNcpHalt p s
  | .ncpPause p => Sys2Proof.Machine.execNcpPause p s
  | .pauseComplete l => Sys2Proof.Machine.execPauseComplete l s
  | .saveComplete x => Sys2Proof.Machine.execSaveComplete x s
  | .digestComplete x => Sys2Proof.Machine.execDigestComplete x s
  | .ncpLresume p => Sys2Proof.Machine.execNcpLresume p s
  | .ncpSresume p => Sys2Proof.Machine.execNcpSresume p s
  | .ncpMemr p => Sys2Proof.Machine.execNcpMemr p s
  | .ncpMemw p => Sys2Proof.Machine.execNcpMemw p s
  | .ncpSnap p => Sys2Proof.Machine.execNcpSnap p s
  | .ncpEvread p => Sys2Proof.Machine.execNcpEvread p s
  | .ncpCourse p => Sys2Proof.Machine.execNcpCourse p s
  | .ncpCkpt p => Sys2Proof.Machine.execNcpCkpt p s
  | .ncpRestore p => Sys2Proof.Machine.execNcpRestore p s
  | .restoreComplete x => Sys2Proof.Machine.execRestoreComplete x s
  | .ncpSubscribe p => Sys2Proof.Machine.execNcpSubscribe p s
  | .ncpRplstop p => Sys2Proof.Machine.execNcpRplstop p s
  | .answerCacheExpiry n => Sys2Proof.Machine.execAnswerCacheExpiry n s
  | .fwupdBegin p => Sys2Proof.Machine.execFwupdBegin p s
  | .fwupdWrite p => Sys2Proof.Machine.execFwupdWrite p s
  | .fwupdCommit p => Sys2Proof.Machine.execFwupdCommit p s
  | .fwupdAbort p => Sys2Proof.Machine.execFwupdAbort p s
  | .fwupdStatus p => Sys2Proof.Machine.execFwupdStatus p s
  | .fwupdSessionTimeout => Sys2Proof.Machine.execFwupdSessionTimeout s
  | .attestQuote p => Sys2Proof.Machine.execAttestQuote p s
  | .attestReadQuote p => Sys2Proof.Machine.execAttestReadQuote p s
  | .attestReadLog p => Sys2Proof.Machine.execAttestReadLog p s
  | .attestIdentity p => Sys2Proof.Machine.execAttestIdentity p s
  | .arpRequest e r => Sys2Proof.Machine.execArpRequest e r s
  | .ndpRequest e r => Sys2Proof.Machine.execNdpRequest e r s
  | .icmpEchoRequest e r => Sys2Proof.Machine.execIcmpEchoRequest e r s
  | .gptpMessage p t locked => Sys2Proof.Machine.execGptpMessage p t locked s
  | .gateControlCycle p => Sys2Proof.Machine.execGateControlCycle p s
  | .ctlpGcfgWrite p v => Sys2Proof.Machine.execCtlpGcfgWrite p v s
  | .nbpDatagramReceive g d => Sys2Proof.Machine.execNbpDatagramReceive g d s
  | .pfcFrameReceive g cls xoff => Sys2Proof.Machine.execPfcFrameReceive g cls xoff s
  | .gateTransmitPush g bytes => Sys2Proof.Machine.execGateTransmitPush g bytes s
  | .linkTrainingComplete l => Sys2Proof.Machine.execLinkTrainingComplete l s
  | .linkTrainingTimeout l => Sys2Proof.Machine.execLinkTrainingTimeout l s
  | .lossOfLight l => Sys2Proof.Machine.execLossOfLight l s
  | .lightReturn l => Sys2Proof.Machine.execLightReturn l s
  | .fabLnkCfgWrite l v => Sys2Proof.Machine.execFabLnkCfgWrite l v s
  | .frameReceive l f => Sys2Proof.Machine.execFrameReceive l f s
  | .fabricTimeSlew => Sys2Proof.Machine.execFabricTimeSlew s
  | .packetForward r => Sys2Proof.Machine.execPacketForward r s
  | .wr p => Sys2Proof.Machine.execWr p s
  | .rd p => Sys2Proof.Machine.execRd p s
  | .aa p => Sys2Proof.Machine.execAa p s
  | .mwr p => Sys2Proof.Machine.execMwr p s
  | .wack p => Sys2Proof.Machine.execWack p s
  | .rdr p => Sys2Proof.Machine.execRdr p s
  | .aar p => Sys2Proof.Machine.execAar p s
  | .err p => Sys2Proof.Machine.execErr p s
  | .mack p => Sys2Proof.Machine.execMack p s
  | .requestTimeout tag => Sys2Proof.Machine.execRequestTimeout tag s
  | .linkNotice dev map => Sys2Proof.Machine.execLinkNotice dev map s
  | .fabCrsStart v => Sys2Proof.Machine.execFabCrsStart v s
  | .identityPacket l serial port rev => Sys2Proof.Machine.execIdentityPacket l serial port rev s
  | .cornerElection l serial => Sys2Proof.Machine.execCornerElection l serial s
  | .coordinateOffer l x y z => Sys2Proof.Machine.execCoordinateOffer l x y z s
  | .linkMapFlood dev map => Sys2Proof.Machine.execLinkMapFlood dev map s
  | .coursingRelease ok shape => Sys2Proof.Machine.execCoursingRelease ok shape s
  | .fabCoordWrite v => Sys2Proof.Machine.execFabCoordWrite v s
  | .keystoneArrival k port => Sys2Proof.Machine.execKeystoneArrival k port s
  | .keystoneRelease k instant round => Sys2Proof.Machine.execKeystoneRelease k instant round s
  | .keystoneReleaseInstant k => Sys2Proof.Machine.execKeystoneReleaseInstant k s
  | .keystoneBreak k port => Sys2Proof.Machine.execKeystoneBreak k port s
  | .ksCfgWrite k v => Sys2Proof.Machine.execKsCfgWrite k v s
  | .ftwaitInstant c k => Sys2Proof.Machine.execFtwaitInstant c k s
  | .colStart ch v => Sys2Proof.Machine.execColStart ch v s
  | .col p => Sys2Proof.Machine.execCol p s
  | .collectiveDone ch => Sys2Proof.Machine.execCollectiveDone ch s
  | .rplRecordStart v => Sys2Proof.Machine.execRplRecordStart v s
  | .rplReplayStart v => Sys2Proof.Machine.execRplReplayStart v s
  | .rplStop v => Sys2Proof.Machine.execRplStop v s
  | .rplInject => Sys2Proof.Machine.execRplInject s
  | .ckpBaseWrite v => Sys2Proof.Machine.execCkpBaseWrite v s
  | .domainTargetWrite v => Sys2Proof.Machine.execDomainTargetWrite v s
  | .coreTargetWrite h v => Sys2Proof.Machine.execCoreTargetWrite h v s
  | .wakeComplete x => Sys2Proof.Machine.execWakeComplete x s
  | .drainComplete x => Sys2Proof.Machine.execDrainComplete x s
  | .selfRefreshTransition m => Sys2Proof.Machine.execSelfRefreshTransition m s
  | .coreIdleExpiry c => Sys2Proof.Machine.execCoreIdleExpiry c s
  | .hbmIdleExpiry m => Sys2Proof.Machine.execHbmIdleExpiry m s
  | .dieIdleExpiry d => Sys2Proof.Machine.execDieIdleExpiry d s
  | .activityWindow d => Sys2Proof.Machine.execActivityWindow d s
  | .governorRaise r => Sys2Proof.Machine.execGovernorRaise r s
  | .governorLower r => Sys2Proof.Machine.execGovernorLower r s
  | .hardGovernorThreshold mV => Sys2Proof.Machine.execHardGovernorThreshold mV s
  | .brownOut => Sys2Proof.Machine.execBrownOut s
  | .overVoltage => Sys2Proof.Machine.execOverVoltage s
  | .thermalTrip => Sys2Proof.Machine.execThermalTrip s
  | .thermalResume => Sys2Proof.Machine.execThermalResume s
  | .watchdogExpiry => Sys2Proof.Machine.execWatchdogExpiry s
  | .powerGood => Sys2Proof.Machine.execPowerGood s
  | .maskRomBoot => Sys2Proof.Machine.execMaskRomBoot s
  | .rsaRegenerationComplete => Sys2Proof.Machine.execRsaRegenerationComplete s
  | .keeperServiceReady => Sys2Proof.Machine.execKeeperServiceReady s
  | .selfTestComplete r => Sys2Proof.Machine.execSelfTestComplete r s
  | .computeServiceReady => Sys2Proof.Machine.execComputeServiceReady s
  | .standingLaunchAfterCoursing e => Sys2Proof.Machine.execStandingLaunchAfterCoursing e s
  | .standingRestart e => Sys2Proof.Machine.execStandingRestart e s
  | .syncEdge => Sys2Proof.Machine.execSyncEdge s
  | .plumbNEdge level => Sys2Proof.Machine.execPlumbNEdge level s
  | .presentNEdge level => Sys2Proof.Machine.execPresentNEdge level s
  | .syncPulse v => Sys2Proof.Machine.execSyncPulse v s
  | .smbusAddressResolution addr => Sys2Proof.Machine.execSmbusAddressResolution addr s
  | .smbusReadStatus => Sys2Proof.Machine.execSmbusReadStatus s
  | .smbusReadSerial => Sys2Proof.Machine.execSmbusReadSerial s
  | .smbusReadRevision => Sys2Proof.Machine.execSmbusReadRevision s
  | .smbusReadInputPower => Sys2Proof.Machine.execSmbusReadInputPower s
  | .smbusReadInputVoltage => Sys2Proof.Machine.execSmbusReadInputVoltage s
  | .smbusReadDieTemperature => Sys2Proof.Machine.execSmbusReadDieTemperature s
  | .smbusReadHbmTemperature => Sys2Proof.Machine.execSmbusReadHbmTemperature s
  | .smbusReadGovernorLevel => Sys2Proof.Machine.execSmbusReadGovernorLevel s
  | .plbTrig v => Sys2Proof.Machine.execPlbTrig v s
  | .plbRelease v => Sys2Proof.Machine.execPlbRelease v s
  | .plbAtWrite v => Sys2Proof.Machine.execPlbAtWrite v s
  | .plbAtFire => Sys2Proof.Machine.execPlbAtFire s
  | .cntClear g v => Sys2Proof.Machine.execCntClear g v s
  | .eventAccept => Sys2Proof.Machine.execEventAccept s
  | .eventRecordWrite => Sys2Proof.Machine.execEventRecordWrite s
  | .lifeCounterWrite => Sys2Proof.Machine.execLifeCounterWrite s
  | .evrCurWrite v => Sys2Proof.Machine.execEvrCurWrite v s
  | .evrWindowAdvance => Sys2Proof.Machine.execEvrWindowAdvance s
  | .reservedOpcodeDispatch c k w => Sys2Proof.Machine.execReservedOpcodeDispatch c k w s
  | .powerLoss => Sys2Proof.Machine.execPowerLoss s
  | .controlPortLinkChange p up slow => Sys2Proof.Machine.execControlPortLinkChange p up slow s
  | .gatePortLinkChange g up => Sys2Proof.Machine.execGatePortLinkChange g up s
  | .gateFrameSend g => Sys2Proof.Machine.execGateFrameSend g s
  | .gateControlListEntry p => Sys2Proof.Machine.execGateControlListEntry p s
  | .smbusOtherCommand cmd => Sys2Proof.Machine.execSmbusOtherCommand cmd s
  | .gptpLockLoss p => Sys2Proof.Machine.execGptpLockLoss p s

end Sys2Proof.Machine
end

