-- ==== Sys2Proof/WellFormed.lean ====
section
/-!
DEFINITION. Which commands are well formed: the operand values the manual lets reach the block. `exec` runs any command;
these checks say which ones a sender of the manual's world can offer.
-/

namespace Sys2Proof

/-- A packet of the row's type, in that type's class, with data of the length its header gives (Tables 9.4 and 9.5). -/
def Packet.wfAs (p : Packet) (type cls : Nat) (data : Bool) : Bool :=
  p.type == type && p.cls == cls && (p.data.length == if data then p.len.toNat + 1 else 0)

/-- A device address of a torus of at most 32 × 32 × 24 modules (R205). -/
def DevAddr.inTorus (a : DevAddr) : Bool := decide (a.toNat % 32 < 24)

/-- Well-formedness of a command. -/
def Instr.wf : Instr → Bool
  | .fetchReturn _ _ line => decide (line.toNat % 64 = 0)
  | .transferComplete _ i => decide (i < 6)
  | .push _ bytes => decide (1 ≤ bytes.length) && decide (bytes.length ≤ 64)
  | .pop _ width => decide (1 ≤ width) && decide (width ≤ 64)
  | .registerWrite _ bytes => decide (1 ≤ bytes.length) && decide (bytes.length ≤ 64)
  | .gateTransmitPush _ bytes => decide (64 ≤ bytes.length) && decide (bytes.length ≤ 4096) && decide (bytes.length % 64 = 0)
  | .ncpDatagramArrival _ g => decide (g.payload.length ≤ 9216)
  | .nbpDatagramReceive _ d => decide (d.payload.length ≤ 9216)
  | .icmpEchoRequest _ r => decide (r.msg.data.length ≤ 9216)
  | .answerCacheExpiry i => decide (i < 256)
  | .wr p => p.wfAs 0 0 true
  | .wack p => p.wfAs 1 1 false
  | .rd p => p.wfAs 2 0 false
  | .rdr p => p.wfAs 3 1 true
  | .aa p => p.wfAs 4 0 false
  | .aar p => p.wfAs 5 1 false
  | .err p => p.wfAs 6 1 false
  | .mwr p => p.wfAs 7 0 true
  | .mack p => p.wfAs 8 1 false
  | .col p => p.wfAs 9 2 true
  | .linkNotice dev _ => dev.inTorus
  | .linkMapFlood dev _ => dev.inTorus
  | .identityPacket _ _ port _ => decide (port < 12)
  | .coordinateOffer _ x y z => decide (x ≤ 32) && decide (y ≤ 32) && decide (z ≤ 24)
  | .coursingRelease _ q => decide (1 ≤ q.x ∧ q.x ≤ 32 ∧ 1 ≤ q.y ∧ q.y ≤ 32 ∧ 1 ≤ q.z ∧ q.z ≤ 24)
  | .selfTestComplete r => r.arrays.all fun a => decide (a.1 < 512)
  | _ => true

end Sys2Proof
end

