-- ==== Sys2Proof/Safety.lean ====
section
/-!
DEFINITION. The terms in which claims about the block are stated: what a command answers, when a strand dispatches, what a
dispatch leaves alone, and which states are in canonical form.
-/

namespace Sys2Proof

/-- The commands that dispatch an instruction word: core, strand, opcode and bits [55:0]. -/
def Instr.insn : Instr → Option (CoreId × StrandId × Nat × BitVec 56)
  | .add c k w => some (c, k, 0x08, w)
  | .sub c k w => some (c, k, 0x09, w)
  | .mul c k w => some (c, k, 0x0A, w)
  | .mulhs c k w => some (c, k, 0x0B, w)
  | .mulhu c k w => some (c, k, 0x0C, w)
  | .divs c k w => some (c, k, 0x0D, w)
  | .divu c k w => some (c, k, 0x0E, w)
  | .rems c k w => some (c, k, 0x0F, w)
  | .remu c k w => some (c, k, 0x10, w)
  | .and c k w => some (c, k, 0x11, w)
  | .or c k w => some (c, k, 0x12, w)
  | .xor c k w => some (c, k, 0x13, w)
  | .shl c k w => some (c, k, 0x14, w)
  | .shr c k w => some (c, k, 0x15, w)
  | .sra c k w => some (c, k, 0x16, w)
  | .ceq c k w => some (c, k, 0x17, w)
  | .cne c k w => some (c, k, 0x18, w)
  | .clt c k w => some (c, k, 0x19, w)
  | .cltu c k w => some (c, k, 0x1A, w)
  | .cle c k w => some (c, k, 0x1B, w)
  | .cleu c k w => some (c, k, 0x1C, w)
  | .addi c k w => some (c, k, 0x24, w)
  | .andi c k w => some (c, k, 0x25, w)
  | .ori c k w => some (c, k, 0x26, w)
  | .xori c k w => some (c, k, 0x27, w)
  | .shli c k w => some (c, k, 0x28, w)
  | .shri c k w => some (c, k, 0x29, w)
  | .srai c k w => some (c, k, 0x2A, w)
  | .ceqi c k w => some (c, k, 0x2B, w)
  | .clti c k w => some (c, k, 0x2C, w)
  | .ldih c k w => some (c, k, 0x2D, w)
  | .sel c k w => some (c, k, 0x2E, w)
  | .prd c k w => some (c, k, 0x2F, w)
  | .gets c k w => some (c, k, 0x30, w)
  | .trd c k w => some (c, k, 0x31, w)
  | .br c k w => some (c, k, 0x34, w)
  | .loop c k w => some (c, k, 0x35, w)
  | .jr c k w => some (c, k, 0x36, w)
  | .call c k w => some (c, k, 0x37, w)
  | .mma c k w => some (c, k, 0x40, w)
  | .mmalw c k w => some (c, k, 0x41, w)
  | .finish c k w => some (c, k, 0x42, w)
  | .lift c k w => some (c, k, 0x43, w)
  | .reload c k w => some (c, k, 0x44, w)
  | .vop c k w => some (c, k, 0x45, w)
  | .vred c k w => some (c, k, 0x46, w)
  | .sfn c k w => some (c, k, 0x47, w)
  | .smax1 c k w => some (c, k, 0x48, w)
  | .smax2 c k w => some (c, k, 0x49, w)
  | .plook c k w => some (c, k, 0x4A, w)
  | .pload c k w => some (c, k, 0x4B, w)
  | .pswap c k w => some (c, k, 0x4C, w)
  | .cvt c k w => some (c, k, 0x4D, w)
  | .ld8u c k w => some (c, k, 0x50, w)
  | .ld8s c k w => some (c, k, 0x51, w)
  | .ld16u c k w => some (c, k, 0x52, w)
  | .ld16s c k w => some (c, k, 0x53, w)
  | .ld32u c k w => some (c, k, 0x54, w)
  | .ld32s c k w => some (c, k, 0x55, w)
  | .ld64 c k w => some (c, k, 0x56, w)
  | .st8 c k w => some (c, k, 0x58, w)
  | .st16 c k w => some (c, k, 0x59, w)
  | .st32 c k w => some (c, k, 0x5A, w)
  | .st64 c k w => some (c, k, 0x5B, w)
  | .ldg c k w => some (c, k, 0x5C, w)
  | .stg c k w => some (c, k, 0x5D, w)
  | .aadd c k w => some (c, k, 0x5E, w)
  | .arm c k w => some (c, k, 0x60, w)
  | .rearm c k w => some (c, k, 0x61, w)
  | .swap c k w => some (c, k, 0x62, w)
  | .tadd c k w => some (c, k, 0x68, w)
  | .tset c k w => some (c, k, 0x69, w)
  | .keystone c k w => some (c, k, 0x6A, w)
  | .ftwait c k w => some (c, k, 0x6B, w)
  | .nop c k w => some (c, k, 0x70, w)
  | .halt c k w => some (c, k, 0x71, w)
  | .trap c k w => some (c, k, 0x72, w)
  | .snap c k w => some (c, k, 0x73, w)
  | .tgrpb c k w => some (c, k, 0x74, w)
  | .tgrpe c k w => some (c, k, 0x75, w)
  | .csave c k w => some (c, k, 0x76, w)
  | .crest c k w => some (c, k, 0x77, w)
  | .frd c k w => some (c, k, 0x78, w)
  | .fclr c k w => some (c, k, 0x79, w)
  | .mxclr c k w => some (c, k, 0x7A, w)
  | .ftst c k w => some (c, k, 0x7B, w)
  | _ => none

end Sys2Proof

namespace Sys2Proof.Machine

/-- The command answers a next state, and that state has the property. -/
def Yields (i : Instr) (s : State) (P : State → Prop) : Prop := ∃ t, exec i s = .next t ∧ P t

/-- What a byte of the one-time-programmable floor reads as before it is programmed (R354). -/
def otpDefault (_ : Nat) : Byte := 0xFF

/-- Memory is in canonical form, for what its unlisted bytes read as. -/
abbrev Memory.wf (fs : List Fill) (m : List Host.Cell) : Prop := swf (memDef fs) m = true

/-- Memory, the register file and the one-time-programmable bytes are in canonical form. -/
structure State.Canonical (s : State) : Prop where
  mem : Memory.wf s.dev.fills s.dev.mem
  regs : swf regReset s.dev.regs = true
  otp : swf otpDefault s.dev.otp = true

/-- The one-time-programmable byte `i`. -/
def State.otpByte (s : State) (i : Nat) : Byte := sget otpDefault s.dev.otp i

/-! Dispatch. -/

/-- Strand `k` of core `c` is ready to dispatch the word with opcode `op` and bits `w` (R144, R145), and the word is no
illegal instruction (R157). -/
structure Dispatches (s : State) (c : CoreId) (k : StrandId) (op : Nat) (w : BitVec 56) : Prop where
  ready : s.dev.canIssue c k (mkInsn op w) = true
  legal : illegal op w = false

/-- What a dispatched instruction of strand `k` of core `c` leaves alone when it works on scalars, predicates and the PC only:
everything outside the strand but the wait tally, the completions that are due, the sequencer's note of the dispatch and
one instruction counter; no byte of memory. -/
structure StrandFrame (c : CoreId) (k : StrandId) (w : BitVec 56) (s t : State) : Prop where
  pending : t.pending = s.pending
  /-- Hub, always-on domain, lasts, operations, memory and outputs are as before. -/
  dev : ∃ cs rg nw, t.dev = { s.dev with cores := cs, regs := rg, now := nw }
  byte : ∀ a, t.dev.byte a = s.dev.byte a
  /-- Every register is as before, but the counter of instructions that the strand dispatched. -/
  regs : ∀ a, a ≠ aCnt c (8 * (1 + k.val)) → t.dev.reg a = s.dev.reg a
  cores : ∀ x, x ≠ c → t.dev.core x = s.dev.core x
  /-- Arrays, beds, descriptors, slots, banks and hods of the core are as before. -/
  core : ∃ st ta po, t.dev.core c = { s.dev.core c with
    strands := st, tallies := ta, posts := po, lastStrand := k, lastDispatch := some s.dev.cycle }
  other : t.dev.strand c (otherStrand k) = s.dev.strand c (otherStrand k)
  /-- The wait tally, where the word names one, loses 1 at the end of the cycle (R149, R151). -/
  tallies : ∀ i, (t.dev.core c).tallies.get i = if wWen w = true ∧ i = finOf 63 (wWtal w) then
    { (s.dev.core c).tallies.get i with dec := ((s.dev.core c).tallies.get i).dec + 1 } else (s.dev.core c).tallies.get i

/-- The instruction of opcode `op` at the strand's PC completes in cycle `due` (R149, R173). -/
def PostsAt (c : CoreId) (k : StrandId) (op : Nat) (w : BitVec 56) (due : Nat) (s t : State) : Prop :=
  ∃ l, s.dev.strandLast c k = some l ∧
    (t.dev.core c).posts = (s.dev.core c).posts ++ [⟨due, k, l, (s.dev.strand c k).pc, BitVec.ofNat 8 op, w⟩]

/-- The scalars read as before, but `r`, which reads `v` unless it is s0; s0 reads 0 (R143). -/
def ScalarsBut (c : CoreId) (k : StrandId) (r : Fin 32) (v : Word) (s t : State) : Prop :=
  ∀ q, (t.dev.strand c k).rdS q = if q = r ∧ q ≠ 0 then v else (s.dev.strand c k).rdS q

/-- The predicates read as before, but `p`, which reads `v` unless it is p0; p0 reads 1 (R143, R176). -/
def PredicatesBut (c : CoreId) (k : StrandId) (p : Fin 8) (v : Bool) (s t : State) : Prop :=
  ∀ q, (t.dev.strand c k).rdP q = if q = p ∧ q ≠ 0 then v else (s.dev.strand c k).rdP q

/-- A scalar instruction wrote `v` to scalar `r`, available `n` cycles later, when it completes; the PC moved on and nothing
else changed. -/
structure WritesScalar (c : CoreId) (k : StrandId) (op : Nat) (w : BitVec 56) (n : Nat) (r : Fin 32) (v : Word) (s t : State) : Prop
    extends StrandFrame c k w s t where
  scalars : ScalarsBut c k r v s t
  avail : r ≠ 0 → (t.dev.strand c k).sAvail.get r = some (s.dev.cycle + n)
  preds : ∀ q, (t.dev.strand c k).rdP q = (s.dev.strand c k).rdP q
  pc : (t.dev.strand c k).pc = (s.dev.strand c k).pc + 8
  posts : PostsAt c k op w (s.dev.cycle + n) s t

/-- A compare wrote `v` to predicate `p`, available in the next cycle; the PC moved on and nothing else changed. -/
structure WritesPredicate (c : CoreId) (k : StrandId) (op : Nat) (w : BitVec 56) (p : Fin 8) (v : Bool) (s t : State) : Prop
    extends StrandFrame c k w s t where
  preds : PredicatesBut c k p v s t
  avail : p ≠ 0 → (t.dev.strand c k).pAvail.get p = s.dev.cycle + 1
  scalars : ∀ q, (t.dev.strand c k).rdS q = (s.dev.strand c k).rdS q
  pc : (t.dev.strand c k).pc = (s.dev.strand c k).pc + 8
  posts : PostsAt c k op w (s.dev.cycle + 1) s t

/-- A branch of the strand: the PC goes to `target` when it is taken, 8 bytes on when it is not; scalar `r` takes `v`
(none where `r` is 0). -/
structure BranchesTo (c : CoreId) (k : StrandId) (op : Nat) (w : BitVec 56) (r : Fin 32) (v : Word) (taken : Bool) (target : Word)
    (s t : State) : Prop extends StrandFrame c k w s t where
  scalars : ScalarsBut c k r v s t
  preds : ∀ q, (t.dev.strand c k).rdP q = (s.dev.strand c k).rdP q
  pc : (t.dev.strand c k).pc = if taken then target.setWidth 48 else (s.dev.strand c k).pc + 8
  /-- The next dispatch comes in cycle c + 4 at the earliest after a taken branch (R147). -/
  notBefore : (t.dev.strand c k).notBefore = if taken then s.dev.cycle + 4 else (s.dev.strand c k).notBefore
  posts : PostsAt c k op w (s.dev.cycle + 1) s t

/-- A memory instruction dispatched: its access to `ea` is outstanding, with `data` to store; a load's register waits for it;
scalars, predicates and memory are as before. -/
structure StartsAccess (c : CoreId) (k : StrandId) (op : Nat) (w : BitVec 56) (ea data : Word) (s t : State) : Prop where
  frame : StrandFrame c k w s { t with dev := { t.dev with nextAcc := s.dev.nextAcc } }
  nextAcc : t.dev.nextAcc = s.dev.nextAcc + 1
  access : ∃ a : Acc, (t.dev.strand c k).acc = (s.dev.strand c k).acc ++ [a] ∧ a.id = s.dev.nextAcc ∧ a.opcode = BitVec.ofNat 8 op ∧
    a.w = w ∧ a.pc = (s.dev.strand c k).pc ∧ a.ea = ea ∧ a.data = data ∧ a.remote = false
  scalars : ∀ q, (t.dev.strand c k).rdS q = (s.dev.strand c k).rdS q
  preds : ∀ q, (t.dev.strand c k).rdP q = (s.dev.strand c k).rdP q
  outstanding : isLoad op = true → wRd w ≠ 0 → (t.dev.strand c k).sAvail.get (wRd w) = none
  pc : (t.dev.strand c k).pc = (s.dev.strand c k).pc + 8

/-- The instruction left the scalars, the predicates, memory, the other strand, the other cores and every register but one
counter as they were, and the PC moved on. -/
structure MovesOn (c : CoreId) (k : StrandId) (s t : State) : Prop where
  pending : t.pending = s.pending
  byte : ∀ a, t.dev.byte a = s.dev.byte a
  regs : ∀ a, a ≠ aCnt c (8 * (1 + k.val)) → t.dev.reg a = s.dev.reg a
  cores : ∀ x, x ≠ c → t.dev.core x = s.dev.core x
  other : t.dev.strand c (otherStrand k) = s.dev.strand c (otherStrand k)
  scalars : ∀ q, (t.dev.strand c k).rdS q = (s.dev.strand c k).rdS q
  preds : ∀ q, (t.dev.strand c k).rdP q = (s.dev.strand c k).rdP q
  pc : (t.dev.strand c k).pc = (s.dev.strand c k).pc + 8

/-- As `MovesOn`, but register `x` may have changed too. -/
structure MovesOnBut (x : Nat) (c : CoreId) (k : StrandId) (s t : State) : Prop where
  pending : t.pending = s.pending
  byte : ∀ a, t.dev.byte a = s.dev.byte a
  regs : ∀ a, a ≠ aCnt c (8 * (1 + k.val)) → a ≠ x → t.dev.reg a = s.dev.reg a
  cores : ∀ y, y ≠ c → t.dev.core y = s.dev.core y
  other : t.dev.strand c (otherStrand k) = s.dev.strand c (otherStrand k)
  scalars : ∀ q, (t.dev.strand c k).rdS q = (s.dev.strand c k).rdS q
  preds : ∀ q, (t.dev.strand c k).rdP q = (s.dev.strand c k).rdP q
  pc : (t.dev.strand c k).pc = (s.dev.strand c k).pc + 8

/-- A memory instruction left for another module: packet `p` with this module as its source and a fresh tag, a request that waits for
`need` acknowledgements, and an outstanding access to `ea` with `data`; a load's register waits for it. -/
structure SendsAccess (c : CoreId) (k : StrandId) (op : Nat) (w : BitVec 56) (ea data : Word) (p : Packet) (need : Nat) (s t : State) : Prop
    extends MovesOnBut (aCnt c 472) c k s t where
  nextAcc : t.dev.nextAcc = s.dev.nextAcc + 1
  access : ∃ a : Acc, (t.dev.strand c k).acc = (s.dev.strand c k).acc ++ [a] ∧ a.id = s.dev.nextAcc ∧ a.opcode = BitVec.ofNat 8 op ∧
    a.w = w ∧ a.pc = (s.dev.strand c k).pc ∧ a.ea = ea ∧ a.data = data ∧ a.remote = true
  outstanding : isLoad op = true → wRd w ≠ 0 → (t.dev.strand c k).sAvail.get (wRd w) = none
  reqs : t.dev.hub.reqs = s.dev.hub.reqs ++ [⟨s.dev.hub.nextTag, .acc c k s.dev.nextAcc, ea, s.dev.cycle, need, []⟩]
  sent : t.dev.hub.inject = s.dev.hub.inject ++
    [{ p with src := BitVec.ofNat 15 s.dev.ownDev, issuer := BitVec.ofNat 15 s.dev.ownDev, tag := s.dev.hub.nextTag }]
  nextTag : t.dev.hub.nextTag = s.dev.hub.nextTag + 1

/-- An engine or stream instruction entered its queues as the youngest operation, which has the property. -/
structure EntersQueue (c : CoreId) (k : StrandId) (op : Nat) (w : BitVec 56) (l : LastId) (P : Op → Prop) (s t : State) : Prop
    extends MovesOn c k s t where
  hub : t.dev.hub = s.dev.hub
  aoc : t.dev.aoc = s.dev.aoc
  lasts : t.dev.lasts = s.dev.lasts
  older : ∃ (os : List Op) (x : Op), t.dev.ops = os ++ [x] ∧ os.map (fun o => o.id) = s.dev.ops.map (fun o => o.id) ∧
    x.id = s.dev.nextOp ∧ x.core = c ∧ x.strand = k ∧ x.last = l ∧ x.pc = (s.dev.strand c k).pc ∧ x.opcode = BitVec.ofNat 8 op ∧
    x.w = w ∧ x.phase = .queued ∧ x.ecore = c ∧ x.earray = wArray w ∧ P x

/-- Operation `o` completed: it is no longer among those dispatched and every other one is, its flags stand in the set of its
engine and strand, and it posted where it names a tally and its last may post (R37, R38, R149). -/
structure OpEnds (o : Op) (set : FlagSet) (fl : Flags) (s t : State) : Prop where
  pending : t.pending = s.pending
  ops : t.dev.ops.map (fun x => x.id) = (s.dev.ops.map fun x => x.id).filter fun i => i != o.id
  flags : t.dev.reg (aFlags o.core o.strand) = s.dev.reg (aFlags o.core o.strand) ||| BitVec.ofNat 64 (fl.toNat * 2 ^ set.pos)
  posts : ∀ c i, ((t.dev.core c).tallies.get i).inc = ((s.dev.core c).tallies.get i).inc ++
    if c = o.core ∧ wPen o.w = true ∧ s.dev.mayPost o.last = true ∧ wPtal o.w = i then [(⟨1, some o.origin⟩ : Incr)] else []

/-- The results that operation `o` has on their way meet no ECC error in a word that they cover in part (R209), and no other master
has written in this cycle, so that grants order nothing (R215). -/
structure State.Lands (s : State) (o : Op) : Prop where
  whole : ∀ w ∈ s.dev.wrs, w.op = o.id → ∀ x ∈ w.writes, ∀ y ∈ partWords x.1 x.2.length, s.dev.eccIn y 8 = []
  alone : ∀ e ∈ s.dev.now.stk, e.who = o.writer

/-- Operation `o` wrote what it had on its way in `ws` to memory, and completed (R107, R116). -/
structure RunEnds (o : Op) (set : FlagSet) (ws : List Wr) (s t : State) : Prop
    extends OpEnds o set (ws.foldl (fun (f : Flags) w => f ||| w.fl) o.flags) s t where
  mem : t.dev.mem = ((ws.flatMap fun w => w.writes).foldl (fun (d : Dev) x => d.wrMem x.1 x.2) s.dev).mem
  wrs : t.dev.wrs = s.dev.wrs.filter fun w => w.op != o.id

/-- The instruction behind a dispatch of strand `k`, as its last `l` issues it. -/
def State.originOf (s : State) (c : CoreId) (k : StrandId) (op : Nat) (w : BitVec 56) (l : LastId) : Origin :=
  ⟨l, c, k, (s.dev.strand c k).pc, mkInsn op w⟩

/-! Registers and events. -/

/-- Nothing changed but the note that a page of register space has served an access in this cycle (R392). -/
def Untouched (s t : State) : Prop := ∃ ps, t = { s with dev := { s.dev with now := { s.dev.now with pages := ps } } }

/-- Stored register `a` holds `v`; nothing else changed but the note that its page has served an access in this cycle (R392). -/
structure WritesReg (a : Nat) (v : Word) (s t : State) : Prop where
  reg : t.dev.reg a = v
  rest : ∃ rg ps, t = { s with dev := { s.dev with regs := rg, now := { s.dev.now with pages := ps } } }
  regs : ∀ b, b ≠ a → t.dev.reg b = s.dev.reg b

/-- The events raised are those raised before, and then these (R381). -/
def Raised (cs : List (BitVec 16)) (s t : State) : Prop :=
  (t.dev.aoc.rcd.raised.map fun e => e.code) = (s.dev.aoc.rcd.raised.map fun e => e.code) ++ cs

/-! Frames (R303, R304). -/

/-- A frame with this tag is admitted: to a control port with no VLAN ID or the port's own, and as no duplicate; to a gate port in
any case. -/
def State.Admits (s : State) (e : EthPort) (t : EthTag) : Prop := ∀ p, e = .ctl p →
  (t.vid = 0 ∨ t.vid.toNat = leAt s.dev.aoc.svc 6 2 % 4096) ∧ ∀ n, t.rtag = some n → (t.mac, n) ∉ (s.dev.ctl 0).history

/-- The device sent this and nothing else; memory and registers are as before. -/
structure Sends (o : Out) (s t : State) : Prop where
  out : t.dev.out = s.dev.out ++ [o]
  mem : t.dev.mem = s.dev.mem
  regs : t.dev.regs = s.dev.regs

/-! The fabric's control traffic, and posts. -/

/-- The control messages on their way once one of this kind leaves on each of the ports that carries it (Table 9.2, log 52). -/
def State.told (s : State) (ports : List LinkId) (kind : Nat) (vals : List Nat) : List (LinkId × Packet) :=
  s.dev.hub.ctl ++ (ports.filter (s.dev.ctlOpen kind)).map fun l => (l, ctlPacket s.dev.ownDev (s.dev.link l).peerDev kind vals)

/-- The instruction of `o` completed: it posted where it names a tally and its last may post (R149); no other tally counts. -/
def Posts (o : Origin) (s t : State) : Prop :=
  let w : BitVec 56 := o.insn.setWidth 56
  ∀ c i, ((t.dev.core c).tallies.get i).inc = ((s.dev.core c).tallies.get i).inc ++
    if c = o.core ∧ wPen w = true ∧ s.dev.mayPost o.last = true ∧ wPtal w = i then [(⟨1, some o⟩ : Incr)] else []

/-! Requests and answers (R307 to R309). -/

/-- Who asks with the datagram. -/
def askerOf (p : CtlId) (g : Datagram) : Asker := ⟨p, g.src, g.sport, BitVec.ofNat 32 (leAt g.payload 4 4), leAt g.payload 3 1⟩

/-- The device once request `g` at the head of port `p` is accepted: it has left the queue, is counted, and recorded where its kind
is selected (R285, R308). -/
def State.accepted (s : State) (p : CtlId) (g : Datagram) (rest : List Datagram) : Dev :=
  ((((s.dev.updCtl p fun c => { c with waiting := rest }).updAoc fun a => { a with order := a.order.drop 1 }).hwInc (aCtlp p 8) 0 32 1).acnt
    0 1).record 1 p.val g.payload

/-- Request `g`, of type `ty` and with body `b`, is at the head of control port `p` of a module in compute service and the oldest
of all; it is for this module, has been neither answered nor begun before, no long request runs, the answer cache has room and no
replay keeps live requests out: it is accepted and carried out. -/
structure Carried (s : State) (p : CtlId) (ty : Nat) (g : Datagram) (rest : List Datagram) (b : List Byte) : Prop where
  head : (s.dev.ctl p).waiting = g :: rest
  first : s.dev.ncpFirst p = true
  serves : s.dev.ncpServes p = true
  stage : s.dev.aoc.trust.stage = .compute
  job : s.dev.aoc.memJob = none
  type : leAt g.payload 3 1 = ty
  body : g.payload.drop 32 = b
  target : leAt g.payload 16 8 = 0 ∨ leAt g.payload 16 8 = Config.serial.toNat
  asked : (askerOf p g).injected = false
  fresh : ∀ c ∈ s.dev.aoc.cache, sameKey c.asker (askerOf p g) = false
  longs : s.dev.aoc.longs = []
  room : s.dev.aoc.cache.length < 256
  live : s.dev.replaying 1 = false

/-- The only answer sent is this one, with any header target; it is held in the answer cache if it is kept (R307, R309). -/
def Sent (a : Asker) (status detail : Nat) (body : List Byte) (kept : Bool) (s t : State) : Prop :=
  ∃ x y m, m = leBytes 2 0x4E5A ++ leBytes 1 1 ++ leBytes 1 (a.type + 0x80) ++ leBytes 4 a.reqId.toNat ++ leBytes 2 status ++
      leBytes 2 detail ++ leBytes 4 body.length ++ leBytes 8 x ++ leBytes 8 y ++ body ∧
    t.dev.out = s.dev.out ++ [.answer a m] ∧
    t.dev.aoc.cache = if kept then s.dev.aoc.cache ++ [⟨a, m, s.dev.cycle⟩] else s.dev.aoc.cache

/-- The request left its port's queue and was answered. -/
structure Answered (p : CtlId) (g : Datagram) (rest : List Datagram) (status detail : Nat) (body : List Byte) (kept : Bool)
    (s t : State) : Prop where
  waiting : (t.dev.ctl p).waiting = rest
  order : t.dev.aoc.order = s.dev.aoc.order.drop 1
  sent : Sent (askerOf p g) status detail body kept s t
  longs : t.dev.aoc.longs = s.dev.aoc.longs

/-- The long request left its port's queue and runs, at the scope of a last or of the module; no answer is sent yet (R308). -/
structure Runs (p : CtlId) (g : Datagram) (rest : List Datagram) (scope : Option LastId) (s t : State) : Prop where
  waiting : (t.dev.ctl p).waiting = rest
  order : t.dev.aoc.order = s.dev.aoc.order.drop 1
  out : t.dev.out = s.dev.out
  cache : t.dev.aoc.cache = s.dev.aoc.cache
  longs : t.dev.aoc.longs = [⟨askerOf p g, scope⟩]

end Sys2Proof.Machine
end

