-- ==== Sys2Proof/Certificates/Slice0/Obligations.lean ====
section
/-!
DEFINITION. The statements for the provers. Each is a rule of the manual, or follows from the sections it names; OBLIGATIONS.json
says which.
-/

open Sys2Proof
open Sys2Proof.Machine

/-- A step runs the command at the front of the queue. For every state and command, a step with that command at the front
of the queue is exec of that command on the state with the rest of the queue (log 3 says that the queue is the
model's).
Rests on 00 Scope, Agents and commands (model queue, log 3). -/
def Obligations.StepRunsFront : Prop :=
  ∀ (s : State) (i : Instr) (rest : List Instr),
    step { s with pending := i :: rest } = exec i { s with pending := rest }

/-- A step on an empty queue ends one A-clock cycle. On an empty queue a step answers a next state in which the queue is
still empty, the A-clock count is one more, and no counter page stands to be cleared at the cycle's end; this is the
model's choice (log 3).
Rests on 00 (R3, A-clock). -/
def Obligations.EmptyQueueTicks : Prop :=
  ∀ s : State, s.pending = [] → ∃ t, step s = .next t ∧ t.pending = [] ∧ t.dev.cycle = s.dev.cycle + 1 ∧
    t.dev.now.clrs = []

/-- No command stops the block, and none touches the queue. Every command, in every state, answers a next state whose
queue of waiting commands is the one it was given: no fault and no refusal ends a run. That an instruction or a
request always ends in an effect follows from the rules cited; that an event whose condition does not hold leaves the
module as it is and still answers a next state is the model's choice (log 4), and that the queue is touched by the
step alone is the model's (log 3).
Rests on 06 (R158, R159); 11 (R309); 00 Scope, Agents and commands (model choices, logs 3 and 4). -/
def Obligations.EveryCommandAnswersNext : Prop :=
  ∀ (i : Instr) (s : State), Yields i s fun t => t.pending = s.pending

/-- What the module holds right after reset. At reset every power domain is OFF, no last is loaded, every strand is IDLE
with PC 0, s0 reads 0 and p0 reads 1, every keystone is in round 0, every spill queue is empty, no byte of memory has
been written, every register reads its reset value, and no command waits. That power is absent at reset is the model's
choice (log 17).
Rests on 06 Table 6.18; 12 Table 12.2; 15 (R388); 09 Table 9.21. -/
def Obligations.ResetIsUnpowered : Prop :=
  State.reset.pending = [] ∧ (∀ x, State.reset.dev.dom x = .off) ∧ (∀ l, (State.reset.dev.last l).st = .empty) ∧
    (∀ c k, (State.reset.dev.strand c k).st = .idle ∧ (State.reset.dev.strand c k).pc = 0 ∧
      (State.reset.dev.strand c k).rdS 0 = 0 ∧ (State.reset.dev.strand c k).rdP 0 = true) ∧
    (∀ k, (State.reset.dev.key k).st = 0 ∧ (State.reset.dev.key k).round = 0) ∧
    (∀ q, (State.reset.dev.queue q).count = 0) ∧ (∀ a, State.reset.dev.byte a = memDefault a) ∧
    (∀ a, State.reset.dev.reg a = regReset a)

/-- Reset is in canonical form. Memory, the register file and the one-time-programmable bytes are in canonical form at
reset.
Rests on 08 (R203); 15 (R388); 13 (R354). -/
def Obligations.CanonicalAtReset : Prop :=
  State.reset.Canonical

/-- Every step keeps memory, registers and one-time-programmable bytes in canonical form. From every state whose memory,
register file and one-time-programmable bytes are in canonical form (addresses strictly rising, no entry equal to what
an unlisted address reads as), whatever command stands at the front of the queue, the next state has them in canonical
form.
Rests on 08 (R203, R209); 15 (R388); 13 (R354). -/
def Obligations.CanonicalKept : Prop :=
  ∀ s t : State, s.Canonical → step s = .next t → t.Canonical

/-- No step erases a one-time-programmable byte. Over every step, whatever the command, each one-time-programmable byte
keeps its value or becomes programmed (0): nothing lowers the floor they form.
Rests on 13 (R354). -/
def Obligations.OtpOnlyProgrammed : Prop :=
  ∀ (s t : State) (i : Nat), step s = .next t → t.otpByte i = s.otpByte i ∨ t.otpByte i = 0

/-- Register arithmetic: ADD, SUB, MUL, MULHS, MULHU, AND, OR, XOR, SHL, SHR, SRA. A ready strand whose next word is one
of these runs it: rd takes the result of Table 7.3 of the values of ra and rb (nothing where rd is s0), available 1
cycle later, 3 for the multiplies; the PC moves on by 8; every other scalar, every predicate, every register but the
counter of dispatched instructions, every byte of memory, every other strand and core and everything outside the core
is unchanged; the wait tally, where one is named, is decremented.
Rests on 07 (R174, Table 7.3); 06 (R143, R146, R149); 07 Table 7.2. -/
def Obligations.ScalarArithmetic : Prop :=
  ∀ (s : State) (c : CoreId) (k : StrandId) (w : BitVec 56),
    let a := (s.dev.strand c k).rdS (wRa w)
    let b := (s.dev.strand c k).rdS (wRb w)
    (Dispatches s c k 0x08 w → Yields (.add c k w) s (WritesScalar c k 0x08 w 1 (wRd w) (a + b) s)) ∧
    (Dispatches s c k 0x09 w → Yields (.sub c k w) s (WritesScalar c k 0x09 w 1 (wRd w) (a - b) s)) ∧
    (Dispatches s c k 0x0A w → Yields (.mul c k w) s (WritesScalar c k 0x0A w 3 (wRd w) (a * b) s)) ∧
    (Dispatches s c k 0x0B w → Yields (.mulhs c k w) s
      (WritesScalar c k 0x0B w 3 (wRd w) ((a.signExtend 128 * b.signExtend 128).extractLsb' 64 64) s)) ∧
    (Dispatches s c k 0x0C w → Yields (.mulhu c k w) s
      (WritesScalar c k 0x0C w 3 (wRd w) ((a.setWidth 128 * b.setWidth 128).extractLsb' 64 64) s)) ∧
    (Dispatches s c k 0x11 w → Yields (.and c k w) s (WritesScalar c k 0x11 w 1 (wRd w) (a &&& b) s)) ∧
    (Dispatches s c k 0x12 w → Yields (.or c k w) s (WritesScalar c k 0x12 w 1 (wRd w) (a ||| b) s)) ∧
    (Dispatches s c k 0x13 w → Yields (.xor c k w) s (WritesScalar c k 0x13 w 1 (wRd w) (a ^^^ b) s)) ∧
    (Dispatches s c k 0x14 w → Yields (.shl c k w) s (WritesScalar c k 0x14 w 1 (wRd w) (a <<< (b.toNat % 64)) s)) ∧
    (Dispatches s c k 0x15 w → Yields (.shr c k w) s (WritesScalar c k 0x15 w 1 (wRd w) (a >>> (b.toNat % 64)) s)) ∧
    (Dispatches s c k 0x16 w → Yields (.sra c k w) s
      (WritesScalar c k 0x16 w 1 (wRd w) (a.sshiftRight (b.toNat % 64)) s))

/-- DIVS, DIVU, REMS and REMU never fault. A ready strand whose next word is a division runs it for every value of ra and
rb and takes no fault: by zero the quotient is all ones and the remainder is ra; otherwise quotient and remainder are
those of the integers, rounded toward zero; DIVS of -2^63 by -1 gives -2^63 and REMS of them gives 0. The result is
available 24 cycles later; nothing else changes but the PC, the named wait tally and the counter of dispatched
instructions.
Formalises R175. -/
def Obligations.ScalarDivision : Prop :=
  ∀ (s : State) (c : CoreId) (k : StrandId) (w : BitVec 56),
    let a := (s.dev.strand c k).rdS (wRa w)
    let b := (s.dev.strand c k).rdS (wRb w)
    (Dispatches s c k 0x0D w → Yields (.divs c k w) s fun t => ∃ q : Word, WritesScalar c k 0x0D w 24 (wRd w) q s t ∧
      (b = 0 → q = 0xFFFFFFFFFFFFFFFF) ∧ (a = 0x8000000000000000 → b = 0xFFFFFFFFFFFFFFFF → q = 0x8000000000000000) ∧
      (b ≠ 0 → ¬ (a = 0x8000000000000000 ∧ b = 0xFFFFFFFFFFFFFFFF) → q.toInt = a.toInt.tdiv b.toInt)) ∧
    (Dispatches s c k 0x0E w → Yields (.divu c k w) s fun t => ∃ q : Word, WritesScalar c k 0x0E w 24 (wRd w) q s t ∧
      (b = 0 → q = 0xFFFFFFFFFFFFFFFF) ∧ (b ≠ 0 → q.toNat = a.toNat / b.toNat)) ∧
    (Dispatches s c k 0x0F w → Yields (.rems c k w) s fun t => ∃ r : Word, WritesScalar c k 0x0F w 24 (wRd w) r s t ∧
      (b = 0 → r = a) ∧ (a = 0x8000000000000000 → b = 0xFFFFFFFFFFFFFFFF → r = 0) ∧ (b ≠ 0 → r.toInt = a.toInt.tmod b.toInt)) ∧
    (Dispatches s c k 0x10 w → Yields (.remu c k w) s fun t => ∃ r : Word, WritesScalar c k 0x10 w 24 (wRd w) r s t ∧
      (b = 0 → r = a) ∧ (b ≠ 0 → r.toNat = a.toNat % b.toNat))

/-- Compares write their predicate: CEQ, CNE, CLT, CLTU, CLE, CLEU, CEQI, CLTI. A ready strand whose next word is a
compare writes predicate pd with the comparison of ra and rb (or of ra and the sign-extended immediate), signed or
unsigned as Table 7.3 and Table 7.4 say; a compare that names p0 writes nothing and p0 keeps reading 1. Scalars,
memory, registers and everything else are unchanged but the PC, the named wait tally and the counter.
Rests on 07 (R174, R176, R177, Tables 7.3 and 7.4). -/
def Obligations.Compares : Prop :=
  ∀ (s : State) (c : CoreId) (k : StrandId) (w : BitVec 56),
    let a := (s.dev.strand c k).rdS (wRa w)
    let b := (s.dev.strand c k).rdS (wRb w)
    let i : Word := (BitVec.ofNat 32 (wImm w)).signExtend 64
    (Dispatches s c k 0x17 w → Yields (.ceq c k w) s (WritesPredicate c k 0x17 w (wPd w) (decide (a = b)) s)) ∧
    (Dispatches s c k 0x18 w → Yields (.cne c k w) s (WritesPredicate c k 0x18 w (wPd w) (decide (a ≠ b)) s)) ∧
    (Dispatches s c k 0x19 w → Yields (.clt c k w) s (WritesPredicate c k 0x19 w (wPd w) (decide (a.toInt < b.toInt)) s)) ∧
    (Dispatches s c k 0x1A w → Yields (.cltu c k w) s (WritesPredicate c k 0x1A w (wPd w) (decide (a.toNat < b.toNat)) s)) ∧
    (Dispatches s c k 0x1B w → Yields (.cle c k w) s (WritesPredicate c k 0x1B w (wPd w) (decide (a.toInt ≤ b.toInt)) s)) ∧
    (Dispatches s c k 0x1C w → Yields (.cleu c k w) s (WritesPredicate c k 0x1C w (wPd w) (decide (a.toNat ≤ b.toNat)) s)) ∧
    (Dispatches s c k 0x2B w → Yields (.ceqi c k w) s (WritesPredicate c k 0x2B w (wPd w) (decide (a = i)) s)) ∧
    (Dispatches s c k 0x2C w → Yields (.clti c k w) s (WritesPredicate c k 0x2C w (wPd w) (decide (a.toInt < i.toInt)) s))

/-- Immediate instructions: ADDI, ANDI, ORI, XORI, SHLI, SHRI, SRAI, LDIH, SEL, PRD. A ready strand whose next word is one
of these writes rd with the result of Table 7.4: the sum with the sign-extended immediate, the logic operations with
the zero-extended one, shifts by it, its bits above the low half of ra, ra or rb by a predicate, or a predicate as 0
or 1; the frame is that of register arithmetic.
Rests on 07 (R177, Table 7.4). -/
def Obligations.ScalarImmediates : Prop :=
  ∀ (s : State) (c : CoreId) (k : StrandId) (w : BitVec 56),
    let x := s.dev.strand c k
    let a := x.rdS (wRa w)
    let n := wImm w
    let z : Word := BitVec.ofNat 64 n
    (Dispatches s c k 0x24 w → Yields (.addi c k w) s
      (WritesScalar c k 0x24 w 1 (wRd w) (a + (BitVec.ofNat 32 n).signExtend 64) s)) ∧
    (Dispatches s c k 0x25 w → Yields (.andi c k w) s (WritesScalar c k 0x25 w 1 (wRd w) (a &&& z) s)) ∧
    (Dispatches s c k 0x26 w → Yields (.ori c k w) s (WritesScalar c k 0x26 w 1 (wRd w) (a ||| z) s)) ∧
    (Dispatches s c k 0x27 w → Yields (.xori c k w) s (WritesScalar c k 0x27 w 1 (wRd w) (a ^^^ z) s)) ∧
    (Dispatches s c k 0x28 w → n ≤ 63 ∧ Yields (.shli c k w) s (WritesScalar c k 0x28 w 1 (wRd w) (a <<< n) s)) ∧
    (Dispatches s c k 0x29 w → n ≤ 63 ∧ Yields (.shri c k w) s (WritesScalar c k 0x29 w 1 (wRd w) (a >>> n) s)) ∧
    (Dispatches s c k 0x2A w → n ≤ 63 ∧ Yields (.srai c k w) s (WritesScalar c k 0x2A w 1 (wRd w) (a.sshiftRight n) s)) ∧
    (Dispatches s c k 0x2D w → Yields (.ldih c k w) s
      (WritesScalar c k 0x2D w 1 (wRd w) ((BitVec.ofNat 32 n) ++ (a.setWidth 32)) s)) ∧
    (Dispatches s c k 0x2E w → Yields (.sel c k w) s (WritesScalar c k 0x2E w 1 (wRd w)
      (if x.rdP (finOf 7 (wFld w 15 3)) = w.toNat.testBit 18 then x.rdS (finOf 31 (wFld w 10 5)) else a) s)) ∧
    (Dispatches s c k 0x2F w → Yields (.prd c k w) s
      (WritesScalar c k 0x2F w 1 (wRd w) (if x.rdP (finOf 7 (wFld w 10 3)) then 1 else 0) s))

/-- GETS, TRD, FRD and FTST read what the core holds. GETS writes the value of Table 7.5 that its code names; TRD the
value of a tally at the end of the previous cycle; FRD the strand's FMT_FLAGS as it stood at the end of the previous
cycle; FTST 1 where that word has a bit of the immediate set, else 0. The frame is that of register arithmetic.
Rests on 07 (R178, Table 7.5); 07 (R177); 07 (R201); 06 (R150). -/
def Obligations.SystemValues : Prop :=
  ∀ (s : State) (c : CoreId) (k : StrandId) (w : BitVec 56),
    let n := wImm w
    (Dispatches s c k 0x30 w → Yields (.gets c k w) s fun t => ∃ v : Word, WritesScalar c k 0x30 w 1 (wRd w) v s t ∧
      (n = 0 → v.toNat = c.val) ∧ (n = 1 → v.toNat = k.val) ∧ (n = 2 → ∀ l, s.dev.strandLast c k = some l → v.toNat = l.val) ∧
      (n = 3 → v.toNat = s.dev.ownDev) ∧ (n = 4 → v = s.dev.hub.ftime.ft) ∧ (n = 5 → v.toNat = sliceBase c) ∧ (n = 6 → v = 2) ∧
      (n = 7 → ∀ a : ArrayId, fld v (8 * a.val) 8 = s.dev.width c a)) ∧
    (Dispatches s c k 0x31 w → Yields (.trd c k w) s
      (WritesScalar c k 0x31 w 1 (wRd w) (BitVec.ofNat 64 ((s.dev.core c).tallies.get (finOf 63 n)).start) s)) ∧
    (Dispatches s c k 0x78 w → Yields (.frd c k w) s (WritesScalar c k 0x78 w 1 (wRd w) (s.dev.flagsBefore c k) s)) ∧
    (Dispatches s c k 0x7B w → Yields (.ftst c k w) s
      (WritesScalar c k 0x7B w 1 (wRd w) (if s.dev.flagsBefore c k &&& BitVec.ofNat 64 n = 0 then 0 else 1) s))

/-- BR, LOOP, JR and CALL set the PC. BR goes to its own address plus 8 times its offset when p xor neg is 1, and to the
next word otherwise; LOOP decrements its counter and goes there when the new count is not 0 and p xor neg is 1; JR
goes to ra plus 8 times its offset under the same condition; CALL always goes to its own address plus 8 times its
offset and writes the address of the next word to rd. A taken branch lets the strand dispatch again 4 cycles on. The
PC holds the low 48 bits of the target; that a target of 2^48 or more keeps these and faults at the next dispatch is
the model's choice (log 23). No other scalar, no predicate, no register but one counter, no byte of memory changes.
Rests on 07 (R179); 07 (R180); 06 (R147); 06 (R143; model choice, log 23). -/
def Obligations.Branches : Prop :=
  ∀ (s : State) (c : CoreId) (k : StrandId) (w : BitVec 56),
    let x := s.dev.strand c k
    let off : Word := (BitVec.ofNat 32 (wImm w)).signExtend 64
    let cond := xor (x.rdP (wBp w)) (wBneg w)
    let there : Word := x.pc.setWidth 64 + off * 8
    (Dispatches s c k 0x34 w → Yields (.br c k w) s (BranchesTo c k 0x34 w 0 0 cond there s)) ∧
    (Dispatches s c k 0x35 w → Yields (.loop c k w) s
      (BranchesTo c k 0x35 w (wRa w) (x.rdS (wRa w) - 1) (x.rdS (wRa w) - 1 != 0 && cond) there s)) ∧
    (Dispatches s c k 0x36 w → Yields (.jr c k w) s (BranchesTo c k 0x36 w 0 0 cond (x.rdS (wRa w) + off * 8) s)) ∧
    (Dispatches s c k 0x37 w → Yields (.call c k w) s
      (BranchesTo c k 0x37 w (wRd w) (x.pc.setWidth 64 + 8) true there s))

/-- LD8U to LD64 start an access and hold their register back. A ready strand whose next word is a local load with an
aligned effective address starts an access to ra plus the sign-extended offset; rd is not available until the access
completes; no value, no byte of memory and no register but one counter changes. A misaligned address stops the last
with an address fault instead.
Rests on 07 (R181, Table 7.6); 06 (R144, R146). -/
def Obligations.LoadsDispatch : Prop :=
  ∀ (s : State) (c : CoreId) (k : StrandId) (w : BitVec 56),
    let ea := (s.dev.strand c k).rdS (wRa w) + (BitVec.ofNat 32 (wImm w)).signExtend 64
    let ok := fun (i : Instr) (op n : Nat) => Dispatches s c k op w →
      (ea.toNat % n = 0 → Yields i s (StartsAccess c k op w ea 0 s)) ∧
      (ea.toNat % n ≠ 0 → ∃ l, s.dev.strandLast c k = some l ∧
        Yields i s fun t => t.dev = s.dev.fault 4 ⟨l, c, k, (s.dev.strand c k).pc, mkInsn op w⟩ ea)
    ok (.ld8u c k w) 0x50 1 ∧ ok (.ld8s c k w) 0x51 1 ∧ ok (.ld16u c k w) 0x52 2 ∧ ok (.ld16s c k w) 0x53 2 ∧
    ok (.ld32u c k w) 0x54 4 ∧ ok (.ld32s c k w) 0x55 4 ∧ ok (.ld64 c k w) 0x56 8

/-- ST8 to ST64 start an access that carries rs. A ready strand whose next word is a local store with an aligned effective
address starts an access to ra plus the sign-extended offset that carries the value of rs; no scalar, no byte of
memory (the store takes effect later) and no register but one counter changes. A misaligned address stops the last
with an address fault instead.
Rests on 07 (R181, Table 7.6); 06 (R148). -/
def Obligations.StoresDispatch : Prop :=
  ∀ (s : State) (c : CoreId) (k : StrandId) (w : BitVec 56),
    let ea := (s.dev.strand c k).rdS (wRa w) + (BitVec.ofNat 32 (wImm w)).signExtend 64
    let v := (s.dev.strand c k).rdS (wRd w)
    let ok := fun (i : Instr) (op n : Nat) => Dispatches s c k op w →
      (ea.toNat % n = 0 → Yields i s (StartsAccess c k op w ea v s)) ∧
      (ea.toNat % n ≠ 0 → ∃ l, s.dev.strandLast c k = some l ∧
        Yields i s fun t => t.dev = s.dev.fault 4 ⟨l, c, k, (s.dev.strand c k).pc, mkInsn op w⟩ ea)
    ok (.st8 c k w) 0x58 1 ∧ ok (.st16 c k w) 0x59 2 ∧ ok (.st32 c k w) 0x5A 4 ∧ ok (.st64 c k w) 0x5B 8

/-- LDG, STG and AADD start a local access, a request to another module, or a multicast write. A ready strand whose next
word is LDG, STG or AADD with an 8-byte aligned address: at the self address 0x7FFF or this module's own device
address it starts a local access that carries the value of rd or rs; at another device address a request of type RD,
WR or AA leaves with a fresh tag for that module, with the low 48 bits of the address and the value (STG: the bytes to
write, AADD: the operand), and the access is outstanding until the answer; at a multicast address STG of a group whose
entry is valid leaves as a multicast write to the root of the entry, which waits for as many acknowledgements as the
entry has members, STG of another group stops the last with a remote fault whose event carries status 6, and LDG and
AADD stop it with an address fault. LDG and AADD that start hold their register back. No scalar, no byte of memory and
no register but the counters of dispatched instructions and of requests changes. A misaligned address stops the last
with an address fault. Where the status stands in the event, and the layout of the multicast packet, are the model's
choices (logs 50 and 54).
Rests on 07 (R182, R183); 08 (R205); 09 (R248, R249, R263); 09 Tables 9.5 and 9.10 (model choices, logs 50 and 54). -/
def Obligations.GlobalAccessesDispatch : Prop :=
  ∀ (s : State) (c : CoreId) (k : StrandId) (w : BitVec 56),
    let ea := (s.dev.strand c k).rdS (wRa w) + (BitVec.ofNat 32 (wImm w)).signExtend 64
    let v := (s.dev.strand c k).rdS (wRd w)
    let e := s.dev.mcEntry (fld ea 48 15)
    let away := { Packet.blank with dst := BitVec.ofNat 15 (fld ea 48 15), addr := ea.setWidth 48 }
    let ok := fun (i : Instr) (op : Nat) (p : Packet) => Dispatches s c k op w →
      (∀ a, ea.toNat % 8 = 0 → s.dev.targetOf ea = .here a → Yields i s (StartsAccess c k op w ea v s)) ∧
      (∀ n a, ea.toNat % 8 = 0 → s.dev.targetOf ea = .away n a → Yields i s (SendsAccess c k op w ea v p 0 s)) ∧
      (∀ n a, ea.toNat % 8 = 0 → s.dev.targetOf ea = .group n a →
        (op = 0x5D → bitOf e 13 = true → Yields i s (SendsAccess c k op w ea v
          { away with type := 7, len := 7, data := leBytes 8 v.toNat, dst := BitVec.ofNat 15 (fld e 15 15), cid := BitVec.ofNat 16 (fld ea 48 15) }
          (fld e 30 15) s)) ∧
        (op = 0x5D → bitOf e 13 = false → ∃ l, s.dev.strandLast c k = some l ∧
          Yields i s fun t => t.dev = (s.dev.commit c k w).faultInfo 17 (s.originOf c k op w l) ea 6) ∧
        (op ≠ 0x5D → ∃ l, s.dev.strandLast c k = some l ∧ Yields i s fun t => t.dev = s.dev.fault 4 (s.originOf c k op w l) ea)) ∧
      (ea.toNat % 8 ≠ 0 → ∃ l, s.dev.strandLast c k = some l ∧
        Yields i s fun t => t.dev = s.dev.fault 4 (s.originOf c k op w l) ea)
    ok (.ldg c k w) 0x5C { away with type := 2, len := 7 } ∧ ok (.stg c k w) 0x5D { away with type := 0, len := 7, data := leBytes 8 v.toNat } ∧
    ok (.aadd c k w) 0x5E { away with type := 4, operand := v } ∧
    (s.dev.targetOf ea = .here (fld ea 0 48) ↔ bitOf ea 63 = false ∧ (fld ea 48 15 = 0x7FFF ∨ fld ea 48 15 = s.dev.ownDev))

/-- LOAD_DATA_RETURN writes the register of a load. When the oldest outstanding local load of a strand to its word is due
and its access to memory succeeds, LOAD_DATA_RETURN writes rd with the bytes read, extended as the opcode says
(nothing where rd is s0), and the access is no longer outstanding; no other scalar of the strand changes, and no byte
of memory does unless the instruction is AADD.
Rests on 06 (R146, R148); 07 (R181, Table 7.6); 07 (R183). -/
def Obligations.LoadCompletes : Prop :=
  ∀ (s : State) (c : CoreId) (k : StrandId) (id x : Nat) (a : Acc) (bs : List Byte),
    (s.dev.strand c k).access id = some a → a.remote = false → isLoad a.opcode.toNat = true → a.due ≤ s.dev.cycle →
    s.dev.accFirst (s.dev.strand c k) a = true → s.dev.accAddr a = some x →
    (if a.opcode = 0x5E then (s.dev.busAtomic x a.data (.seq c k)).2 else (s.dev.accRead x (accSize a.opcode.toNat)).2) = .ok bs →
    Yields (.loadDataReturn c k id) s fun t =>
      ScalarsBut c k (wRd a.w) (loadValue a.opcode.toNat bs) s t ∧
      (t.dev.strand c k).acc = (s.dev.strand c k).acc.filter (fun b => b.id != a.id) ∧
      (a.opcode ≠ 0x5E → ∀ y, t.dev.byte y = s.dev.byte y)

/-- STORE_COMPLETE writes the bytes of a store to stock. When the oldest outstanding local store of a strand to its word
is due and its address lies in a stock slice whose die is ON, STORE_COMPLETE makes the stored bytes of memory read the
low bytes of the stored value, little-endian, and leaves every other byte; the access is no longer outstanding and no
scalar changes. The words written in part are taken to carry no ECC error, and no write of another master to these
bytes to have been served in this cycle, whose order the grants decide.
Rests on 06 (R148); 07 (R181, Table 7.6); 08 (R203, R209, R210, R215). -/
def Obligations.StoreCompletes : Prop :=
  ∀ (s : State) (c n : CoreId) (k : StrandId) (id x o : Nat) (a : Acc),
    (s.dev.strand c k).access id = some a → a.remote = false → isLoad a.opcode.toNat = false → a.due ≤ s.dev.cycle →
    s.dev.accFirst (s.dev.strand c k) a = true → s.dev.accAddr a = some x → region x = .stock n o → s.dev.dieOn (dieOf n) = true →
    (∀ y ∈ partWords x (accSize a.opcode.toNat), s.dev.eccIn y 8 = []) →
    (∀ e ∈ s.dev.now.stk, e.who = .seq c k ∨ e.addr + e.len ≤ x ∨ x + accSize a.opcode.toNat ≤ e.addr) →
    Yields (.storeComplete c k id) s fun t =>
      (∀ i, i < accSize a.opcode.toNat → t.dev.byte (x + i) = BitVec.ofNat 8 (a.data.toNat / 256 ^ i)) ∧
      (∀ y, (y < x ∨ x + accSize a.opcode.toNat ≤ y) → t.dev.byte y = s.dev.byte y) ∧
      (t.dev.strand c k).acc = (s.dev.strand c k).acc.filter (fun b => b.id != a.id) ∧
      (∀ q, (t.dev.strand c k).rdS q = (s.dev.strand c k).rdS q)

/-- FETCH_RETURN brings a line of text into the fetch buffer. A 64-byte aligned line of the core's own slice, at most 32
instructions from the line of the PC, read without an ECC error, gives the strand's fetch buffer its eight words at
their addresses; the PC, the scalars, every other strand and every byte of memory are unchanged.
Rests on 06 (R147). -/
def Obligations.FetchFillsBuffer : Prop :=
  ∀ (s : State) (c : CoreId) (k : StrandId) (line : BitVec 48) (l : LastId),
    s.dev.strandLast c k = some l → s.dev.coreOn c = true → line.toNat % 64 = 0 → badPc c line false = false →
    (s.dev.strand c k).pc.toNat / 64 * 64 ≤ line.toNat → line.toNat < (s.dev.strand c k).pc.toNat / 64 * 64 + 256 →
    s.dev.eccIn line.toNat 64 = [] →
    Yields (.fetchReturn c k line) s fun t =>
      (∀ i, i < 8 → (line.toNat + 8 * i, BitVec.ofNat 64 (leNat (s.dev.rdMem (line.toNat + 8 * i) 8))) ∈ (t.dev.strand c k).fetch) ∧
      (t.dev.strand c k).pc = (s.dev.strand c k).pc ∧ (∀ q, (t.dev.strand c k).rdS q = (s.dev.strand c k).rdS q) ∧
      t.dev.strand c (otherStrand k) = s.dev.strand c (otherStrand k) ∧ (∀ a, t.dev.byte a = s.dev.byte a)

/-- A word that R157 forbids raises an illegal-instruction fault. For every instruction of the table: where a strand is
ready for its word and R157 makes the word illegal (a tally named without its enable, a field that must be 0), and for
every reserved opcode, the dispatch is a fault of cause 2 of the issuing last, and nothing of the instruction takes
place.
Rests on 06 (R157, R158); 07 (R171); 06 (R152). -/
def Obligations.IllegalInstructionFaults : Prop :=
  ∀ (s : State) (c : CoreId) (k : StrandId),
    (∀ (i : Instr) (op : Nat) (w : BitVec 56), i.insn = some (c, k, op, w) → s.dev.canIssue c k (mkInsn op w) = true →
      illegal op w = true → ∃ l, s.dev.strandLast c k = some l ∧
        Yields i s fun t => t.dev = s.dev.fault 2 ⟨l, c, k, (s.dev.strand c k).pc, mkInsn op w⟩ 0) ∧
    (∀ w : Word, formOf (w.toNat / 2 ^ 56) = .reserved → s.dev.canIssue c k w = true → ∃ l, s.dev.strandLast c k = some l ∧
      Yields (.reservedOpcodeDispatch c k w) s fun t => t.dev = s.dev.fault 2 ⟨l, c, k, (s.dev.strand c k).pc, w⟩ 0)

/-- An instruction whose strand is not ready changes nothing but the stall code shown. For every instruction of the table:
where its strand cannot dispatch its word and its PC is no fetch fault, the device is the same but for the stall code
that SEQ_STAT shows.
Rests on 06 (R144, R145, Table 6.18). -/
def Obligations.NotReadyOnlyStalls : Prop :=
  ∀ (s : State) (i : Instr) (c : CoreId) (k : StrandId) (op : Nat) (w : BitVec 56), i.insn = some (c, k, op, w) →
    s.dev.canIssue c k (mkInsn op w) = false → badPc c (s.dev.strand c k).pc (s.dev.strand c k).pcWild = false →
    Yields i s fun t => ∃ n, t.dev = s.dev ∨ t.dev = s.dev.setStall c k n

/-- A fault of a running last stops it and is recorded. The first fault of a RUNNING last makes the last STOPPED; every
RUNNING, TRAPPED, HALTING or PAUSED strand of it becomes STOPPED and every other strand keeps its state; its queued
operations are removed (those of the arrays leave in the next cycle) and so are those that a pause stopped; and
LST_FLT_L takes cause, core, strand, PC, word and detail. No byte of memory changes and no other last changes state.
Faults of lasts in other states, which only count or change nothing, are not part of this statement (log 48).
Rests on 06 (R159, R160, Table 6.23); 03 (R82). -/
def Obligations.FaultStopsLast : Prop :=
  ∀ (s : State) (cause : Nat) (o : Origin) (detail : Word), cause < 256 →
    (s.dev.last o.last).st = .running →
    let d := s.dev.fault cause o detail
    (d.last o.last).st = .stopped ∧ (∀ l, l ≠ o.last → d.last l = s.dev.last l) ∧ (∀ a, d.byte a = s.dev.byte a) ∧
    (∀ c k, let x := (s.dev.strand c k).st
      (d.strand c k).st = if s.dev.strandLast c k = some o.last ∧ (x = .running ∨ x = .trapped ∨ x = .halting ∨ x = .paused) then .stopped else x) ∧
    (∀ p ∈ d.ops, p.last = o.last → p.phase ≠ .stopped ∧ (p.phase = .queued → p.isArr = true)) ∧
    d.reg (aLstFlt o.last 1) = o.pc.setWidth 64 ∧ d.reg (aLstFlt o.last 2) = o.insn ∧ d.reg (aLstFlt o.last 3) = detail ∧
    d.regFld (aLstFlt o.last 0) 0 8 = cause ∧ d.regFld (aLstFlt o.last 0) 8 7 = o.core.val ∧
    d.regFld (aLstFlt o.last 0) 15 1 = o.strand.val

/-- MMA, MMALW, FINISH, LIFT and RELOAD enter their queues. An instruction of the arrays that passes the checks of Table
7.8 enters its queues as the youngest operation, with the copies of its descriptors (MMA: three, MMALW and FINISH: its
own) or its stock address, and with its tiles: MMA of well-formed descriptors, on halves and tiles that its last owns,
with init 1 or with tiles whose dispatched class is its own; MMALW on halves that its last owns; FINISH of a tile that
its last owns, whose dispatched class its descriptor fits; LIFT and RELOAD of such a tile at an allowed stock address,
RELOAD with a class from 1 to 6. An MMA with init 1 and a RELOAD leave their tiles with their own dispatched class.
FINISH with conv 0 and rounding code 4 takes a draw number and no other of these does. Scalars, predicates, memory,
every register but one counter, hub, lasts, the other strand and the other cores are unchanged, and the PC moves on.
Rests on 07 (R184, R185, R186, R187, R188, Table 7.8); 06 (R153, R155); 04 (R94). -/
def Obligations.ArrayInstructionsDispatch : Prop :=
  ∀ (s : State) (c : CoreId) (k : StrandId) (w : BitVec 56) (l : LastId), s.dev.strandLast c k = some l →
    let o := fun op => s.originOf c k op w l
    let ws := (s.dev.core c).desc (wDesc w)
    let copied := fun (x : Op) => x.desc = ws
    let draws := fun (t : State) (b : Bool) => (t.dev.strand c k).draw = (s.dev.strand c k).draw + (if b then 1 else 0)
    (∀ r, Dispatches s c k 0x40 w → s.dev.mmaShared (o 0x40) = true → s.dev.mmaOwn (o 0x40) = true → wPair w = some r →
      s.dev.ownsHalves (o 0x40) (wArray w) (wHalf w) = true → (∀ t ∈ mmaTiles w, s.dev.ownsTile (o 0x40) (wArray w) t = true) →
      ((mdesc ws).init = true ∨ ∀ t ∈ mmaTiles w, (s.dev.dcls c (wArray w) t).toNat = r.2.2.1.code) →
      Yields (.mma c k w) s fun t => EntersQueue c k 0x40 w l (fun x => copied x ∧ x.tiles = mmaTiles w ∧
        x.ta = (s.dev.core c).desc (mdesc ws).ta ∧ x.tb = (s.dev.core c).desc (mdesc ws).tb) s t ∧ draws t false ∧
        ∀ u ∈ mmaTiles w, (t.dev.dcls c (wArray w) u).toNat = r.2.2.1.code) ∧
    (Dispatches s c k 0x41 w → s.dev.mmaShared (o 0x41) = true → s.dev.ownsHalves (o 0x41) (wArray w) (wHalf w) = true →
      Yields (.mmalw c k w) s fun t => EntersQueue c k 0x41 w l (fun x => copied x ∧ x.tiles = [] ∧
        x.tb = (s.dev.core c).desc (mdesc ws).tb) s t ∧ draws t false) ∧
    (Dispatches s c k 0x42 w → finishOk ws (s.dev.dcls c (wArray w) (wTile w)).toNat = true →
      s.dev.ownsTile (o 0x42) (wArray w) (wTile w) = true →
      convFits (fdesc ws).conv (s.dev.dcls c (wArray w) (wTile w)).toNat = true →
      Yields (.finish c k w) s fun t => EntersQueue c k 0x42 w l (fun x => copied x ∧ x.tiles = [wTile w]) s t ∧
        draws t ((fdesc ws).conv == 0 && (fdesc ws).rnd == 4)) ∧
    (Dispatches s c k 0x43 w → s.dev.stockOk (o 0x43) = true → s.dev.ownsTile (o 0x43) (wArray w) (wTile w) = true →
      Yields (.lift c k w) s fun t => EntersQueue c k 0x43 w l
        (fun x => x.stock = ((s.dev.strand c k).rdS (wEra w)).setWidth 48 ∧ x.tiles = [wTile w]) s t ∧ draws t false) ∧
    (Dispatches s c k 0x44 w → s.dev.stockOk (o 0x44) = true → wCls w ≠ 0 → wCls w ≠ 7 →
      s.dev.ownsTile (o 0x44) (wArray w) (wTile w) = true →
      Yields (.reload c k w) s fun t => EntersQueue c k 0x44 w l
        (fun x => x.stock = ((s.dev.strand c k).rdS (wEra w)).setWidth 48 ∧ x.tiles = [wTile w]) s t ∧ draws t false ∧
        (t.dev.dcls c (wArray w) (wTile w)).toNat = wCls w)

/-- VOP, VRED, SFN, SMAX1, SMAX2, PLOOK, PLOAD, PSWAP and CVT enter their queues. An engine instruction of a core whose
descriptor passes its checks (and, for the pattern engine, whose last owns the banks) enters its queue with the copy
of its descriptor taken at dispatch; VRED, SMAX2 and CVT take a draw number when their descriptor selects rounding
code 4 for what they write; PSWAP exchanges the bank that later dispatches see; scalars, predicates, memory and
registers are unchanged.
Rests on 07 (R185, R186, Table 7.8); 06 (R153, R155); 05 (R132). -/
def Obligations.VectorInstructionsDispatch : Prop :=
  ∀ (s : State) (c : CoreId) (k : StrandId) (w : BitVec 56) (l : LastId), s.dev.strandLast c k = some l →
    let ws := (s.dev.core c).desc (wDesc w)
    let copied := fun (x : Op) => x.desc = ws
    let draws := fun (t : State) (b : Bool) => (t.dev.strand c k).draw = (s.dev.strand c k).draw + (if b then 1 else 0)
    (Dispatches s c k 0x45 w → vopOk ws = true → Yields (.vop c k w) s (EntersQueue c k 0x45 w l copied s)) ∧
    (Dispatches s c k 0x46 w → vredOk ws = true → Yields (.vred c k w) s fun t => EntersQueue c k 0x46 w l copied s t ∧
      draws t (!(vdesc ws).outk && (vdesc ws).rnd == 4)) ∧
    (Dispatches s c k 0x47 w → sfnOk ws = true → Yields (.sfn c k w) s fun t => EntersQueue c k 0x47 w l copied s t ∧ draws t false) ∧
    (Dispatches s c k 0x48 w → smaxOk 0x48 ws = true →
      Yields (.smax1 c k w) s fun t => EntersQueue c k 0x48 w l copied s t ∧ draws t false) ∧
    (Dispatches s c k 0x49 w → smax2Ok ws = true → Yields (.smax2 c k w) s fun t => EntersQueue c k 0x49 w l copied s t ∧
      draws t ((vdesc ws).rnd == 4)) ∧
    (Dispatches s c k 0x4A w → plookOk ws = true → s.dev.patOwner c = some l →
      Yields (.plook c k w) s (EntersQueue c k 0x4A w l (fun x => copied x ∧ x.bank = (s.dev.core c).patDispatched) s)) ∧
    (Dispatches s c k 0x4B w → ploadOk ws = true → s.dev.patOwner c = some l →
      Yields (.pload c k w) s (EntersQueue c k 0x4B w l (fun x => copied x ∧ x.bank = !(s.dev.core c).patDispatched) s)) ∧
    (Dispatches s c k 0x4C w → s.dev.patOwner c = some l → Yields (.pswap c k w) s fun t =>
      EntersQueue c k 0x4C w l (fun _ => True) s t ∧ (t.dev.core c).patDispatched = !(s.dev.core c).patDispatched) ∧
    (Dispatches s c k 0x4D w → cvtOk ws = true → Yields (.cvt c k w) s fun t => EntersQueue c k 0x4D w l copied s t ∧
      draws t ((vdesc ws).rnd == 4))

/-- ARM, REARM and SWAP enter the queue of their hod. A ready strand whose next word is ARM, REARM or SWAP enters it as
the youngest command of the hod queue that bit 5 names; scalars, predicates, memory and registers are unchanged (but
one instruction counter), and so are the hods of the core, its stream descriptors and the state of their runs, until
the hod takes the command.
Rests on 07 (R191); 06 (R155, Table 6.8). -/
def Obligations.StreamInstructionsDispatch : Prop :=
  ∀ (s : State) (c : CoreId) (k : StrandId) (w : BitVec 56) (l : LastId), s.dev.strandLast c k = some l →
    let P := fun (t : State) => (∀ y : Op, y ∈ t.dev.ops → y.id = s.dev.nextOp → y ∉ s.dev.ops → y.inQueue c (.hod (wHod w)) = true) ∧
      (t.dev.core c).hods = (s.dev.core c).hods ∧ (t.dev.core c).sds = (s.dev.core c).sds ∧ (t.dev.core c).sdescs = (s.dev.core c).sdescs
    (Dispatches s c k 0x60 w → Yields (.arm c k w) s fun t => EntersQueue c k 0x60 w l (fun _ => True) s t ∧ P t) ∧
    (Dispatches s c k 0x61 w → Yields (.rearm c k w) s fun t => EntersQueue c k 0x61 w l (fun _ => True) s t ∧ P t) ∧
    (Dispatches s c k 0x62 w → Yields (.swap c k w) s fun t => EntersQueue c k 0x62 w l (fun _ => True) s t ∧ P t)

/-- TADD, TSET and NOP. TADD adds its immediate to its tally as an increment of the cycle, TSET replaces the value of its
tally at the end of the cycle, and NOP does nothing; each completes in its cycle: it posts where its post enable is
set and its last may post. Scalars, predicates, memory, registers and the other strand are unchanged.
Rests on 07 (R192); 07 (R193); 07 (R196); 06 (R149, R151). -/
def Obligations.TallyInstructions : Prop :=
  ∀ (s : State) (c : CoreId) (k : StrandId) (w : BitVec 56) (l : LastId), s.dev.strandLast c k = some l →
    let o := fun op => s.originOf c k op w l
    let post := fun (op : Nat) (i : TallyId) => if wPen w = true ∧ s.dev.mayPost l = true ∧ wPtal w = i then [(⟨1, some (o op)⟩ : Incr)] else []
    let inc := fun (u : State) (i : TallyId) => ((u.dev.core c).tallies.get i).inc
    (Dispatches s c k 0x68 w → Yields (.tadd c k w) s fun t => MovesOn c k s t ∧
      ∀ i, inc t i = inc s i ++ (if i = wTally w then [⟨wImm16 w, some (o 0x68)⟩] else []) ++ post 0x68 i) ∧
    (Dispatches s c k 0x69 w → Yields (.tset c k w) s fun t => MovesOn c k s t ∧
      (∀ i, inc t i = inc s i ++ post 0x69 i) ∧ ((t.dev.core c).tallies.get (wTally w)).tset = some (wImm16 w) ∧
      (∀ i, i ≠ wTally w → ((t.dev.core c).tallies.get i).tset = ((s.dev.core c).tallies.get i).tset)) ∧
    (Dispatches s c k 0x70 w → Yields (.nop c k w) s fun t => MovesOn c k s t ∧ ∀ i, inc t i = inc s i ++ post 0x70 i)

/-- KEYSTONE and FTWAIT register their waits. KEYSTONE of an enabled keystone that names the strand's last, with none of
that number outstanding, counts one local arrival (in the current round, or in the next once the round has its local
count) and stays outstanding; a second one of the same number is an illegal instruction. FTWAIT stays outstanding
until its instant when fabric time has not reached it, and is complete at once when it has; a second one is an illegal
instruction.
Rests on 07 (R194); 07 (R195); 09 (R276). -/
def Obligations.WaitInstructions : Prop :=
  ∀ (s : State) (c : CoreId) (k : StrandId) (w : BitVec 56) (l : LastId), s.dev.strandLast c k = some l →
    let n : KeyId := finOf 63 (wImm16 w)
    let v := s.dev.ksCfg n
    let at_ := (s.dev.strand c k).rdS (wTra w)
    let free := (s.dev.strand c k).keys.any fun x => x.1 == n
    (Dispatches s c k 0x6A w → bitOf v 3 = true → fld v 0 3 = l.val → free = false → (s.dev.key n).st < 2 →
      Yields (.keystone c k w) s fun t => MovesOn c k s t ∧
        (t.dev.strand c k).keys = (s.dev.strand c k).keys ++ [(n, ⟨0, (s.dev.strand c k).pc, 0x6A, w⟩)] ∧
        ((s.dev.key n).arrived < fld v 4 8 → (t.dev.key n).arrived = (s.dev.key n).arrived + 1 ∧ (t.dev.key n).next = (s.dev.key n).next) ∧
        (fld v 4 8 ≤ (s.dev.key n).arrived → (t.dev.key n).arrived = (s.dev.key n).arrived ∧ (t.dev.key n).next = (s.dev.key n).next + 1)) ∧
    (Dispatches s c k 0x6A w → (bitOf v 3 = false ∨ fld v 0 3 ≠ l.val ∨ free = true) →
      Yields (.keystone c k w) s fun t => t.dev = s.dev.fault 2 (s.originOf c k 0x6A w l) 0) ∧
    (Dispatches s c k 0x6B w → (s.dev.strand c k).ftwait = none →
      Yields (.ftwait c k w) s fun t => MovesOn c k s t ∧ (t.dev.strand c k).ftwait =
        if at_.toNat ≤ s.dev.hub.ftime.ft.toNat then none else some ⟨at_, (s.dev.strand c k).pc, 0x6B, w⟩) ∧
    (Dispatches s c k 0x6B w → (s.dev.strand c k).ftwait ≠ none →
      Yields (.ftwait c k w) s fun t => t.dev = s.dev.fault 2 (s.originOf c k 0x6B w l) 0)

/-- HALT, TRAP and SNAP. HALT with its condition holding makes its strand HALTING; TRAP makes it TRAPPED with its code and
raises event 0x3002; with the condition false they change nothing but the PC and the post. SNAP raises the plumb
trigger in the next cycle with its code as the tag, and completes then.
Rests on 06 (R161, R162); 07 (R197, R198). -/
def Obligations.StrandControl : Prop :=
  ∀ (s : State) (c : CoreId) (k : StrandId) (w : BitVec 56) (l : LastId), s.dev.strandLast c k = some l →
    let x := s.dev.strand c k
    let cond := !wCond w || xor (x.rdP (wYp w)) (wYneg w)
    (Dispatches s c k 0x71 w → Yields (.halt c k w) s fun t => MovesOn c k s t ∧
      (t.dev.strand c k).st = if cond then .halting else .running) ∧
    (Dispatches s c k 0x72 w → Yields (.trap c k w) s fun t => MovesOn c k s t ∧
      (t.dev.strand c k).st = (if cond then .trapped else .running) ∧
      (t.dev.strand c k).trap = (if cond then BitVec.ofNat 16 (wCode w) else x.trap) ∧
      (t.dev.aoc.rcd.raised.map fun e => e.code) = (s.dev.aoc.rcd.raised.map fun e => e.code) ++ (if cond then [0x3002] else [])) ∧
    (Dispatches s c k 0x73 w → Yields (.snap c k w) s fun t => MovesOn c k s t ∧
      t.dev.hub.plumb.raised = s.dev.hub.plumb.raised ++ [(s.dev.cycle + 1, 0, wCode w)] ∧ PostsAt c k 0x73 w (s.dev.cycle + 1) s t)

/-- TGRPB and TGRPE open and close a steal group. TGRPB opens a steal group that holds nothing yet, whatever group was
open; TGRPE closes the open group, and without one has no effect. Scalars, predicates, memory and registers are
unchanged.
Rests on 06 (R165); 07 (R196). -/
def Obligations.GroupInstructions : Prop :=
  ∀ (s : State) (c : CoreId) (k : StrandId) (w : BitVec 56) (l : LastId), s.dev.strandLast c k = some l →
    (Dispatches s c k 0x74 w → Yields (.tgrpb c k w) s fun t => MovesOn c k s t ∧
      ∃ g : Group, (t.dev.strand c k).group = some g ∧ g.movable = true ∧ g.stage = 0 ∧ t.dev.ops = s.dev.ops) ∧
    (Dispatches s c k 0x75 w → Yields (.tgrpe c k w) s fun t => MovesOn c k s t ∧ (t.dev.strand c k).group = none ∧
      ((s.dev.strand c k).group = none → t.dev.ops = s.dev.ops))

/-- CSAVE begins a pause with a save, CREST a restore. CSAVE with a 64 KiB aligned address inside HBM begins the pause of
its last, with a save at that address that it governs, from this cycle on; the last resumes afterwards where code bit
0 is 1, unless an NCP pause asked before it, which is then answered with the save. CREST with such an address begins a
restore from it onto the last its code names, and CKP_STAT shows state 5. Scalars, predicates and memory are unchanged
and the PC moves on. Any other address stops the last with an address fault.
Rests on 07 (R199); 07 (R200); 10 (R292, R301). -/
def Obligations.SaveInstructions : Prop :=
  ∀ (s : State) (c : CoreId) (k : StrandId) (w : BitVec 56) (l : LastId), s.dev.strandLast c k = some l →
    let v := (s.dev.strand c k).rdS (wYra w)
    let good := v.toNat % 0x10000 = 0 ∧ v.toNat < s.dev.hbmSize
    let ncp := (s.dev.last l).pausing.bind fun p => p.asker
    let here := (c, k, (s.dev.strand c k).pc, w)
    (Dispatches s c k 0x76 w → good → Yields (.csave c k w) s fun t => MovesOn c k s t ∧
      t.dev.last l = { s.dev.last l with
        pausing := some ⟨some v.toNat, wFld w 0 1 == 1 && ncp.isNone, ncp, some here, false, 0, s.dev.cycle, true⟩ } ∧
      ∀ y, y ≠ l → t.dev.last y = s.dev.last y) ∧
    (Dispatches s c k 0x77 w → good → Yields (.crest c k w) s fun t =>
      t.dev.aoc.restoring = s.dev.aoc.restoring ++ [⟨v.toNat, none, some here, .last (last_of (wFld w 0 16))⟩] ∧
      t.dev.regFld (aCkp 8) 0 3 = 5 ∧ (∀ a, t.dev.byte a = s.dev.byte a) ∧ t.dev.lasts = s.dev.lasts ∧
      (∀ q, (t.dev.strand c k).rdS q = (s.dev.strand c k).rdS q) ∧ (∀ q, (t.dev.strand c k).rdP q = (s.dev.strand c k).rdP q) ∧
      (t.dev.strand c k).pc = (s.dev.strand c k).pc + 8) ∧
    (Dispatches s c k 0x76 w → ¬ good →
      Yields (.csave c k w) s fun t => t.dev = s.dev.fault 4 (s.originOf c k 0x76 w l) v) ∧
    (Dispatches s c k 0x77 w → ¬ good →
      Yields (.crest c k w) s fun t => t.dev = s.dev.fault 4 (s.originOf c k 0x77 w l) v)

/-- FCLR and MXCLR clear flags and slots. FCLR clears every sticky flag of its strand (bits [4:0], [12:8], [20:16] and
[28:24] of FMT_FLAGS) whose bit is 1 in the immediate, but one set in the same cycle stays set, and leaves the other
flags. MXCLR leaves in every max-abs slot whose bit is 1 what was offered to it in this cycle alone, and leaves the
other slots. Scalars, predicates, memory, the other strand, the other cores and every other register but one counter
are unchanged, and the PC moves on.
Rests on 07 (R201); 07 (R202); 01 (R36, R38). -/
def Obligations.ClearInstructions : Prop :=
  ∀ (s : State) (c : CoreId) (k : StrandId) (w : BitVec 56) (l : LastId), s.dev.strandLast c k = some l →
    let kept := (s.dev.now.sets.filter fun e => e.addr == aFlags c k).foldl (fun m e => m ||| e.bits) (0 : Word)
    (Dispatches s c k 0x79 w → Yields (.fclr c k w) s fun t => MovesOnBut (aFlags c k) c k s t ∧
      t.dev.reg (aFlags c k) &&& 0x1F1F1F1F =
        s.dev.reg (aFlags c k) &&& 0x1F1F1F1F &&& ~~~(BitVec.ofNat 64 (wImm w) &&& ~~~kept)) ∧
    (Dispatches s c k 0x7A w → Yields (.mxclr c k w) s fun t => MovesOn c k s t ∧
      ∀ n : Fin 32, (t.dev.core c).maxabs.get n = if (wImm w).testBit n.val then
        (s.dev.now.gath.filter fun g => g.1 == c.val && g.2.1 == n.val).foldl (fun a g => MaxAbs.join a g.2.2) MaxAbs.zero
        else (s.dev.core c).maxabs.get n)

/-- VECTOR_START, SFU_START, CVT_START, PLOOK_START, PLOAD_PORT_ENTRY and PLOAD_WRITE_START. The operation at the head of
an engine's queue starts when none of the engine's runs: it is started in this cycle and due after the cycles its
shape takes; a PLOOK also waits for a PLOAD that was dispatched before a PSWAP ahead of it; a PLOAD passes into an
empty reload port and, once no PLOOK before it reads its bank, starts writing 128 elements a cycle. No byte of memory
changes.
Rests on 04 (R112, R116); 05 (R133, R135, R136); 06 (R155). -/
def Obligations.EnginesStart : Prop :=
  ∀ (s : State) (c : CoreId) (o : Op),
    let st := fun (i : Instr) (n : Nat) => Yields i s fun t => (∀ a, t.dev.byte a = s.dev.byte a) ∧
      (t.dev.opNow o).phase = .started ∧ (t.dev.opNow o).began = s.dev.cycle ∧ (t.dev.opNow o).due = s.dev.cycle + n
    (s.dev.head c .vec = some o → s.dev.running c [0x45, 0x46] = none → st (.vectorStart c) o.lasts) ∧
    (s.dev.head c .sfu = some o → s.dev.running c [0x47, 0x48, 0x49] = none → st (.sfuStart c) o.lasts) ∧
    (s.dev.head c .cvt = some o → s.dev.running c [0x4D] = none → st (.cvtStart c) o.lasts) ∧
    (s.dev.head c .pat = some o → o.opcode = 0x4A → s.dev.running c [0x4A] = none → s.dev.ploadAhead o = false →
      st (.plookStart c) o.lasts) ∧
    (s.dev.head c .pat = some o → o.opcode = 0x4B → s.dev.inPort c = none → Yields (.ploadPortEntry c) s fun t =>
      (∀ a, t.dev.byte a = s.dev.byte a) ∧ (t.dev.opNow o).phase = .port ∧ (t.dev.opNow o).began = s.dev.cycle) ∧
    (s.dev.ops.find? (fun x => x.opcode == 0x4B && x.ecore == c && x.phase == .port) = some o → o.began ≤ s.dev.cycle →
      s.dev.bankRead o = false →
      st (.ploadWriteStart c) (ceilDiv (vdesc o.desc).pcount 128 - 1))

/-- VOP_COMPLETE, VRED_COMPLETE, SFN_COMPLETE, SMAX1_COMPLETE, SMAX2_COMPLETE, PLOOK_COMPLETE and CVT_COMPLETE. When the
running operation of its opcode is due, has read its last element and has no result later than this cycle on its way
(none of them meeting an ECC error in a word that it covers in part, and no other master having written in this
cycle), its completion writes the results on their way to memory in their order and nothing else; the operation is no
longer among those dispatched and every other one is; its flags, with those of these results, stand in the set of its
engine; and it posts where it names a tally and its last may post.
Rests on 04 (R112); 05 (R116, R121, R129, R130, R134); 07 (R189, R190); 01 (R37, R38); 06 (R149); 08 (R209, R215). -/
def Obligations.EnginesComplete : Prop :=
  ∀ (s : State) (c : CoreId) (o : Op), s.Lands o → s.dev.opNow o = o → o.due ≤ s.dev.cycle → o.pos = o.total → o.stop = none →
    (∀ w ∈ s.dev.wrs, w.op = o.id → w.due ≤ s.dev.cycle) →
    let fin := fun (i : Instr) (op : Byte) (set : FlagSet) => s.dev.running c [op] = some o →
      Yields i s (RunEnds o set (s.dev.wrs.filter fun w => w.op == o.id) s)
    fin (.vopComplete c) 0x45 .vec ∧ fin (.vredComplete c) 0x46 .vec ∧ fin (.sfnComplete c) 0x47 .sfu ∧ fin (.smax1Complete c) 0x48 .sfu ∧
    fin (.smax2Complete c) 0x49 .sfu ∧ fin (.plookComplete c) 0x4A .vec ∧ fin (.cvtComplete c) 0x4D .cvt

/-- MMA_START, WEIGHT_LOAD_START, PASS_START, FINISH_START and SLICE_PORT_START. An MMA or MMALW at the head of every half
queue it entered starts where its feeders are free, none of its halves drains, every earlier operation on its tiles
lets it, its first load (where it needs one) may begin, its weights suit it and its tiles are not poisoned (or it
initialises them). The next slice of a started operation begins to load where the load may begin and its zero points
are allowed: its halves lose their preload, and another MMALW that is started there is closed. The first slot of a
pass that may enter, whose last is not being paused, becomes due in this cycle. When slots are fed, such a first slot
whose cost the account of the die can pay enters where its rows meet no ECC error: the operation is one pass on, the
halves take its beat, the account pays its cost and the next slot follows a beat later; where the account is short
nothing enters and the slot is tried a beat later, which is the model's reading (log 25). A FINISH and a LIFT or
RELOAD at the head of their queues start where their unit is free and the tile lets them. No byte of memory changes.
Rests on 03 (R65, R70, R72, R73, R75, R78, R80); 04 (R95, R97, R98, R101, R103); 12 (R334; model choice, log 25). -/
def Obligations.ArrayOperationsStart : Prop :=
  ∀ (s : State) (c : CoreId) (a : ArrayId) (u : HalfId) (o : Op),
    let quiet := fun (t : State) => ∀ b, t.dev.byte b = s.dev.byte b
    let runs := fun (t : State) => (t.dev.opNow o).phase = .started ∧ (t.dev.opNow o).began = s.dev.cycle
    let units := fun (d : Dev) => d.aoc.gov.units.get (dieOf c)
    (s.dev.head c (.half a u) = some o → s.dev.atHeads o = true → s.dev.feedersFree o = true →
      o.halves.any (fun v => (s.dev.half c a v).drainEnd.isSome) = false → s.dev.tileFree o = true →
      (o.loadsFirst = true → s.dev.loadAllowed o = true) →
      (o.opcode = 0x40 → (o.pos = 0 → s.dev.weightsOk o = true) ∧ (o.shape.m.init = true ∨ s.dev.poisonedTile o = false)) →
      Yields (.mmaStart c a u) s fun t => quiet t ∧ runs t) ∧
    (s.dev.loadNext c a u = some o → s.dev.loadAllowed o = true → s.dev.zkBad o o.shape = false →
      Yields (.weightLoadStart c a u) s fun t => quiet t ∧ (t.dev.opNow o).loaded = true ∧ (t.dev.opNow o).loadAt = s.dev.cycle ∧
        (t.dev.opNow o).rows = some 0 ∧ (∀ v ∈ o.halves, (t.dev.half c a v).preloaded = false) ∧
        ∀ x ∈ t.dev.ops, x.opcode = 0x41 → x.id ≠ o.id → x.phase = .started → x.ecore = c → x.earray = a →
          (o.halves.any fun v => x.usesHalf v) = true → x.closed = true) ∧
    (s.dev.passNext c a u = some o → s.dev.slotAllowed o = true →
      (s.dev.last o.last).pausing.any (fun p => decide (p.began < s.dev.cycle)) = false → Yields (.passStart c a u) s fun t => quiet t ∧
        (t.dev.opNow o).feed = some (0, s.dev.cycle) ∧ (t.dev.opNow o).pos = (s.dev.opNow o).pos ∧ t.dev.slots = s.dev.slots ∧
        units t.dev = units s.dev) ∧
    (o ∈ s.dev.ops → o.ecore = c → o.earray = a →
      let d := s.dev.feedSlot o 0
      (o.shape.cost ≤ units s.dev → (s.dev.scan (o.aReads o.shape o.pos 0)).2 = none →
        (d.opNow o).pos = (s.dev.opNow o).pos + 1 ∧ (d.opNow o).loaded = false ∧
        (d.opNow o).feed = (if o.shape.m.m = 1 then none else some (1, s.dev.cycle + o.shape.beat)) ∧
        (∀ v ∈ o.halves, (d.half c a v).beat = o.shape.beat) ∧ units d = units s.dev - o.shape.cost ∧
        ∃ l ∈ d.slots, l.op = o.id ∧ l.row = 0 ∧ l.pass = o.pos ∧ l.at_ = s.dev.cycle) ∧
      (units s.dev < o.shape.cost → (d.opNow o).feed = some (0, s.dev.cycle + o.shape.beat) ∧ (d.opNow o).pos = (s.dev.opNow o).pos ∧
        d.slots = s.dev.slots ∧ units d = units s.dev)) ∧
    (s.dev.head c (.fin a) = some o → s.dev.ops.any (fun x => x.opcode == 0x42 && x.phase == .started && x.ecore == c && x.earray == a) = false →
      s.dev.tileFree o = true → s.dev.poisonedTile o = false → Yields (.finishStart c a) s fun t => quiet t ∧ runs t) ∧
    (s.dev.head c .slice = some o → s.dev.running c [0x43, 0x44] = none → s.dev.tileFree o = true →
      (o.opcode = 0x44 ∨ ((s.dev.tile c o.earray (o.tiles.headD 0)).cls ≠ 0 ∧ (s.dev.tile c o.earray (o.tiles.headD 0)).poisoned = false)) →
      Yields (.slicePortStart c) s fun t => quiet t ∧ runs t)

/-- MMA_COMPLETE, MMALW_COMPLETE, FINISH_COMPLETE, LIFT_COMPLETE and RELOAD_COMPLETE. When it is due, with no ECC error
present, an operation of the arrays completes: it is no longer among those dispatched and every other one is, its
flags stand in the set of its engine and strand, and it posts where it names a tally and its last may post. An MMA
must have injected every slot and have nothing left for the foot after this cycle: the tiles stand as the foot leaves
them. An MMALW whose slice was neither consumed nor overwritten leaves its halves preloaded with its format, another
leaves them as they were. A FINISH and a LIFT that have read everything write the results on their way to memory and
nothing else (no other master having written in this cycle). A RELOAD whose last entries are due gives its tile the
entries that it had still to write, from its stock address, leaves the entries before them, and gives the tile the
class it names and no poison. MMA, MMALW and RELOAD change no byte of memory.
Rests on 03 (R66, R70, R75); 04 (R97, R98, R99, R105, R107); 01 (R37, R38); 06 (R149). -/
def Obligations.ArrayOperationsComplete : Prop :=
  ∀ (s : State) (c : CoreId) (a : ArrayId) (u : HalfId) (o : Op), s.dev.ecc = [] → s.dev.opNow o = o → o.due ≤ s.dev.cycle →
    let quiet := fun (t : State) => ∀ b, t.dev.byte b = s.dev.byte b
    let tile := o.tiles.headD 0
    let read := s.Lands o ∧ o.pos = o.total ∧ o.stop = none ∧ ∀ w ∈ s.dev.wrs, w.op = o.id → w.due ≤ s.dev.cycle
    let mine := s.dev.wrs.filter fun w => w.op == o.id
    let d := s.dev.feet (fun i => i == o.id) s.dev.cycle
    ((s.dev.arrOps c a).find? (fun x => x.opcode == 0x40 && x.usesHalf u) = some o → o.injected = true →
      (∀ l ∈ d.slots, l.op ≠ o.id) → (∀ w ∈ d.bedWrs, w.op ≠ o.id) → Yields (.mmaComplete c a u) s fun t =>
        OpEnds o .fin (d.opNow o).flags s t ∧ quiet t ∧ ∀ x y z, t.dev.tile x y z = d.tile x y z) ∧
    ((s.dev.arrOps c a).find? (fun x => x.opcode == 0x41 && x.usesHalf u && x.loaded) = some o → Yields (.mmalwComplete c a u) s fun t =>
      OpEnds o .fin o.flags s t ∧ quiet t ∧
      (o.closed = false → ∀ v ∈ o.halves, (t.dev.half c a v).preloaded = true ∧
        (t.dev.half c a v).preFmt = BitVec.ofNat 4 (wFmtB o.w) ∧ (t.dev.half c a v).preInt = (wMode o.w == .integer)) ∧
      (o.closed = true → ∀ v, t.dev.half c a v = s.dev.half c a v)) ∧
    (s.dev.ops.find? (fun x => x.opcode == 0x42 && x.phase == .started && x.ecore == c && x.earray == a) = some o → read →
      Yields (.finishComplete c a) s (RunEnds o .fin mine s)) ∧
    (s.dev.running c [0x43] = some o → read → Yields (.liftComplete c) s (RunEnds o .fin mine s)) ∧
    (s.dev.running c [0x44] = some o → o.pos ≤ 4096 → 4096 ≤ o.base + 32 * (s.dev.cycle + 1 - o.began) →
      Yields (.reloadComplete c) s fun t => OpEnds o .fin o.flags s t ∧ quiet t ∧
      (t.dev.tile c o.earray tile).cls = BitVec.ofNat 3 (wCls o.w) ∧ (t.dev.tile c o.earray tile).poisoned = false ∧
      ∀ n, n < 4096 → sget (fun _ => (0 : BitVec 256)) (t.dev.tile c o.earray tile).entries n =
        if o.pos ≤ n then BitVec.ofNat 256 (leNat (s.dev.rdMem (o.stock.toNat + 32 * n) 32))
        else sget (fun _ => (0 : BitVec 256)) (s.dev.tile c o.earray tile).entries n)

/-- HALF_DRAIN_END leaves the half idle with its weights at 0. In the cycle a half's drain ends, or later, HALF_DRAIN_END
leaves it with no drain, no active and no preloaded weights, and every weight register of its rows, active and shadow,
reads 0; no byte of memory changes. Before that cycle it changes nothing.
Rests on 03 (R82); 03 (R74, Table 3.12). -/
def Obligations.HalfDrainEnds : Prop :=
  ∀ (s : State) (c : CoreId) (a : ArrayId) (u : HalfId) (n : Nat), (s.dev.half c a u).drainEnd = some n →
    (n ≤ s.dev.cycle → Yields (.halfDrainEnd c a u) s fun t =>
      (t.dev.half c a u).drainEnd = none ∧ (t.dev.half c a u).active = false ∧ (t.dev.half c a u).preloaded = false ∧
      (∀ r j, 32 * u.val ≤ r → r < 32 * u.val + 32 → j < 64 →
        sget (fun _ => (0 : Word)) (t.dev.arr c a).act (64 * r + j) = 0 ∧ sget (fun _ => (0 : Word)) (t.dev.arr c a).shadow (64 * r + j) = 0) ∧
      (∀ b, t.dev.byte b = s.dev.byte b)) ∧
    (s.dev.cycle < n → Yields (.halfDrainEnd c a u) s fun t => t = s)

/-- PSWAP_PROCESS exchanges the banks, PLOAD_COMPLETE fills the inactive one. A PSWAP at the head of the pattern queue
exchanges the active and the inactive bank and completes in its cycle. A PLOAD that is due and whose last elements are
read in this cycle (no ECC error being present) gives its bank the 16-bit elements that it had still to write, read
from the slice at the address its descriptor names, and completes; the active bank stays the active one. Neither
changes a byte of memory.
Rests on 05 (R135, R136); 06 (R149). -/
def Obligations.PatternBanksChange : Prop :=
  ∀ (s : State) (c : CoreId) (o : Op), s.dev.ecc = [] → s.dev.opNow o = o →
    let quiet := fun (t : State) => ∀ b, t.dev.byte b = s.dev.byte b
    let v := vdesc o.desc
    (s.dev.head c .pat = some o → o.opcode = 0x4C → Yields (.pswapProcess c) s fun t => OpEnds o .vec o.flags s t ∧ quiet t ∧
      (t.dev.core c).patActive = !(s.dev.core c).patActive) ∧
    (s.dev.running c [0x4B] = some o → o.due ≤ s.dev.cycle → o.pos ≤ v.pcount → v.pcount ≤ 128 * (s.dev.cycle + 1 - o.began) →
      Yields (.ploadComplete c) s fun t => OpEnds o .vec o.flags s t ∧ quiet t ∧
      (t.dev.core c).patActive = (s.dev.core c).patActive ∧
      ∀ n, o.pos ≤ n → n < v.pcount → (t.dev.core c).bankGet o.bank (v.pfirst + n) =
        BitVec.ofNat 16 (leNat (s.dev.rdMem (sliceBase o.core + v.aAddr + 2 * n) 2)))

/-- ARM_TAKEN, REARM_TAKEN and SWAP_TAKEN. A hod takes the ARM, or the REARM, at the head of its queue, of a valid
descriptor with no active run, with fewer than 8 active runs on the hod: a run with the descriptor's present words
becomes active, the generation increases by 1, the slot ring is reset and the shadow slot is as before. It takes a
REARM of a valid descriptor with an active run on this hod and an empty shadow slot that did not free in this cycle:
the shadow run is presented, the active one and the generation are as before. It takes a SWAP of a descriptor with a
filled slot: one slot is released. The command leaves its queue (that of a core completes and posts, behind that of a
fabric hod the oldest write that waits enters), and no byte of memory changes.
Rests on 08 (R222, R224, R227, R228, R229, R235). -/
def Obligations.HodsTakeCommands : Prop :=
  ∀ (s : State) (h : HodRef) (m : SdId) (o : Option Op) (k : Nat),
    let sd := s.dev.sd h m
    let w := s.dev.sdWords h m
    let i : Instr := if k = 1 then .armTaken h else .rearmTaken h
    let taken := fun (t : State) => (∀ x, o = some x → OpEnds x .fin 0 s t) ∧ (∀ a, t.dev.byte a = s.dev.byte a) ∧
      ∀ n, h = .fab n → t.dev.hub.fhq.get n =
        (s.dev.hub.fhq.get n).tail ++ ((s.dev.hub.fhWait.find? fun x => x.1 == n).map fun x => x.2).toList
    (s.dev.hodHead h = some (k, m, o) → (k = 1 ∨ k = 2) → (sdescOf w).valid w (hodIsCore h) = true → sd.active = none →
      s.dev.activeRuns h < 8 → Yields i s fun t => taken t ∧
        (t.dev.sd h m).active = some (s.dev.newRun h m o) ∧ (t.dev.sd h m).gen = sd.gen + 1 ∧
        (t.dev.sd h m).slots = s.dev.slotsFor (sdescOf w) o ∧ (t.dev.sd h m).fillNo = 0 ∧ (t.dev.sd h m).filled = 0 ∧
        (t.dev.sd h m).relNo = 0 ∧ (t.dev.sd h m).shadow = sd.shadow) ∧
    (s.dev.hodHead h = some (2, m, o) → (sdescOf w).valid w (hodIsCore h) = true → sd.active.isSome = true →
      s.dev.otherHod h m = false → sd.shadow = none → sd.freedAt ≠ s.dev.cycle → Yields (.rearmTaken h) s fun t => taken t ∧
        (t.dev.sd h m).shadow = some (s.dev.newRun h m o) ∧ (t.dev.sd h m).active = sd.active ∧ (t.dev.sd h m).gen = sd.gen) ∧
    (∀ r, s.dev.hodHead h = some (3, m, o) → sd.active = some r → (sdescOf r.desc).mode ≠ 0 → sd.filled ≠ 0 →
      Yields (.swapTaken h) s fun t => taken t ∧ (t.dev.sd h m).filled = sd.filled - 1 ∧ (t.dev.sd h m).relNo = sd.relNo + 1 ∧
        (t.dev.sd h m).active = some r)

/-- TRANSFER_ISSUE and TRANSFER_COMPLETE move the bytes of a run. A hod that is ON, without an error, with fewer than 6
transfers and none issued in this cycle, issues the next transfer of the run it serves next: it is outstanding with
the addresses of the run, the bytes up to the end of the row or the next 4 KiB boundary of either address, and the run
moves past them. With source and destination here it waits for nothing; with the source in another module it waits for
a read of it; with the destination in another module (or a multicast group with a valid entry) it carries the bytes
read here and waits for the answer to the write; of a mode-2 run it carries the next bytes of the packet. A transfer
that waits for nothing more and whose bytes are here, or are read here, writes them where every access succeeds, and
is no longer outstanding; where its run names no notify address, memory is what that write leaves. How the bytes of a
mode-2 packet are cut into transfers, and what a packet's header and truncation leave in its slot, are the model's
(logs 29 and 47).
Rests on 08 (R222, R225, R226, R230); 09 (R248, R263); 08 (R230; model choices, logs 29 and 47). -/
def Obligations.TransfersRun : Prop :=
  ∀ (s : State) (h : HodRef),
    (∀ (m : SdId) (r : Run), s.dev.hodOn h = true → (s.dev.hod h).ok = true → (s.dev.hod h).xfers.length < 6 →
      (s.dev.hod h).issued ≠ some s.dev.cycle → s.dev.nextRun h = some (m, r) →
      let d := sdescOf r.desc
      let ad := (s.dev.sd h m).nextAddrs r
      let n := min (d.len - r.off) (min (4096 - ad.1.toNat % 4096) (4096 - ad.2.toNat % 4096))
      let pkt := ((packetBytes d.len r.pkt).drop r.off).take (min 4096 (4096 - ad.2.toNat % 4096))
      let tag := s.dev.hub.nextTag
      let goes := fun (k : Nat) (data : Option (List Byte)) (wait : Option (BitVec 16)) => Yields (.transferIssue h) s fun t =>
        (t.dev.hod h).xfers = (s.dev.hod h).xfers ++ [⟨m, r.tile, k, ad.1, ad.2, data, wait, (s.dev.sd h m).gen, d.dloc⟩] ∧
        (t.dev.sd h m).active = some (r.advance k) ∧
        (wait.isSome = true → ∃ q, t.dev.hub.reqs = s.dev.hub.reqs ++ [q] ∧ q.tag = tag ∧ q.who = .hod h m r.tile) ∧
        (wait.isNone = true → ∀ y, t.dev.byte y = s.dev.byte y)
      let away := s.dev.localDst d.dloc ad.2 = none ∧
        ∀ u v, s.dev.targetOf ad.2 = .group u v → bitOf (s.dev.mcEntry (fld ad.2 48 15)) 13 = true
      (d.mode ≠ 2 →
        (∀ a b, s.dev.runTarget ad.1 d.sloc = .here a → s.dev.localDst d.dloc ad.2 = some b → goes n none none) ∧
        (∀ u v, s.dev.runTarget ad.1 d.sloc = .away u v → goes n none (some tag)) ∧
        (∀ a bs, s.dev.runTarget ad.1 d.sloc = .here a → away → (s.dev.rangeRead 64 a n).2 = .ok bs → goes n (some bs) (some tag))) ∧
      (d.mode = 2 →
        (∀ b, s.dev.localDst d.dloc ad.2 = some b → goes pkt.length (some pkt) none) ∧
        (away → goes pkt.length (some pkt) (some tag)))) ∧
    (∀ (i : Nat) (x : Xfer) (bs v : List Byte) (d : Dev), (s.dev.hod h).xfers[i]? = some x → x.tag = none →
      (s.dev.hod h).issued ≠ some s.dev.cycle →
      let b := match s.dev.targetOf x.dst with
        | .here a => a
        | _ => fld x.dst 0 48
      ((x.data = some bs ∧ d = s.dev) ∨ (x.data = none ∧ s.dev.rangeAwake (fld x.src 0 48) x.len = true ∧ s.dev.rangeAwake b x.len = true ∧
        s.dev.rangeRead 64 (fld x.src 0 48) x.len = (d, .ok bs))) →
      d.rangeAwake b bs.length = true → (d.rangePut 64 b bs (hodMaster h)).2.1 = .ok v →
      let u := (d.rangePut 64 b bs (hodMaster h)).1
      Yields (.transferComplete h i) s fun t => (t.dev.hod h).xfers = (u.hod h).xfers.eraseIdx i ∧
        ((∀ r, (u.sd h x.m).active = some r → (sdescOf r.desc).notify = 0) → t.dev.mem = u.mem))

/-- SHADOW_RUN_ACTIVATE and DEADLINE_MISS. Once every tile of the active run is done and a cycle has passed, the shadow
run becomes the active one with a new generation and no shadow is left. A tile of a real-time last's active run, or of
its shadow run where the active one has no such tile, that is not done when its deadline has passed is recorded once:
the run notes it, the miss count of the last increases (to at most 2^32 - 1) and event 0x4002 is raised; without
halt_on_miss no last changes, and with it a running last stops with cause 15. No byte of memory changes.
Rests on 08 (R227, R228, R231). -/
def Obligations.RunsAdvance : Prop :=
  ∀ (s : State) (h : HodRef) (m : SdId),
    (∀ r n, (s.dev.sd h m).active = some r → (s.dev.sd h m).shadow = some n → (sdescOf r.desc).tiles ≤ r.done →
      (s.dev.sd h m).freedAt < s.dev.cycle → Yields (.shadowRunActivate h m) s fun t =>
        (t.dev.sd h m).active = some n ∧ (t.dev.sd h m).shadow = none ∧ (t.dev.sd h m).gen = (s.dev.sd h m).gen + 1 ∧
        ∀ a, t.dev.byte a = s.dev.byte a) ∧
    (∀ (c : CoreId) (i : Fin 2) (r : Run) (o : Origin) (im : Image) (tile : Nat), h = .core c i →
      r.origin = some o → (s.dev.last o.last).image = some im → im.flags.toNat.testBit 0 = true →
      r.hod = i → (sdescOf r.desc).deadline ≠ 0 → tile < (sdescOf r.desc).tiles → r.done ≤ tile → tile ∉ r.missed →
      ((sdescOf r.desc).deadline + tile * (sdescOf r.desc).period) % 2 ^ 64 ≤ s.dev.hub.ftime.ft.toNat →
      let noted : Run := { r with missed := r.missed ++ [tile] }
      let act := (s.dev.sd h m).active = some r
      let shd := (∀ q, (s.dev.sd h m).active = some q → s.dev.late i q tile = false) ∧ (s.dev.sd h m).shadow = some r
      let counted := fun (t : State) => (∀ a, t.dev.byte a = s.dev.byte a) ∧ t.dev.regFld (aMem (0x40 + 8 * o.last.val)) 0 32 =
        min (2 ^ 32 - 1) (s.dev.regFld (aMem (0x40 + 8 * o.last.val)) 0 32 + 1)
      ((sdescOf r.desc).haltMiss = false → (act ∨ shd) → Yields (.deadlineMiss h m tile) s fun t => counted t ∧ Raised [0x4002] s t ∧
        t.dev.lasts = s.dev.lasts ∧ (act → (t.dev.sd h m).active = some noted ∧ (t.dev.sd h m).shadow = (s.dev.sd h m).shadow) ∧
        (shd → (t.dev.sd h m).shadow = some noted ∧ (t.dev.sd h m).active = (s.dev.sd h m).active)) ∧
      ((sdescOf r.desc).haltMiss = true → (act ∨ shd) → (s.dev.last o.last).st = .running → Yields (.deadlineMiss h m tile) s fun t =>
        counted t ∧ Raised [0x4002, 0x3001] s t ∧ (t.dev.last o.last).st = .stopped ∧ t.dev.regFld (aLstFlt o.last 0) 0 8 = 15))

/-- FH_ARM, FH_REARM and FH_SWAP enter the queue of their fabric hod. With the hub ON, a write of ARM, REARM or SWAP to
FH_CMD of fabric hods 0 to 11 enters the hod's queue where it holds fewer than 16 and no write waits for it, and waits
otherwise; a write for hods 12 to 15 is ignored and recorded as event 0x8001. No byte of memory and no register
changes.
Rests on 08 (R235). -/
def Obligations.FabricHodCommands : Prop :=
  ∀ (s : State) (n : FhId), s.dev.hubOn = true →
    let quiet := fun (t : State) => (∀ a, t.dev.byte a = s.dev.byte a) ∧ ∀ a, t.dev.reg a = s.dev.reg a
    let room := (s.dev.hub.fhq.get n).length < 16 ∧ ∀ x ∈ s.dev.hub.fhWait, x.1 ≠ n
    let put := fun (i : Instr) (k : Nat) =>
      (n.val < 12 → room → Yields i s fun t => quiet t ∧ t.dev.hub.fhWait = s.dev.hub.fhWait ∧
        t.dev.hub.fhq.get n = s.dev.hub.fhq.get n ++ [k] ∧ ∀ x, x ≠ n → t.dev.hub.fhq.get x = s.dev.hub.fhq.get x) ∧
      (n.val < 12 → ¬ room → Yields i s fun t => quiet t ∧ t.dev.hub.fhWait = s.dev.hub.fhWait ++ [(n, k)] ∧
        t.dev.hub.fhq = s.dev.hub.fhq) ∧
      (12 ≤ n.val → Yields i s fun t => quiet t ∧ t.dev.hub = s.dev.hub ∧ Raised [0x8001] s t)
    put (.fhArm n) 1 ∧ put (.fhRearm n) 2 ∧ put (.fhSwap n) 3

/-- PUSH and DEFERRED_PUSH. With the hub ON and the queue enabled, a 64-byte push to a queue with room that has taken no
push in this cycle, for which none waits and which no gate port is filling becomes the youngest entry with the queue's
sequence number, which increases by 1; an entry that ends a packet of a queue with note_en 1 then makes the queue's
notice, and one whose notice goes to another module sends it as a request. A push to another queue waits and changes
no entry and no byte of memory. DEFERRED_PUSH lets the oldest waiting push enter once there is room (shown where the
notice, if one leaves, goes to another module). A push to a disabled queue changes no entry and is counted in
drop_count, which stops at 0xFFFF, the model's choice (log 48). A push of another width than 64 bytes is refused, with
event 0x8002, and changes no queue.
Rests on 08 (R236, R238, Table 8.15); 08 (R237); 11 (R316); 15 (R390, R398); 08 Table 8.22 (model choice, log 48). -/
def Obligations.QueuePushes : Prop :=
  ∀ (s : State) (q : QueueId) (bs : List Byte), s.dev.hubOn = true →
    let x := s.dev.queue q
    let e := QEntry.ofBytes bs x.seq
    let en := bitOf (s.dev.reg (aQue q 0x1000)) 0 = true
    let once := s.dev.now.pushed.any (fun p => p.1 == q) = false
    let taken := s.dev.queTaken q = true
    let note := e.eop = true ∧ bitOf (s.dev.reg (aQue q 0x1000)) 6 = true
    let n := s.dev.reg (aQue q 0x1010)
    let placed := fun (d : Dev) => (d.queEntries q).getLast? = some e ∧ (d.queue q).count = x.count + 1 ∧ (d.queue q).seq = x.seq + 1 ∧
      d.hub.reqs = s.dev.hub.reqs
    let told := fun (t : State) => ∃ r, t.dev.hub.reqs = s.dev.hub.reqs ++ [r] ∧ r.who = .notify none ∧ r.addr = n
    (en → bs.length = 64 → s.dev.queFull q = false → x.waiting = [] → ¬ taken → once →
      Yields (.push q bs) s fun t => (∃ d, placed d ∧ (d.queue q).waiting = [] ∧ (note → t.dev = d.notify none n) ∧ (¬ note → t.dev = d)) ∧
        (note → (∃ u v, s.dev.targetOf n = .away u v) → told t)) ∧
    (en → bs.length = 64 → (s.dev.queFull q = true ∨ x.waiting ≠ [] ∨ taken ∨ ¬ once) → Yields (.push q bs) s fun t =>
      t.dev.queue q = { x with waiting := x.waiting ++ [bs] } ∧ ∀ a, t.dev.byte a = s.dev.byte a) ∧
    (¬ en → bs.length = 64 → Yields (.push q bs) s fun t => t.dev.queue q = x ∧ (∀ a, t.dev.byte a = s.dev.byte a) ∧
      t.dev.regFld (aQue q 0x1028) 32 16 = min 0xFFFF (s.dev.regFld (aQue q 0x1028) 32 16 + 1)) ∧
    (bs.length ≠ 64 → Yields (.push q bs) s fun t => t.dev.hub.queues = s.dev.hub.queues ∧ Raised [0x8002] s t) ∧
    (∀ rest, en → x.waiting = bs :: rest → s.dev.queFull q = false → ¬ taken → once → (note → ∃ u v, s.dev.targetOf n = .away u v) →
      Yields (.deferredPush q) s fun t => (t.dev.queEntries q).getLast? = some e ∧ (t.dev.queue q).count = x.count + 1 ∧
        (t.dev.queue q).seq = x.seq + 1 ∧ (t.dev.queue q).waiting = rest ∧ (note → told t) ∧ (¬ note → t.dev.hub.reqs = s.dev.hub.reqs))

/-- POP, QUE_FLUSH and QUE_CFG_WRITE. With the hub ON, a 64-byte read at the start of the pop window of a queue that has
served no pop in this cycle returns the oldest entry, where it stands at the head (it may move there first; an entry
that waits for its ring makes the pop wait, the model's choice, log 16), and removes it; from an empty queue it
returns no valid entry, with the flushed mark once after a flush; otherwise it waits. QUE_FLUSH with bit 0 requests a
flush, which the cycle's end or a later packet boundary carries out, and without it changes nothing. On an empty queue
with no flush pending QUE_CFG takes a legal configuration, and one with an illegal ring size with none, which is
recorded as event 0x8001; QUE_RING takes what is written, a base that is not aligned to the ring's size too (log 33);
a new en, ring size or ring base written to another queue is ignored and recorded. QUE_NOTE always takes what is
written.
Rests on 08 (R236, R239, R241, R243, Table 8.21); 08 Table 8.21 (model choices, logs 16 and 33). -/
def Obligations.QueuePops : Prop :=
  ∀ (s : State) (q : QueueId) (v : Word), s.dev.hubOn = true →
    let x := s.dev.queue q
    let once := s.dev.now.popped.contains q = false
    let y := (s.dev.queMoves q).queue q
    let idle := x.count = 0 ∧ x.flushing = false
    let cfg := aQue q 0x1000
    let ring := aQue q 0x1008
    let legal := fld v 1 5 = 0 ∨ (16 ≤ fld v 1 5 ∧ fld v 1 5 ≤ 28)
    (∀ e rest, once → y.head = e :: rest → Yields (.pop q 64) s fun t =>
      t.dev.out = s.dev.out ++ [.popped q e.toBytes] ∧ (t.dev.queue q).count + 1 = x.count ∧ (t.dev.queue q).pkts = x.pkts - b2n e.eop) ∧
    (once → x.count = 0 → Yields (.pop q 64) s fun t =>
      t.dev.out = s.dev.out ++ [.popped q (leBytes 8 (16 * b2n x.fl) ++ zeros 56)] ∧ (t.dev.queue q).count = 0 ∧ (t.dev.queue q).fl = false) ∧
    ((¬ once ∨ (y.head = [] ∧ x.count ≠ 0)) → Yields (.pop q 64) s fun t =>
      t.dev.out = s.dev.out ∧ (t.dev.queue q).pops = x.pops + 1 ∧ (t.dev.queue q).count = x.count) ∧
    (bitOf v 0 = true → Yields (.queFlush q v) s fun t => t.dev.queue q = { x with flushing := true } ∧ t.dev.mem = s.dev.mem) ∧
    (bitOf v 0 = false → Yields (.queFlush q v) s (Untouched s)) ∧
    (idle → legal → Yields (.queCfgWrite q .cfg v) s fun t => fld (t.dev.reg cfg) 0 7 = fld v 0 7 ∧ Raised [] s t) ∧
    (idle → ¬ legal → Yields (.queCfgWrite q .cfg v) s fun t => fld (t.dev.reg cfg) 0 1 = fld v 0 1 ∧
      fld (t.dev.reg cfg) 1 5 = 0 ∧ fld (t.dev.reg cfg) 6 1 = fld v 6 1 ∧ Raised [0x8001] s t) ∧
    (¬ idle → legal → fld v 0 6 ≠ fld (s.dev.reg cfg) 0 6 → Yields (.queCfgWrite q .cfg v) s fun t =>
      fld (t.dev.reg cfg) 0 6 = fld (s.dev.reg cfg) 0 6 ∧ Raised [0x8001] s t) ∧
    (idle → Yields (.queCfgWrite q .ring v) s (WritesReg ring ((s.dev.reg ring &&& ~~~0x7FFFFFFFFF) ||| (v &&& 0x7FFFFFFFFF)) s)) ∧
    (¬ idle → fld v 0 39 ≠ fld (s.dev.reg ring) 0 39 → Yields (.queCfgWrite q .ring v) s fun t =>
      t.dev.reg ring = s.dev.reg ring ∧ Raised [0x8001] s t) ∧
    Yields (.queCfgWrite q .note v) s (WritesReg (aQue q 0x1010) v s)

/-- Writes of tallies, max-abs slots, assignments and plain registers. With the core ON: TAL_VAL and TAL_ADD note the
value to set or to add for the end of the cycle; FMT_MAXABS_CLR leaves in each selected slot what the same cycle
gathered and the other slots alone; PAT_CTL and SEQ_CTL take the assignments written where nothing that they assign is
in use; the pattern engine in use keeps its assignment, and so does a strand that is neither IDLE nor DONE, with event
0x8001. A scratch register takes the bytes written; a read-only register keeps its value.
Rests on 06 (R151, Table 6.17); 01 (R36); 05 (R140); 00 (R10). -/
def Obligations.RegisterWrites : Prop :=
  ∀ (s : State) (c : CoreId) (v : Word), s.dev.coreOn c = true →
    (∀ i : TallyId, Yields (.talValWrite c i v) s fun t => (∃ cs, t = { s with dev := { s.dev with cores := cs } }) ∧
      (t.dev.core c).tallies.get i = { (s.dev.core c).tallies.get i with val := some (fld v 0 16) } ∧
      ∀ j, j ≠ i → (t.dev.core c).tallies.get j = (s.dev.core c).tallies.get j) ∧
    (∀ i : TallyId, Yields (.talAddWrite c i v) s fun t => (∃ cs, t = { s with dev := { s.dev with cores := cs } }) ∧
      (t.dev.core c).tallies.get i = { (s.dev.core c).tallies.get i with
        inc := ((s.dev.core c).tallies.get i).inc ++ [⟨fld v 0 16, none⟩] } ∧
      ∀ j, j ≠ i → (t.dev.core c).tallies.get j = (s.dev.core c).tallies.get j) ∧
    (Yields (.fmtMaxabsClr c v) s fun t => (∃ cs ps, t = { s with dev := { s.dev with cores := cs, now := { s.dev.now with pages := ps } } }) ∧
      ∀ n : Fin 32, (t.dev.core c).maxabs.get n = if v.toNat.testBit n.val then
        (s.dev.now.gath.filter fun g => g.1 == c.val && g.2.1 == n.val).foldl (fun a g => MaxAbs.join a g.2.2) MaxAbs.zero
        else (s.dev.core c).maxabs.get n) ∧
    ((∀ o ∈ s.dev.ops, o.core = c → o.phase ≠ .stopped → o.opcode ≠ 0x4A ∧ o.opcode ≠ 0x4B ∧ o.opcode ≠ 0x4C) →
      Yields (.patCtlWrite c v) s (WritesReg (aPatCtl c) ((s.dev.reg (aPatCtl c) &&& ~~~0xF) ||| (v &&& 0xF)) s)) ∧
    ((∃ o ∈ s.dev.ops, o.core = c ∧ o.phase ≠ .stopped ∧ (o.opcode = 0x4A ∨ o.opcode = 0x4B ∨ o.opcode = 0x4C)) → fld v 0 4 ≠ fld (s.dev.reg (aPatCtl c)) 0 4 →
      Yields (.patCtlWrite c v) s fun t => Raised [0x8001] s t ∧ ∀ x, t.dev.reg x = s.dev.reg x) ∧
    ((∀ k, (s.dev.strand c k).st = .idle ∨ (s.dev.strand c k).st = .done) →
      Yields (.seqCtlWrite c v) s (WritesReg (aSeqCtl c) ((s.dev.reg (aSeqCtl c) &&& ~~~0xFF) ||| (v &&& 0xFF)) s)) ∧
    (∀ k : StrandId, (s.dev.strand c k).st ≠ .idle → (s.dev.strand c k).st ≠ .done →
      fld v (4 * k.val) 4 ≠ fld (s.dev.reg (aSeqCtl c)) (4 * k.val) 4 → Yields (.seqCtlWrite c v) s fun t =>
        fld (t.dev.reg (aSeqCtl c)) (4 * k.val) 4 = fld (s.dev.reg (aSeqCtl c)) (4 * k.val) 4 ∧ Raised [0x8001] s t) ∧
    (s.dev.aocUp = true → (∀ n : Fin 8, Yields (.registerWrite (BitVec.ofNat 48 (aGlb (0x100 + 8 * n.val))) (leBytes 8 v.toNat)) s
        (WritesReg (aGlb (0x100 + 8 * n.val)) v s)) ∧
      Yields (.registerWrite (BitVec.ofNat 48 (aGlb 0)) (leBytes 8 v.toNat)) s (WritesReg (aGlb 0) (s.dev.reg (aGlb 0)) s))

/-- NCP datagrams and the requests that act on a last. A sound datagram for the NCP port that carries a well-formed
message waits at the end of the queue, as the youngest of all; an unsound one is dropped and counted; a duplicate is
eliminated and counted. A request that is carried out: an unlisted type is answered status 2, IDENT with the identity,
UNLOAD empties the last, LAUNCH starts it or waits for the instant, HALT stops it with cause 1, PAUSE runs long and
asks its last to pause from the next cycle on. The pending launch happens when fabric time reaches its instant; a
finished pause leaves the last PAUSED and is answered, or latches the save area where the pause saves; a fault answers
it status 11. That an untagged frame passes where a VLAN ID is set, and that port 0 keeps the history of both ports,
is the model's choice (log 38); which refused answers the cache keeps is its reading (log 39).
Rests on 11 (R306, R307, R308, R310, Table 11.3); 06 (R142); 10 (R292). -/
def Obligations.RequestsOfLasts : Prop :=
  ∀ (s : State) (p : CtlId) (g : Datagram) (rest : List Datagram) (b : List Byte) (l : LastId),
    (s.dev.ncpServes p = true → (s.dev.ctl p).link = true → (g.vid = 0 ∨ g.vid.toNat = leAt s.dev.aoc.svc 6 2 % 4096) →
      ((∀ n, g.rtag = some n → (g.mac, n) ∉ (s.dev.ctl 0).history) →
        (g.sound = true → g.dport.toNat = s.dev.ncpPort → ncpFormed g.payload = true → (s.dev.ctl p).waiting.length < 64 →
          Yields (.ncpDatagramArrival p g) s fun t => (t.dev.ctl p).waiting = (s.dev.ctl p).waiting ++ [g] ∧
            t.dev.aoc.order = s.dev.aoc.order ++ [p] ∧ ∀ x, t.dev.reg x = s.dev.reg x) ∧
        (g.sound = false → Yields (.ncpDatagramArrival p g) s fun t => (t.dev.ctl p).waiting = (s.dev.ctl p).waiting ∧
          t.dev.regFld (aCtlp p 8) 48 16 = min 0xFFFF (s.dev.regFld (aCtlp p 8) 48 16 + 1))) ∧
      (∀ n, g.rtag = some n → (g.mac, n) ∈ (s.dev.ctl 0).history → Yields (.ncpDatagramArrival p g) s fun t =>
        t.dev.ctl p = s.dev.ctl p ∧ t.dev.regFld (aCtlp p 8) 32 16 = min 0xFFFF (s.dev.regFld (aCtlp p 8) 32 16 + 1))) ∧
    (Carried s p (leAt g.payload 3 1) g rest b → unknownType g.payload = true →
      Yields (.ncpUnknownType p) s (Answered p g rest 2 0 [] false s)) ∧
    (Carried s p 1 g rest [] → Yields (.ncpIdent p) s (Answered p g rest 0 0 (leBytes 8 Config.serial.toNat ++ leBytes 2 0x8850 ++
      [2, 0] ++ leBytes 4 s.dev.aoc.trust.fwVersion.toNat ++
      leBytes 2 (if s.dev.hubOn && bitOf (s.dev.reg (aFab 0x10)) 15 then s.dev.regFld (aFab 0x10) 0 15 else 0xFFFF) ++
      (allLasts.flatMap fun x => leBytes 1 (s.dev.last x).st.code) ++ zeros 2 ++ leBytes 4 s.dev.aoc.rcd.secs ++
      leBytes 4 s.dev.aoc.rcd.cycles) true s)) ∧
    (b = leBytes 1 l.val ++ zeros 7 →
      (Carried s p 3 g rest b → ((s.dev.last l).st = .loaded ∨ (s.dev.last l).st = .paused ∨
          (((s.dev.last l).st = .done ∨ (s.dev.last l).st = .stopped) ∧ s.dev.lastQuiet l = true)) →
        Yields (.ncpUnload p) s fun t => Answered p g rest 0 0 [] true s t ∧ t.dev.last l = Last.init) ∧
      (Carried s p 3 g rest b → ((s.dev.last l).st = .running ∨ (s.dev.last l).st = .empty) → Yields (.ncpUnload p) s fun t =>
        Answered p g rest 8 (s.dev.last l).st.code [] false s t ∧ t.dev.lasts = s.dev.lasts) ∧
      (Carried s p 5 g rest b → (s.dev.last l).st = .running → (∀ q, (s.dev.last l).pausing = some q → q.asker = none) →
        Yields (.ncpHalt p) s fun t => Answered p g rest 0 0 [] true s t ∧ (t.dev.last l).st = .stopped ∧
          (t.dev.last l).pausing = none ∧ t.dev.regFld (aLstFlt l 0) 0 8 = 1)) ∧
    (∀ x : Word, b = leBytes 1 l.val ++ zeros 7 ++ leBytes 8 x.toNat → Carried s p 4 g rest b →
      ((s.dev.last l).st = .loaded ∨ (s.dev.last l).st = .done) → (s.dev.last l).image.isSome = true → (s.dev.last l).pendingLaunch = none →
      (x = 0 → Yields (.ncpLaunch p) s fun t => Answered p g rest 0 0 [] true s t ∧ (t.dev.last l).st = .running) ∧
      (s.dev.hub.ftime.ft.toNat < x.toNat → Yields (.ncpLaunch p) s fun t => Answered p g rest 0 0 [] true s t ∧
        t.dev.last l = { s.dev.last l with pendingLaunch := some x } ∧ ∀ a, t.dev.byte a = s.dev.byte a) ∧
      (x ≠ 0 → x.toNat ≤ s.dev.hub.ftime.ft.toNat → Yields (.ncpLaunch p) s (Answered p g rest 7 0 [] false s))) ∧
    (∀ x, (s.dev.last l).pendingLaunch = some x → (s.dev.last l).image.isSome = true → x.toNat ≤ s.dev.hub.ftime.ft.toNat →
      Yields (.launchAtInstant l) s fun t => (t.dev.last l).st = .running ∧ (t.dev.last l).pendingLaunch = none ∧
        ∀ y, y ≠ l → t.dev.last y = s.dev.last y) ∧
    (∀ (f : Fin 4) (x : Word), let save := f.val % 2 == 1
      b = leBytes 1 l.val ++ leBytes 1 f.val ++ zeros 6 ++ leBytes 8 x.toNat → Carried s p 6 g rest b → (s.dev.last l).st = .running →
      (s.dev.last l).pausing = none → (save = true → s.dev.saveAddrOk x = true ∧ s.dev.ckpBusy = false) → Yields (.ncpPause p) s fun t =>
        Runs p g rest (some l) s t ∧ (t.dev.last l).pausing = some ⟨if save then some x.toNat else none, f.val == 3,
          some (askerOf p g), none, false, 0, s.dev.cycle, save⟩ ∧
        (t.dev.last l).st = .running ∧ t.dev.ops = s.dev.ops ∧ t.dev.cores = s.dev.cores) ∧
    (∀ q, (s.dev.last l).pausing = some q →
      ((s.dev.last l).st = .running → s.dev.pauseReady l = true → (q.keep = true → s.dev.ecc = []) →
        (∀ a, q.save = none → q.asker = some a → a.injected = false → Yields (.pauseComplete l) s fun t =>
          (t.dev.last l).st = .paused ∧ (t.dev.last l).pausing = none ∧ Sent a 0 0 [] true s t ∧ ∀ x, t.dev.byte x = s.dev.byte x) ∧
        (∀ a, q.save = some a → Yields (.pauseComplete l) s fun t => (t.dev.last l).st = .paused ∧
          (t.dev.last l).pausing = some { q with instant := s.dev.hub.ftime.ft } ∧ t.dev.out = s.dev.out ∧
          (∃ y ∈ t.dev.saves, y.addr = a ∧ y.scope = .last l) ∧ ∀ x, t.dev.byte x = s.dev.byte x)) ∧
      (∀ a, (s.dev.last l).st = .stopped → q.asker = some a → a.injected = false → Yields (.pauseComplete l) s fun t =>
        (t.dev.last l).pausing = none ∧ Sent a 11 (s.dev.regFld (aLstFlt l 0) 0 8) [] true s t))

/-- LOAD, resumes, checkpoints, saves and restores. A LOAD whose image passes every check begins; an image that lies
nowhere is refused with code 1 and event 0x3003; one whose stack sleeps waits for it; once its cores are ON and the
checks still hold, the loader makes the last LOADED with the image, and a standing one RUNNING. LRESUME makes a PAUSED
last RUNNING, SRESUME a TRAPPED strand RUNNING, or PAUSED while its last is being paused. CKPT asks every running last
to pause and runs long; RESTORE begins a restore. SAVE_COMPLETE puts the bytes of the latched area in HBM and changes
no other byte; DIGEST_COMPLETE writes the digests, or finds a damaged area, and ends the pause or the checkpoint;
RESTORE_COMPLETE leaves the restored last PAUSED with its image, or refuses with the code of the first check that
fails. The model's own: which refused answers the cache keeps (log 39), SRESUME of a last being paused (log 40),
CKP_STAT of the saves of one last (log 11), status ok of a PAUSE whose digest fails (log 67), detail 0 of SRESUME
without a last (log 68).
Rests on 06 (R161, R164, Table 6.15); 10 (R293, R294, R295, R298, R299, R300, R301); 11 (R310); 12 (R333). -/
def Obligations.LoadsAndSaves : Prop :=
  ∀ (s : State) (p : CtlId) (g : Datagram) (rest : List Datagram) (l : LastId),
    let damaged := fun (a : Nat) => ((s.dev.eccIn (a + 4096) (s.dev.areaTable a - 4096)).filter fun e => e.2).map fun _ => (0x4001 : BitVec 16)
    (∀ (x hbm : Word) (n : Nat) (map : List Byte), n < 2 ^ 64 → map.length < 256 →
      Carried s p 2 g rest (leBytes 1 l.val ++ leBytes 1 map.length ++ zeros 6 ++ leBytes 8 x.toNat ++ leBytes 8 n ++ leBytes 8 hbm.toNat ++ map) →
      let d := (s.accepted p g rest).startLong (askerOf p g) (some l)
      (d.imagePlace x.toNat n = false → Yields (.ncpLoad p) s fun t =>
        Answered p g rest 4 1 [] true s t ∧ Raised [0x3003] s t ∧ t.dev.last l = { s.dev.last l with reading := none } ∧
        ∀ y, y ≠ l → t.dev.last y = s.dev.last y) ∧
      (s.dev.rangeAwake x.toNat n = false → d.imagePlace x.toNat n = true → Yields (.ncpLoad p) s fun t => Runs p g rest (some l) s t ∧
        t.dev.last l = { s.dev.last l with reading := some (askerOf p g, g.payload.drop 32) } ∧ ∀ y, y ≠ l → t.dev.last y = s.dev.last y) ∧
      (s.dev.rangeAwake x.toNat n = true → d.imagePlace x.toNat n = true → d.eccIn x.toNat n = [] →
        imageOk (d.rdMem x.toNat n) map = true → leAt (d.rdMem x.toNat n) 6 1 = 2 →
        let i := parseImage (d.rdMem x.toNat n) map hbm.toNat
        d.loadCheck l i = 0 → Yields (.ncpLoad p) s fun t => Runs p g rest (some l) s t ∧
          (t.dev.last l).loading = some (i, some (askerOf p g), d.rdMem x.toNat n) ∧ (t.dev.last l).st = .empty ∧
          ∀ y, y ≠ l → t.dev.last y = s.dev.last y)) ∧
    (∀ i a raw, (s.dev.last l).loading = some (i, a, raw) → s.dev.coresReady i = true →
      (∀ x ∈ i.hbmSects, s.dev.rangeAwake x.1 x.2 = true) → (s.dev.updLast l fun x => { x with loading := none }).loadCheck l i = 0 →
      Yields (.loaderWriteSections l) s fun t => (t.dev.last l).image = some i ∧ (t.dev.last l).loading = none ∧
        (t.dev.last l).st = (if (s.dev.last l).standing.isSome && a.isNone then .running else .loaded) ∧
        (s.dev.aoc.trust.standQ = [] → ∀ y, y ≠ l → t.dev.last y = s.dev.last y)) ∧
    (Carried s p 7 g rest (leBytes 1 l.val ++ zeros 7) → (s.dev.last l).st = .paused → (s.dev.last l).pausing = none →
      Yields (.ncpLresume p) s fun t => Answered p g rest 0 0 [] true s t ∧ t.dev.last l = { s.dev.last l with st := .running, pausing := none }) ∧
    (∀ (c : CoreId) (k : StrandId), Carried s p 8 g rest (leBytes 1 c.val ++ leBytes 1 k.val ++ zeros 6) →
      ((s.dev.strand c k).st = .trapped → s.dev.strandLast c k = some l → (s.dev.last l).st ≠ .paused →
        Yields (.ncpSresume p) s fun t => Answered p g rest 0 0 [] true s t ∧
          t.dev.strand c k = if (s.dev.last l).pausing.isSome then { s.dev.strand c k with st := .paused, resume := .running }
            else { s.dev.strand c k with st := .running, notBefore := s.dev.cycle + 1 }) ∧
      (((s.dev.strand c k).st ≠ .trapped ∨ (s.dev.last l).st = .paused) → s.dev.strandLast c k = some l →
        Yields (.ncpSresume p) s (Answered p g rest 8 (s.dev.last l).st.code [] false s)) ∧
      ((s.dev.strand c k).st ≠ .trapped → s.dev.strandLast c k = none → Yields (.ncpSresume p) s (Answered p g rest 8 0 [] false s))) ∧
    (Carried s p 14 g rest [] →
      (bitOf (s.dev.reg (aCkp 0)) 39 = false → Yields (.ncpCkpt p) s (Answered p g rest 4 0x20 [] false s)) ∧
      (bitOf (s.dev.reg (aCkp 0)) 39 = true → s.dev.ckpBusy = false → Yields (.ncpCkpt p) s fun t => let run := allLasts.filter fun x => (s.dev.last x).st == .running
        Runs p g rest none s t ∧ t.dev.hub.ckpt = some ⟨some (askerOf p g), s.dev.cycle, 0, run, false⟩ ∧
        (∀ x ∈ run, (t.dev.last x).pausing.isSome = true) ∧ t.dev.regFld (aCkp 8) 0 3 = if run.isEmpty then 2 else 1)) ∧
    (∀ (mod : Bool) (x : Word), Carried s p 15 g rest (leBytes 1 (b2n mod) ++ leBytes 1 l.val ++ zeros 6 ++ leBytes 8 x.toNat) →
      s.dev.saveAddrOk x = true → s.dev.ckpBusy = false → Yields (.ncpRestore p) s fun t =>
        Runs p g rest (if mod then none else some l) s t ∧ t.dev.lasts = s.dev.lasts ∧ t.dev.regFld (aCkp 8) 0 3 = 5 ∧
        t.dev.aoc.restoring = s.dev.aoc.restoring ++ [⟨x.toNat, some (askerOf p g), none, if mod then .module else .last l⟩]) ∧
    (∀ (a : SaveArea) (x : SaveScope), s.dev.saves.find? (fun y => y.scope == x) = some a →
      s.dev.rangeAwake a.addr a.length = true → s.dev.rangeMapped a.addr a.length = true →
      let copied := fun (t : State) => ∀ b, t.dev.byte b = if a.addr ≤ b ∧ b < a.addr + a.length
        then sget (fun k => memDefault (a.addr + k)) a.cells (b - a.addr) else s.dev.byte b
      (∀ q, x = .last l → (s.dev.last l).pausing = some q → Yields (.saveComplete x) s fun t => copied t ∧
        t.dev.last l = { s.dev.last l with pausing := some { q with saved := true } }) ∧
      (∀ k, x = .module → s.dev.hub.ckpt = some k → Yields (.saveComplete x) s fun t => copied t ∧ t.dev.lasts = s.dev.lasts ∧
        let back := allLasts.filter fun y => k.resume.contains y && (s.dev.last y).st == .paused
        (back ≠ [] → t.dev.hub.ckpt = some { k with saved := true, resume := back }) ∧
        (back = [] → t.dev.regFld (aCkp 8) 0 3 = 3 ∧ ∀ y, k.asker = some y → y.injected = false →
          Sent y 0 0 (leBytes 4 (s.dev.cycle - k.began) ++ zeros 4) true s t))) ∧
    (∀ q a, (s.dev.last l).pausing = some q → q.save = some a → q.saved = true → s.dev.areaWake a = none →
      a + max 4096 (s.dev.areaTable a) ≤ 0x008000000000 → Yields (.digestComplete (.last l)) s fun t =>
      t.dev.last l = { s.dev.last l with pausing := none } ∧
      (∀ y, q.asker = some y → y.injected = false → Sent y 0 0 (leBytes 8 q.instant.toNat) true s t) ∧
      (s.dev.areaError a = none → t.dev.mem = (s.dev.writeDigest a).mem) ∧
      (s.dev.areaError a ≠ none → t.dev.mem = s.dev.mem ∧ Raised (damaged a ++ [0x6002]) s t ∧ t.dev.regFld (aCkp 8) 0 3 = 6)) ∧
    (s.dev.regFld (aCkp 8) 0 3 = 3 → let a := s.dev.regFld (aCkp 0) 0 39
      s.dev.areaWake a = none → a + max 4096 (s.dev.areaTable a) ≤ 0x008000000000 →
      (s.dev.areaError a = none → Yields (.digestComplete .module) s fun t => t.dev.mem = (s.dev.writeDigest a).mem ∧ t.dev.hub.ckpt = none ∧
        t.dev.regFld (aCkp 8) 0 3 = 4 ∧ Raised [0x6004] s t) ∧
      (s.dev.areaError a ≠ none → Yields (.digestComplete .module) s fun t => t.dev.mem = s.dev.mem ∧ t.dev.hub.ckpt = none ∧
        t.dev.regFld (aCkp 8) 0 3 = 6 ∧ Raised (damaged a ++ [0x6002]) s t)) ∧
    (∀ r : Restoring, s.dev.aoc.restoring.find? (fun r => r.scope == .last l) = some r → s.dev.areaWake r.addr = none →
      (∀ (a : AreaView) (x : LastId) (y : SavedLast), s.dev.restoreCheck r = 0 → s.dev.areaAt r = some a → a.lasts = [(x, y)] →
        (∀ i, y.image = some i → s.dev.coresReady i = true) → s.dev.digestCheck r.addr = none →
        (∀ e ∈ a.dir, e.key.kind = 6 → s.dev.bedUnitOk e = true) →
        Yields (.restoreComplete (.last l)) s fun t => t.dev.last l = { Last.init with st := .paused, image := y.image } ∧
          (∀ z, z ≠ l → t.dev.last z = s.dev.last z) ∧ t.dev.regFld (aCkp 8) 0 3 = 4 ∧
          ∀ k, r.asker = some k → k.injected = false → Sent k 0 0 [] true s t) ∧
      (s.dev.restoreCheck r ≠ 0 → Yields (.restoreComplete (.last l)) s fun t => t.dev.lasts = s.dev.lasts ∧ t.dev.mem = s.dev.mem ∧
        t.dev.regFld (aCkp 8) 8 4 = s.dev.restoreCheck r ∧ Raised [0x3003] s t ∧
        ∀ k, r.asker = some k → k.injected = false → Sent k 4 (s.dev.restoreCheck r) [] true s t))

/-- MEMR, MEMW, SNAP, EVREAD, COURSE, SUBSCRIBE, RPLSTOP and the answer cache. Carried out, MEMR of 1 to 8 192 bytes of
this module's pseudo-static DRAM answers them and MEMW stores the bytes there and nowhere else; SNAP takes a plumb
trigger of source 1 with its tag where no snapshot is held and the last trigger taken lies more than two cycles back,
and is answered status 4 with the hub not ON; EVREAD answers the records; COURSE takes its mode, the corner that it
names and the shape, and starts coursing, which is in step 1 while a link still trains; it is answered status 3 while
coursing runs; SUBSCRIBE sets its slot alone; RPLSTOP leaves RPL_CTL mode 0. An answer leaves the cache once held for
2 s.
Rests on 11 (R309, R311, R312, R313, Table 11.3); 14 (R372, R374, R386); 09 (R255); 10 (R288). -/
def Obligations.ModuleRequests : Prop :=
  ∀ (s : State) (p : CtlId) (g : Datagram) (rest : List Datagram),
    (∀ (a : Word) (bs : List Byte), dramBase ≤ a.toNat → a.toNat + bs.length ≤ dramBase + 0x4000000 → 1 ≤ bs.length → bs.length ≤ 8192 →
      let h := leBytes 8 (a.toNat + 0x7FFF000000000000) ++ leBytes 4 bs.length ++ zeros 4
      (Carried s p 9 g rest h → Yields (.ncpMemr p) s fun t =>
        Answered p g rest 0 0 (s.dev.rdMem a.toNat bs.length) true s t ∧ ∀ x, t.dev.byte x = s.dev.byte x) ∧
      (Carried s p 10 g rest (h ++ bs) → Yields (.ncpMemw p) s fun t => Answered p g rest 0 0 [] true s t ∧
        ∀ x, t.dev.byte x = if a.toNat ≤ x ∧ x < a.toNat + bs.length then bs.getD (x - a.toNat) 0 else s.dev.byte x)) ∧
    (Carried s p 11 g rest (zeros 8) →
      s.dev.hubOn = false → Yields (.ncpSnap p) s (Answered p g rest 4 0x13 [] false s)) ∧
    (∀ tag : BitVec 16, Carried s p 11 g rest (leBytes 2 tag.toNat ++ zeros 6) → s.dev.hubOn = true →
      (∀ n, s.dev.hub.plumb.taken = some n → n + 2 < s.dev.cycle) → bitOf (s.dev.reg (aPlb 8)) 0 = false → Yields (.ncpSnap p) s fun t =>
        Answered p g rest 0 0 [] true (if bitOf (s.dev.reg (aPwr 0xA8)) 1 then { s with dev := s.dev.emit .plumb } else s) t ∧
        t.dev.hub.plumb.taken = some s.dev.cycle ∧ t.dev.hub.plumb.src = 2 ∧ t.dev.hub.plumb.tag = tag.toNat) ∧
    (∀ first count : BitVec 32, 1 ≤ count.toNat → count.toNat ≤ 128 → Carried s p 12 g rest (leBytes 4 first.toNat ++ leBytes 4 count.toNat) →
      Yields (.ncpEvread p) s (Answered p g rest 0 0 (s.dev.evread first.toNat count.toNat) true s)) ∧
    (∀ (m : Bool) (x y z : Byte) (named : Word),
      Carried s p 13 g rest (leBytes 1 (b2n m) ++ [0, x, y, z, 0, 0, 0] ++ leBytes 8 named.toNat) → s.dev.hubOn = true →
      (∀ l, s.dev.hub.crs.state ≠ 1 → bitOf (s.dev.reg (aLnk l 0)) 0 = true → s.dev.dom (.link l) = .on → (s.dev.link l).st = .training →
        Yields (.ncpCourse p) s fun t => Answered p g rest 0 0 [] true s t ∧ t.dev.hub.crs.state = 1 ∧ t.dev.hub.crs.step = 1 ∧
          t.dev.hub.crs.mode = m ∧ t.dev.hub.crs.named = named ∧ t.dev.hub.crs.shape = ⟨x.toNat, y.toNat, z.toNat⟩) ∧
      (s.dev.hub.crs.state = 1 → Yields (.ncpCourse p) s (Answered p g rest 3 0 [] false s))) ∧
    (∀ (i : Fin 4) (en : Bool) (ip : BitVec 128) (port : BitVec 16),
      Carried s p 18 g rest (leBytes 1 i.val ++ leBytes 1 (b2n en) ++ leBytes 2 port.toNat ++ zeros 4 ++ leBytes 16 ip.toNat) →
      Yields (.ncpSubscribe p) s fun t => Answered p g rest 0 0 [] true s t ∧ t.dev.aoc.subs.get i = ⟨ip, port, en⟩ ∧
        ∀ j, j ≠ i → t.dev.aoc.subs.get j = s.dev.aoc.subs.get j) ∧
    (Carried s p 19 g rest [] → s.dev.hubOn = true → Yields (.ncpRplstop p) s fun t => Answered p g rest 0 0 [] true s t ∧
      t.dev.regFld (aRpl 0) 0 2 = 0) ∧
    (∀ i c, s.dev.aoc.cache[i]? = some c → c.sentAt + 2800000000 ≤ s.dev.cycle → Yields (.answerCacheExpiry i) s fun t =>
      t = { s with dev := s.dev.updAoc fun x => { x with cache := x.cache.eraseIdx i } })

/-- FWUPD and ATTEST requests. FWUPD BEGIN opens the session and erases the sectors of its range, and nothing else; WRITE
stores its data within the range, or ends in a memory error at the first byte that programming, which only clears
bits, cannot give its value; COMMIT without a restart of a verified copy appends a boot-select record for a trial, of
an unverified one changes no memory, of standing images that verify changes none, and of a sound provisioning copy
writes its commit byte; each closes the session and records event 0x1007. ABORT and the timeout close it, STATUS
reports it, or 24 zero bytes where there is none. ATTEST QUOTE stores the quote over the nonce, and the reads return
its bytes, log entries and the identity. Shown for requests in compute service. What flash programming can do is
presumed of the family (log 10), and that a copy verifies stands as a premise, since no key is known whose signatures
would verify; the model's own: the kept last_fail and STATUS to every asker (log 41), the cached refusal of a commit
(log 39), and a session timeout that closes whenever it is commanded (log 32).
Rests on 13 (R361, R362, R363, R364, R369, R370, Tables 13.8 and 13.10). -/
def Obligations.UpdatesAndQuotes : Prop :=
  ∀ (s : State) (p : CtlId) (g : Datagram) (rest : List Datagram),
    (∀ (area : Fin 3) (n : BitVec 32) (o : Word), n.toNat + o.toNat ≤ areaSize area.val → (area.val ≠ 1 → o = 0) →
      (∀ x, s.dev.aoc.session = some x → x.src = g.src ∧ x.sport = g.sport) → (area.val = 0 → s.dev.aoc.trust.trial = false) →
      Carried s p 16 g rest ([0] ++ leBytes 1 area.val ++ [0, 0] ++ leBytes 4 n.toNat ++ leBytes 8 o.toNat) → Yields (.fwupdBegin p) s fun t =>
        let lo := (s.dev.areaBase area.val).2 + o.toNat
        Answered p g rest 0 0 [] true s t ∧ t.dev.aoc.session = some ⟨g.src, g.sport, area.val, lo, lo + n.toNat, 0⟩ ∧
        ∀ a, t.dev.byte a = if n ≠ 0 ∧ flashBase + lo / 0x10000 * 0x10000 ≤ a ∧ a < flashBase + ceilDiv (lo + n.toNat) 0x10000 * 0x10000
          then memDefault a else s.dev.byte a) ∧
    (∀ x : Session, s.dev.aoc.session = some x → x.src = g.src → x.sport = g.sport →
      (∀ (bs : List Byte) (o : Word), x.area < 3 → bs.length ≤ 8192 →
        let lo := (if x.area = 1 then 0x05000000 else x.lo) + o.toNat
        x.lo ≤ lo → lo + bs.length ≤ x.hi → x.hi ≤ 0x10000000 →
        Carried s p 16 g rest ([1] ++ leBytes 1 x.area ++ [0, 0] ++ leBytes 4 bs.length ++ leBytes 8 o.toNat ++ bs) →
        let wrote := fun (n : Nat) (t : State) => ∀ a, t.dev.byte a =
          if flashBase + lo ≤ a ∧ a < flashBase + lo + n then bs.getD (a - (flashBase + lo)) 0 else s.dev.byte a
        (s.dev.programFail (flashBase + lo) bs = none → Yields (.fwupdWrite p) s fun t => Answered p g rest 0 0 [] true s t ∧
          t.dev.aoc.session = some { x with written := x.written + bs.length } ∧ wrote bs.length t) ∧
        (∀ i, s.dev.programFail (flashBase + lo) bs = some i → Yields (.fwupdWrite p) s fun t => Answered p g rest 5 i [] false s t ∧
          t.dev.aoc.session = some x ∧ wrote i t)) ∧
      (x.area = 0 → (x.lo = copyBase 0 ∨ x.lo = copyBase 1) → Carried s p 16 g rest ([2] ++ zeros 15) →
        let copy := if x.lo = copyBase 1 then 1 else 0
        (s.dev.verifyCopy copy = 15 → Yields (.fwupdCommit p) s fun t => Answered p g rest 0 0 [] true s t ∧ t.dev.aoc.session = none ∧
          Raised [0x1007] s t ∧ t.dev.mem = (s.dev.bootAppend ⟨0, copy, 1, 3, s.dev.bootRec.fail⟩).mem) ∧
        (s.dev.verifyCopy copy < 15 → s.dev.verifyCopy copy ≠ 0 → Yields (.fwupdCommit p) s fun t =>
          Answered p g rest 4 (s.dev.verifyCopy copy) [] true s t ∧ t.dev.aoc.session = none ∧ Raised [0x1007] s t ∧
          ∀ a, t.dev.byte a = s.dev.byte a)) ∧
      (x.area = 1 → (∀ e : Fin 8, entryIn s.dev.newService.1 e.val x.lo x.hi = true →
        s.dev.standingCode s.dev.newService.2 s.dev.newService.1 e.val = 0) →
        Carried s p 16 g rest ([2, 1] ++ zeros 14) → Yields (.fwupdCommit p) s fun t => Answered p g rest 0 0 [] true s t ∧
          t.dev.aoc.session = none ∧ Raised [0x1007] s t ∧ ∀ a, t.dev.byte a = s.dev.byte a) ∧
      (x.area = 2 → Carried s p 16 g rest ([2, 2] ++ zeros 14) → let copy := (x.lo - provBase 0) / 0x20000
        (s.dev.provCommit copy = 0 → Yields (.fwupdCommit p) s fun t => Answered p g rest 0 0 [] true s t ∧ t.dev.aoc.session = none ∧
          Raised [0x1007] s t ∧ ∀ a, t.dev.byte a = if a = flashBase + provBase copy + 63 then 0x5A else s.dev.byte a) ∧
        (s.dev.provCommit copy ≠ 0 → Yields (.fwupdCommit p) s fun t => Answered p g rest 4 (s.dev.provCommit copy) [] true s t ∧
          t.dev.aoc.session = none ∧ Raised [0x1007] s t ∧ ∀ a, t.dev.byte a = s.dev.byte a)) ∧
      (Carried s p 16 g rest ([3] ++ zeros 15) → Yields (.fwupdAbort p) s fun t =>
        Answered p g rest 0 0 [] true s t ∧ t.dev.aoc.session = none ∧ ∀ a, t.dev.byte a = s.dev.byte a) ∧
      (Carried s p 16 g rest ([4] ++ zeros 15) → Yields (.fwupdStatus p) s (Answered p g rest 0 0
        (leBytes 1 x.area ++ [1, 0, 0] ++ leBytes 4 x.written ++ leBytes 16 x.src.toNat) true s))) ∧
    (s.dev.aoc.session = none → Carried s p 16 g rest ([4] ++ zeros 15) → Yields (.fwupdStatus p) s (Answered p g rest 0 0 (zeros 24) true s)) ∧
    (Yields .fwupdSessionTimeout s fun t => t = { s with dev := s.dev.updAoc fun y => { y with session := none } }) ∧
    (s.dev.aoc.trust.ident = 1 →
      (∀ nonce : List Byte, nonce.length = 48 → Carried s p 17 g rest (zeros 8 ++ nonce) → Yields (.attestQuote p) s fun t =>
        Answered p g rest 0 0 (leBytes 8 s.dev.aoc.trust.quotes ++ leBytes 4 36240 ++ zeros 4) true s t ∧
        t.dev.aoc.trust.quotes = s.dev.aoc.trust.quotes + 1 ∧ t.dev.aoc.trust.quote.take 192 = s.dev.quoteBody nonce) ∧
      (∀ o n : BitVec 32, 1 ≤ n.toNat →
        (n.toNat ≤ 8192 → o.toNat + n.toNat ≤ s.dev.aoc.trust.quote.length →
          Carried s p 17 g rest ([1] ++ zeros 7 ++ leBytes 4 o.toNat ++ leBytes 4 n.toNat) → Yields (.attestReadQuote p) s
            (Answered p g rest 0 0 ((s.dev.aoc.trust.quote.drop o.toNat).take n.toNat) true s)) ∧
        (n.toNat ≤ 128 → o.toNat + n.toNat ≤ s.dev.aoc.trust.log.length →
          Carried s p 17 g rest ([2] ++ zeros 7 ++ leBytes 4 o.toNat ++ leBytes 4 n.toNat) → Yields (.attestReadLog p) s
            (Answered p g rest 0 0 ((s.dev.aoc.trust.log.drop o.toNat).take n.toNat).flatten true s))) ∧
      (Carried s p 17 g rest ([3] ++ zeros 7) → Yields (.attestIdentity p) s (Answered p g rest 0 0
        (s.dev.aoc.trust.identityPub ++ padTo 112 (s.dev.provBody 0) ++
          (match s.dev.provCopy with
          | some c => s.dev.blockSig c 0
          | none => [])) true s)))

/-- Control ports and gate ports: ARP, NDP, echo, 802.1AS, gate control, NBP and flow control. A port whose link is up
answers ARP, NDP and echo for its own address. An 802.1AS message sets time and lock, and at the time root enters the
average of offsets; a loss of lock clears it and opens the gates, and a root without another lock counts freely. The
control list stands at the entry that the time has reached while enabled and locked, and every gate is open otherwise.
CTLP_GCFG takes the length and the cycle that lie in their ranges while disabled and keeps the others, and keeps its
list while enabled. A sound NBP datagram of an enabled flow is received for its queue and counted, one of another flow
only counted; one of at most 56 bytes is pushed as one entry. XOFF and XON set and clear the class. A packet pushed
whole becomes a frame of its egress entry, or is dropped where that is disabled; a push waits while the buffer of its
own port, or of the port that its frame goes to, is full; GATE_FRAME_SEND sends the oldest frame. Links of ports come
up and go down. The model's own: an out-of-range length or cycle keeps the old one (log 60), the offsets of 802.1AS
among the sixteen of the root (log 30), counting at acceptance (log 34), VLANs and history (log 38), and the XOFF bits
that a fallen gate link clears (log 66).
Rests on 11 (R303, R304, R305, R314, R315, R316, R317, R318, R322); 09 (R275). -/
def Obligations.EthernetPorts : Prop :=
  ∀ (s : State) (p : CtlId) (g : GateId),
    let free := fun (t : State) => s.dev.hub.ftime.root = true → (∀ q, q ≠ p → (s.dev.ctl q).aslock = false) →
      t.dev.hub.ftime.gptp = false ∧ t.dev.hub.ftime.offs = []
    (∀ (e : EthPort) (x : EthTag), s.dev.ethUp e = true → s.Admits e x → let own := s.dev.addresses e
      (∀ r : ArpMsg, r.targetIp ≠ 0 → own.2.2 = r.targetIp.toNat →
        Yields (.arpRequest e ⟨x, r⟩) s (Sends (.arp e ⟨BitVec.ofNat 48 own.1, r.targetIp, r.senderIp⟩) s)) ∧
      (∀ r : NdpMsg, r.targetIp ≠ 0 → own.2.1 = r.targetIp.toNat →
        Yields (.ndpRequest e ⟨x, r⟩) s (Sends (.ndp e ⟨BitVec.ofNat 48 own.1, r.targetIp, r.senderIp⟩) s)) ∧
      (∀ r : EchoMsg, r.sound = true → ((r.targetIp ≠ 0 ∧ own.2.1 = r.targetIp.toNat) ∨ (own.2.2 ≠ 0 ∧ mapped own.2.2 = r.targetIp.toNat)) →
        Yields (.icmpEchoRequest e ⟨x, r⟩) s (Sends (.echo e ⟨r.targetIp, r.senderIp, true, r.data⟩) s))) ∧
    (s.dev.ethUp (.ctl p) = true →
      (∀ (x : Word) (b : Bool), s.dev.gptpOn = true → Yields (.gptpMessage p x b) s fun t =>
        t.dev.ctl p = { s.dev.ctl p with
          time := x, timeAt := s.dev.cycle, aslock := b
          pos := if b then (s.dev.ctl p).pos else 0, gates := if b then (s.dev.ctl p).gates else 0xFF } ∧
        (b = false → free t) ∧
        (b = true → s.dev.hubOn = true → s.dev.hub.ftime.root = true → s.dev.hub.ftime.acq = true → s.dev.replaying 5 = false →
          t.dev.hub.ftime.gptp = true ∧ t.dev.hub.ftime.offs =
            ((s.dev.hub.ftime.offs ++ [(s.dev.hub.ftime.ft.toNat : Int) - s.dev.fabricTimeOf x]).reverse.take 16).reverse)) ∧
      (s.dev.gatesOn p = true → ∀ i, i < s.dev.gclLen p → (∀ j, j < i → s.dev.gclEnd p j ≤ s.dev.gclTime p) → s.dev.gclTime p < s.dev.gclEnd p i →
        let there := fun (t : State) => t.dev.ctl p = { s.dev.ctl p with pos := i, gates := BitVec.ofNat 8 (s.dev.gclGates p i) }
        Yields (.gateControlCycle p) s there ∧ Yields (.gateControlListEntry p) s there) ∧
      (s.dev.gatesOn p = false → let all := fun (t : State) => t.dev.ctl p = { s.dev.ctl p with pos := 0, gates := 0xFF }
        Yields (.gateControlCycle p) s all ∧ Yields (.gateControlListEntry p) s all)) ∧
    (Yields (.gptpLockLoss p) s fun t => t.dev.ctl p = { s.dev.ctl p with aslock := false, pos := 0, gates := 0xFF } ∧ free t) ∧
    (∀ v : Word, s.dev.pageOn (aCtlp p 0x10) = true → Yields (.ctlpGcfgWrite p v) s fun t =>
      let old := s.dev.reg (aCtlp p 0x10)
      let new := t.dev.reg (aCtlp p 0x10)
      bitOf new 0 = bitOf v 0 ∧
      (bitOf old 0 = false → fld new 1 7 = (if 1 ≤ fld v 1 7 ∧ fld v 1 7 ≤ 64 then fld v 1 7 else fld old 1 7) ∧
        fld new 8 30 = if 1000 ≤ fld v 8 30 ∧ fld v 8 30 ≤ 1000000000 then fld v 8 30 else fld old 8 30) ∧
      (bitOf old 0 = true → fld new 1 37 = fld old 1 37 ∧ (fld v 1 37 ≠ fld old 1 37 → Raised [0x8001] s t)) ∧
      (bitOf v 0 = false → (t.dev.ctl p).pos = 0 ∧ (t.dev.ctl p).gates = 0xFF)) ∧
    (s.dev.gateUp g = true →
      (∀ f : NbpFrame, f.dport.toNat = s.dev.nbpPort → nbpOk f = true → (s.dev.gate g).rxBytes + f.payload.length ≤ gateBuf →
        s.dev.replaying 2 = false →
        let flow := leAt f.payload 2 2 % 1024
        let e := s.dev.reg (aGate (0x2000 + 8 * flow))
        let count := fun (i : Nat) (t : State) => t.dev.regFld (aGateCnt g i) 0 64 = min (2 ^ 64 - 1) (s.dev.regFld (aGateCnt g i) 0 64 + 1)
        (bitOf e 4 = true → bitOf e (5 + g.val) = true → Yields (.nbpDatagramReceive g f) s fun t => count 0 t ∧
          t.dev.hub.queues = s.dev.hub.queues ∧
          t.dev.gate g = { s.dev.gate g with rx := (s.dev.gate g).rx ++ [(finOf 31 (fld e 0 4), flow, s.dev.cycle, f.payload)] }) ∧
        ((bitOf e 4 = false ∨ bitOf e (5 + g.val) = false) → Yields (.nbpDatagramReceive g f) s fun t => count 2 t ∧ t.dev.hub = s.dev.hub)) ∧
      (∀ (q : QueueId) (flow at_ : Nat) (b : List Byte) (rx : List (QueueId × Nat × Nat × List Byte)), (s.dev.gate g).rx = (q, flow, at_, b) :: rx →
        (s.dev.gate g).rest = none → 1 ≤ b.length → b.length ≤ 56 → s.dev.gateTurn q s.dev.cycle = some g → s.dev.replaying 2 = false →
        bitOf (s.dev.reg (aQue q 0x1000)) 0 = true → bitOf (s.dev.reg (aQue q 0x1000)) 6 = false → s.dev.queFull q = false →
        (s.dev.queue q).waiting = [] → s.dev.queTaken q = false → (∀ x ∈ s.dev.now.pushed, x.1 ≠ q) → Yields (.deferredPush q) s fun t =>
          (t.dev.gate g).rx = rx ∧ (t.dev.queue q).count = (s.dev.queue q).count + 1 ∧ (t.dev.queue q).pkts = (s.dev.queue q).pkts + 1 ∧
          (t.dev.queue q).seq = (s.dev.queue q).seq + 1) ∧
      (∀ c : Fin 8,
        Yields (.pfcFrameReceive g c true) s (fun t => (t.dev.gate g).xoffRcvd = (s.dev.gate g).xoffRcvd ||| BitVec.ofNat 8 (2 ^ c.val)) ∧
        Yields (.pfcFrameReceive g c false) s fun t => (t.dev.gate g).xoffRcvd = (s.dev.gate g).xoffRcvd &&& ~~~BitVec.ofNat 8 (2 ^ c.val)) ∧
      (∀ bs : List Byte, bs.length = 64 → (s.dev.gate g).waiting = [] →
        let x := QEntry.ofBytes bs 0
        let flow := x.source.toNat % 1024
        let entry := s.dev.egress flow
        let o : GateId := finOf 1 (leAt entry 28 1)
        ((gateBuf < (s.dev.gate g).txBytes + 9000 ∨ (x.sop = true ∧ gateBuf < (s.dev.gate o).txBytes + 9000)) →
          Yields (.gateTransmitPush g bs) s fun t => (t.dev.gate g).waiting = [bs] ∧ ∀ y, (t.dev.gate y).tx = (s.dev.gate y).tx) ∧
        ((s.dev.gate g).txBytes + 9000 ≤ gateBuf → (s.dev.gate o).txBytes + 9000 ≤ gateBuf → (s.dev.gate g).opened = none → x.sop = true →
          (x.eop = false → Yields (.gateTransmitPush g bs) s fun t => t.dev.gate g = { s.dev.gate g with opened := some [x] }) ∧
          (x.eop = true → leAt entry 29 1 % 2 = 1 → Yields (.gateTransmitPush g bs) s fun t =>
            (t.dev.gate o).tx = (s.dev.gate o).tx ++ [s.dev.gateFrameOf o flow entry (x.data.take x.bytes)]) ∧
          (x.eop = true → leAt entry 29 1 % 2 = 0 → Yields (.gateTransmitPush g bs) s fun t => Raised [0x4003] s t ∧
            (∀ y, (t.dev.gate y).tx = (s.dev.gate y).tx) ∧
            t.dev.regFld (aGateCnt g 6) 0 64 = min (2 ^ 64 - 1) (s.dev.regFld (aGateCnt g 6) 0 64 + 1)))) ∧
      (∀ x rest, (s.dev.gate g).tx = x :: rest → (s.dev.gate g).xoffRcvd.toNat.testBit (frameClass x) = false →
        (∀ y, (s.dev.gate y).waiting = []) →
        Yields (.gateFrameSend g) s fun t => (t.dev.gate g).tx = rest ∧ t.dev.out = s.dev.out ++ [.gateFrame g x])) ∧
    (∀ slow : Bool, (if p.val = 0 then s.dev.aocUp || s.dev.aoc.trust.stage == .recovery else s.dev.aocUp && s.dev.dom .ctl1 == .on) = true →
      Yields (.controlPortLinkChange p true slow) s (fun t => t.dev.ctl p = { s.dev.ctl p with link := true, slow := slow }) ∧
      Yields (.controlPortLinkChange p false slow) s (fun t => t.dev.ctl p =
        { s.dev.ctl p with link := false, slow := false, aslock := false, pos := 0, gates := 0xFF } ∧ free t)) ∧
    (s.dev.hubOn = true → s.dev.dom (.gate g) = .on →
      Yields (.gatePortLinkChange g true) s (fun t => t.dev.gate g = { s.dev.gate g with link := true }) ∧
      Yields (.gatePortLinkChange g false) s fun t => t.dev.gate g = { s.dev.gate g with link := false, xoffRcvd := 0, xoffSent := 0 })

/-- Links train, fall and carry frames; the router forwards; fabric time slews. A training link becomes UP with all its
credits or goes DOWN; an UP link that loses light goes DOWN, its buffer and replay buffer empty, event 0x5001 is
raised and a link notice waits on every other UP link; a DOWN enabled link retrains when light returns; FAB_LNK_CFG
starts training or turns the port OFF. A good frame in order on an UP link delivers the packets that it completes and
its credits, notes its time flit, and with a new nak has every unacknowledged frame sent again; a bad frame makes the
receiver wait for a replay. The slew moves fabric time by one cycle. A packet for this module is delivered; one that
an output serves takes its credits there, the copy of a multicast write too; one without a route is discarded and, a
request, answered with an ERR of status 3; one of a reserved type is discarded. The model's own: the bytes of the link
notice (log 52), the ERR that answers a packet of class 2 (log 21), and a training timeout that comes whenever it is
commanded (log 32).
Rests on 09 (R245, R246, R247, R248, R250, R251, R252, R253, R254, R259, R261, R274). -/
def Obligations.LinksAndFrames : Prop :=
  ∀ (s : State) (l : LinkId),
    ((s.dev.link l).st = .training → (s.dev.hub.crs.state = 1 → s.dev.hub.crs.step = 1 → ∃ x, x ≠ l ∧ (s.dev.link x).st = .training) →
      Yields (.linkTrainingComplete l) s (fun t => t.dev.link l = { Link.init with
        st := .up, rsv := Vector.replicate 8 66, shared := 496, light := true, peerPort := (s.dev.link l).peerPort, peerDev := (s.dev.link l).peerDev } ∧
        ∀ x, x ≠ l → t.dev.link x = s.dev.link x) ∧
      Yields (.linkTrainingTimeout l) s fun t => t.dev.link l = { s.dev.link l with st := .down } ∧ ∀ x, x ≠ l → t.dev.link x = s.dev.link x) ∧
    ((s.dev.link l).st = .up → Yields (.lossOfLight l) s fun t => (t.dev.link l).st = .down ∧ (t.dev.link l).light = false ∧
      (t.dev.link l).buf = [] ∧ (t.dev.link l).replay = [] ∧ Raised [0x5001] s t ∧ ∀ x, x ≠ l → t.dev.link x = s.dev.link x ∧
        ((s.dev.link x).st = .up → ∃ q, (x, q) ∈ t.dev.hub.ctl ∧ q.type = 10 ∧ q.data = ctlBytes ctlNotice [s.dev.ownDev, t.dev.linkMap])) ∧
    ((s.dev.link l).st = .down → bitOf (s.dev.reg (aLnk l 0)) 0 = true → s.dev.dom (.link l) = .on → Yields (.lightReturn l) s fun t =>
      (t.dev.link l).st = .training ∧ (t.dev.link l).light = true) ∧
    (∀ v : Word, s.dev.hubOn = true →
      (bitOf (s.dev.reg (aLnk l 0)) 0 = false → bitOf v 0 = true → s.dev.dom (.link l) = .on →
        Yields (.fabLnkCfgWrite l v) s fun t => (t.dev.link l).st = .training ∧ bitOf (t.dev.reg (aLnk l 0)) 0 = true) ∧
      (bitOf (s.dev.reg (aLnk l 0)) 0 = true → bitOf v 0 = false → Yields (.fabLnkCfgWrite l v) s fun t => (t.dev.link l).st = .off)) ∧
    (∀ f : Frame, (s.dev.link l).st = .up → let k := s.dev.link l
      (frameGood f = true → f.seq = k.rxLast + 1 → f.nak = false → Yields (.frameReceive l f) s fun t => let m := t.dev.link l
        m.rxLast = f.seq ∧ m.hunting = false ∧ m.shared = min 496 (k.shared + f.scnt) ∧
        (∀ v, m.rsv.get v = if v = f.rvl then min 66 (k.rsv.get v + f.rcnt) else k.rsv.get v) ∧ m.replay = (k.acknowledge f.ack).replay ∧
        m.buf = (f.slots.foldl (Link.takeFlit l) k).buf ∧ m.part = (f.slots.foldl (Link.takeFlit l) k).part ∧
        (∀ q n, f.slots = .header q :: List.replicate n .idle → carries q.type = false →
          m.buf = k.buf ++ [{ q with data := [], via := some l, done := 0, copyTo := none }]) ∧
        ∀ x, frameTime f = some x → f.replayed = false → m.tRx = s.dev.hub.ftime.ft ∧ m.tPeer = x.tTx) ∧
      (frameGood f = true → f.seq = k.rxLast + 1 → f.nak = true → k.nakAck ≠ some f.ack → (∀ x ∈ k.replay, x.2 < 8) →
        Yields (.frameReceive l f) s fun t => let m := t.dev.link l
          m.rxLast = f.seq ∧ m.resend = (k.acknowledge f.ack).replay.map Prod.fst ∧
          m.replay = (k.acknowledge f.ack).replay.map fun x => (x.1, x.2 + 1)) ∧
      (frameGood f = false → Yields (.frameReceive l f) s fun t => t.dev.link l = { k with hunting := true })) ∧
    (s.dev.hubOn = true → s.dev.hub.ftime.run = true → s.dev.hub.ftime.slewAt + 2048 ≤ s.dev.cycle →
      (0 < s.dev.hub.ftime.average → Yields .fabricTimeSlew s fun t =>
        t = { s with dev := s.dev.updTime fun x => { x with slewAt := s.dev.cycle, hold := true } }) ∧
      (s.dev.hub.ftime.average < 0 → Yields .fabricTimeSlew s fun t =>
        t = { s with dev := s.dev.updTime fun x => { x with slewAt := s.dev.cycle, ft := x.ft + 1 } })) ∧
    (∀ (r : RouterIn) (p : Packet), s.dev.hubOn = true →
      (∀ x o, p.copyTo = some x → s.dev.offers r = [p] → s.dev.nextOut o = some (r, p) → Yields (.packetForward r) s fun t =>
        t.dev.hub.inject = eraseFirst (· == p) s.dev.hub.inject ∧ ∃ b, (s.dev.link o).credit (s.dev.withDl o p) = some b ∧
          (t.dev.link o).tx = (s.dev.link o).tx ++ flitsOf { s.dev.withDl o p with pool := b }) ∧
      (s.dev.inputOf r = [p] → p.cls < 4 → p.copyTo = none →
      (p.type < 10 → s.dev.hopOf p = .deliver → s.dev.heldBack p = false → Yields (.packetForward r) s fun t =>
        t.dev.inputOf r = [] ∧ t.dev.hub.delivered = s.dev.hub.delivered ++ [p]) ∧
      (∀ o, p.type < 10 → s.dev.nextOut o = some (r, p) → Yields (.packetForward r) s fun t => t.dev.inputOf r = [] ∧
        let q := s.dev.withDl o p
        ∃ b, (s.dev.link o).credit q = some b ∧ (t.dev.link o).tx = (s.dev.link o).tx ++ flitsOf { q with pool := b } ∧
          (t.dev.link o).turn.get (laneOf q) = routerInput r) ∧
      (p.type < 10 → s.dev.hopOf p = .lost → (p.cls = 0 ∨ p.cls = 2) → p.mc = false → p.src.toNat ≠ s.dev.ownDev →
        Yields (.packetForward r) s fun t => Raised [0x5004] s t ∧
          ∃ q, t.dev.hub.inject = (if r = .own then eraseFirst (· == p) s.dev.hub.inject else s.dev.hub.inject) ++ [q] ∧ q.type = 6 ∧ q.dst = p.src ∧ q.tag = p.tag ∧ q.status = 3) ∧
      (11 ≤ p.type → Yields (.packetForward r) s fun t => t.dev.inputOf r = [] ∧ Raised [0x5004] s t ∧
        t.dev.hub.delivered = s.dev.hub.delivered)))

/-- WR, RD, AA and MWR at their target. With the hub ON, a request of another module that is next in its flow leaves the
delivered packets. At an awake and mapped range of HBM, stock or the pseudo-static DRAM without an ECC error WR stores
its bytes and nothing else and is answered WACK, RD answers the bytes, and MWR at a module that the group delivers to,
and sends on to nobody, stores its bytes and answers one MACK. At a register whose page has served nothing in this
cycle RD of 8 bytes answers what it showed when the cycle began, and WR and MWR write a scratch register. AA adds to
an aligned word of stock or HBM and answers the old value; an MWR that only goes on leaves one copy for each of its
ports; MWR of a group without a valid entry is answered ERR status 6, and a malformed WR, RD or AA ERR status 5. The
model's own: the group of a MWR stands in cid on its way to the root (log 54), and a packet that the router has not
delivered arrives with its command (log 12).
Rests on 09 (R248, R249, R263); 07 (R183); 08 (R209); 15 (R392). -/
def Obligations.RequestsArrive : Prop :=
  ∀ (s : State) (p : Packet), s.dev.hubOn = true → (∀ q, s.dev.hub.delivered.find? (sameFlow p) = some q → q = p) → p.done = 0 →
    p.src.toNat ≠ s.dev.ownDev → p.issuer.toNat ≠ s.dev.ownDev →
    let a := p.addr.toNat
    let n := p.len.toNat + 1
    let gone := fun (t : State) => t.dev.hub.delivered = eraseFirst (fun x => asSent x == asSent p) s.dev.hub.delivered
    let answered := fun (dst : DevAddr) (type status : Nat) (operand : Word) (data : List Byte) (t : State) => gone t ∧
      ∃ q, t.dev.hub.inject = s.dev.hub.inject ++ [q] ∧ q.type = type ∧ q.cls = 1 ∧ q.dst = dst ∧ q.tag = p.tag ∧
        q.status = BitVec.ofNat 8 status ∧ q.operand = operand ∧ q.data = data
    let stores := fun (t : State) => ∀ x, t.dev.byte x = if a ≤ x ∧ x < a + p.data.length then p.data.getD (x - a) 0 else s.dev.byte x
    let same := fun (t : State) => ∀ x, t.dev.byte x = s.dev.byte x
    let alone := fun (m : Nat) => ∀ e ∈ s.dev.now.stk, e.who = .hub ∨ e.who = .fabric ∨ e.addr + e.len ≤ a ∨ a + m ≤ e.addr
    let e := s.dev.mcEntry (mcGroup p)
    let local_ := bitOf e 12 = true ∧ bitOf e 13 = true ∧ bitOf e 14 = true ∧ fld e 0 12 = 0
    ((region a = .hbm ∨ (∃ c o, region a = .stock c o) ∨ ∃ o, region a = .dram o) → s.dev.rangeMapped a n = true → s.dev.rangeAwake a n = true →
      (p.data.length = n → (∀ y ∈ partWords a n, s.dev.eccIn y 8 = []) → alone n →
        (p.type = 0 → Yields (.wr p) s fun t => answered p.src 1 0 0 [] t ∧ stores t) ∧
        (p.type = 7 → local_ → Yields (.mwr p) s fun t => answered p.issuer 8 0 1 [] t ∧ stores t)) ∧
      (p.type = 2 → p.data = [] → s.dev.eccIn a n = [] → Yields (.rd p) s fun t =>
        answered p.src 3 0 0 (s.dev.rdMem a n) t ∧ same t)) ∧
    (a % 8 = 0 → n = 8 → s.dev.pageFree a = true →
      (region a = .regs → s.dev.pageOn a = true → wideWindow ((a - regBase) / 0x10000) (a % 0x10000) = false → p.type = 2 → p.data = [] →
        Yields (.rd p) s fun t => answered p.src 3 0 0 (leBytes 8 (s.dev.atStart.view a).toNat) t ∧ same t) ∧
      (∀ i : Fin 8, a = aGlb (0x100 + 8 * i.val) → s.dev.aocUp = true → p.data.length = n →
        let written := fun (t : State) => t.dev.reg a = BitVec.ofNat 64 (leNat p.data) ∧ same t
        (p.type = 0 → Yields (.wr p) s fun t => answered p.src 1 0 0 [] t ∧ written t) ∧
        (p.type = 7 → local_ → Yields (.mwr p) s fun t => answered p.issuer 8 0 1 [] t ∧ written t))) ∧
    (p.type = 0 → p.data.length ≠ n → Yields (.wr p) s fun t => answered p.src 6 5 0 [] t ∧ same t) ∧
    (p.type = 2 → p.data ≠ [] → Yields (.rd p) s fun t => answered p.src 6 5 0 [] t ∧ same t) ∧
    (p.type = 4 → (p.data ≠ [] ∨ a % 8 ≠ 0) → Yields (.aa p) s fun t => answered p.src 6 5 0 [] t ∧ same t) ∧
    (p.type = 7 → bitOf e 13 = false → Yields (.mwr p) s fun t => answered p.issuer 6 6 0 [] t ∧ same t) ∧
    (p.type = 7 → p.data.length = n → bitOf e 12 = false → bitOf e 13 = true → bitOf e 14 = true → Yields (.mwr p) s fun t => gone t ∧ same t ∧
      t.dev.hub.inject = s.dev.hub.inject ++ (portsOf (fld e 0 12)).map fun l => { mcCopy e p with copyTo := some l }) ∧
    (p.type = 4 → p.data = [] → a % 8 = 0 → s.dev.eccIn a 8 = [] → alone 8 →
      ((∃ c o, region a = .stock c o ∧ s.dev.dieOn (dieOf c) = true) ∨
        (region a = .hbm ∧ s.dev.reachable a = true ∧ s.dev.hbmAwake a = true)) →
      Yields (.aa p) s fun t =>
        let old := BitVec.ofNat 64 (leNat (s.dev.rdMem a 8))
        answered p.src 5 0 old [] t ∧ t.dev.rdMem a 8 = leBytes 8 (old + p.operand).toNat ∧
        ∀ x, (x < a ∨ a + 8 ≤ x) → t.dev.byte x = s.dev.byte x)

/-- WACK, RDR, AAR, ERR, MACK and REQUEST_TIMEOUT end a request of this module. An answer that is next in its flow to the
outstanding request of a strand's access ends the request: WACK ends a store, RDR and AAR write the destination
register of the load with the data or the old value; one MACK of several is noted with its module and the request
stays. ERR and a timeout end it too and the running last stops with the remote fault, cause 17. An answer that answers
no request is discarded. One that the router has not delivered arrives with its command, which is the model's choice
(log 12).
Rests on 09 (R248, R249, R263); 07 (R182, R183). -/
def Obligations.AnswersArrive : Prop :=
  let next := fun (s : State) (p : Packet) => ∀ q, s.dev.hub.delivered.find? (sameFlow p) = some q → q = p
  (∀ (s : State) (p : Packet), s.dev.hubOn = true → next s p → s.dev.findReq p.tag = none → ∀ i : Instr,
      ((i = .wack p ∧ p.type = 1) ∨ (i = .rdr p ∧ p.type = 3) ∨ (i = .aar p ∧ p.type = 5) ∨ (i = .err p ∧ p.type = 6) ∨ (i = .mack p ∧ p.type = 8)) →
      Yields i s fun t => t = { s with dev := s.dev.arrived p }) ∧
  ∀ (s : State) (p : Packet) (r : Req) (c : CoreId) (k : StrandId) (a : Acc), s.dev.hubOn = true → next s p →
    s.dev.findReq p.tag = some r → r.who = .acc c k a.id → (s.dev.strand c k).access a.id = some a →
    let ended := fun (t : State) => t.dev.hub.reqs = s.dev.hub.reqs.filter (fun x => x.tag != p.tag) ∧
      (t.dev.strand c k).acc = (s.dev.strand c k).acc.filter fun b => b.id != a.id
    let failed := fun (t : State) => ended t ∧
      ∀ l, s.dev.strandLast c k = some l → (s.dev.last l).st = .running → (t.dev.last l).st = .stopped ∧
        t.dev.regFld (aLstFlt l 0) 0 8 = 17 ∧ t.dev.reg (aLstFlt l 3) = a.ea
    (p.type = 1 → isLoad a.opcode.toNat = false → Yields (.wack p) s fun t => ended t ∧ ∀ x, t.dev.byte x = s.dev.byte x) ∧
    (p.type = 3 → isLoad a.opcode.toNat = true → Yields (.rdr p) s fun t => ended t ∧
      ScalarsBut c k (wRd a.w) (loadValue a.opcode.toNat p.data) s t) ∧
    (p.type = 5 → a.opcode = 0x5E → Yields (.aar p) s fun t => ended t ∧ ScalarsBut c k (wRd a.w) p.operand s t) ∧
    (p.type = 6 → Yields (.err p) s failed) ∧
    (p.type = 8 → r.acks.length + 1 < r.need → Yields (.mack p) s fun t => (t.dev.strand c k).acc = (s.dev.strand c k).acc ∧
      (t.dev.findReq p.tag).map (fun x => x.acks) = some (r.acks ++ [p.src])) ∧
    (p.type = 8 → r.need ≤ r.acks.length + 1 → isLoad a.opcode.toNat = false → Yields (.mack p) s ended) ∧
    (r.sent + s.dev.timeout ≤ s.dev.cycle → Yields (.requestTimeout p.tag) s failed)

/-- Coursing, link notices and manual coordinates. A link map, or a link notice, is taken as the latest of its module; one
that is new goes on to every UP port (a map outside steps 5 and 6, which it may end), and after a notice in state 6 in
mode 0 every entry of the routing table without override is computed anew. FAB_CRS start begins coursing in the mode
written: with a link that trains it waits in step 1, with every enabled link UP, one of which has brought no identity
packet yet, it sends identity packets. An identity packet from another port than Table 9.1 expects, or of another
revision, makes the link MISCABLED with event 0x5002; a fitting one leaves it UP and counts for a step 2 to come, and
the last one of step 2 begins the election. A smaller serial is taken and passed on, a larger one noted; the first
coordinate offer is taken, one that does not fit ends coursing in state 7. The release, which the corner takes once it
has gathered completion and another module once its table is filled, ends it in state 6, a failed one in state 7, with
event 0x5003; it is passed on, and at the first the corner steps. FAB_COORD in manual mode sets address and time root;
in mode 0 it is ignored. The kinds and the layout of the CTL messages are the model's choice (log 52); the steps in
which election, offers, maps and the release act are deduced (log 53); the shape that the release's command names is
not read (log 53).
Rests on 09 (R255, R256, R257, R258, R262, R272, Table 9.18). -/
def Obligations.Coursing : Prop :=
  ∀ (s : State), s.dev.hubOn = true → let crs := s.dev.hub.crs; let up := s.dev.upPorts
    (∀ (a : DevAddr) (m : BitVec 12),
      let maps := (a, m) :: crs.maps.filter fun x => x.1 != a
      let ctl := fun k => if (a, m) ∈ crs.maps then s.dev.hub.ctl else s.told up k [a.toNat, m.toNat]
      Yields (.linkMapFlood a m) s (fun t => t.dev.hub.crs.maps = maps ∧ ((crs.state = 1 → crs.step ≠ 5 ∧ crs.step ≠ 6) → t.dev.hub.ctl = ctl ctlMap)) ∧
      Yields (.linkNotice a m) s (fun t => t.dev.hub.crs = { crs with maps := maps } ∧ t.dev.hub.ctl = ctl ctlNotice ∧
        (crs.state = 6 → s.dev.manual = false → bitOf (s.dev.reg (aFab 0x10)) 15 = true → ∀ e, e < 24576 →
          t.dev.route e = if (s.dev.route e).testBit 9 then s.dev.route e
            else t.dev.routeFor s.dev.shape (e % 32) (e / 32 % 32) (e / 1024)))) ∧
    (∀ v : Word, bitOf v 0 = true → crs.state ≠ 1 →
      (∀ l : LinkId, bitOf (s.dev.reg (aLnk l 0)) 0 = true → s.dev.dom (.link l) = .on → (s.dev.link l).st = .training →
        Yields (.fabCrsStart v) s fun t => t.dev.hub.crs.state = 1 ∧ t.dev.hub.crs.step = 1 ∧ t.dev.hub.crs.mode = bitOf v 1) ∧
      ((∃ l ∈ up, l.val ∉ crs.seen) → (∀ l, s.dev.target (.link l) ≠ 0 ∧ s.dev.dom (.link l) ≠ .waking ∧ (bitOf (s.dev.reg (aLnk l 0)) 0 = true → (s.dev.link l).st = .up) ∧ (s.dev.link l).st ≠ .training) →
        Yields (.fabCrsStart v) s fun t => t.dev.hub.crs.state = 1 ∧ t.dev.hub.crs.step = 2 ∧ t.dev.hub.crs.mode = bitOf v 1 ∧
          t.dev.hub.ctl = s.dev.hub.ctl ++ up.map fun l => (l, ctlPacket s.dev.ownDev (s.dev.link l).peerDev ctlIdentity [Config.serial.toNat, l.val, 2]))) ∧
    (∀ (l : LinkId) (serial : Word) (port : Fin 16) (rev : Byte), (s.dev.link l).st = .up →
      let known := fun (t : State) => (t.dev.link l).peerPort.toNat = port.val ∧ t.dev.reg (aLnk l 0x18) = serial
      let good := port.val = l.val ^^^ 2 ∧ rev = 2
      (crs.state ≠ 1 → ¬ good → Yields (.identityPacket l serial port.val rev) s fun t => (t.dev.link l).st = .miscabled ∧ Raised [0x5002] s t ∧ known t) ∧
      (crs.state ≠ 1 → good → Yields (.identityPacket l serial port.val rev) s fun t => (t.dev.link l).st = .up ∧ Raised [] s t ∧ known t ∧
        l.val ∈ t.dev.hub.crs.seen) ∧
      (crs.state = 1 → crs.step = 2 → crs.mode = false → crs.named = 0 → crs.heard = [] → crs.offers = [] → crs.taken = [] → (∀ k ∈ up, k = l ∨ k.val ∈ crs.seen) → good →
        Yields (.identityPacket l serial port.val rev) s fun t => t.dev.hub.crs.step = 3 ∧ t.dev.hub.crs.smallest = Config.serial ∧
          t.dev.hub.ctl = s.told up ctlElection [Config.serial.toNat] ∧ known t)) ∧
    (crs.state = 1 → crs.mode = false →
      (∀ (l : LinkId) (serial : Word), crs.named = 0 → let heard := (l.val, serial) :: crs.heard.filter fun x => x.1 != l.val
        (3 ≤ crs.step → serial.toNat < crs.smallest.toNat → Yields (.cornerElection l serial) s fun t => t.dev.hub.crs.heard = heard ∧
          t.dev.hub.crs.step = 3 ∧ t.dev.hub.crs.smallest = t.dev.hub.crs.least ∧ t.dev.hub.crs.corner = false ∧
          t.dev.hub.ctl = s.told up ctlElection [t.dev.hub.crs.least.toNat]) ∧
        ((crs.step < 3 ∨ (crs.smallest.toNat ≤ serial.toNat ∧ crs.smallest ≠ Config.serial)) → Yields (.cornerElection l serial) s fun t =>
          t.dev.hub = { s.dev.hub with crs := { crs with heard := heard } })) ∧
      (∀ (l : LinkId) (x y : Fin 33) (z : Fin 25), 3 ≤ crs.step →
        (crs.offer = none → Yields (.coordinateOffer l x.val y.val z.val) s fun t => t.dev.hub.crs.offer = some (x.val, y.val, z.val) ∧
          t.dev.regFld (aFab 0x10) 0 16 = devOf x.val y.val z.val + 2 ^ 15) ∧
        (∀ own, crs.offer = some own → offerFits crs.shape own (x.val, y.val, z.val) = false → Yields (.coordinateOffer l x.val y.val z.val) s fun t =>
          t.dev.hub.crs.state = 7 ∧ t.dev.hub.crs.offer = some own ∧ Raised [0x5003] s t))) ∧
    (∀ sh : Shape, crs.state = 1 → let ready := if crs.corner then crs.gathered = true else crs.step = 7
      let told := fun (t : State) ok => t.dev.hub.ctl = s.told up ctlRelease [b2n ok, crs.shape.x, crs.shape.y, crs.shape.z] ∧ Raised [0x5003] s t
      (ready → Yields (.coursingRelease true sh) s fun t =>
        t.dev.hub.crs.state = 6 ∧ t.dev.hub.crs.step = 7 ∧ t.dev.hub.crs.first = false ∧ told t true ∧
        (crs.corner = true → crs.first = true → t.dev.hub.ftime.root = true ∧ t.dev.hub.ftime.acq = true)) ∧
      (¬ ready → Yields (.coursingRelease true sh) s fun t => t = s) ∧
      Yields (.coursingRelease false sh) s fun t => t.dev.hub.crs.state = 7 ∧ t.dev.hub.crs.step = crs.step ∧ told t false) ∧
    (∀ v : Word, (s.dev.manual = true → fld v 0 15 ≠ 0x7FFF → Yields (.fabCoordWrite v) s fun t =>
        t.dev.regFld (aFab 0x10) 0 16 = fld v 0 16 ∧ t.dev.hub.ftime.root = (bitOf v 15 && decide (fld v 0 15 = 0))) ∧
      (s.dev.manual = false → Yields (.fabCoordWrite v) s (Untouched s)))

/-- Keystones and FTWAIT. An arrival from a child of an enabled keystone is noted; where the module has thereby arrived,
the root forms the release instant from fabric time and the delay and tells its children, and another module reports
to its parent. A release of the current round goes on to the children and sets the instant, and is counted and
recorded where it comes late; one of another round changes nothing. At its instant the round ends and no running
strand that waited in it holds the KEYSTONE any more; it posts. A break goes to the neighbours and leaves state 3 and,
where its bit is set, stops the running last with cause 17; a last that is not running stays as it is (log 48). KS_CFG
restores a disabled keystone, disables one, and is ignored in states 1 and 2. FTWAIT completes at its instant and
posts. The kinds of the CTL messages told to the ports (0, 1 and 2) and their numbers are the model's choice (log 52).
Rests on 09 (R276, R277, R278, Table 9.21); 07 (R195). -/
def Obligations.Keystones : Prop :=
  ∀ (s : State) (k : KeyId), let v := s.dev.ksCfg k; let x := s.dev.key k
    (s.dev.hubOn = true → bitOf v 3 = true →
      (∀ port : LinkId, x.st < 2 → (ksChildren v).testBit port.val = true →
        let y := { x with st := 1, children := x.children ||| BitVec.ofNat 12 (2 ^ port.val) }
        let here := s.dev.ksArrived k = false ∧ y.arrived = ksLocal v ∧ y.children.toNat = ksChildren v
        (¬ here → Yields (.keystoneArrival k port) s fun t => t.dev.key k = y ∧ t.dev.hub.ctl = s.dev.hub.ctl) ∧
        (here → ksParent v < 12 → Yields (.keystoneArrival k port) s fun t => t.dev.key k = y ∧
          t.dev.hub.ctl = s.told [finOf 11 (ksParent v)] 0 [k.val, 0, 0]) ∧
        (here → 12 ≤ ksParent v → let r := s.dev.hub.ftime.ft + BitVec.ofNat 64 (fld v 32 16)
          Yields (.keystoneArrival k port) s fun t => t.dev.key k = { y with st := 2, instant := r } ∧
            t.dev.hub.ctl = s.told (portsOf (ksChildren v)) 1 [k.val, r.toNat, x.round.toNat])) ∧
      (∀ r : Word, x.st < 2 → Yields (.keystoneRelease k r x.round) s fun t => t.dev.key k = { x with st := 2, instant := r } ∧
        t.dev.hub.ctl = s.told (portsOf (ksChildren v)) 1 [k.val, r.toNat, x.round.toNat] ∧
        (r.toNat < s.dev.hub.ftime.ft.toNat → Raised [0x5005] s t ∧
          t.dev.regFld (aKs k 8) 32 16 = min 0xFFFF (s.dev.regFld (aKs k 8) 32 16 + 1)) ∧
        (s.dev.hub.ftime.ft.toNat ≤ r.toNat → Raised [] s t ∧ t.dev.regs = s.dev.regs)) ∧
      (∀ (r : Word) (n : BitVec 16), n ≠ x.round → Yields (.keystoneRelease k r n) s fun t => t = s) ∧
      (∀ port : LinkId, x.st ≠ 3 → let last := s.dev.last (last_of (ksLast v))
        Yields (.keystoneBreak k port) s fun t => t.dev.key k = { x with st := 3, arrived := 0, next := 0, children := 0, waits := [] } ∧
          (bitOf v 16 = true → last.st = .running → (t.dev.last (last_of (ksLast v))).st = .stopped ∧
            t.dev.regFld (aLstFlt (last_of (ksLast v)) 0) 0 8 = 17 ∧ Raised [0x3001] s t) ∧
          ((bitOf v 16 = false ∨ last.st ≠ .running) → t.dev.lasts = s.dev.lasts ∧
            t.dev.hub.ctl = s.told (s.dev.ksPorts k) 2 [k.val, 0, 0]))) ∧
    (x.st = 2 → x.instant.toNat ≤ s.dev.hub.ftime.ft.toNat → Yields (.keystoneReleaseInstant k) s fun t =>
      (t.dev.key k).round = x.round + 1 ∧
      (x.next = 0 → ksLocal v ≠ 0 → t.dev.key k =
        { x with st := 0, round := x.round + 1, arrived := 0, children := 0, waits := x.waits.filter fun w => w.next }) ∧
      (∀ w ∈ x.waits, w.next = false → ∀ l, s.dev.strandLast w.core w.strand = some l → (s.dev.last l).st = .running →
        (s.dev.last l).pausing = none → ∀ z ∈ (t.dev.strand w.core w.strand).keys, z.1 ≠ k) ∧
      (∀ c i l h, (x.waits.filter fun w => !w.next) = [⟨c, i, false⟩] → ((s.dev.strand c i).keys.find? fun z => z.1 == k) = some (k, h) →
        s.dev.strandLast c i = some l → (s.dev.last l).st = .running → (s.dev.last l).pausing = none → Posts ⟨l, c, i, h.pc, insnWord h.opcode h.w⟩ s t)) ∧
    (∀ n : Word, s.dev.hubOn = true → let cfg := n &&& (regInfo (aKs k 0)).rw
      (x.st ≠ 1 → x.st ≠ 2 →
        (bitOf v 3 = false → bitOf n 3 = true → (ksLocal cfg ≠ 0 ∨ ksChildren cfg ≠ 0) → Yields (.ksCfgWrite k n) s fun t =>
          t.dev.ksCfg k = cfg ∧ t.dev.key k = Keystone.init) ∧
        (bitOf v 3 = true → bitOf n 3 = true → Yields (.ksCfgWrite k n) s fun t => t.dev.ksCfg k = cfg ∧ t.dev.key k = x) ∧
        (bitOf n 3 = false → Yields (.ksCfgWrite k n) s fun t => t.dev.ksCfg k = cfg ∧
          t.dev.key k = { x with st := 0, arrived := 0, next := 0, children := 0, waits := [] })) ∧
      ((x.st = 1 ∨ x.st = 2) → cfg ≠ v → Yields (.ksCfgWrite k n) s fun t => t.dev.ksCfg k = v ∧ t.dev.key k = x ∧ Raised [0x8001] s t)) ∧
    (∀ (c : CoreId) (i : StrandId) (l : LastId) (h : Held), (s.dev.strand c i).ftwait = some h → s.dev.strandLast c i = some l →
      (s.dev.last l).st = .running → (s.dev.last l).pausing = none → h.instant.toNat ≤ s.dev.hub.ftime.ft.toNat →
      Yields (.ftwaitInstant c i) s fun t => t.dev.strand c i = { s.dev.strand c i with ftwait := none } ∧
        Posts ⟨l, c, i, h.pc, insnWord h.opcode h.w⟩ s t)

/-- Collectives, the input recorder and CKP_BASE. COL_CMD start of a valid descriptor reads the rank list and the input
and runs the channel with its own part, where the packets that came early are of this collective; a rank list that
names another module gives error 3, an invalid descriptor its error, both with state 3 and event 0x5006; where a stack
that is to be read is asleep the channel runs and waits; while it runs a start is ignored. Data of a rank that is next
in its flow enters a reduction that runs, uncompressed or block by block; data of another collective fails the channel
with error 4; that data of a channel that does not run waits is the model's choice (log 69), as are the keys of the
partials, which follow its tree (log 21). COLLECTIVE_DONE writes the result and ends in state 2. RPL_CTL starts
recording or replay at the start of the ring; a stop leaves state 3, writes an end record behind the inputs of the
cycle (shown where there are none), once the stack of the ring is awake, or ends the replay with event 0x6005. A
recorded queue entry is pushed once fabric time has reached its instant, and the end record ends the replay. CKP_BASE
takes a region that overlaps no loaded last and is ignored while a checkpoint runs.
Rests on 09 (R266, R267, R268, R269, Table 9.14); 10 (R287, R288, R300, R302, Tables 10.3 and 10.12). -/
def Obligations.CollectivesAndRecorder : Prop :=
  ∀ (s : State), s.dev.hubOn = true →
    (∀ (ch : ChanId) (v : Word), let ws := (List.range 8).map fun i => s.dev.reg (aCol ch (8 * i))
      bitOf v 0 = true →
      let c := colDesc ws; let chan := fun (t : State) => t.dev.chan ch
      let own := leAt (s.dev.rdMem c.ranks (2 * c.nranks)) (2 * c.myrank) 2
      let read := ∀ r ∈ c.reads, s.dev.rangeAwake r.1 r.2 = true ∧ s.dev.rangeMapped r.1 r.2 = true
      ((chan s).st ≠ 1 → colCheck ws = 0 → read → own = s.dev.ownDev →
        (∀ p ∈ s.dev.hub.delivered, p.type = 9 → colChan p = ch → p.cid.toNat = c.cid) → Yields (.colStart ch v) s fun t =>
          (chan t).st = 1 ∧ (chan t).err = 0 ∧ (chan t).desc = ws ∧
          (partKey 0 c.myrank * 2 ^ 32, c.input (s.dev.rdMem c.src (c.count * c.size))) ∈ (chan t).parts) ∧
      ((chan s).st ≠ 1 → colCheck ws = 0 → read → own ≠ s.dev.ownDev → Yields (.colStart ch v) s fun t => (chan t).st = 3 ∧ (chan t).err = 3 ∧
        (s.dev.eccIn c.ranks (2 * c.nranks) = [] → Raised [0x5006] s t)) ∧
      ((chan s).st ≠ 1 → colCheck ws = 0 → (∃ r ∈ c.reads, s.dev.rangeAwake r.1 r.2 = false) → Yields (.colStart ch v) s fun t =>
        chan t = ⟨1, 0, ws, [], []⟩) ∧
      ((chan s).st ≠ 1 → colCheck ws ≠ 0 → Yields (.colStart ch v) s fun t => (chan t).st = 3 ∧ (chan t).err = colCheck ws ∧ Raised [0x5006] s t) ∧
      ((s.dev.chan ch).st = 1 → Yields (.colStart ch v) s fun t => t.dev.hub = s.dev.hub ∧ Raised [0x8001] s t)) ∧
    (∀ (p : Packet), p.type = 9 → (∀ q, s.dev.hub.delivered.find? (sameFlow p) = some q → q = p) →
      let x := s.dev.chan (colChan p); let c := colDesc x.desc
      (s.dev.colOn (colChan p) = true → p.cid.toNat ≠ c.cid → Yields (.col p) s fun t => (t.dev.chan (colChan p)).st = 3 ∧ (t.dev.chan (colChan p)).err = 4 ∧
        Raised [0x5006] s t) ∧
      (∀ r, s.dev.colOn (colChan p) = true → p.cid.toNat = c.cid → (List.range c.nranks).find? (fun r => x.ranks.getD r 0 == p.src) = some r →
        let key := if p.colLevel.toNat = 255 then partKey 255 0 else partKey p.colLevel.toNat r
        Yields (.col p) s fun t => (t.dev.chan (colChan p)).st = 1 ∧
          (p.compressed = false → (key * 2 ^ 32 + p.colOff.toNat, (chunk c.size p.data.length p.data).map leNat) ∈ (t.dev.chan (colChan p)).parts) ∧
          (p.compressed = true → ∀ i b, (colBlocks p (c.count - p.colOff.toNat))[i]? = some b → b.2.2 = false →
            (key * 2 ^ 32 + (p.colOff.toNat + 32 * i), decBlock b.1 b.2.1) ∈ (t.dev.chan (colChan p)).parts)) ∧
      (s.dev.colOn (colChan p) = false → Yields (.col p) s fun t => (∃ q ∈ t.dev.hub.delivered, asSent q = asSent p) ∧ t.dev.hub.chans = s.dev.hub.chans)) ∧
    (∀ (ch : ChanId) (bs : List Byte), let c := colDesc (s.dev.chan ch).desc
      s.dev.colOn ch = true → s.dev.colResult ch = some bs → c.notify = 0 → s.dev.rangeAwake c.dst bs.length = true → s.dev.pageFree c.dst = true →
      Yields (.collectiveDone ch) s fun t => (t.dev.chan ch).st = 2 ∧ t.dev.mem = (s.dev.rangePut 64 c.dst bs).1.mem ∧
        (s.dev.aocUp = true → dramBase ≤ c.dst → c.dst + bs.length ≤ dramBase + 0x4000000 → 1 ≤ bs.length →
          ∀ x, t.dev.byte x = if c.dst ≤ x ∧ x < c.dst + bs.length then bs.getD (x - c.dst) 0 else s.dev.byte x)) ∧
    (∀ v : Word,
      (s.dev.rplState ≠ 1 → s.dev.rplState ≠ 2 → fld v 0 2 = 1 → Yields (.rplRecordStart v) s fun t => t.dev.rplState = 1 ∧ t.dev.rplPos = 0 ∧
        t.dev.hub.recSeq = 0 ∧ t.dev.reg (aRpl 0x28) = s.dev.hub.ftime.ft) ∧
      (s.dev.rplState ≠ 1 → s.dev.rplState ≠ 2 → fld v 0 2 = 2 → Yields (.rplReplayStart v) s fun t => t.dev.rplState = 2 ∧ t.dev.rplPos = 0) ∧
      (fld v 0 2 = 0 →
        (s.dev.rplState = 1 → Yields (.rplStop v) s fun t => t.dev.rplState = 3 ∧ t.dev.regFld (aRpl 0) 0 2 = 0 ∧
          (s.dev.now.recs = [] → s.dev.hub.recQ = [] →
            let a := s.dev.rplBase + s.dev.rplPos; let r := rplBytes s.dev.hub.ftime.ft s.dev.hub.recSeq.toNat 7 0 []
            (s.dev.rangeAwake a 32 = true → s.dev.rangeMapped a 32 = true → t.dev.rdMem a 32 = r ∧ t.dev.hub.recQ = []) ∧
            (s.dev.rangeAwake a 32 = false → t.dev.hub.recQ = [(a, r)]))) ∧
        (s.dev.rplState = 2 → Yields (.rplStop v) s fun t => t.dev.rplState = 3 ∧ t.dev.regFld (aRpl 0) 0 2 = 0 ∧ Raised [0x6005] s t))) ∧
    (let a := s.dev.rplBase + s.dev.rplPos; let h := s.dev.rdMem a 32
      s.dev.rplState = 2 → s.dev.hub.recQ = [] → s.dev.rplPos + 32 ≤ s.dev.rplSize → s.dev.rangeMapped a 32 = true → s.dev.rangeAwake a 32 = true →
      (BitVec.ofNat 64 (leAt h 0 8) + s.dev.reg (aRpl 0x20)).toNat ≤ s.dev.hub.ftime.ft.toNat →
      (leAt h 12 1 % 16 = 7 → Yields .rplInject s fun t => t.dev.rplState = 3 ∧ (s.dev.eccIn a 32 = [] → Raised [0x6005] s t)) ∧
      ∀ (q : QueueId) (n : BitVec 16), let cfg := s.dev.reg (aQue q 0x1000); let e := QEntry.ofBytes (s.dev.rdMem (a + 32) n.toNat) (s.dev.queue q).seq
        (leAt h 12 1 % 16 = 2 ∨ leAt h 12 1 % 16 = 3) → leAt h 13 1 = q.val → leAt h 14 2 = n.toNat → s.dev.rangeMapped (a + 32) n.toNat = true →
        s.dev.rangeAwake (a + 32) n.toNat = true → bitOf cfg 0 = true → s.dev.queFull q = false → (s.dev.queue q).waiting = [] → s.dev.queTaken q = false → s.dev.now.pushed.any (fun p => p.1 == q) = false →
        (e.eop = true → bitOf cfg 6 = true → ∃ u w, s.dev.targetOf (s.dev.reg (aQue q 0x1010)) = .away u w) → Yields .rplInject s fun t =>
          (t.dev.queEntries q).getLast? = some e ∧ (t.dev.queue q).count = (s.dev.queue q).count + 1 ∧
          t.dev.rplPos = s.dev.rplPos + 32 + 32 * ceilDiv n.toNat 32) ∧
    (∀ v : Word, let st := s.dev.regFld (aCkp 8) 0 3
      ((st = 0 ∨ 6 ≤ st) → (bitOf v 39 = false ∨ s.dev.ckpOverlaps (fld v 0 39) = false) →
        Yields (.ckpBaseWrite v) s (WritesReg (aCkp 0) ((s.dev.reg (aCkp 0) &&& ~~~0xFFFFFFFFFF) ||| (v &&& 0xFFFFFFFFFF)) s)) ∧
      (1 ≤ st → st ≤ 5 → Yields (.ckpBaseWrite v) s fun t => t.dev.regs = s.dev.regs ∧ Raised [0x8001] s t))

/-- Targets, wakes, drains, self-refresh, idle expiry and the governor. A target set to ON wakes an OFF hub, where no
automatic change names it in this cycle, and an OFF core; OFF drains a free core and is refused for one in use. A wake
completes where the domains that it requires are ON and is held otherwise; it leaves a core in its reset state. A
drain that completes leaves its domain OFF, a core with nothing in it. A stack enters SELF-REFRESH and leaves it when
its move ends. A domain whose transition completed moves on in the following cycle: one that is OFF with a target of
ON wakes, and a stack starts back where its written target changed on the way or an access met it there, and stays ON
where an access returned it. A free idle core, an idle stack and an idle die start on their way down, unless their
target was written in this cycle. At a multiple of 256 cycles a die's activity account is its effective budget. With a
condition the governor rises by one level, up to 15, from 0 with event 0x2002; without one, and the power low, it
falls by one, to 0 with event 0x2003; below 40 V it is at 15. That the idle times have passed is what the commands say
(log 32), HBM_IDLE_EXPIRY acts on a stack whose target is SELF-REFRESH too (log 43), and a target write of the same
cycle wins over the policy also where it leaves the field as it was (log 55).
Rests on 12 (R326, R328, R330, R331, R332, R334, R335, Tables 12.4, 12.6 and 12.13). -/
def Obligations.PowerDomains : Prop :=
  ∀ (s : State), s.dev.aocUp = true →
    (s.dev.dom .hub = .off → s.dev.target .hub = 0 → Dom.hub ∉ s.dev.now.autos → Dom.hub ∉ s.dev.now.exams →
        Yields (.domainTargetWrite (setFld (s.dev.reg aDomTgt) 0 1 1)) s fun t =>
      t.dev.dom .hub = .waking ∧ t.dev.target .hub = 2) ∧
    (∀ c : CoreId, let x : Dom := .core c; let h : Fin 2 := finOf 1 (c.val / 64)
      let put := fun (b : Nat) => Instr.coreTargetWrite h (setFld (s.dev.reg (aCore h.val)) (c.val % 64) 1 b)
      (s.dev.dom x = .off → s.dev.target x = 0 → x ∉ s.dev.now.exams → Yields (put 1) s fun t => t.dev.dom x = .waking ∧ t.dev.target x = 2) ∧
      (s.dev.dom x = .on → s.dev.target x = 2 →
        (s.dev.coreFree c = true → x ∉ s.dev.now.exams → Yields (put 0) s fun t => t.dev.dom x = .draining ∧ t.dev.target x = 0) ∧
        (s.dev.coreFree c = false → Yields (put 0) s fun t => t.dev.dom x = .on ∧ t.dev.target x = 2) ∧
        (s.dev.regFld (aPwr 0x80) 0 16 ≠ 0 → s.dev.coreFree c = true →
          (x ∉ s.dev.now.tgts → x ∉ s.dev.now.exams → Yields (.coreIdleExpiry c) s fun t => t.dev.dom x = .draining ∧ t.dev.target x = 0) ∧
          (x ∈ s.dev.now.tgts → Yields (.coreIdleExpiry c) s fun t => t = s)))) ∧
    (∀ x : Dom, s.dev.dom x = .waking →
      ((∀ y ∈ domNeeds x, s.dev.dom y = .on) → Yields (.wakeComplete x) s fun t => t.dev.dom x = .on ∧ x ∈ t.dev.now.exams ∧
        ∀ c, x = .core c → (t.dev.core c).strands = Core.init.strands ∧ (t.dev.core c).tallies = Core.init.tallies ∧
          t.dev.reg (aSeqCtl c) = regReset (aSeqCtl c)) ∧
      ((∃ y ∈ domNeeds x, s.dev.dom y ≠ .on) → Yields (.wakeComplete x) s fun t => t = s)) ∧
    (∀ x : Dom, x ∉ s.dev.now.exams → s.dev.moves x = false → s.dev.dom x = .off → s.dev.target x = 2 → (s.dev.examineNext x).dom x = .waking) ∧
    (∀ x : Dom, s.dev.dom x = .draining → Yields (.drainComplete x) s fun t => t.dev.dom x = .off ∧ x ∈ t.dev.now.exams ∧
      ∀ c, x = .core c → t.dev.core c = Core.init) ∧
    (∀ m : StackId, let x : Dom := .stack m; let back := s.dev.aoc.doms.back
      (m ∈ s.dev.aoc.doms.moving →
        (s.dev.dom x = .on → Yields (.selfRefreshTransition m) s fun t =>
          t.dev.dom x = .selfRefresh ∧ m ∉ t.dev.aoc.doms.moving ∧ t.dev.aoc.doms.back = back ∧ x ∈ t.dev.now.exams) ∧
        (s.dev.dom x = .selfRefresh → Yields (.selfRefreshTransition m) s fun t =>
          t.dev.dom x = .on ∧ m ∉ t.dev.aoc.doms.moving ∧ t.dev.aoc.doms.back = back ∧ x ∈ t.dev.now.exams)) ∧
      (x ∉ s.dev.now.exams → m ∈ back →
        (s.dev.dom x = .selfRefresh → s.dev.target x = 2 → m ∈ (s.dev.examineNext x).aoc.doms.moving) ∧
        (s.dev.dom x = .on → s.dev.target x = 1 → m ∈ (s.dev.examineNext x).aoc.doms.moving)) ∧
      (m ∈ s.dev.aoc.doms.woken → s.dev.dom x = .selfRefresh → s.dev.target x ≠ 0 → m ∈ (s.dev.examineNext x).aoc.doms.moving) ∧
      (m ∉ back → s.dev.dom x = .on → s.dev.target x ≠ 0 → (s.dev.examineNext x).aoc.doms.moving = s.dev.aoc.doms.moving) ∧
      (s.dev.regFld (aPwr 0x80) 16 16 ≠ 0 → s.dev.dom x = .on → s.dev.target x ≠ 0 → x ∉ s.dev.now.tgts → Yields (.hbmIdleExpiry m) s fun t =>
        m ∈ t.dev.aoc.doms.moving ∧ t.dev.dom x = .on)) ∧
    (∀ i : DieId, s.dev.regFld (aPwr 0x80) 32 16 ≠ 0 → s.dev.dom (.die i) = .on → s.dev.target (.die i) = 2 → s.dev.offAllowed (.die i) = true →
      Dom.die i ∉ s.dev.now.tgts → Dom.die i ∉ s.dev.now.exams → Yields (.dieIdleExpiry i) s fun t => t.dev.dom (.die i) = .draining ∧ t.dev.target (.die i) = 0) ∧
    (∀ i : DieId, s.dev.hubOn = true → s.dev.hub.ftime.ft.toNat % 256 = 0 → Yields (.activityWindow i) s fun t =>
      t.dev.aoc.gov.units.get i = s.dev.budget i ∧ ∀ j, j ≠ i → t.dev.aoc.gov.units.get j = s.dev.aoc.gov.units.get j) ∧
    (∀ r : Sensors, let g := s.dev.aoc.gov.level
      let cond := s.dev.powerCap < r.power.toNat ∨ 95 ≤ r.tdie.toNat ∨ r.volt.toNat < 42000
      (cond → g ≤ 15 → Yields (.governorRaise r) s fun t => t.dev.aoc.gov.level = min 15 (g + 1) ∧ (g = 0 → Raised [0x2002] s t)) ∧
      (¬ cond → Yields (.governorRaise r) s fun t => t.dev.aoc.gov.level = g) ∧
      (¬ cond → 0 < g → 100 * r.power.toNat ≤ 95 * s.dev.powerCap → Yields (.governorLower r) s fun t => t.dev.aoc.gov.level = g - 1 ∧
        Raised (if g = 1 then [0x2003] else []) s t)) ∧
    (∀ mV : BitVec 16, mV.toNat < 40000 → s.dev.aoc.gov.level ≤ 15 → Yields (.hardGovernorThreshold mV) s fun t => t.dev.aoc.gov.level = 15)

/-- ARR_CTL and BED_CTL keep the assignment of a unit in use. With the core ON, a write of ARR_CTL_a that changes the
owner or the enable of a half that is busy, draining or has a nonempty queue changes no register and records event
0x8001; one that changes only a half with none of these takes effect. A write of BED_CTL_a does the same for a tile
that is busy or has pending operations. No byte of memory changes.
Formalises R88; R111. -/
def Obligations.AssignmentsAreGuarded : Prop :=
  ∀ (s : State) (c : CoreId) (a : ArrayId) (v : Word), s.dev.coreOn c = true →
    let guarded := fun (i : Instr) (x n : Nat) (mask : Word) (used : Nat → Prop) =>
      let hit := ∃ u, u < n ∧ used u ∧ fld v (4 * u) 4 ≠ fld (s.dev.reg x) (4 * u) 4
      (hit → Yields i s fun t => t.dev.regs = s.dev.regs ∧ Raised [0x8001] s t ∧ (∀ y, t.dev.byte y = s.dev.byte y) ∧ t.dev.cores = s.dev.cores) ∧
      (¬ hit → Yields i s (WritesReg x ((s.dev.reg x &&& ~~~mask) ||| (v &&& mask)) s))
    guarded (.arrCtlWrite c a v) (aArrCtl c a) 2 0xFF (fun u => s.dev.halfBusy c a (finOf 1 u) = true ∨
      (s.dev.half c a (finOf 1 u)).drainEnd.isSome = true ∨ s.dev.queueOf c (.half a (finOf 1 u)) ≠ []) ∧
    guarded (.bedCtlWrite c a v) (aBedCtl c a) 4 0xFFFF (fun u => s.dev.tileOps c a (finOf 3 u) ≠ [])

/-- Start-up from power good to compute service, standing programs, protective resets and power loss. A protective reset,
an over-voltage and a power loss lose the volatile state, keep flash but for a byte that is being programmed in their
cycle, and leave the cause; brown-out and thermal trip hold start-up off, and the trip ends when the dies have cooled.
POWER_GOOD starts the AOC; the mask ROM starts firmware exactly when a copy verifies and enters recovery otherwise;
the regenerated RSA key is kept, and goes wrapped to the key cache (its layout is the model's, log 10); keeper
service, the self-test and compute service follow, and failed cores are OUT. The first entry that waits for boot
coursing loads when coursing has ended, or is abandoned with event 0x3004 where its signature fails; it waits no more.
A stopped standing last is loaded again, or abandoned at its limit. Both are shown where no other standing load is on
its way. That KEEPER_SERVICE_READY wakes an OFF hub is deduced (log 43); that the time of the watchdog has passed is
what its command says (log 32).
Rests on 12 (R336, R337, R338, R339); 13 (R351, R357, R358); 11 (R320, R321); 16 (R403, R404). -/
def Obligations.StartUpAndStops : Prop :=
  ∀ (s : State),
    let down := fun (stage : Stage) (cause : Nat) (t : State) => t.dev.aoc.trust.stage = stage ∧ t.dev.regFld (aPwr 0) 8 3 = cause ∧
      t.dev.lasts = Vector.replicate 8 Last.init ∧ t.dev.cores = Vector.replicate 128 Core.init ∧ t.dev.ops = [] ∧ t.dev.hub = Hub.init ∧
      t.pending = s.pending ∧ t.dev.otp = s.dev.otp ∧ ∀ a, flashBase ≤ a → a < dramBase → t.dev.byte a = if a ∈ s.dev.now.valid then 0xFF else s.dev.byte a
    let trust := s.dev.aoc.trust
    (s.dev.powered = true → Yields .brownOut s fun t => down .unpowered 2 t ∧ t.dev.aoc.trust.heldOff = some 2) ∧
    (trust.stage ≠ .unpowered → Yields .thermalTrip s fun t => down .unpowered 3 t ∧ t.dev.aoc.trust.heldOff = some 3) ∧
    (trust.stage ≠ .unpowered → trust.stage ≠ .good → Yields .watchdogExpiry s (down .good 4)) ∧
    Yields .overVoltage s (down .unpowered 1) ∧ Yields .powerLoss s (down .unpowered 1) ∧
    (trust.heldOff = some 3 → Yields .thermalResume s fun t => t.dev.aoc.trust.stage = .good ∧ t.dev.aoc.trust.heldOff = none) ∧
    (trust.stage = .unpowered → trust.heldOff ≠ some 3 → Yields .powerGood s fun t => t.dev.aoc.trust.stage = .good ∧
      t.dev.aoc.trust.heldOff = none) ∧
    (trust.stage = .good → trust.resA = 0 → trust.resB = 0 → Yields .maskRomBoot s fun t => let u := t.dev.aoc.trust
      (u.stage = .firmware ∧ (u.resA = 15 ∨ u.resB = 15)) ∨ (u.stage = .recovery ∧ u.resA ≠ 0 ∧ u.resA ≠ 15 ∧ u.resB ≠ 0 ∧ u.resB ≠ 15)) ∧
    (trust.regenerating = true → Yields .rsaRegenerationComplete s fun t => t.dev.aoc.trust.regenerating = false ∧
      (t.dev.aoc.trust.ident = 1 ∨ t.dev.aoc.trust.ident = 3) ∧ t.dev.regs = s.dev.regs ∧
      ∀ k, rsaGenerate (hkdf384 trust.seed (label "QT8850 rsa") 48) = some k → t.dev.aoc.trust.rsaKey = some k ∧
        let w := gcmWrap (wrapKey trust.seed) ((Dev.freeBytes 2 s.dev).1.take 12) (beBytes 192 k.p ++ beBytes 192 k.q)
        t.dev.flash 0x50000 w.length = w) ∧
    (trust.stage = .firmware → Yields .keeperServiceReady s fun t => t.dev.aoc.trust.stage = .keeper ∧ t.dev.regFld (aPwr 0) 0 2 = 1 ∧
      t.dev.aoc.presentDriven = true ∧ (s.dev.dom .hub = .off → Dom.hub ∉ s.dev.now.exams → t.dev.dom .hub = .waking)) ∧
    (∀ r : SelfTest, trust.stage = .keeper → s.dev.hubOn = true → (∀ i, s.dev.dom (.die i) = .on) → (∀ c, s.dev.dom (.core c) = .on) →
      (∀ m, s.dev.dom (.stack m) = .on) → Yields (.selfTestComplete r) s fun t => t.dev.aoc.trust.stage = .tested ∧
        ∀ c, coreGone r c = true → t.dev.dom (.core c) = .out) ∧
    (trust.stage = .tested → s.dev.computeUnits = true → Yields .computeServiceReady s fun t => t.dev.aoc.trust.stage = .compute ∧
      t.dev.regFld (aPwr 0) 0 2 = 2) ∧
    (∀ e : StandId,
      let x := standEntry s.dev.aoc.svc e
      let raw := s.dev.flash (leAt x 0 4) (leAt x 4 4)
      let map := s.dev.flash (leAt x 8 4) (imgCores raw)
      let i := parseImage raw map (leAt x 16 8)
      let l := last_of (leAt x 12 1)
      let idle := trust.standQ = [] ∧ ∀ k, (s.dev.last k).loading.any (fun y => y.2.1.isNone) = false
      let loads := fun (d : Dev) => d.standingCode (d.provBody 1) d.aoc.svc e.val = 0 ∧ leAt x 12 1 ≤ 7 ∧ d.imagePlace (flashBase + leAt x 0 4) (leAt x 4 4) = true ∧
        imageOk raw map = true ∧ leAt raw 6 1 = 2 ∧ d.loadCheck l i = 0
      (trust.stage = .compute → idle → trust.awaiting.head? = some e → (s.dev.hub.crs.state = 6 ∨ s.dev.hub.crs.state = 7) →
        (loads s.dev → Yields (.standingLaunchAfterCoursing e) s fun t => t.dev.aoc.trust.awaiting = trust.awaiting.tail ∧
          (t.dev.last l).loading = some (i, none, raw) ∧ (t.dev.last l).standing = some ⟨e, 0, true⟩) ∧
        (s.dev.standingCode (s.dev.provBody 1) s.dev.aoc.svc e.val ≠ 0 → Yields (.standingLaunchAfterCoursing e) s fun t =>
          t.dev.aoc.trust.awaiting = trust.awaiting.tail ∧ t.dev.lasts = s.dev.lasts ∧ Raised [0x3004] s t)) ∧
      (∀ (k : LastId) (y : Standing), s.dev.standLast e = some k → (s.dev.last k).standing = some y → y.watched = true →
        (s.dev.last k).st = .stopped → s.dev.lastQuiet k = true → idle →
        (y.restarts < leAt x 14 1 → loads (s.dev.unload k) → Yields (.standingRestart e) s fun t =>
          (t.dev.last l).loading = some (i, none, raw) ∧ (t.dev.last l).standing = some ⟨e, y.restarts + 1, true⟩) ∧
        (leAt x 14 1 ≤ y.restarts → Yields (.standingRestart e) s fun t => t.dev.last k = Last.init ∧ Raised [0x3004] s t)))

/-- Shared lines, SMBus, the plumb unit, counters and the event recorder. Outside a replay of pin edges a falling SYNC
edge stores fabric time, a falling PLUMB_N edge takes a plumb trigger and PRESENT_N is sensed, and each is noted for
the recording; during one an edge only raises event 0x6003. SYNC is driven for 1 400 cycles, from keeper service on. A
write of trig and the armed instant take a trigger, and a trigger within two cycles of the last one merges with it.
SMBus gives its UDID and takes its address (deduced, log 44), and each command of Table 12.11 is answered, with its
PEC (presumed, log 44), and any other one not. A release frees the plumb unit, and a trigger of its cycle that found a
snapshot held is taken (in either order, deduced, log 56, as is that hold 0 ends a hold); PLB_AT arms and disarms, and
an instant that has passed triggers in the next cycle; a clear marks its page for the end of the cycle. An event is
accepted under the next number or counted as lost, its record is written to its slot once its trigger is settled (log
56), a life entry comes 60 s after the one before (its time is what the command says, log 32), and the cursor copies
its record.
Rests on 12 (R342, R343, Table 12.11); 16 (R408); 14 (R374, R375, R378, R380, R381, R383, R385); 10 (R285, R289). -/
def Obligations.PinsAndObservation : Prop :=
  ∀ (s : State), let r := s.dev.aoc.rcd; let plumb := s.dev.hub.plumb
    let taken := fun (src tag : Nat) (t : State) => t.dev.hub.plumb.taken = some s.dev.cycle ∧ t.dev.hub.plumb.src = src ∧ t.dev.hub.plumb.tag = tag
    let apart := s.dev.hubOn = true ∧ ∀ n, plumb.taken = some n → n + 2 < s.dev.cycle
    let free := bitOf (s.dev.reg (aPlb 8)) 0 = false
    let noted := fun (code lvl : Nat) (t : State) => t.dev.now.recs =
      if s.dev.rplState = 1 ∧ bitOf (s.dev.reg (aRpl 0)) 6 = true then recInsert (4, code, [BitVec.ofNat 8 lvl]) s.dev.now.recs else s.dev.now.recs
    let ignored := fun (i : Instr) => Yields i s fun t => Raised [0x6003] s t ∧ t.dev.regs = s.dev.regs ∧ t.dev.hub = s.dev.hub ∧
      t.dev.aoc.presentN = s.dev.aoc.presentN
    (s.dev.serves = true → s.dev.replaying 4 = false →
      Yields .syncEdge s (fun t => t.dev.reg (aPwr 0xB8) = (if s.dev.hubOn then s.dev.hub.ftime.ft else 0) ∧
        (∀ a, a ≠ aPwr 0xB8 → t.dev.reg a = s.dev.reg a) ∧
        t.dev.aoc.syncIn = some (s.dev.cycle + 1400) ∧ noted 0 0 t) ∧
      (∀ b, Yields (.presentNEdge b) s fun t => t.dev.aoc = { s.dev.aoc with presentN := b } ∧ t.dev.regs = s.dev.regs ∧ noted 2 (b2n b) t) ∧
      Yields (.plumbNEdge true) s (fun t => t.dev.aoc = { s.dev.aoc with plumbIn := true } ∧ t.dev.hub = s.dev.hub ∧ noted 1 1 t) ∧
      (apart → free → bitOf (s.dev.reg (aPwr 0xA8)) 2 = true → s.dev.aoc.plumbLow = none → Yields (.plumbNEdge false) s fun t => taken 4 0 t ∧
        t.dev.aoc.plumbIn = false ∧ noted 1 0 t)) ∧
    (s.dev.serves = true → s.dev.replaying 4 = true → ignored .syncEdge ∧ ∀ b, ignored (.plumbNEdge b) ∧ ignored (.presentNEdge b)) ∧
    (let sent := fun (addr cmd : Nat) (count bs : List Byte) =>
        Out.smbus cmd bs (pec (leBytes 1 (2 * addr) ++ leBytes 1 cmd ++ leBytes 1 (2 * addr + 1) ++ count ++ bs))
     (s.dev.serves = true → ∀ a, let bs := smbUdid ++ leBytes 1 (match s.dev.aoc.smbAddr with
          | some x => 2 * x.toNat + 1
          | none => 0xFF)
        Yields (.smbusAddressResolution a) s fun t =>
          t = { s with dev := (s.dev.emit (sent 0x61 3 (leBytes 1 bs.length) bs)).updAoc fun x => { x with smbAddr := some a } }) ∧
     ∀ a, s.dev.serves = true → s.dev.aoc.smbAddr = some a →
      let answers := fun (i : Instr) (cmd : Nat) (bs : List Byte) => Yields i s fun t =>
        t = { s with dev := s.dev.emit (sent a.toNat cmd (if cmd = 1 then leBytes 1 bs.length else []) bs) }
      answers .smbusReadStatus 0 (leBytes 1 (s.dev.regFld (aPwr 0) 0 2 + 4 * b2n (s.dev.aoc.gov.level != 0) + 8 * b2n s.dev.anyOut)) ∧
      answers .smbusReadSerial 1 (leBytes 8 Config.serial.toNat) ∧ answers .smbusReadRevision 2 [2] ∧
      answers .smbusReadInputPower 0x10 (leBytes 2 (s.dev.regFld (aPwr 0xA0) 0 16)) ∧
      answers .smbusReadInputVoltage 0x11 (leBytes 2 (s.dev.regFld (aPwr 0xA0) 16 16)) ∧
      answers .smbusReadDieTemperature 0x12 (leBytes 1 (s.dev.regFld (aPwr 0xA0) 32 8)) ∧
      answers .smbusReadHbmTemperature 0x13 (leBytes 1 (s.dev.regFld (aPwr 0xA0) 40 8)) ∧
      answers .smbusReadGovernorLevel 0x14 (leBytes 1 s.dev.aoc.gov.level)) ∧
    (∀ b, Yields (.smbusOtherCommand b) s fun t => t = s) ∧
    (∀ v : Word,
      (s.dev.aocUp = true → bitOf v 0 = true →
        (s.dev.serves = true → Yields (.syncPulse v) s fun t => t.dev.out = s.dev.out ++ [.sync] ∧ t.dev.aoc.syncLow = some (s.dev.cycle + 1400)) ∧
        (s.dev.serves = false → Yields (.syncPulse v) s fun t => t.dev.out = s.dev.out ∧ t.dev.aoc = s.dev.aoc)) ∧
      (apart → s.dev.now.trigs = [] → (free ∨ bitOf v 1 = true ∨ bitOf v 0 = false) → bitOf v 2 = true → Yields (.plbTrig v) s (taken 32 (fld v 16 16))) ∧
      (∀ n, s.dev.hubOn = true → plumb.taken = some n → s.dev.cycle ≤ n + 2 → s.dev.now.trigs = [] → bitOf v 2 = true → Yields (.plbTrig v) s fun t =>
        t.dev.hub.plumb.taken = some n ∧ t.dev.hub.plumb.src = plumb.src ||| 32) ∧
      (s.dev.hubOn = true → s.dev.now.trigs = [] → (bitOf v 1 = true ∨ bitOf v 0 = false) → bitOf v 2 = false → Yields (.plbRelease v) s fun t =>
        bitOf (t.dev.reg (aPlb 8)) 0 = false) ∧
      (apart → ¬ free → bitOf v 1 = false → bitOf v 0 = true → bitOf v 2 = true → Yields (.plbTrig v) s fun t =>
        t.dev.hub.plumb = plumb ∧ t.dev.now.trigs = s.dev.now.trigs ++ [(5, fld v 16 16, none)]) ∧
      (∀ b g n, apart → s.dev.now.trigs = [(b, g, n)] → bitOf v 1 = true → bitOf v 2 = false → Yields (.plbRelease v) s fun t => taken (2 ^ b) g t ∧
        t.dev.aoc.rcd.pend = (s.dev.flagRecord n).aoc.rcd.pend) ∧
      (s.dev.hubOn = true → (v = 0 ∨ s.dev.hub.ftime.ft.toNat < v.toNat) → Yields (.plbAtWrite v) s (WritesReg (aPlb 0x10) v s)) ∧
      (s.dev.hubOn = true → v ≠ 0 → v.toNat ≤ s.dev.hub.ftime.ft.toNat → Yields (.plbAtWrite v) s fun t => t.dev.reg (aPlb 0x10) = 0 ∧
        t.dev.hub.plumb.raised = plumb.raised ++ [(s.dev.cycle + 1, 3, fld v 0 16)] ∧ bitOf (t.dev.reg (aPlb 8)) 1 = true) ∧
      (let clears := fun (g : CntPage) (base : Nat) => Yields (.cntClear g v) s fun t =>
          t.dev.now.clrs = (if bitOf v 1 then base :: s.dev.now.clrs else s.dev.now.clrs) ∧ bitOf (t.dev.reg (base + 0x7F8)) 0 = bitOf v 0;
        (∀ c : CoreId, s.dev.coreOn c = true → clears (.core c) (aCnt c 0)) ∧ (s.dev.hubOn = true → clears .hub (aHcnt 0)) ∧
        (s.dev.aocUp = true → clears .aon (aAcnt 0))) ∧
      (s.dev.aocUp = true → Yields (.evrCurWrite v) s fun t => fld (t.dev.reg (aEvr 0x10)) 0 33 = fld v 0 33 ∧
        t.dev.aoc.rcd.buf = r.fetch (fld v 0 32))) ∧
    (apart → free → s.dev.reg (aPlb 0x10) ≠ 0 → (s.dev.reg (aPlb 0x10)).toNat ≤ s.dev.hub.ftime.ft.toNat → Yields .plbAtFire s fun t =>
      taken 8 (fld (s.dev.reg (aPlb 0x10)) 0 16) t ∧ t.dev.reg (aPlb 0x10) = 0) ∧
    (s.dev.aocUp = true → s.dev.pageFree (aEvr 0x78) = false → Yields .evrWindowAdvance s fun t => t = s) ∧
    (s.dev.aocUp = true → s.dev.pageFree (aEvr 0x78) = true → bitOf (s.dev.reg (aEvr 0x10)) 32 = true → Yields .evrWindowAdvance s fun t =>
      let n := (s.dev.regFld (aEvr 0x10) 0 32 + 1) % 2 ^ 32
      t.dev.regFld (aEvr 0x10) 0 32 = n ∧ t.dev.aoc.rcd.buf = r.fetch n ∧ t.dev.out = s.dev.out ++ [.readBack (aEvr 0x78) (s.dev.viewBytes (aEvr 0x78) 8)]) ∧
    (s.dev.aocRuns = true →
      (∀ e rest, r.raised = e :: rest → bitOf (s.dev.reg (aPlb 0x18)) 32 = false →
        (r.pend.length < 1024 → (256 ≤ r.next ∨ (s.dev.rdMem (recBase + 64 * r.next) 64).all (· == 0xFF) = true) →
          Yields .eventAccept s fun t => t.dev.aoc.rcd.raised = rest ∧ t.dev.aoc.rcd.next = r.next + 1 ∧ t.dev.aoc.rcd.pend = r.pend ++
            [(r.next, recordBytes r.next r.secs r.cycles e (e.notice.isSome && s.dev.aoc.subs.toList.any fun x => x.en))]) ∧
        (1024 ≤ r.pend.length → Yields .eventAccept s fun t => t.dev.aoc.rcd.raised = rest ∧ t.dev.aoc.rcd.pend = r.pend ∧
          t.dev.aoc.rcd.lost = r.lost + 1)) ∧
      (∀ p rest, r.pend = p :: rest → (∃ x ∈ s.dev.now.trigs, x.2.2 = some p.1) → Yields .eventRecordWrite s fun t => t = s) ∧
      (∀ p rest, r.pend = p :: rest → (∀ x ∈ s.dev.now.trigs, x.2.2 ≠ some p.1) → p.2.length = 64 → r.lost = 0 →
        (p.1 < 256 → Yields .eventRecordWrite s fun t => t.dev.aoc.rcd.pend = rest ∧ t.dev.aoc.rcd.kept = r.kept ++ [p] ∧
          t.dev.rdMem (recBase + 64 * p.1) 64 = p.2) ∧
        (256 ≤ p.1 → Yields .eventRecordWrite s fun t => t.dev.aoc.rcd.pend = rest ∧ t.dev.aoc.rcd.kept = r.kept ++ [p] ∧
          t.dev.rdMem (recBase + 0x30000 + 64 * r.slot) 64 = p.2 ∧ t.dev.aoc.rcd.slot = (r.slot + 1) % ringSlots)) ∧
      Yields .lifeCounterWrite s fun t => (let n := max r.secs (match r.life with
        | some e => e.2 + 60
        | none => r.secs + 60)
        t.dev.aoc.rcd.secs = n ∧ t.dev.aoc.rcd.life = some (r.cycles, n)))

/-- STEAL_ROUND moves movable groups within its die. A steal round changes neither memory nor lasts nor strands; no
operation is lost, and every one after it is one from before, with the same number, word, strand and last, and either
where it was or on a core of the round's die from this cycle on and no longer movable. Where a single array of the die
is an eligible thief, before and after its turn, the round is that thief's turn. A group that moves to a thief has all
its operations on the thief's array, and no other operation moves.
Rests on 06 (R165, R167, R168). -/
def Obligations.StealingMovesGroups : Prop :=
  ∀ (s : State) (die : DieId),
    (Yields (.stealRound die) s fun t => t.pending = s.pending ∧ t.dev.mem = s.dev.mem ∧ t.dev.lasts = s.dev.lasts ∧
      (∀ c k, t.dev.strand c k = s.dev.strand c k) ∧ (∀ p ∈ s.dev.ops, ∃ o ∈ t.dev.ops, o.id = p.id) ∧
      ∀ o ∈ t.dev.ops, ∃ p ∈ s.dev.ops, ∃ e a ts gr b n, o = { p with ecore := e, earray := a, tiles := ts, group := gr, began := b, noCls := n } ∧
        ((e = p.ecore ∧ a = p.earray ∧ ts = p.tiles ∧ gr = p.group ∧ b = p.began) ∨ (dieOf e = die ∧ b = s.dev.cycle ∧ ∃ n, gr = some (n, false)))) ∧
    (∀ (c : CoreId) (a : ArrayId), dieOf c = die →
      (∀ c' a', dieOf c' = die → (c' ≠ c ∨ a' ≠ a) → s.dev.thiefFor c' a' = none ∧ (s.dev.stealFor die c a).thiefFor c' a' = none) →
      Yields (.stealRound die) s fun t => t = { s with dev := s.dev.stealFor die c a }) ∧
    (∀ (v c : CoreId) (va a : ArrayId) (g : Nat × StrandId) (l : LastId) (d : Dev), s.dev.moveGroup v va g c a l = some d →
      (∀ o ∈ s.dev.groupOps v g, ∃ p ∈ d.ops, p.id = o.id ∧ p.ecore = c ∧ p.earray = a ∧ p.w = o.w) ∧
      (∀ o ∈ s.dev.ops, (∀ p ∈ s.dev.groupOps v g, p.id ≠ o.id) → ∃ b, { o with noCls := b } ∈ d.ops))
end

