-- ==== Sys2Proof/Laws/Sparse.lean ====
section
/-!
SUPPORT. Reading after writing in sparse data, and that every operation keeps the canonical form.
-/

namespace Sys2Proof.Machine

variable {α : Type} [DecidableEq α] {d : Nat → α} {m : List (Nat × α)} {k j lo : Nat} {v : α}

omit [DecidableEq α] in
@[simp] theorem sget_nil : sget d [] k = d k := rfl

@[simp] theorem swf_nil : swf d [] = true := rfl

theorem swfFrom_mono (h : swfFrom d j m = true) (hl : lo ≤ j) : swfFrom d lo m = true := by
  cases m with
  | nil => rfl
  | cons e t =>
    simp only [swfFrom, Bool.and_eq_true, decide_eq_true_eq] at h ⊢
    exact ⟨⟨le_trans hl h.1.1, h.1.2⟩, h.2⟩

omit [DecidableEq α] in
theorem sget_sdrop_same : sget d (sdrop k m) k = d k := by
  induction m with
  | nil => rfl
  | cons e t ih =>
    unfold sdrop at ih ⊢
    simp only [List.filter_cons]
    by_cases he : e.1 = k
    · simpa [he] using ih
    · simpa [he, sget] using ih

omit [DecidableEq α] in
theorem sget_sdrop_other (hj : j ≠ k) : sget d (sdrop k m) j = sget d m j := by
  induction m with
  | nil => rfl
  | cons e t ih =>
    unfold sdrop at ih ⊢
    simp only [List.filter_cons]
    by_cases he : e.1 = k
    · have : e.1 ≠ j := fun x => hj (x.symm.trans he)
      simpa [he, sget, Ne.symm hj] using ih
    · simp only [bne_iff_ne, ne_eq, he, not_false_eq_true, if_true, sget, ih]

theorem swfFrom_filter (p : Nat × α → Bool) (h : swfFrom d lo m = true) : swfFrom d lo (m.filter p) = true := by
  induction m generalizing lo with
  | nil => rfl
  | cons e t ih =>
    simp only [swfFrom, Bool.and_eq_true, decide_eq_true_eq] at h
    simp only [List.filter_cons]
    split
    · simp only [swfFrom, Bool.and_eq_true, decide_eq_true_eq]
      exact ⟨h.1, ih h.2⟩
    · exact swfFrom_mono (ih h.2) (by omega)

theorem swfFrom_sset (h : swfFrom d lo m = true) (hk : lo ≤ k) : swfFrom d lo (sset d m k v) = true := by
  induction m generalizing lo with
  | nil =>
    simp only [sset]
    split
    · rfl
    · simp [swfFrom, *]
  | cons e t ih =>
    simp only [swfFrom, Bool.and_eq_true, decide_eq_true_eq] at h
    simp only [sset]
    split
    · split
      · simp only [swfFrom, Bool.and_eq_true, decide_eq_true_eq]
        exact ⟨h.1, swfFrom_filter _ h.2⟩
      · rename_i hlt hv
        simp only [swfFrom, Bool.and_eq_true, decide_eq_true_eq]
        exact ⟨⟨hk, hv⟩, ⟨by omega, h.1.2⟩, h.2⟩
    · split
      · rename_i hlt heq
        split
        · exact swfFrom_mono (swfFrom_filter _ h.2) (by omega)
        · rename_i hv
          simp only [swfFrom, Bool.and_eq_true, decide_eq_true_eq]
          exact ⟨⟨hk, hv⟩, by rw [heq]; exact h.2⟩
      · rename_i hlt hne
        simp only [swfFrom, Bool.and_eq_true, decide_eq_true_eq]
        exact ⟨h.1, ih h.2 (by omega)⟩

/-- Writing one key keeps the canonical form. -/
theorem swf_sset (h : swf d m = true) : swf d (sset d m k v) = true := swfFrom_sset h (Nat.zero_le k)

/-- Writing consecutive keys keeps the canonical form. -/
theorem swf_ssetList {vs : List α} (h : swf d m = true) : swf d (ssetList d m k vs) = true := by
  induction vs generalizing m k with
  | nil => exact h
  | cons v vs ih => exact ih (swf_sset h)

/-- Dropping keys keeps the canonical form. -/
theorem swf_skeep (p : Nat → Bool) (h : swf d m = true) : swf d (skeep p m) = true := swfFrom_filter _ h

/-- A key reads as it was written. -/
@[simp] theorem sget_sset_same : sget d (sset d m k v) k = v := by
  induction m with
  | nil =>
    simp only [sset]
    split
    · rename_i hv; simp [sget, hv]
    · simp [sget]
  | cons e t ih =>
    simp only [sset]
    split
    · rename_i hlt
      split
      · rename_i hv
        have hne : e.1 ≠ k := by omega
        simp only [sget, hne, if_false]
        rw [hv]; exact sget_sdrop_same
      · simp [sget]
    · split
      · split
        · rename_i hv
          rw [hv]; exact sget_sdrop_same
        · simp [sget]
      · rename_i hlt hne
        have : e.1 ≠ k := fun x => hne x.symm
        simp only [sget, this, if_false]
        exact ih

/-- Every other key reads as before. -/
theorem sget_sset_other (hj : j ≠ k) : sget d (sset d m k v) j = sget d m j := by
  have hkj : k ≠ j := fun x => hj x.symm
  induction m with
  | nil =>
    simp only [sset]
    split
    · rfl
    · simp [sget, hkj]
  | cons e t ih =>
    simp only [sset]
    split
    · split
      · simp only [sget, sget_sdrop_other hj]
      · simp [sget, hkj]
    · split
      · rename_i hlt heq
        have he : e.1 ≠ j := by omega
        split
        · simp only [sget, he, if_false, sget_sdrop_other hj]
        · simp [sget, he, hkj]
      · simp only [sget, ih]

/-- A key outside a written run reads as before. -/
theorem sget_ssetList_other {vs : List α} (hj : j < k ∨ k + vs.length ≤ j) :
    sget d (ssetList d m k vs) j = sget d m j := by
  induction vs generalizing m k with
  | nil => rfl
  | cons v vs ih =>
    simp only [List.length_cons] at hj
    simp only [ssetList]
    rw [ih (by omega), sget_sset_other (by omega)]

/-- A key inside a written run reads as written. -/
theorem sget_ssetList_same {vs : List α} {i : Nat} (hi : i < vs.length) : sget d (ssetList d m k vs) (k + i) = vs[i] := by
  induction vs generalizing m k i with
  | nil => simp at hi
  | cons v vs ih =>
    simp only [ssetList]
    cases i with
    | zero =>
      rw [sget_ssetList_other (by omega)]
      exact sget_sset_same
    | succ i =>
      have := ih (m := sset d m k v) (k := k + 1) (i := i) (by simpa using hi)
      simpa [Nat.add_assoc, Nat.add_comm 1 i] using this

/-! Overlays. -/

omit [DecidableEq α] in
theorem mem_skeep {p : Nat → Bool} {e : Nat × α} (h : e ∈ skeep p m) : p e.1 = true := (List.mem_filter.mp h).2

/-- A canonical list stays canonical from any lower bound of its keys. -/
theorem swfFrom_of_keys (h : swfFrom d j m = true) (hk : ∀ e ∈ m, lo ≤ e.1) : swfFrom d lo m = true := by
  cases m with
  | nil => rfl
  | cons e t =>
    simp only [swfFrom, Bool.and_eq_true, decide_eq_true_eq] at h ⊢
    exact ⟨⟨hk e (List.mem_cons_self ..), h.1.2⟩, h.2⟩

/-- Two canonical lists, the keys of the first below those of the second. -/
theorem swfFrom_append {a b : List (Nat × α)} (ha : swfFrom d j a = true) (hj : j ≤ lo) (hk : ∀ e ∈ a, e.1 < lo)
    (hb : swfFrom d lo b = true) : swfFrom d j (a ++ b) = true := by
  induction a generalizing j with
  | nil => exact swfFrom_mono hb hj
  | cons e t ih =>
    simp only [swfFrom, Bool.and_eq_true, decide_eq_true_eq] at ha
    simp only [List.cons_append, swfFrom, Bool.and_eq_true, decide_eq_true_eq]
    exact ⟨ha.1, ih ha.2 (hk e (List.mem_cons_self ..)) fun x hx => hk x (List.mem_cons_of_mem _ hx)⟩

/-- The overlay of a range keeps the canonical form, whatever is laid over it. -/
theorem swf_sover {n : Nat} {new : List (Nat × α)} (h : swf d m = true) : swf d (sover d m lo n new) = true := by
  refine swfFrom_append (lo := lo) (swf_skeep _ h) (Nat.zero_le lo) (fun e he => by simpa using mem_skeep he) ?_
  induction new with
  | nil =>
    refine swfFrom_of_keys (swf_skeep _ h) fun e he => ?_
    have := mem_skeep he
    simp only [decide_eq_true_eq] at this
    omega
  | cons e t ih =>
    simp only [List.foldr_cons]
    split
    · exact swfFrom_sset ih (by omega)
    · exact ih

omit [DecidableEq α] in
theorem sget_append {a b : List (Nat × α)} (h : ∀ e ∈ a, e.1 ≠ k) : sget d (a ++ b) k = sget d b k := by
  induction a with
  | nil => rfl
  | cons e t ih =>
    simp only [List.cons_append, sget, h e (List.mem_cons_self ..), if_false]
    exact ih fun x hx => h x (List.mem_cons_of_mem _ hx)

/-! Reading runs, and under another default. -/

omit [DecidableEq α] in
theorem sget_congr {f : Nat → α} (h : f k = d k) : sget f m k = sget d m k := by
  induction m with
  | nil => exact h
  | cons e t ih =>
    simp only [sget]
    split
    · rfl
    · exact ih

omit [DecidableEq α] in
@[simp] theorem sgetList_length {n : Nat} : (sgetList d m k n).length = n := by
  induction n generalizing k with
  | zero => rfl
  | succ n ih => simp [sgetList, ih]

omit [DecidableEq α] in
theorem sgetList_get {n i : Nat} (h : i < (sgetList d m k n).length) : (sgetList d m k n)[i] = sget d m (k + i) := by
  induction n generalizing k i with
  | zero => simp [sgetList] at h
  | succ n ih =>
    cases i with
    | zero => rfl
    | succ i =>
      simp only [sgetList, List.getElem_cons_succ]
      rw [ih]
      congr 1
      omega

/-! A canonical form under another default. -/

/-- Keys strictly rising. -/
abbrev Rising (m : List (Nat × α)) : Prop := m.Pairwise fun x y => x.1 < y.1

theorem swfFrom_iff : swfFrom d lo m = true ↔ Rising m ∧ (∀ e ∈ m, lo ≤ e.1) ∧ ∀ e ∈ m, e.2 ≠ d e.1 := by
  induction m generalizing lo with
  | nil => simp [swfFrom]
  | cons e t ih =>
    simp only [swfFrom, Bool.and_eq_true, decide_eq_true_eq, ih, List.pairwise_cons, List.forall_mem_cons]
    constructor
    · rintro ⟨⟨hl, hv⟩, hr, hk, hd⟩
      exact ⟨⟨fun x hx => hk x hx, hr⟩, ⟨hl, fun x hx => le_trans (by omega) (hk x hx)⟩, hv, hd⟩
    · rintro ⟨⟨hk, hr⟩, ⟨hl, -⟩, hv, hd⟩
      exact ⟨⟨hl, hv⟩, hr, fun x hx => hk x hx, hd⟩

theorem swf_iff : swf d m = true ↔ Rising m ∧ ∀ e ∈ m, e.2 ≠ d e.1 := by
  unfold swf
  rw [swfFrom_iff]
  simp

omit [DecidableEq α] in
theorem sdrop_sublist : (sdrop k m).Sublist m := List.filter_sublist

/-- The entries after a key is written: the key's own, where it is not its default, and those of other keys. -/
theorem mem_sset {e : Nat × α} (h : Rising m) (he : e ∈ sset d m k v) : (e = (k, v) ∧ v ≠ d k) ∨ (e ∈ m ∧ e.1 ≠ k) := by
  induction m with
  | nil =>
    simp only [sset] at he
    split at he
    · simp at he
    · exact .inl ⟨by simpa using he, by assumption⟩
  | cons x t ih =>
    have hd : ∀ {y : Nat × α}, y ∈ sdrop k t → y ∈ t ∧ y.1 ≠ k := fun hy => by
      have := List.mem_filter.mp hy
      exact ⟨this.1, by simpa using this.2⟩
    simp only [List.pairwise_cons] at h
    simp only [sset] at he
    split at he
    · rename_i hlt
      split at he
      · rcases List.mem_cons.mp he with rfl | he
        · exact .inr ⟨List.mem_cons_self .., by omega⟩
        · exact .inr ⟨List.mem_cons_of_mem _ (hd he).1, (hd he).2⟩
      · rename_i hv
        rcases List.mem_cons.mp he with rfl | he
        · exact .inl ⟨rfl, hv⟩
        · rcases List.mem_cons.mp he with rfl | he
          · exact .inr ⟨List.mem_cons_self .., by omega⟩
          · exact .inr ⟨List.mem_cons_of_mem _ he, by have := h.1 e he; omega⟩
    · split at he
      · rename_i hlt heq
        split at he
        · exact .inr ⟨List.mem_cons_of_mem _ (hd he).1, (hd he).2⟩
        · rename_i hv
          rcases List.mem_cons.mp he with rfl | he
          · exact .inl ⟨rfl, hv⟩
          · exact .inr ⟨List.mem_cons_of_mem _ he, by have := h.1 e he; omega⟩
      · rename_i hlt hne
        rcases List.mem_cons.mp he with rfl | he
        · exact .inr ⟨List.mem_cons_self .., fun hx => hne hx.symm⟩
        · rcases ih h.2 he with h' | h'
          · exact .inl h'
          · exact .inr ⟨List.mem_cons_of_mem _ h'.1, h'.2⟩

/-- Writing a key keeps the keys rising. -/
theorem rising_sset (h : Rising m) : Rising (sset d m k v) := by
  induction m with
  | nil =>
    simp only [sset]
    split <;> simp [Rising]
  | cons x t ih =>
    have ht := List.pairwise_cons.mp h
    have hd : Rising (sdrop k t) := ht.2.sublist sdrop_sublist
    have hs : ∀ y ∈ sdrop k t, x.1 < y.1 := fun y hy => ht.1 y (sdrop_sublist.subset hy)
    simp only [sset]
    split
    · rename_i hlt
      split
      · exact List.pairwise_cons.mpr ⟨hs, hd⟩
      · exact List.pairwise_cons.mpr ⟨fun y hy => by
          rcases List.mem_cons.mp hy with rfl | hy
          · exact hlt
          · exact lt_trans hlt (ht.1 y hy), h⟩
    · split
      · rename_i heq
        split
        · exact hd
        · exact List.pairwise_cons.mpr ⟨fun y hy => by have := ht.1 y hy; simpa [heq] using this, ht.2⟩
      · rename_i hlt hne
        refine List.pairwise_cons.mpr ⟨fun y hy => ?_, ih ht.2⟩
        rcases mem_sset ht.2 hy with h' | h'
        · rw [h'.1]; show x.1 < k; omega
        · exact ht.1 y h'.1

/-- A run written under a default that differs from the old one on that run only leaves the canonical form of the new one. -/
theorem swf_ssetList_under {f : Nat → α} {vs : List α} (h : swf d m = true) (hf : ∀ x, x < k ∨ k + vs.length ≤ x → f x = d x) :
    swf f (ssetList f m k vs) = true := by
  rw [swf_iff] at h ⊢
  have key : ∀ (vs : List α) (m : List (Nat × α)) (k : Nat), Rising m →
      (∀ e ∈ m, e.1 < k ∨ k + vs.length ≤ e.1 → e.2 ≠ f e.1) →
      Rising (ssetList f m k vs) ∧ ∀ e ∈ ssetList f m k vs, e.2 ≠ f e.1 := by
    intro vs
    induction vs with
    | nil => exact fun m k hr hd => ⟨hr, fun e he => hd e he (by simp; omega)⟩
    | cons v vs ih =>
      intro m k hr hd
      refine ih _ _ (rising_sset hr) fun e he hk => ?_
      rcases mem_sset hr he with ⟨rfl, hv⟩ | ⟨hm, hne⟩
      · exact hv
      · exact hd e hm (by simp only [List.length_cons]; omega)
  exact key vs m k h.1 fun e he hk => by rw [hf e.1 hk]; exact h.2 e he

/-- Another default that agrees on the keys listed. -/
theorem swf_congr {f : Nat → α} (h : swf d m = true) (hf : ∀ e ∈ m, f e.1 = d e.1) : swf f m = true := by
  rw [swf_iff] at h ⊢
  exact ⟨h.1, fun e he => by rw [hf e he]; exact h.2 e he⟩

/-- The same for an overlay. -/
theorem swf_sover_under {f : Nat → α} {n : Nat} {new : List (Nat × α)} (h : swf d m = true) (hf : ∀ x, x < lo ∨ lo + n ≤ x → f x = d x) :
    swf f (sover f m lo n new) = true := by
  have hp : ∀ p : Nat → Bool, (∀ x, p x = true → x < lo ∨ lo + n ≤ x) → swf f (skeep p m) = true := fun p hp =>
    swf_congr (swf_skeep p h) fun e he => hf e.1 (hp e.1 (mem_skeep he))
  refine swfFrom_append (lo := lo) (hp _ fun x hx => .inl (by simpa using hx)) (Nat.zero_le lo) (fun e he => by simpa using mem_skeep he) ?_
  induction new with
  | nil =>
    refine swfFrom_of_keys (hp _ fun x hx => .inr (by simpa using hx)) fun e he => ?_
    have := mem_skeep he
    simp only [decide_eq_true_eq] at this
    omega
  | cons e t ih =>
    simp only [List.foldr_cons]
    split
    · exact swfFrom_sset ih (by omega)
    · exact ih

end Sys2Proof.Machine
end

