-- ==== Sys2Proof/Laws/State.lean ====
section
/-!
SUPPORT. What each accessor of the device reads after each update: one lemma per update and reading.
-/

namespace Sys2Proof.Machine

/-! Vectors. -/

theorem vmap_get {α : Type} {n : Nat} (v : Vector α n) (i j : Fin n) (f : α → α) :
    (vmap v i f).get j = if j = i then f (v.get i) else v.get j := by
  have h : ∀ (x : Vector α n) (k : Fin n), x.get k = x[k.val] := fun _ _ => rfl
  rw [h, h, h]
  unfold vmap
  rw [Vector.getElem_set]
  by_cases hj : j = i
  · simp [hj, h]
  · have : i.val ≠ j.val := fun x => hj (Fin.ext x.symm)
    simp [hj, this]

@[simp] theorem vmap_get_same {α : Type} {n : Nat} (v : Vector α n) (i : Fin n) (f : α → α) :
    (vmap v i f).get i = f (v.get i) := by simp [vmap_get]

theorem vmap_get_other {α : Type} {n : Nat} (v : Vector α n) {i j : Fin n} (f : α → α) (h : j ≠ i) :
    (vmap v i f).get j = v.get j := by simp [vmap_get, h]

theorem vmap_vmap {α : Type} {n : Nat} (v : Vector α n) (i : Fin n) (f g : α → α) :
    vmap (vmap v i f) i g = vmap v i fun x => g (f x) := by
  have h : ∀ (x : Vector α n) (k : Fin n), x.get k = x[k.val] := fun _ _ => rfl
  ext j hj
  rw [← h (vmap (vmap v i f) i g) ⟨j, hj⟩, ← h (vmap v i fun x => g (f x)) ⟨j, hj⟩]
  simp only [vmap_get]
  split <;> simp [*]

/-! Cores, strands, lasts. -/

variable (d : Dev) (c x : CoreId) (k : StrandId) (l m : LastId)

theorem core_updCore (f : Core → Core) : (d.updCore c f).core x = if x = c then f (d.core c) else d.core x := by
  simp [Dev.core, Dev.updCore, vmap_get]

@[simp] theorem core_updCore_same (f : Core → Core) : (d.updCore c f).core c = f (d.core c) := by simp [core_updCore]

theorem updCore_updCore (f g : Core → Core) : (d.updCore c f).updCore c g = d.updCore c fun y => g (f y) := by
  unfold Dev.updCore; simp only [vmap_vmap]

theorem updCore_eq (f : Core → Core) : d.updCore c f = { d with cores := (d.updCore c f).cores } := rfl

@[simp] theorem updCore_cycle (f : Core → Core) : (d.updCore c f).cycle = d.cycle := rfl
@[simp] theorem updCore_regs (f : Core → Core) : (d.updCore c f).regs = d.regs := rfl
@[simp] theorem updCore_mem (f : Core → Core) : (d.updCore c f).mem = d.mem := rfl
@[simp] theorem updCore_ops (f : Core → Core) : (d.updCore c f).ops = d.ops := rfl
@[simp] theorem updCore_lasts (f : Core → Core) : (d.updCore c f).lasts = d.lasts := rfl
@[simp] theorem updCore_hub (f : Core → Core) : (d.updCore c f).hub = d.hub := rfl
@[simp] theorem updCore_aoc (f : Core → Core) : (d.updCore c f).aoc = d.aoc := rfl
@[simp] theorem updCore_now (f : Core → Core) : (d.updCore c f).now = d.now := rfl
@[simp] theorem updCore_reg (f : Core → Core) (a : Nat) : (d.updCore c f).reg a = d.reg a := rfl
@[simp] theorem updCore_byte (f : Core → Core) (a : Nat) : (d.updCore c f).byte a = d.byte a := rfl
@[simp] theorem updCore_last (f : Core → Core) : (d.updCore c f).last l = d.last l := rfl

theorem strand_updStrand (j : StrandId) (f : Strand → Strand) :
    (d.updStrand c k f).strand x j = if x = c ∧ j = k then f (d.strand c k) else d.strand x j := by
  simp only [Dev.strand, Dev.updStrand, core_updCore]
  by_cases hx : x = c <;> by_cases hj : j = k <;> simp [hx, hj, vmap_get]

@[simp] theorem strand_updStrand_same (f : Strand → Strand) : (d.updStrand c k f).strand c k = f (d.strand c k) := by
  simp [strand_updStrand]

@[simp] theorem updStrand_cycle (f : Strand → Strand) : (d.updStrand c k f).cycle = d.cycle := rfl
@[simp] theorem updStrand_reg (f : Strand → Strand) (a : Nat) : (d.updStrand c k f).reg a = d.reg a := rfl
@[simp] theorem updStrand_byte (f : Strand → Strand) (a : Nat) : (d.updStrand c k f).byte a = d.byte a := rfl
@[simp] theorem updStrand_ops (f : Strand → Strand) : (d.updStrand c k f).ops = d.ops := rfl
@[simp] theorem updStrand_hub (f : Strand → Strand) : (d.updStrand c k f).hub = d.hub := rfl
@[simp] theorem updStrand_aoc (f : Strand → Strand) : (d.updStrand c k f).aoc = d.aoc := rfl
@[simp] theorem updStrand_last (f : Strand → Strand) : (d.updStrand c k f).last l = d.last l := rfl

/-- An update of a strand leaves the rest of its core. -/
theorem core_updStrand_rest (f : Strand → Strand) :
    (d.updStrand c k f).core c = { d.core c with strands := vmap (d.core c).strands k f } := by
  simp [Dev.updStrand]

@[simp] theorem strand_updCore (f : Core → Core) (h : ∀ y, (f y).strands = y.strands) :
    (d.updCore c f).strand x k = d.strand x k := by
  simp only [Dev.strand, core_updCore]
  by_cases hx : x = c <;> simp [hx, h]

theorem last_updLast (f : Last → Last) : (d.updLast l f).last m = if m = l then f (d.last l) else d.last m := by
  simp [Dev.last, Dev.updLast, vmap_get]

@[simp] theorem last_updLast_same (f : Last → Last) : (d.updLast l f).last l = f (d.last l) := by simp [last_updLast]

/-! Registers. -/

theorem reg_setReg_other {a b : Nat} (v : Word) (h : b ≠ a) : (d.setReg a v).reg b = d.reg b := sget_sset_other h

@[simp] theorem reg_setReg_same {a : Nat} (v : Word) : (d.setReg a v).reg a = v := sget_sset_same

@[simp] theorem setReg_core (a : Nat) (v : Word) : (d.setReg a v).core c = d.core c := rfl
@[simp] theorem setReg_byte (a b : Nat) (v : Word) : (d.setReg a v).byte b = d.byte b := rfl
@[simp] theorem setReg_last (a : Nat) (v : Word) : (d.setReg a v).last l = d.last l := rfl
@[simp] theorem setReg_hub (a : Nat) (v : Word) : (d.setReg a v).hub = d.hub := rfl
@[simp] theorem setReg_aoc (a : Nat) (v : Word) : (d.setReg a v).aoc = d.aoc := rfl

/-- A counter changes its own register only. -/
theorem reg_count_other {base i n b : Nat} (h : b ≠ base + 8 * i) : (d.count base i n).reg b = d.reg b := by
  unfold Dev.count
  split
  · exact sget_sset_other h
  · rfl

theorem count_eq (base i n : Nat) : ∃ rg nw, d.count base i n = { d with regs := rg, now := nw } := by
  unfold Dev.count
  split
  · exact ⟨_, _, rfl⟩
  · exact ⟨d.regs, d.now, rfl⟩

@[simp] theorem count_core (base i n : Nat) : (d.count base i n).core c = d.core c := by
  obtain ⟨r, w, h⟩ := count_eq d base i n; rw [h]; rfl
@[simp] theorem count_strand (base i n : Nat) : (d.count base i n).strand c k = d.strand c k := by
  obtain ⟨r, w, h⟩ := count_eq d base i n; rw [h]; rfl
@[simp] theorem count_cycle (base i n : Nat) : (d.count base i n).cycle = d.cycle := by
  obtain ⟨r, w, h⟩ := count_eq d base i n; rw [h]
@[simp] theorem count_byte (base i n a : Nat) : (d.count base i n).byte a = d.byte a := by
  obtain ⟨r, w, h⟩ := count_eq d base i n; rw [h]; rfl
@[simp] theorem count_last (base i n : Nat) : (d.count base i n).last l = d.last l := by
  obtain ⟨r, w, h⟩ := count_eq d base i n; rw [h]; rfl
@[simp] theorem count_hub (base i n : Nat) : (d.count base i n).hub = d.hub := by
  obtain ⟨r, w, h⟩ := count_eq d base i n; rw [h]
@[simp] theorem count_aoc (base i n : Nat) : (d.count base i n).aoc = d.aoc := by
  obtain ⟨r, w, h⟩ := count_eq d base i n; rw [h]
@[simp] theorem count_ops (base i n : Nat) : (d.count base i n).ops = d.ops := by
  obtain ⟨r, w, h⟩ := count_eq d base i n; rw [h]

/-! What an update leaves alone, field by field. -/

@[simp] theorem updCore_freeIdx (f : Core → Core) : (d.updCore c f).freeIdx = d.freeIdx := rfl
@[simp] theorem updCore_slots (f : Core → Core) : (d.updCore c f).slots = d.slots := rfl
@[simp] theorem updCore_bedWrs (f : Core → Core) : (d.updCore c f).bedWrs = d.bedWrs := rfl
@[simp] theorem updCore_wrs (f : Core → Core) : (d.updCore c f).wrs = d.wrs := rfl
@[simp] theorem updCore_nextOp (f : Core → Core) : (d.updCore c f).nextOp = d.nextOp := rfl
@[simp] theorem updCore_nextAcc (f : Core → Core) : (d.updCore c f).nextAcc = d.nextAcc := rfl
@[simp] theorem updCore_ecc (f : Core → Core) : (d.updCore c f).ecc = d.ecc := rfl
@[simp] theorem updCore_otp (f : Core → Core) : (d.updCore c f).otp = d.otp := rfl
@[simp] theorem updCore_saves (f : Core → Core) : (d.updCore c f).saves = d.saves := rfl
@[simp] theorem updCore_fills (f : Core → Core) : (d.updCore c f).fills = d.fills := rfl
@[simp] theorem updCore_start (f : Core → Core) : (d.updCore c f).start = d.start := rfl
@[simp] theorem updCore_out (f : Core → Core) : (d.updCore c f).out = d.out := rfl

@[simp] theorem updStrand_freeIdx (f : Strand → Strand) : (d.updStrand c k f).freeIdx = d.freeIdx := rfl
@[simp] theorem updStrand_slots (f : Strand → Strand) : (d.updStrand c k f).slots = d.slots := rfl
@[simp] theorem updStrand_bedWrs (f : Strand → Strand) : (d.updStrand c k f).bedWrs = d.bedWrs := rfl
@[simp] theorem updStrand_wrs (f : Strand → Strand) : (d.updStrand c k f).wrs = d.wrs := rfl
@[simp] theorem updStrand_nextOp (f : Strand → Strand) : (d.updStrand c k f).nextOp = d.nextOp := rfl
@[simp] theorem updStrand_nextAcc (f : Strand → Strand) : (d.updStrand c k f).nextAcc = d.nextAcc := rfl
@[simp] theorem updStrand_mem (f : Strand → Strand) : (d.updStrand c k f).mem = d.mem := rfl
@[simp] theorem updStrand_ecc (f : Strand → Strand) : (d.updStrand c k f).ecc = d.ecc := rfl
@[simp] theorem updStrand_otp (f : Strand → Strand) : (d.updStrand c k f).otp = d.otp := rfl
@[simp] theorem updStrand_saves (f : Strand → Strand) : (d.updStrand c k f).saves = d.saves := rfl
@[simp] theorem updStrand_fills (f : Strand → Strand) : (d.updStrand c k f).fills = d.fills := rfl
@[simp] theorem updStrand_start (f : Strand → Strand) : (d.updStrand c k f).start = d.start := rfl
@[simp] theorem updStrand_out (f : Strand → Strand) : (d.updStrand c k f).out = d.out := rfl
@[simp] theorem updStrand_lasts (f : Strand → Strand) : (d.updStrand c k f).lasts = d.lasts := rfl
@[simp] theorem updStrand_regs (f : Strand → Strand) : (d.updStrand c k f).regs = d.regs := rfl
@[simp] theorem updStrand_now (f : Strand → Strand) : (d.updStrand c k f).now = d.now := rfl

@[simp] theorem updLast_cycle (f : Last → Last) : (d.updLast l f).cycle = d.cycle := rfl
@[simp] theorem updLast_freeIdx (f : Last → Last) : (d.updLast l f).freeIdx = d.freeIdx := rfl
@[simp] theorem updLast_ops (f : Last → Last) : (d.updLast l f).ops = d.ops := rfl
@[simp] theorem updLast_slots (f : Last → Last) : (d.updLast l f).slots = d.slots := rfl
@[simp] theorem updLast_bedWrs (f : Last → Last) : (d.updLast l f).bedWrs = d.bedWrs := rfl
@[simp] theorem updLast_wrs (f : Last → Last) : (d.updLast l f).wrs = d.wrs := rfl
@[simp] theorem updLast_nextOp (f : Last → Last) : (d.updLast l f).nextOp = d.nextOp := rfl
@[simp] theorem updLast_nextAcc (f : Last → Last) : (d.updLast l f).nextAcc = d.nextAcc := rfl
@[simp] theorem updLast_mem (f : Last → Last) : (d.updLast l f).mem = d.mem := rfl
@[simp] theorem updLast_ecc (f : Last → Last) : (d.updLast l f).ecc = d.ecc := rfl
@[simp] theorem updLast_otp (f : Last → Last) : (d.updLast l f).otp = d.otp := rfl
@[simp] theorem updLast_saves (f : Last → Last) : (d.updLast l f).saves = d.saves := rfl
@[simp] theorem updLast_fills (f : Last → Last) : (d.updLast l f).fills = d.fills := rfl
@[simp] theorem updLast_start (f : Last → Last) : (d.updLast l f).start = d.start := rfl
@[simp] theorem updLast_out (f : Last → Last) : (d.updLast l f).out = d.out := rfl
@[simp] theorem updLast_cores (f : Last → Last) : (d.updLast l f).cores = d.cores := rfl
@[simp] theorem updLast_regs (f : Last → Last) : (d.updLast l f).regs = d.regs := rfl
@[simp] theorem updLast_now (f : Last → Last) : (d.updLast l f).now = d.now := rfl
@[simp] theorem updLast_hub (f : Last → Last) : (d.updLast l f).hub = d.hub := rfl
@[simp] theorem updLast_aoc (f : Last → Last) : (d.updLast l f).aoc = d.aoc := rfl

@[simp] theorem updHub_cycle (f : Hub → Hub) : (d.updHub f).cycle = d.cycle := rfl
@[simp] theorem updHub_freeIdx (f : Hub → Hub) : (d.updHub f).freeIdx = d.freeIdx := rfl
@[simp] theorem updHub_ops (f : Hub → Hub) : (d.updHub f).ops = d.ops := rfl
@[simp] theorem updHub_slots (f : Hub → Hub) : (d.updHub f).slots = d.slots := rfl
@[simp] theorem updHub_bedWrs (f : Hub → Hub) : (d.updHub f).bedWrs = d.bedWrs := rfl
@[simp] theorem updHub_wrs (f : Hub → Hub) : (d.updHub f).wrs = d.wrs := rfl
@[simp] theorem updHub_nextOp (f : Hub → Hub) : (d.updHub f).nextOp = d.nextOp := rfl
@[simp] theorem updHub_nextAcc (f : Hub → Hub) : (d.updHub f).nextAcc = d.nextAcc := rfl
@[simp] theorem updHub_mem (f : Hub → Hub) : (d.updHub f).mem = d.mem := rfl
@[simp] theorem updHub_ecc (f : Hub → Hub) : (d.updHub f).ecc = d.ecc := rfl
@[simp] theorem updHub_otp (f : Hub → Hub) : (d.updHub f).otp = d.otp := rfl
@[simp] theorem updHub_saves (f : Hub → Hub) : (d.updHub f).saves = d.saves := rfl
@[simp] theorem updHub_fills (f : Hub → Hub) : (d.updHub f).fills = d.fills := rfl
@[simp] theorem updHub_start (f : Hub → Hub) : (d.updHub f).start = d.start := rfl
@[simp] theorem updHub_out (f : Hub → Hub) : (d.updHub f).out = d.out := rfl
@[simp] theorem updHub_cores (f : Hub → Hub) : (d.updHub f).cores = d.cores := rfl
@[simp] theorem updHub_lasts (f : Hub → Hub) : (d.updHub f).lasts = d.lasts := rfl
@[simp] theorem updHub_regs (f : Hub → Hub) : (d.updHub f).regs = d.regs := rfl
@[simp] theorem updHub_now (f : Hub → Hub) : (d.updHub f).now = d.now := rfl
@[simp] theorem updHub_aoc (f : Hub → Hub) : (d.updHub f).aoc = d.aoc := rfl

@[simp] theorem updAoc_cycle (f : Aoc → Aoc) : (d.updAoc f).cycle = d.cycle := rfl
@[simp] theorem updAoc_freeIdx (f : Aoc → Aoc) : (d.updAoc f).freeIdx = d.freeIdx := rfl
@[simp] theorem updAoc_ops (f : Aoc → Aoc) : (d.updAoc f).ops = d.ops := rfl
@[simp] theorem updAoc_slots (f : Aoc → Aoc) : (d.updAoc f).slots = d.slots := rfl
@[simp] theorem updAoc_bedWrs (f : Aoc → Aoc) : (d.updAoc f).bedWrs = d.bedWrs := rfl
@[simp] theorem updAoc_wrs (f : Aoc → Aoc) : (d.updAoc f).wrs = d.wrs := rfl
@[simp] theorem updAoc_nextOp (f : Aoc → Aoc) : (d.updAoc f).nextOp = d.nextOp := rfl
@[simp] theorem updAoc_nextAcc (f : Aoc → Aoc) : (d.updAoc f).nextAcc = d.nextAcc := rfl
@[simp] theorem updAoc_mem (f : Aoc → Aoc) : (d.updAoc f).mem = d.mem := rfl
@[simp] theorem updAoc_ecc (f : Aoc → Aoc) : (d.updAoc f).ecc = d.ecc := rfl
@[simp] theorem updAoc_otp (f : Aoc → Aoc) : (d.updAoc f).otp = d.otp := rfl
@[simp] theorem updAoc_saves (f : Aoc → Aoc) : (d.updAoc f).saves = d.saves := rfl
@[simp] theorem updAoc_fills (f : Aoc → Aoc) : (d.updAoc f).fills = d.fills := rfl
@[simp] theorem updAoc_start (f : Aoc → Aoc) : (d.updAoc f).start = d.start := rfl
@[simp] theorem updAoc_out (f : Aoc → Aoc) : (d.updAoc f).out = d.out := rfl
@[simp] theorem updAoc_cores (f : Aoc → Aoc) : (d.updAoc f).cores = d.cores := rfl
@[simp] theorem updAoc_lasts (f : Aoc → Aoc) : (d.updAoc f).lasts = d.lasts := rfl
@[simp] theorem updAoc_regs (f : Aoc → Aoc) : (d.updAoc f).regs = d.regs := rfl
@[simp] theorem updAoc_now (f : Aoc → Aoc) : (d.updAoc f).now = d.now := rfl
@[simp] theorem updAoc_hub (f : Aoc → Aoc) : (d.updAoc f).hub = d.hub := rfl

@[simp] theorem setReg_cycle (a : Nat) (v : Word) : (d.setReg a v).cycle = d.cycle := rfl
@[simp] theorem setReg_freeIdx (a : Nat) (v : Word) : (d.setReg a v).freeIdx = d.freeIdx := rfl
@[simp] theorem setReg_ops (a : Nat) (v : Word) : (d.setReg a v).ops = d.ops := rfl
@[simp] theorem setReg_slots (a : Nat) (v : Word) : (d.setReg a v).slots = d.slots := rfl
@[simp] theorem setReg_bedWrs (a : Nat) (v : Word) : (d.setReg a v).bedWrs = d.bedWrs := rfl
@[simp] theorem setReg_wrs (a : Nat) (v : Word) : (d.setReg a v).wrs = d.wrs := rfl
@[simp] theorem setReg_nextOp (a : Nat) (v : Word) : (d.setReg a v).nextOp = d.nextOp := rfl
@[simp] theorem setReg_nextAcc (a : Nat) (v : Word) : (d.setReg a v).nextAcc = d.nextAcc := rfl
@[simp] theorem setReg_mem (a : Nat) (v : Word) : (d.setReg a v).mem = d.mem := rfl
@[simp] theorem setReg_ecc (a : Nat) (v : Word) : (d.setReg a v).ecc = d.ecc := rfl
@[simp] theorem setReg_otp (a : Nat) (v : Word) : (d.setReg a v).otp = d.otp := rfl
@[simp] theorem setReg_saves (a : Nat) (v : Word) : (d.setReg a v).saves = d.saves := rfl
@[simp] theorem setReg_fills (a : Nat) (v : Word) : (d.setReg a v).fills = d.fills := rfl
@[simp] theorem setReg_start (a : Nat) (v : Word) : (d.setReg a v).start = d.start := rfl
@[simp] theorem setReg_out (a : Nat) (v : Word) : (d.setReg a v).out = d.out := rfl
@[simp] theorem setReg_cores (a : Nat) (v : Word) : (d.setReg a v).cores = d.cores := rfl
@[simp] theorem setReg_lasts (a : Nat) (v : Word) : (d.setReg a v).lasts = d.lasts := rfl
@[simp] theorem setReg_now (a : Nat) (v : Word) : (d.setReg a v).now = d.now := rfl

@[simp] theorem updHub_hub (f : Hub → Hub) : (d.updHub f).hub = f d.hub := rfl
@[simp] theorem updAoc_aoc (f : Aoc → Aoc) : (d.updAoc f).aoc = f d.aoc := rfl
@[simp] theorem updHub_core (f : Hub → Hub) : (d.updHub f).core c = d.core c := rfl
@[simp] theorem updAoc_core (f : Aoc → Aoc) : (d.updAoc f).core c = d.core c := rfl
@[simp] theorem updHub_reg (f : Hub → Hub) (a : Nat) : (d.updHub f).reg a = d.reg a := rfl
@[simp] theorem updAoc_reg (f : Aoc → Aoc) (a : Nat) : (d.updAoc f).reg a = d.reg a := rfl
@[simp] theorem updHub_byte (f : Hub → Hub) (a : Nat) : (d.updHub f).byte a = d.byte a := rfl
@[simp] theorem updAoc_byte (f : Aoc → Aoc) (a : Nat) : (d.updAoc f).byte a = d.byte a := rfl
@[simp] theorem updHub_last (f : Hub → Hub) : (d.updHub f).last l = d.last l := rfl
@[simp] theorem updAoc_last (f : Aoc → Aoc) : (d.updAoc f).last l = d.last l := rfl
@[simp] theorem updCrs_crs (f : Coursing → Coursing) : (d.updCrs f).hub.crs = f d.hub.crs := rfl
@[simp] theorem updTime_ftime (f : FTime → FTime) : (d.updTime f).hub.ftime = f d.hub.ftime := rfl
@[simp] theorem updTrust_trust (f : Trust → Trust) : (d.updTrust f).aoc.trust = f d.aoc.trust := rfl
@[simp] theorem updRcd_rcd (f : Recorder → Recorder) : (d.updRcd f).aoc.rcd = f d.aoc.rcd := rfl
@[simp] theorem updDoms_doms (f : Doms → Doms) : (d.updDoms f).aoc.doms = f d.aoc.doms := rfl

/-- A queue, a link, a keystone, a channel, a gate port and a control port read what was put there, and every other reads as before. -/
theorem queue_updQueue (q r : QueueId) (f : Queue → Queue) : (d.updQueue q f).queue r = if r = q then f (d.queue q) else d.queue r := by
  simp [Dev.queue, Dev.updQueue, vmap_get]
theorem link_updLink (q r : LinkId) (f : Link → Link) : (d.updLink q f).link r = if r = q then f (d.link q) else d.link r := by
  simp [Dev.link, Dev.updLink, vmap_get]
theorem key_updKey (q r : KeyId) (f : Keystone → Keystone) : (d.updKey q f).key r = if r = q then f (d.key q) else d.key r := by
  simp [Dev.key, Dev.updKey, vmap_get]
theorem chan_updChan (q r : ChanId) (f : Chan → Chan) : (d.updChan q f).chan r = if r = q then f (d.chan q) else d.chan r := by
  simp [Dev.chan, Dev.updChan, vmap_get]
theorem gate_updGate (q r : GateId) (f : Gate → Gate) : (d.updGate q f).gate r = if r = q then f (d.gate q) else d.gate r := by
  simp [Dev.gate, Dev.updGate, vmap_get]
theorem ctl_updCtl (q r : CtlId) (f : Ctl → Ctl) : (d.updCtl q f).ctl r = if r = q then f (d.ctl q) else d.ctl r := by
  simp [Dev.ctl, Dev.updCtl, vmap_get]

/-! What the shared operations do: one lemma each. -/

/-- An event is raised behind those that wait; nothing else changes (R379, R381). -/
theorem event_eq (code sev : Nat) (bs : List Byte) : d.event code sev bs = d.updRcd fun r => { r with raised := r.raised ++
    [⟨BitVec.ofNat 16 code, sev, if d.hubOn then some d.hub.ftime.ft else none, bs, none⟩] } := rfl

/-- A control message goes to the ports that carry it; nothing else changes (R247). -/
theorem sendCtl_eq (ports : List LinkId) (kind : Nat) (vals : List Nat) :
    d.sendCtl ports kind vals = { d with hub := { d.hub with ctl := d.hub.ctl ++
      ((ports.filter (d.ctlOpen kind)).map fun x => (x, ctlPacket d.ownDev (d.link x).peerDev kind vals)) } } := rfl

/-- That a page has served an access in this cycle changes nothing else (R392). -/
theorem servePage_eq (g : Nat) : ∃ ps, d.servePage g = { d with now := { d.now with pages := ps } } := by
  unfold Dev.servePage
  split
  · exact ⟨d.now.pages, rfl⟩
  · exact ⟨_, rfl⟩

/-- At the start of a cycle register space shows the device as it stands (R392). -/
theorem atStart_showStart : d.showStart.atStart = d.showStart := rfl

/-- A post changes no more than one tally of the instruction's core (R149). -/
theorem post_eq (o : Origin) : ∃ cs, d.post o = { d with cores := cs } := by
  unfold Dev.post
  dsimp only
  split
  · exact ⟨_, rfl⟩
  · exact ⟨d.cores, rfl⟩

/-- Completing is posting. -/
theorem complete_eq (o : Origin) : d.complete o = d.post o := rfl

/-! Scalars and predicates. -/

/-- s0 discards what is written and reads 0; a written scalar reads what was written (R143). -/
theorem rdS_wrS (s : Strand) (r q : Fin 32) (v : Word) (n : Nat) :
    (s.wrS r v n).rdS q = if q = r ∧ q ≠ 0 then v else s.rdS q := by
  unfold Strand.wrS Strand.rdS
  by_cases hr : r = 0
  · by_cases hq : q = 0 <;> simp [hr, hq]
  · by_cases hq : q = 0
    · simp [hq]
    · by_cases he : q = r <;> simp [hr, hq, he, vmap_get]

/-- p0 discards what is written and reads 1 (R143, R176). -/
theorem rdP_wrP (s : Strand) (p q : Fin 8) (v : Bool) (n : Nat) :
    (s.wrP p v n).rdP q = if q = p ∧ q ≠ 0 then v else s.rdP q := by
  unfold Strand.wrP Strand.rdP
  by_cases hr : p = 0
  · by_cases hq : q = 0 <;> simp [hr, hq]
  · by_cases hq : q = 0
    · simp [hq]
    · by_cases he : q = p <;> simp [hr, hq, he, vmap_get]

@[simp] theorem rdP_wrS (s : Strand) (r : Fin 32) (q : Fin 8) (v : Word) (n : Nat) : (s.wrS r v n).rdP q = s.rdP q := by
  unfold Strand.wrS; split <;> rfl
@[simp] theorem rdS_wrP (s : Strand) (p : Fin 8) (q : Fin 32) (v : Bool) (n : Nat) : (s.wrP p v n).rdS q = s.rdS q := by
  unfold Strand.wrP; split <;> rfl
@[simp] theorem pc_wrS (s : Strand) (r : Fin 32) (v : Word) (n : Nat) : (s.wrS r v n).pc = s.pc := by
  unfold Strand.wrS; split <;> rfl
@[simp] theorem pc_wrP (s : Strand) (p : Fin 8) (v : Bool) (n : Nat) : (s.wrP p v n).pc = s.pc := by
  unfold Strand.wrP; split <;> rfl

/-! The instruction word. -/

theorem mkInsn_toNat {op : Nat} (w : BitVec 56) (h : op < 256) : (mkInsn op w).toNat / 2 ^ 56 = op := by
  have hw := w.isLt
  have ho : (BitVec.ofNat 8 op).toNat = op := by simp; omega
  have : (mkInsn op w).toNat = op * 2 ^ 56 + w.toNat := by
    change (BitVec.ofNat 8 op ++ w).toNat = _
    rw [BitVec.toNat_append, ho, ← Nat.shiftLeft_add_eq_or_of_lt hw, Nat.shiftLeft_eq]
  omega

theorem mkInsn_setWidth (op : Nat) (w : BitVec 56) : (mkInsn op w).setWidth 56 = w := by
  have hw := w.isLt
  apply BitVec.eq_of_toNat_eq
  rw [BitVec.toNat_setWidth]
  change (BitVec.ofNat 8 op ++ w).toNat % _ = _
  rw [BitVec.toNat_append, ← Nat.shiftLeft_add_eq_or_of_lt hw, Nat.shiftLeft_eq]
  omega

end Sys2Proof.Machine
end

