-- ==== Sys2Proof/Laws/Issue.lean ====
section
/-!
SUPPORT. What the shared operations of dispatch do: a ready strand's instruction runs on the committed device, and what a
commit, a result and a completion change.
-/

namespace Sys2Proof.Machine

theorem onDev_eq (s : State) (f : Dev → Dev) : onDev s f = .next { s with dev := f s.dev } := rfl

/-- A ready strand dispatches: the meaning of the instruction decides between an effect and a fault (R144, R145, R158). -/
theorem issue_of_ready {d : Dev} {c : CoreId} {k : StrandId} {word : Word} {body : Dev → Origin → Disp}
    (h : d.canIssue c k word = true) (hl : illegal (word.toNat / 2 ^ 56) (word.setWidth 56) = false) :
    ∃ l, d.strandLast c k = some l ∧ d.issue c k word body =
      match body (d.commit c k (word.setWidth 56)) ⟨l, c, k, (d.strand c k).pc, word⟩ with
      | .ok d' => d'
      | .fault cause detail => d.fault cause ⟨l, c, k, (d.strand c k).pc, word⟩ detail := by
  simp only [Dev.canIssue, Bool.and_eq_true, Bool.not_eq_true', beq_iff_eq] at h
  obtain ⟨⟨⟨⟨⟨⟨⟨h1, h2⟩, h3⟩, h4⟩, h5⟩, h6⟩, h7⟩, h8⟩ := h
  obtain ⟨l, hl'⟩ := Option.isSome_iff_exists.mp h1
  refine ⟨l, hl', ?_⟩
  have h7' : ((d.core c).lastDispatch == some d.cycle) = false := by simpa using h7
  unfold Dev.issue
  simp only [hl', h2, h3, h4, h5, h6, h7', h8, hl, bne_self_eq_false, Bool.not_true, Bool.or_self, Bool.false_eq_true,
    if_false, ne_eq, not_true_eq_false]
  try rfl

/-- The same for a word that a claim's `Dispatches` names. -/
theorem issue_of_dispatches {s : State} {c : CoreId} {k : StrandId} {op : Nat} {w : BitVec 56} (ho : op < 256)
    (h : Dispatches s c k op w) (body : Dev → Origin → Disp) :
    ∃ l, s.dev.strandLast c k = some l ∧ s.dev.issue c k (mkInsn op w) body =
      match body (s.dev.commit c k w) ⟨l, c, k, (s.dev.strand c k).pc, mkInsn op w⟩ with
      | .ok d' => d'
      | .fault cause detail => s.dev.fault cause ⟨l, c, k, (s.dev.strand c k).pc, mkInsn op w⟩ detail := by
  have hl : illegal ((mkInsn op w).toNat / 2 ^ 56) ((mkInsn op w).setWidth 56) = false := by
    rw [mkInsn_toNat w ho, mkInsn_setWidth]; exact h.legal
  have := issue_of_ready (body := body) h.ready hl
  rwa [mkInsn_setWidth] at this

/-- A dispatch whose meaning succeeds answers the device it gives. -/
theorem onDev_issue_ok {s : State} {c : CoreId} {k : StrandId} {op : Nat} {w : BitVec 56} (ho : op < 256)
    (h : Dispatches s c k op w) {body : Dev → Origin → Disp} {g : LastId → Dev}
    (hb : ∀ l, s.dev.strandLast c k = some l →
      body (s.dev.commit c k w) ⟨l, c, k, (s.dev.strand c k).pc, mkInsn op w⟩ = .ok (g l)) :
    ∃ l, s.dev.strandLast c k = some l ∧
      onDev s (fun d => d.issue c k (mkInsn op w) body) = .next { s with dev := g l } := by
  obtain ⟨l, hl, hi⟩ := issue_of_dispatches ho h body
  refine ⟨l, hl, ?_⟩
  rw [onDev_eq, hi, hb l hl]

variable (d : Dev) (c x : CoreId) (k : StrandId) (w : BitVec 56)

/-! Commit. -/

@[simp] theorem commit_cycle : (d.commit c k w).cycle = d.cycle := by
  unfold Dev.commit Dev.cnt; simp only [count_cycle, updCore_cycle, updStrand_cycle]; split <;> rfl

@[simp] theorem commit_byte (a : Nat) : (d.commit c k w).byte a = d.byte a := by
  unfold Dev.commit Dev.cnt; simp only [count_byte, updCore_byte, updStrand_byte]; split <;> rfl

/-- A commit changes cores, registers and the notes of the cycle only. -/
theorem commit_eq : ∃ cs rg nw, d.commit c k w = { d with cores := cs, regs := rg, now := nw } := by
  unfold Dev.commit Dev.cnt
  obtain ⟨r, n, h⟩ := count_eq (((if wWen w then d.updTally c (finOf 63 (wWtal w)) fun t => { t with dec := t.dec + 1 } else d).updStrand
    c k fun s => { s with pc := s.pc + 8, stall := 0 }).updCore c fun x => { x with lastStrand := k, lastDispatch := some d.cycle })
    (aCnt c 0) (1 + k.val) 1
  split at h <;> rename_i hw <;> simp only [hw, if_true] <;> exact ⟨_, r, n, h⟩

@[simp] theorem commit_last (l : LastId) : (d.commit c k w).last l = d.last l := by
  obtain ⟨_, _, _, h⟩ := commit_eq d c k w; rw [h]; rfl
@[simp] theorem commit_hub : (d.commit c k w).hub = d.hub := by
  obtain ⟨_, _, _, h⟩ := commit_eq d c k w; rw [h]
@[simp] theorem commit_aoc : (d.commit c k w).aoc = d.aoc := by
  obtain ⟨_, _, _, h⟩ := commit_eq d c k w; rw [h]
@[simp] theorem commit_ops : (d.commit c k w).ops = d.ops := by
  obtain ⟨_, _, _, h⟩ := commit_eq d c k w; rw [h]
@[simp] theorem commit_nextOp : (d.commit c k w).nextOp = d.nextOp := by
  obtain ⟨_, _, _, h⟩ := commit_eq d c k w; rw [h]
@[simp] theorem commit_nextAcc : (d.commit c k w).nextAcc = d.nextAcc := by
  obtain ⟨_, _, _, h⟩ := commit_eq d c k w; rw [h]

/-- Only the counter of dispatched instructions changes. -/
theorem commit_reg {a : Nat} (h : a ≠ aCnt c (8 * (1 + k.val))) : (d.commit c k w).reg a = d.reg a := by
  have h' : a ≠ aCnt c 0 + 8 * (1 + k.val) := by simpa [aCnt, regAddr] using h
  unfold Dev.commit Dev.cnt
  rw [reg_count_other _ h']
  split <;> rfl

theorem commit_core_other (h : x ≠ c) : (d.commit c k w).core x = d.core x := by
  unfold Dev.commit Dev.cnt Dev.updStrand Dev.updTally
  simp only [count_core, core_updCore, h, if_false]
  split <;> simp [core_updCore, h]

/-- What a commit makes of the core. -/
theorem commit_core : (d.commit c k w).core c =
    { d.core c with
      strands := vmap (d.core c).strands k fun s => { s with pc := s.pc + 8, stall := 0 }
      tallies := if wWen w then vmap (d.core c).tallies (finOf 63 (wWtal w)) fun t => { t with dec := t.dec + 1 } else (d.core c).tallies
      lastStrand := k, lastDispatch := some d.cycle } := by
  unfold Dev.commit Dev.cnt Dev.updStrand Dev.updTally
  simp only [count_core, core_updCore_same]
  split <;> simp

theorem commit_strand (j : StrandId) : (d.commit c k w).strand c j =
    if j = k then { d.strand c k with pc := (d.strand c k).pc + 8, stall := 0 } else d.strand c j := by
  unfold Dev.strand; rw [commit_core]; exact vmap_get _ _ _ _

theorem commit_strand_same : (d.commit c k w).strand c k =
    { d.strand c k with pc := (d.strand c k).pc + 8, stall := 0 } := by simp [commit_strand]

@[simp] theorem commit_rdS (r : Fin 32) : ((d.commit c k w).strand c k).rdS r = (d.strand c k).rdS r := by
  rw [commit_strand_same]; rfl
@[simp] theorem commit_rdP (p : Fin 8) : ((d.commit c k w).strand c k).rdP p = (d.strand c k).rdP p := by
  rw [commit_strand_same]; rfl

theorem otherStrand_ne : otherStrand k ≠ k := by revert k; decide

/-! Whole effects. -/

/-- A device that differs from the committed one in the strand `k` and the completions of its core only has the frame of a
strand's instruction. -/
theorem strandFrame_of {s : State} {e : Dev} {f : Strand → Strand} {po : List Post → List Post}
    (he : e = (s.dev.commit c k w).updCore c fun y => { y with strands := vmap y.strands k f, posts := po y.posts }) :
    StrandFrame c k w s { s with dev := e } := by
  have hc : e.core c = { s.dev.core c with
      strands := vmap ((s.dev.commit c k w).core c).strands k f
      tallies := ((s.dev.commit c k w).core c).tallies
      posts := po (s.dev.core c).posts, lastStrand := k, lastDispatch := some s.dev.cycle } := by
    rw [he, core_updCore_same, commit_core]
  refine ⟨rfl, ?_, ?_, ?_, ?_, ?_, ?_, ?_⟩
  · obtain ⟨cs, rg, nw, h⟩ := commit_eq s.dev c k w
    exact ⟨e.cores, e.regs, e.now, by rw [he, h]; rfl⟩
  · intro a; rw [he]; simp
  · intro a ha; rw [he]; simp only [updCore_reg]; exact commit_reg _ _ _ _ ha
  · intro x hx; rw [he]; simp only [core_updCore, hx, if_false]; exact commit_core_other _ _ _ _ _ hx
  · exact ⟨_, _, _, hc⟩
  · unfold Dev.strand; rw [hc]
    simp only [vmap_get_other _ _ (otherStrand_ne k)]
    have := commit_strand s.dev c k w (otherStrand k)
    rw [if_neg (otherStrand_ne k)] at this
    exact this
  · intro i; simp only [hc]; rw [commit_core]
    simp only
    by_cases hw : wWen w = true
    · simp only [hw, if_true, true_and, vmap_get]; split <;> simp [*]
    · simp [hw]

/-- The device of a result is the committed one with the scalar written and the completion noted. -/
theorem result_eq (o : Origin) (r : Fin 32) (v : Word) (n : Nat) :
    d.result o r v n = d.updCore o.core fun y => { y with
      strands := vmap y.strands o.strand fun s => s.wrS r v (d.cycle + n)
      posts := y.posts ++ [⟨d.cycle + n, o.strand, o.last, o.pc, BitVec.ofNat 8 (o.insn.toNat / 2 ^ 56), o.insn.setWidth 56⟩] } := by
  unfold Dev.result Dev.postAt Dev.updStrand
  rw [updCore_updCore]

theorem resultP_eq (o : Origin) (p : Fin 8) (v : Bool) :
    d.resultP o p v = d.updCore o.core fun y => { y with
      strands := vmap y.strands o.strand fun s => s.wrP p v (d.cycle + 1)
      posts := y.posts ++ [⟨d.cycle + 1, o.strand, o.last, o.pc, BitVec.ofNat 8 (o.insn.toNat / 2 ^ 56), o.insn.setWidth 56⟩] } := by
  unfold Dev.resultP Dev.postAt Dev.updStrand
  rw [updCore_updCore]

/-- An instruction that only has a scalar result (R146, R173). -/
theorem writesScalar_of_result {s : State} {c : CoreId} {k : StrandId} {op : Nat} {w : BitVec 56} {l : LastId} (ho : op < 256)
    (hl : s.dev.strandLast c k = some l) (r : Fin 32) (v : Word) (n : Nat) :
    WritesScalar c k op w n r v s
      { s with dev := (s.dev.commit c k w).result ⟨l, c, k, (s.dev.strand c k).pc, mkInsn op w⟩ r v n } := by
  have he := result_eq (s.dev.commit c k w) ⟨l, c, k, (s.dev.strand c k).pc, mkInsn op w⟩ r v n
  simp only [mkInsn_toNat w ho, mkInsn_setWidth, commit_cycle] at he
  have hs : ((s.dev.commit c k w).result ⟨l, c, k, (s.dev.strand c k).pc, mkInsn op w⟩ r v n).strand c k =
      ((s.dev.commit c k w).strand c k).wrS r v (s.dev.cycle + n) := by
    rw [he]; unfold Dev.strand; rw [core_updCore_same]; exact vmap_get_same _ _ _
  refine ⟨strandFrame_of c k w (po := fun p => p ++ [_]) he, ?_, ?_, ?_, ?_, ?_⟩
  · intro q; simp only [hs, rdS_wrS, commit_rdS]
  · intro hr; simp only [hs, Strand.wrS, hr, if_false, vmap_get_same]
  · intro q; simp only [hs, rdP_wrS, commit_rdP]
  · simp only [hs, pc_wrS, commit_strand_same]
  · exact ⟨l, hl, by simp only [he, core_updCore_same, commit_core]⟩

/-- An instruction that only has a predicate result (R176). -/
theorem writesPredicate_of_result {s : State} {c : CoreId} {k : StrandId} {op : Nat} {w : BitVec 56} {l : LastId} (ho : op < 256)
    (hl : s.dev.strandLast c k = some l) (p : Fin 8) (v : Bool) :
    WritesPredicate c k op w p v s
      { s with dev := (s.dev.commit c k w).resultP ⟨l, c, k, (s.dev.strand c k).pc, mkInsn op w⟩ p v } := by
  have he := resultP_eq (s.dev.commit c k w) ⟨l, c, k, (s.dev.strand c k).pc, mkInsn op w⟩ p v
  simp only [mkInsn_toNat w ho, mkInsn_setWidth, commit_cycle] at he
  have hs : ((s.dev.commit c k w).resultP ⟨l, c, k, (s.dev.strand c k).pc, mkInsn op w⟩ p v).strand c k =
      ((s.dev.commit c k w).strand c k).wrP p v (s.dev.cycle + 1) := by
    rw [he]; unfold Dev.strand; rw [core_updCore_same]; exact vmap_get_same _ _ _
  refine ⟨strandFrame_of c k w (po := fun p => p ++ [_]) he, ?_, ?_, ?_, ?_, ?_⟩
  · intro q; simp only [hs, rdP_wrP, commit_rdP]
  · intro hr; simp only [hs, Strand.wrP, hr, if_false, vmap_get_same]
  · intro q; simp only [hs, rdS_wrP, commit_rdS]
  · simp only [hs, pc_wrP, commit_strand_same]
  · exact ⟨l, hl, by simp only [he, core_updCore_same, commit_core]⟩

end Sys2Proof.Machine
end

