-- ==== Sys2Proof/Laws/Memory.lean ====
section
/-!
SUPPORT. Memory, the register file and the one-time-programmable bytes: reading after writing, and that every operation that
writes them keeps their canonical form.
-/

namespace Sys2Proof.Machine

variable (d : Dev) (a x n : Nat) (bs : List Byte)

/-! Reading after writing. -/

/-- A word that has been written reads as plain memory where nothing is listed, any other as before (R331). -/
theorem memDef_wrote (fs : List Fill) (lo hi : Nat) :
    memDef (wroteWords fs lo hi) x = if lo ≤ x ∧ x < hi then memDefault x else memDef fs x := by
  induction fs with
  | nil => simp [wroteWords, memDef]
  | cons f t ih =>
    have hk : ({ f with wrote := (lo, hi) :: f.wrote } : Fill).keeps x = (f.keeps x && !(decide (lo ≤ x) && decide (x < hi))) := by
      simp only [Fill.keeps, List.any_cons, Bool.not_or]
      rw [Bool.and_comm (!(decide (lo ≤ x) && decide (x < hi))), ← Bool.and_assoc]
    show (if ({ f with wrote := (lo, hi) :: f.wrote } : Fill).keeps x then _ else memDef (wroteWords t lo hi) x) = _
    rw [hk, ih]
    by_cases hr : lo ≤ x ∧ x < hi
    · simp [hr]
    · have : (decide (lo ≤ x) && decide (x < hi)) = false := by
        rw [Bool.and_eq_false_iff, decide_eq_false_iff_not, decide_eq_false_iff_not]
        omega
      simp [hr, this, memDef]

/-- A write to memory, in one form for both cases: whole words are rewritten where a stack woke from OFF (R209, R331). -/
theorem wrMem_words (h : d.fills ≠ []) : (d.wrMem a bs).fills = wroteWords d.fills (a / 8 * 8) ((a + bs.length + 7) / 8 * 8) ∧
    (d.wrMem a bs).mem = ssetList (memDef (wroteWords d.fills (a / 8 * 8) ((a + bs.length + 7) / 8 * 8))) d.mem (a / 8 * 8)
      (d.rdMem (a / 8 * 8) (a - a / 8 * 8) ++ bs ++ d.rdMem (a + bs.length) ((a + bs.length + 7) / 8 * 8 - (a + bs.length))) := by
  unfold Dev.wrMem
  rw [if_neg (by simpa using h)]
  exact ⟨rfl, rfl⟩

theorem wrMem_plain (h : d.fills = []) : (d.wrMem a bs).fills = [] ∧ (d.wrMem a bs).mem = ssetList memDefault d.mem a bs := by
  unfold Dev.wrMem
  rw [if_pos (by simp [h])]
  exact ⟨h, rfl⟩

theorem memDef_nil : memDef [] = memDefault := rfl

theorem wrMem_byte_same {i : Nat} (h : i < bs.length) : (d.wrMem a bs).byte (a + i) = bs[i] := by
  unfold Dev.byte
  by_cases hf : d.fills = []
  · obtain ⟨hg, hm⟩ := wrMem_plain d a bs hf
    rw [hg, hm]
    exact sget_ssetList_same h
  · obtain ⟨hg, hm⟩ := wrMem_words d a bs hf
    rw [hg, hm]
    have hl : (d.rdMem (a / 8 * 8) (a - a / 8 * 8)).length = a - a / 8 * 8 := sgetList_length
    have he : a + i = a / 8 * 8 + ((a - a / 8 * 8) + i) := by omega
    rw [he, sget_ssetList_same (by simp only [List.length_append, hl]; omega)]
    rw [List.getElem_append_left (by simp only [List.length_append, hl]; omega), List.getElem_append_right (by omega)]
    simp only [hl, Nat.add_sub_cancel_left]

theorem wrMem_byte_other (h : x < a ∨ a + bs.length ≤ x) : (d.wrMem a bs).byte x = d.byte x := by
  unfold Dev.byte
  by_cases hf : d.fills = []
  · obtain ⟨hg, hm⟩ := wrMem_plain d a bs hf
    rw [hg, hm, hf]
    exact sget_ssetList_other h
  · obtain ⟨hg, hm⟩ := wrMem_words d a bs hf
    rw [hg, hm]
    have hl : (d.rdMem (a / 8 * 8) (a - a / 8 * 8)).length = a - a / 8 * 8 := sgetList_length
    have hr : (d.rdMem (a + bs.length) ((a + bs.length + 7) / 8 * 8 - (a + bs.length))).length = (a + bs.length + 7) / 8 * 8 - (a + bs.length) :=
      sgetList_length
    by_cases hin : a / 8 * 8 ≤ x ∧ x < (a + bs.length + 7) / 8 * 8
    · have he : x = a / 8 * 8 + (x - a / 8 * 8) := by omega
      conv_lhs => rw [he]
      rw [sget_ssetList_same (by simp only [List.length_append, hl, hr]; omega)]
      rcases h with h | h
      · rw [List.getElem_append_left (by simp only [List.length_append, hl]; omega), List.getElem_append_left (by omega)]
        unfold Dev.rdMem
        rw [sgetList_get]
        congr 1
        omega
      · rw [List.getElem_append_right (by simp only [List.length_append, hl]; omega)]
        unfold Dev.rdMem
        rw [sgetList_get]
        congr 1
        simp only [List.length_append, sgetList_length]
        omega
    · rw [sget_ssetList_other (by simp only [List.length_append, hl, hr]; omega)]
      exact sget_congr (by rw [memDef_wrote, if_neg hin])

theorem sget_skeep {α : Type} (f : Nat → α) (p : Nat → Bool) (m : List (Nat × α)) (k : Nat) :
    sget f (skeep p m) k = if p k then sget f m k else f k := by
  induction m with
  | nil => simp [skeep, sget]
  | cons e t ih =>
    obtain ⟨b, y⟩ := e
    by_cases hb : p b
    · have : skeep p ((b, y) :: t) = (b, y) :: skeep p t := by simp [skeep, hb]
      rw [this]
      simp only [sget, ih]
      by_cases hk : b = k
      · subst hk; simp [hb]
      · simp [hk]
    · have : skeep p ((b, y) :: t) = skeep p t := by simp [skeep, hb]
      rw [this, ih]
      simp only [sget]
      by_cases hk : b = k
      · subst hk; simp [hb]
      · simp [hk]

theorem eraseMem_byte : (d.eraseMem a n).byte x = if a ≤ x ∧ x < a + n then memDef d.fills x else d.byte x := by
  unfold Dev.byte Dev.eraseMem
  rw [sget_skeep]
  by_cases h : a ≤ x ∧ x < a + n
  · simp [h]
  · rw [if_neg h, if_pos]
    rw [Bool.not_eq_true', Bool.and_eq_false_iff, decide_eq_false_iff_not, decide_eq_false_iff_not]
    omega

theorem forget_byte (p : Nat → Bool) : (d.forget p).byte x = if p x then memDef d.fills x else d.byte x := by
  unfold Dev.byte Dev.forget
  rw [sget_skeep]
  by_cases h : p x <;> simp [h]

theorem setReg_reg_same (v : Word) : (d.setReg a v).reg a = v := by
  unfold Dev.reg Dev.setReg
  exact sget_sset_same

theorem setReg_reg_other (v : Word) (h : x ≠ a) : (d.setReg a v).reg x = d.reg x := sget_sset_other h

/-! Canonical form. -/

/-- `e` is in canonical form wherever `d` is, and no one-time-programmable byte of it was erased. -/
structure Keeps (d e : Dev) : Prop where
  mem : Memory.wf d.fills d.mem → Memory.wf e.fills e.mem
  regs : swf regReset d.regs = true → swf regReset e.regs = true
  otp : swf otpDefault d.otp = true → swf otpDefault e.otp = true
  byte : ∀ i, sget otpDefault e.otp i = sget otpDefault d.otp i ∨ sget otpDefault e.otp i = 0

theorem Keeps.refl : Keeps d d := ⟨id, id, id, fun _ => .inl rfl⟩

variable {d}

theorem Keeps.trans {e f : Dev} (h : Keeps d e) (g : Keeps e f) : Keeps d f :=
  ⟨g.mem ∘ h.mem, g.regs ∘ h.regs, g.otp ∘ h.otp, fun i => by
    rcases g.byte i with hg | hg
    · rw [hg]; exact h.byte i
    · exact .inr hg⟩

/-- A change of anything else keeps all three. -/
theorem Keeps.of_eq {e : Dev} (hf : e.fills = d.fills) (hm : e.mem = d.mem) (hr : e.regs = d.regs) (ho : e.otp = d.otp) : Keeps d e := by
  refine ⟨?_, ?_, ?_, fun i => ?_⟩
  · rw [hf, hm]; exact id
  · rw [hr]; exact id
  · rw [ho]; exact id
  · rw [ho]; exact .inl rfl

theorem Keeps.foldl {α : Type} {f : Dev → α → Dev} (hf : ∀ e y, Keeps e (f e y)) (l : List α) : Keeps d (l.foldl f d) := by
  induction l generalizing d with
  | nil => exact .refl d
  | cons y t ih => exact (hf d y).trans ih

variable (d)

theorem setReg_keeps (v : Word) : Keeps d (d.setReg a v) := ⟨id, swf_sset, id, fun _ => .inl rfl⟩

theorem setRegFld_keeps (lo len v : Nat) : Keeps d (d.setRegFld a lo len v) := setReg_keeps d a _

theorem wrMem_rest : (d.wrMem a bs).regs = d.regs ∧ (d.wrMem a bs).otp = d.otp := by
  by_cases hf : d.fills.isEmpty <;> simp [Dev.wrMem, hf]

theorem wrMem_keeps : Keeps d (d.wrMem a bs) := by
  have hr := wrMem_rest d a bs
  refine ⟨fun h => ?_, fun h => by rwa [hr.1], fun h => by rwa [hr.2], fun i => .inl (by rw [hr.2])⟩
  unfold Memory.wf at h ⊢
  by_cases hf : d.fills = []
  · obtain ⟨hg, hm⟩ := wrMem_plain d a bs hf
    rw [hg, hm]
    rw [hf] at h
    exact swf_ssetList h
  · obtain ⟨hg, hm⟩ := wrMem_words d a bs hf
    rw [hg, hm]
    refine swf_ssetList_under h fun y hy => ?_
    rw [memDef_wrote, if_neg]
    simp only [List.length_append, Dev.rdMem, sgetList_length] at hy
    omega

theorem eraseMem_keeps : Keeps d (d.eraseMem a n) :=
  ⟨fun h => swf_skeep (fun y => !(decide (a ≤ y) && decide (y < a + n))) h, id, id, fun _ => .inl rfl⟩

theorem forget_keeps (p : Nat → Bool) : Keeps d (d.forget p) :=
  ⟨fun h => swf_skeep (fun y => !p y) h, id, id, fun _ => .inl rfl⟩

/-- A range of memory is overlaid: a save area in its place, or a slice brought back (R297, R301). -/
theorem overlay_keeps (new : List Host.Cell) : Keeps d (d.overlay a n new) :=
  ⟨fun h => swf_sover_under h fun y hy => by
    show memDef (wroteWords d.fills a (a + n)) y = memDef d.fills y
    rw [memDef_wrote, if_neg (by omega)], id, id, fun _ => .inl rfl⟩

/-- A stack wakes with contents that nothing states (R331). -/
theorem undefined_keeps (m : StackId) : Keeps d (d.undefined m) := by
  refine ⟨fun h => ?_, id, id, fun _ => .inl rfl⟩
  let f : Fill := ⟨m, d.hbmWays, d.hbmUpper, d.freeIdx, []⟩
  refine swf_congr (swf_skeep (fun a => !f.keeps a) h) fun e he => ?_
  have hk : f.keeps e.1 = false := by
    have := mem_skeep (p := fun a => !f.keeps a) (m := d.mem) he
    simpa using this
  show (if f.keeps e.1 then _ else memDef (d.fills.filter _) e.1) = memDef d.fills e.1
  rw [if_neg (by simp [hk])]
  generalize d.fills = fs
  induction fs with
  | nil => rfl
  | cons g t ih =>
    rw [List.filter_cons]
    split
    · simp only [memDef]
      rw [ih]
    · rename_i hg
      rw [ih]
      have : g.keeps e.1 = false := by
        simp only [Bool.not_eq_true', Bool.not_eq_false, Bool.and_eq_true, beq_iff_eq] at hg
        obtain ⟨⟨h1, h2⟩, h3⟩ := hg
        simp only [Fill.keeps, f, List.any_nil, Bool.not_false, Bool.and_true] at hk
        simp only [Fill.keeps, h1, h2, h3, Bool.and_eq_false_iff]
        exact .inl hk
      simp [memDef, this]

theorem resetPages_keeps (p : Nat → Nat → Bool) : Keeps d (d.resetPages p) :=
  ⟨id, fun h => swf_skeep (fun y => !p ((y - regBase) / 0x10000) (y % 0x10000)) h, id, fun _ => .inl rfl⟩

theorem updCore_keeps (c : CoreId) (f : Core → Core) : Keeps d (d.updCore c f) := .of_eq rfl rfl rfl rfl
theorem updStrand_keeps (c : CoreId) (k : StrandId) (f : Strand → Strand) : Keeps d (d.updStrand c k f) := .of_eq rfl rfl rfl rfl
theorem updLast_keeps (l : LastId) (f : Last → Last) : Keeps d (d.updLast l f) := .of_eq rfl rfl rfl rfl
theorem updHub_keeps (f : Hub → Hub) : Keeps d (d.updHub f) := .of_eq rfl rfl rfl rfl
theorem updAoc_keeps (f : Aoc → Aoc) : Keeps d (d.updAoc f) := .of_eq rfl rfl rfl rfl

theorem hwSet_keeps (bits posMask pos : Word) : Keeps d (d.hwSet a bits posMask pos) :=
  (setReg_keeps d a _).trans (.of_eq rfl rfl rfl rfl)

theorem hwInc_keeps (lo len : Nat) : Keeps d (d.hwInc a lo len n) := (setRegFld_keeps d a _ _ _).trans (.of_eq rfl rfl rfl rfl)

theorem event_keeps (code sev : Nat) : Keeps d (d.event code sev bs) := .of_eq rfl rfl rfl rfl

/-- Programming a one-time-programmable byte. -/
theorem otp_program (o : List (Nat × Byte)) (k i : Nat) :
    sget otpDefault (sset otpDefault o k 0) i = sget otpDefault o i ∨ sget otpDefault (sset otpDefault o k 0) i = 0 := by
  by_cases h : i = k
  · exact .inr (h ▸ sget_sset_same)
  · exact .inl (sget_sset_other h)

end Sys2Proof.Machine
end

