-- ==== Sys2Proof/Tests/Slice0.lean ====
section
/-!
SUPPORT. Tests of the model: ill-formed commands that the checks refuse, and for every statement with hypotheses a concrete
state and operands that meet them, with what the command then does. Expected values come from the manual's tables.
-/

namespace Sys2Proof.Tests

set_option Elab.async false

open Sys2Proof.Machine

/-! Helpers. -/

/-- The command answers a next state whose device has the property. -/
def after (i : Instr) (d : Dev) (p : Dev → Bool) : Bool :=
  match exec i ⟨d, []⟩ with
  | .next t => p t.dev
  | _ => false

/-- The codes of the events raised. -/
def codes (d : Dev) : List Nat := d.aoc.rcd.raised.map fun e => e.code.toNat

/-- A loaded image of one logical core, physical core 0, whose strand 0 belongs to the last. -/
def img0 : Image where
  flags := 0
  talBase := 0
  talCount := 8
  descBase := 0
  descCount := 8
  sdBase := 0
  sdCount := 4
  slotBase := 0
  slotCount := 4
  keyLo := 1
  keyHi := 2
  draw0 := 3
  draw1 := 4
  hbmBase := 0
  hbmSize := 0
  cores := [⟨0, 3, 0xFF, 0xFFFF, 0x40404040, true, 0x8000000000, 0x8000000100⟩]
  sects := []

/-- Hub, dies, cores 0 and 1, stacks, links, gates and control port 1 ON. -/
def doms0 : Doms :=
  { Doms.init with
    hub := .on, dies := Vector.replicate 2 .on, stks := Vector.replicate 8 .on, links := Vector.replicate 12 .on
    cores := vmap (vmap Doms.init.cores 0 fun _ => .on) 1 fun _ => .on, gates := Vector.replicate 2 .on, ctl1 := .on }

/-- A module in compute service with no last loaded. -/
def up : Dev := State.reset.dev.updAoc fun a => { a with doms := doms0, trust := { a.trust with stage := .compute, ident := 1 } }

/-- Last 0 runs on core 0; its strand 0 is at the start of the slice. -/
def dev0 : Dev :=
  let d := (up.setReg (aSeqCtl 0) 0x88).updLast 0 fun x => { x with st := .running, image := some img0 }
  d.updStrand 0 0 fun s => { s with st := .running, pc := 0x8000000000 }

/-- The fetch buffer of strand 0 of core 0 holds the word of opcode `op` with bits `w` at its PC; s1 is 5, s2 is -7. -/
def fed (d : Dev) (op : Nat) (w : BitVec 56) : Dev :=
  d.updStrand 0 0 fun s => { s with
    fetch := [(0x8000000000, mkInsn op w)], s := vmap (vmap s.s 1 fun _ => 5) 2 fun _ => 0xFFFFFFFFFFFFFFF9 }

def atWord (op : Nat) (w : BitVec 56) : Dev := fed dev0 op w

/-- The strand dispatches the word. -/
def ready (d : Dev) (op : Nat) (w : BitVec 56) : Bool := d.canIssue 0 0 (mkInsn op w) && !illegal op w

theorem ready_dispatches {d : Dev} {op : Nat} {w : BitVec 56} (h : ready d op w = true) : Dispatches ⟨d, []⟩ 0 0 op w := by
  simp only [ready, Bool.and_eq_true, Bool.not_eq_true'] at h
  exact ⟨h.1, h.2⟩

/-- Bits of a word: rd, ra, and rb or an immediate above them (Tables 7.3 and 7.4). -/
def wd (rd ra rb : Nat) : BitVec 56 := BitVec.ofNat 56 (rd + 32 * ra + 1024 * rb)

/-- Scalar 3 of the strand after the dispatch of the word that writes it from s1 and `rb`. -/
def gives (i : CoreId → StrandId → BitVec 56 → Instr) (op rb : Nat) (v : Word) : Bool :=
  ready (atWord op (wd 3 1 rb)) op (wd 3 1 rb) && after (i 0 0 (wd 3 1 rb)) (atWord op (wd 3 1 rb)) fun d =>
    (d.strand 0 0).rdS 3 == v && (d.strand 0 0).pc == 0x8000000008

/-- Scalar 3 after the dispatch of a word that reads no scalar. -/
def reads (i : CoreId → StrandId → BitVec 56 → Instr) (op n : Nat) (v : Word) : Bool :=
  ready (atWord op (wd 3 0 n)) op (wd 3 0 n) && after (i 0 0 (wd 3 0 n)) (atWord op (wd 3 0 n)) fun d =>
    (d.strand 0 0).rdS 3 == v && (d.strand 0 0).pc == 0x8000000008

/-- Predicate 3 after the dispatch. -/
def holds (i : CoreId → StrandId → BitVec 56 → Instr) (op ra rb : Nat) (v : Bool) : Bool :=
  ready (atWord op (wd 3 ra rb)) op (wd 3 ra rb) && after (i 0 0 (wd 3 ra rb)) (atWord op (wd 3 ra rb)) fun d =>
    (d.strand 0 0).rdP 3 == v && (d.strand 0 0).rdP 0

/-! Well-formedness: an ill-formed command for each check. -/

/-- A packet of type `t` and class `c` with `n` bytes of data; its length field is `len`. -/
def pkt (t c n len : Nat) : Packet where
  type := t
  cls := c
  dl := false
  pool := false
  src := 0x23
  dst := 0
  mc := false
  len := BitVec.ofNat 12 len
  addr := 0
  tag := 7
  status := 0
  issuer := 0x23
  cid := 0
  operand := 0
  colOff := 0
  colLevel := 0
  compressed := false
  rescue := false
  data := zeros n

/-- A datagram to the NCP port with the payload. -/
def dgram (bs : List Byte) : Datagram := ⟨0x11, 0x2222, 52470, 0x33, 0, none, true, bs⟩

theorem test_wf_bounds : ([.fetchReturn 0 0 8, .transferComplete (.core 0 0) 6, .push 0 [], .push 0 (zeros 65), .pop 0 0, .pop 0 65,
    .registerWrite 0 [], .registerWrite 0 (zeros 65), .gateTransmitPush 0 [], .gateTransmitPush 0 (zeros 65), .gateTransmitPush 0 (zeros 4160),
    .ncpDatagramArrival 0 (dgram (zeros 9217)), .nbpDatagramReceive 0 ⟨0, true, zeros 9217⟩, .icmpEchoRequest (.ctl 0) ⟨⟨0x33, 0, none⟩, ⟨1, 2, true, zeros 9217⟩⟩,
    .answerCacheExpiry 256] : List Instr).all (fun i => !i.wf) = true := by decide +kernel

theorem test_wf_fabric : ([.wr (pkt 1 0 1 0), .wr (pkt 0 1 1 0), .wr (pkt 0 0 2 0), .wack (pkt 1 1 1 0), .rd (pkt 2 1 0 0), .rdr (pkt 3 1 0 0),
    .aa (pkt 4 0 8 7), .aar (pkt 5 0 0 0), .err (pkt 5 1 0 0), .mwr (pkt 7 1 1 0), .mack (pkt 8 0 0 0), .col (pkt 9 1 1 0),
    .linkNotice 24 0, .linkMapFlood 24 0, .identityPacket 0 0 12 2, .coordinateOffer 0 33 0 0, .coordinateOffer 0 0 33 0,
    .coordinateOffer 0 0 0 25, .coursingRelease true ⟨0, 1, 1⟩, .coursingRelease true ⟨1, 33, 1⟩, .coursingRelease true ⟨1, 1, 25⟩] :
    List Instr).all (fun i => !i.wf) = true := by decide +kernel

theorem test_wf_accepts : ([.fetchReturn 0 0 64, .transferComplete (.core 0 0) 5, .push 0 (zeros 64), .pop 0 64, .registerWrite 0 (zeros 8),
    .gateTransmitPush 0 (zeros 64), .answerCacheExpiry 255, .wr (pkt 0 0 1 0), .wack (pkt 1 1 0 0), .rd (pkt 2 0 0 63),
    .linkNotice 23 0, .identityPacket 0 0 11 2, .coordinateOffer 0 32 32 24, .coursingRelease true ⟨32, 32, 24⟩] : List Instr).all
    (fun i => i.wf) = true := by decide +kernel

/-! Queue, reset and the statements over every step. -/

theorem test_reset_queue : State.reset.pending = [] := rfl

theorem test_reset_canonical : State.reset.Canonical := ⟨by decide +kernel, by decide +kernel, by decide +kernel⟩

theorem test_reset_steps : ∃ t, step { State.reset with pending := [.powerGood] } = .next t := by
  exact ⟨_, rfl⟩

theorem test_step_front : (match step ⟨State.reset.dev, [.powerGood, .maskRomBoot]⟩ with
    | .next t => t.pending == [.maskRomBoot] && t.dev.aoc.trust.stage == .good
    | _ => false) = true := by decide +kernel

/-! Scalar instructions (Tables 7.3 and 7.4): s1 is 5, s2 is -7. -/

theorem test_add : gives .add 0x08 2 0xFFFFFFFFFFFFFFFE = true := by decide +kernel
theorem test_sub : gives .sub 0x09 2 12 = true := by decide +kernel
theorem test_mul : gives .mul 0x0A 2 0xFFFFFFFFFFFFFFDD = true := by decide +kernel
theorem test_mulhs : gives .mulhs 0x0B 2 0xFFFFFFFFFFFFFFFF = true := by decide +kernel
theorem test_mulhu : gives .mulhu 0x0C 2 4 = true := by decide +kernel
theorem test_and : gives .and 0x11 2 1 = true := by decide +kernel
theorem test_or : gives .or 0x12 2 0xFFFFFFFFFFFFFFFD = true := by decide +kernel
theorem test_xor : gives .xor 0x13 2 0xFFFFFFFFFFFFFFFC = true := by decide +kernel
theorem test_shl : gives .shl 0x14 1 160 = true := by decide +kernel
theorem test_shr : gives .shr 0x15 2 0 = true := by decide +kernel

/-- SRA of -7 by 5 (ra is s2 here): the sign fills. -/
theorem test_sra : (after (.sra 0 0 (wd 3 2 1)) (atWord 0x16 (wd 3 2 1)) fun d => (d.strand 0 0).rdS 3 == 0xFFFFFFFFFFFFFFFF) = true := by
  decide +kernel

/-- Division (R175): 5 by -7 and by s4, which is 0. -/
theorem test_divs : (gives .divs 0x0D 2 0 && gives .divs 0x0D 4 0xFFFFFFFFFFFFFFFF) = true := by decide +kernel
theorem test_divu : (gives .divu 0x0E 2 0 && gives .divu 0x0E 4 0xFFFFFFFFFFFFFFFF) = true := by decide +kernel
theorem test_rems : (gives .rems 0x0F 2 5 && gives .rems 0x0F 4 5) = true := by decide +kernel
theorem test_remu : (gives .remu 0x10 2 5 && gives .remu 0x10 4 5) = true := by decide +kernel

/-- The overflowing division: s5 is -2^63, s6 is -1. -/
def minByMinusOne (op : Nat) : Dev :=
  (atWord op (wd 3 5 6)).updStrand 0 0 fun s => { s with s := vmap (vmap s.s 5 fun _ => 0x8000000000000000) 6 fun _ => 0xFFFFFFFFFFFFFFFF }

theorem test_division_overflow : (after (.divs 0 0 (wd 3 5 6)) (minByMinusOne 0x0D) (fun d => (d.strand 0 0).rdS 3 == 0x8000000000000000) &&
    after (.rems 0 0 (wd 3 5 6)) (minByMinusOne 0x0F) fun d => (d.strand 0 0).rdS 3 == 0) = true := by decide +kernel

/-- -7 by 5 rounds toward zero (R175). -/
theorem test_division_signs : (after (.divs 0 0 (wd 3 2 1)) (atWord 0x0D (wd 3 2 1)) (fun d => (d.strand 0 0).rdS 3 == 0xFFFFFFFFFFFFFFFF) &&
    after (.rems 0 0 (wd 3 2 1)) (atWord 0x0F (wd 3 2 1)) fun d => (d.strand 0 0).rdS 3 == 0xFFFFFFFFFFFFFFFE) = true := by decide +kernel

theorem test_ceq : (holds .ceq 0x17 1 1 true && holds .ceq 0x17 1 2 false) = true := by decide +kernel
theorem test_cne : (holds .cne 0x18 1 1 false && holds .cne 0x18 1 2 true) = true := by decide +kernel
theorem test_clt : (holds .clt 0x19 2 1 true && holds .clt 0x19 1 1 false) = true := by decide +kernel
theorem test_cltu : (holds .cltu 0x1A 1 2 true && holds .cltu 0x1A 2 1 false) = true := by decide +kernel
theorem test_cle : (holds .cle 0x1B 2 1 true && holds .cle 0x1B 1 1 true) = true := by decide +kernel
theorem test_cleu : (holds .cleu 0x1C 2 1 false && holds .cleu 0x1C 1 1 true) = true := by decide +kernel
theorem test_ceqi : (holds .ceqi 0x2B 2 0xFFFFFFF9 true && holds .ceqi 0x2B 1 4 false) = true := by decide +kernel
theorem test_clti : (holds .clti 0x2C 2 0xFFFFFFFA true && holds .clti 0x2C 1 5 false) = true := by decide +kernel

theorem test_addi : gives .addi 0x24 0xFFFFFFFF 4 = true := by decide +kernel
theorem test_andi : gives .andi 0x25 0xFFFFFFFC 4 = true := by decide +kernel
theorem test_ori : gives .ori 0x26 0x80000000 0x80000005 = true := by decide +kernel
theorem test_xori : gives .xori 0x27 0xFFFFFFFF 0xFFFFFFFA = true := by decide +kernel
theorem test_shli : gives .shli 0x28 63 0x8000000000000000 = true := by decide +kernel
theorem test_shri : gives .shri 0x29 1 2 = true := by decide +kernel
theorem test_srai : gives .srai 0x2A 63 0 = true := by decide +kernel
theorem test_ldih : gives .ldih 0x2D 0x80000001 0x8000000100000005 = true := by decide +kernel

/-- SEL: rb in [14:10], the predicate in [17:15], neg in bit 18; p0 reads 1. -/
theorem test_sel : (gives .sel 0x2E 2 5 && gives .sel 0x2E (2 + 256) 0xFFFFFFFFFFFFFFF9) = true := by decide +kernel
theorem test_prd : (reads .prd 0x2F 0 1 && reads .prd 0x2F 1 0) = true := by decide +kernel

/-- GETS of the slice's base (code 5) and of the widths (code 7), TRD of a tally never counted. -/
theorem test_gets : (reads .gets 0x30 5 0x8000000000 && reads .gets 0x30 6 2 && reads .gets 0x30 2 0) = true := by decide +kernel
theorem test_trd : reads .trd 0x31 63 0 = true := by decide +kernel
theorem test_frd : reads .frd 0x78 0 0 = true := by decide +kernel
theorem test_ftst : reads .ftst 0x7B 1 0 = true := by decide +kernel

/-- A destination s0 discards the result (R143). -/
theorem test_s0_discards : (ready (atWord 8 (wd 0 1 2)) 8 (wd 0 1 2) && after (.add 0 0 (wd 0 1 2)) (atWord 8 (wd 0 1 2)) fun d =>
    (d.strand 0 0).rdS 0 == 0 && (d.strand 0 0).pc == 0x8000000008) = true := by decide +kernel

theorem test_scalar_dispatches : Dispatches ⟨atWord 8 (wd 3 1 2), []⟩ 0 0 8 (wd 3 1 2) := ready_dispatches (by decide +kernel)

/-- A word that is illegal (R157): SHLI by 64, and ADD with a tally named but not enabled. -/
theorem test_illegal : ((atWord 0x28 (wd 3 1 64)).canIssue 0 0 (mkInsn 0x28 (wd 3 1 64)) && illegal 0x28 (wd 3 1 64) &&
    illegal 8 (BitVec.ofNat 56 (2 ^ 44)) && after (.shli 0 0 (wd 3 1 64)) (atWord 0x28 (wd 3 1 64)) fun d =>
      (d.last 0).st == .stopped && d.regFld (aLstFlt 0 0) 0 8 == 2) = true := by decide +kernel

theorem test_reserved_opcode : (formOf 0x57 == .reserved && (atWord 0x57 0).canIssue 0 0 (mkInsn 0x57 0)) = true := by decide +kernel

/-- A strand that is IDLE is not ready. -/
theorem test_not_ready : (!(atWord 8 (wd 3 1 2)).canIssue 1 0 (mkInsn 8 (wd 3 1 2)) && !badPc 0 0x8000000000 false &&
    !(up.canIssue 0 0 (mkInsn 8 0)) && after (.add 0 1 (wd 3 1 2)) (atWord 8 (wd 3 1 2)) fun d =>
      (d.strand 0 1).pc == 0 && (d.strand 0 0).pc == 0x8000000000) = true := by decide +kernel

/-! Branches (R179, R180): the condition is p0, which reads 1, then its negation; the offset is -2 words. -/

def bw (neg ra : Nat) : BitVec 56 := BitVec.ofNat 56 (8 * neg + 32 * ra + 1024 * 0xFFFFFFFE)

def goes (i : CoreId → StrandId → BitVec 56 → Instr) (op : Nat) (w : BitVec 56) (pc : Nat) : Bool :=
  ready (atWord op w) op w && after (i 0 0 w) (atWord op w) fun d => (d.strand 0 0).pc.toNat == pc

theorem test_br : (goes .br 0x34 (bw 0 0) 0x7FFFFFFFF0 && goes .br 0x34 (bw 1 0) 0x8000000008) = true := by decide +kernel
theorem test_loop : (goes .loop 0x35 (bw 0 1) 0x7FFFFFFFF0 && after (.loop 0 0 (bw 0 1)) (atWord 0x35 (bw 0 1)) fun d =>
    (d.strand 0 0).rdS 1 == 4) = true := by decide +kernel
theorem test_jr : (goes .jr 0x36 (BitVec.ofNat 56 (32 + 1024)) 13 && goes .jr 0x36 (bw 1 1) 0x8000000008) = true := by decide +kernel
theorem test_call : (goes .call 0x37 (BitVec.ofNat 56 (3 + 1024 * 4)) 0x8000000020 &&
    after (.call 0 0 (BitVec.ofNat 56 (3 + 1024 * 4))) (atWord 0x37 (BitVec.ofNat 56 (3 + 1024 * 4))) fun d =>
      (d.strand 0 0).rdS 3 == 0x8000000008) = true := by decide +kernel

/-- No row of the table has bits, so no word spells a command. -/
theorem test_no_bits : decodeTableWord 64 5 = none := rfl

/-- Example 5.2: EXP of -40.0 in P16 lies below minpos and is 0 with UN and NX. -/
theorem test_exp_limit : sfuEval 0 .p16 0x9B00 = (0, fUN ||| fNX) := by decide +kernel

/-- Example 5.2: TANH of -5.0 in P16 is -1 with NX (R127). -/
theorem test_tanh_limit : sfuEval 8 .p16 0xAE00 = (0xC000, fNX) := by decide +kernel

/-! Memory accesses (R181 to R183): s4 is the base of the core's slice, s5 the same at the module's self address. -/

def memDev (op : Nat) (w : BitVec 56) : Dev :=
  (atWord op w).updStrand 0 0 fun s => { s with s := vmap (vmap s.s 4 fun _ => 0x8000000000) 5 fun _ => 0x7FFF008000000000 }

/-- The instruction starts an access at ra plus `off`, and the misaligned one at the odd address stops the last. -/
def starts (i : CoreId → StrandId → BitVec 56 → Instr) (op ra off : Nat) : Bool :=
  ready (memDev op (wd 2 ra off)) op (wd 2 ra off) && after (i 0 0 (wd 2 ra off)) (memDev op (wd 2 ra off)) fun d =>
    (d.strand 0 0).acc.map (fun a => (a.ea.toNat % 2 ^ 48, a.remote)) == [(0x8000000000 + off, false)]

/-- The instruction is ready at an odd address. -/
def misaligned (op ra : Nat) : Bool :=
  let d := memDev op (wd 2 ra 1)
  ready d op (wd 2 ra 1) && ((d.strand 0 0).rdS (wRa (wd 2 ra 1)) + (BitVec.ofNat 32 (wImm (wd 2 ra 1))).signExtend 64).toNat % 2 == 1

theorem test_loads_start : (starts .ld8u 0x50 4 1 && starts .ld8s 0x51 4 7 && starts .ld16u 0x52 4 2 && starts .ld16s 0x53 4 6 &&
    starts .ld32u 0x54 4 4 && starts .ld32s 0x55 4 12 && starts .ld64 0x56 4 8) = true := by decide +kernel

theorem test_loads_misaligned : (misaligned 0x52 4 && misaligned 0x53 4 && misaligned 0x54 4 && misaligned 0x55 4 &&
    misaligned 0x56 4) = true := by decide +kernel

theorem test_stores_start : (starts .st8 0x58 4 1 && starts .st16 0x59 4 2 && starts .st32 0x5A 4 4 && starts .st64 0x5B 4 8 &&
    misaligned 0x59 4 && misaligned 0x5A 4 && misaligned 0x5B 4) = true := by decide +kernel

theorem test_global_start : (starts .ldg 0x5C 5 8 && starts .stg 0x5D 5 0 && starts .aadd 0x5E 5 16 &&
    misaligned 0x5C 5 && misaligned 0x5D 5 && misaligned 0x5E 5) = true := by decide +kernel

/-- The slice's byte 8, as a local address or, for AADD, a global one. -/
def at8 (op : Nat) : Word := if op = 0x5E then 0x7FFF008000000008 else 0x8000000008

/-- Strand 0 of core 0 has one access outstanding, to the slice's byte 8, which holds F1 F2 F3. -/
def outstanding (op : Nat) : Dev :=
  { dev0.updStrand 0 0 fun s => { s with acc := [⟨1, BitVec.ofNat 8 op, wd 2 0 0, 0x8000000000, at8 op, 0x1122334455667788, 0, false⟩] } with
    mem := [(0x8000000008, 0xF1), (0x8000000009, 0xF2), (0x800000000A, 0xF3)] }

def loaded (op : Nat) (v : Word) : Bool :=
  let a : Acc := ⟨1, BitVec.ofNat 8 op, wd 2 0 0, 0x8000000000, at8 op, 0x1122334455667788, 0, false⟩
  (outstanding op).accFirst ((outstanding op).strand 0 0) a && (outstanding op).accAddr a == some 0x8000000008 &&
  after (.loadDataReturn 0 0 1) (outstanding op) fun d => (d.strand 0 0).rdS 2 == v && (d.strand 0 0).acc == []

theorem test_load_returns : (loaded 0x50 0xF1 && loaded 0x51 0xFFFFFFFFFFFFFFF1 && loaded 0x52 0xF2F1 && loaded 0x53 0xFFFFFFFFFFFFF2F1 &&
    loaded 0x54 0xF3F2F1 && loaded 0x55 0xF3F2F1 && loaded 0x56 0xF3F2F1) = true := by decide +kernel

/-- AADD returns the old word and stores the sum. -/
theorem test_atomic_returns : (loaded 0x5E 0xF3F2F1 && after (.loadDataReturn 0 0 1) (outstanding 0x5E) fun d =>
    d.rdMem 0x8000000008 8 == leBytes 8 (0xF3F2F1 + 0x1122334455667788)) = true := by decide +kernel

theorem test_store_completes : (region 0x8000000008 == .stock 0 8 && (outstanding 0x5A).dieOn (dieOf 0) &&
    after (.storeComplete 0 0 1) (outstanding 0x5A) fun d =>
      d.rdMem 0x8000000007 6 == [0, 0x88, 0x77, 0x66, 0x55, 0] && (d.strand 0 0).acc == []) = true := by decide +kernel

theorem test_fetch_return : (dev0.strandLast 0 0 == some 0 && dev0.coreOn 0 && !badPc 0 0x80000000C0 false &&
    after (.fetchReturn 0 0 0x80000000C0) { dev0 with mem := [(0x80000000C8, 0x70)] } fun d =>
      (d.strand 0 0).fetch.any fun x => x == (0x80000000C8, 0x70)) = true := by decide +kernel

/-- A fault of a running last (R159). -/
theorem test_fault : ((dev0.last 0).st == .running && (let d := dev0.fault 2 ⟨0, 0, 0, 0x8000000000, 0x55⟩ 9
    (d.last 0).st == .stopped && (d.strand 0 0).st == .stopped && d.reg (aLstFlt 0 2) == 0x55 && d.reg (aLstFlt 0 3) == 9)) = true := by
  decide +kernel

/-! Engine dispatch (Tables 7.8, 8.7 to 8.10). -/

/-- Eight words of a descriptor from its first words. -/
def padWords (ws : List Word) : List Word := (ws ++ List.replicate 8 0).take 8

/-- Descriptors 1 to 12: tensors A and B, MMA, FINISH with rounding code 4, VOP, VRED, SFN, SMAX1, SMAX2, PLOOK, PLOAD, CVT. -/
def descs0 : List (List Word) := [
  [],
  [0x0100000000001000, 64], [0x0100000000002000, 64], [0x0200000100100801, 0x0000000100000002],
  [0x0300000000410081, 0, 0x0000300000000000, 64],
  [0x0400000100101100, 1, 0x1000, 0x2000, 0, 0x3000],
  [0x040000010C100100, 2, 0x1000, 0, 0, 0x3000],
  [0x0400000100100100, 1, 0x1000, 0, 0, 0x3000],
  [0x0400000100000100, 2, 0x1000, 0, 0, 0, 0x4000, 0x5000],
  [0x0400000104100100, 2, 0x1000, 0, 0, 0x3000, 0x4000, 0x5000],
  [0x0400000100000000, 1, 0x1000, 0, 0, 0x3000],
  [0x0400000000000000, 0, 0x1000, 0, 0, 0, 0, 0x0001000000000000],
  [0x0400000104100100, 0x4000000000000001, 0x1000, 0, 0, 0x3000]]

/-- Last 0 owns array 0, its tiles and the pattern banks of core 0, and the descriptors stand in its table. -/
def eng0 : Dev :=
  (((dev0.setReg (aArrCtl 0 0) 0x88).setReg (aBedCtl 0 0) 0x8888).setReg (aPatCtl 0) 8).setReg (aColmW 0 0) 64
    |>.updCore 0 fun x => { x with descs := ssetList (fun _ => 0) [] 0 (descs0.flatMap padWords) }

def atEngine (op : Nat) (w : BitVec 56) : Dev :=
  (fed eng0 op w).updStrand 0 0 fun s => { s with s := vmap s.s 4 fun _ => 0x8000000400 }

/-- The instruction enters its queue as the only operation. -/
def enters (i : CoreId → StrandId → BitVec 56 → Instr) (op n : Nat) (draw : Word) : Bool :=
  let w := BitVec.ofNat 56 n
  ready (atEngine op w) op w && after (i 0 0 w) (atEngine op w) fun d =>
    d.ops.map (fun o => (o.opcode.toNat, o.pc.toNat, o.phase)) == [(op, 0x8000000000, .queued)] && (d.strand 0 0).draw == draw

/-- MMA of I8 by I8 in integer mode on both halves of array 0, tile 0, descriptor 3. -/
def mmaWord : Nat := 12 + 192 + 3 * 256 + 8 * 2 ^ 18 + 8 * 2 ^ 22

theorem test_mma_dispatches : (enters .mma 0x40 mmaWord 0 && after (.mma 0 0 (BitVec.ofNat 56 mmaWord)) (atEngine 0x40 (BitVec.ofNat 56 mmaWord)) fun d =>
    d.dcls 0 0 0 == 6 && (d.tile 0 0 0).cls == 0) = true := by decide +kernel
theorem test_mmalw_dispatches : enters .mmalw 0x41 mmaWord 0 = true := by decide +kernel

/-- FINISH of a tile whose dispatched class is 6. -/
theorem test_finish_dispatches : (let d := (atEngine 0x42 (BitVec.ofNat 56 0x400)).updTile 0 0 0 fun t => { t with cls := 6 }
    ready d 0x42 (BitVec.ofNat 56 0x400) && after (.finish 0 0 (BitVec.ofNat 56 0x400)) d fun d =>
      d.ops.map (fun o => o.opcode.toNat) == [0x42] && (d.strand 0 0).draw == 1) = true := by decide +kernel
theorem test_lift_dispatches : enters .lift 0x43 (4 * 2 ^ 26) 0 = true := by decide +kernel
theorem test_reload_dispatches : enters .reload 0x44 (4 * 2 ^ 26 + 2 ^ 31) 0 = true := by decide +kernel
theorem test_vop_dispatches : enters .vop 0x45 0x500 0 = true := by decide +kernel
theorem test_vred_dispatches : enters .vred 0x46 0x600 1 = true := by decide +kernel
theorem test_sfn_dispatches : enters .sfn 0x47 0x700 0 = true := by decide +kernel
theorem test_smax1_dispatches : enters .smax1 0x48 0x800 0 = true := by decide +kernel
theorem test_smax2_dispatches : enters .smax2 0x49 0x900 1 = true := by decide +kernel
theorem test_plook_dispatches : enters .plook 0x4A 0xA00 0 = true := by decide +kernel
theorem test_pload_dispatches : enters .pload 0x4B 0xB00 0 = true := by decide +kernel
theorem test_pswap_dispatches : enters .pswap 0x4C 0 0 = true := by decide +kernel
theorem test_cvt_dispatches : enters .cvt 0x4D 0xC00 1 = true := by decide +kernel
theorem test_streams_dispatch : (enters .arm 0x60 0x23 0 && enters .rearm 0x61 3 0 && enters .swap 0x62 0x23 0) = true := by decide +kernel

/-- A descriptor of another type fails its checks (R217). -/
theorem test_descriptor_type : vopOk ((eng0.core 0).desc 6) = false := by decide +kernel

/-! Tallies, waits and strand control (Tables 7.9 and 7.10). -/

/-- The word is ready and the dispatch has the property. -/
def does (d : Dev) (i : CoreId → StrandId → BitVec 56 → Instr) (op n : Nat) (p : Dev → Bool) : Bool :=
  let w := BitVec.ofNat 56 n
  ready (fed d op w) op w && after (i 0 0 w) (fed d op w) p

/-- Amounts of the increments of tally `t`. -/
def incs (d : Dev) (t : TallyId) : List Nat := ((d.core 0).tallies.get t).inc.map fun x => x.amount

theorem test_tadd : does dev0 .tadd 0x68 (3 * 64 + 7 * 2 ^ 17) (fun d => incs d 3 == [7]) = true := by decide +kernel
theorem test_tset : does dev0 .tset 0x69 (3 * 64 + 7 * 2 ^ 17) (fun d => ((d.core 0).tallies.get 3).tset == some 7 && incs d 3 == []) = true := by
  decide +kernel
theorem test_nop_posts : does dev0 .nop 0x70 (2 ^ 42 + 5 * 2 ^ 44) (fun d => incs d 5 == [1]) = true := by decide +kernel

/-- Keystone 2 belongs to last 0 and has one local strand. -/
def keyDev : Dev := dev0.setReg (aKs 2 0) 0x18

theorem test_keystone : (does keyDev .keystone 0x6A (2 * 2 ^ 17) (fun d => (d.key 2).arrived == 1 && (d.strand 0 0).keys.length == 1) &&
    does (keyDev.updHub fun h => { h with keystones := vmap h.keystones 2 fun x => { x with arrived := 1 } }) .keystone 0x6A (2 * 2 ^ 17)
      (fun d => (d.key 2).next == 1 && (d.key 2).arrived == 1)) = true := by decide +kernel
theorem test_keystone_disabled : (let d := fed dev0 0x6A (BitVec.ofNat 56 (2 * 2 ^ 17))
    ready d 0x6A (BitVec.ofNat 56 (2 * 2 ^ 17)) && !bitOf (d.ksCfg 2) 3) = true := by decide +kernel

theorem test_ftwait : (does dev0 .ftwait 0x6B (2 ^ 12) (fun d => (d.strand 0 0).ftwait == some ⟨5, 0x8000000000, 0x6B, BitVec.ofNat 56 (2 ^ 12)⟩) &&
    does dev0 .ftwait 0x6B 0 fun d => (d.strand 0 0).ftwait == none) = true := by decide +kernel
theorem test_ftwait_twice : ready (fed (dev0.updStrand 0 0 fun s => { s with ftwait := some ⟨9, 0x8000000000, 0x6B, 0⟩ }) 0x6B (BitVec.ofNat 56 (2 ^ 12)))
    0x6B (BitVec.ofNat 56 (2 ^ 12)) = true := by decide +kernel

theorem test_halt : (does dev0 .halt 0x71 0 (fun d => (d.strand 0 0).st == .halting) &&
    does dev0 .halt 0x71 (2 ^ 19 + 2 ^ 20) fun d => (d.strand 0 0).st == .running) = true := by decide +kernel
theorem test_trap : does dev0 .trap 0x72 0x1234 (fun d => (d.strand 0 0).st == .trapped && (d.strand 0 0).trap == 0x1234 && codes d == [0x3002]) = true := by
  decide +kernel
theorem test_snap : does dev0 .snap 0x73 9 (fun d => d.hub.plumb.raised == [(1, 0, 9)]) = true := by decide +kernel
theorem test_groups : (does dev0 .tgrpb 0x74 0 (fun d => (d.strand 0 0).group.any fun g => g.movable && g.stage == 0) &&
    does (dev0.updStrand 0 0 fun s => { s with group := some ⟨1, true, 0, 0, 0⟩ }) .tgrpe 0x75 0 (fun d => (d.strand 0 0).group == none) &&
    does dev0 .tgrpe 0x75 0 fun d => (d.strand 0 0).group == none) = true := by decide +kernel

/-- HBM in force; s4 is 64 KiB. -/
def hbmDev (d : Dev) : Dev := (d.setReg (aGlb 0x10) 0x2000000).updStrand 0 0 fun s => { s with s := vmap s.s 4 fun _ => 0x10000 }

def saveWord : Nat := 4 * 2 ^ 21 + 1

theorem test_csave : ((hbmDev dev0).hbmSize == 0x8000000000 && does (hbmDev dev0) .csave 0x76 saveWord (fun d =>
    ((d.last 0).pausing.map fun p => (p.save, p.resume)) == some (some 0x10000, true))) = true := by decide +kernel
theorem test_crest : does (hbmDev dev0) .crest 0x77 saveWord (fun d =>
    d.aoc.restoring.map (fun r => (r.addr, r.scope)) == [(0x10000, .last 1)]) = true := by decide +kernel
theorem test_save_misaligned : (ready (fed dev0 0x76 (BitVec.ofNat 56 (2 ^ 21))) 0x76 (BitVec.ofNat 56 (2 ^ 21)) &&
    ready (fed dev0 0x77 (BitVec.ofNat 56 (2 ^ 21))) 0x77 (BitVec.ofNat 56 (2 ^ 21)) &&
    ((fed dev0 0x76 (BitVec.ofNat 56 (2 ^ 21))).strand 0 0).rdS (wYra (BitVec.ofNat 56 (2 ^ 21))) == 5) = true := by decide +kernel

theorem test_fclr : does (dev0.setReg (aFlags 0 0) 0x1F) .fclr 0x79 (3 * 1024) (fun d => d.reg (aFlags 0 0) == 0x1C) = true := by decide +kernel
theorem test_mxclr : does (dev0.updCore 0 fun x => { x with maxabs := Vector.replicate 32 ⟨1, 2, 3⟩ }) .mxclr 0x7A (2 * 1024) (fun d =>
    (d.core 0).maxabs.get 1 == ⟨0, 0, 0⟩ && (d.core 0).maxabs.get 0 == ⟨1, 2, 3⟩) = true := by decide +kernel

/-! Engines: an operation of core 0, strand 0, last 0, dispatched in cycle 90; the cycle is 100. -/

def opOf (op w : Nat) (n : Nat) (ph : Phase) (due : Nat) : Op where
  id := 4
  core := 0
  strand := 0
  last := 0
  pc := 0x8000000000
  opcode := BitVec.ofNat 8 op
  w := BitVec.ofNat 56 w
  ecore := 0
  earray := 0
  tiles := if op ≤ 0x44 && op != 0x41 then [0] else []
  desc := padWords (descs0.getD n [])
  ta := padWords (descs0.getD 1 [])
  tb := padWords (descs0.getD 2 [])
  stock := 0x8000000400
  draw := 0
  bank := false
  phase := ph
  began := 90
  due := due
  pos := 0
  base := 0
  stop := none
  loaded := false
  loadAt := 0
  rows := none
  tok := false
  slot0 := none
  feed := none
  closed := false
  noCls := false
  flags := 0
  group := none
  part := []

def opDev (o : Op) : Dev := { eng0 with cycle := 100, ops := [o], nextOp := 5 }

/-- The waiting operation starts. -/
def runs (i : Instr) (op w n : Nat) (ph : Phase) : Bool :=
  after i (opDev (opOf op w n .queued 0)) fun d => d.ops.map (fun o => (o.phase, o.began)) == [(ph, 100)]

theorem test_engines_start : (runs (.vectorStart 0) 0x45 0x500 5 .started && runs (.vectorStart 0) 0x46 0x600 6 .started &&
    runs (.sfuStart 0) 0x47 0x700 7 .started && runs (.cvtStart 0) 0x4D 0xC00 12 .started && runs (.plookStart 0) 0x4A 0xA00 10 .started &&
    runs (.ploadPortEntry 0) 0x4B 0xB00 11 .port && after (.ploadWriteStart 0) (opDev (opOf 0x4B 0xB00 11 .port 0)) (fun d =>
      d.ops.map (fun o => o.phase) == [.started])) = true := by decide +kernel

/-- The heads of the queues that the statement names. -/
theorem test_engine_heads : ((opDev (opOf 0x45 0x500 5 .queued 0)).head 0 .vec == some (opOf 0x45 0x500 5 .queued 0) &&
    (opDev (opOf 0x47 0x700 7 .queued 0)).head 0 .sfu == some (opOf 0x47 0x700 7 .queued 0) &&
    (opDev (opOf 0x4D 0xC00 12 .queued 0)).head 0 .cvt == some (opOf 0x4D 0xC00 12 .queued 0) &&
    (opDev (opOf 0x4A 0xA00 10 .queued 0)).head 0 .pat == some (opOf 0x4A 0xA00 10 .queued 0) &&
    (opDev (opOf 0x4C 0 0 .queued 0)).head 0 .pat == some (opOf 0x4C 0 0 .queued 0)) = true := by decide +kernel

/-- The operation began in this cycle, has read what one cycle lets it, and is in the cycle of its last write. -/
def ranDev (op w n : Nat) (m : List Host.Cell) (f : Core → Core) : Dev :=
  let o : Op := { opOf op w n .started 0 with began := 100 }
  let o := { o with due := 100 + o.pace.2 }
  let d := ({ opDev o with mem := m }.updCore 0 f).runCycle o
  { d with cycle := o.due }

/-- What the statement asks of the operation that completes. -/
def ripe (d : Dev) (op : Byte) : Bool := (d.running 0 [op]).any fun o => d.opNow o == o && d.lastWrite o &&
  d.wrs.all fun w => w.op == o.id && decide (w.due ≤ d.cycle)

/-- A running operation that is due completes, with the byte it leaves at `at_` of the slice. -/
def completes (i : Instr) (op w n : Nat) (m : List Host.Cell) (at_ : Nat) (v : Byte) : Bool :=
  let d := ranDev op w n m id
  ripe d (BitVec.ofNat 8 op) && d.byte (0x8000000000 + at_) != v &&
    after i d fun d => d.ops == [] && d.wrs == [] && d.byte (0x8000000000 + at_) == v

/-- P16 elements 1.0 (4000H) at A and at B, or 1.0 twice at A. -/
def ones : List Host.Cell := [(0x8000001001, 0x40), (0x8000001003, 0x40), (0x8000002001, 0x40)]

theorem test_vop_completes : completes (.vopComplete 0) 0x45 0x500 5 ones 0x3001 0x48 = true := by decide +kernel
theorem test_vred_completes : completes (.vredComplete 0) 0x46 0x600 6 ones 0x3001 0x48 = true := by decide +kernel
theorem test_sfn_completes : (let d := ranDev 0x47 0x700 7 ones id
    ripe d 0x47 && after (.sfnComplete 0) d fun d => d.ops == []) = true := by decide +kernel
theorem test_plook_completes : (let d := ranDev 0x4A 0xA00 10 [] fun x => { x with bank0 := [(0, 0x1234)] }
    ripe d 0x4A && after (.plookComplete 0) d fun d => d.rdMem 0x8000003000 2 == [0x34, 0x12] && d.ops == []) = true := by decide +kernel
theorem test_cvt_completes : completes (.cvtComplete 0) 0x4D 0xC00 12 ones 0x3001 0x40 = true := by decide +kernel
theorem test_smax1_completes : (let d := ranDev 0x48 0x800 8 ones id
    ripe d 0x48 && after (.smax1Complete 0) d fun d => d.ops == []) = true := by decide +kernel
theorem test_smax2_completes : (let d := ranDev 0x49 0x900 9 ones id
    ripe d 0x49 && after (.smax2Complete 0) d fun d => d.ops == []) = true := by decide +kernel

theorem test_pswap : after (.pswapProcess 0) (opDev (opOf 0x4C 0 0 .queued 0)) (fun d => (d.core 0).patActive && d.ops == []) = true := by decide +kernel
theorem test_pload : after (.ploadComplete 0) { opDev { opOf 0x4B 0xB00 11 .started 100 with began := 100 } with mem := [(0x8000001002, 7)] } (fun d =>
    (d.core 0).bank0 == [(1, 7)] && d.ops == []) = true := by decide +kernel

/-! Arrays. -/

/-- An MMA of I8: A is 3, 4 and B is 5, 6. -/
def mmaDev (o : Op) : Dev := { opDev o with mem := [(0x8000001000, 3), (0x8000001001, 4), (0x8000002000, 5), (0x8000002040, 6)] }

def mma0 (ph : Phase) : Op := opOf 0x40 mmaWord 3 ph 0

theorem test_mma_starts : ((mmaDev (mma0 .queued)).head 0 (.half 0 0) == some (mma0 .queued) && (mmaDev (mma0 .queued)).weightsOk (mma0 .queued) &&
    runs (.mmaStart 0 0 0) 0x40 mmaWord 3 .started && runs (.mmaStart 0 0 1) 0x41 mmaWord 3 .started) = true := by decide +kernel
theorem test_weight_load : (let d := mmaDev (mma0 .started)
    d.loadNext 0 0 0 == some (mma0 .started) && d.loadAllowed (mma0 .started) && !d.zkBad (mma0 .started) (mma0 .started).shape &&
    after (.weightLoadStart 0 0 0) d fun d => d.ops.map (fun o => (o.loaded, o.loadAt)) == [(true, 100)]) = true := by decide +kernel

/-- The pass of the MMA: 3 × 5 + 4 × 6 = 39 in entry (0, 0), an integer in two's complement (Table 3.8). -/
def passDev : Dev := mmaDev { mma0 .started with loaded := true, loadAt := 90 }

theorem test_pass_allowed : (passDev.slotAllowed { mma0 .started with loaded := true, loadAt := 90 } &&
    decide ((mma0 .started).shape.cost ≤ passDev.aoc.gov.units.get (dieOf 0)) &&
    (passDev.scan ((mma0 .started).aReads (mma0 .started).shape 0 0)).2 == none) = true := by
  decide +kernel
theorem test_array_completions_due : (let o : Op := { mma0 .started with pos := 1, loaded := true, due := 100 }
    (o.injected && ((opDev o).arrOps 0 0).find? (fun x => x.opcode == 0x40 && x.usesHalf 0) == some o) &&
    ((opDev (opOf 0x43 0 0 .started 100)).running 0 [0x43] == some (opOf 0x43 0 0 .started 100)) &&
    ((opDev (opOf 0x44 0x80000000 0 .started 100)).running 0 [0x44] == some (opOf 0x44 0x80000000 0 .started 100))) = true := by decide +kernel
theorem test_mmalw_completes : after (.mmalwComplete 0 0 0) (opDev { opOf 0x41 mmaWord 3 .started 100 with loaded := true }) (fun d =>
    d.ops == [] && (d.half 0 0 0).preloaded && (d.half 0 0 1).preFmt == 8) = true := by decide +kernel
theorem test_finish_starts : (runs (.finishStart 0 0) 0x42 0x400 4 .started && !(opDev (opOf 0x42 0x400 4 .queued 0)).poisonedTile (opOf 0x42 0x400 4 .queued 0)) =
    true := by decide +kernel
theorem test_slice_port_starts : (runs (.slicePortStart 0) 0x44 0x80000000 0 .started &&
    after (.slicePortStart 0) ((opDev (opOf 0x43 0 0 .queued 0)).updTile 0 0 0 fun t => { t with cls := 6 }) fun d =>
      d.ops.map (fun o => o.phase) == [.started]) = true := by decide +kernel
theorem test_half_drain : (let d := (opDev (mma0 .queued)).updHalf 0 0 0 fun h => { h with drainEnd := some 100, active := true }
    after (.halfDrainEnd 0 0 0) d (fun d => (d.half 0 0 0).drainEnd == none && !(d.half 0 0 0).active) &&
    after (.halfDrainEnd 0 0 0) { d with cycle := 99 } fun d => (d.half 0 0 0).drainEnd == some 100) = true := by decide +kernel

/-- The first slot is due, and enters with the weights 5 and 6 in the shadow registers, which become active (R65, R71). -/
theorem test_pass_starts : after (.passStart 0 0 0) (passDev.updArr 0 0 fun x => { x with shadow := [(0, 5), (64, 6)] }) (fun d =>
    d.ops.map (fun o => (o.feed, o.slot0)) == [(some (0, 100), some 100)] && let d := d.feedSlot (d.ops.getD 0 (mma0 .queued)) 0
    d.ops.map (fun o => (o.pos, o.loaded)) == [(1, false)] && d.slots.map (fun l => (l.row, l.at_)) == [(0, 100)] &&
    (d.arr 0 0).act == [(0, 5), (64, 6)] && d.aoc.gov.units.get 0 == 4194304 - 64) = true := by decide +kernel

theorem test_slot_waits : (let d := passDev.updAoc fun x => { x with gov := { x.gov with units := Vector.replicate 2 63 } }
    after (.passStart 0 0 0) d fun d => let d := d.feedSlot (d.ops.getD 0 (mma0 .queued)) 0
      d.ops.map (fun o => (o.pos, o.feed)) == [(0, some (0, 101))] && d.slots == []) = true := by decide +kernel

/-- A slot of activations 3, 4 over weights 5, 6 that entered in cycle 100: the foot writes 3 × 5 + 4 × 6 = 39 (R52) at the end of
cycle 100 + 64 + 1 + 5 (R66). -/
def slot0 : Slot where
  op := 4
  origin := (mma0 .started).origin
  core := 0
  array := 0
  mask := 3
  base := 0
  beat := 1
  cols := 1
  dead := false
  row := 0
  at_ := 100
  act := [(0, [(3, 0)]), (1, [(4, 0)])]
  fresh := true
  first := true
  last := true
  pass := 0
  wts := none
  flips := 0
  acc := []
  done := 0

def footDev (now : Nat) : Dev :=
  { (opDev { mma0 .started with pos := 1, due := now }).updArr 0 0 fun x => { x with act := [(0, 5), (64, 6)] } with cycle := now, slots := [slot0] }

def entry0 (d : Dev) : BitVec 256 := sget (fun _ => (0 : BitVec 256)) (d.tile 0 0 0).entries 0

theorem test_foot : (entry0 ((footDev 169).feet (fun _ => true) 169) == 0 && entry0 ((footDev 170).feet (fun _ => true) 170) == 39) = true := by
  decide +kernel

theorem test_mma_completes : (let d := footDev 171
    let o : Op := { mma0 .started with pos := 1, due := 171 }
    o.injected && (d.arrOps 0 0).find? (fun x => x.opcode == 0x40 && x.usesHalf 0) == some o && d.opNow o == o &&
    (d.feet (fun i => i == 4) 171).slots == [] && after (.mmaComplete 0 0 0) d fun d => d.ops == [] && entry0 d == 39) = true := by decide +kernel

theorem test_finish_completes : (let o : Op := { opOf 0x42 0x400 4 .started 111 with began := 100 }
    let d := ((opDev o).updTile 0 0 0 fun t => { t with cls := 6, entries := [(0, 1)] }).finishCycle o
    let d := { d with cycle := 111 }
    d.ops.map (fun o => o.pos == o.total) == [true] && d.wrs.map (fun w => w.due) == [111] &&
    after (.finishComplete 0 0) d fun d => d.ops == [] && d.rdMem 0x8000003000 2 == [0, 0x40]) = true := by decide +kernel

/-- The last 32 entries of a lift and of a reload. -/
theorem test_port_completes : (let l : Op := { opOf 0x43 0 0 .started 100 with pos := 4096 }
    let w : Wr := ⟨100, 4, 0, [(0x8000001000, [7])], 0, none, MaxAbs.zero, none, [], 61, 0⟩
    let d := { opDev l with wrs := [w] }
    d.lastWrite l && after (.liftComplete 0) d (fun d => d.ops == [] && d.byte 0x8000001000 == 7) &&
    let r : Op := { opOf 0x44 0x80000000 0 .started 100 with began := 100, base := 4064, pos := 4095 }
    after (.reloadComplete 0) { opDev r with mem := [(r.stock.toNat + 32 * 4095, 9)] } fun d =>
      d.ops == [] && sget (fun _ => (0 : BitVec 256)) (d.tile 0 0 0).entries 4095 == 9 && (d.tile 0 0 0).cls == BitVec.ofNat 3 (wCls 0x80000000)) = true := by
  decide +kernel

/-! Hods: stream descriptor 3 of core 0 moves 64 bytes within the module, and H0's queue holds a command for it. -/

def sdWords0 : List Word := padWords [0x8000001000, 0x7FFF008000002000, 0x1000010001000040, 0, 0, 0, 5 * 2 ^ 32, 0]

/-- The queue of H0 holds the command of opcode `op`. -/
def hodDev (op : Nat) : Dev :=
  { dev0.updCore 0 fun x => { x with sdescs := ssetList (fun _ => 0) [] 24 sdWords0 } with
    cycle := 100, nextOp := 5, ops := [{ opOf op 3 0 .queued 0 with desc := [] }] }

/-- Its run, of H0. -/
def run0 : Run := ⟨sdWords0, some ⟨0, 0, 0, 0x8000000000, mkInsn 0x60 3⟩, 0, 0, 0, 0, 0, [], [], none, false⟩

def withRun (d : Dev) (r : Run) : Dev := d.updSd (.core 0 0) 3 fun s => { s with active := some r, slots := 2, gen := 7 }

theorem test_arm_taken : ((hodDev 0x60).hodHead (.core 0 0) == some (1, 3, some { opOf 0x60 3 0 .queued 0 with desc := [] }) &&
    (sdescOf sdWords0).valid sdWords0 true && after (.armTaken (.core 0 0)) (hodDev 0x60) fun d =>
      ((d.sd (.core 0 0) 3).active.map fun r => r.desc) == some sdWords0 && (d.sd (.core 0 0) 3).gen == 1 && d.ops == []) = true := by decide +kernel
theorem test_rearm_taken : (after (.rearmTaken (.core 0 0)) (hodDev 0x61) (fun d => (d.sd (.core 0 0) 3).active.isSome) &&
    after (.rearmTaken (.core 0 0)) (withRun (hodDev 0x61) run0) fun d => (d.sd (.core 0 0) 3).shadow.isSome && (d.sd (.core 0 0) 3).gen == 7) = true := by
  decide +kernel

/-- A double-buffered run with a filled slot. -/
theorem test_swap_taken : after (.swapTaken (.core 0 0)) ((withRun (hodDev 0x62) { run0 with desc := sdWords0.set 2 0x1100010001000040 }).updSd (.core 0 0) 3
    fun s => { s with filled := 1 }) (fun d => (d.sd (.core 0 0) 3).filled == 0 && (d.sd (.core 0 0) 3).relNo == 1) = true := by decide +kernel

def xfer0 : Xfer := ⟨3, 0, 64, 0x8000001000, 0x7FFF008000002000, none, none, 7, false⟩

theorem test_transfer_issues : ((withRun (hodDev 0x70) run0).nextRun (.core 0 0) == some (3, run0) &&
    after (.transferIssue (.core 0 0)) (withRun (hodDev 0x70) run0) fun d => (d.hod (.core 0 0)).xfers == [xfer0]) = true := by decide +kernel
/-- With the source in module 5 the hod reads it; with the destination there it carries what it read here. -/
theorem test_transfer_away : (after (.transferIssue (.core 0 0)) (withRun (hodDev 0x70) { run0 with desc := (sdWords0.set 0 0x0005008000001000).set 2 0x10001000040 }) (fun d =>
      (d.hod (.core 0 0)).xfers == [{ xfer0 with src := 0x0005008000001000, tag := some 0 }] && d.hub.reqs.length == 1) &&
    after (.transferIssue (.core 0 0)) (withRun (hodDev 0x70) { run0 with desc := sdWords0.set 1 0x0005008000002000 }) fun d =>
      (d.hod (.core 0 0)).xfers == [{ xfer0 with dst := 0x0005008000002000, data := some (zeros 64), tag := some 0 }]) = true := by decide +kernel

/-- An entry of one packet with 3 bytes. -/
def ent0 : List Byte := leBytes 8 0x12340066 ++ zeros 56

def packetRun : Run := { run0 with desc := sdWords0.set 2 0x1200010001000040, pkt := [QEntry.ofBytes ent0 0] }

/-- A tile of a mode-2 run is the packet that it has popped: the header of R230, then the payload. -/
theorem test_transfer_of_packet : ((sdescOf packetRun.desc).mode == 2 && (withRun (hodDev 0x70) packetRun).nextRun (.core 0 0) == some (3, packetRun) &&
    after (.transferIssue (.core 0 0)) (withRun (hodDev 0x70) packetRun) fun d =>
      (d.hod (.core 0 0)).xfers.map (fun x => x.data.map fun b => leAt b 0 4) == [some 3]) = true := by decide +kernel
theorem test_transfer_completes : (let d := { (withRun (hodDev 0x70) { run0 with tile := 1 }).updHod (.core 0 0) fun x => { x with xfers := [xfer0] } with
      mem := [(0x8000001003, 9)] }
    d.rangeAwake 0x8000001000 64 && after (.transferComplete (.core 0 0) 0) d fun d =>
      (d.hod (.core 0 0)).xfers == [] && d.byte 0x8000002003 == 9 && (d.sd (.core 0 0) 3).active == none) = true := by decide +kernel
theorem test_shadow_activates : (let d := (withRun (hodDev 0x70) { run0 with tile := 1, done := 1 }).updSd (.core 0 0) 3 fun s => { s with
      shadow := some run0, freedAt := 99 }
    after (.shadowRunActivate (.core 0 0) 3) d fun d => (d.sd (.core 0 0) 3).active == some run0 && (d.sd (.core 0 0) 3).gen == 8) = true := by
  decide +kernel

/-- A real-time last whose tile 0 is due at instant 5; fabric time is 5. -/
theorem test_deadline_miss : (let r := { run0 with desc := sdWords0.set 5 5 }
    let d := ((withRun (hodDev 0x70) r).updLast 0 fun x => { x with image := some { img0 with flags := 1 } }).updHub fun h => { h with
      ftime := { h.ftime with ft := 5 } }
    after (.deadlineMiss (.core 0 0) 3 0) d fun d => codes d == [0x4002] && d.regFld (aMem 0x40) 0 32 == 1 && (d.last 0).st == .running) = true := by
  decide +kernel

theorem test_fabric_hods : (after (.fhArm 11) up (fun d => d.hub.fhq.get 11 == [1]) && after (.fhRearm 0) up (fun d => d.hub.fhq.get 0 == [2]) &&
    after (.fhSwap 1) up (fun d => d.hub.fhq.get 1 == [3]) && after (.fhArm 12) up fun d => codes d == [0x8001] && d.hub.fhq.get 12 == []) = true := by
  decide +kernel

/-- A write that finds 16 commands queued waits (R235). -/
theorem test_fabric_hod_waits : after (.fhArm 3) (up.updHub fun h => { h with fhq := Vector.replicate 16 (List.replicate 16 1) }) (fun d =>
    d.hub.fhWait == [(3, 1)] && (d.hub.fhq.get 3).length == 16) = true := by decide +kernel

/-! Spill queues: queue 1 is enabled. -/

def queDev : Dev := up.setReg (aQue 1 0x1000) 1

theorem test_push : (after (.push 1 ent0) queDev fun d => (d.queEntries 1).map (fun e => (e.sop, e.eop, e.bytes, e.source, e.seq)) ==
    [(true, true, 3, 0x1234, 0)] && (d.queue 1).seq == 1) = true := by decide +kernel

/-- A queue of 128 entries is full: the push waits, and enters once an entry is gone. -/
theorem test_push_waits : (let e := QEntry.ofBytes ent0 0
    let full := queDev.updQueue 1 fun q => { q with head := List.replicate 64 e, tail := List.replicate 64 e }
    full.queFull 1 && after (.push 1 ent0) full (fun d => (d.queue 1).waiting == [ent0] && (d.queue 1).count == 128) &&
    after (.deferredPush 1) (queDev.updQueue 1 fun q => { q with waiting := [ent0] }) fun d => d.queEntries 1 == [e] && (d.queue 1).waiting == []) =
    true := by decide +kernel
theorem test_push_disabled : after (.push 1 ent0) up (fun d => (d.queue 1).count == 0 && d.regFld (aQue 1 0x1028) 32 16 == 1) = true := by
  decide +kernel

/-- A packet's end is told to module 5 (R238). -/
theorem test_push_notice : (let d := (up.setReg (aQue 1 0x1000) 0x41).setReg (aQue 1 0x1010) 0x0005000000001000
    d.targetOf 0x0005000000001000 == .away 5 0x1000 && (QEntry.ofBytes ent0 0).eop &&
    after (.push 1 ent0) d fun d => d.hub.reqs.map (fun r => (r.who, r.addr)) == [(.notify none, 0x0005000000001000)]) = true := by decide +kernel
theorem test_pop : (let e := QEntry.ofBytes ent0 5
    let d := queDev.updQueue 1 fun q => { q with tail := [e] }
    ((d.queMoves 1).queue 1).head == [e] && after (.pop 1 64) d (fun d => (d.queue 1).count == 0 && d.out == [.popped 1 e.toBytes]) &&
    after (.pop 1 64) { d with now := { d.now with popped := [1] } } (fun d => (d.queue 1).count == 1 && (d.queue 1).pops == 1 && d.out == []) &&
    after (.pop 1 64) queDev fun d => (d.queue 1).count == 0 && d.out == [.popped 1 (zeros 64)]) = true := by decide +kernel

/-- A flush takes effect at the end of its cycle (R241). -/
theorem test_flush : (let q := queDev.updQueue 1 fun q => { q with head := [QEntry.ofBytes ent0 5], pkts := 1 }
    after (.queFlush 1 1) q (fun d => (d.queue 1).flushing && (d.queue 1).count == 1) &&
    ((q.updQueue 1 fun q => { q with flushing := true }).flushCycle.queue 1).count == 0) = true := by
  decide +kernel
theorem test_queue_registers : (after (.queCfgWrite 1 .cfg (1 + 2 * 16)) up (fun d => d.regFld (aQue 1 0x1000) 0 7 == 33) &&
    after (.queCfgWrite 1 .ring 0x4000) up (fun d => d.regFld (aQue 1 0x1008) 0 39 == 0x4000) &&
    after (.queCfgWrite 1 .note 77) up (fun d => d.reg (aQue 1 0x1010) == 77) &&
    after (.queCfgWrite 1 .cfg (1 + 2 * 15 + 64)) up (fun d => d.regFld (aQue 1 0x1000) 0 7 == 65 && codes d == [0x8001]) &&
    let q := queDev.updQueue 1 fun q => { q with head := [QEntry.ofBytes ent0 5] }
    after (.queCfgWrite 1 .cfg (1 + 2 * 16)) q (fun d => d.regFld (aQue 1 0x1000) 0 7 == 1 && codes d == [0x8001]) &&
    after (.queCfgWrite 1 .ring 0x4000) q fun d => d.regFld (aQue 1 0x1008) 0 39 == 0 && codes d == [0x8001]) = true := by decide +kernel

/-! Register writes. -/

theorem test_tally_writes : (after (.talValWrite 0 63 9) up (fun d => ((d.core 0).tallies.get 63).val == some 9) &&
    after (.talAddWrite 0 63 9) up fun d => incs d 63 == [9]) = true := by decide +kernel
theorem test_maxabs_clear : (let d := { up.updCore 0 fun x => { x with maxabs := Vector.replicate 32 ⟨1, 2, 3⟩ } with
      now := { up.now with gath := [(0, 31, ⟨4, 5, 6⟩)] } }
    after (.fmtMaxabsClr 0 0x80000001) d fun d => (d.core 0).maxabs.get 31 == ⟨4, 5, 6⟩ && (d.core 0).maxabs.get 0 == ⟨0, 0, 0⟩ &&
      (d.core 0).maxabs.get 1 == ⟨1, 2, 3⟩) = true := by decide +kernel
theorem test_assignments : (after (.patCtlWrite 0 9) up (fun d => d.reg (aPatCtl 0) == 9) && after (.seqCtlWrite 0 0x99) up (fun d => d.reg (aSeqCtl 0) == 0x99) &&
    after (.arrCtlWrite 0 0 0x9A) eng0 (fun d => d.reg (aArrCtl 0 0) == 0x9A) && after (.bedCtlWrite 0 0 0x9999) eng0 (fun d => d.reg (aBedCtl 0 0) == 0x9999)) =
    true := by decide +kernel

/-- A write that would change the assignment of a unit in use is ignored, and recorded (R88, R110, R140, Table 6.17). -/
theorem test_assignments_guarded : (after (.seqCtlWrite 0 0x99) dev0 (fun d => d.reg (aSeqCtl 0) == 0x98 && codes d == [0x8001]) &&
    after (.arrCtlWrite 0 0 0x99) (eng0.updHalf 0 0 1 fun h => { h with drainEnd := some 5 }) (fun d => d.reg (aArrCtl 0 0) == 0x88 && codes d == [0x8001]) &&
    after (.bedCtlWrite 0 0 0x9999) (opDev (mma0 .queued)) (fun d => d.reg (aBedCtl 0 0) == 0x8888 && codes d == [0x8001]) &&
    after (.patCtlWrite 0 9) (opDev (opOf 0x4C 0 0 .queued 0)) fun d => d.reg (aPatCtl 0) == 8 && codes d == [0x8001]) = true := by decide +kernel
theorem test_register_write : (after (.registerWrite (BitVec.ofNat 48 (aGlb 0x100)) (leBytes 8 77)) up (fun d => d.reg (aGlb 0x100) == 77) &&
    after (.registerWrite (BitVec.ofNat 48 (aGlb 0)) (leBytes 8 77)) up fun d => d.reg (aGlb 0) == up.reg (aGlb 0)) = true := by decide +kernel

/-! Requests of the control protocol (Table 11.3). -/

/-- A message of the type with the body (Table 11.2). -/
def msg (type : Nat) (body : List Byte) : List Byte :=
  leBytes 2 0x4E5A ++ [1] ++ leBytes 1 type ++ leBytes 4 9 ++ zeros 4 ++ leBytes 4 body.length ++ zeros 16 ++ body

/-- The request is at the head of control port 0. -/
def asking (d : Dev) (type : Nat) (b : List Byte) : Dev :=
  (d.updCtl 0 fun c => { c with link := true, waiting := [dgram (msg type b)] }).updAoc fun a => { a with order := [0] }

/-- It will be carried out. -/
def carried (d : Dev) (type : Nat) (b : List Byte) : Bool :=
  let x := asking d type b
  let g := dgram (msg type b)
  (x.ctl 0).waiting == [g] && x.ncpFirst 0 && x.ncpServes 0 && x.aoc.trust.stage == .compute && x.aoc.memJob == none &&
  leAt g.payload 3 1 == type && g.payload.drop 32 == b && leAt g.payload 16 8 == 0 && !(askerOf 0 g).injected &&
  x.aoc.cache.all (fun c => !sameKey c.asker (askerOf 0 g)) && x.aoc.longs == [] && decide (x.aoc.cache.length < 256) && !x.replaying 1

theorem carried_of {d : Dev} {type : Nat} {b : List Byte} (h : carried d type b = true) :
    Carried ⟨asking d type b, []⟩ 0 type (dgram (msg type b)) [] b := by
  simp only [carried, Bool.and_eq_true, beq_iff_eq, Bool.not_eq_true', List.all_eq_true, decide_eq_true_eq] at h
  obtain ⟨⟨⟨⟨⟨⟨⟨⟨⟨⟨⟨⟨h0, hf⟩, h1⟩, h2⟩, h3⟩, h4⟩, h5⟩, h6⟩, h7⟩, h8⟩, h9⟩, h10⟩, h11⟩ := h
  exact ⟨h0, hf, h1, h2, h3, h4, h5, Or.inl h6, h7, h8, h9, h10, h11⟩

/-- Status and detail of the answers sent. -/
def replies (d : Dev) : List (Nat × Nat) := d.out.filterMap fun o => match o with
  | .answer _ m => some (leAt m 8 2, leAt m 10 2)
  | _ => none

/-- The request is carried out and has the outcome. -/
def asks (i : CtlId → Instr) (type : Nat) (b : List Byte) (d : Dev) (p : Dev → Bool) : Bool := carried d type b && after (i 0) (asking d type b) p

/-- Last 0 is named by the first body byte 0. -/
def lastBody (n : Nat) : List Byte := zeros n

/-- Last 0 is LOADED. -/
def loadedDev : Dev := up.updLast 0 fun x => { x with st := .loaded, image := some img0 }

theorem test_arrival : (let d := up.updCtl 0 fun c => { c with link := true, history := [(0x33, 4)] }
    after (.ncpDatagramArrival 0 (dgram (msg 1 []))) d (fun d => (d.ctl 0).waiting == [dgram (msg 1 [])]) &&
    after (.ncpDatagramArrival 0 { dgram (msg 1 []) with sound := false }) d (fun d => (d.ctl 0).waiting == [] && d.regFld (aCtlp 0 8) 48 16 == 1) &&
    after (.ncpDatagramArrival 0 { dgram (msg 1 []) with rtag := some 4 }) d fun d => (d.ctl 0).waiting == [] && d.regFld (aCtlp 0 8) 32 16 == 1) = true := by
  decide +kernel
theorem test_unknown_type : asks .ncpUnknownType 0x60 [] up (fun d => replies d == [(2, 0)]) = true := by decide +kernel
theorem test_ident : asks .ncpIdent 1 [] up (fun d => replies d == [(0, 0)] && d.aoc.cache.length == 1) = true := by decide +kernel
theorem test_unload : (asks .ncpUnload 3 (zeros 8) loadedDev (fun d => replies d == [(0, 0)] && d.last 0 == Last.init) &&
    asks .ncpUnload 3 (zeros 8) dev0 fun d => replies d == [(8, 2)] && (d.last 0).st == .running) = true := by decide +kernel
theorem test_launch : (asks .ncpLaunch 4 (zeros 16) loadedDev (fun d => (d.last 0).st == .running && (d.strand 0 1).pc == 0x8000000100) &&
    asks .ncpLaunch 4 (zeros 8 ++ leBytes 8 9) loadedDev (fun d => (d.last 0).pendingLaunch == some 9 && replies d == [(0, 0)]) &&
    asks .ncpLaunch 4 (zeros 8 ++ leBytes 8 9) (loadedDev.updTime fun t => { t with ft := 9 }) fun d => replies d == [(7, 0)]) = true := by decide +kernel
theorem test_launch_at_instant : after (.launchAtInstant 0) ((loadedDev.updTime fun t => { t with ft := 9 }).updLast 0 fun x => { x with
    pendingLaunch := some 9 }) (fun d => (d.last 0).st == .running && (d.last 0).pendingLaunch == none) = true := by decide +kernel
theorem test_ncp_halt : asks .ncpHalt 5 (zeros 8) dev0 (fun d => (d.last 0).st == .stopped && d.regFld (aLstFlt 0 0) 0 8 == 1 && replies d == [(0, 0)]) = true := by
  decide +kernel
theorem test_pause : asks .ncpPause 6 (zeros 16) dev0 (fun d => (d.last 0).pausing.isSome && (d.last 0).st == .running && replies d == [] &&
    d.aoc.longs.length == 1) = true := by decide +kernel

theorem test_pause_saves : asks .ncpPause 6 ([0, 1] ++ zeros 6 ++ leBytes 8 0x10000) (hbmDev dev0) (fun d =>
    ((d.last 0).pausing.map fun q => (q.save, q.keep)) == some (some 0x10000, true) && replies d == []) = true := by decide +kernel

/-- The asker of a request of port 0. -/
def asker0 : Asker := ⟨0, 0x11, 0x2222, 9, 6⟩

theorem test_pause_completes : after (.pauseComplete 0) ({ dev0 with cycle := 1 }.updLast 0 fun x => { x with pausing := some ⟨none, false, some asker0, none, false, 0, 0, false⟩ })
    (fun d => (d.last 0).st == .paused && (d.last 0).pausing == none && replies d == [(0, 0)]) = true := by decide +kernel

theorem test_pause_faults : after (.pauseComplete 0) (dev0.updLast 0 fun x => { x with
    st := .stopped, pausing := some ⟨none, false, some asker0, none, false, 0, 0, false⟩ }) (fun d => (d.last 0).pausing == none &&
    replies d == [(11, 0)]) = true := by decide +kernel

/-! An image of one logical core whose strand 0 holds a NOP (Tables 6.12 to 6.14). -/

def image0 : List Byte :=
  leBytes 4 0x4951485A ++ [1, 0, 2, 0] ++ leBytes 8 184 ++ [1, 0] ++ zeros 46 ++ leBytes 8 128 ++ leBytes 8 144 ++ leBytes 4 1 ++ zeros 44 ++
  ([1] ++ zeros 15) ++ ([1] ++ zeros 15 ++ leBytes 8 8 ++ leBytes 8 176) ++ leBytes 8 0x7000000000000000

/-- The image lies at the base of the pseudo-static DRAM. -/
def imageDev : Dev := up.wrMem dramBase image0

def loadBody (addr : Nat) : List Byte := [0, 1] ++ zeros 6 ++ leBytes 8 addr ++ leBytes 8 184 ++ zeros 8 ++ [0]

theorem test_load : (image0.length == 184 && imageOk image0 [0] && asks .ncpLoad 2 (loadBody dramBase) imageDev (fun d =>
    (d.last 0).loading.isSome && (d.last 0).st == .empty && replies d == [])) = true := by decide +kernel
theorem test_load_refused : (!up.imagePlace 0xFFFFFFFFF000 184 && asks .ncpLoad 2 (loadBody 0xFFFFFFFFF000) up (fun d =>
    replies d == [(4, 1)] && codes d == [0x3003])) = true := by decide +kernel
theorem test_loader : (let i := parseImage image0 [0] 0
    up.coresReady i && up.loadCheck 0 i == 0 && after (.loaderWriteSections 0) (up.updLast 0 fun x => { x with loading := some (i, none, image0) }) fun d =>
      (d.last 0).st == .loaded && d.byte 0x8000000007 == 0x70 && d.strandLast 0 0 == some 0) = true := by decide +kernel

/-! Pauses, checkpoints, saves and restores. -/

def pausedDev : Dev := (hbmDev dev0).updLast 0 fun x => { x with st := .paused }

theorem test_lresume : asks .ncpLresume 7 (zeros 8) pausedDev (fun d => (d.last 0).st == .running && replies d == [(0, 0)]) = true := by decide +kernel
theorem test_sresume : (asks .ncpSresume 8 (zeros 8) (dev0.updStrand 0 0 fun s => { s with st := .trapped }) (fun d =>
      (d.strand 0 0).st == .running && replies d == [(0, 0)]) &&
    asks .ncpSresume 8 (zeros 8) ((dev0.updLast 0 fun x => { x with st := .paused }).updStrand 0 0 fun s => { s with st := .trapped }) (fun d =>
      (d.strand 0 0).st == .trapped && replies d == [(8, 3)]) &&
    asks .ncpSresume 8 (zeros 8) up fun d => replies d == [(8, 0)]) = true := by decide +kernel
theorem test_ckpt : (asks .ncpCkpt 14 [] up (fun d => replies d == [(4, 0x20)]) &&
    asks .ncpCkpt 14 [] ((hbmDev dev0).setReg (aCkp 0) 0x8000000000) (fun d => d.regFld (aCkp 8) 0 3 == 1 && (d.last 0).pausing.isSome && replies d == []) &&
    asks .ncpCkpt 14 [] ((hbmDev up).setReg (aCkp 0) 0x8000000000) fun d => d.regFld (aCkp 8) 0 3 == 2) = true := by decide +kernel
theorem test_restore : asks .ncpRestore 15 (zeros 8 ++ leBytes 8 0x10000) (hbmDev up) (fun d =>
    d.aoc.restoring.map (fun r => (r.addr, r.scope)) == [(0x10000, .last 0)] && replies d == []) = true := by decide +kernel
/-- The save of last 0, asked for in cycle 0. -/
def pause0 : Pausing := ⟨some 0x10000, false, some asker0, none, false, 0, 0, true⟩

/-- A last without a core, at its save instant. -/
def bareDev : Dev := (hbmDev up).updLast 0 fun x => { x with st := .running, pausing := some pause0 }

theorem test_save_latches : after (.pauseComplete 0) { bareDev with cycle := 1 } (fun d => (d.last 0).st == .paused && (d.last 0).pausing.isSome &&
    d.out == [] && d.saves.map (fun y => (y.addr, y.scope)) == [(0x10000, .last 0)]) = true := by decide +kernel

def latchedDev : Dev := { bareDev.updLast 0 fun x => { x with st := .paused } with saves := [⟨0x10000, .last 0, [(1, 7)], 64⟩] }

theorem test_save_completes : after (.saveComplete (.last 0)) latchedDev (fun d => ((d.last 0).pausing.map fun q => q.saved) == some true &&
    d.rdMem 0x10000 3 == [0, 7, 0] && d.saves == []) = true := by decide +kernel

/-- The digest of an area without leaves (its header is all 0 here). -/
def savedDev : Dev := bareDev.updLast 0 fun x => { x with st := .paused, pausing := some { pause0 with saved := true } }

theorem test_digest_completes : (savedDev.areaError 0x10000 == none && after (.digestComplete (.last 0)) savedDev fun d =>
    (d.last 0).pausing == none && (d.last 0).st == .paused && d.byte (0x10000 + 112) == 1 && replies d == [(0, 0)]) = true := by decide +kernel
theorem test_digest_damaged : (let d := { savedDev.wrMem 0x10038 [0, 0x20] with ecc := [(0x11000, true)] }
    d.areaError 0x10000 != none && after (.digestComplete (.last 0)) d fun d => (d.last 0).pausing == none && codes d == [0x4001, 0x6002] &&
      d.regFld (aCkp 8) 0 3 == 6) = true := by decide +kernel

/-- A checkpoint whose copy is complete, with no last to resume, and its digest. -/
theorem test_checkpoint_completes : (let d := { (hbmDev up).updHub fun h => { h with ckpt := some ⟨some asker0, 0, 0, [], false⟩ } with
      saves := [⟨0x10000, .module, [(1, 7)], 64⟩] }
    after (.saveComplete .module) d (fun d => d.byte 0x10001 == 7 && d.regFld (aCkp 8) 0 3 == 3 && replies d == [(0, 0)]) &&
    after (.digestComplete .module) (d.setReg (aCkp 8) 3) fun d => d.hub.ckpt == none && d.regFld (aCkp 8) 0 3 == 4 && codes d == [0x6004]) = true := by
  decide +kernel

def restore0 : Restoring := ⟨0x10000, none, none, .last 0⟩

/-- An area of last 0 as Tables 10.8 and 10.9 have it: the header, one directory entry (log 11), one item of 64 bytes (a last without
keystones and image, every register 0), and the digest of its one leaf, which is its root too. The digest was formed by hand with
SHA-384 from R299's words. The module's serial number stays 0 here. -/
def areaCells : List Host.Cell :=
  [(0x10000, 0x5A), (0x10001, 0x4B), (0x10002, 0x43), (0x10003, 0x50), (0x10004, 0x01), (0x10006, 0x02), (0x10008, 0xB0), (0x10009, 0x10), (0x10020, 0x01), (0x10029, 0x10), (0x10030, 0x01), (0x10034, 0x01)] ++
  [(0x10038, 0x80), (0x10039, 0x10), (0x10040, 0x6B), (0x10041, 0x09), (0x10042, 0x8E), (0x10043, 0x8D), (0x10044, 0xF6), (0x10045, 0xBC), (0x10046, 0x78), (0x10047, 0xBB), (0x10048, 0x69), (0x10049, 0xF0)] ++
  [(0x1004A, 0x10), (0x1004B, 0x29), (0x1004C, 0xAB), (0x1004D, 0x18), (0x1004E, 0x5F), (0x1004F, 0xDA), (0x10050, 0x68), (0x10051, 0xE8), (0x10052, 0x37), (0x10053, 0x2D), (0x10054, 0x9D), (0x10055, 0xB8)] ++
  [(0x10056, 0x93), (0x10057, 0x3B), (0x10058, 0xC9), (0x10059, 0x79), (0x1005A, 0xE7), (0x1005B, 0xDF), (0x1005C, 0xA1), (0x1005D, 0xE0), (0x1005E, 0xBD), (0x1005F, 0xF8), (0x10060, 0xF2), (0x10061, 0xD4)] ++
  [(0x10062, 0xC0), (0x10063, 0x8C), (0x10064, 0x71), (0x10065, 0x33), (0x10066, 0x03), (0x10067, 0xEF), (0x10068, 0x8D), (0x10069, 0x49), (0x1006A, 0x08), (0x1006B, 0x9C), (0x1006C, 0x7F), (0x1006D, 0xDD)] ++
  [(0x1006E, 0xEB), (0x1006F, 0x22), (0x10070, 0x01), (0x11000, 0x08), (0x11008, 0x40), (0x11009, 0x10), (0x11010, 0x40), (0x11080, 0x6B), (0x11081, 0x09), (0x11082, 0x8E), (0x11083, 0x8D), (0x11084, 0xF6)] ++
  [(0x11085, 0xBC), (0x11086, 0x78), (0x11087, 0xBB), (0x11088, 0x69), (0x11089, 0xF0), (0x1108A, 0x10), (0x1108B, 0x29), (0x1108C, 0xAB), (0x1108D, 0x18), (0x1108E, 0x5F), (0x1108F, 0xDA), (0x11090, 0x68)] ++
  [(0x11091, 0xE8), (0x11092, 0x37), (0x11093, 0x2D), (0x11094, 0x9D), (0x11095, 0xB8), (0x11096, 0x93), (0x11097, 0x3B), (0x11098, 0xC9), (0x11099, 0x79), (0x1109A, 0xE7), (0x1109B, 0xDF), (0x1109C, 0xA1)] ++
  [(0x1109D, 0xE0), (0x1109E, 0xBD), (0x1109F, 0xF8), (0x110A0, 0xF2), (0x110A1, 0xD4), (0x110A2, 0xC0), (0x110A3, 0x8C), (0x110A4, 0x71), (0x110A5, 0x33), (0x110A6, 0x03), (0x110A7, 0xEF), (0x110A8, 0x8D)] ++
  [(0x110A9, 0x49), (0x110AA, 0x08), (0x110AB, 0x9C), (0x110AC, 0x7F), (0x110AD, 0xDD), (0x110AE, 0xEB), (0x110AF, 0x22)]

def restoreDev : Dev := { (hbmDev up).updAoc fun a => { a with restoring := [restore0] } with mem := areaCells }

theorem test_restore_completes : (restoreDev.restoreCheck restore0 == 0 &&
    ((restoreDev.areaAt restore0).map fun a => (a.lasts.map fun x => x.1, a.dir.length)) == some ([0], 1) && restoreDev.digestCheck 0x10000 == none &&
    after (.restoreComplete (.last 0)) restoreDev fun d => (d.last 0).st == .paused && d.aoc.restoring == [] && d.regFld (aCkp 8) 0 3 == 4) = true := by
  decide +kernel
theorem test_restore_refused : (let d := restoreDev.updLast 0 fun x => { x with st := .loaded }
    d.restoreCheck restore0 == 3 && after (.restoreComplete (.last 0)) d fun d => codes d == [0x3003] && d.regFld (aCkp 8) 8 4 == 3) = true := by
  decide +kernel

/-! Requests of module scope. -/

theorem test_memr : asks .ncpMemr 9 (leBytes 8 (dramBase + 0x7FFF000000000000) ++ leBytes 4 4 ++ zeros 4) imageDev (fun d =>
    d.out.map (fun o => match o with
      | .answer _ m => m.drop 32
      | _ => []) == [[0x5A, 0x48, 0x51, 0x49]]) = true := by decide +kernel
theorem test_memw : asks .ncpMemw 10 (leBytes 8 (dramBase + 0x7FFF000000000000) ++ leBytes 4 2 ++ zeros 4 ++ [7, 8]) up (fun d =>
    d.rdMem dramBase 3 == [7, 8, 0] && replies d == [(0, 0)]) = true := by decide +kernel
theorem test_ncp_snap : (asks .ncpSnap 11 (leBytes 2 5 ++ zeros 6) up (fun d => d.hub.plumb.taken == some 0 && d.hub.plumb.tag == 5 && replies d == [(0, 0)]) &&
    asks .ncpSnap 11 (zeros 8) (up.setDom .hub .off) fun d => replies d == [(4, 0x13)]) = true := by decide +kernel
theorem test_evread : asks .ncpEvread 12 (leBytes 4 0 ++ leBytes 4 128) up (fun d => replies d == [(0, 0)]) = true := by decide +kernel
theorem test_course : (let d := (up.setReg (aLnk 3 0) 1).updLink 3 fun l => { l with st := .training }
    asks .ncpCourse 13 (zeros 16) d (fun d => d.hub.crs.state == 1 && d.hub.crs.step == 1 && replies d == [(0, 0)]) &&
    asks .ncpCourse 13 (zeros 16) (d.updCrs fun c => { c with state := 1 }) fun d => replies d == [(3, 0)]) = true := by decide +kernel
theorem test_subscribe : asks .ncpSubscribe 18 ([3, 1] ++ leBytes 2 77 ++ zeros 4 ++ leBytes 16 9) up (fun d => d.aoc.subs.get 3 == ⟨9, 77, true⟩ &&
    replies d == [(0, 0)]) = true := by decide +kernel
theorem test_rplstop : asks .ncpRplstop 19 [] up (fun d => replies d == [(0, 0)] && d.regFld (aRpl 0) 0 2 == 0) = true := by decide +kernel
theorem test_cache_expiry : after (.answerCacheExpiry 0) ({ up.updAoc fun a => { a with cache := [⟨asker0, [], 0⟩] } with cycle := 2800000000 })
    (fun d => d.aoc.cache == []) = true := by decide +kernel

/-! Firmware update and attestation (Tables 13.8 and 13.10). The session is of the sender of the requests. -/

def sessionDev (area lo hi : Nat) : Dev := up.updAoc fun a => { a with session := some ⟨0x11, 0x2222, area, lo, hi, 0⟩ }

def fwBody (op area len off : Nat) : List Byte := leBytes 1 op ++ leBytes 1 area ++ [0, 0] ++ leBytes 4 len ++ leBytes 8 off

theorem test_fwupd_begin : asks .fwupdBegin 16 (fwBody 0 1 0x100 0x10000) up (fun d => replies d == [(0, 0)] &&
    d.aoc.session == some ⟨0x11, 0x2222, 1, 0x05010000, 0x05010100, 0⟩) = true := by decide +kernel
theorem test_fwupd_write : asks .fwupdWrite 16 (fwBody 1 1 2 0x10000 ++ [7, 8]) (sessionDev 1 0x05010000 0x05010100) (fun d =>
    replies d == [(0, 0)] && d.rdMem (flashBase + 0x05010000) 3 == [7, 8, 0xFF]) = true := by decide +kernel
theorem test_fwupd_commit : (let d := sessionDev 0 0x01000000 0x01000100
    decide (d.verifyCopy 0 < 15) && d.verifyCopy 0 != 0 && asks .fwupdCommit 16 ([2] ++ zeros 15) d fun d =>
      codes d == [0x1007] && d.aoc.session == none && replies d == [(4, 1)]) = true := by decide +kernel
/-- Standing images without an entry in the range verify; a provisioning copy that is not sound does not. -/
theorem test_fwupd_commits : (asks .fwupdCommit 16 ([2, 1] ++ zeros 14) (sessionDev 1 0x05010000 0x05010100) (fun d =>
      codes d == [0x1007] && d.aoc.session == none && replies d == [(0, 0)]) &&
    let d := sessionDev 2 (provBase 1) (provBase 1 + 0x20000)
    d.provCommit 1 != 0 && asks .fwupdCommit 16 ([2, 2] ++ zeros 14) d fun d => codes d == [0x1007] && d.aoc.session == none) = true := by decide +kernel
theorem test_fwupd_abort : asks .fwupdAbort 16 ([3] ++ zeros 15) (sessionDev 1 0 9) (fun d => d.aoc.session == none && replies d == [(0, 0)]) = true := by
  decide +kernel
theorem test_fwupd_status : (asks .fwupdStatus 16 ([4] ++ zeros 15) (sessionDev 1 0 9) (fun d => replies d == [(0, 0)] && d.aoc.session.isSome) &&
    asks .fwupdStatus 16 ([4] ++ zeros 15) up fun d => replies d == [(0, 0)]) = true := by
  decide +kernel
theorem test_fwupd_timeout : after .fwupdSessionTimeout (sessionDev 1 0 9) (fun d => d.aoc.session == none) = true := by decide +kernel
theorem test_quote : asks .attestQuote 17 (zeros 56) up (fun d => d.aoc.trust.quotes == 1 && replies d == [(0, 0)]) = true := by decide +kernel

def quotedDev : Dev := up.updAoc fun a => { a with trust := { a.trust with quote := [1, 2, 3], log := [zeros 64, zeros 64] } }

theorem test_read_quote : asks .attestReadQuote 17 ([1] ++ zeros 7 ++ leBytes 4 1 ++ leBytes 4 2) quotedDev (fun d => d.out.map (fun o => match o with
      | .answer _ m => m.drop 32
      | _ => []) == [[2, 3]]) = true := by decide +kernel
theorem test_read_log : asks .attestReadLog 17 ([2] ++ zeros 7 ++ leBytes 4 1 ++ leBytes 4 1) quotedDev (fun d => replies d == [(0, 0)]) = true := by
  decide +kernel
theorem test_identity : asks .attestIdentity 17 ([3] ++ zeros 7) up (fun d => replies d == [(0, 0)]) = true := by decide +kernel

/-! Ethernet ports (R303 to R318). Service settings: MAC, IPv6 and IPv4 addresses, 802.1AS on; gate 0 has addresses too. -/

def svc0 : List Byte :=
  leBytes 6 0xAA ++ zeros 2 ++ leBytes 16 0xBB ++ leBytes 4 0xCC ++ zeros 26 ++ [4] ++ zeros 73 ++
  leBytes 6 0xAB ++ zeros 2 ++ leBytes 16 0xBC ++ leBytes 4 0xCD ++ zeros 36

def ethDev : Dev := ((up.updAoc fun a => { a with svc := svc0 }).updCtl 0 fun c => { c with link := true }).updGate 0 fun x => { x with link := true }

/-- A frame without a VLAN tag and an R-TAG. -/
def tag0 : EthTag := ⟨0x33, 0, none⟩

theorem test_arp : (after (.arpRequest (.ctl 0) ⟨tag0, ⟨1, 2, 0xCC⟩⟩) ethDev (fun d => d.out == [.arp (.ctl 0) ⟨0xAA, 0xCC, 2⟩]) &&
    after (.arpRequest (.gate 0) ⟨tag0, ⟨1, 2, 0xCD⟩⟩) ethDev (fun d => d.out == [.arp (.gate 0) ⟨0xAB, 0xCD, 2⟩]) &&
    after (.arpRequest (.ctl 0) ⟨tag0, ⟨1, 2, 0xCD⟩⟩) ethDev fun d => d.out == []) = true := by decide +kernel
theorem test_ndp : after (.ndpRequest (.ctl 0) ⟨tag0, ⟨1, 2, 0xBB⟩⟩) ethDev (fun d => d.out == [.ndp (.ctl 0) ⟨0xAA, 0xBB, 2⟩]) = true := by decide +kernel
theorem test_echo : after (.icmpEchoRequest (.gate 0) ⟨tag0, ⟨2, 0xBC, true, [7]⟩⟩) ethDev (fun d => d.out == [.echo (.gate 0) ⟨0xBC, 2, true, [7]⟩]) = true := by
  decide +kernel
/-- A frame of another VLAN, and a duplicate (R304). -/
theorem test_arp_dropped : (after (.arpRequest (.ctl 0) ⟨⟨0x33, 9, none⟩, ⟨1, 2, 0xCC⟩⟩) ethDev (fun d => d.out == []) &&
    after (.arpRequest (.ctl 0) ⟨⟨0x33, 0, some 4⟩, ⟨1, 2, 0xCC⟩⟩) (ethDev.updCtl 0 fun c => { c with history := [(0x33, 4)] }) fun d => d.out == []) = true := by
  decide +kernel
theorem test_gptp : (ethDev.gptpOn && after (.gptpMessage 0 77 true) ethDev fun d => (d.ctl 0).time == 77 && (d.ctl 0).aslock) = true := by decide +kernel
/-- The time root without another lock counts freely (R275). -/
def rootDev : Dev := ethDev.updTime fun t => { t with root := true, acq := true, gptp := true, ft := 100 }

theorem test_gptp_root : (after (.gptpMessage 0 77 true) (rootDev.updTime fun t => { t with gptp := false }) (fun d => d.hub.ftime.gptp && d.hub.ftime.offs.length == 1) &&
    after (.gptpLockLoss 0) rootDev fun d => !d.hub.ftime.gptp) = true := by decide +kernel
theorem test_gptp_lock_loss : after (.gptpLockLoss 0) (ethDev.updCtl 0 fun c => { c with aslock := true, gates := 3 }) (fun d =>
    !(d.ctl 0).aslock && (d.ctl 0).gates == 0xFF) = true := by decide +kernel

/-- A gate control list of two entries, enabled and locked. -/
def listDev : Dev := (((ethDev.setReg (aCtlp 0 0x10) (1 + 2 * 2 + 1000 * 256)).setReg (aCtlp 0 0x100) (5 + 256 * 400)).setReg (aCtlp 0 0x108) 6).updCtl 0 fun c => { c with aslock := true }

theorem test_gate_list : (listDev.gatesOn 0 && after (.gateControlCycle 0) listDev (fun d => (d.ctl 0).gates == 5 && (d.ctl 0).pos == 0) &&
    after (.gateControlListEntry 0) (ethDev.updCtl 0 fun c => { c with gates := 3 }) fun d => (d.ctl 0).gates == 0xFF) = true := by decide +kernel
theorem test_gcfg : (after (.ctlpGcfgWrite 0 (1 + 2 * 64 + 1000 * 256)) ethDev (fun d => d.regFld (aCtlp 0 0x10) 0 38 == 1 + 2 * 64 + 1000 * 256) &&
    after (.ctlpGcfgWrite 0 (1 + 2 * 3 + 1000 * 256)) listDev fun d => d.regFld (aCtlp 0 0x10) 1 7 == 2 && codes d == [0x8001]) = true := by decide +kernel

/-- An NBP datagram of flow 5 with 3 payload bytes; the flow is enabled from gate 0 and leads to queue 1. -/
def nbp0 : NbpFrame := ⟨52471, true, [1, 0, 5, 0] ++ zeros 8 ++ leBytes 2 3 ++ zeros 2 ++ [7, 8, 9]⟩

def nbpDev : Dev := (ethDev.setReg (aQue 1 0x1000) 1).setReg (aGate (0x2000 + 8 * 5)) (1 + 16 + 32)

theorem test_nbp : (nbpOk nbp0 && after (.nbpDatagramReceive 0 nbp0) nbpDev (fun d => (d.gate 0).rx == [(1, 5, 0, nbp0.payload)]) &&
    after (.nbpDatagramReceive 0 nbp0) ethDev fun d => (d.gate 0).rx == [] && d.regFld (aGateCnt 0 2) 0 64 == 1) = true := by decide +kernel

/-- Its datagram enters the queue as one entry (R316). -/
theorem test_nbp_push : (let d := { nbpDev.updGate 0 fun x => { x with rx := [(1, 5, 0, nbp0.payload)] } with cycle := 1 }
    d.gateTurn 1 1 == some 0 && after (.deferredPush 1) d fun d => (d.gate 0).rx == [] &&
      (d.queEntries 1).map (fun e => (e.sop, e.eop, e.bytes, e.source.toNat)) == [(true, true, 19, 5)]) = true := by decide +kernel
theorem test_pfc : (after (.pfcFrameReceive 0 7 true) ethDev (fun d => (d.gate 0).xoffRcvd == 0x80) &&
    after (.pfcFrameReceive 0 7 false) (ethDev.updGate 0 fun x => { x with xoffRcvd := 0x81 }) fun d => (d.gate 0).xoffRcvd == 1) = true := by decide +kernel

/-- Egress flow 5 goes out of gate 0. -/
theorem test_gate_transmit : (let bs := leBytes 8 0x00050066 ++ [7, 8, 9] ++ zeros 53
    let d := ethDev.setReg (aGef (0x40 * 5 + 24)) (2 ^ 40)
    after (.gateTransmitPush 0 bs) d (fun d => (d.gate 0).tx.map (fun x => (x.flow, x.smac, x.data)) == [(5, 0xAB, [7, 8, 9])]) &&
    after (.gateTransmitPush 0 bs) ethDev (fun d => (d.gate 0).tx == [] && codes d == [0x4003]) &&
    after (.gateTransmitPush 0 (leBytes 8 0x00050062 ++ zeros 56)) d fun d => (d.gate 0).opened.isSome) = true := by decide +kernel

def gframe0 : GateFrame := ⟨5, 1, 0xAB, 0, 2, 0xBC, 3, 4, zeros 64⟩

theorem test_gate_send : (let d := ethDev.updGate 0 fun x => { x with tx := [gframe0] }
    after (.gateFrameSend 0) d (fun d => (d.gate 0).tx == [] && d.out == [.gateFrame 0 gframe0]) &&
    after (.gateFrameSend 0) (d.updGate 0 fun x => { x with xoffRcvd := 1 }) fun d => (d.gate 0).tx.length == 1) = true := by decide +kernel
theorem test_port_links : (after (.controlPortLinkChange 0 true true) up (fun d => (d.ctl 0).link && (d.ctl 0).slow) &&
    after (.controlPortLinkChange 0 false true) listDev (fun d => !(d.ctl 0).link && (d.ctl 0).gates == 0xFF) &&
    after (.gatePortLinkChange 1 true) up (fun d => (d.gate 1).link) && after (.gatePortLinkChange 0 false) ethDev fun d => !(d.gate 0).link) = true := by
  decide +kernel

/-! Links, router, packets (R245 to R263). -/

/-- Link 3 enabled and in the state; the module is at (0, 0, 0). -/
def linkDev (s : LinkSt) : Dev := ((up.setReg (aLnk 3 0) 1).setReg (aFab 0x10) 0x8000).updLink 3 fun l => { l with st := s, light := true }

/-- A frame whose slots hold the header flit of a packet and 17 idle flits, before its CRC. -/
def frame0 (seq : BitVec 16) (nak : Bool) : Frame :=
  ⟨true, false, false, seq, 0xFFFF, nak, 0, 0, 3, .header (pkt 2 0 0 7) :: List.replicate 17 .idle, 0⟩

/-- A decoded frame of 18 slots with the CRC that its sender forms is good. -/
theorem test_frame_sealed {f : Frame} (h : f.decoded = true) (n : f.slots.length = 18) : frameGood (frameSealed f) = true := by
  simp [frameGood, frameSealed, h, n]
  rfl

theorem test_frame_good : frameGood (frameSealed (frame0 0 false)) = true ∧ frameGood (frameSealed (frame0 0 true)) = true :=
  ⟨test_frame_sealed rfl rfl, test_frame_sealed rfl rfl⟩

theorem test_link_training : (after (.linkTrainingComplete 3) (linkDev .training) (fun d => (d.link 3).st == .up) &&
    after (.linkTrainingTimeout 3) (linkDev .training) (fun d => (d.link 3).st == .down) &&
    after (.lightReturn 3) (linkDev .down) (fun d => (d.link 3).st == .training)) = true := by decide +kernel
theorem test_light_loss : after (.lossOfLight 3) ((linkDev .up).updLink 3 fun l => { l with buf := [pkt 2 0 0 7] }) (fun d =>
    (d.link 3).st == .down && (d.link 3).buf == [] && codes d == [0x5001]) = true := by decide +kernel

/-- The other UP links carry a link notice (R262). -/
theorem test_light_notice : after (.lossOfLight 3) ((linkDev .up).updLink 5 fun l => { l with st := .up }) (fun d =>
    d.hub.ctl.map (fun x => (x.1, x.2.type)) == [(5, 10)]) = true := by decide +kernel
theorem test_link_config : (after (.fabLnkCfgWrite 3 1) (up.setReg (aFab 0x10) 0x8000) (fun d => (d.link 3).st == .training) &&
    after (.fabLnkCfgWrite 3 0) (linkDev .up) fun d => (d.link 3).st == .off) = true := by decide +kernel

/-- Frame 0 follows FFFFH; a bad frame makes the receiver hunt. -/
theorem test_frames : (((linkDev .up).link 3).rxLast + 1 == (0 : BitVec 16) &&
    let d := ((linkDev .up).updLink 3 fun l => { l with shared := 10 }).takeFrame 3 (frame0 0 false)
    (d.link 3).rxLast == 0 && (d.link 3).buf == [{ pkt 2 0 0 7 with via := some 3 }] && (d.link 3).shared == 13) = true := by decide +kernel
theorem test_frame_bad : after (.frameReceive 3 { frame0 0 false with decoded := false }) (linkDev .up) (fun d =>
    (d.link 3).hunting && (d.link 3).buf == [] && (d.link 3).rxLast == 0xFFFF) = true := by decide +kernel

/-- A nak has the unacknowledged frame sent again. -/
theorem test_frame_nak : (let f : Frame := ⟨true, false, false, 0, 0, false, 0, 0, 0, [], 0⟩
    let d := ((linkDev .up).updLink 3 fun l => { l with replay := [(f, 0)] }).frameAck 3 (frame0 0 true)
    (d.link 3).resend == [f] && (d.link 3).replay == [(f, 1)]) = true := by decide +kernel
theorem test_slew : (let d := { up.updTime fun t => { t with run := true, offs := [8, 8], ft := 50 } with cycle := 2048 }
    after .fabricTimeSlew d (fun d => d.hub.ftime.hold && d.hub.ftime.ft == 50) &&
    after .fabricTimeSlew (d.updTime fun t => { t with offs := [-8, -8] }) fun d => d.hub.ftime.ft == 51) = true := by decide +kernel

/-- A packet to (0, 0, 1): the route delivers it here, or there is no route. -/
theorem test_forward : (let p := { pkt 2 0 0 7 with dst := 1 }
    let d := (linkDev .up).updHub fun h => { h with inject := [p] }
    let r := d.setReg (regAddr 0x104 (8 * (1024 / 4))) 0x10C
    r.hop 1 0 == .deliver && after (.packetForward .own) r (fun d => d.hub.delivered == [p]) &&
    d.hop 1 0 == .lost && after (.packetForward .own) d fun d => codes d == [0x5004] && d.hub.inject.map (fun q => (q.type, q.status, q.dst)) == [(6, 3, 0x23)]) =
    true := by decide +kernel

/-- A route out of port 3, which is UP with credits: the packet's flits wait there for slots (R250, R251). -/
theorem test_forward_out : (let p := { pkt 2 0 0 7 with dst := 1 }
    let d := (((linkDev .up).updLink 3 fun l => { l with shared := 10 }).updHub fun h => { h with inject := [p] }).setReg (regAddr 0x104 (8 * (1024 / 4))) 0x103
    d.nextOut 3 == some (.own, p) && after (.packetForward .own) d fun d => d.hub.inject == [] && (d.link 3).tx.length == 1 && (d.link 3).shared == 9) =
    true := by decide +kernel

/-- A reserved type is discarded (R247). -/
theorem test_forward_reserved : after (.packetForward (.port 3)) ((linkDev .up).updLink 3 fun l => { l with buf := [pkt 11 0 0 0] }) (fun d =>
    (d.link 3).buf == [] && codes d == [0x5004] && d.hub.delivered == []) = true := by decide +kernel

/-- A request of another module waits to be served. -/
def served (p : Packet) : Dev := (linkDev .up).updHub fun h => { h with delivered := [p] }

def answers (i : Packet → Instr) (p : Packet) (type status : Nat) (f : Dev → Bool) : Bool :=
  after (i p) (served p) fun d => d.hub.delivered == [] && d.hub.inject.map (fun q => (q.type, q.status.toNat)) == [(type, status)] && f d

theorem test_wr : answers .wr { pkt 0 0 2 1 with addr := 0xFF10000000, data := [7, 8] } 1 0 (fun d => d.rdMem dramBase 3 == [7, 8, 0]) = true := by decide +kernel
theorem test_rd : answers .rd { pkt 2 0 0 1 with addr := 0xFF10000000 } 3 0 (fun d => d.hub.inject.map (fun q => q.data) == [[0, 0]]) = true := by decide +kernel
theorem test_aa : answers .aa { pkt 4 0 0 7 with addr := 0x8000000008, operand := 5 } 5 0 (fun d => d.rdMem 0x8000000008 8 == leBytes 8 5) = true := by decide +kernel
theorem test_mwr : (let p := { pkt 7 0 2 1 with addr := 0xFF10000000, data := [7, 8], dst := 9, mc := true }
    answers .mwr p 6 6 (fun d => d.rdMem dramBase 2 == [0, 0]) &&
    after (.mwr p) ((served p).setReg (aFmc 72) 0x7000) fun d => d.rdMem dramBase 2 == [7, 8] && d.hub.inject.map (fun q => (q.type, q.operand)) == [(8, 1)]) =
    true := by decide +kernel

theorem test_malformed : (answers .wr { pkt 0 0 2 0 with addr := 0xFF10000000 } 6 5 (fun _ => true) && answers .rd { pkt 2 0 1 0 with addr := 0xFF10000000 } 6 5 (fun _ => true) &&
    answers .aa { pkt 4 0 0 7 with addr := 1 } 6 5 fun _ => true) = true := by decide +kernel

/-- A module that the group does not deliver to sends the write on through port 3, to which it came from port 1. -/
theorem test_mwr_copy : (let p := { pkt 7 0 2 1 with data := [7, 8], dst := 9, mc := true }
    let d := (((served p).updLink 3 fun l => { l with shared := 10 }).setReg (aFmc 72) 0x6008)
    after (.mwr p) d fun d => d.hub.delivered == [] && d.hub.inject.map (fun q => q.copyTo) == [some 3] && d.rdMem 0 2 == [0, 0]) = true := by decide +kernel

/-- Strand 0 waits for request 7, of the opcode. -/
def waiting (op need : Nat) : Dev :=
  (dev0.updStrand 0 0 fun s => { s with acc := [⟨1, BitVec.ofNat 8 op, wd 2 0 0, 0x8000000000, 0x0005000000000008, 0, 0, true⟩] }).updHub fun h => { h with
    reqs := [⟨7, .acc 0 0 1, 0x0005000000000008, 0, need, []⟩] }

def ends (i : Instr) (op need : Nat) (v : Word) : Bool :=
  (waiting op need).findReq 7 == some ⟨7, .acc 0 0 1, 0x0005000000000008, 0, need, []⟩ &&
  after i (waiting op need) fun d => d.hub.reqs == [] && (d.strand 0 0).acc == [] && (d.strand 0 0).rdS 2 == v

theorem test_answers_end : (ends (.wack (pkt 1 1 0 0)) 0x5D 1 0 && ends (.rdr { pkt 3 1 8 7 with data := leBytes 8 0x1234 }) 0x5C 1 0x1234 &&
    ends (.aar { pkt 5 1 0 0 with operand := 77 }) 0x5E 1 77 && ends (.mack (pkt 8 1 0 0)) 0x5D 1 0 &&
    after (.mack { pkt 8 1 0 0 with operand := 1 }) (waiting 0x5D 2) fun d => (d.strand 0 0).acc.length == 1 && d.hub.reqs.map (fun r => r.acks) == [[0x23]]) = true := by
  decide +kernel
/-- An answer to no request is discarded, and an ERR stops the last (R249). -/
theorem test_err : ((waiting 0x5C 1).findReq 8 == none && after (.err { pkt 6 1 0 0 with tag := 8 }) (waiting 0x5C 1) (fun d => d.hub.reqs.length == 1) &&
    after (.err (pkt 6 1 0 0)) (waiting 0x5C 1) fun d => d.hub.reqs == [] && (d.last 0).st == .stopped && d.regFld (aLstFlt 0 0) 0 8 == 17) = true := by
  decide +kernel

/-- An unanswered request of a load whose time has run out. -/
theorem test_timeout : ((waiting 0x5C 1).timeout != 0 && (waiting 0x5C 1).findReq 7 == some ⟨7, .acc 0 0 1, 0x0005000000000008, 0, 1, []⟩ &&
    (waiting 0x5C 1).strandLast 0 0 == some 0 && ((waiting 0x5C 1).last 0).st == .running) = true := by decide +kernel

/-! Coursing and fabric time (R255 to R274). -/

/-- Coursing runs at a step, the module unnamed. -/
def crsDev (step : Nat) : Dev := up.updCrs fun c => { c with state := 1, step := step, smallest := 100, named := 0 }

/-- Link 3 is UP at the end of a link: its control messages, as kind and values (log 52). -/
def upDev : Dev := linkDev .up

def toldOn (d : Dev) : List (Nat × List Byte) := d.hub.ctl.map fun x => (x.1.val, x.2.data)

theorem test_link_maps : (after (.linkMapFlood 5 7) upDev (fun d => d.hub.crs.maps == [(5, 7)] && toldOn d == [(3, ctlBytes ctlMap [5, 7])]) &&
    after (.linkMapFlood 5 7) (upDev.updCrs fun c => { c with maps := [(5, 7)] }) (fun d => d.hub.crs.maps == [(5, 7)] && toldOn d == []) &&
    after (.linkNotice 5 6) (upDev.updCrs fun c => { c with maps := [(5, 7)] }) fun d => d.hub.crs.maps == [(5, 6)] &&
      toldOn d == [(3, ctlBytes ctlNotice [5, 6])]) = true := by
  decide +kernel

/-- After coursing a link notice has the routes computed anew, but those with override (R262). -/
theorem test_link_notice_routes : (let d := ((upDev.updCrs fun c => { c with state := 6, shape := ⟨1, 1, 1⟩ }).setReg (regAddr 0x104 0) 0x203)
    !d.manual && bitOf (d.reg (aFab 0x10)) 15 && (d.route 0).testBit 9 && !(d.route 1).testBit 9) = true := by decide +kernel
theorem test_coursing_starts : after (.fabCrsStart 3) (linkDev .training) (fun d => d.hub.crs.state == 1 && d.hub.crs.step == 1 && d.hub.crs.mode) = true := by
  decide +kernel

/-- Port 3 expects port 1 (Table 9.1): one end flips bit 1. -/
theorem test_identity_packet : (after (.identityPacket 3 77 1 2) (linkDev .up) (fun d => (d.link 3).st == .up && codes d == [] && d.reg (aLnk 3 0x18) == 77) &&
    after (.identityPacket 3 77 2 2) (linkDev .up) fun d => (d.link 3).st == .miscabled && codes d == [0x5002]) = true := by decide +kernel
theorem test_election : (after (.cornerElection 3 99) (crsDev 2) fun d => d.hub.crs.heard == [(3, 99)] && d.hub.crs.step == 2 && toldOn d == []) = true := by
  decide +kernel
theorem test_offer : (after (.coordinateOffer 3 1 2 3) (crsDev 4) fun d => d.hub.crs.offer == some (1, 2, 3) && d.regFld (aFab 0x10) 0 16 == 0x8443) = true := by
  decide +kernel
theorem test_offer_unfit : (offerFits (crsDev 4).hub.crs.shape (9, 9, 9) (1, 2, 3) == false &&
    after (.coordinateOffer 3 1 2 3) ((crsDev 4).updCrs fun c => { c with offer := some (9, 9, 9) }) fun d => d.hub.crs.state == 7 && codes d == [0x5003]) = true := by
  decide +kernel
/-- The release is taken in step 7; the corner waits for every module that took coordinates (Table 9.7). -/
theorem test_release_good : (after (.coursingRelease true ⟨1, 1, 1⟩) (crsDev 7) (fun d => d.hub.crs.state == 6 && d.hub.crs.step == 7 && codes d == [0x5003]) &&
    after (.coursingRelease true ⟨1, 1, 1⟩) (crsDev 6) (fun d => d.hub.crs.state == 1 && codes d == []) &&
    let c := (crsDev 7).updCrs fun c => { c with corner := true, first := true, taken := [(0, 0), (1, 0)], done := [0] }
    after (.coursingRelease true ⟨1, 1, 1⟩) c (fun d => d.hub.crs.state == 1) &&
    after (.coursingRelease true ⟨1, 1, 1⟩) (c.updCrs fun c => { c with done := [0, 1] }) fun d => d.hub.crs.state == 6 && d.hub.ftime.root && d.hub.ftime.acq) =
    true := by
  decide +kernel
theorem test_release : after (.coursingRelease false ⟨1, 1, 1⟩) (crsDev 6) (fun d => d.hub.crs.state == 7 && codes d == [0x5003]) = true := by decide +kernel
theorem test_coord : after (.fabCoordWrite 0x8000) (up.setReg (aFab 8) 2) (fun d => d.regFld (aFab 0x10) 0 16 == 0x8000 && d.hub.ftime.root) = true := by
  decide +kernel

/-! Keystones (R276 to R278): keystone 2 of last 0 has one local strand, and the child on port 3. -/

def ksDev (parent : Nat) : Dev := dev0.setReg (aKs 2 0) (BitVec.ofNat 64 (8 + 16 + parent * 2 ^ 12 + 2 ^ 16 + 2 ^ 23 + 5 * 2 ^ 32))

def arrivedDev (parent : Nat) : Dev := (ksDev parent).updKey 2 fun k => { k with arrived := 1, st := 1, waits := [⟨0, 0, false⟩] }

theorem test_keystone_arrival : (after (.keystoneArrival 2 3) (ksDev 15) (fun d => (d.key 2).st == 1 && (d.key 2).children == 8 && toldOn d == []) &&
    !(arrivedDev 1).ksArrived 2 && after (.keystoneArrival 2 3) ((arrivedDev 1).updLink 1 fun l => { l with st := .up }) (fun d => toldOn d == [(1, ctlBytes 0 [2, 0, 0])]) &&
    after (.keystoneArrival 2 3) (arrivedDev 15) fun d => (d.key 2).st == 2 && (d.key 2).instant == 5) = true := by decide +kernel
theorem test_keystone_release : after (.keystoneRelease 2 9 0) ((arrivedDev 1).updLink 3 fun l => { l with st := .up }) (fun d => (d.key 2).st == 2 && (d.key 2).instant == 9 &&
    toldOn d == [(3, ctlBytes 1 [2, 9, 0])]) = true := by decide +kernel
theorem test_keystone_instant : (let d := ((arrivedDev 1).updKey 2 fun k => { k with st := 2, instant := 0 }).updStrand 0 0 fun s => { s with
      keys := [(2, ⟨0, 0x8000000000, 0x6A, 0⟩)] }
    after (.keystoneReleaseInstant 2) d fun d => (d.key 2).round == 1 && (d.key 2).st == 0 && (d.strand 0 0).keys == []) = true := by decide +kernel
theorem test_keystone_break : (bitOf ((arrivedDev 1).ksCfg 2) 3 && bitOf ((arrivedDev 1).ksCfg 2) 16 && ((arrivedDev 1).key 2).st != 3 &&
    ((arrivedDev 1).last (last_of (ksLast ((arrivedDev 1).ksCfg 2)))).st == .running) = true := by decide +kernel
/-- A release of another round changes nothing, a late one is counted (R277). -/
theorem test_keystone_rounds : (after (.keystoneRelease 2 9 1) (arrivedDev 1) (fun d => d.key 2 == (arrivedDev 1).key 2) &&
    after (.keystoneRelease 2 4 0) ((arrivedDev 1).updTime fun t => { t with ft := 5 }) fun d => codes d == [0x5005] && d.regFld (aKs 2 8) 32 16 == 1) = true := by
  decide +kernel

/-- A disabled keystone, and one in state 3. -/
theorem test_ks_cfg_states : (after (.ksCfgWrite 2 0) ((arrivedDev 1).updKey 2 fun k => { k with st := 3 }) (fun d => (d.key 2).st == 0 && (d.key 2).waits == [])) = true := by
  decide +kernel
theorem test_ks_cfg : (after (.ksCfgWrite 2 0x18) dev0 (fun d => d.ksCfg 2 == 0x18 && d.key 2 == Keystone.init) &&
    after (.ksCfgWrite 2 0) (arrivedDev 1) fun d => d.ksCfg 2 == (arrivedDev 1).ksCfg 2 && codes d == [0x8001]) = true := by decide +kernel
theorem test_ftwait_instant : after (.ftwaitInstant 0 0) ((dev0.updTime fun t => { t with ft := 5 }).updStrand 0 0 fun s => { s with
    ftwait := some ⟨5, 0x8000000000, 0x6B, 0⟩ }) (fun d => (d.strand 0 0).ftwait == none) = true := by decide +kernel

/-! Collectives: one rank, an all-reduce of one 64-bit integer from the DRAM window; CID 5. -/

def colDev : Dev :=
  let d := (((up.setReg (aFab 0x10) 0x8000).setReg (aCol 1 0) (6 * 4 + 5 * 2 ^ 16 + 2 ^ 32)).setReg (aCol 1 8) 0xFF10000100).setReg (aCol 1 0x10) 0xFF10000200
  ((d.setReg (aCol 1 0x18) 0xFF10000300).setReg (aCol 1 0x20) 1).wrMem 0xFF10000100 [9]

/-- Channel 1 runs the collective. -/
def colRun (parts : List (Nat × List Nat)) : Dev :=
  colDev.updChan 1 fun x => { x with st := 1, desc := (List.range 8).map fun i => colDev.reg (aCol 1 (8 * i)), ranks := [0], parts := parts }

theorem test_collective_starts : (after (.colStart 1 1) colDev (fun d => (d.chan 1).st == 1 && (d.chan 1).parts.any fun p => p == (0, [9])) &&
    after (.colStart 1 1) (colDev.setReg (aCol 1 0x20) 0) fun d => (d.chan 1).st == 3 && (d.chan 1).err == 1 && codes d == [0x5006]) = true := by decide +kernel

def colPkt (cid : BitVec 16) : Packet := { pkt 9 2 8 7 with src := 0, cid := cid, addr := BitVec.ofNat 48 (aCol 1 0x48) }

theorem test_collective_data : (after (.col (colPkt 5)) (colRun []) (fun d => (d.chan 1).st == 1 && (d.chan 1).parts.any fun p => p == (0, [0])) &&
    after (.col (colPkt 6)) (colRun []) fun d => (d.chan 1).st == 3 && (d.chan 1).err == 4 && codes d == [0x5006]) = true := by decide +kernel
theorem test_collective_done : (let d := colRun [(partKey 255 0 * 2 ^ 32, [9])]
    d.colResult 1 == some (leBytes 8 9) && after (.collectiveDone 1) d fun d => (d.chan 1).st == 2 && d.rdMem 0xFF10000200 2 == [9, 0]) = true := by decide +kernel

theorem test_collective_waits : (after (.col (colPkt 5)) colDev (fun d => d.hub.delivered.length == 1) &&
    after (.colStart 1 1) (colRun []) fun d => codes d == [0x8001]) = true := by decide +kernel

/-! The input recorder: a ring of 4 KiB in the DRAM window is not legal, so the ring lies in HBM. -/

def rplDev (state : Nat) : Dev := ((hbmDev up).setReg (aRpl 8) (0x10000 + 16 * 2 ^ 40)).setReg (aRpl 0x10) (BitVec.ofNat 64 state)

theorem test_recorder : (after (.rplRecordStart 1) (rplDev 0) (fun d => d.rplState == 1) && after (.rplReplayStart 2) (rplDev 0) (fun d => d.rplState == 2) &&
    after (.rplStop 0) (rplDev 1) (fun d => d.rplState == 3 && d.rdMem 0x1000C 1 == [7]) &&
    after (.rplStop 0) (rplDev 2) fun d => d.rplState == 3 && codes d == [0x6005]) = true := by decide +kernel
theorem test_inject : (let d := (((rplDev 2).setReg (aQue 1 0x1000) 1).updTime fun t => { t with ft := 50 }).wrMem 0x10000 (rplBytes 50 0 2 1 ent0)
    after .rplInject d fun d => d.queEntries 1 == [QEntry.ofBytes ent0 0] && d.rplPos == 96) = true := by decide +kernel
theorem test_inject_end : (let d := (rplDev 2).wrMem 0x10000 (rplBytes 0 0 7 0 [])
    after .rplInject d fun d => d.rplState == 3 && codes d == [0x6005]) = true := by decide +kernel
theorem test_ckp_base_busy : after (.ckpBaseWrite 0x10000) (up.setReg (aCkp 8) 1) (fun d => d.reg (aCkp 0) == 0 && codes d == [0x8001]) = true := by
  decide +kernel
theorem test_ckp_base : after (.ckpBaseWrite 0x8000010000) (hbmDev up) (fun d => d.reg (aCkp 0) == 0x8000010000) = true := by decide +kernel

/-! Power (R326 to R335). -/

theorem test_hub_target : after (.domainTargetWrite 1) ((up.setDom .hub .off).setReg aDomTgt 0) (fun d => d.dom .hub == .waking) = true := by decide +kernel

/-- Core 5 is OFF, hub and die ON by their targets. -/
def coreDev (s : DomSt) (t : Nat) : Dev :=
  (((up.setTarget .hub 2).setTarget (.die 0) 2).setTarget (.core 5) t).setDom (.core 5) s

theorem test_core_target : (after (.coreTargetWrite 0 0x20) ((coreDev .off 0).setReg (aCore 0) 0) (fun d => d.dom (.core 5) == .waking) &&
    after (.coreTargetWrite 0 0) (coreDev .on 2) fun d => d.dom (.core 5) == .draining) = true := by decide +kernel
/-- A core that a last runs on stays ON; a core whose target was written in this cycle does not idle (R328). -/
theorem test_core_kept : (let d := ((dev0.setTarget .hub 2).setTarget (.die 0) 2).setTarget (.core 0) 2
    !d.coreFree 0 && after (.coreTargetWrite 0 (setFld (d.reg (aCore 0)) 0 1 0)) d (fun d => d.dom (.core 0) == .on && d.target (.core 0) == 2) &&
    let e := (coreDev .on 2).setReg (aPwr 0x80) 1
    after (.coreIdleExpiry 5) { e with now := { e.now with tgts := [.core 5] } } fun d => d.dom (.core 5) == .on) = true := by decide +kernel

/-- A wake is held while the die is not ON. -/
theorem test_wake_held : after (.wakeComplete (.core 5)) ((coreDev .waking 2).setDom (.die 0) .waking) (fun d => d.dom (.core 5) == .waking) = true := by
  decide +kernel
theorem test_core_idle : after (.coreIdleExpiry 5) ((coreDev .on 2).setReg (aPwr 0x80) 1) (fun d => d.dom (.core 5) == .draining && d.target (.core 5) == 0) = true := by
  decide +kernel
theorem test_wake : after (.wakeComplete (.core 5)) (coreDev .waking 2) (fun d => d.dom (.core 5) == .on) = true := by decide +kernel
theorem test_drain : after (.drainComplete (.core 5)) (coreDev .draining 0) (fun d => d.dom (.core 5) == .off) = true := by decide +kernel

def stackDev (s : DomSt) (t : Nat) (moving : List StackId) : Dev :=
  ((up.setTarget (.stack 3) t).setDom (.stack 3) s).updAoc fun a => { a with doms := { a.doms with moving := moving } }

theorem test_self_refresh : (after (.selfRefreshTransition 3) (stackDev .on 1 [3]) (fun d => d.dom (.stack 3) == .selfRefresh && d.aoc.doms.moving == []) &&
    after (.selfRefreshTransition 3) (stackDev .selfRefresh 2 [3]) (fun d => d.dom (.stack 3) == .on) &&
    after (.hbmIdleExpiry 3) ((stackDev .on 2 []).setReg (aPwr 0x80) 0x10000) fun d => d.aoc.doms.moving == [3]) = true := by decide +kernel
/-- A stack whose target was written back on its way turns round (R326). -/
theorem test_self_refresh_back : (let goes := fun (d : Dev) => ({ d with now := Now.init }.examineNext (.stack 3)).aoc.doms.moving
    let turned := fun (d : Dev) => d.updAoc fun a => { a with doms := { a.doms with back := [3] } }
    after (.selfRefreshTransition 3) (turned (stackDev .on 2 [3])) (fun d => d.dom (.stack 3) == .selfRefresh && goes d == [3]) &&
    after (.selfRefreshTransition 3) (turned (stackDev .selfRefresh 1 [3])) (fun d => d.dom (.stack 3) == .on && goes d == [3]) &&
    after (.selfRefreshTransition 3) (stackDev .selfRefresh 1 [3]) fun d => goes d == []) = true := by decide +kernel
/-- A domain that became OFF with a target of ON wakes in the next cycle, not in this one (R326). -/
theorem test_drain_then_wake : after (.drainComplete (.core 5)) (coreDev .draining 2) (fun d => (d.examine (.core 5)).dom (.core 5) == .off &&
    ({ d with now := Now.init }.examineNext (.core 5)).dom (.core 5) == .waking) = true := by decide +kernel
theorem test_die_idle : (let d := allCores.foldl (fun (d : Dev) c => d.setDom (.core c) .off) ((up.setTarget (.die 1) 2).setReg (aPwr 0x80) 0x100000000)
    let e := allStacks.foldl (fun (d : Dev) m => d.setDom (.stack m) .selfRefresh) d
    e.offAllowed (.die 1)) = true := by decide +kernel
theorem test_activity : after (.activityWindow 1) (up.updTime fun t => { t with ft := 512 }) (fun d => d.aoc.gov.units.get 1 == up.budget 1) = true := by decide +kernel

def govDev (n : Nat) : Dev := up.updAoc fun a => { a with gov := { a.gov with level := n } }

theorem test_governor : (after (.governorRaise ⟨900, 48000, 50, 50⟩) (govDev 14) (fun d => d.aoc.gov.level == 15) &&
    after (.governorLower ⟨200, 48000, 50, 50⟩) (govDev 1) (fun d => d.aoc.gov.level == 0) &&
    after (.hardGovernorThreshold 39999) (govDev 0) fun d => d.aoc.gov.level == 15) = true := by decide +kernel

/-! Start-up and stops (R336 to R351). -/

def stageDev (s : Stage) : Dev := State.reset.dev.updAoc fun a => { a with trust := { a.trust with stage := s } }

theorem test_protective_resets : (after .brownOut up (fun d => d.aoc.trust.stage == .unpowered && d.regFld (aPwr 0) 8 3 == 2 && d.aoc.trust.heldOff == some 2) &&
    after .thermalTrip up (fun d => d.regFld (aPwr 0) 8 3 == 3 && d.aoc.trust.heldOff == some 3) &&
    after .watchdogExpiry up (fun d => d.aoc.trust.stage == .good && d.regFld (aPwr 0) 8 3 == 4)) = true := by decide +kernel
theorem test_power_loss : (after .overVoltage up (fun d => d.aoc.trust.stage == .unpowered) && after .powerLoss up fun d => d.aoc.trust.stage == .unpowered) = true := by
  decide +kernel
theorem test_thermal_resume : (let d := (stageDev .unpowered).updAoc fun a => { a with trust := { a.trust with heldOff := some 3 } }
    after .thermalResume d (fun d => d.aoc.trust.stage == .good) && after .powerGood d fun d => d.aoc.trust.stage == .unpowered) = true := by decide +kernel
theorem test_power_good : after .powerGood State.reset.dev (fun d => d.aoc.trust.stage == .good) = true := by decide +kernel

/-- With blank flash neither copy verifies. -/
theorem test_mask_rom : after .maskRomBoot (stageDev .good) (fun d => d.aoc.trust.stage == .recovery && d.aoc.trust.resA == 1 && d.aoc.trust.resB == 1) = true := by
  decide +kernel
/-- The regenerated key compares with an uninterpreted one, so only the hypothesis of its statement is shown. -/
theorem test_rsa : ((stageDev .firmware).updAoc fun a => { a with trust := { a.trust with regenerating := true } }).aoc.trust.regenerating = true := by
  decide +kernel
theorem test_keeper : ((stageDev .firmware).aoc.trust.stage == .firmware && (stageDev .firmware).dom .hub == .off) = true := by decide +kernel

def allOn : Dev := (stageDev .keeper).updAoc fun a => { a with doms := { doms0 with cores := Vector.replicate 128 .on } }

theorem test_self_test : (allOn.hubOn && allDies.all (fun i => allOn.dom (.die i) == .on) && allCores.all (fun c => allOn.dom (.core c) == .on) &&
    allStacks.all fun m => allOn.dom (.stack m) == .on) = true := by decide +kernel
theorem test_compute : (((stageDev .tested).updAoc fun a => { a with doms := doms0 }).setReg (aColmW 0 0) 64).computeUnits = true := by decide +kernel

/-- Example 15.1. -/
theorem test_phys : ([0, 4, 5, 40, 41, 61].map fun j => physColumn 0x40000000020 j) = [some 0, some 4, some 6, some 41, some 43, some 63] := by decide +kernel
/-- Standing entry 0 waits for boot coursing: whether its image verifies is the uninterpreted signature check's answer (R320, log 10). -/
theorem test_standing_waits : (let d := (up.updCrs fun c => { c with state := 7 }).updAoc fun a => { a with svc := zeros 512, trust := { a.trust with awaiting := [0] } }
    d.aoc.trust.stage == .compute && d.aoc.trust.awaiting.head? == some 0 && d.hub.crs.state == 7) = true := by decide +kernel

/-- Standing program 0 ran as last 0 and has used its restarts: it is abandoned. -/
theorem test_standing : (let d := (up.updAoc fun a => { a with svc := zeros 512 }).updLast 0 fun x => { x with st := .stopped, standing := some ⟨0, 0, true⟩ }
    d.standLast 0 == some 0 && d.lastQuiet 0 && after (.standingRestart 0) d fun d => d.last 0 == Last.init && codes d == [0x3004]) = true := by decide +kernel

/-! Pins, SMBus, the plumb unit and the event recorder (R342 to R385). -/

theorem test_pins : (after .syncEdge (up.updTime fun t => { t with ft := 9 }) (fun d => d.reg (aPwr 0xB8) == 9) && after (.presentNEdge false) up (fun d => !d.aoc.presentN) &&
    after (.plumbNEdge false) (up.setReg (aPwr 0xA8) 4) (fun d => d.hub.plumb.taken == some 0 && d.hub.plumb.src == 4) &&
    after (.syncPulse 1) up fun d => d.out == [.sync] && d.aoc.syncLow == some 1400) = true := by decide +kernel

/-- During a replay of pin edges an edge only raises event 0x6003; otherwise a recording notes it (R285, R289). -/
theorem test_pins_recorder : (let d := up.setReg (aRpl 0x10) 2 |>.setReg (aRpl 0) 0x40
    (d.replaying 4 && after .syncEdge d fun d => codes d == [0x6003]) &&
    let r := (up.setReg (aRpl 0x10) 1).setReg (aRpl 0) 0x40
    r.rplState == 1 && after (.presentNEdge true) r fun d => d.now.recs == [(4, 2, [1])]) = true := by decide +kernel

def smbDev : Dev := up.updAoc fun a => { a with smbAddr := some 5 }

def smb (i : Instr) (cmd n : Nat) : Bool := after i smbDev fun d => d.out.map (fun o => match o with
  | .smbus c bs _ => (c, bs.length)
  | _ => (0, 99)) == [(cmd, n)]

theorem test_smbus : (after (.smbusAddressResolution 5) up (fun d => d.aoc.smbAddr == some 5 && d.out.length == 1) && smb .smbusReadStatus 0 1 && smb .smbusReadSerial 1 8 &&
    smb .smbusReadRevision 2 1 && smb .smbusReadInputPower 0x10 2 && smb .smbusReadInputVoltage 0x11 2 && smb .smbusReadDieTemperature 0x12 1 &&
    smb .smbusReadHbmTemperature 0x13 1 && smb .smbusReadGovernorLevel 0x14 1 && after (.smbusOtherCommand 0x33) smbDev fun d => d.out == []) = true := by decide +kernel
theorem test_plumb : (after (.plbTrig 0x70004) up (fun d => d.hub.plumb.src == 32 && d.hub.plumb.tag == 7) &&
    after (.plbRelease 2) (up.setReg (aPlb 8) 1) (fun d => !bitOf (d.reg (aPlb 8)) 0) && after (.plbAtWrite 9) up (fun d => d.reg (aPlb 0x10) == 9) &&
    after .plbAtFire ((up.setReg (aPlb 0x10) 9).updTime fun t => { t with ft := 9 }) fun d => d.hub.plumb.src == 8 && d.reg (aPlb 0x10) == 0) = true := by decide +kernel
/-- A trigger that finds a snapshot held is dropped at the end of the cycle, or taken by a release of it (R374). -/
theorem test_plumb_held : (let held := up.setReg (aPlb 8) 1
    after (.plbTrig 5) held (fun d => d.hub.plumb.taken == none && d.now.trigs == [(5, 0, none)] && (d.plumbDrop).regFld (aPlb 8) 16 16 == 1) &&
    after (.plbRelease 3) { held with now := { held.now with trigs := [(0, 9, none)] } } fun d => d.hub.plumb.src == 1 && d.hub.plumb.tag == 9) = true := by
  decide +kernel
/-- A trigger within two cycles of the last one merges; an instant that has passed triggers in the next cycle. -/
theorem test_plumb_merges : (after (.plbTrig 4) (up.updHub fun h => { h with plumb := { h.plumb with taken := some 0, src := 1 } }) (fun d => d.hub.plumb.src == 33) &&
    after (.plbAtWrite 3) (up.updTime fun t => { t with ft := 9 }) fun d => d.hub.plumb.raised == [(1, 3, 3)] && d.reg (aPlb 0x10) == 0) = true := by decide +kernel
theorem test_counter_clear : after (.cntClear (.core 0) 2) up (fun d => d.now.clrs == [aCnt 0 0]) = true := by decide +kernel

def event0 : Event := ⟨0x3002, 1, none, [], none⟩

def recDev (n : Nat) : Dev := up.updAoc fun a => { a with rcd := { a.rcd with raised := [event0], next := n } }

theorem test_event_accept : (after .eventAccept (recDev 256) (fun d => codes d == [] && d.aoc.rcd.next == 257 && d.aoc.rcd.pend.length == 1) &&
    after .eventAccept ((recDev 256).updAoc fun a => { a with rcd := { a.rcd with pend := List.replicate 1024 (1, []) } }) fun d =>
      d.aoc.rcd.lost == 1 && codes d == []) = true := by decide +kernel

/-- Record 1 goes to the boot slots, record 256 to the ring. -/
theorem test_record_write : (let d := fun n => up.updAoc fun a => { a with rcd := { a.rcd with pend := [(n, leBytes 8 n ++ zeros 56)] } }
    after .eventRecordWrite (d 1) (fun d => d.aoc.rcd.pend == [] && d.rdMem (recBase + 64) 2 == [1, 0]) &&
    after .eventRecordWrite (d 256) fun d => d.rdMem (recBase + 0x30000) 2 == [0, 1] && d.aoc.rcd.slot == 1) = true := by decide +kernel
theorem test_life : after .lifeCounterWrite up (fun d => d.aoc.rcd.secs == 60 && d.aoc.rcd.life == some (0, 60)) = true := by decide +kernel
theorem test_cursor : (after (.evrCurWrite 5) up (fun d => d.regFld (aEvr 0x10) 0 33 == 5) &&
    after .evrWindowAdvance (up.setReg (aEvr 0x10) (5 + 2 ^ 32)) fun d => d.regFld (aEvr 0x10) 0 32 == 6 && d.out.length == 1) = true := by decide +kernel

/-! Stealing (R167, R168): a queued operation of a movable group of core 1 moves to array 0 of core 0. -/

def stealDev : Dev :=
  { ((eng0.setReg (aLstCtl 0) 1).setReg (aArrCtl 1 0) 0x88).setReg (aBedCtl 1 0) 0x8888 with
    cycle := 256, ops := [{ mma0 .queued with core := 1, ecore := 1, group := some (9, true) }], nextOp := 5 }

theorem test_thief : (stealDev.thiefFor 0 0 == some 0) = true := by decide +kernel
theorem test_move_group : ((stealDev.moveGroup 1 0 (9, 0) 0 0 0).any fun d => d.ops.map (fun o => (o.ecore, o.earray, o.tiles, o.began)) == [(0, 0, [0], 256)]) =
    true := by decide +kernel
theorem test_steal_round : after (.stealRound 0) stealDev (fun d => d.ops == stealDev.ops) = true := by decide +kernel

/-! Further witnesses: forms and clauses that stand beside those above. -/

/-- s5 is the address of LDG, STG and AADD. -/
def globalDev (op : Nat) (w : BitVec 56) (ea : Word) : Dev := (memDev op w).updStrand 0 0 fun s => { s with s := vmap s.s 5 fun _ => ea }

/-- At module 5 the access leaves as a request; here it starts at the module's own device address too; at a group's address a valid
entry takes an STG along to the group's root, another stops the last with cause 17, and LDG with cause 4 (R182, R249, R263). -/
theorem test_global_forms : (let w := wd 2 5 8
    let goes := fun (i : CoreId → StrandId → BitVec 56 → Instr) op t => ready (globalDev op w 0x0005008000000000) op w &&
      after (i 0 0 w) (globalDev op w 0x0005008000000000) fun d => d.hub.inject.map (fun p => (p.type, p.dst.toNat, p.addr.toNat)) == [(t, 5, 0x8000000008)] &&
        (d.strand 0 0).acc.map (fun a => a.remote) == [true]
    goes .ldg 0x5C 2 && goes .stg 0x5D 0 && goes .aadd 0x5E 4 &&
    let own := (globalDev 0x5C w 0x0003008000000000).setReg (aFab 0x10) 0x8003
    ready own 0x5C w && after (.ldg 0 0 w) own (fun d => (d.strand 0 0).acc.map (fun a => a.remote) == [false]) &&
    let grp := fun op => (globalDev op w 0x8009008000000000).setReg (aFmc 72) (0x2000 + 3 * 2 ^ 15 + 2 * 2 ^ 30)
    ready (grp 0x5D) 0x5D w && after (.stg 0 0 w) (grp 0x5D) (fun d => d.hub.inject.map (fun p => (p.type, p.dst.toNat, p.cid.toNat)) == [(7, 3, 9)] &&
      d.hub.reqs.map (fun r => r.need) == [2]) &&
    after (.stg 0 0 w) (globalDev 0x5D w 0x8009008000000000) (fun d => (d.last 0).st == .stopped && d.regFld (aLstFlt 0 0) 0 8 == 17) &&
    after (.ldg 0 0 w) (grp 0x5C) fun d => (d.last 0).st == .stopped && d.regFld (aLstFlt 0 0) 0 8 == 4) = true := by decide +kernel

/-- Requests of other modules at stock, HBM and a scratch register (R209, R248, R392). -/
theorem test_served_places : (let hbm := fun (p : Packet) => hbmDev (served p)
    after (.wr { pkt 0 0 2 1 with addr := 0x8000000010, data := [7, 8] }) (served { pkt 0 0 2 1 with addr := 0x8000000010, data := [7, 8] })
      (fun d => d.rdMem 0x8000000010 3 == [7, 8, 0]) &&
    let p := { pkt 0 0 2 1 with addr := 0x20001, data := [7, 8] }
    (hbm p).rangeMapped 0x20001 2 && (hbm p).rangeAwake 0x20001 2 && after (.wr p) (hbm p) (fun d => d.rdMem 0x20000 4 == [0, 7, 8, 0]) &&
    let q := { pkt 0 0 8 7 with addr := BitVec.ofNat 48 (aGlb 0x100), data := leBytes 8 77 }
    after (.wr q) (served q) (fun d => d.reg (aGlb 0x100) == 77 && d.hub.inject.map (fun x => x.type) == [1]) &&
    let r := { pkt 2 0 0 7 with addr := BitVec.ofNat 48 (aGlb 0x100) }
    after (.rd r) ((served r).setReg (aGlb 0x100) 77).showStart (fun d => d.hub.inject.map (fun x => x.data) == [leBytes 8 77]) &&
    let m := { q with type := 7, dst := 9, mc := true }
    after (.mwr m) ((served m).setReg (aFmc 72) 0x7000) (fun d => d.reg (aGlb 0x100) == 77 && d.hub.inject.map (fun x => x.type) == [8]) &&
    let a := { pkt 4 0 0 7 with addr := 0x20008, operand := 5 }
    after (.aa a) (hbm a) fun d => d.rdMem 0x20008 8 == leBytes 8 5) = true := by decide +kernel

/-- A stack of HBM asleep. -/
def asleep (d : Dev) : Dev := allStacks.foldl (fun (d : Dev) m => d.setDom (.stack m) .selfRefresh) d

/-- Accesses that meet sleeping stacks wait and wake them (R207, R330): a LOAD, the record at the end of a recording, a collective's start. -/
theorem test_asleep : (let a := 0x10000
    !(asleep (hbmDev up)).rangeAwake a 184 && asks .ncpLoad 2 (loadBody a) (asleep (hbmDev up)) (fun d => (d.last 0).reading.isSome && replies d == []) &&
    after (.rplStop 0) (asleep (rplDev 1)) (fun d => d.rplState == 3 && d.hub.recQ.map (fun x => x.1) == [a] && d.aoc.doms.moving != []) &&
    let c := (asleep (hbmDev colDev)).setReg (aCol 1 8) 0x10000
    after (.colStart 1 1) c fun d => d.chan 1 == ⟨1, 0, (List.range 8).map fun i => c.reg (aCol 1 (8 * i)), [], []⟩) = true := by decide +kernel

/-- A rank list that names another module (Table 9.14, code 3). -/
theorem test_collective_ranks : after (.colStart 1 1) (colDev.wrMem 0xFF10000300 [4]) (fun d => (d.chan 1).st == 3 && (d.chan 1).err == 3 && codes d == [0x5006]) =
    true := by decide +kernel

/-- A gate port that is in the midst of a datagram keeps its queue (R316); a push of another width is refused (R398). -/
theorem test_push_forms : (let d := queDev.updGate 0 fun x => { x with rx := [(1, 5, 0, nbp0.payload)], rest := some [zeros 64] }
    d.queTaken 1 && after (.push 1 ent0) d (fun d => (d.queue 1).waiting == [ent0] && (d.queue 1).count == 0) &&
    after (.push 1 (zeros 32)) queDev fun d => (d.queue 1).count == 0 && codes d == [0x8002]) = true := by decide +kernel

/-- Programming cannot set a bit: WRITE ends in a memory error at the byte (R363). -/
theorem test_write_fails : (let d := (sessionDev 1 0x05010000 0x05010100).wrMem (flashBase + 0x05010001) [0]
    d.programFail (flashBase + 0x05010000) [7, 8] == some 1 && asks .fwupdWrite 16 (fwBody 1 1 2 0x10000 ++ [7, 8]) d fun d =>
      replies d == [(5, 1)] && d.byte (flashBase + 0x05010000) == 7) = true := by decide +kernel

/-- A length of 0 keeps the old one, the cycle in range is taken (log 60). -/
theorem test_gcfg_range : (let d := ethDev.setReg (aCtlp 0 0x10) (2 * 5 + 2000 * 256)
    after (.ctlpGcfgWrite 0 (1000 * 256)) d fun d => d.regFld (aCtlp 0 0x10) 1 7 == 5 && d.regFld (aCtlp 0 0x10) 8 30 == 1000 && codes d == []) = true := by
  decide +kernel

/-- The copy of a multicast write takes its credits on the output that it names, and a request without a route is answered, of class 2 too. -/
theorem test_copies : (let p := { pkt 7 0 2 1 with data := [7, 8], dst := 9, mc := true, copyTo := some 3 }
    let d := ((linkDev .up).updLink 3 fun l => { l with shared := 10 }).updHub fun h => { h with inject := [p] }
    d.offers .own == [p] && d.nextOut 3 == some (.own, p) && after (.packetForward .own) d (fun d => d.hub.inject == [] && (d.link 3).tx.length == 2) &&
    let q := { pkt 9 2 0 0 with dst := 1 }
    after (.packetForward .own) ((linkDev .up).updHub fun h => { h with inject := [q] }) fun d => d.hub.inject.map (fun q => (q.type, q.status, q.dst)) == [(6, 3, 0x23)]) =
    true := by decide +kernel

/-- A packet that is behind another of its flow is not served (R248). -/
theorem test_flow : (let a := { pkt 0 0 2 1 with addr := 0xFF10000000, data := [7, 8], tag := 1 }
    let b := { pkt 0 0 2 1 with addr := 0xFF10000002, data := [9, 9], tag := 2 }
    after (.wr b) ((served a).updHub fun h => { h with delivered := [a, b] }) fun d => d.rdMem dramBase 4 == [0, 0, 0, 0] && d.hub.delivered.length == 2) = true := by
  decide +kernel

/-- What the statement asks of the last identity packet of step 2, which begins the election; a start with every link UP sends identity packets (R255). -/
theorem test_coursing_steps : (let d := upDev.updCrs fun c => { c with state := 1, step := 2 }
    d.upPorts == [3] && !d.hub.crs.mode && d.hub.crs.named == 0 && d.hub.crs.heard == [] && d.hub.crs.offers == [] && d.hub.crs.taken == [] &&
    let e := allLinks.foldl (fun (d : Dev) l => d.setTarget (.link l) 2) upDev
    after (.fabCrsStart 1) e (fun d => d.hub.crs.state == 1 && d.hub.crs.step == 2 && d.hub.ctl.length == 1) &&
    after (.fabCoordWrite 5) up fun d => d.regs == up.regs) = true := by decide +kernel

/-- A stack that an access met on its way into SELF-REFRESH comes back (R330); the governor's fall to 0 is recorded (R335). -/
theorem test_power_more : (let d := (stackDev .selfRefresh 1 []).updAoc fun a => { a with doms := { a.doms with woken := [3] } }
    (d.examineNext (.stack 3)).aoc.doms.moving == [3] &&
    after (.governorLower ⟨200, 48000, 50, 50⟩) (govDev 1) (fun d => codes d == [0x2003]) &&
    after (.governorRaise ⟨900, 48000, 50, 50⟩) (govDev 0) fun d => codes d == [0x2002]) = true := by decide +kernel

/-- A valid byte that is being programmed when the power goes is not there afterwards (R379). -/
theorem test_torn : (let d := (up.updAoc fun a => { a with rcd := { a.rcd with pend := [(1, zeros 63 ++ [0x5A])] } }).writeRecord
    d.byte (recBase + 127) == 0x5A && after .powerLoss d fun d => d.byte (recBase + 127) == 0xFF && d.byte (recBase + 64) == 0) = true := by decide +kernel

/-- The CRC of the packet error code: its check value (PRESUMED, log 44). -/
theorem test_pec : pec ([0x31, 0x32, 0x33, 0x34, 0x35, 0x36, 0x37, 0x38, 0x39] : List Byte) = 0xF4 := by decide +kernel

/-- Before keeper service SYNC is not driven; the level of PLUMB_N is kept (R342, R344). -/
theorem test_pins_more : (let d := up.updAoc fun a => { a with trust := { a.trust with stage := .firmware } }
    d.aocUp && !d.serves && after (.syncPulse 1) d (fun d => d.out == []) &&
    after (.plumbNEdge true) up (fun d => d.aoc.plumbIn) && after (.plumbNEdge false) up (fun d => !d.aoc.plumbIn) &&
    after .syncEdge up fun d => d.aoc.syncIn == some 1400) = true := by decide +kernel

/-- A record waits until its trigger is settled, and one whose trigger a release has let through carries flag bit 2 (R376); a page serves
one access in a cycle (R392). -/
theorem test_record_waits : (let d := { up.updAoc fun a => { a with rcd := { a.rcd with pend := [(256, leBytes 8 1 ++ zeros 56)] } } with
      now := { up.now with trigs := [(4, 9, some 256)] } }
    after .eventRecordWrite d (fun d => d.aoc.rcd.pend.length == 1) &&
    after (.plbRelease 2) (d.setReg (aPlb 8) 1) (fun d => d.aoc.rcd.pend.map (fun p => p.2.getD 15 0) == [4] && d.hub.plumb.src == 16) &&
    let e := up.setReg (aEvr 0x10) (5 + 2 ^ 32)
    after .evrWindowAdvance { e with now := { e.now with pages := [4] } } fun d => d.regFld (aEvr 0x10) 0 32 == 5 && d.out == []) = true := by decide +kernel

/-- FIPS 197, example C.3, and RFC 4231, test case 1. -/
theorem test_aes : aesBlock (aesKeys ((List.range 32).map fun i => BitVec.ofNat 8 i)) ((List.range 16).map fun i => BitVec.ofNat 8 (17 * i)) =
    [0x8E, 0xA2, 0xB7, 0xCA, 0x51, 0x67, 0x45, 0xBF, 0xEA, 0xFC, 0x49, 0x90, 0x4B, 0x49, 0x60, 0x89] := by decide +kernel
theorem test_hmac : (hmac sha384 (List.replicate 20 0x0B) [0x48, 0x69, 0x20, 0x54, 0x68, 0x65, 0x72, 0x65]).take 4 = [0xAF, 0xD0, 0x39, 0x44] := by
  decide +kernel

end Sys2Proof.Tests
end

section
/-!
PROOFS. What the end of a cycle does to a module in which one MEMW waits for a multicast write that wants no acknowledgement (R263,
R311): the write completes when the next cycle has begun, the MEMW goes on at once, and its next word may go to any register of this
module, CNT_CTL (Table 14.5) included.
-/

namespace Sys2Proof.Machine

/-- A step on an empty queue ends one cycle (log 3). -/
theorem step_empty (d : Dev) : step ⟨d, []⟩ = .next ⟨d.cycleEnd, []⟩ := rfl

@[simp] theorem drainAll_nil (d : Dev) (t : Nat) : d.drainAll t [] = d := rfl
@[simp] theorem movePtrs_nil (d : Dev) : d.movePtrs [] = d := rfl

/-- A fold over what turns out to be empty. Stated with an equation, since the kernel, asked whether the two sides are the same, evaluates
the device `b`. -/
theorem foldl_of_eq_nil {α β : Type} {l : List α} (h : l = []) (f : β → α → β) (b : β) : l.foldl f b = b := by
  rw [h, List.foldl_nil]

/-- Where the old cycle noted nothing, the next one begins with what settles and is served by itself. -/
theorem nextCycle_of_now_init {d : Dev} (h : d.now = Now.init) : d.nextCycle =
    (allCores.foldl (fun (d : Dev) c => d.settleCore c)
      { d with cycle := d.cycle + 1, now := Now.init }).pausesBegin.popsServe.recServe.colsServe.loadsServe.countedReqs.ckpResume.showStart := by
  have hdrains : d.now.drains = [] := congrArg Now.drains h
  have hfaults : d.now.faults = [] := congrArg Now.faults h
  have hstk : d.now.stk = [] := congrArg Now.stk h
  have hfirsts : d.now.firsts = [] := congrArg Now.firsts h
  have hresumed : d.now.resumed = [] := congrArg Now.resumed h
  have hexams : d.now.exams = [] := congrArg Now.exams h
  have hwake : d.now.wake = [] := congrArg Now.wake h
  simp only [Dev.nextCycle, hdrains, drainAll_nil, hfaults, List.isEmpty_nil, if_true, hstk, movePtrs_nil,
    foldl_of_eq_nil hfirsts, foldl_of_eq_nil hresumed, foldl_of_eq_nil hexams, foldl_of_eq_nil hwake]

/-! The state. -/

/-- A MEMW of two words to this module, the second of which writes 2 (clear) to CNT_CTL of the always-on domain. It waits
for the answer to the request with tag 0. -/
def clearJob : MemJob where
  asker := ⟨0, 0, 0, 0, 10⟩
  write := true
  addr := 0x7FFF000000000000 + BitVec.ofNat 64 (aAcnt 0x7F0)
  len := 16
  done := 0
  data := zeros 8 ++ leBytes 8 2
  tag := some 0

/-- Cycle `n` of a module in compute service in which nothing is in progress but that MEMW and its request, a multicast write that
wants no acknowledgement. -/
def waitingDev (n : Nat) : Dev :=
  { Dev.init with
    cycle := n
    aoc := { Aoc.init with trust := { Trust.init with stage := .compute }, memJob := some clearJob }
    hub := { Hub.init with reqs := [⟨0, .aoc, 0x8000000000000000, 0, 0, []⟩] } }

section
variable (n : Nat) (c : CoreId)

@[simp] theorem waitingDev_core : (waitingDev n).core c = Core.init := by
  simp [Dev.core, waitingDev, Dev.init, Vector.get]

@[simp] theorem waitingDev_strand (k : StrandId) : (waitingDev n).strand c k = Strand.init := by
  simp [Dev.strand, Core.init, Vector.get]

@[simp] theorem waitingDev_coreOn : (waitingDev n).coreOn c = false := by
  simp [Dev.coreOn, waitingDev, Aoc.init, Doms.init, Vector.get]

theorem waitingDev_held (h : Fin 2) : (((waitingDev n).core c).hods.get h).held = none := by
  simp [Core.init, Hod.init, Vector.get]

/-! No part of the cycle's own work finds anything to do. -/

theorem waitingDev_gatesServe : (waitingDev n).gatesServe = waitingDev n := rfl
theorem waitingDev_arrayCycle : (waitingDev n).arrayCycle = waitingDev n := rfl
theorem waitingDev_engineCycle : (waitingDev n).engineCycle = waitingDev n := rfl
theorem waitingDev_ctlCycle : (waitingDev n).ctlCycle = waitingDev n := rfl
theorem waitingDev_flushCycle : (waitingDev n).flushCycle = waitingDev n := rfl
theorem waitingDev_recFlush : (waitingDev n).recFlush = waitingDev n := rfl

theorem waitingDev_countWaits : (waitingDev n).countWaits = waitingDev n := by
  change allCores.foldl (fun (d : Dev) c => (List.finRange 2).foldl (fun (d : Dev) h =>
    if ((d.core c).hods.get h).held.isSome then d.cnt c (53 + h.val) 1 else d) d) (waitingDev n) = waitingDev n
  refine List.foldl_fixed' (fun c => ?_) _
  refine List.foldl_fixed' (fun h => ?_) _
  rw [waitingDev_held]
  rfl

theorem waitingDev_packetsCycle : (waitingDev n).packetsCycle = waitingDev n := by
  simp only [Dev.packetsCycle, waitingDev_coreOn, Bool.false_and, List.filter_false, List.foldl_nil]
  rfl

theorem waitingDev_linksCycle : (waitingDev n).linksCycle = waitingDev n := by
  unfold Dev.linksCycle
  split
  case isTrue => rfl
  case isFalse => rfl

theorem waitingDev_dueCore : (waitingDev n).dueCore c = waitingDev n := by
  simp [Dev.dueCore, Core.init]

theorem waitingDev_stallCore : (waitingDev n).stallCore c = waitingDev n := by
  simp [Dev.stallCore]

theorem waitingDev_foldCore : (waitingDev n).foldCore c = waitingDev n := by
  simp [Dev.foldCore, Core.init, Tally.touched]

theorem waitingDev_settleCore : (waitingDev n).settleCore c = waitingDev n :=
  List.foldl_fixed' (fun k => by simp [Strand.init]) _

end

theorem waitingDev_tickCounts : (waitingDev 0).tickCounts = waitingDev 0 := by
  simp only [Dev.tickCounts, List.foldl_fixed' (waitingDev_stallCore 0), List.foldl_fixed' (waitingDev_foldCore 0)]
  rfl

theorem waitingDev_cycleWork : (waitingDev 0).cycleWork = waitingDev 0 := by
  simp only [Dev.cycleWork, waitingDev_gatesServe, waitingDev_countWaits, waitingDev_arrayCycle, waitingDev_engineCycle,
    waitingDev_packetsCycle, waitingDev_linksCycle, waitingDev_ctlCycle, List.foldl_fixed' (waitingDev_dueCore 0),
    waitingDev_flushCycle, waitingDev_recFlush, waitingDev_tickCounts]

/-! The next cycle begins with the multicast write, which completes, and the MEMW, which goes on. -/

theorem waitingDev_pausesBegin (n : Nat) : (waitingDev n).pausesBegin = waitingDev n := rfl
theorem waitingDev_popsServe (n : Nat) : (waitingDev n).popsServe = waitingDev n := rfl
theorem waitingDev_recServe (n : Nat) : (waitingDev n).recServe = waitingDev n := rfl
theorem waitingDev_colsServe (n : Nat) : (waitingDev n).colsServe = waitingDev n := rfl
theorem waitingDev_loadsServe (n : Nat) : (waitingDev n).loadsServe = waitingDev n := rfl

theorem waitingDev_nextCycle (n : Nat) :
    (waitingDev n).nextCycle = (waitingDev (n + 1)).countedReqs.ckpResume.showStart := by
  have hnext : ({ waitingDev n with cycle := (waitingDev n).cycle + 1, now := Now.init } : Dev) = waitingDev (n + 1) := rfl
  rw [nextCycle_of_now_init rfl, hnext]
  simp only [List.foldl_fixed' (waitingDev_settleCore (n + 1)), waitingDev_pausesBegin, waitingDev_popsServe, waitingDev_recServe,
    waitingDev_colsServe, waitingDev_loadsServe]

theorem countedReqs_clrs_waitingDev :
    (waitingDev 1).countedReqs.ckpResume.showStart.now.clrs = [aAcnt 0] := by decide +kernel

/-- The cycle ends with the counter page of the always-on domain noted for the end of the next. -/
theorem waitingDev_cycleEnd_clrs : (waitingDev 0).cycleEnd.now.clrs = [aAcnt 0] := by
  rw [Dev.cycleEnd, waitingDev_cycleWork, waitingDev_nextCycle, countedReqs_clrs_waitingDev]

/-- Refutes O2: a step on an empty queue can leave a counter page to be cleared. What the old cycle noted is dropped first, but a
multicast write that wants no acknowledgement completes after that, and the MEMW that waited for its tag then goes on and writes CNT_CTL
with clear set. The statement speaks of every state, and so of this one, whose request and MEMW share the tag and not the address; that a
run from reset meets such a state is not claimed. -/
theorem not_emptyQueueTicks : ¬ Obligations.EmptyQueueTicks := by
  unfold Obligations.EmptyQueueTicks
  intro h
  obtain ⟨t, ht, -, -, hclrs⟩ := h ⟨waitingDev 0, []⟩ rfl
  rw [step_empty] at ht
  obtain rfl := Host.Outcome.next.inj ht
  exact List.cons_ne_nil _ _ (waitingDev_cycleEnd_clrs.symm.trans hclrs)

end Sys2Proof.Machine
end

section
/-!
PROOFS. Writes of the guarded registers of a core's pages: where an 8-byte write to such a page goes, what a plain register takes, and
that ARR_CTL and BED_CTL keep the assignment of a unit in use (R88, R111).
-/

namespace Sys2Proof.Machine

section
variable (d : Dev) (c : CoreId) {j o : Nat}

theorem page_of_corePage (ho : o < 0x10000) : (regAddr (corePage c j) o - regBase) / 0x10000 = corePage c j := by
  unfold regAddr; omega

theorem offset_of_corePage (ho : o < 0x10000) : regAddr (corePage c j) o % 0x10000 = o := by
  unfold regAddr regBase; omega

theorem corePage_bounds (hj : j < 8) : 0x1000 ≤ corePage c j ∧ corePage c j < 0x1800 ∧ corePage c j % 16 = j := by
  have := c.isLt
  unfold corePage; omega

theorem core_of_corePage (hj : j < 8) : finOf 127 ((corePage c j - 0x1000) / 16) = c := by
  have h : (corePage c j - 0x1000) / 16 = c.val := by unfold corePage; omega
  rw [h]
  exact Fin.ofNat_val_eq_self c

theorem region_corePage (hj : j < 8) (ho : o < 0x10000) : region (regAddr (corePage c j) o) = .regs := by
  obtain ⟨hlo, hhi, -⟩ := corePage_bounds c hj
  have hb : regBase = 1030792151040 := rfl
  have ha : regAddr (corePage c j) o = regBase + corePage c j * 0x10000 + o := rfl
  have hr : regBase ≤ regAddr (corePage c j) o ∧ regAddr (corePage c j) o < regBase + 0x100000000 := by omega
  unfold region
  rw [if_neg (by omega), if_neg (by omega), if_neg (by simp; omega), if_neg (by simp; omega), if_pos (by simpa using hr)]

theorem pageOn_corePage (hj : j < 8) (ho : o < 0x10000) : d.pageOn (regAddr (corePage c j) o) = d.coreOn c := by
  obtain ⟨hlo, hhi, hk⟩ := corePage_bounds c hj
  unfold Dev.pageOn
  rw [page_of_corePage c ho]
  dsimp only
  rw [if_neg (by omega), if_neg (by omega), if_neg (by simp; omega), if_pos (by simp; omega), core_of_corePage c hj]

theorem write8_corePage (hj : j < 8) (ho : o < 0x10000) (h8 : o % 8 = 0) (hon : d.coreOn c = true) (v : Word) :
    d.write8 (regAddr (corePage c j) o) v = ((d.servePage (corePage c j)).wrCorePage c j o v, .ok []) := by
  obtain ⟨hlo, hhi, hk⟩ := corePage_bounds c hj
  have ha : regAddr (corePage c j) o % 8 = 0 := by unfold regAddr regBase; omega
  have hw : wideWindow (corePage c j) o = false := by simp [wideWindow]; omega
  unfold Dev.write8
  rw [region_corePage c hj ho]
  unfold Dev.regWrite
  simp [page_of_corePage c ho, offset_of_corePage c ho, pageOn_corePage d c hj ho, hon, ha, hw, hlo, hhi, hk, core_of_corePage c hj]

theorem regInfo_corePage (hj : j < 8) (ho : o < 0x10000) : regInfo (regAddr (corePage c j) o) = coreRegInfo j o := by
  obtain ⟨hlo, hhi, hk⟩ := corePage_bounds c hj
  unfold regInfo
  simp [page_of_corePage c ho, offset_of_corePage c ho, hlo, hhi, hk]

end

/-- A write of a register whose fields are plainly written (R10). -/
theorem swWrite_plain (d : Dev) {x : Nat} {mask : Word} (h : regInfo x = .plain mask) (v : Word) :
    d.swWrite x v = d.setReg x ((d.reg x &&& ~~~mask) ||| (v &&& mask)) := by
  have hnone : (d.now.sets.find? fun _ => false) = none := List.find?_eq_none.mpr (by simp)
  have hones : ∀ w : Word, w &&& 18446744073709551615#64 = w := fun w => BitVec.and_allOnes
  unfold Dev.swWrite
  rw [h]
  simp only [List.find?_filter]
  simp [RegInfo.plain, hnone, hones]

/-- A register written once its page has noted the access. -/
theorem writesReg_setReg {s : State} {d : Dev} {ps : List Nat} (hd : d = { s.dev with now := { s.dev.now with pages := ps } })
    {x : Nat} (v : Word) : WritesReg x v s { s with dev := d.setReg x v } := by
  subst hd
  exact ⟨reg_setReg_same _ _, ⟨_, ps, rfl⟩, fun b hb => reg_setReg_other _ _ hb⟩

/-- A write to a guarded register of a page that serves it: ignored whole, or made whole (R88, R111). -/
theorem yields_of_guardedWhole {s : State} {i : Instr} {g x : Nat} {v mask : Word} {fields : List (Nat × Nat × Bool)}
    (hexec : exec i s = .next { s with dev := (s.dev.servePage g).guardedWhole x v fields }) (hinfo : regInfo x = .plain mask)
    {hit : Prop} (hhit : (fields.any fun f => !f.2.2 && fld v f.1 f.2.1 != fld (s.dev.reg x) f.1 f.2.1) = true ↔ hit) :
    (hit → Yields i s fun t =>
      t.dev.regs = s.dev.regs ∧ Raised [0x8001] s t ∧ (∀ y, t.dev.byte y = s.dev.byte y) ∧ t.dev.cores = s.dev.cores) ∧
    (¬ hit → Yields i s (WritesReg x ((s.dev.reg x &&& ~~~mask) ||| (v &&& mask)) s)) := by
  obtain ⟨ps, hps⟩ := servePage_eq s.dev g
  have hreg : (s.dev.servePage g).reg x = s.dev.reg x := by rw [hps]; rfl
  rw [← hreg] at hhit
  refine ⟨fun h => ⟨_, hexec, ?_⟩, fun h => ⟨_, hexec, ?_⟩⟩
  · have hignored : (s.dev.servePage g).guardedWhole x v fields = (s.dev.servePage g).ignored x v := if_pos (hhit.mpr h)
    simp only [hignored, Dev.ignored, event_eq]
    have hregs : (s.dev.servePage g).regs = s.dev.regs := by rw [hps]
    have hcores : (s.dev.servePage g).cores = s.dev.cores := by rw [hps]
    have haoc : (s.dev.servePage g).aoc = s.dev.aoc := by rw [hps]
    have hbyte : ∀ y, (s.dev.servePage g).byte y = s.dev.byte y := fun y => by rw [hps]; rfl
    refine ⟨hregs, ?_, hbyte, hcores⟩
    simp [Raised, haoc]
  · have hwritten : (s.dev.servePage g).guardedWhole x v fields = (s.dev.servePage g).swWrite x v :=
      if_neg fun hany => h (hhit.mp hany)
    simp only [hwritten, swWrite_plain _ hinfo, hreg]
    exact writesReg_setReg hps _

theorem finOf_val {n : Nat} (a : Fin (n + 1)) : finOf n a.val = a := Fin.ofNat_val_eq_self a

theorem exec_arrCtlWrite {s : State} {c : CoreId} (a : ArrayId) (v : Word) (hon : s.dev.coreOn c = true) :
    exec (.arrCtlWrite c a v) s = .next { s with dev := (s.dev.servePage (corePage c 2)).wrArrCtl c a v } := by
  have hw := write8_corePage s.dev c (j := 2) (o := 0x40 * a.val) (by decide) (by omega) (by omega) hon v
  show Host.Outcome.next { s with dev := (s.dev.write8 (regAddr (corePage c 2) (0x40 * a.val)) v).1 } = _
  rw [hw]
  simp [Dev.wrCorePage, finOf_val, show 64 * a.val < 256 by omega]

theorem exec_bedCtlWrite {s : State} {c : CoreId} (a : ArrayId) (v : Word) (hon : s.dev.coreOn c = true) :
    exec (.bedCtlWrite c a v) s = .next { s with dev := (s.dev.servePage (corePage c 3)).wrBedCtl c a v } := by
  have hw := write8_corePage s.dev c (j := 3) (o := 0x100 * a.val) (by decide) (by omega) (by omega) hon v
  show Host.Outcome.next { s with dev := (s.dev.write8 (regAddr (corePage c 3) (0x100 * a.val)) v).1 } = _
  rw [hw]
  simp [Dev.wrCorePage, finOf_val, show 256 * a.val < 1024 by omega]

theorem regInfo_aArrCtl (c : CoreId) (a : ArrayId) : regInfo (aArrCtl c a) = .plain 0xFF := by
  have h := regInfo_corePage c (j := 2) (o := 0x40 * a.val) (by decide) (by omega)
  rw [aArrCtl, aArr, h]
  simp [coreRegInfo, show 64 * a.val < 256 by omega]

theorem regInfo_aBedCtl (c : CoreId) (a : ArrayId) : regInfo (aBedCtl c a) = .plain 0xFFFF := by
  have h := regInfo_corePage c (j := 3) (o := 0x100 * a.val) (by decide) (by omega)
  rw [aBedCtl, aBed, h]
  simp [coreRegInfo, show 256 * a.val < 1024 by omega]

/-- A unit by its number and by its name. -/
theorem exists_finOf_iff {n : Nat} (P : Nat → Fin (n + 1) → Prop) : (∃ u, u < n + 1 ∧ P u (finOf n u)) ↔ ∃ x : Fin (n + 1), P x.val x := by
  constructor
  · rintro ⟨u, hu, h⟩
    have hname : finOf n u = ⟨u, hu⟩ := finOf_val ⟨u, hu⟩
    rw [hname] at h
    exact ⟨⟨u, hu⟩, h⟩
  · rintro ⟨x, h⟩
    exact ⟨x.val, x.isLt, by rwa [finOf_val]⟩

/-- Settles O57: the fields whose guard fails are those of the units in use, and that its page serves the write changes no unit. -/
theorem assignmentsAreGuarded : Obligations.AssignmentsAreGuarded := by
  unfold Obligations.AssignmentsAreGuarded
  intro s c a v hon
  refine ⟨yields_of_guardedWhole (exec_arrCtlWrite a v hon) (regInfo_aArrCtl c a) ?_,
    yields_of_guardedWhole (exec_bedCtlWrite a v hon) (regInfo_aBedCtl c a) ?_⟩
  · obtain ⟨ps, hps⟩ := servePage_eq s.dev (corePage c 2)
    have hbusy : ∀ u, (s.dev.servePage (corePage c 2)).halfBusy c a u = s.dev.halfBusy c a u := fun u => by rw [hps]; rfl
    have hhalf : ∀ u, (s.dev.servePage (corePage c 2)).half c a u = s.dev.half c a u := fun u => by rw [hps]; rfl
    have hqueue : ∀ u, (s.dev.servePage (corePage c 2)).queueOf c (.half a u) = s.dev.queueOf c (.half a u) :=
      fun u => by rw [hps]; rfl
    rw [exists_finOf_iff (n := 1) fun u h => (s.dev.halfBusy c a h = true ∨ (s.dev.half c a h).drainEnd.isSome = true ∨
      s.dev.queueOf c (.half a h) ≠ []) ∧ fld v (4 * u) 4 ≠ fld (s.dev.reg (aArrCtl c a)) (4 * u) 4]
    simp [hbusy, hhalf, hqueue, Fin.exists_fin_two, or_assoc]
  · obtain ⟨ps, hps⟩ := servePage_eq s.dev (corePage c 3)
    have htile : ∀ t, (s.dev.servePage (corePage c 3)).tileOps c a t = s.dev.tileOps c a t := fun t => by rw [hps]; rfl
    rw [exists_finOf_iff (n := 3) fun u t => s.dev.tileOps c a t ≠ [] ∧ fld v (4 * u) 4 ≠ fld (s.dev.reg (aBedCtl c a)) (4 * u) 4]
    simp [htile, allTiles]

end Sys2Proof.Machine
end

section
/-!
PROOFS. Arrays and halves: what they read after an update, and the end of a half's drain (R74, R82).
-/

namespace Sys2Proof.Machine

section
variable (d : Dev) (c x : CoreId) (a b : ArrayId) (u v : HalfId)

theorem arr_updArr (f : Arr → Arr) : (d.updArr c a f).arr x b = if x = c ∧ b = a then f (d.arr c a) else d.arr x b := by
  simp only [Dev.arr, Dev.updArr, core_updCore]
  by_cases hx : x = c <;> by_cases hb : b = a <;> simp [hx, hb, vmap_get]

@[simp] theorem arr_updArr_same (f : Arr → Arr) : (d.updArr c a f).arr c a = f (d.arr c a) := by simp [arr_updArr]

theorem half_updHalf (f : Half → Half) :
    (d.updHalf c a u f).half x b v = if x = c ∧ b = a ∧ v = u then f (d.half c a u) else d.half x b v := by
  simp only [Dev.half, Dev.updHalf, arr_updArr]
  by_cases hx : x = c <;> by_cases hb : b = a <;> by_cases hv : v = u <;> simp [hx, hb, hv, vmap_get]

@[simp] theorem half_updHalf_same (f : Half → Half) : (d.updHalf c a u f).half c a u = f (d.half c a u) := by simp [half_updHalf]

/-- An update of an array that leaves its halves. -/
theorem half_updArr {f : Arr → Arr} (h : ∀ y, (f y).halves = y.halves) : (d.updArr c a f).half x b v = d.half x b v := by
  simp only [Dev.half, arr_updArr]
  split <;> simp [*]

/-- An update of a half leaves the weights of its array. -/
theorem weights_updHalf (f : Half → Half) : ((d.updHalf c a u f).arr c a).act = (d.arr c a).act ∧
    ((d.updHalf c a u f).arr c a).shadow = (d.arr c a).shadow := by
  simp [Dev.updHalf]

end

/-- The weights of cleared rows read 0 (R74). -/
theorem clearRows_weights (y : Arr) {lo hi r j : Nat} (hlo : lo ≤ r) (hhi : r < hi) (hj : j < 64) :
    sget (fun _ => (0 : Word)) (y.clearRows lo hi).act (64 * r + j) = 0 ∧
    sget (fun _ => (0 : Word)) (y.clearRows lo hi).shadow (64 * r + j) = 0 := by
  have hout : (decide (64 * r + j < 64 * lo) || decide (64 * hi ≤ 64 * r + j)) = false := by
    simp only [Bool.or_eq_false_iff, decide_eq_false_iff_not]
    omega
  simp [Arr.clearRows, sget_skeep, hout]

/-- Settles O36: the drain that has ended drops the keys of the half's rows, and an unlisted weight reads 0. -/
theorem halfDrainEnds : Obligations.HalfDrainEnds := by
  unfold Obligations.HalfDrainEnds
  intro s c a u n hdrain
  refine ⟨fun hdue => ⟨_, rfl, ?_⟩, fun hbefore => ⟨_, rfl, ?_⟩⟩
  · have hnot : ¬ s.dev.cycle < n := by omega
    simp only [Dev.halfDrainEnd, hdrain, hnot, if_false, half_updHalf_same, true_and]
    refine ⟨fun r j hlo hhi hj => ?_, fun b => rfl⟩
    rw [(weights_updHalf _ c a u _).1, (weights_updHalf _ c a u _).2, arr_updArr_same]
    exact clearRows_weights _ hlo hhi hj
  · simp only [Dev.halfDrainEnd, hdrain, hbefore, if_true]

end Sys2Proof.Machine
end

section
/-!
PROOFS. The start of array operations, of finishing and of the slice port's operations, loads of weights, and the slots of a pass
(R65, R70 to R80, R95 to R103, R334).
-/

namespace Sys2Proof.Machine

/-! Operations by their number. -/

theorem find?_updFirst {α : Type} {p : α → Bool} {f : α → α} (hf : ∀ x, p (f x) = p x) (l : List α) :
    (updFirst p f l).find? p = (l.find? p).map f := by
  induction l with
  | nil => rfl
  | cons x t ih =>
    by_cases hx : p x = true
    · simp [updFirst, hx, hf]
    · simp [updFirst, hx, ih]

theorem mem_updFirst {α : Type} {p : α → Bool} {f : α → α} {l : List α} {x : α} (h : x ∈ updFirst p f l) :
    x ∈ l ∨ ∃ y, p y = true ∧ x = f y := by
  induction l with
  | nil => exact .inl h
  | cons y t ih =>
    by_cases hy : p y = true
    · simp only [updFirst, hy, if_true, List.mem_cons] at h
      rcases h with h | h
      · exact .inr ⟨y, hy, h⟩
      · exact .inl (List.mem_cons_of_mem _ h)
    · simp only [updFirst, hy, Bool.false_eq_true, if_false, List.mem_cons] at h
      rcases h with h | h
      · exact .inl (h ▸ List.mem_cons_self ..)
      · exact (ih h).imp_left (List.mem_cons_of_mem _)

/-- The first operation with number `i`. -/
def Dev.op? (d : Dev) (i : Nat) : Option Op := d.ops.find? fun x => x.id == i

section
variable {d : Dev} {o : Op} {i : Nat}

theorem opNow_of_op? {y : Op} (h : d.op? o.id = some y) : d.opNow o = y := by
  show (d.op? o.id).getD o = y
  rw [h]; rfl

theorem op?_of_mem (h : o ∈ d.ops) : ∃ y, d.op? o.id = some y := by
  rw [← Option.isSome_iff_exists, Dev.op?, List.find?_isSome]
  exact ⟨o, h, by simp⟩

theorem op?_updOp {f : Op → Op} (hf : ∀ x, (f x).id = x.id) : (d.updOp i f).op? i = (d.op? i).map f :=
  find?_updFirst (fun x => by simp only [hf]) d.ops

theorem opNow_updOp {y : Op} {f : Op → Op} (h : d.op? o.id = some y) (hf : ∀ x, (f x).id = x.id) : (d.updOp o.id f).opNow o = f y :=
  opNow_of_op? ((op?_updOp hf).trans (congrArg (Option.map f) h))

theorem op?_of_map {e : Dev} {f : Op → Op} (h : e.ops = d.ops.map f) (hf : ∀ x, (f x).id = x.id) : e.op? i = (d.op? i).map f := by
  simp only [Dev.op?, h, List.find?_map]
  congr 2
  funext x
  simp [hf]

theorem op?_congr {e : Dev} (h : e.ops = d.ops) : e.op? i = d.op? i := by rw [Dev.op?, h]; rfl

theorem mem_of_head {c : CoreId} {q : QId} (h : d.head c q = some o) : o ∈ d.ops := by
  unfold Dev.head at h
  split at h
  next x t hq =>
    split at h
    · obtain rfl := Option.some.inj h
      have hmem : x ∈ d.queueOf c q := hq ▸ List.mem_cons_self ..
      exact List.mem_of_mem_filter hmem
    · simp at h
  next => simp at h

theorem mem_of_find_arrOps {c : CoreId} {a : ArrayId} {p : Op → Bool} (h : (d.arrOps c a).find? p = some o) : o ∈ d.ops :=
  List.mem_of_mem_filter (List.mem_of_find?_eq_some h)

/-! An operation starts. -/

theorem startOp_op? {y : Op} (n : Nat) (h : d.op? o.id = some y) :
    ∃ z, (d.startOp o n).op? o.id = some z ∧ z.phase = .started ∧ z.began = d.cycle := by
  have hstarted := op?_updOp (d := d.noteLeft [o]) (i := o.id)
    (f := fun x => { x with phase := .started, began := d.cycle, due := d.cycle + n, base := x.pos }) fun _ => rfl
  rw [show (d.noteLeft [o]).op? o.id = d.op? o.id from rfl, h] at hstarted
  unfold Dev.startOp
  cases hg : o.group with
  | none => exact ⟨_, hstarted, rfl, rfl⟩
  | some g =>
    dsimp only
    rw [op?_of_map rfl fun x => by split <;> rfl, op?_congr (updStrand_ops ..), hstarted]
    refine ⟨_, rfl, ?_, ?_⟩ <;> dsimp only <;> split <;> rfl

theorem startOp_byte (d : Dev) (o : Op) (n b : Nat) : (d.startOp o n).byte b = d.byte b := by
  unfold Dev.startOp
  cases o.group <;> rfl

theorem startMma_op? {y : Op} (h : d.op? o.id = some y) :
    ∃ z, (d.startMma o).op? o.id = some z ∧ z.phase = .started ∧ z.began = d.cycle := by
  obtain ⟨z, hz, hphase, hbegan⟩ := startOp_op? 0 h
  unfold Dev.startMma
  rw [op?_updOp (by intro; rfl), hz]
  exact ⟨_, rfl, hphase, hbegan⟩

/-- MMA_START of an operation that everything lets start. -/
theorem mmaStart_eq {c : CoreId} {a : ArrayId} {u : HalfId} (hhead : d.head c (.half a u) = some o) (hheads : d.atHeads o = true)
    (hfeeders : d.feedersFree o = true) (hdrain : (o.halves.any fun v => (d.half c a v).drainEnd.isSome) = false)
    (htile : d.tileFree o = true) (hload : o.loadsFirst = true → d.loadAllowed o = true)
    (hmma : o.opcode = 0x40 → (o.pos = 0 → d.weightsOk o = true) ∧ (o.shape.m.init = true ∨ d.poisonedTile o = false)) :
    d.mmaStart c a u = d.startMma o := by
  have hweights : (o.opcode == 0x40 && decide (o.pos = 0) && !d.weightsOk o) = false := by
    by_cases hop : o.opcode = 0x40
    · by_cases hpos : o.pos = 0
      · simp [(hmma hop).1 hpos]
      · simp [hpos]
    · rw [beq_false_of_ne hop]; rfl
  have hloads : (!d.tileFree o || (o.loadsFirst && !d.loadAllowed o)) = false := by
    cases hl : o.loadsFirst
    · simp [htile]
    · simp [htile, hload hl]
  have hpoison : (o.opcode == 0x40 && !o.shape.m.init && d.poisonedTile o) = false := by
    by_cases hop : o.opcode = 0x40
    · rcases (hmma hop).2 with h | h <;> simp [h]
    · rw [beq_false_of_ne hop]; rfl
  have hfirst : (!d.atHeads o || !d.feedersFree o || o.halves.any fun v => (d.half c a v).drainEnd.isSome) = false := by
    rw [hheads, hfeeders, hdrain]; rfl
  unfold Dev.mmaStart
  simp only [hhead]
  rw [hfirst, hweights, hloads, hpoison]
  rfl

theorem startMma_byte (d : Dev) (o : Op) (b : Nat) : (d.startMma o).byte b = d.byte b := startOp_byte d o 0 b

/-! Halves of an operation, updated in turn. -/

section
variable {c : CoreId} {a : ArrayId} {f : Half → Half} {v : HalfId} {P : Half → Prop}

theorem foldl_cores {α : Type} {g : Dev → α → Dev} (hg : ∀ d x, ∃ cs, g d x = { d with cores := cs }) (l : List α) (d : Dev) :
    ∃ cs, l.foldl g d = { d with cores := cs } :=
  List.foldlRecOn (motive := fun e => ∃ cs, e = { d with cores := cs }) l g ⟨d.cores, rfl⟩ fun e ⟨cs, he⟩ x _ => by
    obtain ⟨cs', hcs'⟩ := hg e x
    exact ⟨cs', by rw [hcs', he]⟩

theorem foldl_updHalf_cores (l : List HalfId) (d : Dev) :
    ∃ cs, l.foldl (fun (d : Dev) u => d.updHalf c a u f) d = { d with cores := cs } :=
  foldl_cores (fun d u => ⟨(d.updHalf c a u f).cores, rfl⟩) l d

/-- What the update keeps of a half. -/
theorem half_foldl_updHalf (hf : ∀ h, P h → P (f h)) (l : List HalfId) {d : Dev} (hv : P (d.half c a v)) :
    P ((l.foldl (fun (d : Dev) u => d.updHalf c a u f) d).half c a v) :=
  List.foldlRecOn (motive := fun e => P (e.half c a v)) l _ hv fun (e : Dev) he u _ => by
    rw [half_updHalf]
    split
    · rename_i h
      exact hf _ (h.2.2 ▸ he)
    · exact he

/-- What the update brings about in a half. -/
theorem half_foldl_updHalf_mem (hf : ∀ h, P (f h)) {l : List HalfId} {d : Dev} (hv : v ∈ l) :
    P ((l.foldl (fun (d : Dev) u => d.updHalf c a u f) d).half c a v) := by
  induction l generalizing d with
  | nil => exact absurd hv (List.not_mem_nil)
  | cons u t ih =>
    rcases List.mem_cons.mp hv with rfl | hv
    · rw [List.foldl_cons]
      refine half_foldl_updHalf (P := P) (fun h _ => hf h) t ?_
      rw [half_updHalf_same]
      exact hf _
    · exact ih hv

end

/-! Loads. -/

/-- The operations whose preload the load of `o` overwrites are closed (R75). -/
def Op.overwrites (o : Op) (c : CoreId) (a : ArrayId) (x : Op) : Bool :=
  x.opcode == 0x41 && x.id != o.id && x.phase == .started && x.ecore == c && x.earray == a && o.halves.any fun v => x.usesHalf v

/-- The device once the load of `o` has taken the shadow registers of its halves. -/
def Dev.takeShadow (d : Dev) (c : CoreId) (a : ArrayId) (o : Op) : Dev :=
  o.halves.foldl (fun (d : Dev) v => d.updHalf c a v fun h => { h with preloaded := false })
    { d with ops := d.ops.map fun x => if o.overwrites c a x then { x with closed := true } else x }

theorem takeShadow_eq (d : Dev) (c : CoreId) (a : ArrayId) (o : Op) : ∃ cs, d.takeShadow c a o = { d with
    cores := cs, ops := d.ops.map fun x => if o.overwrites c a x then { x with closed := true } else x } :=
  foldl_updHalf_cores o.halves _

theorem weightLoadStart_eq {c : CoreId} {a : ArrayId} {u : HalfId} (hnext : d.loadNext c a u = some o)
    (hallowed : d.loadAllowed o = true) (hzk : d.zkBad o o.shape = false) : d.weightLoadStart c a u =
      (d.takeShadow c a o).updOp o.id fun x => { x with
        loaded := true, loadAt := d.cycle, rows := some 0, tok := false
        due := if o.opcode == 0x41 then d.cycle + o.shape.h * o.shape.beat - 1 else x.due } := by
  obtain ⟨cs, hcs⟩ := takeShadow_eq d c a o
  have hcycle : (d.takeShadow c a o).cycle = d.cycle := by rw [hcs]
  rw [← hcycle]
  unfold Dev.weightLoadStart
  simp only [hnext, hallowed, hzk, Bool.not_true, Bool.false_eq_true, if_false]
  rfl

theorem takeShadow_updOp_op? {c : CoreId} {a : ArrayId} {f : Op → Op} (hf : ∀ x, (f x).id = x.id) {y : Op} (h : d.op? o.id = some y) :
    ∃ z, ((d.takeShadow c a o).updOp o.id f).op? o.id = some (f z) := by
  obtain ⟨cs, hcs⟩ := takeShadow_eq d c a o
  rw [op?_updOp hf, op?_of_map (congrArg Dev.ops hcs) fun x => by split <;> rfl, h]
  exact ⟨_, rfl⟩

/-- Every other preload of the halves that the load uses is closed. -/
theorem takeShadow_closed {c : CoreId} {a : ArrayId} {x : Op} (hx : x ∈ (d.takeShadow c a o).ops) (hover : o.overwrites c a x = true) :
    x.closed = true := by
  obtain ⟨cs, hcs⟩ := takeShadow_eq d c a o
  rw [hcs] at hx
  obtain ⟨y, -, hy⟩ := List.mem_map.mp hx
  by_cases hc : o.overwrites c a y = true
  · rw [if_pos hc] at hy
    rw [← hy]
  · rw [if_neg hc] at hy
    exact absurd (hy ▸ hover) hc

/-! What a read notes of ECC errors. -/

/-- `e` differs from `d` in registers, notes of the cycle and events alone. -/
def Dev.NotedBy (d e : Dev) : Prop := ∃ rg nw rc, e = { d with regs := rg, now := nw, aoc := { d.aoc with rcd := rc } }

theorem Dev.NotedBy.refl (d : Dev) : d.NotedBy d := ⟨d.regs, d.now, d.aoc.rcd, rfl⟩

theorem Dev.NotedBy.trans {d e f : Dev} (h : d.NotedBy e) (g : e.NotedBy f) : d.NotedBy f := by
  obtain ⟨rg, nw, rc, rfl⟩ := h
  obtain ⟨rg', nw', rc', rfl⟩ := g
  exact ⟨rg', nw', rc', rfl⟩

theorem notedBy_hwSet (d : Dev) (a : Nat) (bits posMask pos : Word) : d.NotedBy (d.hwSet a bits posMask pos) := ⟨_, _, d.aoc.rcd, rfl⟩
theorem notedBy_hwInc (d : Dev) (a lo len n : Nat) : d.NotedBy (d.hwInc a lo len n) := ⟨_, _, d.aoc.rcd, rfl⟩
theorem notedBy_event (d : Dev) (code sev : Nat) (bs : List Byte) : d.NotedBy (d.event code sev bs) := ⟨d.regs, d.now, _, rfl⟩

/-- A fold whose every step notes no more than that. -/
theorem notedBy_foldl {α β : Type} {f : Dev × β → α → Dev × β} (hf : ∀ (s : Dev × β) x, s.1.NotedBy (f s x).1) (l : List α)
    (s : Dev × β) : s.1.NotedBy (l.foldl f s).1 :=
  List.foldlRecOn (motive := fun r => s.1.NotedBy r.1) l f (.refl _) fun r hr x _ => hr.trans (hf r x)

theorem notedBy_eccRead (d : Dev) (a n : Nat) : d.NotedBy (d.eccRead a n).1 := by
  refine notedBy_foldl (fun s e => ?_) _ (d, none)
  dsimp only
  split
  · split
    · refine Dev.NotedBy.trans ?_ (notedBy_event ..)
      exact notedBy_hwSet ..
    · exact notedBy_hwInc ..
  · split
    · refine Dev.NotedBy.trans ?_ (notedBy_event ..)
      exact notedBy_hwSet ..
    · exact notedBy_hwInc ..
  · exact .refl _

theorem notedBy_scan (d : Dev) (rs : List (Nat × Nat)) : d.NotedBy (d.scan rs).1 := by
  unfold Dev.scan
  split
  · exact .refl d
  · refine notedBy_foldl (fun s r => ?_) rs (d, none)
    exact notedBy_eccRead ..

/-! The slots of a pass. -/

/-- `e` differs from `d` in its cores and slots, and in what its operations note of tokens and preloads, alone. -/
structure Dev.TokenTo (d e : Dev) : Prop where
  cycle : e.cycle = d.cycle
  aoc : e.aoc = d.aoc
  op? : ∀ i y, d.op? i = some y → ∃ t k, e.op? i = some { y with tok := t, closed := k }

theorem Dev.TokenTo.of_cores {d e : Dev} (h : ∃ cs, e = { d with cores := cs }) : d.TokenTo e := by
  obtain ⟨cs, rfl⟩ := h
  exact ⟨rfl, rfl, fun i y hy => ⟨y.tok, y.closed, hy⟩⟩

theorem Dev.TokenTo.trans {d e f : Dev} (h : d.TokenTo e) (g : e.TokenTo f) : d.TokenTo f := by
  refine ⟨g.cycle.trans h.cycle, g.aoc.trans h.aoc, fun i y hy => ?_⟩
  obtain ⟨t, k, he⟩ := h.op? i y hy
  obtain ⟨t', k', hf⟩ := g.op? i _ he
  exact ⟨t', k', hf⟩

theorem tokenTo_switchWeights (d : Dev) (o : Op) (s : MmaShape) : d.TokenTo (d.switchWeights o s) := by
  unfold Dev.switchWeights
  dsimp only
  refine Dev.TokenTo.trans ?_ (.of_cores (foldl_cores (fun d u => ⟨_, rfl⟩) _ _))
  refine ⟨rfl, rfl, fun i y hy => ?_⟩
  rw [op?_of_map (d := d) rfl fun x => by split <;> rfl, hy, Option.map_some]
  split
  · exact ⟨_, _, rfl⟩
  · exact ⟨y.tok, y.closed, rfl⟩

theorem half_foldl_updTile {c : CoreId} {a : ArrayId} {f : Tile → Tile} (d : Dev) (l : List TileId) (v : HalfId) :
    (l.foldl (fun (d : Dev) t => d.updTile c a t f) d).half c a v = d.half c a v := by
  refine List.foldlRecOn (motive := fun e => e.half c a v = d.half c a v) l _ rfl fun (e : Dev) he t _ => ?_
  exact (half_updArr (f := fun x => { x with tiles := vmap x.tiles t f }) e c c a a v fun _ => rfl).trans he

/-- The token of a pass: the operation is one pass on, and its halves take its beat (R71). -/
theorem passToken_eq (d : Dev) (o : Op) : ∃ e, d.TokenTo e ∧ (∀ v ∈ o.halves, (e.half o.ecore o.earray v).beat = o.shape.beat) ∧
    d.passToken o = e.updOp o.id fun x => { x with pos := x.pos + 1, loaded := false, due := 0 } := by
  unfold Dev.passToken
  dsimp only
  refine ⟨_, ?_, fun v hv => ?_, rfl⟩
  · have htoken : d.TokenTo (if o.switches then d.switchWeights o o.shape else o.halves.foldl (fun (d : Dev) u =>
        d.updHalf o.ecore o.earray u fun h => { h with swapAt := if h.beat = o.shape.beat then h.swapAt else none }) d) := by
      split
      · exact tokenTo_switchWeights d o o.shape
      · exact .of_cores (foldl_updHalf_cores ..)
    have hbeat := htoken.trans (.of_cores (foldl_updHalf_cores (c := o.ecore) (a := o.earray)
      (f := fun h => { h with beat := o.shape.beat }) o.halves _))
    split
    · exact hbeat.trans (.of_cores (foldl_cores (fun d t => ⟨_, rfl⟩) _ _))
    · exact hbeat
  · have hbeat := fun e => half_foldl_updHalf_mem (c := o.ecore) (a := o.earray) (P := fun h => h.beat = o.shape.beat)
      (f := fun h => { h with beat := o.shape.beat }) (d := e) (fun _ => rfl) hv
    split
    · rw [half_foldl_updTile]
      exact hbeat _
    · exact hbeat _

/-- What a slot that the account cannot pay leaves: it is tried a beat later (R78, R334; log 25). -/
theorem feedSlot_held (d : Dev) (o : Op) (m : Nat) (hcost : d.aoc.gov.units.get (dieOf o.ecore) < o.shape.cost) :
    ∃ rg nw, d.feedSlot o m = ({ d with regs := rg, now := nw } : Dev).updOp o.id fun x => { x with feed := some (m, d.cycle + o.shape.beat) } := by
  obtain ⟨rg, nw, h⟩ := count_eq d (aCnt o.ecore 0) (18 + 4 * o.earray.val) 1
  obtain ⟨rg', nw', h'⟩ := count_eq (d.cnt o.ecore (18 + 4 * o.earray.val) 1) (aCnt o.ecore 0) (19 + 4 * o.earray.val) 1
  refine ⟨rg', nw', ?_⟩
  unfold Dev.feedSlot
  dsimp only
  rw [if_pos hcost]
  show (Dev.count _ _ _ _).updOp _ _ = _
  rw [h', Dev.cnt, h]

/-- The account of the operation's die pays for a slot (R334). -/
def Dev.paySlot (d : Dev) (o : Op) : Dev :=
  d.updAoc fun x => { x with gov := { x.gov with units := vmap x.gov.units (dieOf o.ecore) fun n => n - o.shape.cost } }

/-- The cells of the operation's halves hold a slot until cycle `stop` (R65). -/
def Dev.occupy (d : Dev) (o : Op) (stop : Nat) : Dev :=
  o.halves.foldl (fun (d : Dev) u => d.updHalf o.ecore o.earray u fun h => { h with emptyAt := max h.emptyAt stop }) d

theorem occupy_eq (d : Dev) (o : Op) (stop : Nat) : ∃ cs, d.occupy o stop = { d with cores := cs } := foldl_updHalf_cores o.halves d

theorem occupy_beat (d : Dev) (o : Op) (stop : Nat) (v : HalfId) :
    ((d.occupy o stop).half o.ecore o.earray v).beat = (d.half o.ecore o.earray v).beat :=
  half_foldl_updHalf (P := fun h => h.beat = (d.half o.ecore o.earray v).beat) (f := fun h => { h with emptyAt := max h.emptyAt stop })
    (fun _ => id) o.halves rfl

/-- The first slot of the next pass, as it enters in cycle `now` with activations `act` (R65, R67). -/
def Op.firstSlot (o : Op) (now : Nat) (act : List (Nat × List (Nat × Int))) : Slot :=
  { op := o.id, origin := o.origin, core := o.ecore, array := o.earray, mask := o.halfMask, row := 0, at_ := now, act := act
    base := o.shape.base, beat := o.shape.beat, cols := o.shape.cls.columns * o.shape.m.n, dead := false
    fresh := o.pos == o.base, first := o.pos == 0, last := o.pos + 1 == o.shape.passes, pass := o.pos
    wts := none, flips := 0, acc := [], done := 0 }

/-- A first slot that the account pays, and whose rows meet no error, enters with its token: `p` is the device that has paid, `e` the
one that the token has passed, `f` the one whose halves hold the slot. -/
theorem feedSlot_eq (hcost : o.shape.cost ≤ d.aoc.gov.units.get (dieOf o.ecore)) (hscan : (d.scan (o.aReads o.shape o.pos 0)).2 = none)
    {p e f : Dev} (hp : p = (d.scan (o.aReads o.shape o.pos 0)).1.paySlot o) (he : e = p.passToken o)
    (hf : f = e.occupy o (e.cycle + o.shape.beat * (e.width o.ecore o.earray + o.shape.h) + 6)) : ∃ due : Op → Nat, d.feedSlot o 0 =
      (({ f with slots := f.slots ++ [o.firstSlot e.cycle (p.slotAct o o.shape o.pos 0)] } : Dev).cnt o.ecore
        (17 + 4 * o.earray.val) 1).updOp o.id fun x => { x with
          feed := if 0 + 1 = o.shape.m.m then none else some (1, f.cycle + o.shape.beat), due := due x } := by
  subst hp he hf
  unfold Dev.feedSlot
  dsimp only
  rw [if_neg (Nat.not_lt.mpr hcost)]
  simp only [if_true, hscan]
  exact ⟨_, rfl⟩

/-- What the first slot of a pass does as it enters: to the operation, which was `y`, its halves, the account and the slots (R65, R334). -/
structure Dev.SlotEnters (d e : Dev) (o y : Op) : Prop where
  op? : ∃ z, e.op? o.id = some z ∧ z.pos = y.pos + 1 ∧ z.loaded = false ∧
    z.feed = if o.shape.m.m = 1 then none else some (1, d.cycle + o.shape.beat)
  beat : ∀ v ∈ o.halves, (e.half o.ecore o.earray v).beat = o.shape.beat
  units : e.aoc.gov.units = vmap d.aoc.gov.units (dieOf o.ecore) fun n => n - o.shape.cost
  slot : ∃ l ∈ e.slots, l.op = o.id ∧ l.row = 0 ∧ l.pass = o.pos ∧ l.at_ = d.cycle

theorem feedSlot_enters {y : Op} (hy : d.op? o.id = some y) (hcost : o.shape.cost ≤ d.aoc.gov.units.get (dieOf o.ecore))
    (hscan : (d.scan (o.aReads o.shape o.pos 0)).2 = none) : d.SlotEnters (d.feedSlot o 0) o y := by
  obtain ⟨p, hp⟩ : ∃ p, p = (d.scan (o.aReads o.shape o.pos 0)).1.paySlot o := ⟨_, rfl⟩
  obtain ⟨e, he⟩ : ∃ e, e = p.passToken o := ⟨_, rfl⟩
  obtain ⟨f, hf⟩ : ∃ f, f = e.occupy o (e.cycle + o.shape.beat * (e.width o.ecore o.earray + o.shape.h) + 6) := ⟨_, rfl⟩
  obtain ⟨due, hfeed⟩ := feedSlot_eq hcost hscan hp he hf
  obtain ⟨rg, nw, rc, hnoted⟩ := notedBy_scan d (o.aReads o.shape o.pos 0)
  obtain ⟨q, htoken, hbeat, hpass⟩ := passToken_eq p o
  obtain ⟨cs, hcs⟩ := occupy_eq e o (e.cycle + o.shape.beat * (e.width o.ecore o.earray + o.shape.h) + 6)
  rw [← hf] at hcs
  rw [← he] at hpass
  obtain ⟨rg', nw', hcount⟩ := count_eq { f with slots := f.slots ++ [o.firstSlot e.cycle (p.slotAct o o.shape o.pos 0)] }
    (aCnt o.ecore 0) (17 + 4 * o.earray.val) 1
  have hpy : p.op? o.id = some y := by rw [hp, hnoted]; exact hy
  have hpcycle : p.cycle = d.cycle := by rw [hp, hnoted]; rfl
  have hecycle : e.cycle = d.cycle := by rw [hpass, ← hpcycle]; exact htoken.cycle
  have hfcycle : f.cycle = d.cycle := by rw [hcs]; exact hecycle
  obtain ⟨t, k, hq⟩ := htoken.op? o.id y hpy
  have hfop : f.op? o.id = some { y with tok := t, closed := k, pos := y.pos + 1, loaded := false, due := 0 } := by
    have hfe : f.op? o.id = e.op? o.id := by rw [hcs]; rfl
    rw [hfe, hpass, op?_updOp (by intro; rfl), hq]; rfl
  rw [hfeed, Dev.cnt, hcount]
  refine ⟨?_, fun v hv => ?_, ?_, ?_⟩
  · refine ⟨_, (op?_updOp (by intro; rfl)).trans (congrArg (Option.map _) hfop), rfl, rfl, ?_⟩
    simp only [hfcycle, Nat.zero_add, eq_comm]
  · rw [← hbeat v hv]
    show (f.half o.ecore o.earray v).beat = _
    rw [hf, occupy_beat, hpass]; rfl
  · show f.aoc.gov.units = _
    rw [hcs, hpass]
    show q.aoc.gov.units = _
    rw [htoken.aoc, hp, hnoted]; rfl
  · exact ⟨_, List.mem_append_right _ (List.mem_singleton_self _), rfl, rfl, rfl, hecycle⟩

/-! The starts, as commands. -/

theorem passStart_eq {c : CoreId} {a : ArrayId} {u : HalfId} (hnext : d.passNext c a u = some o) (hallowed : d.slotAllowed o = true)
    (hpause : ((d.last o.last).pausing.any fun p => decide (p.began < d.cycle)) = false) :
    d.passStart c a u = d.updOp o.id fun x => { x with feed := some (0, d.cycle), slot0 := some (x.slot0.getD d.cycle) } := by
  simp [Dev.passStart, hnext, hallowed, hpause]

theorem finishStart_eq {c : CoreId} {a : ArrayId} (hhead : d.head c (.fin a) = some o)
    (hfree : (d.ops.any fun x => x.opcode == 0x42 && x.phase == .started && x.ecore == c && x.earray == a) = false)
    (htile : d.tileFree o = true) (hpoison : d.poisonedTile o = false) : ∃ n, d.finishStart c a = d.startOp o n := by
  unfold Dev.finishStart
  simp only [hhead]
  rw [hfree, htile, hpoison]
  exact ⟨_, rfl⟩

theorem slicePortStart_eq {c : CoreId} (hhead : d.head c .slice = some o) (hfree : d.running c [0x43, 0x44] = none)
    (htile : d.tileFree o = true) (hlift : o.opcode = 0x44 ∨ ((d.tile c o.earray (o.tiles.headD 0)).cls ≠ 0 ∧
      (d.tile c o.earray (o.tiles.headD 0)).poisoned = false)) : ∃ n, d.slicePortStart c = d.startOp o n := by
  unfold Dev.slicePortStart
  simp only [hhead, hfree, htile]
  rw [if_neg (by simp)]
  by_cases hreload : o.opcode = 0x44
  · exact ⟨127, if_pos (beq_iff_eq.mpr hreload)⟩
  · obtain ⟨hcls, hpoison⟩ := hlift.resolve_left hreload
    exact ⟨129, by rw [if_neg (mt beq_iff_eq.mp hreload), if_neg hcls, if_neg (by rw [hpoison]; decide)]⟩

/-- The operation started, and no byte of memory changed. -/
theorem startOp_runs (n : Nat) (hmem : o ∈ d.ops) : (∀ b, (d.startOp o n).byte b = d.byte b) ∧
    ((d.startOp o n).opNow o).phase = .started ∧ ((d.startOp o n).opNow o).began = d.cycle := by
  obtain ⟨y, hy⟩ := op?_of_mem hmem
  obtain ⟨z, hz, hphase, hbegan⟩ := startOp_op? n hy
  rw [opNow_of_op? hz]
  exact ⟨startOp_byte d o n, hphase, hbegan⟩

theorem startMma_runs (hmem : o ∈ d.ops) : (∀ b, (d.startMma o).byte b = d.byte b) ∧
    ((d.startMma o).opNow o).phase = .started ∧ ((d.startMma o).opNow o).began = d.cycle := by
  obtain ⟨y, hy⟩ := op?_of_mem hmem
  obtain ⟨z, hz, hphase, hbegan⟩ := startMma_op? hy
  rw [opNow_of_op? hz]
  exact ⟨startMma_byte d o, hphase, hbegan⟩

end

/-- A command that leaves device `d` has what holds of it. -/
theorem yields_of_dev {i : Instr} {s : State} {e d : Dev} {P : State → Prop} (hexec : exec i s = .next { s with dev := e }) (hd : e = d)
    (hP : P { s with dev := d }) : Yields i s P := ⟨_, hd ▸ hexec, hP⟩

/-- The load of `o` began, and took the shadow registers of its halves (R72, R75). -/
theorem weightLoadStart_loads {d : Dev} {c : CoreId} {a : ArrayId} {u : HalfId} {o : Op} (hnext : d.loadNext c a u = some o)
    (hallowed : d.loadAllowed o = true) (hzk : d.zkBad o o.shape = false) : ∃ e, d.weightLoadStart c a u = e ∧
      (∀ b, e.byte b = d.byte b) ∧ (e.opNow o).loaded = true ∧ (e.opNow o).loadAt = d.cycle ∧ (e.opNow o).rows = some 0 ∧
      (∀ v ∈ o.halves, (e.half c a v).preloaded = false) ∧
      ∀ x ∈ e.ops, x.opcode = 0x41 → x.id ≠ o.id → x.phase = .started → x.ecore = c → x.earray = a →
        (o.halves.any fun v => x.usesHalf v) = true → x.closed = true := by
  obtain ⟨y, hy⟩ := op?_of_mem (mem_of_find_arrOps hnext)
  obtain ⟨cs, hcs⟩ := takeShadow_eq d c a o
  obtain ⟨z, hz⟩ := takeShadow_updOp_op? (c := c) (a := a) (f := fun x => { x with
    loaded := true, loadAt := d.cycle, rows := some 0, tok := false
    due := if o.opcode == 0x41 then d.cycle + o.shape.h * o.shape.beat - 1 else x.due }) (fun _ => rfl) hy
  refine ⟨_, weightLoadStart_eq hnext hallowed hzk, fun b => ?_, ?_, ?_, ?_, fun v hv => ?_, fun x hx hop hid hph hc ha hu => ?_⟩
  · rw [hcs]; rfl
  · rw [opNow_of_op? hz]
  · rw [opNow_of_op? hz]
  · rw [opNow_of_op? hz]
  · exact half_foldl_updHalf_mem (P := fun h => h.preloaded = false) (f := fun h => { h with preloaded := false }) (fun _ => rfl) hv
  · rcases mem_updFirst hx with hx | ⟨w, hw, rfl⟩
    · exact takeShadow_closed hx (by simp [Op.overwrites, hop, hid, hph, hc, ha, hu])
    · exact absurd (beq_iff_eq.mp hw) hid

/-- Settles O34: each start is its own branch of the model, and numbers may repeat among the operations, since an update and a reading both
take the first. -/
theorem arrayOperationsStart : Obligations.ArrayOperationsStart := by
  unfold Obligations.ArrayOperationsStart
  intro s c a u o
  dsimp only
  refine ⟨fun hhead hheads hfeeders hdrain htile hload hmma => ?_, fun hnext hallowed hzk => ?_, fun hnext hallowed hpause => ?_,
    fun hmem hc ha => ?_, fun hhead hfree htile hpoison => ?_, fun hhead hfree htile hlift => ?_⟩
  · exact yields_of_dev rfl (mmaStart_eq hhead hheads hfeeders hdrain htile hload hmma) (startMma_runs (mem_of_head hhead))
  · obtain ⟨e, he, hloads⟩ := weightLoadStart_loads hnext hallowed hzk
    exact yields_of_dev rfl he hloads
  · obtain ⟨y, hy⟩ := op?_of_mem (mem_of_find_arrOps hnext)
    refine yields_of_dev rfl (passStart_eq hnext hallowed hpause) ⟨fun b => rfl, ?_, ?_, rfl, rfl⟩
    · rw [opNow_updOp hy (by intro; rfl)]
    · rw [opNow_updOp hy (by intro; rfl), opNow_of_op? hy]
  · subst hc ha
    obtain ⟨y, hy⟩ := op?_of_mem hmem
    refine ⟨fun hcost hscan => ?_, fun hcost => ?_⟩
    · obtain ⟨⟨z, hz, hpos, hloaded, hfeed⟩, hbeat, hunits, hslot⟩ := feedSlot_enters hy hcost hscan
      rw [opNow_of_op? hz, opNow_of_op? hy, hunits, vmap_get_same]
      exact ⟨hpos, hloaded, hfeed, hbeat, rfl, hslot⟩
    · obtain ⟨rg, nw, hheld⟩ := feedSlot_held s.dev o 0 hcost
      have hkept : ({ s.dev with regs := rg, now := nw } : Dev).op? o.id = some y := hy
      rw [hheld, opNow_updOp hkept (by intro; rfl), opNow_of_op? hy]
      exact ⟨rfl, rfl, rfl, rfl⟩
  · obtain ⟨n, hn⟩ := finishStart_eq hhead hfree htile hpoison
    exact yields_of_dev rfl hn (startOp_runs n (mem_of_head hhead))
  · obtain ⟨n, hn⟩ := slicePortStart_eq hhead hfree htile hlift
    exact yields_of_dev rfl hn (startOp_runs n (mem_of_head hhead))

end Sys2Proof.Machine
end

section
/-!
PROOFS. A LIFT whose results on their way count in a register that is no counter: FMT_FLAGS of the core that issued it.
-/

namespace Sys2Proof.Machine

/-- A LIFT of core 1, run by core 0, that has read every entry of its tile. -/
def countingLift : Op where
  id := 0
  core := 1
  strand := 0
  last := 0
  pc := 0
  opcode := 0x43
  w := 0
  ecore := 0
  earray := 0
  tiles := [0]
  desc := []
  ta := []
  tb := []
  stock := 0
  draw := 0
  bank := false
  phase := .started
  began := 0
  due := 0
  pos := 4096
  base := 0
  stop := none
  loaded := false
  loadAt := 0
  rows := none
  tok := false
  feed := none
  slot0 := none
  closed := false
  noCls := false
  flags := 0
  group := none
  part := []

/-- Its results: nothing to write and no flag, and one to count in "counter" 81 920 of core 0, ten pages on. -/
def countingWr : Wr where
  due := 0
  op := 0
  core := 0
  writes := []
  fl := 0
  slot := none
  g := MaxAbs.zero
  bed := none
  sp := []
  cnt := 0xA0000 / 8
  n := 1

def countingDev : Dev := { Dev.init with ops := [countingLift], wrs := [countingWr] }

/-- That "counter" stands at the address of FMT_FLAGS of strand 0 of core 1. -/
theorem countingWr_address : aCnt 0 (8 * countingWr.cnt) = aFlags 1 0 := by decide

theorem countingDev_lands : (⟨countingDev, []⟩ : State).Lands countingLift := by
  refine ⟨fun w hw _ x hx => ?_, fun e he => absurd he List.not_mem_nil⟩
  obtain rfl := List.mem_singleton.mp hw
  exact absurd hx List.not_mem_nil

theorem countingDev_flags : countingDev.reg (aFlags 1 0) = 0 := by decide +kernel

/-- The completion counts in the flags. -/
theorem countingDev_liftComplete_flags : (countingDev.liftComplete 0).reg (aFlags 1 0) = 1 := by decide +kernel

/-- Refutes O35: a LIFT raises no flag, but its completion leaves 1 in FMT_FLAGS of its strand where its results count in a register
outside the page of counters. The statement speaks of every state, and so of this one; that a run from reset meets such results is not
claimed (FINISH counts in 33 + 2a, LIFT in 61: Table 14.4). -/
theorem not_arrayOperationsComplete : ¬ Obligations.ArrayOperationsComplete := by
  unfold Obligations.ArrayOperationsComplete
  intro h
  obtain ⟨-, -, -, hlift, -⟩ := h ⟨countingDev, []⟩ 0 0 0 countingLift rfl rfl (Nat.le_refl 0)
  have hwrs : ∀ w ∈ countingDev.wrs, w.op = countingLift.id → w.due ≤ countingDev.cycle := by decide
  obtain ⟨t, ht, hends⟩ := hlift rfl ⟨countingDev_lands, rfl, rfl, hwrs⟩
  obtain rfl := Host.Outcome.next.inj ht
  have hflags := hends.flags
  have hleft : (countingDev.liftComplete 0).reg (aFlags 1 0) = countingDev.reg (aFlags 1 0) ||| 0 := hflags
  rw [countingDev_liftComplete_flags, countingDev_flags] at hleft
  exact absurd hleft (by decide)

end Sys2Proof.Machine
end

section
/-!
PROOFS. The start of the engines' operations, the passage of a PLOAD into the reload port and the start of its writes (R112, R133, R135,
R136).
-/

namespace Sys2Proof.Machine

section
variable {d : Dev} {c : CoreId} {o : Op}

/-- What the start of an operation makes of it: its steal group alone depends on the others. -/
theorem startOp_opNow {y : Op} (n : Nat) (h : d.op? o.id = some y) : ∃ g, (d.startOp o n).opNow o =
    { y with phase := .started, began := d.cycle, due := d.cycle + n, base := y.pos, group := g } := by
  have hstarted := op?_updOp (d := d.noteLeft [o]) (i := o.id)
    (f := fun x => { x with phase := .started, began := d.cycle, due := d.cycle + n, base := x.pos }) fun _ => rfl
  rw [show (d.noteLeft [o]).op? o.id = some y from h] at hstarted
  unfold Dev.startOp
  cases o.group with
  | none => exact ⟨y.group, opNow_of_op? hstarted⟩
  | some g =>
    dsimp only
    rw [opNow_of_op? ((op?_of_map rfl fun x => by split <;> rfl).trans (congrArg _ ((op?_congr (updStrand_ops ..)).trans hstarted)))]
    split <;> exact ⟨_, rfl⟩

/-- The operation started for `n` cycles, and no byte of memory changed. -/
theorem startOp_lasts (n : Nat) (hmem : o ∈ d.ops) : (∀ b, (d.startOp o n).byte b = d.byte b) ∧
    ((d.startOp o n).opNow o).phase = .started ∧ ((d.startOp o n).opNow o).began = d.cycle ∧
    ((d.startOp o n).opNow o).due = d.cycle + n := by
  obtain ⟨y, hy⟩ := op?_of_mem hmem
  obtain ⟨g, hg⟩ := startOp_opNow n hy
  rw [hg]
  exact ⟨startOp_byte d o n, rfl, rfl, rfl⟩

theorem engineStart_eq {q : QId} {ops : List Byte} (hhead : d.head c q = some o) (hfree : d.running c ops = none) :
    d.engineStart c q ops = d.startOp o o.lasts := by
  simp [Dev.engineStart, hhead, hfree]

theorem plookStart_eq (hhead : d.head c .pat = some o) (hop : o.opcode = 0x4A) (hfree : d.running c [0x4A] = none)
    (hahead : d.ploadAhead o = false) : d.plookStart c = d.startOp o o.lasts := by
  simp only [Dev.plookStart, hhead, hop, hfree, hahead]
  rfl

theorem ploadPortEntry_eq (hhead : d.head c .pat = some o) (hop : o.opcode = 0x4B) (hport : d.inPort c = none) :
    d.ploadPortEntry c = ((d.noteLeft [o]).updOp o.id fun x => { x with phase := .port, began := d.cycle }).bump
      fun x => x.ecore == c && x.inQueue c .pat := by
  simp only [Dev.ploadPortEntry, hhead, hop, hport]
  rfl

theorem ploadWriteStart_eq (hfind : (d.ops.find? fun x => x.opcode == 0x4B && x.ecore == c && x.phase == .port) = some o)
    (hbegan : o.began ≤ d.cycle) (hbank : d.bankRead o = false) :
    d.ploadWriteStart c = d.updOp o.id fun x => { x with
      phase := .started, began := d.cycle, due := d.cycle + (ceilDiv (vdesc o.desc).pcount 128 - 1) } := by
  unfold Dev.ploadWriteStart
  rw [hfind]
  simp only [hbank, Nat.not_lt.mpr hbegan]
  rfl

/-- An operation that no longer waits in a queue is not put off. -/
theorem bump_op? {y : Op} {i : Nat} {p : Op → Bool} (h : d.op? i = some y) (hy : y.phase ≠ .queued) : (d.bump p).op? i = some y := by
  rw [op?_of_map (d := d) rfl fun x => by split <;> rfl, h, Option.map_some]
  simp [hy]

/-- The PLOAD stands in the reload port. -/
theorem portEntry_opNow (p : Op → Bool) (hmem : o ∈ d.ops) :
    let e := ((d.noteLeft [o]).updOp o.id fun x => { x with phase := .port, began := d.cycle }).bump p
    (e.opNow o).phase = .port ∧ (e.opNow o).began = d.cycle := by
  obtain ⟨y, hy⟩ := op?_of_mem hmem
  have hport := op?_updOp (d := d.noteLeft [o]) (i := o.id) (f := fun x => { x with phase := .port, began := d.cycle }) fun _ => rfl
  rw [show (d.noteLeft [o]).op? o.id = some y from hy] at hport
  dsimp only
  rw [opNow_of_op? (bump_op? hport nofun)]
  exact ⟨rfl, rfl⟩

end

/-- Settles O32: each start is its own branch of the model, and what it makes of the operation is read back by its number. -/
theorem enginesStart : Obligations.EnginesStart := by
  unfold Obligations.EnginesStart
  intro s c o
  dsimp only
  refine ⟨fun hhead hfree => ?_, fun hhead hfree => ?_, fun hhead hfree => ?_, fun hhead hop hfree hahead => ?_,
    fun hhead hop hport => ?_, fun hfind hbegan hbank => ?_⟩
  · exact yields_of_dev rfl (engineStart_eq hhead hfree) (startOp_lasts _ (mem_of_head hhead))
  · exact yields_of_dev rfl (engineStart_eq hhead hfree) (startOp_lasts _ (mem_of_head hhead))
  · exact yields_of_dev rfl (engineStart_eq hhead hfree) (startOp_lasts _ (mem_of_head hhead))
  · exact yields_of_dev rfl (plookStart_eq hhead hop hfree hahead) (startOp_lasts _ (mem_of_head hhead))
  · exact yields_of_dev rfl (ploadPortEntry_eq hhead hop hport) ⟨fun _ => rfl, portEntry_opNow _ (mem_of_head hhead)⟩
  · obtain ⟨y, hy⟩ := op?_of_mem (List.mem_of_find?_eq_some hfind)
    refine yields_of_dev rfl (ploadWriteStart_eq hfind hbegan hbank) ⟨fun _ => rfl, ?_⟩
    rw [opNow_updOp hy (by intro; rfl)]
    exact ⟨rfl, rfl, rfl⟩

end Sys2Proof.Machine
end

section
/-!
PROOFS. The completion of an operation (R37, R38, R149), and what PSWAP and PLOAD make of the pattern banks (R135, R136).
-/

namespace Sys2Proof.Machine

/-! Flags and posts. -/

/-- The bits that hardware sets are added to the register (R393). -/
theorem reg_hwSet_same (d : Dev) (a : Nat) (bits : Word) : (d.hwSet a bits 0 0).reg a = d.reg a ||| bits := by
  have hkept : (if d.reg a &&& bits = 0 then (d.reg a &&& ~~~0) ||| (0 &&& 0) else d.reg a) = d.reg a := by
    split <;> simp [show d.reg a &&& 18446744073709551615#64 = d.reg a from BitVec.and_allOnes]
  show (d.setReg a _).reg a = _
  rw [reg_setReg_same, hkept]

/-- The flags of an engine are added to its set. -/
theorem reg_raiseFlags (d : Dev) (c : CoreId) (k : StrandId) (e : FlagSet) (f : Flags) :
    (d.raiseFlags c k e f).reg (aFlags c k) = d.reg (aFlags c k) ||| BitVec.ofNat 64 (f.toNat * 2 ^ e.pos) := by
  have hnoted : (d.noteFlags (aFlags c k)).reg (aFlags c k) = d.reg (aFlags c k) := by
    unfold Dev.noteFlags
    split <;> rfl
  unfold Dev.raiseFlags
  split
  · next hf => simp [hf]
  · rw [reg_hwSet_same, hnoted]

/-- Raised flags change registers, and what the cycle notes of flags and set bits, alone. -/
theorem raiseFlags_eq (d : Dev) (c : CoreId) (k : StrandId) (e : FlagSet) (f : Flags) : ∃ rg fs ss,
    d.raiseFlags c k e f = { d with regs := rg, now := { d.now with flags := fs, sets := ss } } := by
  unfold Dev.raiseFlags Dev.noteFlags
  split
  · exact ⟨d.regs, d.now.flags, d.now.sets, rfl⟩
  · split <;> exact ⟨_, _, _, rfl⟩

theorem insnWord_setWidth (op : Byte) (w : BitVec 56) : (insnWord op w).setWidth 56 = w := by
  have hop : insnWord op w = mkInsn op.toNat w := by simp [insnWord, mkInsn]
  rw [hop, mkInsn_setWidth]

/-- The increments of the tallies of every core after a post (R149). -/
theorem post_inc (d : Dev) (o : Origin) (x : CoreId) (i : TallyId) : (((d.post o).core x).tallies.get i).inc =
    ((d.core x).tallies.get i).inc ++ if x = o.core ∧ wPen (o.insn.setWidth 56) = true ∧ d.mayPost o.last = true ∧
      wPtal (o.insn.setWidth 56) = i then [(⟨1, some o⟩ : Incr)] else [] := by
  unfold Dev.post
  dsimp only
  by_cases hpost : wPen (o.insn.setWidth 56) = true ∧ d.mayPost o.last = true
  · rw [if_pos (by simp [hpost])]
    simp only [hpost, true_and, Dev.tallyInc, Dev.updTally, core_updCore]
    by_cases hx : x = o.core
    · by_cases hi : wPtal (o.insn.setWidth 56) = i
      · simp [hx, hi]
      · simp [hx, hi, vmap_get_other _ _ (Ne.symm hi)]
    · simp [hx]
  · rw [if_neg (by simpa using hpost), if_neg (by tauto), List.append_nil]

/-- A post leaves the rest of every core. -/
theorem post_core (d : Dev) (o : Origin) (x : CoreId) : ∃ ts, (d.post o).core x = { d.core x with tallies := ts } := by
  unfold Dev.post
  dsimp only
  split
  · simp only [Dev.tallyInc, Dev.updTally, core_updCore]
    split
    · next hx => exact ⟨_, by rw [hx]⟩
    · exact ⟨_, rfl⟩
  · exact ⟨_, rfl⟩

/-! Completions. -/

/-- A completion comes out of `e` as it does out of `d`: operations by number, flags, tallies, memory and who may post are the same. -/
structure Dev.EndsAlike (d e : Dev) : Prop where
  ids : (e.ops.map fun x => x.id) = d.ops.map fun x => x.id
  flags : ∀ c k, e.reg (aFlags c k) = d.reg (aFlags c k)
  mayPost : ∀ l, e.mayPost l = d.mayPost l
  tallies : ∀ c, (e.core c).tallies = (d.core c).tallies
  byte : ∀ b, e.byte b = d.byte b

theorem Dev.EndsAlike.refl (d : Dev) : d.EndsAlike d := ⟨rfl, fun _ _ => rfl, fun _ => rfl, fun _ => rfl, fun _ => rfl⟩

theorem Dev.EndsAlike.trans {d e f : Dev} (h : d.EndsAlike e) (g : e.EndsAlike f) : d.EndsAlike f :=
  ⟨g.ids.trans h.ids, fun c k => (g.flags c k).trans (h.flags c k), fun l => (g.mayPost l).trans (h.mayPost l),
    fun c => (g.tallies c).trans (h.tallies c), fun b => (g.byte b).trans (h.byte b)⟩

theorem endsAlike_updCore (d : Dev) (c : CoreId) {f : Core → Core} (hf : ∀ x, (f x).tallies = x.tallies) : d.EndsAlike (d.updCore c f) := by
  refine ⟨rfl, fun _ _ => rfl, fun _ => rfl, fun x => ?_, fun _ => rfl⟩
  rw [core_updCore]
  split
  · next hx => rw [hf, hx]
  · rfl

/-- Flags do not stand in the first counters of a core's page. -/
theorem aFlags_ne_aCnt (c x : CoreId) (k : StrandId) {i : Nat} (hi : i < 0x2000) : aFlags c k ≠ aCnt x 0 + 8 * i := by
  have hk := k.isLt
  simp only [aFlags, aFmt, aCnt, regAddr, corePage]
  omega

/-- A count in the page of counters (R378). -/
theorem endsAlike_cnt (d : Dev) (c : CoreId) {i : Nat} (n : Nat) (hi : i < 0x2000) : d.EndsAlike (d.cnt c i n) := by
  refine ⟨congrArg _ (count_ops ..), fun x k => reg_count_other d (aFlags_ne_aCnt x c k hi), fun l => ?_,
    fun x => congrArg _ (count_core ..), count_byte d _ i n⟩
  unfold Dev.cnt Dev.count
  split <;> rfl

theorem endsAlike_updOp (d : Dev) (i : Nat) {f : Op → Op} (hf : ∀ x, (f x).id = x.id) : d.EndsAlike (d.updOp i f) := by
  refine ⟨?_, fun _ _ => rfl, fun _ => rfl, fun _ => rfl, fun _ => rfl⟩
  show (updFirst _ f d.ops).map _ = _
  induction d.ops with
  | nil => rfl
  | cons x t ih =>
    unfold updFirst
    split
    · rw [List.map_cons, List.map_cons, hf]
    · rw [List.map_cons, List.map_cons, ih]

/-- Operation `o` of `d` has completed in `e` but for its post. -/
structure Dev.Unposted (d e : Dev) (o : Op) (set : FlagSet) : Prop where
  ids : (e.ops.map fun x => x.id) = (d.ops.map fun x => x.id).filter fun i => i != o.id
  flags : e.reg (aFlags o.core o.strand) = d.reg (aFlags o.core o.strand) ||| BitVec.ofNat 64 (o.flags.toNat * 2 ^ set.pos)
  mayPost : ∀ l, e.mayPost l = d.mayPost l
  cores : e.cores = d.cores
  byte : ∀ b, e.byte b = d.byte b

/-- The others keep their numbers, put off or not. -/
theorem ids_bump_filter (d : Dev) (p : Op → Bool) (i : Nat) :
    (((d.bump p).ops.filter fun x => x.id != i).map fun x => x.id) = (d.ops.map fun x => x.id).filter fun j => j != i := by
  have hbump : ((d.bump p).ops.map fun x => x.id) = d.ops.map fun x => x.id := by
    unfold Dev.bump
    rw [List.map_map]
    exact List.map_congr_left fun x _ => by dsimp only [Function.comp]; split <;> rfl
  rw [← hbump, List.filter_map]
  rfl

/-- An operation that completes leaves the list, is noted where it stood in its queue, and posts. -/
theorem completeOp_eq (d : Dev) (o : Op) : ∃ lf, d.completeOp o =
    ({ d with ops := d.ops.filter fun x => x.id != o.id, now := { d.now with left := lf } } : Dev).post o.origin := by
  unfold Dev.completeOp
  dsimp only
  split
  · exact ⟨_, rfl⟩
  · exact ⟨d.now.left, rfl⟩

/-- An operation that ends raises its flags, leaves the list and posts. -/
theorem endOp_eq (d : Dev) (o : Op) (set : FlagSet) : ∃ e, d.Unposted e o set ∧ d.endOp o set = e.post o.origin := by
  obtain ⟨rg, fs, ss, hraise⟩ := raiseFlags_eq d o.core o.strand set o.flags
  have hreg := reg_raiseFlags d o.core o.strand set o.flags
  have hids := ids_bump_filter d o.behind o.id
  rw [hraise] at hreg
  obtain ⟨lf, hcomplete⟩ := completeOp_eq ((d.raiseFlags o.core o.strand set o.flags).bump o.behind) o
  rw [hraise] at hcomplete
  unfold Dev.endOp
  rw [hraise, hcomplete]
  refine ⟨_, ?_, rfl⟩
  exact ⟨hids, hreg, fun _ => rfl, rfl, fun _ => rfl⟩

/-- What a device from which `o` ends as it would in state `s` comes to. -/
theorem endOp_ends {s : State} {d : Dev} (o : Op) (set : FlagSet) (h : s.dev.EndsAlike d) :
    OpEnds o set o.flags s { s with dev := d.endOp o set } := by
  obtain ⟨e, hunposted, hend⟩ := endOp_eq d o set
  obtain ⟨cs, hpost⟩ := post_eq e o.origin
  refine ⟨rfl, ?_, ?_, fun c i => ?_⟩
  · rw [← h.ids, ← hunposted.ids, hend, hpost]
  · rw [← h.flags, ← hunposted.flags, hend, hpost]
    rfl
  · rw [← h.tallies, ← h.mayPost, ← hunposted.mayPost, show d.core c = e.core c by rw [Dev.core, Dev.core, hunposted.cores], hend]
    have hinc := post_inc e o.origin c i
    rw [show o.origin.insn.setWidth 56 = o.w from insnWord_setWidth ..] at hinc
    exact hinc

theorem endOp_byte (d : Dev) (o : Op) (set : FlagSet) (b : Nat) : (d.endOp o set).byte b = d.byte b := by
  obtain ⟨e, hunposted, hend⟩ := endOp_eq d o set
  obtain ⟨cs, hpost⟩ := post_eq e o.origin
  rw [← hunposted.byte, hend, hpost]
  rfl

/-- An operation that ends changes no more of a core than its tallies. -/
theorem endOp_core (d : Dev) (o : Op) (set : FlagSet) (c : CoreId) : ∃ ts, (d.endOp o set).core c = { d.core c with tallies := ts } := by
  obtain ⟨e, hunposted, hend⟩ := endOp_eq d o set
  rw [hend, show d.core c = e.core c by rw [Dev.core, Dev.core, hunposted.cores]]
  exact post_core e o.origin c

/-! PSWAP. -/

theorem pswapProcess_eq {d : Dev} {c : CoreId} {o : Op} (hhead : d.head c .pat = some o) (hop : o.opcode = 0x4C) :
    d.pswapProcess c = (d.updCore c fun x => { x with patActive := !x.patActive }).endOp o .vec := by
  simp only [Dev.pswapProcess, hhead, hop]
  rfl

theorem pswap_swaps {s : State} {c : CoreId} {o : Op} (hhead : s.dev.head c .pat = some o) (hop : o.opcode = 0x4C) :
    ∃ e, s.dev.pswapProcess c = e ∧ OpEnds o .vec o.flags s { s with dev := e } ∧ (∀ b, e.byte b = s.dev.byte b) ∧
      (e.core c).patActive = !(s.dev.core c).patActive := by
  have halike := endsAlike_updCore s.dev c (f := fun x => { x with patActive := !x.patActive }) fun _ => rfl
  obtain ⟨ts, hcore⟩ := endOp_core (s.dev.updCore c fun x => { x with patActive := !x.patActive }) o .vec c
  refine ⟨_, pswapProcess_eq hhead hop, endOp_ends o .vec halike, fun b => (endOp_byte ..).trans (halike.byte b), ?_⟩
  rw [hcore, core_updCore_same]

/-! PLOAD. -/

/-- Runs of memory read within a run. -/
theorem leAt_rdMem (d : Dev) {a n i k : Nat} (h : i + k ≤ n) : leAt (d.rdMem a n) i k = leNat (d.rdMem (a + i) k) := by
  unfold leAt Dev.rdMem
  congr 1
  refine List.ext_getElem ?_ fun j hj hj' => ?_
  · simp only [List.length_take, List.length_drop, sgetList_length]
    omega
  · rw [List.getElem_take, List.getElem_drop, sgetList_get, sgetList_get, Nat.add_assoc]

theorem bankGet_bankSet (x : Core) (b : Bool) (i j : Nat) (v : BitVec 16) :
    (x.bankSet b i v).bankGet b j = if j = i then v else x.bankGet b j := by
  have hbank : (x.bankSet b i v).bank b = sset (fun _ => 0) (x.bank b) i v := by cases b <;> rfl
  unfold Core.bankGet
  rw [hbank]
  split
  · next hj => rw [hj, sget_sset_same]
  · next hj => rw [sget_sset_other hj]

/-- Elements `f n` for the indices `ns`, written from `first` on. -/
def Core.bankFill (x : Core) (b : Bool) (first : Nat) (f : Nat → BitVec 16) (ns : List Nat) : Core :=
  ns.foldl (fun (x : Core) n => x.bankSet b (first + n) (f n)) x

theorem bankGet_bankFill (x : Core) (b : Bool) (first : Nat) (f : Nat → BitVec 16) (ns : List Nat) (n : Nat) :
    (x.bankFill b first f ns).bankGet b (first + n) = if n ∈ ns then f n else x.bankGet b (first + n) := by
  induction ns generalizing x with
  | nil => simp [Core.bankFill]
  | cons m t ih =>
    rw [show x.bankFill b first f (m :: t) = (x.bankSet b (first + m) (f m)).bankFill b first f t from rfl, ih, bankGet_bankSet]
    by_cases ht : n ∈ t
    · simp [ht]
    · by_cases hm : n = m <;> simp [ht, hm]

/-- A filled bank leaves which one is active, and the tallies. -/
theorem bankFill_rest (x : Core) (b : Bool) (first : Nat) (f : Nat → BitVec 16) (ns : List Nat) :
    (x.bankFill b first f ns).patActive = x.patActive ∧ (x.bankFill b first f ns).tallies = x.tallies :=
  List.foldlRecOn (motive := fun y : Core => y.patActive = x.patActive ∧ y.tallies = x.tallies) ns _ ⟨rfl, rfl⟩ fun y ⟨hact, htal⟩ n _ => by
    cases b <;> exact ⟨hact, htal⟩

/-- The element `n` of the PLOAD `o` (R135). -/
def Dev.pattern (d : Dev) (o : Op) (n : Nat) : BitVec 16 :=
  BitVec.ofNat 16 (leNat (d.rdMem (sliceBase o.core + (vdesc o.desc).aAddr + 2 * n) 2))

/-- The elements that a PLOAD has still to write. -/
def Op.patternsLeft (o : Op) : List Nat := (List.range (vdesc o.desc).pcount).drop o.pos

theorem mem_patternsLeft {o : Op} {n : Nat} : n ∈ o.patternsLeft ↔ o.pos ≤ n ∧ n < (vdesc o.desc).pcount := by
  simp only [Op.patternsLeft, List.mem_iff_getElem, List.length_drop, List.length_range, List.getElem_drop, List.getElem_range]
  constructor
  · rintro ⟨i, hi, rfl⟩
    omega
  · rintro ⟨hlo, hhi⟩
    exact ⟨n - o.pos, by omega, by omega⟩

/-- The bank of a PLOAD takes all that it had still to write, which the cycle notes. -/
def Dev.fillBank (d : Dev) (o : Op) : Dev :=
  { d.updCore o.ecore fun x => x.bankFill o.bank (vdesc o.desc).pfirst (d.pattern o) o.patternsLeft with
    now := { d.now with pats := d.now.pats ++ o.patternsLeft.map fun n => (o.ecore, o.bank, (vdesc o.desc).pfirst + n) } }

theorem scan_of_no_errors {d : Dev} (h : d.ecc = []) (rs : List (Nat × Nat)) : d.scan rs = (d, none) := by
  simp [Dev.scan, h]

/-- The last reads of a PLOAD: its bank is filled, and counter 46 counts the elements (R135). -/
theorem ploadCycle_eq {d : Dev} {o : Op} (hecc : d.ecc = []) (hleft : o.pos < (vdesc o.desc).pcount)
    (hlast : (vdesc o.desc).pcount ≤ 128 * (d.cycle + 1 - o.began)) : d.ploadCycle o =
      ((d.fillBank o).cnt o.ecore 46 o.patternsLeft.length).updOp o.id fun x => { x with pos := (vdesc o.desc).pcount } := by
  have hhi : min (vdesc o.desc).pcount (128 * (d.cycle + 1 - o.began)) = (vdesc o.desc).pcount := Nat.min_eq_left hlast
  have hread : ∀ x : Core, o.patternsLeft.foldl (fun (x : Core) n => x.bankSet o.bank ((vdesc o.desc).pfirst + n) (BitVec.ofNat 16
      (leAt (d.rdMem (sliceBase o.core + (vdesc o.desc).aAddr + 2 * o.pos) (2 * ((vdesc o.desc).pcount - o.pos))) (2 * (n - o.pos)) 2))) x =
        x.bankFill o.bank (vdesc o.desc).pfirst (d.pattern o) o.patternsLeft := by
    refine fun x => List.foldl_ext _ _ _ fun y n hn => ?_
    obtain ⟨hlo, hn⟩ := mem_patternsLeft.mp hn
    have hat : sliceBase o.core + (vdesc o.desc).aAddr + 2 * o.pos + 2 * (n - o.pos) = sliceBase o.core + (vdesc o.desc).aAddr + 2 * n := by
      omega
    rw [leAt_rdMem d (by omega), hat, Dev.pattern]
  unfold Dev.fillBank
  simp only [← hread]
  unfold Dev.ploadCycle
  simp only [hhi, Nat.not_le.mpr hleft, if_false, scan_of_no_errors hecc]
  rfl

/-- The PLOAD `o` of `d` has read in `e` all that it had still to read. -/
structure Dev.PloadRead (d e : Dev) (o : Op) : Prop extends d.EndsAlike e where
  op? : e.op? o.id = some { o with pos := (vdesc o.desc).pcount }
  active : (e.core o.ecore).patActive = (d.core o.ecore).patActive
  bank : ∀ n, o.pos ≤ n → n < (vdesc o.desc).pcount → (e.core o.ecore).bankGet o.bank ((vdesc o.desc).pfirst + n) = d.pattern o n

theorem endsAlike_fillBank (d : Dev) (o : Op) : d.EndsAlike (d.fillBank o) := by
  obtain ⟨hids, hflags, hpost, htallies, hbyte⟩ := endsAlike_updCore d o.ecore
    (f := fun x => x.bankFill o.bank (vdesc o.desc).pfirst (d.pattern o) o.patternsLeft) fun x => (bankFill_rest ..).2
  exact ⟨hids, hflags, hpost, htallies, hbyte⟩

theorem ploadCycle_reads {d : Dev} {o : Op} (hecc : d.ecc = []) (hnow : d.op? o.id = some o) (hpos : o.pos ≤ (vdesc o.desc).pcount)
    (hlast : (vdesc o.desc).pcount ≤ 128 * (d.cycle + 1 - o.began)) : d.PloadRead (d.ploadCycle o) o := by
  rcases Nat.lt_or_eq_of_le hpos with hleft | hdone
  · have hcount := endsAlike_cnt (d.fillBank o) o.ecore o.patternsLeft.length (i := 46) (by decide)
    have hcore : ((d.ploadCycle o).core o.ecore) = (d.core o.ecore).bankFill o.bank (vdesc o.desc).pfirst (d.pattern o) o.patternsLeft := by
      rw [ploadCycle_eq hecc hleft hlast]
      exact (count_core ..).trans (core_updCore_same ..)
    refine ⟨?_, ?_, ?_, fun n hlo hhi => ?_⟩
    · rw [ploadCycle_eq hecc hleft hlast]
      exact ((endsAlike_fillBank d o).trans hcount).trans (endsAlike_updOp _ _ fun _ => rfl)
    · rw [ploadCycle_eq hecc hleft hlast, op?_updOp (by intro; rfl)]
      have hkept : ((d.fillBank o).cnt o.ecore 46 o.patternsLeft.length).ops = d.ops := count_ops (d.fillBank o) ..
      rw [op?_congr hkept, hnow]
      rfl
    · rw [hcore, (bankFill_rest ..).1]
    · rw [hcore, bankGet_bankFill, if_pos (mem_patternsLeft.mpr ⟨hlo, hhi⟩)]
  · have hsame : d.ploadCycle o = d := by
      unfold Dev.ploadCycle
      exact if_pos (by omega)
    rw [hsame]
    exact ⟨.refl d, by rw [hnow, ← hdone], rfl, fun n hlo hhi => by omega⟩

theorem mem_of_running {d : Dev} {c : CoreId} {ops : List Byte} {o : Op} (h : d.running c ops = some o) : o ∈ d.ops ∧ o.ecore = c := by
  have hp := List.find?_some h
  simp only [Bool.and_eq_true, beq_iff_eq] at hp
  exact ⟨List.mem_of_find?_eq_some h, hp.1.2⟩

theorem ploadComplete_eq {d : Dev} {c : CoreId} {o x : Op} (hrun : d.running c [0x4B] = some o) (hdue : o.due ≤ d.cycle)
    (hx : (d.ploadCycle o).op? o.id = some x) (hread : (vdesc o.desc).pcount ≤ x.pos) :
    d.ploadComplete c = (d.ploadCycle o).endOp x .vec := by
  unfold Dev.op? at hx
  unfold Dev.ploadComplete
  rw [hrun]
  simp only [Nat.not_lt.mpr hdue, if_false, hx, Nat.not_lt.mpr hread]

theorem pload_fills {s : State} {c : CoreId} {o : Op} (hecc : s.dev.ecc = []) (hnow : s.dev.opNow o = o)
    (hrun : s.dev.running c [0x4B] = some o) (hdue : o.due ≤ s.dev.cycle) (hpos : o.pos ≤ (vdesc o.desc).pcount)
    (hlast : (vdesc o.desc).pcount ≤ 128 * (s.dev.cycle + 1 - o.began)) :
    ∃ e, s.dev.ploadComplete c = e ∧ OpEnds o .vec o.flags s { s with dev := e } ∧ (∀ b, e.byte b = s.dev.byte b) ∧
      (e.core c).patActive = (s.dev.core c).patActive ∧ ∀ n, o.pos ≤ n → n < (vdesc o.desc).pcount →
        (e.core c).bankGet o.bank ((vdesc o.desc).pfirst + n) = s.dev.pattern o n := by
  obtain ⟨hmem, rfl⟩ := mem_of_running hrun
  obtain ⟨y, hy⟩ := op?_of_mem hmem
  have hyo : s.dev.op? o.id = some o := by rw [hy, ← opNow_of_op? hy, hnow]
  have hread := ploadCycle_reads hecc hyo hpos hlast
  obtain ⟨ts, hcore⟩ := endOp_core (s.dev.ploadCycle o) { o with pos := (vdesc o.desc).pcount } .vec o.ecore
  refine ⟨_, ploadComplete_eq hrun hdue hread.op? (Nat.le_refl _), ?_, fun b => (endOp_byte ..).trans (hread.byte b), ?_, ?_⟩
  · obtain ⟨hpending, hops, hflags, hposts⟩ := endOp_ends { o with pos := (vdesc o.desc).pcount } .vec hread.toEndsAlike
    exact ⟨hpending, hops, hflags, hposts⟩
  · rw [hcore]
    exact hread.active
  · rw [hcore]
    exact hread.bank

/-- Settles O37: a PSWAP and the last reads of a PLOAD leave all that a completion turns on, and a completion leaves the banks. -/
theorem patternBanksChange : Obligations.PatternBanksChange := by
  unfold Obligations.PatternBanksChange
  intro s c o hecc hnow
  refine ⟨fun hhead hop => ?_, fun hrun hdue hpos hlast => ?_⟩
  · obtain ⟨e, he, hswaps⟩ := pswap_swaps hhead hop
    exact yields_of_dev rfl he hswaps
  · obtain ⟨e, he, hends, hfills⟩ := pload_fills hecc hnow hrun hdue hpos hlast
    exact yields_of_dev rfl he ⟨hends, hfills⟩

end Sys2Proof.Machine
end

section
/-!
PROOFS. A VOP whose results on their way count in a register that is no counter: FMT_FLAGS of the core that issued it.
-/

namespace Sys2Proof.Machine

/-- A VOP of core 1 over no element, run by core 0, with the number of the results in `countingDev`. -/
def countingVop : Op := { countingLift with opcode := 0x45, pos := 0 }

def countingVopDev : Dev := { countingDev with ops := [countingVop] }

theorem countingVopDev_lands : (⟨countingVopDev, []⟩ : State).Lands countingVop :=
  ⟨countingDev_lands.whole, fun _ he => absurd he List.not_mem_nil⟩

/-- The completion counts in the flags. -/
theorem countingVopDev_vopComplete_flags : ((countingVopDev.engineComplete 0 0x45 (some 42)).reg (aFlags 1 0)) = 1 := by decide +kernel

/-- Refutes O33: the VOP raises no flag, but its completion leaves 1 in FMT_FLAGS of its strand where its results count in a register
outside the page of counters (`countingWr_address`). The statement speaks of every state, and so of this one; that a run from reset meets
such results is not claimed (the engines count in 41, 43, 45 and 48: Table 14.4). -/
theorem not_enginesComplete : ¬ Obligations.EnginesComplete := by
  unfold Obligations.EnginesComplete
  intro h
  have hwrs : ∀ w ∈ countingVopDev.wrs, w.op = countingVop.id → w.due ≤ countingVopDev.cycle := by decide
  obtain ⟨hvop, -⟩ := h ⟨countingVopDev, []⟩ 0 countingVop countingVopDev_lands rfl (Nat.le_refl 0) rfl rfl hwrs
  obtain ⟨t, ht, hends⟩ := hvop rfl
  obtain rfl := Host.Outcome.next.inj ht
  have hleft : (countingVopDev.engineComplete 0 0x45 (some 42)).reg (aFlags 1 0) = countingVopDev.reg (aFlags 1 0) ||| 0 := hends.flags
  rw [countingVopDev_vopComplete_flags, show countingVopDev.reg (aFlags 1 0) = 0 from countingDev_flags] at hleft
  exact absurd hleft (by decide)

end Sys2Proof.Machine
end

section
/-!
PROOFS. What every command comes to: an effect on the device beside the queue of commands; for an instruction word, an issue of its
strand, which a word that R157 forbids ends in a fault and a strand that is not ready ends in a stall code (R144, R157).
-/

namespace Sys2Proof.Machine

/-- A command's meaning is a change of the device alone. -/
theorem exec_answersNext (i : Instr) (s : State) : ∃ d : Dev, exec i s = .next { s with dev := d } := by
  cases i
  case reservedOpcodeDispatch c k w =>
    show ∃ d, execReservedOpcodeDispatch c k w s = _
    unfold execReservedOpcodeDispatch
    split <;> exact ⟨_, rfl⟩
  all_goals exact ⟨_, rfl⟩

/-- Settles O3: the queue is no part of what a command changes. -/
theorem everyCommandAnswersNext : Obligations.EveryCommandAnswersNext := by
  unfold Obligations.EveryCommandAnswersNext
  intro i s
  obtain ⟨d, hd⟩ := exec_answersNext i s
  exact ⟨_, hd, rfl⟩

/-- The opcode of an instruction is one byte, and the instruction is an issue of its strand. -/
theorem exec_of_insn {i : Instr} {c : CoreId} {k : StrandId} {op : Nat} {w : BitVec 56} (h : i.insn = some (c, k, op, w)) (s : State) :
    op < 256 ∧ ∃ body, exec i s = .next { s with dev := s.dev.issue c k (mkInsn op w) body } := by
  cases i <;> simp only [Instr.insn, Option.some.injEq, Prod.mk.injEq, reduceCtorEq] at h
  all_goals
    obtain ⟨rfl, rfl, rfl, rfl⟩ := h
    exact ⟨by decide, _, rfl⟩

theorem exec_reservedOpcodeDispatch {c : CoreId} {k : StrandId} {w : Word} (h : formOf (w.toNat / 2 ^ 56) = .reserved) (s : State) :
    ∃ body, exec (.reservedOpcodeDispatch c k w) s = .next { s with dev := s.dev.issue c k w body } := by
  show ∃ body, execReservedOpcodeDispatch c k w s = _
  rw [execReservedOpcodeDispatch, if_pos h]
  exact ⟨_, rfl⟩

theorem illegal_of_reserved {op : Nat} {w : BitVec 56} (h : formOf op = .reserved) : illegal op w = true := by
  simp [illegal, badOperands, h]

variable {d : Dev} {c : CoreId} {k : StrandId} {word : Word} {body : Dev → Origin → Disp}

/-- A ready strand whose word R157 forbids faults, and the meaning of the instruction has no part in it (R158). -/
theorem issue_of_illegal (h : d.canIssue c k word = true) (hi : illegal (word.toNat / 2 ^ 56) (word.setWidth 56) = true) :
    ∃ l, d.strandLast c k = some l ∧ d.issue c k word body = d.fault 2 ⟨l, c, k, (d.strand c k).pc, word⟩ 0 := by
  simp only [Dev.canIssue, Bool.and_eq_true, Bool.not_eq_true', beq_iff_eq, bne_iff_ne, Option.isSome_iff_exists] at h
  obtain ⟨⟨⟨⟨⟨⟨⟨⟨l, hl⟩, hon⟩, hrunning⟩, hpc⟩, hfetched⟩, hstall⟩, hdispatch⟩, hturn⟩ := h
  refine ⟨l, hl, ?_⟩
  unfold Dev.issue
  have hdue : ((d.core c).lastDispatch == some d.cycle) = false := beq_false_of_ne hdispatch
  simp only [hl, hon, hrunning, hpc, hfetched, hstall, hdue, hturn, hi, bne_self_eq_false, Bool.not_true, Bool.or_self, Bool.false_eq_true,
    if_false, if_true, ne_eq, not_true_eq_false]

/-- A strand that cannot dispatch its word, and whose PC is no fetch fault, at most shows why (R144, Table 6.18). -/
theorem issue_of_not_canIssue (h : d.canIssue c k word = false) (hpc : badPc c (d.strand c k).pc (d.strand c k).pcWild = false) :
    ∃ n, d.issue c k word body = d ∨ d.issue c k word body = d.setStall c k n := by
  unfold Dev.issue
  cases hl : d.strandLast c k with
  | none => exact ⟨0, .inl rfl⟩
  | some l =>
    dsimp only
    split
    case isTrue => exact ⟨0, .inr rfl⟩
    rename_i hruns
    rw [hpc, if_neg Bool.false_ne_true]
    cases hf : (d.strand c k).fetched with
    | none => exact ⟨4, .inr rfl⟩
    | some x =>
      dsimp only
      split
      case isTrue => exact ⟨0, .inl rfl⟩
      rename_i hword
      split
      case isTrue => exact ⟨_, .inr rfl⟩
      rename_i hstall
      split
      case isTrue => exact ⟨6, .inr rfl⟩
      rename_i hdispatch
      split
      case isTrue => exact ⟨6, .inr rfl⟩
      rename_i hturn
      simp_all [Dev.canIssue]

/-- Settles O20: the check of R157 comes before the meaning of the instruction. -/
theorem illegalInstructionFaults : Obligations.IllegalInstructionFaults := by
  unfold Obligations.IllegalInstructionFaults
  intro s c k
  refine ⟨fun i op w hi hready hillegal => ?_, fun w hreserved hready => ?_⟩
  · obtain ⟨hop, body, hexec⟩ := exec_of_insn hi s
    have hword : illegal ((mkInsn op w).toNat / 2 ^ 56) ((mkInsn op w).setWidth 56) = true := by
      rw [mkInsn_toNat w hop, mkInsn_setWidth]; exact hillegal
    obtain ⟨l, hl, hfault⟩ := issue_of_illegal (body := body) hready hword
    exact ⟨l, hl, _, hexec, hfault⟩
  · obtain ⟨body, hexec⟩ := exec_reservedOpcodeDispatch hreserved s
    obtain ⟨l, hl, hfault⟩ := issue_of_illegal (body := body) hready (illegal_of_reserved hreserved)
    exact ⟨l, hl, _, hexec, hfault⟩

/-- Settles O21: short of a dispatch, an issue leaves the device or sets the stall code. -/
theorem notReadyOnlyStalls : Obligations.NotReadyOnlyStalls := by
  unfold Obligations.NotReadyOnlyStalls
  intro s i c k op w hi hready hpc
  obtain ⟨-, body, hexec⟩ := exec_of_insn hi s
  obtain ⟨n, hn⟩ := issue_of_not_canIssue (body := body) hready hpc
  exact ⟨_, hexec, n, hn⟩

end Sys2Proof.Machine
end

section
/-!
PROOFS. Instructions that control their strand or its steal group (R161, R165, R197, R198): what moves on with the PC, kept by each of
the updates that they make.
-/

namespace Sys2Proof.Machine

section
variable {s : State} {c : CoreId} {k : StrandId} {d e : Dev}

/-- A dispatch alone moves on. -/
theorem movesOn_commit (s : State) (c : CoreId) (k : StrandId) (w : BitVec 56) :
    MovesOn c k s { s with dev := s.dev.commit c k w } where
  pending := rfl
  byte _ := commit_byte ..
  regs _ ha := commit_reg _ _ _ _ ha
  cores x hx := commit_core_other _ _ x _ _ hx
  other := by
    have h := commit_strand s.dev c k w (otherStrand k)
    rwa [if_neg (otherStrand_ne k)] at h
  scalars _ := commit_rdS ..
  preds _ := commit_rdP ..
  pc := by rw [commit_strand_same]

theorem MovesOn.updStrand (h : MovesOn c k s { s with dev := d }) {f : Strand → Strand} (hs : ∀ x, (f x).s = x.s) (hp : ∀ x, (f x).p = x.p)
    (hpc : ∀ x, (f x).pc = x.pc) : MovesOn c k s { s with dev := d.updStrand c k f } := by
  have hother : (d.updStrand c k f).strand c (otherStrand k) = d.strand c (otherStrand k) := by simp [strand_updStrand, otherStrand_ne]
  refine ⟨rfl, h.byte, h.regs, fun x hx => ?_, hother.trans h.other, fun q => ?_, fun q => ?_, ?_⟩
  · rw [← h.cores x hx]
    exact (core_updCore ..).trans (if_neg hx)
  · rw [← h.scalars q]
    simp only [strand_updStrand_same, Strand.rdS, hs]
  · rw [← h.preds q]
    simp only [strand_updStrand_same, Strand.rdP, hp]
  · rw [← h.pc]
    simp only [strand_updStrand_same, hpc]

/-- An update that leaves memory, registers and cores. -/
theorem MovesOn.of_same (h : MovesOn c k s { s with dev := d }) (hbyte : ∀ a, e.byte a = d.byte a) (hregs : e.regs = d.regs)
    (hcores : ∀ x, x ≠ c → e.core x = d.core x) (hstrands : ∀ j, e.strand c j = d.strand c j) :
    MovesOn c k s { s with dev := e } where
  pending := rfl
  byte a := (hbyte a).trans (h.byte a)
  regs a ha := by
    rw [← h.regs a ha]
    simp only [Dev.reg, hregs]
  cores x hx := (hcores x hx).trans (h.cores x hx)
  other := (hstrands _).trans h.other
  scalars q := by rw [← h.scalars q]; simp only [hstrands]
  preds q := by rw [← h.preds q]; simp only [hstrands]
  pc := by rw [← h.pc]; simp only [hstrands]

theorem post_core_other (d : Dev) (o : Origin) {x : CoreId} (h : x ≠ o.core) : (d.post o).core x = d.core x := by
  unfold Dev.post
  dsimp only
  split
  · exact (core_updCore ..).trans (if_neg h)
  · rfl

theorem post_strand (d : Dev) (o : Origin) (x : CoreId) (j : StrandId) : (d.post o).strand x j = d.strand x j := by
  obtain ⟨ts, h⟩ := post_core d o x
  rw [Dev.strand, h]
  rfl

theorem MovesOn.post (h : MovesOn c k s { s with dev := d }) (o : Origin) (ho : o.core = c) : MovesOn c k s { s with dev := d.post o } := by
  subst ho
  obtain ⟨cs, hpost⟩ := post_eq d o
  exact h.of_same (fun _ => by rw [hpost]; rfl) (by rw [hpost]) (fun _ hx => post_core_other d o hx) (post_strand d o _)

theorem MovesOn.postAt (h : MovesOn c k s { s with dev := d }) (o : Origin) (ho : o.core = c) (n : Nat) :
    MovesOn c k s { s with dev := d.postAt o n } := by
  subst ho
  exact h.of_same (fun _ => rfl) rfl (fun _ hx => (core_updCore ..).trans (if_neg hx)) fun _ => strand_updCore _ _ _ _ _ fun _ => rfl

theorem commit_running {w : BitVec 56} {op : Nat} (h : Dispatches s c k op w) : ((s.dev.commit c k w).strand c k).st = .running := by
  have hready := h.ready
  simp only [Dev.canIssue, Bool.and_eq_true, beq_iff_eq] at hready
  obtain ⟨⟨⟨⟨⟨⟨-, hrunning⟩, -⟩, -⟩, -⟩, -⟩, -⟩ := hready
  rw [commit_strand_same]
  exact hrunning

theorem condHolds_commit (d : Dev) (c : CoreId) (k : StrandId) (w : BitVec 56) :
    condHolds ((d.commit c k w).strand c k) w = (!wCond w || xor ((d.strand c k).rdP (wYp w)) (wYneg w)) := by
  rw [condHolds, commit_rdP]

end

section
variable {s : State} {c : CoreId} {k : StrandId} {w : BitVec 56}

/-- What a dispatch whose meaning succeeds answers, by the device that the meaning gives. -/
theorem yields_of_dispatch {i : Instr} {op : Nat} {body : Dev → Origin → Disp} {P : State → Prop} (ho : op < 256) (h : Dispatches s c k op w)
    (hexec : exec i s = onDev s fun d => d.issue c k (mkInsn op w) body) (g : LastId → Dev)
    (hbody : ∀ l, body (s.dev.commit c k w) (s.originOf c k op w l) = .ok (g l))
    (hP : ∀ l, s.dev.strandLast c k = some l → P { s with dev := g l }) : Yields i s P := by
  obtain ⟨l, hl, hissue⟩ := onDev_issue_ok (g := g) ho h fun l _ => hbody l
  exact ⟨_, hexec.trans hissue, hP l hl⟩

/-- HALT, as its condition holds or not (R197). -/
theorem halt_controls (h : Dispatches s c k 0x71 w) : Yields (.halt c k w) s fun t => MovesOn c k s t ∧
    (t.dev.strand c k).st = if condHolds ((s.dev.commit c k w).strand c k) w then .halting else .running := by
  cases hcond : condHolds ((s.dev.commit c k w).strand c k) w with
  | true =>
    refine yields_of_dispatch (by decide) h rfl (fun _ => (s.dev.commit c k w).updStrand c k fun t =>
      { t with st := .halting, halt := some ⟨0, (s.dev.strand c k).pc, 0x71, w⟩ }) (fun _ => if_pos hcond) fun l _ => ⟨?_, ?_⟩
    · exact (movesOn_commit s c k w).updStrand (fun _ => rfl) (fun _ => rfl) (fun _ => rfl)
    · simp only [strand_updStrand_same, if_true]
  | false =>
    refine yields_of_dispatch (by decide) h rfl (fun l => (s.dev.commit c k w).post (s.originOf c k 0x71 w l))
      (fun _ => if_neg (ne_true_of_eq_false hcond)) fun l _ => ⟨?_, ?_⟩
    · exact (movesOn_commit s c k w).post (s.originOf c k 0x71 w l) rfl
    · simp only [post_strand, commit_running h, Bool.false_eq_true, if_false]

/-- The device of a TRAP whose condition holds, before its post (R161, R197). -/
def Dev.trapped (d : Dev) (o : Origin) (code : Nat) : Dev :=
  (d.updStrand o.core o.strand fun t => { t with st := .trapped, trap := BitVec.ofNat 16 code }).eventN 0x3002 0
    (leBytes 1 o.last.val ++ leBytes 1 o.core.val ++ leBytes 1 o.strand.val ++ zeros 1 ++ leBytes 2 code ++ zeros 2 ++ leBytes 8 o.pc.toNat)
    (2, o.last.val, o.core.val, o.strand.val, code)

theorem trapped_strand (d : Dev) (o : Origin) (code : Nat) : (d.trapped o code).strand o.core o.strand =
    { d.strand o.core o.strand with st := .trapped, trap := BitVec.ofNat 16 code } :=
  strand_updStrand_same d o.core o.strand _

theorem post_aoc (d : Dev) (o : Origin) : (d.post o).aoc = d.aoc := by
  obtain ⟨cs, h⟩ := post_eq d o
  rw [h]

theorem post_ops (d : Dev) (o : Origin) : (d.post o).ops = d.ops := by
  obtain ⟨cs, h⟩ := post_eq d o
  rw [h]

/-- TRAP, as its condition holds or not (R161, R197). -/
theorem trap_controls (h : Dispatches s c k 0x72 w) : Yields (.trap c k w) s fun t =>
    let cond := condHolds ((s.dev.commit c k w).strand c k) w
    MovesOn c k s t ∧ (t.dev.strand c k).st = (if cond then .trapped else .running) ∧
    (t.dev.strand c k).trap = (if cond then BitVec.ofNat 16 (wCode w) else (s.dev.strand c k).trap) ∧
    (t.dev.aoc.rcd.raised.map fun e => e.code) = (s.dev.aoc.rcd.raised.map fun e => e.code) ++ (if cond then [0x3002] else []) := by
  cases hcond : condHolds ((s.dev.commit c k w).strand c k) w with
  | true =>
    refine yields_of_dispatch (by decide) h rfl (fun l => ((s.dev.commit c k w).trapped (s.originOf c k 0x72 w l) (wCode w)).post
      (s.originOf c k 0x72 w l)) (fun _ => if_pos hcond) fun l _ => ⟨?_, ?_, ?_, ?_⟩
    · have hmoves := (movesOn_commit s c k w).updStrand (f := fun t => { t with st := .trapped, trap := BitVec.ofNat 16 (wCode w) })
        (fun _ => rfl) (fun _ => rfl) (fun _ => rfl)
      refine MovesOn.post ?_ _ rfl
      exact hmoves.of_same (fun _ => rfl) rfl (fun _ _ => rfl) fun _ => rfl
    · exact congrArg Strand.st ((post_strand ..).trans (trapped_strand ..))
    · exact congrArg Strand.trap ((post_strand ..).trans (trapped_strand ..))
    · rw [post_aoc]
      simp [Dev.trapped, Dev.eventN, Dev.updRcd]
  | false =>
    refine yields_of_dispatch (by decide) h rfl (fun l => (s.dev.commit c k w).post (s.originOf c k 0x72 w l))
      (fun _ => if_neg (ne_true_of_eq_false hcond)) fun l _ => ⟨?_, ?_, ?_, ?_⟩
    · exact (movesOn_commit s c k w).post (s.originOf c k 0x72 w l) rfl
    · simp only [post_strand, commit_running h, Bool.false_eq_true, if_false]
    · simp only [post_strand, commit_strand_same, Bool.false_eq_true, if_false]
    · simp only [post_aoc, commit_aoc, Bool.false_eq_true, if_false, List.append_nil]

/-- SNAP asks for its trigger and completes in the next cycle (R198). -/
theorem snap_raises (h : Dispatches s c k 0x73 w) : Yields (.snap c k w) s fun t => MovesOn c k s t ∧
    t.dev.hub.plumb.raised = s.dev.hub.plumb.raised ++ [(s.dev.cycle + 1, 0, wCode w)] ∧
    PostsAt c k 0x73 w (s.dev.cycle + 1) s t := by
  refine yields_of_dispatch (by decide) h rfl (fun l => ((s.dev.commit c k w).plumbLater ((s.dev.commit c k w).cycle + 1) 0 (wCode w)).postAt
    (s.originOf c k 0x73 w l) ((s.dev.commit c k w).cycle + 1)) (fun _ => rfl) fun l hl => ⟨?_, ?_, l, hl, ?_⟩
  · refine MovesOn.postAt ?_ (s.originOf c k 0x73 w l) rfl _
    exact (movesOn_commit s c k w).of_same (fun _ => rfl) rfl (fun _ _ => rfl) fun _ => rfl
  · simp [Dev.postAt, Dev.plumbLater]
  · simp only [Dev.postAt, Dev.plumbLater, State.originOf, core_updCore_same, updHub_core, commit_core, commit_cycle,
      mkInsn_toNat w (op := 0x73) (by decide), mkInsn_setWidth]

end

/-- Settles O28: the condition is read as the strand stood at dispatch. -/
theorem strandControl : Obligations.StrandControl := by
  unfold Obligations.StrandControl
  intro s c k w l _
  dsimp only
  rw [← condHolds_commit]
  exact ⟨halt_controls, trap_controls, snap_raises⟩

section
variable {s : State} {c : CoreId} {k : StrandId} {w : BitVec 56}

/-- TGRPB opens a group with a number of its own (R165). -/
theorem tgrpb_opens (h : Dispatches s c k 0x74 w) : Yields (.tgrpb c k w) s fun t => MovesOn c k s t ∧
    ∃ g : Group, (t.dev.strand c k).group = some g ∧ g.movable = true ∧ g.stage = 0 ∧ t.dev.ops = s.dev.ops := by
  let d := s.dev.commit c k w
  refine yields_of_dispatch (by decide) h rfl (fun l => (({ d with nextOp := d.nextOp + 1 } : Dev).updStrand c k fun t =>
    { t with group := some ⟨d.nextOp, true, 0, 0, 0⟩ }).post (s.originOf c k 0x74 w l)) (fun _ => rfl) fun l _ =>
    ⟨?_, ⟨d.nextOp, true, 0, 0, 0⟩, ?_, rfl, rfl, ?_⟩
  · have hopens : MovesOn c k s { s with dev := { d with nextOp := d.nextOp + 1 } } :=
      (movesOn_commit s c k w).of_same (fun _ => rfl) rfl (fun _ _ => rfl) fun _ => rfl
    refine MovesOn.post ?_ _ rfl
    exact hopens.updStrand (fun _ => rfl) (fun _ => rfl) (fun _ => rfl)
  · rw [post_strand, strand_updStrand_same]
  · rw [post_ops]
    exact commit_ops ..

/-- What TGRPE leaves of the operations: those of the group it closes are movable where R165 holds. -/
def Dev.closedOps (d : Dev) (o : Origin) (g : Group) : List Op :=
  if g.movable && g.stage == 2 && d.stealing o.last then d.ops.map fun x =>
    if x.core == o.core && x.strand == o.strand && (x.group.map fun y => y.1) == some g.num then { x with group := some (g.num, true) } else x
  else d.ops

/-- TGRPE closes the open group (R165). -/
theorem tgrpe_closes (h : Dispatches s c k 0x75 w) : Yields (.tgrpe c k w) s fun t => MovesOn c k s t ∧
    (t.dev.strand c k).group = none ∧ ((s.dev.strand c k).group = none → t.dev.ops = s.dev.ops) := by
  have hgroup : ((s.dev.commit c k w).strand c k).group = (s.dev.strand c k).group := by rw [commit_strand_same]
  cases hopen : (s.dev.strand c k).group with
  | none =>
    refine yields_of_dispatch (by decide) h rfl (fun l => (s.dev.commit c k w).post (s.originOf c k 0x75 w l))
      (fun _ => by rw [hgroup, hopen]) fun l _ => ⟨(movesOn_commit s c k w).post (s.originOf c k 0x75 w l) rfl, ?_, fun _ => ?_⟩
    · rw [post_strand, hgroup, hopen]
    · rw [post_ops, commit_ops]
  | some g =>
    let d := (s.dev.commit c k w).updStrand c k fun t => { t with group := none }
    refine yields_of_dispatch (by decide) h rfl (fun l => ({ d with ops := d.closedOps (s.originOf c k 0x75 w l) g } : Dev).post
      (s.originOf c k 0x75 w l)) (fun l => ?_) fun l _ => ⟨?_, ?_, fun hnone => absurd hnone (Option.some_ne_none g)⟩
    · rw [hgroup, hopen]
      unfold Dev.closedOps
      dsimp only
      split <;> rfl
    · have hcloses := (movesOn_commit s c k w).updStrand (f := fun t => { t with group := none }) (fun _ => rfl) (fun _ => rfl) (fun _ => rfl)
      refine MovesOn.post ?_ _ rfl
      exact hcloses.of_same (fun _ => rfl) rfl (fun _ _ => rfl) fun _ => rfl
    · rw [post_strand]
      exact congrArg Strand.group (strand_updStrand_same ..)

end

/-- Settles O29: without an open group, TGRPE marks no operation. -/
theorem groupInstructions : Obligations.GroupInstructions := by
  unfold Obligations.GroupInstructions
  intro s c k w l _
  exact ⟨tgrpb_opens, tgrpe_closes⟩

end Sys2Proof.Machine
end

section
/-!
PROOFS. What a scalar access to memory comes to when it is served: a read that succeeds notes no more than registers, the cycle's notes and
events; a write to stock stores its bytes; the access leaves its strand; and a line of text reaches the fetch buffer (R147, R148, R181,
R208 to R210, R215).
-/

namespace Sys2Proof.Machine

/-! Accesses that are read. -/

section
variable (d : Dev)

theorem notedBy_count (base i n : Nat) : d.NotedBy (d.count base i n) := by
  obtain ⟨rg, nw, h⟩ := count_eq d base i n
  exact ⟨rg, nw, d.aoc.rcd, h⟩

theorem notedBy_hcnt (i n : Nat) : d.NotedBy (d.hcnt i n) := notedBy_count ..

theorem notedBy_servePage (g : Nat) : d.NotedBy (d.servePage g) := by
  obtain ⟨ps, h⟩ := servePage_eq d g
  exact ⟨d.regs, _, d.aoc.rcd, h⟩

theorem notedBy_refusedAccess (a n : Nat) (wr : Bool) : d.NotedBy (d.refusedAccess a n wr) :=
  (notedBy_hwSet d (aGlb 0x98) 0x8000000000000000 0xFFFFFFFFFFFFFF _).trans (notedBy_event ..)

theorem notedBy_evrAdvance : d.NotedBy d.evrAdvance := by
  unfold Dev.evrAdvance
  split
  · exact ⟨_, d.now, _, rfl⟩
  · exact .refl d

theorem notedBy_bedEccIn (c : CoreId) (a : ArrayId) (t : TileId) (i j lo hi : Nat) : d.NotedBy (d.bedEccIn c a t i j lo hi).1 := by
  unfold Dev.bedEccIn
  split
  · exact .refl d
  · refine notedBy_foldl (fun s e => ?_) _ (d, false)
    split
    · exact (notedBy_hwSet s.1 (aBedErr c a) 0x10000 0xFFFC0000 _).trans (notedBy_event ..)
    · exact notedBy_hwInc ..

theorem notedBy_bedRead (c : CoreId) (a : ArrayId) (t : TileId) (o n : Nat) : d.NotedBy (d.bedRead c a t o n).1 :=
  List.foldlRecOn (motive := fun e => d.NotedBy e) _ _ (.refl d) fun _ he _ _ => he.trans (notedBy_bedEccIn ..)

/-- A read of register space of fewer than 64 bytes pops no queue. -/
theorem notedBy_regRead (a : Nat) {n : Nat} (hn : n < 64) : d.NotedBy (d.regRead a n).1 := by
  have h64 : n ≠ 64 := by omega
  have hrefused : d.NotedBy (d.refuseRead a n).1 := notedBy_refusedAccess ..
  unfold Dev.regRead
  simp only [h64, decide_false, Bool.false_and, Bool.false_eq_true, if_false]
  split
  case isTrue => exact .refl d
  split
  case isTrue => split <;> exact hrefused
  split
  case isTrue => exact hrefused
  split
  case isTrue =>
    split
    case isFalse => exact hrefused
    dsimp only
    split
    · exact (notedBy_servePage ..).trans (notedBy_evrAdvance _)
    · exact notedBy_servePage ..
  split
  · exact notedBy_servePage ..
  · exact hrefused

theorem busRead_regs {a : Nat} (n : Nat) (h : region a = .regs) : d.busRead a n = d.regRead a n := by
  unfold Dev.busRead
  rw [h]

/-- A read of fewer than 64 bytes that succeeds. -/
theorem notedBy_busRead {a n : Nat} {bs : List Byte} (hn : n < 64) (hok : (d.busRead a n).2 = .ok bs) : d.NotedBy (d.busRead a n).1 := by
  by_cases hregs : region a = .regs
  · rw [busRead_regs d n hregs]
    exact notedBy_regRead d a hn
  revert hok
  revert hregs
  have hrefused : d.NotedBy (d.refuseRead a n).1 := notedBy_refusedAccess ..
  unfold Dev.busRead
  cases region a with
  | hbm =>
    dsimp only
    split
    case isTrue => exact fun _ _ => .refl d
    split
    case isTrue => exact fun _ hok => nomatch hok
    refine fun _ _ => (notedBy_hcnt d (37 + 3 * (d.stackOf a).val) 1).trans ?_
    split <;> exact notedBy_eccRead ..
  | stock c o =>
    dsimp only
    split
    · split <;> exact fun _ _ => notedBy_eccRead ..
    · exact fun _ _ => .refl d
  | bed c x t o =>
    dsimp only
    split
    case isTrue => exact fun _ _ => .refl d
    split
    · exact fun _ _ => notedBy_bedRead ..
    · exact fun _ _ => hrefused
  | desc c o =>
    dsimp only
    split
    case isTrue => exact fun _ _ => .refl d
    split
    · exact fun _ _ => .refl d
    · exact fun _ _ => hrefused
  | regs => exact fun hregs _ => absurd rfl hregs
  | flash o => dsimp only; split <;> exact fun _ _ => .refl d
  | dram o => dsimp only; split <;> exact fun _ _ => .refl d
  | unmapped => exact fun _ _ => .refl d

theorem notedBy_accRead {a n : Nat} {bs : List Byte} (hn : n < 64) (hok : (d.accRead a n).2 = .ok bs) : d.NotedBy (d.accRead a n).1 := by
  unfold Dev.accRead at hok ⊢
  split at hok
  · rw [if_pos ‹_›]
    exact notedBy_busRead d hn hok
  · exact nomatch hok

end

/-! Writes of memory. -/

section
variable (d : Dev)

theorem wrMem_cores (a : Nat) (bs : List Byte) : (d.wrMem a bs).cores = d.cores := by
  unfold Dev.wrMem
  dsimp only
  by_cases hf : d.fills.isEmpty
  · rw [if_pos hf]
  · rw [if_neg hf]

theorem Dev.NotedBy.cores {d e : Dev} (h : d.NotedBy e) : e.cores = d.cores := by
  obtain ⟨_, _, _, rfl⟩ := h
  rfl

theorem Dev.NotedBy.byte {d e : Dev} (h : d.NotedBy e) (a : Nat) : e.byte a = d.byte a := by
  obtain ⟨_, _, _, rfl⟩ := h
  rfl

/-- The words of a write that it covers in part are read (R209). -/
theorem notedBy_mergeReads (ws : List Nat) : d.NotedBy (ws.foldl (fun (s : Dev × Bool) w =>
    ((s.1.eccRead w 8).1, s.2 || (s.1.eccRead w 8).2.isSome)) (d, false)).1 :=
  notedBy_foldl (f := fun (s : Dev × Bool) w => ((s.1.eccRead w 8).1, s.2 || (s.1.eccRead w 8).2.isSome)) (fun _ _ => notedBy_eccRead ..) ws
    (d, false)

theorem storeWords_cores (a : Nat) (bs : List Byte) (who : Master) : (d.storeWords a bs who).1.cores = d.cores := by
  have hreads := notedBy_mergeReads d (partWords a bs.length)
  unfold Dev.storeWords
  dsimp only at hreads ⊢
  split
  · exact hreads.cores
  · exact (wrMem_cores ..).trans hreads.cores

theorem memWrite_cores {a : Nat} {bs bs' : List Byte} {who : Master} (hok : (d.memWrite a bs who).2 = .ok bs') :
    (d.memWrite a bs who).1.cores = d.cores := by
  revert hok
  unfold Dev.memWrite
  cases region a
  case hbm =>
    dsimp only
    split
    case isTrue => exact fun _ => rfl
    split
    case isTrue => exact fun hok => nomatch hok
    exact fun _ => (storeWords_cores ..).trans (notedBy_hcnt ..).cores
  case stock =>
    dsimp only
    split
    · exact fun _ => storeWords_cores ..
    · exact fun _ => rfl
  case dram =>
    dsimp only
    split
    · exact fun _ => wrMem_cores ..
    · exact fun _ => rfl
  all_goals exact fun _ => rfl

/-- An atomic add where memory stands: a read and a write (R183). -/
def Dev.addAt (d : Dev) (a : Nat) (v : Word) (who : Master) : Dev × Res :=
  match (d.busRead a 8).2 with
  | .ok bs =>
    match ((d.busRead a 8).1.memWrite a (leBytes 8 (leNat bs + v.toNat)) who).2 with
    | .ok _ => (((d.busRead a 8).1.memWrite a (leBytes 8 (leNat bs + v.toNat)) who).1, .ok bs)
    | x => (((d.busRead a 8).1.memWrite a (leBytes 8 (leNat bs + v.toNat)) who).1, x)
  | x => ((d.busRead a 8).1, x)

theorem busAtomic_eq (a : Nat) (v : Word) (who : Master) : d.busAtomic a v who = d.addAt a v who ∨ ∃ r, d.busAtomic a v who = (d, r) := by
  unfold Dev.busAtomic
  cases region a
  case hbm => exact .inl rfl
  case stock => exact .inl rfl
  all_goals exact .inr ⟨_, rfl⟩

theorem addAt_cores {a : Nat} {v : Word} {who : Master} {bs : List Byte} (hok : (d.addAt a v who).2 = .ok bs) :
    (d.addAt a v who).1.cores = d.cores := by
  revert hok
  unfold Dev.addAt
  split
  next old hread =>
    have hcores := (notedBy_busRead d (by decide) hread).cores
    split
    next hwrite => exact fun _ => (memWrite_cores _ hwrite).trans hcores
    next hfails => exact fun hok => absurd hok (hfails bs)
  next hfails => exact fun hok => absurd hok (hfails bs)

theorem busAtomic_cores {a : Nat} {v : Word} {who : Master} {bs : List Byte} (hok : (d.busAtomic a v who).2 = .ok bs) :
    (d.busAtomic a v who).1.cores = d.cores := by
  rcases busAtomic_eq d a v who with h | ⟨r, h⟩
  · rw [h] at hok ⊢
    exact addAt_cores d hok
  · rw [h]

end

/-! An access that is served. -/

/-- What memory answers to an access of a strand at local address `x` (R181). -/
def Dev.accResult (d : Dev) (c : CoreId) (k : StrandId) (a : Acc) (x : Nat) : Dev × Res :=
  if a.opcode.toNat = 0x5E then d.busAtomic x a.data (.seq c k)
  else if isLoad a.opcode.toNat then d.accRead x (accSize a.opcode.toNat)
  else d.accWrite x (leBytes (accSize a.opcode.toNat) a.data.toNat) (.seq c k)

theorem accSize_le (op : Nat) : accSize op ≤ 8 := by
  unfold accSize
  split <;> decide

section
variable {d : Dev} {c : CoreId} {k : StrandId} {id x : Nat} {a : Acc} {load : Bool} {bs : List Byte}

theorem serveAcc_of_ok (hfind : (d.strand c k).access id = some a) (hhere : a.remote = false) (hload : isLoad a.opcode.toNat = load)
    (hdue : a.due ≤ d.cycle) (hfirst : d.accFirst (d.strand c k) a = true) (haddr : d.accAddr a = some x)
    (hok : (d.accResult c k a x).2 = .ok bs) : d.serveAcc c k id load = (d.accResult c k a x).1.finishAcc c k a bs := by
  have hserved : (a.remote || isLoad a.opcode.toNat != load || decide (d.cycle < a.due) || !d.accFirst (d.strand c k) a) = false := by
    simp [hhere, hload, hfirst, hdue]
  unfold Dev.serveAcc
  simp only [hfind, haddr, hserved, Bool.false_eq_true, if_false]
  unfold Dev.accResult at hok ⊢
  rw [hok]

theorem acc_wrS (t : Strand) (r : Fin 32) (v : Word) (n : Nat) : (t.wrS r v n).acc = t.acc := by
  unfold Strand.wrS
  split <;> rfl

theorem dropAcc_eq (d : Dev) (c : CoreId) (k : StrandId) (a : Acc) : ∃ nw, d.dropAcc c k a =
    { d.updStrand c k fun t => { t with acc := t.acc.filter fun b => b.id != a.id } with now := nw } := by
  unfold Dev.dropAcc
  dsimp only
  split
  · exact ⟨d.now, rfl⟩
  · exact ⟨_, rfl⟩

/-- The strand of an access that ends, a load's with its register written. -/
def Strand.accEnds (t : Strand) (a : Acc) (bs : List Byte) (n : Nat) : Strand :=
  if isLoad a.opcode.toNat then
    { t with acc := t.acc.filter fun b => b.id != a.id }.wrS (wRd a.w) (loadValue a.opcode.toNat bs) n
  else { t with acc := t.acc.filter fun b => b.id != a.id }

theorem accEnds_acc (t : Strand) (a : Acc) (bs : List Byte) (n : Nat) : (t.accEnds a bs n).acc = t.acc.filter fun b => b.id != a.id := by
  unfold Strand.accEnds
  split
  · exact acc_wrS ..
  · rfl

/-- The device in which an access has ended, before its post. -/
def Dev.accEnded (d : Dev) (c : CoreId) (k : StrandId) (a : Acc) (bs : List Byte) : Dev :=
  if isLoad a.opcode.toNat then
    (d.dropAcc c k a).updStrand c k fun t => t.wrS (wRd a.w) (loadValue a.opcode.toNat bs) (d.dropAcc c k a).cycle
  else d.dropAcc c k a

theorem finishAcc_eq (d : Dev) (c : CoreId) (k : StrandId) (a : Acc) (bs : List Byte) :
    d.finishAcc c k a bs = d.accEnded c k a bs ∨ ∃ o, d.finishAcc c k a bs = (d.accEnded c k a bs).post o := by
  have h : d.finishAcc c k a bs = match (d.accEnded c k a bs).accOrigin c k a with
    | some o => (d.accEnded c k a bs).post o
    | none => d.accEnded c k a bs := rfl
  rw [h]
  cases (d.accEnded c k a bs).accOrigin c k a with
  | none => exact .inl rfl
  | some o => exact .inr ⟨o, rfl⟩

theorem accEnded_strand (d : Dev) (c : CoreId) (k : StrandId) (a : Acc) (bs : List Byte) :
    (d.accEnded c k a bs).strand c k = (d.strand c k).accEnds a bs d.cycle := by
  obtain ⟨nw, hdrop⟩ := dropAcc_eq d c k a
  have hdropped : (d.dropAcc c k a).strand c k = { d.strand c k with acc := (d.strand c k).acc.filter fun b => b.id != a.id } := by
    rw [hdrop]
    exact strand_updStrand_same d c k _
  have hcycle : (d.dropAcc c k a).cycle = d.cycle := by rw [hdrop]; rfl
  unfold Dev.accEnded Strand.accEnds
  split
  · rw [strand_updStrand_same, hdropped, hcycle]
  · exact hdropped

theorem accEnded_byte (d : Dev) (c : CoreId) (k : StrandId) (a : Acc) (bs : List Byte) (y : Nat) :
    (d.accEnded c k a bs).byte y = d.byte y := by
  obtain ⟨nw, hdrop⟩ := dropAcc_eq d c k a
  have hdropped : (d.dropAcc c k a).byte y = d.byte y := by rw [hdrop]; rfl
  unfold Dev.accEnded
  split <;> exact hdropped

theorem post_byte (d : Dev) (o : Origin) (y : Nat) : (d.post o).byte y = d.byte y := by
  obtain ⟨cs, h⟩ := post_eq d o
  rw [h]
  rfl

/-- An access that ends changes its strand as `accEnds` says (R148). -/
theorem finishAcc_strand (d : Dev) (c : CoreId) (k : StrandId) (a : Acc) (bs : List Byte) :
    (d.finishAcc c k a bs).strand c k = (d.strand c k).accEnds a bs d.cycle := by
  rw [← accEnded_strand]
  rcases finishAcc_eq d c k a bs with h | ⟨o, h⟩
  · rw [h]
  · rw [h, post_strand]

theorem finishAcc_byte (d : Dev) (c : CoreId) (k : StrandId) (a : Acc) (bs : List Byte) (y : Nat) :
    (d.finishAcc c k a bs).byte y = d.byte y := by
  rw [← accEnded_byte d c k a bs]
  rcases finishAcc_eq d c k a bs with h | ⟨o, h⟩
  · rw [h]
  · rw [h, post_byte]

end

/-- Settles O17: what the access itself changes leaves the cores alone, and reading leaves memory. -/
theorem loadCompletes : Obligations.LoadCompletes := by
  unfold Obligations.LoadCompletes
  intro s c k id x a bs hfind hhere hload hdue hfirst haddr hok
  have hop : a.opcode.toNat = 0x5E ↔ a.opcode = 0x5E := ⟨fun h => BitVec.eq_of_toNat_eq h, fun h => by rw [h]; rfl⟩
  have hresult : s.dev.accResult c k a x =
      if a.opcode = 0x5E then s.dev.busAtomic x a.data (.seq c k) else s.dev.accRead x (accSize a.opcode.toNat) := by
    simp only [Dev.accResult, hop, hload, if_true]
  have hok' : (s.dev.accResult c k a x).2 = .ok bs := by
    rw [hresult, ← hok]
    split <;> rfl
  have hsize : accSize a.opcode.toNat < 64 := by have := accSize_le a.opcode.toNat; omega
  have hcores : (s.dev.accResult c k a x).1.cores = s.dev.cores := by
    rw [hresult]
    split
    · rw [if_pos ‹_›] at hok
      exact busAtomic_cores _ hok
    · rw [if_neg ‹_›] at hok
      exact (notedBy_accRead _ hsize hok).cores
  have hstrand : (s.dev.accResult c k a x).1.strand c k = s.dev.strand c k := by
    simp only [Dev.strand, Dev.core, hcores]
  refine yields_of_dev rfl (serveAcc_of_ok hfind hhere hload hdue hfirst haddr hok') ⟨?_, ?_, ?_⟩
  · intro q
    rw [finishAcc_strand, hstrand, Strand.accEnds, if_pos hload, rdS_wrS]
    rfl
  · rw [finishAcc_strand, hstrand, accEnds_acc]
  · intro hadd y
    rw [if_neg hadd] at hok
    rw [finishAcc_byte, hresult, if_neg hadd]
    exact (notedBy_accRead _ hsize hok).byte y

/-! Stores to stock. -/

theorem leBytes_length (n v : Nat) : (leBytes n v).length = n := by
  induction n generalizing v with
  | zero => rfl
  | succ n ih => simp [leBytes, ih]

theorem leBytes_getElem {n v i : Nat} (h : i < (leBytes n v).length) : (leBytes n v)[i] = BitVec.ofNat 8 (v / 256 ^ i) := by
  induction n generalizing v i with
  | zero => exact absurd h (Nat.not_lt_zero i)
  | succ n ih =>
    cases i with
    | zero => simp [leBytes]
    | succ i =>
      simp only [leBytes, List.getElem_cons_succ]
      rw [ih, Nat.div_div_eq_div_mul, Nat.pow_succ']

theorem eccRead_clean {d : Dev} {a n : Nat} (h : d.eccIn a n = []) : d.eccRead a n = (d, none) := by
  unfold Dev.eccRead
  rw [h]
  rfl

/-- Words without an ECC error are merged as they are (R209). -/
theorem mergeReads_clean {d : Dev} {ws : List Nat} (h : ∀ w ∈ ws, d.eccIn w 8 = []) :
    ws.foldl (fun (s : Dev × Bool) w => ((s.1.eccRead w 8).1, s.2 || (s.1.eccRead w 8).2.isSome)) (d, false) = (d, false) := by
  induction ws with
  | nil => rfl
  | cons w ws ih =>
    rw [List.foldl_cons, eccRead_clean (h w List.mem_cons_self)]
    exact ih fun x hx => h x (List.mem_cons_of_mem _ hx)

/-- No other master wrote to these bytes in the cycle, so that grants order nothing (R215). -/
theorem granted_alone {d : Dev} {a : Nat} {bs : List Byte} {who : Master}
    (h : ∀ e ∈ d.now.stk, e.who = who ∨ e.addr + e.len ≤ a ∨ a + bs.length ≤ e.addr) : d.granted a bs who = bs := by
  have hnone : (d.now.stk.filter fun e => decide (e.addr < a + bs.length) && decide (a < e.addr + e.len) && e.who != who) = [] := by
    refine List.filter_eq_nil_iff.mpr fun e he => ?_
    rcases h e he with h | h | h
    · simp [h]
    · simp only [Bool.and_eq_true, decide_eq_true_eq]; omega
    · simp only [Bool.and_eq_true, decide_eq_true_eq]; omega
  unfold Dev.granted
  rw [hnone]

/-- What a store to stock leaves when nothing disturbs it: its bytes in memory, and the note of who wrote them (R209, R215). -/
def Dev.stored (d : Dev) (a : Nat) (bs : List Byte) (who : Master) : Dev :=
  { d.wrMem a bs with now := { (d.wrMem a bs).now with stk := ⟨a, bs.length, who⟩ :: (d.wrMem a bs).now.stk } }

theorem storeWords_plain {d : Dev} {a : Nat} {bs : List Byte} {who : Master} (hclean : ∀ w ∈ partWords a bs.length, d.eccIn w 8 = [])
    (halone : ∀ e ∈ d.now.stk, e.who = who ∨ e.addr + e.len ≤ a ∨ a + bs.length ≤ e.addr) :
    d.storeWords a bs who = (d.stored a bs who, .ok []) := by
  have hmerged := mergeReads_clean hclean
  unfold Dev.storeWords
  dsimp only
  rw [hmerged, granted_alone halone]
  rfl

theorem accWrite_stock {d : Dev} {a o : Nat} {n : CoreId} (bs : List Byte) (who : Master) (hregion : region a = .stock n o)
    (hon : d.dieOn (dieOf n) = true) : d.accWrite a bs who = d.storeWords a bs who := by
  have hreach : d.reachable a = true := by
    unfold Dev.reachable
    rw [hregion]
    exact hon
  have hfree : d.pageFree a = true := by
    unfold Dev.pageFree
    rw [hregion]
    rfl
  have hbus : d.busWrite a bs who = d.memWrite a bs who := by
    unfold Dev.busWrite
    rw [hregion]
  have hmem : d.memWrite a bs who = if d.reachable a then d.storeWords a bs who else (d, .bad 1) := by
    unfold Dev.memWrite
    rw [hregion]
  rw [Dev.accWrite, if_pos hfree, hbus, hmem, if_pos hreach]

/-- Settles O18: a store to stock that nothing disturbs is a write of its bytes, and its strand keeps its scalars. -/
theorem storeCompletes : Obligations.StoreCompletes := by
  unfold Obligations.StoreCompletes
  intro s c n k id x o a hfind hhere hload hdue hfirst haddr hregion hon hclean halone
  let bs := leBytes (accSize a.opcode.toNat) a.data.toNat
  have hlength : bs.length = accSize a.opcode.toNat := leBytes_length ..
  have hop : a.opcode.toNat ≠ 0x5E := fun h => by rw [h] at hload; exact absurd hload (by decide)
  have hresult : s.dev.accResult c k a x = (s.dev.stored x bs (.seq c k), .ok []) := by
    rw [← hlength] at hclean halone
    rw [Dev.accResult, if_neg hop, hload, if_neg Bool.false_ne_true, accWrite_stock _ _ hregion hon, storeWords_plain hclean halone]
  have hok : (s.dev.accResult c k a x).2 = .ok [] := by rw [hresult]
  have hstrand : (s.dev.stored x bs (.seq c k)).strand c k = s.dev.strand c k := by
    have hcores : (s.dev.stored x bs (.seq c k)).cores = s.dev.cores := wrMem_cores ..
    simp only [Dev.strand, Dev.core, hcores]
  have hserved := serveAcc_of_ok hfind hhere hload hdue hfirst haddr hok
  rw [hresult] at hserved
  refine yields_of_dev rfl hserved ⟨fun i hi => ?_, fun y hy => ?_, ?_, fun q => ?_⟩
  · rw [finishAcc_byte]
    have hi' : i < bs.length := by omega
    exact (wrMem_byte_same s.dev x bs hi').trans (leBytes_getElem hi')
  · rw [finishAcc_byte]
    exact wrMem_byte_other s.dev x y bs (by omega)
  · rw [finishAcc_strand, hstrand, accEnds_acc]
  · rw [finishAcc_strand, hstrand, Strand.accEnds, hload, if_neg Bool.false_ne_true]
    rfl

/-! Fetch. -/

/-- A line of text that comes into a fetch buffer (R147). -/
def Dev.takeText (d : Dev) (c : CoreId) (k : StrandId) (line : Nat) : Dev :=
  d.updStrand c k fun t => t.takeLine line (d.rdMem line 64)

theorem takeLine_words (t : Strand) (d : Dev) {line i : Nat} (hi : i < 8) :
    (line + 8 * i, BitVec.ofNat 64 (leNat (d.rdMem (line + 8 * i) 8))) ∈ (t.takeLine line (d.rdMem line 64)).fetch := by
  rw [← leAt_rdMem d (n := 64) (by omega)]
  exact List.mem_append_right _ (List.mem_map.mpr ⟨i, List.mem_range.mpr hi, rfl⟩)

/-- Settles O19: a line that is wanted and reads without an error is taken, and noted where the buffer had none of it. -/
theorem fetchFillsBuffer : Obligations.FetchFillsBuffer := by
  unfold Obligations.FetchFillsBuffer
  intro s c k line l hl hon halign hpc hlo hhi hclean
  have htaken : ∃ nw, exec (.fetchReturn c k line) s = .next { s with dev := { s.dev.takeText c k line.toNat with now := nw } } := by
    have hwanted : (!s.dev.coreOn c || decide (line.toNat % 64 ≠ 0) || badPc c line false ||
        decide (line.toNat < (s.dev.strand c k).pc.toNat / 64 * 64) ||
        decide ((s.dev.strand c k).pc.toNat / 64 * 64 + 256 ≤ line.toNat)) = false := by
      simp [hon, halign, hpc, hlo, hhi]
    show ∃ nw, execFetchReturn c k line s = _
    unfold execFetchReturn
    rw [onDev_eq]
    dsimp only
    rw [hl]
    dsimp only
    rw [hwanted, eccRead_clean hclean, if_neg Bool.false_ne_true]
    dsimp only
    split
    · exact ⟨s.dev.now, rfl⟩
    · exact ⟨_, rfl⟩
  obtain ⟨nw, hexec⟩ := htaken
  have hstrand : ∀ j, Dev.strand { s.dev.takeText c k line.toNat with now := nw } c j = if c = c ∧ j = k then
      (s.dev.strand c k).takeLine line.toNat (s.dev.rdMem line.toNat 64) else s.dev.strand c j :=
    fun j => strand_updStrand s.dev c c k j _
  have hsame := (hstrand k).trans (if_pos ⟨rfl, rfl⟩)
  refine ⟨_, hexec, fun i hi => ?_, ?_, fun q => ?_, ?_, fun a => rfl⟩
  · rw [hsame]
    exact takeLine_words _ s.dev hi
  · rw [hsame]
    rfl
  · rw [hsame]
    rfl
  · rw [hstrand, if_neg fun h => otherStrand_ne k h.2]

end Sys2Proof.Machine
end

section
/-!
PROOFS. A fault of a running last: its strands stop, its queued operations leave, and the fault is recorded (R82, R159, R160).
-/

namespace Sys2Proof.Machine

/-- `e` has the operations, lasts, memory and strands of `d`. -/
structure Dev.Beside (d e : Dev) : Prop where
  ops : e.ops = d.ops
  lasts : e.lasts = d.lasts
  byte : ∀ a, e.byte a = d.byte a
  strand : ∀ c k, e.strand c k = d.strand c k

section
variable {d e f : Dev}

theorem Dev.Beside.refl (d : Dev) : d.Beside d := ⟨rfl, rfl, fun _ => rfl, fun _ _ => rfl⟩

theorem Dev.Beside.trans (h : d.Beside e) (g : e.Beside f) : d.Beside f :=
  ⟨g.ops.trans h.ops, g.lasts.trans h.lasts, fun a => (g.byte a).trans (h.byte a), fun c k => (g.strand c k).trans (h.strand c k)⟩

theorem Dev.Beside.foldl {α : Type} {g : Dev → α → Dev} (hg : ∀ (e : Dev) x, e.Beside (g e x)) (l : List α) : d.Beside (l.foldl g d) :=
  List.foldlRecOn (motive := fun e => d.Beside e) l g (.refl d) fun e he x _ => he.trans (hg e x)

theorem beside_updCore (d : Dev) (c : CoreId) {g : Core → Core} (hg : ∀ x, (g x).strands = x.strands) : d.Beside (d.updCore c g) :=
  ⟨rfl, rfl, fun _ => rfl, fun _ _ => strand_updCore _ _ _ _ _ hg⟩

/-- Hods let go of commands that left their queues. -/
theorem beside_unheld (d : Dev) (gone : List Op) : d.Beside (d.unheld gone) := by
  unfold Dev.unheld
  refine .foldl ?_ _
  exact fun e x => beside_updCore e _ fun _ => rfl

theorem beside_ksBreak (d : Dev) (k : KeyId) (but : Option LinkId) : d.Beside (d.ksBreak k but) := ⟨rfl, rfl, fun _ => rfl, fun _ _ => rfl⟩

end

/-! The strands of a last halt. -/

theorem halted_st (t : Strand) : t.halted.st =
    if t.st = .running ∨ t.st = .trapped ∨ t.st = .halting ∨ t.st = .paused then .stopped else t.st := by
  unfold Strand.halted
  cases t.st <;> rfl

theorem halted_halted_st (t : Strand) : t.halted.halted.st = t.halted.st := by
  simp only [halted_st]
  cases t.st <;> simp

def Dev.haltStrands (d : Dev) (xs : List (CoreId × StrandId)) : Dev := xs.foldl (fun d x => d.updStrand x.1 x.2 Strand.halted) d

theorem haltStrands_rest (d : Dev) (xs : List (CoreId × StrandId)) : ∃ cs, d.haltStrands xs = { d with cores := cs } :=
  foldl_cores (fun _ _ => ⟨_, rfl⟩) xs d

theorem haltStrands_st (d : Dev) (xs : List (CoreId × StrandId)) (c : CoreId) (k : StrandId) :
    ((d.haltStrands xs).strand c k).st = if (c, k) ∈ xs then (d.strand c k).halted.st else (d.strand c k).st := by
  induction xs generalizing d with
  | nil => rfl
  | cons x xs ih =>
    have hstep := ih (d.updStrand x.1 x.2 Strand.halted)
    have hstrand := strand_updStrand d x.1 c x.2 k Strand.halted
    by_cases hx : c = x.1 ∧ k = x.2
    · obtain ⟨rfl, rfl⟩ := hx
      rw [if_pos ⟨rfl, rfl⟩] at hstrand
      rw [hstrand, halted_halted_st, ite_self] at hstep
      rw [if_pos List.mem_cons_self]
      exact hstep
    · rw [if_neg hx] at hstrand
      rw [hstrand] at hstep
      have hmem : (c, k) ∈ x :: xs ↔ (c, k) ∈ xs := by
        rw [List.mem_cons, or_iff_right]
        rintro rfl
        exact hx ⟨rfl, rfl⟩
      simp only [hmem]
      exact hstep

theorem mem_strandsOf (d : Dev) (l : LastId) (c : CoreId) (k : StrandId) : (c, k) ∈ d.strandsOf l ↔ d.strandLast c k = some l := by
  simp [Dev.strandsOf, allCores, allStrands]

/-! Operations of the last leave. -/

/-- The operation leaves at a fault of last `l`: it waits outside the arrays, or a pause stopped it (R159 step 3). -/
def Op.dropped (x : Op) (l : LastId) : Bool := x.last == l && ((x.phase == .queued && !x.isArr) || x.phase == .stopped)

theorem dropQueued_eq (d : Dev) (l : LastId) : ∃ nw, Dev.Beside { d with ops := d.ops.filter fun x => !x.dropped l, now := nw } (d.dropQueued l) :=
  ⟨_, beside_unheld ..⟩

/-! The whole fault. -/

/-- Steps 1 to 5 of R159, before the fault is recorded. -/
def Dev.faultStops (d : Dev) (l : LastId) : Dev :=
  let d := d.haltStrands (d.strandsOf l)
  let d := { d with now := { d.now with drains := d.now.drains ++ (d.halvesOf l).map fun h => (l, h) } }
  let d := d.dropQueued l
  let d := (allCores.filter fun c => (d.core c).sds.toList.any fun s => s.active.isSome).foldl (fun d c => d.updCore c fun x => x.endRuns l) d
  ((List.finRange 64).filter fun k => bitOf (d.ksCfg k) 3 && fld (d.ksCfg k) 0 3 == l.val && (d.key k).st != 3).foldl
    (fun d k => d.ksBreak k none) d

theorem faultStops_eq (d : Dev) (l : LastId) : ∃ nw, Dev.Beside
    { d.haltStrands (d.strandsOf l) with ops := (d.haltStrands (d.strandsOf l)).ops.filter (fun x => !x.dropped l), now := nw }
    (d.faultStops l) := by
  unfold Dev.faultStops
  dsimp only
  generalize d.haltStrands (d.strandsOf l) = e
  obtain ⟨nw, hdrop⟩ := dropQueued_eq { e with now := { e.now with drains := e.now.drains ++ (e.halvesOf l).map (fun h => (l, h)) } } l
  refine ⟨nw, hdrop.trans (.trans ?_ (.foldl ?_ _))⟩
  · refine .foldl ?_ _
    exact fun e c => beside_updCore e c fun _ => rfl
  · exact fun e k => beside_ksBreak e k none

/-- A fault of a running last (R159, R160). -/
theorem fault_running {d : Dev} {o : Origin} (cause : Nat) (detail : Word) (h : (d.last o.last).st = .running) :
    ∃ nw ao, d.fault cause o detail = { ((d.faultStops o.last).recordFault cause o detail 0).updLast o.last (fun x =>
      { x with st := .stopped, pendingLaunch := none }) with now := nw, aoc := ao } := by
  unfold Dev.fault Dev.faultInfo
  rw [if_neg (by rw [h]; decide), if_pos (by rw [h]; rfl)]
  exact ⟨_, _, rfl⟩

/-! The record. -/

section
variable (d : Dev) (cause : Nat) (o : Origin) (detail : Word) (extra : Nat)

theorem recordFault_eq : ∃ rg, d.recordFault cause o detail extra = { d with regs := rg } := ⟨_, rfl⟩

theorem aLstFlt_ne {l : LastId} {v w : Nat} (h : v ≠ w) : aLstFlt l v ≠ aLstFlt l w := by
  unfold aLstFlt aLst regAddr
  omega

theorem recordFault_reg : (d.recordFault cause o detail extra).reg (aLstFlt o.last 3) = detail ∧
    (d.recordFault cause o detail extra).reg (aLstFlt o.last 2) = o.insn ∧
    (d.recordFault cause o detail extra).reg (aLstFlt o.last 1) = o.pc.setWidth 64 ∧
    (d.recordFault cause o detail extra).reg (aLstFlt o.last 0) =
      mkWord [(0, cause), (8, o.core.val), (15, o.strand.val), (16, min 0xFFFF extra)] := by
  unfold Dev.recordFault
  refine ⟨?_, ?_, ?_, ?_⟩ <;>
    simp only [reg_setReg_same, reg_setReg_other, aLstFlt_ne, ne_eq, OfNat.zero_ne_ofNat, OfNat.one_ne_ofNat,
      zero_ne_one, not_false_eq_true, Nat.reduceEqDiff]

end

/-- The fields of a fault's first word (Table 6.23). -/
theorem fld_faultWord {cause core strand : Nat} (hcause : cause < 256) (hcore : core < 128) (hstrand : strand < 2) :
    let w := mkWord [(0, cause), (8, core), (15, strand), (16, min 0xFFFF 0)]
    fld w 0 8 = cause ∧ fld w 8 7 = core ∧ fld w 15 1 = strand := by
  dsimp only
  have hw : (mkWord [(0, cause), (8, core), (15, strand), (16, min 0xFFFF 0)]).toNat = cause + core * 256 + strand * 32768 := by
    simp only [mkWord, List.foldl_cons, List.foldl_nil, BitVec.toNat_ofNat]
    omega
  simp only [fld, hw]
  omega

/-- Settles O22: what follows the stop of the strands and the removal of the operations leaves both. -/
theorem faultStopsLast : Obligations.FaultStopsLast := by
  unfold Obligations.FaultStopsLast
  intro s cause o detail hcause hrunning
  obtain ⟨nw, ao, hfault⟩ := fault_running cause detail hrunning
  obtain ⟨nw', hstops⟩ := faultStops_eq s.dev o.last
  obtain ⟨cs, hhalts⟩ := haltStrands_rest s.dev (s.dev.strandsOf o.last)
  obtain ⟨rg, hrecord⟩ := recordFault_eq (s.dev.faultStops o.last) cause o detail 0
  obtain ⟨hdetail, hinsn, hpc, hword⟩ := recordFault_reg (s.dev.faultStops o.last) cause o detail 0
  have hlasts : ((s.dev.faultStops o.last).recordFault cause o detail 0).lasts = s.dev.lasts := by
    rw [hrecord]
    exact hstops.lasts.trans (by rw [hhalts])
  have hlast : ∀ l, (s.dev.fault cause o detail).last l = if l = o.last then { s.dev.last o.last with st := .stopped, pendingLaunch := none }
      else s.dev.last l := fun l => by
    rw [hfault]
    refine (last_updLast _ o.last l _).trans ?_
    simp only [Dev.last, hlasts]
  have hreg : ∀ x, (s.dev.fault cause o detail).reg x = ((s.dev.faultStops o.last).recordFault cause o detail 0).reg x := fun x => by
    rw [hfault]; rfl
  dsimp only
  refine ⟨?_, fun l hl => ?_, fun a => ?_, fun c k => ?_, fun p hp hl => ?_, ?_⟩
  · rw [hlast, if_pos rfl]
  · rw [hlast, if_neg hl]
  · rw [hfault, hrecord]
    exact (hstops.byte a).trans (by rw [hhalts]; rfl)
  · have hst : ((s.dev.fault cause o detail).strand c k).st = ((s.dev.haltStrands (s.dev.strandsOf o.last)).strand c k).st := by
      rw [hfault, hrecord]
      exact congrArg Strand.st (hstops.strand c k)
    rw [hst, haltStrands_st]
    simp only [mem_strandsOf, halted_st]
    split <;> simp [*]
  · have hops : (s.dev.fault cause o detail).ops = s.dev.ops.filter fun x => !x.dropped o.last := by
      rw [hfault, hrecord]
      exact hstops.ops.trans (by rw [hhalts])
    rw [hops, List.mem_filter] at hp
    obtain ⟨-, hkept⟩ := hp
    simp only [Op.dropped, hl, beq_self_eq_true, Bool.true_and, Bool.not_eq_true', Bool.or_eq_false_iff, Bool.and_eq_false_iff,
      beq_eq_false_iff_ne, Bool.not_eq_false'] at hkept
    exact ⟨hkept.2, fun hqueued => hkept.1.resolve_left (· hqueued)⟩
  · simp only [Dev.regFld, hreg]
    rw [hword]
    exact ⟨hpc, hinsn, hdetail, fld_faultWord hcause o.core.isLt o.strand.isLt⟩

end Sys2Proof.Machine
end

section
/-!
PROOFS. Tile stealing: the turn of a thief array, and a round of them (R165, R167, R168).
-/

namespace Sys2Proof.Machine

/-! A group moves. -/

/-- The operations of `d` once group `g` of core `v` has moved to tiles `new` of array `a` of core `c`: the operations of the victim's tiles
no longer count in their dispatched class, and the group's stand last (R168). -/
def Dev.movedOps (d : Dev) (v : CoreId) (va : ArrayId) (g : Nat × StrandId) (c : CoreId) (a : ArrayId) (tiles new : List TileId) : List Op :=
  ((d.ops.map fun (o : Op) =>
    if o.ecore == v && o.earray == va && o.tiles.any (fun t => tiles.contains t) then { o with noCls := true } else o).filter
      fun (o : Op) => !((d.groupOps v g).any fun (x : Op) => x.id == o.id)) ++
  (d.groupOps v g).map fun (o : Op) => { o with
    ecore := c, earray := a, tiles := new.take o.tiles.length, group := some (g.1, false), began := d.cycle }

theorem moveGroup_eq {d e : Dev} {v c : CoreId} {va a : ArrayId} {g : Nat × StrandId} {l : LastId} (h : d.moveGroup v va g c a l = some e) :
    ∃ tiles new rg nw, e = { d with ops := d.movedOps v va g c a tiles new, regs := rg, now := nw } := by
  unfold Dev.moveGroup at h
  dsimp only at h
  split at h
  case isTrue => exact nomatch h
  split at h
  case h_1 => exact nomatch h
  rename_i new _
  obtain rfl := Option.some.inj h
  obtain ⟨rg, nw, hfirst⟩ := count_eq _ (aCnt v 0) 57 1
  obtain ⟨rg', nw', hsecond⟩ := count_eq _ (aCnt c 0) 58 1
  unfold Dev.cnt
  rw [hsecond, hfirst]
  exact ⟨_, new, rg', nw', rfl⟩

section
variable {d : Dev} {v c : CoreId} {va a : ArrayId} {g : Nat × StrandId} {tiles new : List TileId}

theorem mem_movedOps_of_mem_groupOps {o : Op} (h : o ∈ d.groupOps v g) :
    { o with ecore := c, earray := a, tiles := new.take o.tiles.length, group := some (g.1, false), began := d.cycle } ∈
      d.movedOps v va g c a tiles new :=
  List.mem_append_right _ (List.mem_map.mpr ⟨o, h, rfl⟩)

theorem mem_movedOps_of_not_group {o : Op} (h : o ∈ d.ops) (hother : ∀ p ∈ d.groupOps v g, p.id ≠ o.id) :
    ∃ b, { o with noCls := b } ∈ d.movedOps v va g c a tiles new := by
  have hmark : ∀ b, (!((d.groupOps v g).any fun (x : Op) => x.id == ({ o with noCls := b } : Op).id)) = true := fun b => by
    simpa using hother
  by_cases hvictim : (o.ecore == v && o.earray == va && o.tiles.any (fun t => tiles.contains t)) = true
  · exact ⟨true, List.mem_append_left _ (List.mem_filter.mpr ⟨List.mem_map.mpr ⟨o, h, if_pos hvictim⟩, hmark true⟩)⟩
  · exact ⟨o.noCls, List.mem_append_left _ (List.mem_filter.mpr ⟨List.mem_map.mpr ⟨o, h, if_neg hvictim⟩, hmark o.noCls⟩)⟩

end

/-! What a round keeps. -/

/-- Operation `o` is `p`, where it was or moved to a core of the die in cycle `n` and no longer movable. -/
def Op.MovedFrom (o p : Op) (die : DieId) (n : Nat) : Prop :=
  ∃ e a ts gr b m, o = { p with ecore := e, earray := a, tiles := ts, group := gr, began := b, noCls := m } ∧
    ((e = p.ecore ∧ a = p.earray ∧ ts = p.tiles ∧ gr = p.group ∧ b = p.began) ∨ (dieOf e = die ∧ b = n ∧ ∃ i, gr = some (i, false)))

theorem Op.MovedFrom.refl (p : Op) (die : DieId) (n : Nat) : p.MovedFrom p die n :=
  ⟨p.ecore, p.earray, p.tiles, p.group, p.began, p.noCls, rfl, .inl ⟨rfl, rfl, rfl, rfl, rfl⟩⟩

theorem Op.MovedFrom.trans {o q p : Op} {die : DieId} {n : Nat} (h : q.MovedFrom p die n) (h' : o.MovedFrom q die n) : o.MovedFrom p die n := by
  obtain ⟨e, a, ts, gr, b, m, rfl, hq⟩ := h
  obtain ⟨e', a', ts', gr', b', m', rfl, ho⟩ := h'
  refine ⟨e', a', ts', gr', b', m', rfl, ?_⟩
  rcases ho with ⟨rfl, rfl, rfl, rfl, rfl⟩ | hmoved
  · exact hq
  · exact .inr hmoved

/-- `e` has what `d` has but for operations that moved within the die, and counts and notes. -/
structure Dev.StolenTo (die : DieId) (d e : Dev) : Prop where
  rest : ∃ os rg nw, e = { d with ops := os, regs := rg, now := nw }
  kept : ∀ p ∈ d.ops, ∃ o ∈ e.ops, o.id = p.id
  old : ∀ o ∈ e.ops, ∃ p ∈ d.ops, o.MovedFrom p die d.cycle

theorem Dev.StolenTo.refl (die : DieId) (d : Dev) : d.StolenTo die d :=
  ⟨⟨d.ops, d.regs, d.now, rfl⟩, fun p hp => ⟨p, hp, rfl⟩, fun o ho => ⟨o, ho, .refl ..⟩⟩

theorem Dev.StolenTo.trans {die : DieId} {d e f : Dev} (h : d.StolenTo die e) (g : e.StolenTo die f) : d.StolenTo die f := by
  obtain ⟨os, rg, nw, he⟩ := h.rest
  obtain ⟨os', rg', nw', hf⟩ := g.rest
  have hcycle : e.cycle = d.cycle := by rw [he]
  refine ⟨⟨os', rg', nw', by rw [hf, he]⟩, fun p hp => ?_, fun o ho => ?_⟩
  · obtain ⟨q, hq, hid⟩ := h.kept p hp
    obtain ⟨o, ho, hid'⟩ := g.kept q hq
    exact ⟨o, ho, hid'.trans hid⟩
  · obtain ⟨q, hq, hfrom⟩ := g.old o ho
    obtain ⟨p, hp, hfrom'⟩ := h.old q hq
    exact ⟨p, hp, hfrom'.trans (hcycle ▸ hfrom)⟩

theorem Dev.StolenTo.foldl {die : DieId} {α : Type} {g : Dev → α → Dev} {l : List α} (hg : ∀ (e : Dev), ∀ x ∈ l, e.StolenTo die (g e x)) (d : Dev) :
    d.StolenTo die (l.foldl g d) :=
  List.foldlRecOn (motive := fun e => d.StolenTo die e) l g (.refl die d) fun e he x hx => he.trans (hg e x hx)

theorem moveGroup_stolen {d e : Dev} {v c : CoreId} {va a : ArrayId} {g : Nat × StrandId} {l : LastId}
    (h : d.moveGroup v va g c a l = some e) : d.StolenTo (dieOf c) e := by
  obtain ⟨tiles, new, rg, nw, rfl⟩ := moveGroup_eq h
  refine ⟨⟨_, _, _, rfl⟩, fun p hp => ?_, fun o ho => ?_⟩
  · by_cases hgroup : ∃ x ∈ d.groupOps v g, x.id = p.id
    · obtain ⟨x, hx, hid⟩ := hgroup
      exact ⟨_, mem_movedOps_of_mem_groupOps hx, hid⟩
    · obtain ⟨b, hb⟩ := mem_movedOps_of_not_group (va := va) (c := c) (a := a) (tiles := tiles) (new := new) hp
        fun x hx hid => hgroup ⟨x, hx, hid⟩
      exact ⟨_, hb, rfl⟩
  · rcases List.mem_append.mp ho with hstays | hmoves
    · obtain ⟨p, hp, rfl⟩ := List.mem_map.mp (List.mem_filter.mp hstays).1
      refine ⟨p, hp, ?_⟩
      split
      · exact ⟨_, _, _, _, _, true, rfl, .inl ⟨rfl, rfl, rfl, rfl, rfl⟩⟩
      · exact .refl ..
    · obtain ⟨p, hp, rfl⟩ := List.mem_map.mp hmoves
      exact ⟨p, List.mem_of_mem_filter hp, _, _, _, _, _, _, rfl, .inr ⟨rfl, rfl, g.1, rfl⟩⟩

/-- A thief's turn moves one group to it, or nothing (R167). -/
theorem stealFor_cases (d : Dev) (die : DieId) (c : CoreId) (a : ArrayId) :
    d.stealFor die c a = d ∨ ∃ v va g l, d.moveGroup v va g c a l = some (d.stealFor die c a) := by
  unfold Dev.stealFor
  split
  case h_1 => exact .inl rfl
  rename_i l _
  dsimp only
  split
  case h_1 => exact .inl rfl
  rename_i v _
  split
  case h_1 => exact .inl rfl
  generalize List.foldl _ _ _ = g
  cases hmove : d.moveGroup v g.1 g.2 c a l with
  | none => exact .inl rfl
  | some e => exact .inr ⟨v, g.1, g.2, l, hmove⟩

theorem stealFor_stolen (d : Dev) (c : CoreId) (a : ArrayId) : d.StolenTo (dieOf c) (d.stealFor (dieOf c) c a) := by
  rcases stealFor_cases d (dieOf c) c a with h | ⟨v, va, g, l, h⟩
  · rw [h]
    exact .refl ..
  · exact moveGroup_stolen h

theorem stealFor_of_no_thief {d : Dev} {die : DieId} {c : CoreId} {a : ArrayId} (h : d.thiefFor c a = none) : d.stealFor die c a = d := by
  unfold Dev.stealFor
  rw [h]

/-- The turns of the arrays of a core. -/
def Dev.coreTurns (d : Dev) (die : DieId) (c : CoreId) : Dev := allArrays.foldl (fun (d : Dev) a => d.stealFor die c a) d

/-- The turns of a round (R167). -/
def Dev.stealRound (d : Dev) (die : DieId) : Dev := (allCores.filter fun c => dieOf c == die).foldl (fun (d : Dev) c => d.coreTurns die c) d

theorem stealRound_stolen (d : Dev) (die : DieId) : d.StolenTo die (d.stealRound die) := by
  refine .foldl (fun e c hc => ?_) d
  obtain rfl : dieOf c = die := by simpa using (List.mem_filter.mp hc).2
  exact .foldl (fun f a _ => stealFor_stolen f c a) e

/-- Where one element alone has an effect, before and after its turn, the turns of all are its own. -/
theorem foldl_eq_one {α β : Type} {g : β → α → β} {x : α} {l : List α} (hl : l.Nodup) (hx : x ∈ l) {b : β}
    (hbefore : ∀ y ∈ l, y ≠ x → g b y = b) (hafter : ∀ y ∈ l, y ≠ x → g (g b x) y = g b x) : l.foldl g b = g b x := by
  induction l with
  | nil => exact absurd hx List.not_mem_nil
  | cons y t ih =>
    obtain ⟨hy, ht⟩ := List.nodup_cons.mp hl
    rw [List.foldl_cons]
    by_cases hyx : y = x
    · subst hyx
      refine List.foldlRecOn (motive := fun z => z = g b y) t g rfl fun z hz w hw => ?_
      rw [hz]
      exact hafter w (List.mem_cons_of_mem _ hw) fun h => hy (h ▸ hw)
    · rw [hbefore y List.mem_cons_self hyx]
      exact ih ht ((List.mem_cons.mp hx).resolve_left (Ne.symm hyx)) (fun w hw => hbefore w (List.mem_cons_of_mem _ hw))
        fun w hw => hafter w (List.mem_cons_of_mem _ hw)

/-- With no other thief, before and after its turn, the round is the thief's turn. -/
theorem stealRound_of_one_thief {d : Dev} {die : DieId} {c : CoreId} {a : ArrayId} (hc : dieOf c = die)
    (hothers : ∀ c' a', dieOf c' = die → (c' ≠ c ∨ a' ≠ a) →
      d.thiefFor c' a' = none ∧ (d.stealFor die c a).thiefFor c' a' = none) : d.stealRound die = d.stealFor die c a := by
  have hown : d.coreTurns die c = d.stealFor die c a :=
    foldl_eq_one (g := fun (d : Dev) a => d.stealFor die c a) (List.nodup_finRange 4) (List.mem_finRange a)
      (fun y _ hy => stealFor_of_no_thief (hothers c y hc (.inr hy)).1) fun y _ hy => stealFor_of_no_thief (hothers c y hc (.inr hy)).2
  have hmem : ∀ y ∈ allCores.filter (fun c => dieOf c == die), dieOf y = die := fun y hy => by simpa using (List.mem_filter.mp hy).2
  rw [← hown]
  refine foldl_eq_one (g := fun (d : Dev) c => d.coreTurns die c) ((List.nodup_finRange 128).filter _)
    (List.mem_filter.mpr ⟨List.mem_finRange c, by simpa using hc⟩) (fun y hy hne => ?_) fun y hy hne => ?_
  · exact List.foldl_fixed' (fun x => stealFor_of_no_thief (hothers y x (hmem y hy) (.inl hne)).1) _
  · rw [hown]
    exact List.foldl_fixed' (fun x => stealFor_of_no_thief (hothers y x (hmem y hy) (.inl hne)).2) _

/-- Settles O60: each turn keeps all but the places of one group, and an array that is no thief does nothing. -/
theorem stealingMovesGroups : Obligations.StealingMovesGroups := by
  unfold Obligations.StealingMovesGroups
  intro s die
  have hexec : exec (.stealRound die) s = .next { s with dev := s.dev.stealRound die } := rfl
  refine ⟨⟨_, hexec, rfl, ?_⟩, fun c a hc hothers => ⟨_, hexec, ?_⟩, fun v c va a g l d hmove => ?_⟩
  · have hstolen := stealRound_stolen s.dev die
    obtain ⟨os, rg, nw, hrest⟩ := hstolen.rest
    refine ⟨by rw [hrest], by rw [hrest], fun c k => by rw [hrest]; rfl, hstolen.kept, hstolen.old⟩
  · rw [stealRound_of_one_thief hc hothers]
  · obtain ⟨tiles, new, rg, nw, rfl⟩ := moveGroup_eq hmove
    exact ⟨fun o ho => ⟨_, mem_movedOps_of_mem_groupOps ho, rfl, rfl, rfl, rfl⟩, fun o ho hother => mem_movedOps_of_not_group ho hother⟩

end Sys2Proof.Machine
end

section
/-!
PROOFS. Writes of tallies, max-abs slots, assignments and plain registers (R10, R36, R140, R151, Table 6.17), and what a field of a word
reads once it, or another field, is set.
-/

namespace Sys2Proof.Machine

/-! Fields of a word (R9). -/

theorem testBit_fld (w : Word) (lo len i : Nat) : (fld w lo len).testBit i = (decide (i < len) && w.getLsbD (lo + i)) := by
  simp [fld, Nat.testBit_mod_two_pow, Nat.testBit_div_two_pow, BitVec.getLsbD, Nat.add_comm]

theorem getLsbD_setFld (w : Word) {lo len : Nat} (h : lo + len ≤ 64) (v i : Nat) :
    (setFld w lo len v).getLsbD i = if lo ≤ i ∧ i < lo + len then v.testBit (i - lo) else w.getLsbD i := by
  by_cases h64 : i < 64
  · simp only [setFld, BitVec.getLsbD_or, BitVec.getLsbD_and, BitVec.getLsbD_not, BitVec.getLsbD_ofNat, Nat.testBit_mul_two_pow,
      Nat.testBit_mod_two_pow, Nat.testBit_two_pow_sub_one, h64]
    by_cases hlo : lo ≤ i <;> by_cases hhi : i < lo + len <;> simp [hlo, hhi, Nat.sub_lt_iff_lt_add, Nat.add_comm]
  · rw [BitVec.getLsbD_of_ge _ _ (by omega), BitVec.getLsbD_of_ge _ _ (by omega), if_neg (by omega)]

theorem fld_setFld_same (w : Word) {lo len : Nat} (h : lo + len ≤ 64) (x : Word) (at_ : Nat) :
    fld (setFld w lo len (fld x at_ len)) lo len = fld x at_ len := by
  refine Nat.eq_of_testBit_eq fun i => ?_
  rw [testBit_fld, getLsbD_setFld w h, testBit_fld]
  by_cases hi : i < len <;> simp [hi, testBit_fld]

theorem fld_setFld_other (w : Word) {lo len lo' len' : Nat} (h : lo + len ≤ 64) (hapart : lo' + len' ≤ lo ∨ lo + len ≤ lo') (v : Nat) :
    fld (setFld w lo len v) lo' len' = fld w lo' len' := by
  refine Nat.eq_of_testBit_eq fun i => ?_
  rw [testBit_fld, getLsbD_setFld w h, testBit_fld]
  by_cases hi : i < len'
  · rw [if_neg (by omega)]
  · simp [hi]

/-- A field of the written part of a plain register. -/
theorem fld_masked (old v : Word) {mask : Word} {lo len : Nat} (h : ∀ i, lo ≤ i → i < lo + len → mask.getLsbD i = true)
    (h64 : lo + len ≤ 64) : fld ((old &&& ~~~mask) ||| (v &&& mask)) lo len = fld v lo len := by
  refine Nat.eq_of_testBit_eq fun i => ?_
  rw [testBit_fld, testBit_fld]
  by_cases hi : i < len
  · have hbit := h (lo + i) (by omega) (by omega)
    rw [BitVec.getLsbD_eq_getElem (by omega)] at hbit
    simp [hbit, show lo + i < 64 by omega]
  · simp [hi]

theorem leNat_leBytes (n v : Nat) : leNat (leBytes n v) = v % 256 ^ n := by
  induction n generalizing v with
  | zero => simp [leBytes, leNat, Nat.mod_one]
  | succ n ih => simp [leBytes, leNat, ih, Nat.pow_succ', Nat.mod_mul]

theorem leNat_leBytes_word (v : Word) : BitVec.ofNat 64 (leNat (leBytes 8 v.toNat)) = v := by
  rw [leNat_leBytes, Nat.mod_eq_of_lt (show v.toNat < 256 ^ 8 from v.isLt)]
  exact BitVec.ofNat_toNat ..

/-! Tallies (R151). -/

section
variable {s : State} {c : CoreId}

theorem region_aDesc (c : CoreId) {o : Nat} (ho : o < 0x20000) : region (aDesc c o) = .desc c o := by
  have hc := c.isLt
  have hsub : (aDesc c o - 0x00A000000000) / 0x20000 = c.val := by unfold aDesc; omega
  have hmod : aDesc c o % 0x20000 = o := by unfold aDesc; omega
  have hlo : 0x00A000000000 ≤ aDesc c o := by unfold aDesc; omega
  have hhi : aDesc c o < 0x00A001000000 := by unfold aDesc; omega
  unfold region
  rw [if_neg (by omega), if_neg (by omega), if_neg (by simp; omega), if_pos (by simp; omega)]
  simp only [hsub, hmod, finOf_val]

theorem write8_desc (d : Dev) {a o : Nat} {c : CoreId} (v : Word) (h : region a = .desc c o) : d.write8 a v =
    if !d.coreOn c then (d, .bad 1)
    else if descAllowed o 8 then (d.descSet8 c o v, .ok [])
    else (d.refusedAccess a 8 true, .ok []) := by
  unfold Dev.write8
  rw [h]

theorem write8_aDesc (d : Dev) {o : Nat} (ho : o < 0x20000) (h8 : o % 8 = 0) (hon : d.coreOn c = true) (v : Word) :
    d.write8 (aDesc c o) v = (d.descSet8 c o v, .ok []) := by
  have hallowed : descAllowed o 8 = true := by simp [descAllowed, h8]
  rw [write8_desc d v (region_aDesc c ho), if_neg (by simp [hon]), if_pos hallowed]

/-- A write that updates tally `i` of core `c` alone. -/
theorem yields_of_updTally {i : Instr} {t : TallyId} {f : Tally → Tally} (h : exec i s = .next { s with dev := s.dev.updTally c t f }) :
    Yields i s fun u => (∃ cs, u = { s with dev := { s.dev with cores := cs } }) ∧
      (u.dev.core c).tallies.get t = f ((s.dev.core c).tallies.get t) ∧
      ∀ j, j ≠ t → (u.dev.core c).tallies.get j = (s.dev.core c).tallies.get j := by
  refine ⟨_, h, ⟨_, rfl⟩, ?_, fun j hj => ?_⟩
  · simp [Dev.updTally]
  · simp [Dev.updTally, vmap_get_other _ _ hj]

theorem exec_talValWrite (hon : s.dev.coreOn c = true) (i : TallyId) (v : Word) :
    exec (.talValWrite c i v) s = .next { s with dev := s.dev.updTally c i fun x => { x with val := some (fld v 0 16) } } := by
  have hi := i.isLt
  have hexec : exec (.talValWrite c i v) s = .next { s with dev := s.dev.wr8 (aDesc c (0x18000 + 8 * i.val)) v } := rfl
  rw [hexec, Dev.wr8, write8_aDesc s.dev (by omega) (by omega) hon]
  unfold Dev.descSet8
  rw [if_neg (by omega), if_neg (by omega), if_pos (by simp; omega), show (0x18000 + 8 * i.val - 0x18000) / 8 = i.val by omega, finOf_val]
  rfl

theorem exec_talAddWrite (hon : s.dev.coreOn c = true) (i : TallyId) (v : Word) :
    exec (.talAddWrite c i v) s =
      .next { s with dev := s.dev.updTally c i fun x => { x with inc := x.inc ++ [⟨fld v 0 16, none⟩] } } := by
  have hi := i.isLt
  have hexec : exec (.talAddWrite c i v) s = .next { s with dev := s.dev.wr8 (aDesc c (0x18200 + 8 * i.val)) v } := rfl
  rw [hexec, Dev.wr8, write8_aDesc s.dev (by omega) (by omega) hon]
  unfold Dev.descSet8
  rw [if_neg (by omega), if_neg (by omega), if_neg (by simp), if_pos (by simp; omega),
    show (0x18200 + 8 * i.val - 0x18200) / 8 = i.val by omega, finOf_val]
  rfl

/-! Max-abs slots (R36). -/

/-- What this cycle gathered in slot `n` of core `c`. -/
def Dev.gathered (d : Dev) (c : CoreId) (n : Fin 32) : MaxAbs :=
  (d.now.gath.filter fun g => g.1 == c.val && g.2.1 == n.val).foldl (fun a g => MaxAbs.join a g.2.2) MaxAbs.zero

theorem clearSlot_maxabs (d : Dev) (c : CoreId) (m n : Fin 32) : ((d.clearSlot c m).core c).maxabs.get n =
    if n = m then d.gathered c n else (d.core c).maxabs.get n := by
  unfold Dev.clearSlot
  simp only [core_updCore_same, vmap_get]
  split
  · subst_vars; rfl
  · rfl

theorem clearSlots_eq (d : Dev) (c : CoreId) (mask : Nat) : ∃ cs, d.clearSlots c mask = { d with cores := cs } := by
  unfold Dev.clearSlots
  refine foldl_cores (fun e n => ?_) _ _
  split
  · exact ⟨_, rfl⟩
  · exact ⟨_, rfl⟩

theorem clearSlots_maxabs (d : Dev) (c : CoreId) (mask : Nat) (n : Fin 32) : ((d.clearSlots c mask).core c).maxabs.get n =
    if mask.testBit n.val then d.gathered c n else (d.core c).maxabs.get n := by
  have hfold : ∀ (l : List (Fin 32)) (e : Dev),
      ((l.foldl (fun (e : Dev) m => if mask.testBit m.val then e.clearSlot c m else e) e).core c).maxabs.get n =
        if n ∈ l ∧ mask.testBit n.val = true then e.gathered c n else (e.core c).maxabs.get n := by
    intro l
    induction l with
    | nil => intro e; simp
    | cons m l ih =>
      intro e
      have hgath : (if mask.testBit m.val then e.clearSlot c m else e).gathered c n = e.gathered c n := by split <;> rfl
      rw [List.foldl_cons, ih, hgath]
      by_cases hm : mask.testBit m.val = true
      · rw [if_pos hm, clearSlot_maxabs]
        by_cases hn : n = m
        · subst hn; simp [hm]
        · simp [hn]
      · rw [if_neg hm]
        by_cases hn : n = m
        · subst hn; simp [hm]
        · simp [hn]
  unfold Dev.clearSlots
  rw [hfold]
  simp

theorem exec_fmtMaxabsClr (hon : s.dev.coreOn c = true) (v : Word) :
    exec (.fmtMaxabsClr c v) s = .next { s with dev := (s.dev.servePage (corePage c 1)).clearSlots c (fld v 0 32) } := by
  have hw := write8_corePage s.dev c (j := 1) (o := 0x300) (by decide) (by omega) (by omega) hon v
  have hexec : exec (.fmtMaxabsClr c v) s = .next { s with dev := s.dev.wr8 (aFmt c 0x300) v } := rfl
  have haddr : aFmt c 0x300 = regAddr (corePage c 1) 0x300 := rfl
  rw [hexec, Dev.wr8, haddr, hw]
  simp [Dev.wrCorePage]

theorem fmtMaxabsClr_clears (hon : s.dev.coreOn c = true) (v : Word) : Yields (.fmtMaxabsClr c v) s fun t =>
    (∃ cs ps, t = { s with dev := { s.dev with cores := cs, now := { s.dev.now with pages := ps } } }) ∧
      ∀ n : Fin 32, (t.dev.core c).maxabs.get n = if v.toNat.testBit n.val then s.dev.gathered c n
        else (s.dev.core c).maxabs.get n := by
  obtain ⟨ps, hps⟩ := servePage_eq s.dev (corePage c 1)
  refine ⟨_, exec_fmtMaxabsClr hon v, ?_, fun n => ?_⟩
  · obtain ⟨cs, hcs⟩ := clearSlots_eq (s.dev.servePage (corePage c 1)) c (fld v 0 32)
    exact ⟨cs, ps, by rw [hcs, hps]⟩
  · have hbit : (fld v 0 32).testBit n.val = v.toNat.testBit n.val := by rw [testBit_fld]; simp [BitVec.getLsbD]
    have hgath : (s.dev.servePage (corePage c 1)).gathered c n = s.dev.gathered c n := by rw [hps]; rfl
    have hcore : (s.dev.servePage (corePage c 1)).core c = s.dev.core c := by rw [hps]; rfl
    dsimp only
    rw [clearSlots_maxabs, hbit, hgath, hcore]

/-! Assignments (R140, Table 6.17). -/

theorem exec_patCtlWrite (hon : s.dev.coreOn c = true) (v : Word) :
    exec (.patCtlWrite c v) s = .next { s with dev := (s.dev.servePage (corePage c 4)).wrPatCtl c v } := by
  have hw := write8_corePage s.dev c (j := 4) (o := 0x100) (by decide) (by omega) (by omega) hon v
  have hexec : exec (.patCtlWrite c v) s = .next { s with dev := s.dev.wr8 (aPatCtl c) v } := rfl
  have haddr : aPatCtl c = regAddr (corePage c 4) 0x100 := rfl
  rw [hexec, Dev.wr8, haddr, hw]
  simp [Dev.wrCorePage]

theorem regInfo_aPatCtl (c : CoreId) : regInfo (aPatCtl c) = .plain 0xF := by
  have h := regInfo_corePage c (j := 4) (o := 0x100) (by decide) (by omega)
  rw [aPatCtl, aVec, h]
  rfl

/-- PAT_CTL keeps the assignment of the pattern engine in use (R140). -/
theorem patCtlWrite_guarded (hon : s.dev.coreOn c = true) (v : Word) :
    let hit := (∃ o ∈ s.dev.ops, o.core = c ∧ o.phase ≠ .stopped ∧ (o.opcode = 0x4A ∨ o.opcode = 0x4B ∨ o.opcode = 0x4C)) ∧
      fld v 0 4 ≠ fld (s.dev.reg (aPatCtl c)) 0 4
    (hit → Yields (.patCtlWrite c v) s fun t =>
      t.dev.regs = s.dev.regs ∧ Raised [0x8001] s t ∧ (∀ y, t.dev.byte y = s.dev.byte y) ∧ t.dev.cores = s.dev.cores) ∧
    (¬ hit → Yields (.patCtlWrite c v) s (WritesReg (aPatCtl c) ((s.dev.reg (aPatCtl c) &&& ~~~0xF) ||| (v &&& 0xF)) s)) := by
  refine yields_of_guardedWhole (exec_patCtlWrite hon v) (regInfo_aPatCtl c) ?_
  obtain ⟨ps, hps⟩ := servePage_eq s.dev (corePage c 4)
  have hops : (s.dev.servePage (corePage c 4)).ops = s.dev.ops := by rw [hps]
  simp [hops, and_assoc, or_assoc]

theorem exec_seqCtlWrite (hon : s.dev.coreOn c = true) (v : Word) :
    exec (.seqCtlWrite c v) s = .next { s with dev := (s.dev.servePage (corePage c 0)).wrSeqCtl c v } := by
  have hw := write8_corePage s.dev c (j := 0) (o := 0) (by decide) (by omega) (by omega) hon v
  have hexec : exec (.seqCtlWrite c v) s = .next { s with dev := s.dev.wr8 (aSeqCtl c) v } := rfl
  have haddr : aSeqCtl c = regAddr (corePage c 0) 0 := rfl
  rw [hexec, Dev.wr8, haddr, hw]
  simp [Dev.wrCorePage]

theorem regInfo_aSeqCtl (c : CoreId) : regInfo (aSeqCtl c) = .plain 0xFF := by
  have h := regInfo_corePage c (j := 0) (o := 0) (by decide) (by omega)
  rw [aSeqCtl, aSeq, h]
  rfl

/-- A strand to which SEQ_CTL may be reassigned. -/
def Dev.strandFree (d : Dev) (c : CoreId) (k : StrandId) : Bool := (d.strand c k).st == .idle || (d.strand c k).st == .done

/-- The fields of SEQ_CTL that a write of `v` keeps. -/
def Dev.seqKept (d : Dev) (c : CoreId) (v : Word) : List (Nat × Nat × Bool) :=
  [(0, 4, d.strandFree c 0), (4, 4, d.strandFree c 1)].filter fun f => !f.2.2 && fld v f.1 f.2.1 != fld (d.reg (aSeqCtl c)) f.1 f.2.1

/-- The value that SEQ_CTL takes: the fields kept hold what they held. -/
def Dev.seqValue (d : Dev) (c : CoreId) (v : Word) : Word :=
  (d.seqKept c v).foldl (fun (w : Word) f => setFld w f.1 f.2.1 (fld (d.reg (aSeqCtl c)) f.1 f.2.1)) v

theorem wrSeqCtl_eq (d : Dev) (c : CoreId) (v : Word) : d.wrSeqCtl c v =
    let e := d.setReg (aSeqCtl c) ((d.reg (aSeqCtl c) &&& ~~~0xFF) ||| (d.seqValue c v &&& 0xFF))
    if (d.seqKept c v).isEmpty then e else e.ignored (aSeqCtl c) v := by
  dsimp only
  rw [← swWrite_plain d (regInfo_aSeqCtl c)]
  rfl

theorem strandFree_of_busy {d : Dev} {k : StrandId} (hidle : (d.strand c k).st ≠ .idle) (hdone : (d.strand c k).st ≠ .done) :
    d.strandFree c k = false := by
  simp [Dev.strandFree, hidle, hdone]

theorem seqKept_of_free {d : Dev} (v : Word) (h : ∀ k, d.strandFree c k = true) : d.seqKept c v = [] := by
  simp [Dev.seqKept, h]

theorem mem_seqKept {d : Dev} {v : Word} {k : StrandId} (hbusy : d.strandFree c k = false)
    (hfld : fld v (4 * k.val) 4 ≠ fld (d.reg (aSeqCtl c)) (4 * k.val) 4) : (4 * k.val, 4, d.strandFree c k) ∈ d.seqKept c v := by
  refine List.mem_filter.mpr ⟨?_, by simpa [hbusy] using hfld⟩
  match k with
  | 0 => exact List.mem_cons_self
  | 1 => exact List.mem_cons_of_mem _ List.mem_cons_self

/-- A kept field holds what it held: the other field of the list stands apart from it. -/
theorem fld_seqValue {d : Dev} {v : Word} {k : StrandId} (hbusy : d.strandFree c k = false)
    (hfld : fld v (4 * k.val) 4 ≠ fld (d.reg (aSeqCtl c)) (4 * k.val) 4) :
    fld (d.seqValue c v) (4 * k.val) 4 = fld (d.reg (aSeqCtl c)) (4 * k.val) 4 := by
  have hsame := fun (w : Word) (lo : Nat) (h : lo + 4 ≤ 64) => fld_setFld_same w h (d.reg (aSeqCtl c)) lo
  have hapart := fun (w : Word) (x : Nat) => fld_setFld_other w (lo := 4) (len := 4) (lo' := 0) (len' := 4) (by decide) (by decide) x
  unfold Dev.seqValue Dev.seqKept
  match k with
  | 0 =>
    have hfield : fld v 0 4 ≠ fld (d.reg (aSeqCtl c)) 0 4 := hfld
    rw [List.filter_cons_of_pos (by simpa [hbusy] using hfield)]
    by_cases hother : (!d.strandFree c 1 && fld v 4 4 != fld (d.reg (aSeqCtl c)) 4 4) = true
    · rw [List.filter_cons_of_pos (by simpa using hother)]
      exact (hapart ..).trans (hsame _ 0 (by decide))
    · rw [List.filter_cons_of_neg (by simpa using hother)]
      exact hsame _ 0 (by decide)
  | 1 =>
    have hfield : fld v 4 4 ≠ fld (d.reg (aSeqCtl c)) 4 4 := hfld
    have hone : ([(4, 4, d.strandFree c 1)].filter fun f => !f.2.2 && fld v f.1 f.2.1 != fld (d.reg (aSeqCtl c)) f.1 f.2.1) =
        [(4, 4, d.strandFree c 1)] := List.filter_eq_self.mpr (by simpa [hbusy] using hfield)
    rw [List.filter_cons, hone]
    split
    · exact hsame _ 4 (by decide)
    · exact hsame _ 4 (by decide)

theorem strandFree_servePage (d : Dev) (g : Nat) (c : CoreId) (k : StrandId) : (d.servePage g).strandFree c k = d.strandFree c k := by
  obtain ⟨ps, hps⟩ := servePage_eq d g
  rw [hps]; rfl

theorem reg_servePage (d : Dev) (g a : Nat) : (d.servePage g).reg a = d.reg a := by
  obtain ⟨ps, hps⟩ := servePage_eq d g
  rw [hps]; rfl

theorem seqCtlWrite_of_free (hon : s.dev.coreOn c = true) (v : Word)
    (h : ∀ k, (s.dev.strand c k).st = .idle ∨ (s.dev.strand c k).st = .done) :
    Yields (.seqCtlWrite c v) s (WritesReg (aSeqCtl c) ((s.dev.reg (aSeqCtl c) &&& ~~~0xFF) ||| (v &&& 0xFF)) s) := by
  obtain ⟨ps, hps⟩ := servePage_eq s.dev (corePage c 0)
  have hkept : (s.dev.servePage (corePage c 0)).seqKept c v = [] := seqKept_of_free v fun k => by
    rw [strandFree_servePage]
    simpa [Dev.strandFree] using h k
  refine ⟨_, exec_seqCtlWrite hon v, ?_⟩
  rw [wrSeqCtl_eq]
  simp only [Dev.seqValue, hkept, List.isEmpty_nil, if_true, List.foldl_nil, reg_servePage]
  exact writesReg_setReg hps _

theorem seqCtlWrite_of_busy (hon : s.dev.coreOn c = true) {v : Word} {k : StrandId} (hidle : (s.dev.strand c k).st ≠ .idle)
    (hdone : (s.dev.strand c k).st ≠ .done) (hfld : fld v (4 * k.val) 4 ≠ fld (s.dev.reg (aSeqCtl c)) (4 * k.val) 4) :
    Yields (.seqCtlWrite c v) s fun t =>
      fld (t.dev.reg (aSeqCtl c)) (4 * k.val) 4 = fld (s.dev.reg (aSeqCtl c)) (4 * k.val) 4 ∧ Raised [0x8001] s t := by
  obtain ⟨ps, hps⟩ := servePage_eq s.dev (corePage c 0)
  have hbusy : (s.dev.servePage (corePage c 0)).strandFree c k = false := by
    rw [strandFree_servePage]
    exact strandFree_of_busy hidle hdone
  rw [← reg_servePage s.dev (corePage c 0)] at hfld ⊢
  have hsome : ((s.dev.servePage (corePage c 0)).seqKept c v).isEmpty = false :=
    List.isEmpty_eq_false_iff.mpr (List.ne_nil_of_mem (mem_seqKept hbusy hfld))
  have hmask : ∀ i, 4 * k.val ≤ i → i < 4 * k.val + 4 → (0xFF : Word).getLsbD i = true := by
    intro i _ hi
    have hlt : i < 8 := by omega
    interval_cases i <;> rfl
  refine ⟨_, exec_seqCtlWrite hon v, ?_, ?_⟩
  · rw [wrSeqCtl_eq]
    simp only [hsome, Bool.false_eq_true, if_false]
    have hreg : ∀ (e : Dev) w, ((e.setReg (aSeqCtl c) w).ignored (aSeqCtl c) v).reg (aSeqCtl c) = w := fun e w => reg_setReg_same (d := e) w
    rw [hreg, fld_masked _ _ hmask (by omega), fld_seqValue hbusy hfld]
  · rw [wrSeqCtl_eq]
    simp only [hsome, Bool.false_eq_true, if_false]
    simp [Raised, Dev.ignored, event_eq, Dev.updRcd, Dev.updAoc, Dev.setReg, hps]

/-! Plain and read-only registers of page 0 (R10). -/

theorem swWrite_ro (d : Dev) {x : Nat} {reset : Word} (h : regInfo x = .ro reset) (v : Word) : d.swWrite x v = d.setReg x (d.reg x) := by
  have hnone : (d.now.sets.find? fun _ => false) = none := List.find?_eq_none.mpr (by simp)
  have hones : ∀ w : Word, w &&& 18446744073709551615#64 = w := fun w => BitVec.and_allOnes
  unfold Dev.swWrite
  rw [h]
  simp only [List.find?_filter]
  simp [RegInfo.ro, hnone, hones]

/-- A register of page 0, whose writes have no effect but on the register. -/
theorem exec_registerWrite_glb (hup : s.dev.aocUp = true) {o : Nat} (ho : o < 0x10000) (h8 : o % 8 = 0) (v : Word) :
    exec (.registerWrite (BitVec.ofNat 48 (aGlb o)) (leBytes 8 v.toNat)) s =
      .next { s with dev := (s.dev.servePage 0).swWrite (aGlb o) v } := by
  have hb : regBase = 0xF000000000 := rfl
  have ha : aGlb o = 0xF000000000 + o := by simp [aGlb, regAddr, hb]
  have haddr : (BitVec.ofNat 48 (aGlb o)).toNat = aGlb o := by
    rw [BitVec.toNat_ofNat]
    omega
  have hpage : (aGlb o - regBase) / 0x10000 = 0 := by omega
  have hoff : aGlb o % 0x10000 = o := by omega
  have hregs : region (aGlb o) = .regs := by
    unfold region
    rw [if_neg (by omega), if_neg (by omega), if_neg (by simp; omega), if_neg (by simp; omega), if_pos (by simp; omega)]
  have hwindow : pushWindow (aGlb o) = none := by simp [pushWindow, hpage]
  have hfh : fhCommandOf (aGlb o) = none := by
    refine List.find?_eq_none.mpr fun n _ => ?_
    simp only [aFh, regAddr, beq_iff_eq]
    omega
  have hgate : ¬ aGate 0x4000 ≤ aGlb o := by simp only [aGate, regAddr]; omega
  have hbytes : BitVec.ofNat 64 (leNat (leBytes 8 v.toNat)) = v := leNat_leBytes_word v
  have hwrite : s.dev.regWrite (aGlb o) v = ((s.dev.servePage 0).swWrite (aGlb o) v, .ok []) := by
    unfold Dev.regWrite
    simp [hpage, hoff, Dev.pageOn, hup, wideWindow, show aGlb o % 8 = 0 by omega]
    rfl
  have hbus : s.dev.busWrite (aGlb o) (leBytes 8 v.toNat) = ((s.dev.servePage 0).swWrite (aGlb o) v, .ok []) := by
    unfold Dev.busWrite
    rw [hregs]
    unfold Dev.regWriteN
    simp [hpage, hoff, Dev.pageOn, hup, wideWindow, multiWindow, leBytes_length, show aGlb o % 8 = 0 by omega, hbytes, hwrite]
  show execRegisterWrite _ _ s = _
  unfold execRegisterWrite onDev
  simp [haddr, hwindow, hfh, hgate, hbus]

theorem regInfo_aGlb {o : Nat} (ho : o < 0x10000) : regInfo (aGlb o) = pageRegInfo 0 o := by
  have hb : regBase = 0xF000000000 := rfl
  have hpage : (aGlb o - regBase) / 0x10000 = 0 := by simp [aGlb, regAddr]; omega
  have hoff : aGlb o % 0x10000 = o := by simp [aGlb, regAddr]; omega
  unfold regInfo
  simp [hpage, hoff]

theorem scratch_written (hup : s.dev.aocUp = true) (n : Fin 8) (v : Word) :
    Yields (.registerWrite (BitVec.ofNat 48 (aGlb (0x100 + 8 * n.val))) (leBytes 8 v.toNat)) s
      (WritesReg (aGlb (0x100 + 8 * n.val)) v s) := by
  have hn := n.isLt
  obtain ⟨ps, hps⟩ := servePage_eq s.dev 0
  have hinfo : regInfo (aGlb (0x100 + 8 * n.val)) = .plain 0xFFFFFFFFFFFFFFFF := by
    rw [regInfo_aGlb (by omega)]
    simp only [pageRegInfo]
    rw [if_neg (by omega), if_neg (by omega), if_neg (by omega), if_pos (by simp; omega)]
  have hall : ∀ w : Word, (w &&& ~~~(0xFFFFFFFFFFFFFFFF : Word)) ||| (v &&& (0xFFFFFFFFFFFFFFFF : Word)) = v := by
    intro w
    rw [show (0xFFFFFFFFFFFFFFFF : Word) = BitVec.allOnes 64 from rfl, BitVec.and_allOnes, BitVec.not_allOnes, BitVec.and_zero,
      BitVec.zero_or]
  refine ⟨_, exec_registerWrite_glb hup (by omega) (by omega) v, ?_⟩
  rw [swWrite_plain _ hinfo, hall]
  exact writesReg_setReg hps v

theorem readOnly_kept (hup : s.dev.aocUp = true) (v : Word) :
    Yields (.registerWrite (BitVec.ofNat 48 (aGlb 0)) (leBytes 8 v.toNat)) s (WritesReg (aGlb 0) (s.dev.reg (aGlb 0)) s) := by
  obtain ⟨ps, hps⟩ := servePage_eq s.dev 0
  refine ⟨_, exec_registerWrite_glb hup (by decide) (by decide) v, ?_⟩
  rw [swWrite_ro _ (regInfo_aGlb (by decide)), reg_servePage]
  exact writesReg_setReg hps _

end

/-- Settles O44: each write goes to its page or region, and the guards of the assignments keep the field of a unit in use. -/
theorem registerWrites : Obligations.RegisterWrites := by
  unfold Obligations.RegisterWrites
  intro s c v hon
  obtain ⟨hpatKept, hpatTaken⟩ := patCtlWrite_guarded hon v
  refine ⟨fun i => yields_of_updTally (exec_talValWrite hon i v), fun i => yields_of_updTally (exec_talAddWrite hon i v),
    fmtMaxabsClr_clears hon v, fun hfree => hpatTaken ?_, fun hused hfld => ?_, seqCtlWrite_of_free hon v,
    fun k hidle hdone hfld => seqCtlWrite_of_busy hon hidle hdone hfld,
    fun hup => ⟨fun n => scratch_written hup n v, readOnly_kept hup v⟩⟩
  · rintro ⟨⟨o, ho, hcore, hphase, hop⟩, -⟩
    obtain ⟨h4A, h4B, h4C⟩ := hfree o ho hcore hphase
    exact hop.elim h4A fun hop => hop.elim h4B h4C
  · obtain ⟨t, ht, hregs, hraised, -, -⟩ := hpatKept ⟨hused, hfld⟩
    exact ⟨t, ht, hraised, fun x => by unfold Dev.reg; rw [hregs]⟩

end Sys2Proof.Machine
end

section
/-!
PROOFS. Requests (R307 to R309): what the acceptance of one changes, that one with a sound body in compute service is carried out, and
what an answer is.
-/

namespace Sys2Proof.Machine

/-! The counting registers of the AOC. -/

/-- A register outside pages 5 and 6, where requests and answers are counted. -/
def Uncounted (a : Nat) : Prop := a < regAddr 5 0 ∨ regAddr 7 0 ≤ a

/-- `e` differs from `d` in what the pages of Uncounted count and in notes of the cycle alone. -/
structure Dev.CountedBy (d e : Dev) : Prop where
  rest : ∃ rg nw, e = { d with regs := rg, now := nw }
  reg : ∀ a, Uncounted a → e.reg a = d.reg a

theorem Dev.CountedBy.refl (d : Dev) : d.CountedBy d := ⟨⟨_, _, rfl⟩, fun _ _ => rfl⟩

theorem Dev.CountedBy.trans {d e f : Dev} (h : d.CountedBy e) (g : e.CountedBy f) : d.CountedBy f := by
  obtain ⟨⟨rg, nw, rfl⟩, hreg⟩ := h
  obtain ⟨⟨rg', nw', rfl⟩, hreg'⟩ := g
  exact ⟨⟨rg', nw', rfl⟩, fun a ha => (hreg' a ha).trans (hreg a ha)⟩

theorem countedBy_acnt (d : Dev) {i : Nat} (hi : i < 0x1000) (n : Nat) : d.CountedBy (d.acnt i n) := by
  obtain ⟨rg, nw, h⟩ := count_eq (d := d) (aAcnt 0) i n
  refine ⟨⟨rg, nw, h⟩, fun a ha => ?_⟩
  have hne : a ≠ aAcnt 0 + 8 * i := by
    unfold Uncounted regAddr at ha
    unfold aAcnt regAddr
    omega
  exact reg_count_other (d := d) hne

theorem countedBy_hwInc_ctlp (d : Dev) (p : CtlId) (lo len n : Nat) : d.CountedBy (d.hwInc (aCtlp p 8) lo len n) := by
  refine ⟨⟨_, _, rfl⟩, fun a ha => ?_⟩
  have hne : a ≠ aCtlp p 8 := by
    have hp := p.isLt
    unfold Uncounted regAddr at ha
    unfold aCtlp regAddr
    omega
  exact reg_setReg_other (d := d) _ hne

theorem countedBy_record (d : Dev) (kind unit : Nat) (bs : List Byte) : d.CountedBy (d.record kind unit bs) := by
  unfold Dev.record
  split
  · exact .refl d
  · exact ⟨⟨_, _, rfl⟩, fun _ _ => rfl⟩

/-! Acceptance. -/

section
variable {s : State} {p : CtlId} {ty : Nat} {g : Datagram} {rest : List Datagram} {b : List Byte}

/-- The device once the request has left its queue, before it is counted. -/
def State.dequeued (s : State) (p : CtlId) (rest : List Datagram) : Dev :=
  (s.dev.updCtl p fun c => { c with waiting := rest }).updAoc fun a => { a with order := a.order.drop 1 }

theorem accepted_counted (s : State) (p : CtlId) (g : Datagram) (rest : List Datagram) :
    (s.dequeued p rest).CountedBy (s.accepted p g rest) :=
  ((countedBy_hwInc_ctlp _ p 0 32 1).trans (countedBy_acnt _ (by decide) 1)).trans (countedBy_record _ 1 p.val g.payload)

theorem accepted_eq (s : State) (p : CtlId) (g : Datagram) (rest : List Datagram) : ∃ rg nw, s.accepted p g rest =
    { s.dev with regs := rg, now := nw, aoc := { s.dev.aoc with
        ctls := vmap s.dev.aoc.ctls p fun c => { c with waiting := rest }, order := s.dev.aoc.order.drop 1 } } :=
  (accepted_counted s p g rest).rest

theorem accepted_reg (s : State) (p : CtlId) (g : Datagram) (rest : List Datagram) {a : Nat} (h : Uncounted a) :
    (s.accepted p g rest).reg a = s.dev.reg a := (accepted_counted s p g rest).reg a h

theorem accepted_aoc (s : State) (p : CtlId) (g : Datagram) (rest : List Datagram) : (s.accepted p g rest).aoc = { s.dev.aoc with
    ctls := vmap s.dev.aoc.ctls p fun c => { c with waiting := rest }, order := s.dev.aoc.order.drop 1 } := by
  obtain ⟨rg, nw, h⟩ := accepted_eq s p g rest
  rw [h]

/-- The request is judged as a new one, and carried out (R308, R309). -/
theorem Carried.take (h : Carried s p ty g rest b) (run : Dev → Asker → List Byte → Dev) :
    s.dev.ncpTake p (isType ty) run = run (s.accepted p g rest) (askerOf p g) b := by
  have htarget : ¬ (leAt g.payload 16 8 ≠ 0 ∧ leAt g.payload 16 8 ≠ Config.serial.toNat) := by
    rintro ⟨h0, h1⟩
    exact h.target.elim h0 h1
  have hcache : (s.accepted p g rest).aoc.cache.find? (fun c => sameKey c.asker (askerOf p g)) = none := by
    rw [accepted_aoc]
    exact List.find?_eq_none.mpr fun c hc => by simp [h.fresh c hc]
  have hlongs : (s.accepted p g rest).aoc.longs = [] := by rw [accepted_aoc]; exact h.longs
  have haccept : ((s.dev.updCtl p fun c => { c with waiting := rest }).updAoc fun a => { a with order := a.order.drop 1 }).ncpAccept p
      g.src g.sport g.payload run = run (s.accepted p g rest) (askerOf p g) b := by
    have hunfold : ((s.dev.updCtl p fun c => { c with waiting := rest }).updAoc fun a => { a with order := a.order.drop 1 }).ncpAccept p
        g.src g.sport g.payload run =
        (if leAt g.payload 16 8 ≠ 0 && leAt g.payload 16 8 ≠ Config.serial.toNat then (s.accepted p g rest).answer (askerOf p g) 10 0 [] false
        else if (askerOf p g).injected then run (s.accepted p g rest) (askerOf p g) (g.payload.drop 32)
        else match (s.accepted p g rest).aoc.cache.find? fun c => sameKey c.asker (askerOf p g) with
          | some c => ((s.accepted p g rest).emit (.answer (askerOf p g) c.answer)).acnt 2 1
          | none => if (s.accepted p g rest).aoc.longs.any fun l => sameKey l.asker (askerOf p g) then
              (s.accepted p g rest).answer (askerOf p g) 9 0 [] false
            else run (s.accepted p g rest) (askerOf p g) (g.payload.drop 32)) := rfl
    rw [hunfold, if_neg (by simpa using htarget), if_neg (by simp [h.asked]), hcache, hlongs, h.body]
    rfl
  unfold Dev.ncpTake
  rw [h.head]
  simp only [h.serves, h.first, h.job, isType, h.type]
  simpa using haccept

theorem bodyFault_eq_none {r : ReqSpec} (hlen : b.length = r.len) (hzero : ∀ o ∈ r.zero, b.getD o 0 = 0) (hbad : ∀ x ∈ r.bad, x.2 = false) :
    bodyFault b r = none := by
  have hz : (r.zero.filter fun o => b.getD o 0 != 0) = [] := List.filter_eq_nil_iff.mpr fun o ho => by simp only [hzero o ho]; decide
  have hb : (r.bad.filter fun x => x.2) = [] := List.filter_eq_nil_iff.mpr fun x hx => by simp [hbad x hx]
  unfold bodyFault
  rw [if_neg (by omega), if_neg (by omega), hz, hb]
  rfl

/-- In compute service, with room in the cache and no replay, a sound body is carried out (R309, R419). -/
theorem Carried.run (h : Carried s p ty g rest b) {r : ReqSpec} (hbody : bodyFault b r = none) (k : Dev → Dev) :
    (s.accepted p g rest).ncpRun (askerOf p g) b r k = k (s.accepted p g rest) := by
  have haoc := accepted_aoc s p g rest
  have hstage : (s.accepted p g rest).aoc.trust.stage = .compute := by rw [haoc]; exact h.stage
  have hroom : ¬ 256 ≤ (s.accepted p g rest).aoc.cache.length + (s.accepted p g rest).aoc.longs.length := by
    rw [haoc]
    simp only [h.longs, List.length_nil]
    have := h.room
    omega
  have hlive : (s.accepted p g rest).replaying 1 = false := by
    have hreg : ∀ o, o < 0x10000 → (s.accepted p g rest).reg (aRpl o) = s.dev.reg (aRpl o) := fun o ho =>
      accepted_reg s p g rest (.inr (by unfold aRpl regAddr; omega))
    have hon : (s.accepted p g rest).hubOn = s.dev.hubOn := by unfold Dev.hubOn; rw [haoc]
    rw [← h.live]
    unfold Dev.replaying Dev.rplState Dev.regFld
    rw [hon, hreg 0x10 (by decide), hreg 0 (by decide)]
  unfold Dev.ncpRun
  rw [hbody]
  dsimp only
  unfold Dev.ncpGate
  rw [hstage, hlive]
  simp [hroom]

end

/-! Answers. -/

/-- What an answer holds, with free words where the manual gives no value (R307). -/
def answerBytes (a : Asker) (status detail : Nat) (body : List Byte) (x y : Nat) : List Byte :=
  leBytes 2 0x4E5A ++ leBytes 1 1 ++ leBytes 1 (a.type + 0x80) ++ leBytes 4 a.reqId.toNat ++ leBytes 2 status ++ leBytes 2 detail ++
    leBytes 4 body.length ++ leBytes 8 x ++ leBytes 8 y ++ body

/-- `e` is `d` once an answer is sent, and held in the cache if it is kept (R307, R309). -/
structure Dev.AnsweredBy (d : Dev) (a : Asker) (status detail : Nat) (body : List Byte) (kept : Bool) (e : Dev) : Prop where
  rest : ∃ rg nw fi x y, e = { d with
    regs := rg, now := nw, freeIdx := fi, out := d.out ++ [.answer a (answerBytes a status detail body x y)]
    aoc := { d.aoc with cache := if kept then d.aoc.cache ++ [⟨a, answerBytes a status detail body x y, d.cycle⟩] else d.aoc.cache } }
  reg : ∀ x, Uncounted x → e.reg x = d.reg x

theorem answer_answered (d : Dev) {a : Asker} (ha : a.injected = false) (status detail : Nat) (body : List Byte) (kept : Bool) :
    d.AnsweredBy a status detail body kept (d.answer a status detail body kept) := by
  have hanswer : d.answer a status detail body kept = Dev.acnt { d with
      freeIdx := d.freeIdx + 1, out := d.out ++ [.answer a (answerBytes a status detail body d.free.1.toNat d.ftOrZero)]
      aoc := { d.aoc with cache := if kept then
        d.aoc.cache ++ [⟨a, answerBytes a status detail body d.free.1.toNat d.ftOrZero, d.cycle⟩] else d.aoc.cache } } 1 1 := by
    unfold Dev.answer
    simp only [ha]
    cases kept
    · rfl
    · rfl
  obtain ⟨⟨rg, nw, hrest⟩, hreg⟩ := countedBy_acnt { d with
      freeIdx := d.freeIdx + 1, out := d.out ++ [.answer a (answerBytes a status detail body d.free.1.toNat d.ftOrZero)]
      aoc := { d.aoc with cache := if kept then
        d.aoc.cache ++ [⟨a, answerBytes a status detail body d.free.1.toNat d.ftOrZero, d.cycle⟩] else d.aoc.cache } } (i := 1) (by decide) 1
  rw [hanswer]
  exact ⟨⟨rg, nw, _, _, _, hrest⟩, hreg⟩

/-- The answer of a long request, which then no longer runs (R308). -/
theorem reply_answered (d : Dev) {a : Asker} (ha : a.injected = false) (status detail : Nat) (body : List Byte) :
    (d.updAoc fun x => { x with longs := eraseFirst (fun l => l.asker == a) x.longs }).AnsweredBy a status detail body true
      (d.reply (some a) status detail body) := answer_answered _ ha ..

/-- `e` differs from `d` in nothing that requests and answers pass through. -/
structure Dev.Calm (d e : Dev) : Prop where
  out : e.out = d.out
  cycle : e.cycle = d.cycle
  aoc : ∃ ds rc tr rs, e.aoc = { d.aoc with doms := ds, rcd := rc, trust := tr, restoring := rs }

theorem Dev.Calm.refl (d : Dev) : d.Calm d := ⟨rfl, rfl, _, _, _, _, rfl⟩

theorem Dev.Calm.trans {d e f : Dev} (h : d.Calm e) (g : e.Calm f) : d.Calm f := by
  obtain ⟨ds, rc, tr, rs, haoc⟩ := h.aoc
  obtain ⟨ds', rc', tr', rs', haoc'⟩ := g.aoc
  exact ⟨g.out.trans h.out, g.cycle.trans h.cycle, ds', rc', tr', rs', by rw [haoc', haoc]⟩

theorem Dev.Calm.of_aoc {d e : Dev} (hout : e.out = d.out) (hcycle : e.cycle = d.cycle) (haoc : e.aoc = d.aoc) : d.Calm e :=
  ⟨hout, hcycle, d.aoc.doms, d.aoc.rcd, d.aoc.trust, d.aoc.restoring, haoc⟩

theorem calm_event (d : Dev) (code sev : Nat) (bs : List Byte) : d.Calm (d.event code sev bs) :=
  ⟨rfl, rfl, d.aoc.doms, _, d.aoc.trust, d.aoc.restoring, rfl⟩

theorem calm_eventN (d : Dev) (code sev : Nat) (bs : List Byte) (n : Nat × Nat × Nat × Nat × Nat) : d.Calm (d.eventN code sev bs n) :=
  ⟨rfl, rfl, d.aoc.doms, _, d.aoc.trust, d.aoc.restoring, rfl⟩

theorem calm_refuseLoad (d : Dev) (l code leaf : Nat) : d.Calm (d.refuseLoad l code leaf) := calm_event ..

theorem calm_updLast (d : Dev) (l : LastId) (f : Last → Last) : d.Calm (d.updLast l f) := .of_aoc rfl rfl rfl

theorem calm_notedBy {d e : Dev} (h : d.NotedBy e) : d.Calm e := by
  obtain ⟨rg, nw, rc, rfl⟩ := h
  exact ⟨rfl, rfl, d.aoc.doms, rc, d.aoc.trust, d.aoc.restoring, rfl⟩

theorem Dev.Calm.foldl {α : Type} {f : Dev → α → Dev} (hf : ∀ (e : Dev) x, e.Calm (f e x)) (l : List α) (d : Dev) : d.Calm (l.foldl f d) :=
  List.foldlRecOn (motive := fun e => d.Calm e) l f (.refl d) fun e he x _ => he.trans (hf e x)

section
variable {s : State} {p : CtlId} {g : Datagram} {rest : List Datagram} {d e : Dev}

theorem sent_of_answered {a : Asker} {status detail : Nat} {body : List Byte} {kept : Bool} (h : d.AnsweredBy a status detail body kept e)
    (hout : d.out = s.dev.out) (hcache : d.aoc.cache = s.dev.aoc.cache) (hcycle : d.cycle = s.dev.cycle) :
    Sent a status detail body kept s { s with dev := e } := by
  obtain ⟨⟨rg, nw, fi, x, y, rfl⟩, -⟩ := h
  refine ⟨x, y, _, rfl, congrArg (· ++ _) hout, ?_⟩
  cases kept
  · exact hcache
  · simp only [if_true, hcache, hcycle]
    rfl

theorem accepted_out (s : State) (p : CtlId) (g : Datagram) (rest : List Datagram) : (s.accepted p g rest).out = s.dev.out := by
  obtain ⟨rg, nw, h⟩ := accepted_eq s p g rest
  rw [h]

theorem accepted_cycle (s : State) (p : CtlId) (g : Datagram) (rest : List Datagram) : (s.accepted p g rest).cycle = s.dev.cycle := by
  obtain ⟨rg, nw, h⟩ := accepted_eq s p g rest
  rw [h]

/-- The request is carried out by what touches no message, and answered. -/
theorem answered_of_calm {status detail : Nat} {body : List Byte} {kept : Bool}
    (h : (s.accepted p g rest).Calm d) (ha : d.AnsweredBy (askerOf p g) status detail body kept e) :
    Answered p g rest status detail body kept s { s with dev := e } := by
  obtain ⟨ds, rc, tr, rs, haoc⟩ := h.aoc
  rw [accepted_aoc] at haoc
  have hsent := sent_of_answered (s := s) ha (h.out.trans (accepted_out ..)) (by rw [haoc]) (h.cycle.trans (accepted_cycle ..))
  obtain ⟨⟨rg, nw, fi, x, y, rfl⟩, -⟩ := ha
  refine ⟨?_, ?_, hsent, ?_⟩
  · show (d.aoc.ctls.get p).waiting = rest
    rw [haoc]
    simp
  · show d.aoc.order = s.dev.aoc.order.drop 1
    rw [haoc]
  · show d.aoc.longs = s.dev.aoc.longs
    rw [haoc]

/-- The long request runs, at its scope. -/
theorem runs_of_calm {l : Option LastId} (hlongs : s.dev.aoc.longs = []) (h : ((s.accepted p g rest).startLong (askerOf p g) l).Calm e) :
    Runs p g rest l s { s with dev := e } := by
  obtain ⟨ds, rc, tr, rs, haoc⟩ := h.aoc
  have hstart : ((s.accepted p g rest).startLong (askerOf p g) l).aoc =
      { (s.accepted p g rest).aoc with longs := (s.accepted p g rest).aoc.longs ++ [⟨askerOf p g, l⟩] } := rfl
  rw [hstart, accepted_aoc] at haoc
  refine ⟨?_, ?_, h.out.trans (accepted_out s p g rest), ?_, ?_⟩
  · show (e.aoc.ctls.get p).waiting = rest
    rw [haoc]
    simp
  · show e.aoc.order = s.dev.aoc.order.drop 1
    rw [haoc]
  · show e.aoc.cache = s.dev.aoc.cache
    rw [haoc]
  · show e.aoc.longs = _
    rw [haoc, hlongs]
    rfl

/-- The long request began, and is answered at once: it no longer runs. -/
theorem answered_of_reply {l : Option LastId} {status detail : Nat} {body : List Byte} (hlongs : s.dev.aoc.longs = [])
    (hasked : (askerOf p g).injected = false) (h : ((s.accepted p g rest).startLong (askerOf p g) l).Calm d) :
    Answered p g rest status detail body true s { s with dev := d.reply (some (askerOf p g)) status detail body } := by
  have hruns := runs_of_calm hlongs h
  have ha := reply_answered d hasked status detail body
  have hsent := sent_of_answered (s := s) ha hruns.out hruns.cache (h.cycle.trans (accepted_cycle s p g rest))
  have hended : eraseFirst (fun x => x.asker == askerOf p g) d.aoc.longs = [] := by
    have hone : d.aoc.longs = [⟨askerOf p g, l⟩] := hruns.longs
    rw [hone]
    simp [eraseFirst]
  obtain ⟨rg, nw, fi, x, y, hrest⟩ := ha.rest
  refine ⟨?_, ?_, hsent, ?_⟩
  · rw [hrest]; exact hruns.waiting
  · rw [hrest]; exact hruns.order
  · rw [hrest]; exact hended.trans hlongs.symm

end

/-- `e` differs from `d` in what an answer writes alone: counters, the cache, the requests that run, the output. -/
structure Dev.RepliedBy (d e : Dev) : Prop where
  rest : ∃ rg nw fi ou ls ca, e = { d with
    regs := rg, now := nw, freeIdx := fi, out := ou, aoc := { d.aoc with longs := ls, cache := ca } }
  reg : ∀ x, Uncounted x → e.reg x = d.reg x

theorem answer_replied (d : Dev) (a : Asker) (status detail : Nat) (body : List Byte) (kept : Bool) :
    d.RepliedBy (d.answer a status detail body kept) := by
  cases ha : a.injected with
  | false =>
    obtain ⟨⟨rg, nw, fi, x, y, hrest⟩, hreg⟩ := answer_answered d ha status detail body kept
    exact ⟨⟨rg, nw, fi, _, d.aoc.longs, _, hrest⟩, hreg⟩
  | true =>
    unfold Dev.answer
    simp only [ha, if_true]
    cases kept
    · exact ⟨⟨_, _, _, d.out, d.aoc.longs, d.aoc.cache, rfl⟩, fun _ _ => rfl⟩
    · exact ⟨⟨_, _, _, d.out, d.aoc.longs, _, rfl⟩, fun _ _ => rfl⟩

/-- The end of a long request, whoever asked, if anyone did. -/
theorem reply_replied (d : Dev) (a : Option Asker) (status detail : Nat) (body : List Byte) : d.RepliedBy (d.reply a status detail body) := by
  cases a with
  | none => exact ⟨⟨_, _, _, d.out, d.aoc.longs, d.aoc.cache, rfl⟩, fun _ _ => rfl⟩
  | some a =>
    obtain ⟨⟨rg, nw, fi, ou, ls, ca, hrest⟩, hreg⟩ :=
      answer_replied (d.updAoc fun x => { x with longs := eraseFirst (fun l => l.asker == a) x.longs }) a status detail body true
    exact ⟨⟨rg, nw, fi, ou, ls, ca, hrest⟩, hreg⟩

theorem Dev.RepliedBy.lasts {d e : Dev} (h : d.RepliedBy e) : e.lasts = d.lasts := by
  obtain ⟨⟨rg, nw, fi, ou, ls, ca, rfl⟩, -⟩ := h
  rfl

theorem Dev.RepliedBy.last {d e : Dev} (h : d.RepliedBy e) (l : LastId) : e.last l = d.last l := by
  unfold Dev.last
  rw [h.lasts]

theorem Dev.RepliedBy.mem {d e : Dev} (h : d.RepliedBy e) : e.mem = d.mem := by
  obtain ⟨⟨rg, nw, fi, ou, ls, ca, rfl⟩, -⟩ := h
  rfl

theorem Dev.RepliedBy.rcd {d e : Dev} (h : d.RepliedBy e) : e.aoc.rcd = d.aoc.rcd := by
  obtain ⟨⟨rg, nw, fi, ou, ls, ca, rfl⟩, -⟩ := h
  rfl

theorem Dev.RepliedBy.hub {d e : Dev} (h : d.RepliedBy e) : e.hub = d.hub := by
  obtain ⟨⟨rg, nw, fi, ou, ls, ca, rfl⟩, -⟩ := h
  rfl

end Sys2Proof.Machine
end

section
/-!
PROOFS. Requests that resume: LRESUME and SRESUME (R161, R294, R310), and how a request's body is read.
-/

namespace Sys2Proof.Machine

/-! Fields of a body (R9). -/

theorem leAt_prefix {x r : List Byte} {o n : Nat} (h : o + n ≤ x.length) : leAt (x ++ r) o n = leAt x o n := by
  unfold leAt
  rw [List.drop_append_of_le_length (by omega), List.take_append_of_le_length (by simp; omega)]

theorem leAt_behind (x : List Byte) (n v : Nat) {o : Nat} (h : x.length = o) : leAt (x ++ leBytes n v) o n = v % 256 ^ n := by
  unfold leAt
  rw [← h, List.drop_left, List.take_of_length_le (Nat.le_of_eq (leBytes_length n v)), leNat_leBytes]

theorem leAt_front (r : List Byte) (n v : Nat) : leAt (leBytes n v ++ r) 0 n = v % 256 ^ n := by
  rw [leAt_prefix (by rw [leBytes_length]; omega)]
  exact leAt_behind [] n v rfl

theorem leAt_front_fin (r : List Byte) {m : Nat} (x : Fin (m + 1)) (h : m < 256) : leAt (leBytes 1 x.val ++ r) 0 1 = x.val := by
  have := x.isLt
  rw [leAt_front]
  omega

theorem last_of_leAt (l : LastId) (r : List Byte) : last_of (leAt (leBytes 1 l.val ++ r) 0 1) = l := by
  rw [leAt_front_fin r l (by decide)]
  exact finOf_val l

theorem leAt_word (x : List Byte) (v : Word) {o : Nat} (h : x.length = o) : leAt (x ++ leBytes 8 v.toNat) o 8 = v.toNat := by
  rw [leAt_behind x 8 v.toNat h]
  exact Nat.mod_eq_of_lt v.isLt

@[simp] theorem zeros_length (n : Nat) : (zeros n).length = n := List.length_replicate

/-- A request of one last and nothing else has a sound body. -/
theorem bodyFault_last (l : LastId) : bodyFault (leBytes 1 l.val ++ zeros 7) (lastSpec (leBytes 1 l.val ++ zeros 7) 8) = none := by
  have hl := l.isLt
  refine bodyFault_eq_none rfl (fun o ho => ?_) fun x hx => ?_
  · have hmem : o ∈ rng 1 8 := ho
    fin_cases hmem <;> rfl
  · have hx : x = (0, decide (7 < leAt (leBytes 1 l.val ++ zeros 7) 0 1)) := by simpa [lastSpec] using hx
    rw [hx, leAt_front_fin _ l (by decide)]
    exact decide_eq_false (by omega)

/-! What acceptance leaves. -/

section
variable (s : State) (p : CtlId) (g : Datagram) (rest : List Datagram)

theorem accepted_lasts : (s.accepted p g rest).lasts = s.dev.lasts := by
  obtain ⟨rg, nw, h⟩ := accepted_eq s p g rest
  rw [h]

theorem accepted_last (l : LastId) : (s.accepted p g rest).last l = s.dev.last l := by
  unfold Dev.last
  rw [accepted_lasts]

theorem accepted_strand (c : CoreId) (k : StrandId) : (s.accepted p g rest).strand c k = s.dev.strand c k := by
  obtain ⟨rg, nw, h⟩ := accepted_eq s p g rest
  rw [h]
  rfl

theorem uncounted_corePage (c : CoreId) {j o : Nat} : Uncounted (regAddr (corePage c j) o) := by
  right
  unfold regAddr corePage
  omega

theorem accepted_strandLast (c : CoreId) (k : StrandId) : (s.accepted p g rest).strandLast c k = s.dev.strandLast c k := by
  unfold Dev.strandLast
  rw [accepted_reg s p g rest (a := aSeqCtl c) (uncounted_corePage c)]

end

/-! LRESUME. -/

theorem resume_eq (d : Dev) (l : LastId) : ∃ cs os nw, d.resume l =
    { d with cores := cs, ops := os, now := nw, lasts := vmap d.lasts l fun x => { x with st := .running, pausing := none } } := by
  unfold Dev.resume
  dsimp only
  obtain ⟨cs, hcs⟩ := foldl_cores (g := fun (e : Dev) c => e.updCore c fun x => { x with ptrs := [] }) (fun e c => ⟨_, rfl⟩)
    ((d.updLast l fun x => { x with st := .running, pausing := none }).coresOf l)
    (d.updLast l fun x => { x with st := .running, pausing := none })
  rw [hcs]
  generalize Dev.coresOf _ _ = xs
  generalize Dev.strandsOf _ _ = ys
  obtain ⟨cs', hcs'⟩ := foldl_cores (g := fun (e : Dev) x => e.updStrand x.1 x.2 fun t =>
    if t.st == .paused then { t with st := t.resume, resume := .idle, notBefore := e.cycle + 1 } else t) (fun e x => ⟨_, rfl⟩) ys
    ({ d.updLast l (fun x => { x with st := .running, pausing := none }) with cores := cs }.strandFirst xs)
  rw [hcs']
  exact ⟨_, _, _, rfl⟩

section
variable {s : State} {p : CtlId} {g : Datagram} {rest : List Datagram} {l : LastId}

/-- LRESUME of a PAUSED last (R294, R310). -/
theorem lresume_resumes (h : Carried s p 7 g rest (leBytes 1 l.val ++ zeros 7)) (hst : (s.dev.last l).st = .paused)
    (hpausing : (s.dev.last l).pausing = none) : Yields (.ncpLresume p) s fun t =>
      Answered p g rest 0 0 [] true s t ∧ t.dev.last l = { s.dev.last l with st := .running, pausing := none } := by
  have hexec : exec (.ncpLresume p) s = .next { s with dev := ((s.accepted p g rest).resume l).answer (askerOf p g) 0 0 [] true } := by
    have htake : exec (.ncpLresume p) s = .next { s with dev := s.dev.ncpTake p (isType 7) Dev.runLresume } := rfl
    have hmodule : (s.accepted p g rest).moduleLong = false := by
      unfold Dev.moduleLong
      rw [accepted_aoc]
      simp [h.longs]
    rw [htake, h.take, Dev.runLresume, h.run (bodyFault_last l)]
    simp only [last_of_leAt, accepted_last, hst, hpausing, hmodule]
    rfl
  obtain ⟨cs, os, nw, hresume⟩ := resume_eq (s.accepted p g rest) l
  have ha := answer_answered ((s.accepted p g rest).resume l) h.asked 0 0 [] true
  refine ⟨_, hexec, answered_of_calm ?_ ha, ?_⟩
  · rw [hresume]
    exact .of_aoc rfl rfl rfl
  · obtain ⟨⟨rg, nw', fi, x, y, hrest⟩, -⟩ := ha
    rw [hrest, hresume]
    show (vmap (s.accepted p g rest).lasts l _).get l = _
    rw [vmap_get_same, accepted_lasts]
    rfl

/-! SRESUME. -/

theorem bodyFault_sresume (c : CoreId) (k : StrandId) : let b := leBytes 1 c.val ++ leBytes 1 k.val ++ zeros 6
    bodyFault b { len := 8, zero := rng 2 8, bad := [(0, decide (127 < leAt b 0 1)), (1, decide (1 < leAt b 1 1))] } = none ∧
      finOf 127 (leAt b 0 1) = c ∧ finOf 1 (leAt b 1 1) = k := by
  intro b
  have hc := c.isLt
  have hk := k.isLt
  have hcore : leAt b 0 1 = c.val := by
    rw [leAt_prefix (by simp [leBytes_length]), leAt_front_fin _ c (by decide)]
  have hstrand : leAt b 1 1 = k.val := by
    rw [leAt_prefix (by simp [leBytes_length]), leAt_behind _ _ _ (leBytes_length ..)]
    omega
  rw [hcore, hstrand]
  refine ⟨bodyFault_eq_none rfl (fun o ho => ?_) fun x hx => ?_, finOf_val c, finOf_val k⟩
  · have hmem : o ∈ rng 2 8 := ho
    fin_cases hmem <;> rfl
  · have hfalse : ∀ y ∈ [(0, decide (127 < c.val)), (1, decide (1 < k.val))], y.2 = false := by
      simp
      omega
    exact hfalse x hx

/-- The state code that a refused SRESUME of the strand is answered with, 0 without a last. -/
def Dev.ownerCode (d : Dev) (c : CoreId) (k : StrandId) : Nat :=
  match d.strandLast c k with
  | some l => (d.last l).st.code
  | none => 0

/-- The strand runs again, or from the resume of its last on. -/
def Strand.again (t : Strand) (pausing : Bool) (n : Nat) : Strand :=
  if pausing then { t with st := .paused, resume := .running } else { t with st := .running, notBefore := n }

/-- The device once an accepted SRESUME is carried out (R161, R170, R310). -/
def State.sresumed (s : State) (p : CtlId) (g : Datagram) (rest : List Datagram) (c : CoreId) (k : StrandId) : Dev :=
  if (s.dev.strand c k).st != .trapped || (s.dev.strandLast c k).any (fun l => (s.dev.last l).st == .paused) then
    (s.accepted p g rest).answer (askerOf p g) 8 (s.dev.ownerCode c k) [] false
  else
    ((s.accepted p g rest).updStrand c k fun t => t.again ((s.dev.strandLast c k).any fun l => (s.dev.last l).pausing.isSome)
      (s.dev.cycle + 1)).answer (askerOf p g) 0 0 [] true

theorem exec_ncpSresume {c : CoreId} {k : StrandId} (h : Carried s p 8 g rest (leBytes 1 c.val ++ leBytes 1 k.val ++ zeros 6)) :
    exec (.ncpSresume p) s = .next { s with dev := s.sresumed p g rest c k } := by
  obtain ⟨hbody, hc, hk⟩ := bodyFault_sresume c k
  have htake : exec (.ncpSresume p) s = .next { s with dev := s.dev.ncpTake p (isType 8) Dev.runSresume } := rfl
  rw [htake, h.take, Dev.runSresume, h.run hbody]
  simp only [hc, hk, accepted_strandLast, accepted_strand, accepted_last, accepted_cycle]
  rfl

/-- SRESUME of a TRAPPED strand. -/
theorem sresume_resumes {c : CoreId} {k : StrandId} (h : Carried s p 8 g rest (leBytes 1 c.val ++ leBytes 1 k.val ++ zeros 6))
    (htrapped : (s.dev.strand c k).st = .trapped) (hlast : s.dev.strandLast c k = some l) (hst : (s.dev.last l).st ≠ .paused) :
    Yields (.ncpSresume p) s fun t => Answered p g rest 0 0 [] true s t ∧
      t.dev.strand c k = if (s.dev.last l).pausing.isSome then { s.dev.strand c k with st := .paused, resume := .running }
        else { s.dev.strand c k with st := .running, notBefore := s.dev.cycle + 1 } := by
  have hdone : s.sresumed p g rest c k = ((s.accepted p g rest).updStrand c k fun t =>
      t.again (s.dev.last l).pausing.isSome (s.dev.cycle + 1)).answer (askerOf p g) 0 0 [] true := by
    unfold State.sresumed
    rw [hlast]
    exact if_neg (by simp [htrapped, hst])
  refine ⟨_, exec_ncpSresume h, ?_⟩
  rw [hdone]
  have ha := answer_answered ((s.accepted p g rest).updStrand c k fun t =>
    t.again (s.dev.last l).pausing.isSome (s.dev.cycle + 1)) h.asked 0 0 [] true
  refine ⟨answered_of_calm ?_ ha, ?_⟩
  · exact .of_aoc rfl rfl rfl
  obtain ⟨⟨rg, nw, fi, x, y, hrest⟩, -⟩ := ha
  rw [hrest]
  refine (strand_updStrand_same ..).trans ?_
  rw [accepted_strand]
  rfl

/-- SRESUME of another strand, or of a strand of a PAUSED last. -/
theorem sresume_refused {c : CoreId} {k : StrandId} (h : Carried s p 8 g rest (leBytes 1 c.val ++ leBytes 1 k.val ++ zeros 6))
    (hno : (s.dev.strand c k).st ≠ .trapped ∨ ∃ l, s.dev.strandLast c k = some l ∧ (s.dev.last l).st = .paused) :
    Yields (.ncpSresume p) s (Answered p g rest 8 (s.dev.ownerCode c k) [] false s) := by
  have hdone : s.sresumed p g rest c k = (s.accepted p g rest).answer (askerOf p g) 8 (s.dev.ownerCode c k) [] false := if_pos (by
    rcases hno with hst | ⟨l, hlast, hst⟩
    · simp [hst]
    · simp [hlast, hst])
  refine ⟨_, exec_ncpSresume h, ?_⟩
  rw [hdone]
  exact answered_of_calm (.refl _) (answer_answered _ h.asked ..)

end

end Sys2Proof.Machine
end

section
/-!
PROOFS. What wakes (R328, R330, R333), and the requests that wake what they need: LOAD, from the checks of its image to the waking of its
cores (R164), and RESTORE (R301).
-/

namespace Sys2Proof.Machine

/-! Domains and stacks that return to ON. -/

/-- `e` differs from `d` in domains, events, notes and registers other than CKP_STAT alone. -/
structure Dev.Stirs (d e : Dev) : Prop where
  rest : ∃ rg nw ds rc, e = { d with regs := rg, now := nw, aoc := { d.aoc with doms := ds, rcd := rc } }
  ckp : e.reg (aCkp 8) = d.reg (aCkp 8)

theorem Dev.Stirs.refl (d : Dev) : d.Stirs d := ⟨⟨_, _, d.aoc.doms, d.aoc.rcd, rfl⟩, rfl⟩

theorem Dev.Stirs.trans {d e f : Dev} (h : d.Stirs e) (g : e.Stirs f) : d.Stirs f := by
  obtain ⟨⟨rg, nw, ds, rc, rfl⟩, hreg⟩ := h
  obtain ⟨⟨rg', nw', ds', rc', rfl⟩, hreg'⟩ := g
  exact ⟨⟨rg', nw', ds', rc', rfl⟩, hreg'.trans hreg⟩

theorem Dev.Stirs.foldl {α : Type} {f : Dev → α → Dev} (hf : ∀ (e : Dev) x, e.Stirs (f e x)) (l : List α) (d : Dev) : d.Stirs (l.foldl f d) :=
  List.foldlRecOn (motive := fun e => d.Stirs e) l f (.refl d) fun e he x _ => he.trans (hf e x)

theorem Dev.Stirs.calm {d e : Dev} (h : d.Stirs e) : d.Calm e := by
  obtain ⟨⟨rg, nw, ds, rc, rfl⟩, -⟩ := h
  exact ⟨rfl, rfl, ds, rc, d.aoc.trust, d.aoc.restoring, rfl⟩

theorem Dev.Stirs.lasts {d e : Dev} (h : d.Stirs e) : e.lasts = d.lasts := by
  obtain ⟨⟨rg, nw, ds, rc, rfl⟩, -⟩ := h
  rfl

section
variable (d : Dev)

theorem stirs_updDoms (f : Doms → Doms) : d.Stirs (d.updDoms f) := ⟨⟨_, _, _, d.aoc.rcd, rfl⟩, rfl⟩

theorem stirs_startMove (m : StackId) : d.Stirs (d.startMove m) := stirs_updDoms d _

theorem stirs_noteBack (m : StackId) : d.Stirs (d.noteBack m) := ⟨⟨_, _, _, d.aoc.rcd, rfl⟩, rfl⟩

theorem stirs_hbmWake (a : Nat) : d.Stirs (d.hbmWake a) := by
  unfold Dev.hbmWake
  dsimp only
  split
  · exact stirs_startMove d _
  · split
    · exact stirs_updDoms d _
    · exact .refl d
  · exact .refl d

theorem stirs_rangeWake (a n : Nat) : d.Stirs (d.rangeWake a n) := .foldl (fun e x => stirs_hbmWake e x) _ d

theorem tgtField_ne_aCkp (x : Dom) : aCkp 8 ≠ (tgtField x).1 := by
  cases x with
  | core c =>
    have := c.isLt
    simp only [tgtField, aCkp, aCore, aPwr, regAddr]
    omega
  | _ => exact of_decide_eq_true rfl

theorem stirs_setTarget (x : Dom) (n : Nat) : d.Stirs (d.setTarget x n) := by
  refine ⟨⟨_, d.now, d.aoc.doms, d.aoc.rcd, rfl⟩, ?_⟩
  exact reg_setReg_other (d := d) _ (tgtField_ne_aCkp x)

theorem stirs_setDom (x : Dom) (v : DomSt) : d.Stirs (d.setDom x v) := stirs_updDoms d _

theorem stirs_tgtRefused (x : Dom) (v : Word) : d.Stirs (d.tgtRefused x v) := ⟨⟨_, _, d.aoc.doms, _, rfl⟩, rfl⟩

theorem stirs_examine (x : Dom) : d.Stirs (d.examine x) := by
  unfold Dev.examine
  split
  · exact .refl d
  · split
    · exact stirs_setDom d x _
    · split
      · exact stirs_setDom d x _
      · exact (stirs_setTarget d x 2).trans (stirs_tgtRefused _ x _)
    · split
      · exact stirs_startMove d _
      · exact .refl d
    · split
      · exact stirs_setDom d x _
      · exact (stirs_setTarget d x 2).trans (stirs_tgtRefused _ x _)
    · exact .refl d

theorem stirs_turnOn (x : Dom) : d.Stirs (d.turnOn x) := by
  have hfold : d.Stirs ((domNeeds x ++ [x]).foldl (fun (e : Dev) y => (e.setTarget y 2).examine y) d) :=
    .foldl (fun e y => (stirs_setTarget e y 2).trans (stirs_examine _ y)) _ d
  unfold Dev.turnOn
  split
  · exact .refl d
  · dsimp only
    split
    · split
      · exact hfold
      · split
        · exact (hfold.trans (stirs_noteBack _ _)).trans (stirs_startMove _ _)
        · exact hfold.trans (stirs_noteBack _ _)
    · exact hfold

theorem stirs_turnOnCores (cs : List CoreId) : d.Stirs (cs.foldl (fun (e : Dev) c => e.turnOn (.core c)) d) :=
  .foldl (fun e _ => stirs_turnOn e _) cs d

end

/-! What of the units depends on the domains and on GLB_CAP alone. -/

/-- The domains, the stage and the HBM map of two devices agree. -/
structure Dev.SameUnits (d e : Dev) : Prop where
  doms : e.aoc.doms = d.aoc.doms
  stage : e.aoc.trust.stage = d.aoc.trust.stage
  map : e.reg (aGlb 0x10) = d.reg (aGlb 0x10)

section
variable {d e : Dev} (h : d.SameUnits e)
include h

theorem Dev.SameUnits.hbmWays : e.hbmWays = d.hbmWays := by
  unfold Dev.hbmWays Dev.regFld
  rw [h.map]

theorem Dev.SameUnits.dom (x : Dom) : e.dom x = d.dom x := by
  unfold Dev.dom
  rw [h.doms]

theorem Dev.SameUnits.hbmSize : e.hbmSize = d.hbmSize := by
  unfold Dev.hbmSize
  rw [h.hbmWays]

theorem Dev.SameUnits.stackOf (a : Nat) : e.stackOf a = d.stackOf a := by
  unfold Dev.stackOf Dev.hbmUpper
  simp only [h.hbmWays, h.dom]

theorem Dev.SameUnits.reachable (a : Nat) : e.reachable a = d.reachable a := by
  unfold Dev.reachable Dev.pageOn Dev.aocUp Dev.hubOn Dev.coreOn Dev.dieOn
  simp only [h.hbmSize, h.stackOf, h.dom, h.doms, h.stage]

theorem Dev.SameUnits.hbmAwake (a : Nat) : e.hbmAwake a = d.hbmAwake a := by
  unfold Dev.hbmAwake
  simp only [h.stackOf, h.dom, h.doms]

theorem Dev.SameUnits.rangeAwake (a n : Nat) : e.rangeAwake a n = d.rangeAwake a n := by
  unfold Dev.rangeAwake
  simp only [h.reachable, h.hbmAwake]

theorem Dev.SameUnits.rangeMapped (a n : Nat) : e.rangeMapped a n = d.rangeMapped a n := by
  unfold Dev.rangeMapped
  have hall : (rangePages a n).all e.reachable = (rangePages a n).all d.reachable := by
    rw [show e.reachable = d.reachable from funext h.reachable]
  simp only [h.hbmSize, h.reachable, hall]

end

theorem accepted_units (s : State) (p : CtlId) (g : Datagram) (rest : List Datagram) : s.dev.SameUnits (s.accepted p g rest) := by
  have haoc := accepted_aoc s p g rest
  exact ⟨by rw [haoc], by rw [haoc], accepted_reg s p g rest (.inl (by decide))⟩

/-! LOAD. -/

section
variable {s : State} {p : CtlId} {g : Datagram} {rest : List Datagram} {l : LastId}

/-- The body of a LOAD (Table 11.3). -/
def loadBody (l : LastId) (x : Word) (n : Nat) (hbm : Word) (map : List Byte) : List Byte :=
  leBytes 1 l.val ++ leBytes 1 map.length ++ zeros 6 ++ leBytes 8 x.toNat ++ leBytes 8 n ++ leBytes 8 hbm.toNat ++ map

section
variable (l : LastId) (x : Word) {n : Nat} (hbm : Word) (map : List Byte)

theorem loadBody_last : last_of (leAt (loadBody l x n hbm map) 0 1) = l := by
  simp only [loadBody, List.append_assoc]
  exact last_of_leAt l _

theorem loadBody_addr : leAt (loadBody l x n hbm map) 8 8 = x.toNat := by
  rw [loadBody, leAt_prefix (by simp [leBytes_length]), leAt_prefix (by simp [leBytes_length]), leAt_prefix (by simp [leBytes_length])]
  exact leAt_word _ x (by simp [leBytes_length])

theorem loadBody_length (hn : n < 2 ^ 64) : leAt (loadBody l x n hbm map) 16 8 = n := by
  rw [loadBody, leAt_prefix (by simp [leBytes_length]), leAt_prefix (by simp [leBytes_length]), leAt_behind _ _ _ (by simp [leBytes_length])]
  omega

theorem loadBody_hbm : leAt (loadBody l x n hbm map) 24 8 = hbm.toNat := by
  rw [loadBody, leAt_prefix (by simp [leBytes_length])]
  exact leAt_word _ hbm (by simp [leBytes_length])

theorem loadBody_map : (loadBody l x n hbm map).drop 32 = map := by
  rw [loadBody]
  exact List.drop_left' (by simp [leBytes_length])

theorem bodyFault_load (hmap : map.length < 256) : let b := loadBody l x n hbm map
    bodyFault b { len := 32 + leAt b 1 1, zero := rng 2 8, bad := [(0, decide (7 < leAt b 0 1))] } = none := by
  intro b
  have hl := l.isLt
  have hcount : leAt b 1 1 = map.length := by
    have hb : b = leBytes 1 l.val ++ leBytes 1 map.length ++ (zeros 6 ++ leBytes 8 x.toNat ++ leBytes 8 n ++ leBytes 8 hbm.toNat ++ map) := by
      simp only [b, loadBody, List.append_assoc]
    rw [hb, leAt_prefix (by simp [leBytes_length]), leAt_behind _ _ _ (leBytes_length ..)]
    omega
  have hlast : leAt b 0 1 = l.val := by
    simp only [b, loadBody, List.append_assoc]
    exact leAt_front_fin _ l (by decide)
  rw [hcount, hlast]
  refine bodyFault_eq_none (by simp [b, loadBody, leBytes_length]; omega) (fun o ho => ?_) fun y hy => ?_
  · have hmem : o ∈ rng 2 8 := ho
    fin_cases hmem <;> rfl
  · have hy : y = (0, decide (7 < l.val)) := by simpa using hy
    rw [hy]
    exact decide_eq_false (by omega)

end

/-- A LOAD that is accepted reads its image (R308). -/
theorem exec_ncpLoad {x hbm : Word} {n : Nat} {map : List Byte} (hmap : map.length < 256)
    (h : Carried s p 2 g rest (loadBody l x n hbm map)) : exec (.ncpLoad p) s = .next
      { s with dev := ((s.accepted p g rest).startLong (askerOf p g) (some l)).readImage l (askerOf p g) (loadBody l x n hbm map) } := by
  have htake : exec (.ncpLoad p) s = .next { s with dev := s.dev.ncpTake p (isType 2) Dev.runLoad } := rfl
  have hlongs : (s.accepted p g rest).aoc.longs = [] := by rw [accepted_aoc]; exact h.longs
  have hlong : (s.accepted p g rest).longOn l = false := by simp [Dev.longOn, hlongs]
  have hmodule : (s.accepted p g rest).moduleLong = false := by simp [Dev.moduleLong, hlongs]
  rw [htake, h.take, Dev.runLoad, h.run (bodyFault_load l x hbm map hmap)]
  simp only [loadBody_last, hlong, hmodule, Bool.or_false, Bool.false_eq_true, if_false]

/-- A read of an image, by its place, its stacks and its checks (R164, R330). -/
theorem readImage_loadBody (d : Dev) (a : Asker) (x hbm : Word) {n : Nat} (hn : n < 2 ^ 64) (map : List Byte) :
    d.readImage l a (loadBody l x n hbm map) =
      let e := d.updLast l fun y => { y with reading := none }
      if d.imagePlace x.toNat n && !d.rangeAwake x.toNat n then
        (d.updLast l fun y => { y with reading := some (a, loadBody l x n hbm map) }).rangeWake x.toNat n
      else if !d.imagePlace x.toNat n then (e.refuseLoad l.val 1 0).reply (some a) 4 1 []
      else match (e.eccRead x.toNat n).2 with
        | some bad => (e.eccRead x.toNat n).1.reply (some a) 5 (bad - x.toNat) []
        | none =>
          let f := (e.eccRead x.toNat n).1
          if !imageOk (f.rdMem x.toNat n) map then (f.refuseLoad l.val 1 0).reply (some a) 4 1 []
          else if leAt (f.rdMem x.toNat n) 6 1 ≠ 2 then (f.refuseLoad l.val 2 0).reply (some a) 4 2 []
          else
            let i := parseImage (f.rdMem x.toNat n) map hbm.toNat
            if f.loadCheck l i ≠ 0 then (f.refuseLoad l.val (f.loadCheck l i) 0).reply (some a) 4 (f.loadCheck l i) []
            else f.beginLoad l i (some a) (f.rdMem x.toNat n) none := by
  unfold Dev.readImage
  rw [loadBody_addr, loadBody_length l x hbm map hn, loadBody_hbm, loadBody_map]
  rfl

/-- An image that lies nowhere. -/
theorem load_refused {x hbm : Word} {n : Nat} {map : List Byte} (hn : n < 2 ^ 64) (hmap : map.length < 256)
    (h : Carried s p 2 g rest (loadBody l x n hbm map))
    (hplace : ((s.accepted p g rest).startLong (askerOf p g) (some l)).imagePlace x.toNat n = false) : Yields (.ncpLoad p) s fun t =>
      Answered p g rest 4 1 [] true s t ∧ Raised [0x3003] s t ∧ t.dev.last l = { s.dev.last l with reading := none } ∧
        ∀ y, y ≠ l → t.dev.last y = s.dev.last y := by
  have hcalm := (calm_updLast ((s.accepted p g rest).startLong (askerOf p g) (some l)) l fun y => { y with reading := none }).trans
    (calm_refuseLoad _ l.val 1 0)
  have hdone : ((s.accepted p g rest).startLong (askerOf p g) (some l)).readImage l (askerOf p g) (loadBody l x n hbm map) =
      ((((s.accepted p g rest).startLong (askerOf p g) (some l)).updLast l fun y => { y with reading := none }).refuseLoad l.val 1 0).reply
        (some (askerOf p g)) 4 1 [] := by
    rw [readImage_loadBody _ _ x hbm hn map]
    simp only [hplace, Bool.false_and, Bool.not_false, if_true, Bool.false_eq_true, if_false]
  refine ⟨_, exec_ncpLoad hmap h, ?_⟩
  rw [hdone]
  refine ⟨answered_of_reply h.longs h.asked hcalm, ?_⟩
  have hreply := reply_replied ((((s.accepted p g rest).startLong (askerOf p g) (some l)).updLast l fun y =>
    { y with reading := none }).refuseLoad l.val 1 0) (some (askerOf p g)) 4 1 []
  refine ⟨?_, (hreply.last l).trans ?_, fun y hy => (hreply.last y).trans ?_⟩
  · unfold Raised
    rw [hreply.rcd]
    have hrcd : (s.accepted p g rest).aoc.rcd = s.dev.aoc.rcd := by rw [accepted_aoc]
    simp only [Dev.refuseLoad, event_eq, updRcd_rcd]
    show (List.map _ ((s.accepted p g rest).aoc.rcd.raised ++ _)) = _
    rw [hrcd, List.map_append]
    rfl
  · refine (last_updLast_same ((s.accepted p g rest).startLong (askerOf p g) (some l)) l _).trans ?_
    exact congrArg (fun z : Last => { z with reading := none }) (accepted_last s p g rest l)
  · refine (last_updLast ((s.accepted p g rest).startLong (askerOf p g) (some l)) l y _).trans ?_
    rw [if_neg hy]
    exact accepted_last s p g rest y

/-- An image in a stack that sleeps. -/
theorem load_waits {x hbm : Word} {n : Nat} {map : List Byte} (hn : n < 2 ^ 64) (hmap : map.length < 256)
    (h : Carried s p 2 g rest (loadBody l x n hbm map)) (hasleep : s.dev.rangeAwake x.toNat n = false)
    (hplace : ((s.accepted p g rest).startLong (askerOf p g) (some l)).imagePlace x.toNat n = true) : Yields (.ncpLoad p) s fun t =>
      Runs p g rest (some l) s t ∧ t.dev.last l = { s.dev.last l with reading := some (askerOf p g, g.payload.drop 32) } ∧
        ∀ y, y ≠ l → t.dev.last y = s.dev.last y := by
  have hsleep : ((s.accepted p g rest).startLong (askerOf p g) (some l)).rangeAwake x.toNat n = false :=
    Eq.trans ((accepted_units s p g rest).rangeAwake ..) hasleep
  have hdone : ((s.accepted p g rest).startLong (askerOf p g) (some l)).readImage l (askerOf p g) (loadBody l x n hbm map) =
      (((s.accepted p g rest).startLong (askerOf p g) (some l)).updLast l fun y =>
        { y with reading := some (askerOf p g, loadBody l x n hbm map) }).rangeWake x.toNat n := by
    rw [readImage_loadBody _ _ x hbm hn map]
    simp only [hplace, hsleep, Bool.not_false, Bool.and_self, if_true]
  have hstirs := stirs_rangeWake (((s.accepted p g rest).startLong (askerOf p g) (some l)).updLast l fun y =>
    { y with reading := some (askerOf p g, loadBody l x n hbm map) }) x.toNat n
  refine ⟨_, exec_ncpLoad hmap h, ?_⟩
  rw [hdone, h.body]
  refine ⟨runs_of_calm h.longs ((calm_updLast _ l _).trans hstirs.calm), ?_, fun y hy => ?_⟩
  · refine (congrArg (fun v => v.get l) hstirs.lasts).trans ?_
    refine (last_updLast_same ((s.accepted p g rest).startLong (askerOf p g) (some l)) l _).trans ?_
    exact congrArg (fun z : Last => { z with reading := some (askerOf p g, loadBody l x n hbm map) }) (accepted_last s p g rest l)
  · refine (congrArg (fun v => v.get y) hstirs.lasts).trans ?_
    refine (last_updLast ((s.accepted p g rest).startLong (askerOf p g) (some l)) l y _).trans ?_
    rw [if_neg hy]
    exact accepted_last s p g rest y

/-- The checks of an image read no more of the lasts than their states, images and loads. -/
theorem loadCheck_congr {d e : Dev} (hregs : e.regs = d.regs) (hdoms : e.aoc.doms = d.aoc.doms) (l : LastId) (i : Image)
    (himage : ∀ y, (e.last y).image = (d.last y).image) (hst : (e.last l).st = (d.last l).st)
    (hloading : (e.last l).loading = (d.last l).loading) : e.loadCheck l i = d.loadCheck l i := by
  have hreg : ∀ a, e.reg a = d.reg a := fun a => by unfold Dev.reg; rw [hregs]
  unfold Dev.loadCheck Dev.resourcesOk Dev.rangesFree Dev.sharers Dev.coreUnits Dev.widthsOk Dev.hbmOk Dev.width Dev.strandLast Dev.halfOwner
    Dev.tileOwner Dev.patOwner Dev.dom Dev.hbmSize Dev.hbmWays Dev.regFld
  simp only [hreg, hdoms, himage, hst, hloading]

/-- An image that passes every check. -/
theorem readImage_begins (d : Dev) (a : Asker) (x hbm : Word) {n : Nat} (hn : n < 2 ^ 64) (map : List Byte)
    (hawake : d.rangeAwake x.toNat n = true) (hplace : d.imagePlace x.toNat n = true) (hecc : d.eccIn x.toNat n = [])
    (hok : imageOk (d.rdMem x.toNat n) map = true) (htype : leAt (d.rdMem x.toNat n) 6 1 = 2)
    (hcheck : d.loadCheck l (parseImage (d.rdMem x.toNat n) map hbm.toNat) = 0) : d.readImage l a (loadBody l x n hbm map) =
      (d.updLast l fun y => { y with reading := none }).beginLoad l (parseImage (d.rdMem x.toNat n) map hbm.toNat) (some a)
        (d.rdMem x.toNat n) none := by
  have hread : (d.updLast l fun y => { y with reading := none }).eccRead x.toNat n = (d.updLast l fun y => { y with reading := none }, none) :=
    eccRead_clean hecc
  have hcheck' : (d.updLast l fun y => { y with reading := none }).loadCheck l (parseImage (d.rdMem x.toNat n) map hbm.toNat) = 0 := by
    have hsame := last_updLast_same d l fun y => { y with reading := none }
    refine (loadCheck_congr (d := d) (e := d.updLast l fun y => { y with reading := none }) rfl rfl l _ (fun y => ?_) (by rw [hsame])
      (by rw [hsame])).trans hcheck
    rw [last_updLast]
    split
    · subst_vars; rfl
    · rfl
  have hbytes : (d.updLast l fun y => { y with reading := none }).rdMem x.toNat n = d.rdMem x.toNat n := rfl
  rw [readImage_loadBody d _ x hbm hn map]
  simp only [hplace, hawake, hread, hbytes, hok, htype]
  simp [hcheck']

/-- A load that begins wakes its cores and waits for them (R333). -/
theorem beginLoad_last (d : Dev) (l : LastId) (i : Image) (a : Option Asker) (raw : List Byte) (st : Option Standing) (y : LastId) :
    (d.beginLoad l i a raw st).last y =
      if y = l then { d.last l with loading := some (i, a, raw), standing := st } else d.last y := by
  have hlasts : ∀ z, (i.physCores.foldl (fun (e : Dev) c => e.turnOn (.core c)) d).last z = d.last z := fun z =>
    congrArg (fun v => v.get z) (stirs_turnOnCores d i.physCores).lasts
  refine (last_updLast _ l y _).trans ?_
  rw [hlasts, hlasts]

theorem calm_beginLoad (d : Dev) (l : LastId) (i : Image) (a : Option Asker) (raw : List Byte) (st : Option Standing) :
    d.Calm (d.beginLoad l i a raw st) := (stirs_turnOnCores d i.physCores).calm.trans (calm_updLast ..)

theorem empty_of_loadCheck {d : Dev} {i : Image} (h : d.loadCheck l i = 0) : (d.last l).st = .empty := by
  by_contra hst
  unfold Dev.loadCheck at h
  rw [if_pos (by simp [hst])] at h
  exact absurd h (by decide)

theorem load_begins {x hbm : Word} {n : Nat} {map : List Byte} (hn : n < 2 ^ 64) (hmap : map.length < 256)
    (h : Carried s p 2 g rest (loadBody l x n hbm map)) (hawake : s.dev.rangeAwake x.toNat n = true) :
    let d := (s.accepted p g rest).startLong (askerOf p g) (some l)
    d.imagePlace x.toNat n = true → d.eccIn x.toNat n = [] → imageOk (d.rdMem x.toNat n) map = true → leAt (d.rdMem x.toNat n) 6 1 = 2 →
      let i := parseImage (d.rdMem x.toNat n) map hbm.toNat
      d.loadCheck l i = 0 → Yields (.ncpLoad p) s fun t => Runs p g rest (some l) s t ∧
        (t.dev.last l).loading = some (i, some (askerOf p g), d.rdMem x.toNat n) ∧ (t.dev.last l).st = .empty ∧
        ∀ y, y ≠ l → t.dev.last y = s.dev.last y := by
  dsimp only
  intro hplace hecc hok htype hcheck
  have hwoken : ((s.accepted p g rest).startLong (askerOf p g) (some l)).rangeAwake x.toNat n = true :=
    Eq.trans ((accepted_units s p g rest).rangeAwake ..) hawake
  have hempty := empty_of_loadCheck hcheck
  refine ⟨_, exec_ncpLoad hmap h, ?_⟩
  rw [readImage_begins _ _ x hbm hn map hwoken hplace hecc hok htype hcheck]
  refine ⟨runs_of_calm h.longs ((calm_updLast _ l _).trans (calm_beginLoad ..)), ?_, ?_, fun y hy => ?_⟩
  · rw [beginLoad_last, if_pos rfl]
  · rw [beginLoad_last, if_pos rfl]
    exact (congrArg Last.st (last_updLast_same _ l _)).trans hempty
  · rw [beginLoad_last, if_neg hy]
    refine (last_updLast ((s.accepted p g rest).startLong (askerOf p g) (some l)) l y _).trans ?_
    rw [if_neg hy]
    exact accepted_last s p g rest y

end

end Sys2Proof.Machine
end

section
/-!
PROOFS. What the loader and a launch do to the lasts (R142, R164, R320), and the standing programs that follow.
-/

namespace Sys2Proof.Machine

/-! Updates that leave the lasts. -/

/-- `e` differs from `d` neither in its lasts, nor in the standing entries that are due, nor in what requests pass through. -/
structure Dev.Stays (d e : Dev) : Prop extends d.Calm e where
  lasts : e.lasts = d.lasts
  due : e.aoc.trust.standQ = d.aoc.trust.standQ

theorem Dev.Stays.refl (d : Dev) : d.Stays d := ⟨.refl d, rfl, rfl⟩

theorem Dev.Stays.trans {d e f : Dev} (h : d.Stays e) (g : e.Stays f) : d.Stays f :=
  ⟨h.toCalm.trans g.toCalm, g.lasts.trans h.lasts, g.due.trans h.due⟩

theorem Dev.Stays.foldl {α : Type} {f : Dev → α → Dev} (hf : ∀ (e : Dev) x, e.Stays (f e x)) (l : List α) (d : Dev) : d.Stays (l.foldl f d) :=
  List.foldlRecOn (motive := fun e => d.Stays e) l f (.refl d) fun e he x _ => he.trans (hf e x)

theorem Dev.Stays.of_aoc {d e : Dev} (hout : e.out = d.out) (hcycle : e.cycle = d.cycle) (haoc : e.aoc = d.aoc) (hlasts : e.lasts = d.lasts) :
    d.Stays e := ⟨.of_aoc hout hcycle haoc, hlasts, by rw [haoc]⟩

section
variable (d : Dev)

theorem stays_setReg (a : Nat) (v : Word) : d.Stays (d.setReg a v) := .of_aoc rfl rfl rfl rfl

theorem stays_setRegFld (a lo len v : Nat) : d.Stays (d.setRegFld a lo len v) := stays_setReg d a _

theorem stays_updCore (c : CoreId) (f : Core → Core) : d.Stays (d.updCore c f) := .of_aoc rfl rfl rfl rfl

theorem stays_updHub (f : Hub → Hub) : d.Stays (d.updHub f) := .of_aoc rfl rfl rfl rfl

theorem wrMem_eq (a : Nat) (bs : List Byte) : ∃ m ec fs, d.wrMem a bs = { d with mem := m, ecc := ec, fills := fs } := by
  unfold Dev.wrMem
  dsimp only
  split
  · exact ⟨_, _, d.fills, rfl⟩
  · exact ⟨_, _, _, rfl⟩

theorem stays_wrMem (a : Nat) (bs : List Byte) : d.Stays (d.wrMem a bs) := by
  obtain ⟨m, ec, fs, h⟩ := wrMem_eq d a bs
  rw [h]
  exact .of_aoc rfl rfl rfl rfl

theorem stays_measure (kind unit : Nat) (digest : List Byte) (info : Nat) : d.Stays (d.measure kind unit digest info) :=
  ⟨⟨rfl, rfl, d.aoc.doms, d.aoc.rcd, _, d.aoc.restoring, rfl⟩, rfl, rfl⟩

theorem stays_event (code sev : Nat) (bs : List Byte) : d.Stays (d.event code sev bs) := ⟨calm_event .., rfl, rfl⟩

theorem stays_eventN (code sev : Nat) (bs : List Byte) (n : Nat × Nat × Nat × Nat × Nat) : d.Stays (d.eventN code sev bs n) :=
  ⟨calm_eventN .., rfl, rfl⟩

theorem stays_notedBy {e : Dev} (h : d.NotedBy e) : d.Stays e := by
  have hcalm := calm_notedBy h
  obtain ⟨rg, nw, rc, rfl⟩ := h
  exact ⟨hcalm, rfl, rfl⟩

theorem stays_when {p : Prop} [Decidable p] {e : Dev} (h : d.Stays e) : d.Stays (if p then e else d) := by
  split
  · exact h
  · exact .refl d

theorem stays_putSect (i : Image) (x : Sect) : d.Stays (d.putSect i x) := by
  unfold Dev.putSect
  split
  · exact stays_wrMem d _ _
  · exact stays_wrMem d _ _
  · exact stays_wrMem d _ _
  · exact stays_updCore d _ _

theorem stays_assignUnits (l : LastId) (en : Bool) (c : LCore) : d.Stays (d.assignUnits l en c) := by
  refine .foldl ?_ _ d
  intro e a
  refine Dev.Stays.trans (.foldl ?_ _ e) (.foldl ?_ _ _)
  · exact fun e _ => stays_when e (stays_setRegFld e ..)
  · exact fun e _ => stays_when e (stays_setRegFld e ..)

theorem stays_assign (l : LastId) (en : Bool) (c : LCore) : d.Stays (d.assign l en c) := by
  unfold Dev.assign
  refine Dev.Stays.trans ?_ (stays_when _ (stays_setRegFld _ ..))
  refine Dev.Stays.trans ?_ (stays_assignUnits _ l en c)
  refine .foldl ?_ _ d
  exact fun e _ => stays_when e (stays_setRegFld e ..)

theorem stays_strandFirst (cs : List CoreId) : d.Stays (d.strandFirst cs) := .of_aoc rfl rfl rfl rfl

theorem stays_clearFault (l : LastId) : d.Stays (d.clearFault l) := .foldl (fun e _ => stays_setReg e ..) _ d

end

/-! The loader. -/

section
variable {l : LastId}

/-- The loader makes the last LOADED (R164). -/
theorem writeImage_lasts (d : Dev) (l : LastId) (i : Image) (raw : List Byte) : ∃ e, d.Stays e ∧
    d.writeImage l i raw = e.updLast l fun x => { x with st := .loaded, image := some i, loading := none } :=
  ⟨_, ((((Dev.Stays.foldl (fun e x => stays_putSect e i x) _ d).trans (.foldl (fun e c => stays_assign e l true c) _ _)).trans
    (stays_setReg _ _ _)).trans (stays_measure _ _ _ _ _)), rfl⟩

/-- A launch makes the last RUNNING (R142). -/
theorem launch_lasts {d : Dev} {i : Image} (h : (d.last l).image = some i) : ∃ e, d.Stays e ∧
    d.launch l = e.updLast l fun x => { x with st := .running, pendingLaunch := none, pausing := none } := by
  unfold Dev.launch
  rw [h]
  refine ⟨_, ?_, rfl⟩
  refine Dev.Stays.trans ?_ (stays_clearFault _ l)
  refine Dev.Stays.trans ?_ (stays_strandFirst _ _)
  refine Dev.Stays.trans ?_ (.foldl (fun e c => stays_assignUnits e l true c) _ _)
  refine Dev.Stays.trans ?_ (.foldl (fun e x => stays_updCore e _ _) _ _)
  refine .foldl ?_ _ d
  intro e c
  refine Dev.Stays.trans ?_ (stays_setReg _ _ _)
  refine Dev.Stays.trans ?_ (stays_setReg _ _ _)
  refine Dev.Stays.trans ?_ (.foldl (fun e _ => .foldl (fun e _ => stays_when e (stays_setReg e ..)) _ e) _ _)
  refine Dev.Stays.trans ?_ (.foldl (fun e _ => stays_when e (stays_setReg e ..)) _ _)
  exact stays_updCore e _ _

/-- A load that begins touches no last that holds something: its own is EMPTY. -/
theorem beginLoad_keeps {m : Dev} {x : LastId} {i : Image} (hcheck : m.loadCheck x i = 0) (h : (m.last l).st ≠ .empty) (a : Option Asker)
    (raw : List Byte) (st : Option Standing) : (m.beginLoad x i a raw st).last l = m.last l := by
  rw [beginLoad_last, if_neg]
  rintro rfl
  exact h (empty_of_loadCheck hcheck)

theorem noticed_last (d : Dev) (e : StandId) (x kind n i k : Nat) : ((d.standNotice e x kind n).acnt i k).last l = d.last l := count_last ..

/-- The load of a standing program touches no last that holds something (R320). -/
theorem standLoad_last {d : Dev} (e : StandId) (n : Nat) (h : (d.last l).st ≠ .empty) : (d.standLoad e n).last l = d.last l := by
  unfold Dev.standLoad
  dsimp only
  split
  · rfl
  · split
    · rfl
    · split
      · rfl
      · split
        · rfl
        · rename_i hcheck
          generalize hmeasured : d.measure 4 e.val (sha384 _) 0 = m at hcheck ⊢
          have hm : m.last l = d.last l := by rw [← hmeasured]; rfl
          rw [← hm] at h
          split
          · exact (beginLoad_keeps (not_not.mp hcheck) h ..).trans hm
          · exact (noticed_last ..).trans ((beginLoad_keeps (not_not.mp hcheck) h ..).trans hm)

theorem standGo_last (n : Nat) {d : Dev} (h : (d.last l).st ≠ .empty) : (Dev.standGo n d).last l = d.last l := by
  induction n generalizing d with
  | zero => rfl
  | succ n ih =>
    unfold Dev.standGo
    split
    · rfl
    · rename_i x rest _
      split
      · rfl
      · have hload := standLoad_last (d := d.updTrust fun t => { t with standQ := rest }) x.1 x.2 h
        rw [ih (by rw [hload]; exact h), hload]
        rfl

theorem standNext_last {d : Dev} (h : (d.last l).st ≠ .empty) : d.standNext.last l = d.last l := standGo_last _ h

theorem standNext_of_none {d : Dev} (h : d.aoc.trust.standQ = []) : d.standNext = d := by
  unfold Dev.standNext
  rw [h]
  rfl

variable {s : State}

/-- The loader, once its cores are ON and the checks still hold. -/
theorem exec_loaderWriteSections {i : Image} {a : Option Asker} {raw : List Byte} (hloading : (s.dev.last l).loading = some (i, a, raw))
    (hready : s.dev.coresReady i = true) (hawake : ∀ x ∈ i.hbmSects, s.dev.rangeAwake x.1 x.2 = true)
    (hcheck : (s.dev.updLast l fun x => { x with loading := none }).loadCheck l i = 0) :
    exec (.loaderWriteSections l) s = .next { s with dev := (if (s.dev.last l).standing.isSome && a.isNone then
      ((s.dev.writeImage l i raw).reply a 0 0 []).launch l else (s.dev.writeImage l i raw).reply a 0 0 []).standNext } := by
  have hall : i.hbmSects.all (fun x => s.dev.rangeAwake x.1 x.2) = true := List.all_eq_true.mpr hawake
  show execLoaderWriteSections l s = _
  unfold execLoaderWriteSections onDev
  simp [hloading, hready, hall, hcheck]

/-- What the loader leaves of the lasts, before the standing programs that follow. -/
theorem loaded_lasts (d : Dev) (i : Image) (a : Option Asker) (raw : List Byte) (go : Bool) :
    let e := if go then ((d.writeImage l i raw).reply a 0 0 []).launch l else (d.writeImage l i raw).reply a 0 0 []
    e.aoc.trust.standQ = d.aoc.trust.standQ ∧ (∀ y, y ≠ l → e.last y = d.last y) ∧
      (e.last l).image = some i ∧ (e.last l).loading = none ∧ (e.last l).st = if go then .running else .loaded := by
  obtain ⟨f, hstays, hwrite⟩ := writeImage_lasts d l i raw
  have hreply := reply_replied (d.writeImage l i raw) a 0 0 []
  have hdue : ((d.writeImage l i raw).reply a 0 0 []).aoc.trust.standQ = d.aoc.trust.standQ := by
    have hdue : ((d.writeImage l i raw).reply a 0 0 []).aoc.trust = (d.writeImage l i raw).aoc.trust := by
      obtain ⟨⟨rg, nw, fi, ou, ls, ca, h⟩, -⟩ := hreply
      rw [h]
    rw [hdue, hwrite]
    exact hstays.due
  have hlast : ∀ y, ((d.writeImage l i raw).reply a 0 0 []).last y =
      if y = l then { d.last l with st := .loaded, image := some i, loading := none } else d.last y := fun y => by
    have hsame : ∀ z, f.last z = d.last z := fun z => congrArg (fun v => v.get z) hstays.lasts
    rw [hreply.last, hwrite, last_updLast, hsame, hsame]
  cases go with
  | false => exact ⟨hdue, fun y hy => (hlast y).trans (if_neg hy), by simp [hlast], by simp [hlast], by simp [hlast]⟩
  | true =>
    obtain ⟨e, hstays', hlaunch⟩ := launch_lasts (l := l) (d := (d.writeImage l i raw).reply a 0 0 []) (i := i) (by simp [hlast])
    have hsame : ∀ z, e.last z = _ := fun z => congrArg (fun v => v.get z) hstays'.lasts
    simp only [if_true, hlaunch]
    refine ⟨hstays'.due.trans hdue, fun y hy => ?_, ?_, ?_, ?_⟩
    · rw [last_updLast, if_neg hy]
      exact (hsame y).trans ((hlast y).trans (if_neg hy))
    all_goals
      rw [last_updLast_same]
    · exact (congrArg Last.image ((hsame l).trans (hlast l))).trans (by simp)
    · exact (congrArg Last.loading ((hsame l).trans (hlast l))).trans (by simp)

/-- LOADER_WRITE_SECTIONS loads the last, and launches a standing program (R164, R320). -/
theorem loader_loads {i : Image} {a : Option Asker} {raw : List Byte} (hloading : (s.dev.last l).loading = some (i, a, raw))
    (hready : s.dev.coresReady i = true) (hawake : ∀ x ∈ i.hbmSects, s.dev.rangeAwake x.1 x.2 = true)
    (hcheck : (s.dev.updLast l fun x => { x with loading := none }).loadCheck l i = 0) :
    Yields (.loaderWriteSections l) s fun t => (t.dev.last l).image = some i ∧ (t.dev.last l).loading = none ∧
      (t.dev.last l).st = (if (s.dev.last l).standing.isSome && a.isNone then .running else .loaded) ∧
      (s.dev.aoc.trust.standQ = [] → ∀ y, y ≠ l → t.dev.last y = s.dev.last y) := by
  refine ⟨_, exec_loaderWriteSections hloading hready hawake hcheck, ?_⟩
  obtain ⟨hdue, hother, himage, hload, hst⟩ := loaded_lasts (l := l) s.dev i a raw ((s.dev.last l).standing.isSome && a.isNone)
  generalize hgo : ((s.dev.last l).standing.isSome && a.isNone) = go at *
  have hkept := standNext_last (l := l) (d := if go then ((s.dev.writeImage l i raw).reply a 0 0 []).launch l else
    (s.dev.writeImage l i raw).reply a 0 0 []) (by rw [hst]; cases go <;> simp)
  refine ⟨(congrArg Last.image hkept).trans himage, (congrArg Last.loading hkept).trans hload, (congrArg Last.st hkept).trans hst,
    fun hnone y hy => ?_⟩
  dsimp only
  rw [standNext_of_none (hdue.trans hnone)]
  exact hother y hy

end

end Sys2Proof.Machine
end

section
/-!
PROOFS. The requests CKPT and RESTORE (R298, R300, R301): what begins, and what CKP_STAT shows of it.
-/

namespace Sys2Proof.Machine

/-! CKP_STAT. -/

theorem fld_setFld (w : Word) {lo len : Nat} (h : lo + len ≤ 64) (v : Nat) : fld (setFld w lo len v) lo len = v % 2 ^ len := by
  refine Nat.eq_of_testBit_eq fun i => ?_
  rw [testBit_fld, getLsbD_setFld w h, Nat.testBit_mod_two_pow]
  by_cases hi : i < len <;> simp [hi]

theorem regFld_setRegFld (d : Dev) (a : Nat) {lo len : Nat} (h : lo + len ≤ 64) (v : Nat) :
    (d.setRegFld a lo len v).regFld a lo len = v % 2 ^ len := by
  unfold Dev.regFld Dev.setRegFld
  rw [reg_setReg_same]
  exact fld_setFld _ h v

theorem regFld_setRegFld_other (d : Dev) (a : Nat) {lo len lo' len' : Nat} (h : lo + len ≤ 64) (hapart : lo' + len' ≤ lo ∨ lo + len ≤ lo')
    (v : Nat) : (d.setRegFld a lo len v).regFld a lo' len' = d.regFld a lo' len' := by
  unfold Dev.regFld Dev.setRegFld
  rw [reg_setReg_same]
  exact fld_setFld_other _ h hapart v

theorem ckpState_state (d : Dev) {n : Nat} (h : n < 8) : (d.ckpState n).regFld (aCkp 8) 0 3 = n :=
  (regFld_setRegFld d (aCkp 8) (by decide) n).trans (Nat.mod_eq_of_lt h)

theorem uncounted_aCkp {o : Nat} : Uncounted (aCkp o) := by
  right
  unfold aCkp regAddr
  omega

theorem regFld_of_reg {d e : Dev} {a : Nat} (h : e.reg a = d.reg a) (lo len : Nat) : e.regFld a lo len = d.regFld a lo len := by
  unfold Dev.regFld
  rw [h]

section
variable (s : State) (p : CtlId) (g : Datagram) (rest : List Datagram)

theorem accepted_ckpBusy : (s.accepted p g rest).ckpBusy = s.dev.ckpBusy := by
  unfold Dev.ckpBusy
  rw [regFld_of_reg (accepted_reg s p g rest uncounted_aCkp), accepted_aoc]

theorem accepted_saveAddrOk (x : Word) : (s.accepted p g rest).saveAddrOk x = s.dev.saveAddrOk x := by
  unfold Dev.saveAddrOk
  rw [(accepted_units s p g rest).hbmSize]

end

/-! RESTORE. -/

theorem areaWake_stirs {d e : Dev} {a : Nat} (h : d.areaWake a = some e) : d.Stirs e := by
  unfold Dev.areaWake at h
  dsimp only at h
  generalize (if d.rangeAwake a 4096 = true then d.areaLength a else 4096) = n at h
  split at h
  · exact absurd h (by simp)
  · rw [← Option.some.inj h]
    exact stirs_rangeWake d _ _

theorem beginRestore_stirs (d : Dev) (r : Restoring) :
    ((d.updAoc fun x => { x with restoring := x.restoring ++ [r] }).ckpState 5).Stirs (d.beginRestore r) := by
  unfold Dev.beginRestore
  dsimp only
  split
  · rename_i e he
    exact areaWake_stirs he
  · split
    · exact .refl _
    · split
      · exact .refl _
      · exact stirs_turnOnCores _ _

/-- A restore that begins is the youngest of those that run, and CKP_STAT shows it (R301). -/
theorem beginRestore_begins (d : Dev) (r : Restoring) : d.Calm (d.beginRestore r) ∧ (d.beginRestore r).lasts = d.lasts ∧
    (d.beginRestore r).regFld (aCkp 8) 0 3 = 5 ∧ (d.beginRestore r).aoc.restoring = d.aoc.restoring ++ [r] := by
  have hstirs := beginRestore_stirs d r
  have hcalm : d.Calm ((d.updAoc fun x => { x with restoring := x.restoring ++ [r] }).ckpState 5) := ⟨rfl, rfl, _, _, _, _, rfl⟩
  refine ⟨hcalm.trans hstirs.calm, hstirs.lasts, (regFld_of_reg hstirs.ckp 0 3).trans (ckpState_state _ (by decide)), ?_⟩
  obtain ⟨⟨rg, nw, ds, rc, hrest⟩, -⟩ := hstirs
  rw [hrest]
  rfl

section
variable {s : State} {p : CtlId} {g : Datagram} {rest : List Datagram} {l : LastId}

/-- The body of a RESTORE (Table 11.3). -/
def restoreBody (mod : Bool) (l : LastId) (x : Word) : List Byte := leBytes 1 (b2n mod) ++ leBytes 1 l.val ++ zeros 6 ++ leBytes 8 x.toNat

section
variable (mod : Bool) (l : LastId) (x : Word)

theorem restoreBody_scope : leAt (restoreBody mod l x) 0 1 = b2n mod := by
  simp only [restoreBody, List.append_assoc]
  rw [leAt_front]
  cases mod <;> rfl

theorem restoreBody_last : leAt (restoreBody mod l x) 1 1 = l.val := by
  have hl := l.isLt
  have hb : restoreBody mod l x = leBytes 1 (b2n mod) ++ leBytes 1 l.val ++ (zeros 6 ++ leBytes 8 x.toNat) := by
    simp only [restoreBody, List.append_assoc]
  rw [hb, leAt_prefix (by simp [leBytes_length]), leAt_behind _ _ _ (leBytes_length ..)]
  omega

theorem restoreBody_addr : leAt (restoreBody mod l x) 8 8 = x.toNat := leAt_word _ x (by simp [leBytes_length])

end

/-- Where a RESTORE restores to, and what it begins. -/
def restoring (mod : Bool) (l : LastId) (x : Word) (a : Asker) : Restoring := ⟨x.toNat, some a, none, if mod then .module else .last l⟩

/-- The device in which an accepted long request begins to run. -/
def State.begun (s : State) (p : CtlId) (g : Datagram) (rest : List Datagram) (l : Option LastId) : Dev :=
  (s.accepted p g rest).startLong (askerOf p g) l

theorem begun_lasts (s : State) (p : CtlId) (g : Datagram) (rest : List Datagram) (l : Option LastId) :
    (s.begun p g rest l).lasts = s.dev.lasts := accepted_lasts s p g rest

theorem begun_aoc (s : State) (p : CtlId) (g : Datagram) (rest : List Datagram) (l : Option LastId) :
    (s.begun p g rest l).aoc = { (s.accepted p g rest).aoc with longs := (s.accepted p g rest).aoc.longs ++ [⟨askerOf p g, l⟩] } := rfl

theorem begun_restoring (s : State) (p : CtlId) (g : Datagram) (rest : List Datagram) (l : Option LastId) :
    (s.begun p g rest l).aoc.restoring = s.dev.aoc.restoring := by
  rw [begun_aoc, accepted_aoc]

theorem exec_ncpRestore {mod : Bool} {x : Word} (h : Carried s p 15 g rest (restoreBody mod l x)) (haddr : s.dev.saveAddrOk x = true)
    (hfree : s.dev.ckpBusy = false) : exec (.ncpRestore p) s = .next
      { s with dev := (s.begun p g rest (if mod then none else some l)).beginRestore (restoring mod l x (askerOf p g)) } := by
  have hl := l.isLt
  have htake : exec (.ncpRestore p) s = .next { s with dev := s.dev.ncpTake p (isType 15) Dev.runRestore } := rfl
  have hlongs : (s.accepted p g rest).aoc.longs = [] := by rw [accepted_aoc]; exact h.longs
  have hword : BitVec.ofNat 64 (leAt (restoreBody mod l x) 8 8) = x := by rw [restoreBody_addr]; exact BitVec.ofNat_toNat ..
  have hok : (s.accepted p g rest).saveAddrOk x = true := (accepted_saveAddrOk ..).trans haddr
  have hbody : bodyFault (restoreBody mod l x) ⟨16, rng 2 8, [(0, decide (1 < leAt (restoreBody mod l x) 0 1)),
      (1, decide (7 < leAt (restoreBody mod l x) 1 1)),
      (8, !(s.accepted p g rest).saveAddrOk (BitVec.ofNat 64 (leAt (restoreBody mod l x) 8 8)))], false, false, false⟩ = none := by
    refine bodyFault_eq_none (by simp [restoreBody, leBytes_length]) (fun o ho => ?_) fun y hy => ?_
    · have hmem : o ∈ rng 2 8 := ho
      fin_cases hmem <;> rfl
    · rw [hword, hok, restoreBody_scope, restoreBody_last] at hy
      have hscope : b2n mod ≤ 1 := by cases mod <;> decide
      have hall : ∀ z ∈ [(0, decide (1 < b2n mod)), (1, decide (7 < l.val)), (8, !true)], z.2 = false := by
        simp
        omega
      exact hall y hy
  have hname : last_of l.val = l := finOf_val l
  have hmodule : (s.accepted p g rest).moduleLong = false := by simp [Dev.moduleLong, hlongs]
  have hbusy : (s.accepted p g rest).ckpBusy = false := (accepted_ckpBusy ..).trans hfree
  rw [htake, h.take, Dev.runRestore]
  dsimp only
  rw [h.run hbody]
  simp only [hword, restoreBody_scope, restoreBody_last, hname, hmodule, hbusy, hlongs]
  cases mod
  · simp [b2n, restoring, Dev.longOn, hlongs, State.begun]
  · simp [b2n, restoring, State.begun]

/-- RESTORE begins a restore (R301). -/
theorem restore_begins {mod : Bool} {x : Word} (h : Carried s p 15 g rest (restoreBody mod l x)) (haddr : s.dev.saveAddrOk x = true)
    (hfree : s.dev.ckpBusy = false) : Yields (.ncpRestore p) s fun t =>
      Runs p g rest (if mod then none else some l) s t ∧ t.dev.lasts = s.dev.lasts ∧ t.dev.regFld (aCkp 8) 0 3 = 5 ∧
        t.dev.aoc.restoring = s.dev.aoc.restoring ++ [restoring mod l x (askerOf p g)] := by
  refine ⟨_, exec_ncpRestore h haddr hfree, ?_⟩
  generalize restoring mod l x (askerOf p g) = r
  generalize (if mod then none else some l) = scope
  obtain ⟨hcalm, hlasts, hstate, hrestoring⟩ := beginRestore_begins (s.begun p g rest scope) r
  exact ⟨runs_of_calm h.longs hcalm, hlasts.trans (begun_lasts ..), hstate, by rw [← begun_restoring s p g rest scope]; exact hrestoring⟩

end

end Sys2Proof.Machine
end

section
/-!
PROOFS. CKPT (R298, R300): the lasts that it asks to pause, and the save instant that comes at once where none runs.
-/

namespace Sys2Proof.Machine

/-! Updates that leave the messages and the checkpoint. -/

/-- `e` differs from `d` neither in its checkpoint nor in what requests pass through. -/
structure Dev.Bears (d e : Dev) : Prop extends d.Calm e where
  ckpt : e.hub.ckpt = d.hub.ckpt

theorem Dev.Bears.refl (d : Dev) : d.Bears d := ⟨.refl d, rfl⟩

theorem Dev.Bears.trans {d e f : Dev} (h : d.Bears e) (g : e.Bears f) : d.Bears f := ⟨h.toCalm.trans g.toCalm, g.ckpt.trans h.ckpt⟩

theorem Dev.Bears.foldl {α : Type} {f : Dev → α → Dev} (hf : ∀ (e : Dev) x, e.Bears (f e x)) (l : List α) (d : Dev) : d.Bears (l.foldl f d) :=
  List.foldlRecOn (motive := fun e => d.Bears e) l f (.refl d) fun e he x _ => he.trans (hf e x)

theorem Dev.Bears.foldl_fst {α β : Type} {f : Dev × β → α → Dev × β} (hf : ∀ (s : Dev × β) x, s.1.Bears (f s x).1) (l : List α)
    (s : Dev × β) : s.1.Bears (l.foldl f s).1 :=
  List.foldlRecOn (motive := fun r => s.1.Bears r.1) l f (.refl _) fun r hr x _ => hr.trans (hf r x)

section
variable (d : Dev)

theorem Dev.Bears.of_aoc {d e : Dev} (hout : e.out = d.out) (hcycle : e.cycle = d.cycle) (haoc : e.aoc = d.aoc)
    (hckpt : e.hub.ckpt = d.hub.ckpt) : d.Bears e := ⟨.of_aoc hout hcycle haoc, hckpt⟩

theorem bears_notedBy {e : Dev} (h : d.NotedBy e) : d.Bears e := by
  have hcalm := calm_notedBy h
  obtain ⟨rg, nw, rc, rfl⟩ := h
  exact ⟨hcalm, rfl⟩

theorem bears_now (nw : Now) : d.Bears { d with now := nw } := .of_aoc rfl rfl rfl rfl

theorem bears_updCore (c : CoreId) (f : Core → Core) : d.Bears (d.updCore c f) := .of_aoc rfl rfl rfl rfl

theorem bears_setReg (a : Nat) (v : Word) : d.Bears (d.setReg a v) := .of_aoc rfl rfl rfl rfl

theorem bears_unheld (gone : List Op) : d.Bears (d.unheld gone) := .foldl (fun e _ => bears_updCore e ..) _ d

theorem bears_dropQueued (l : LastId) : d.Bears (d.dropQueued l) := by
  unfold Dev.dropQueued
  refine Dev.Bears.trans ?_ (bears_unheld _ _)
  exact .of_aoc rfl rfl rfl rfl

theorem bears_ksBreak (k : KeyId) (but : Option LinkId) : d.Bears (d.ksBreak k but) := .of_aoc rfl rfl rfl rfl

theorem bears_recordFault (cause : Nat) (o : Origin) (detail : Word) (extra : Nat) : d.Bears (d.recordFault cause o detail extra) := by
  obtain ⟨rg, h⟩ := recordFault_eq d cause o detail extra
  rw [h]
  exact .of_aoc rfl rfl rfl rfl

theorem bears_faultStops (l : LastId) : d.Bears (d.faultStops l) := by
  unfold Dev.faultStops
  dsimp only
  refine Dev.Bears.trans ?_ (.foldl (fun e k => bears_ksBreak e k none) _ _)
  refine Dev.Bears.trans ?_ (.foldl (fun e c => bears_updCore e c _) _ _)
  refine Dev.Bears.trans ?_ (bears_dropQueued _ l)
  obtain ⟨cs, h⟩ := haltStrands_rest d (d.strandsOf l)
  rw [h]
  exact .of_aoc rfl rfl rfl rfl

theorem bears_updLast (l : LastId) (f : Last → Last) : d.Bears (d.updLast l f) := .of_aoc rfl rfl rfl rfl

theorem bears_eventN (code sev : Nat) (bs : List Byte) (n : Nat × Nat × Nat × Nat × Nat) : d.Bears (d.eventN code sev bs n) :=
  ⟨calm_eventN .., rfl⟩

/-- A fault that stops its last (R159). -/
theorem faultInfo_stops {d : Dev} {o : Origin} (cause : Nat) (detail : Word) (info : Nat) (hst : (d.last o.last).st ≠ .stopped)
    (hgo : (d.last o.last).st = .running ∨ ((d.last o.last).st = .done && d.now.dones.contains o.last) = true) :
    ∃ nw bs n, d.faultInfo cause o detail info = Dev.eventN { ((d.faultStops o.last).recordFault cause o detail 0).updLast o.last (fun x =>
      { x with st := .stopped, pendingLaunch := none }) with now := nw } 0x3001 2 bs n := by
  unfold Dev.faultInfo
  rw [if_neg hst, if_pos (by simpa using hgo)]
  exact ⟨_, _, _, rfl⟩

theorem bears_fault (cause : Nat) (o : Origin) (detail : Word) : d.Bears (d.fault cause o detail) := by
  by_cases hst : (d.last o.last).st = .stopped
  · unfold Dev.fault Dev.faultInfo
    rw [if_pos hst]
    dsimp only
    split
    · split
      · exact (bears_recordFault d cause o detail (d.regFld (aLstFlt o.last 0) 16 16 + 1)).trans (bears_now _ _)
      · exact bears_setReg d _ _
    · exact bears_setReg d _ _
  · by_cases hgo : (d.last o.last).st = .running ∨ ((d.last o.last).st = .done && d.now.dones.contains o.last) = true
    · obtain ⟨nw, bs, n, h⟩ := faultInfo_stops cause detail 0 hst hgo
      rw [Dev.fault, h]
      refine Dev.Bears.trans ?_ (bears_eventN _ ..)
      refine Dev.Bears.trans ?_ (bears_now _ nw)
      exact ((bears_faultStops d o.last).trans (bears_recordFault _ cause o detail 0)).trans (bears_updLast _ _ _)
    · unfold Dev.fault Dev.faultInfo
      rw [if_neg hst, if_neg (by simpa using hgo)]
      exact .refl d

theorem bears_faultBare (l : LastId) (cause : Nat) (detail : Word) : d.Bears (d.faultBare l cause detail) := by
  unfold Dev.faultBare
  split
  · exact bears_fault d ..
  · exact bears_fault d ..

theorem bears_saveScan (l : LastId) : d.Bears (d.saveScan l).1 := by
  unfold Dev.saveScan
  split
  · exact .refl d
  · split
    · exact .refl d
    · refine .foldl_fst ?_ _ (d, false)
      intro s c
      refine .foldl_fst ?_ _ s
      intro s a
      refine .foldl_fst ?_ _ s
      intro s t
      dsimp only
      have hmarks : ∀ (xs : List Nat), s.1.Bears (xs.foldl (fun (r : Dev × Bool) n =>
          ((r.1.bedEcc c.phys a t (n / 64) (n % 64)).1, r.2 || (r.1.bedEcc c.phys a t (n / 64) (n % 64)).2)) (s.1, false)).1 := fun xs =>
        .foldl_fst (f := fun (r : Dev × Bool) n =>
          ((r.1.bedEcc c.phys a t (n / 64) (n % 64)).1, r.2 || (r.1.bedEcc c.phys a t (n / 64) (n % 64)).2))
          (fun r n => bears_notedBy r.1 (notedBy_bedEccIn r.1 ..)) xs (s.1, false)
      split
      · exact (hmarks _).trans (bears_updCore _ _ _)
      · exact hmarks _

theorem bears_scanOther (l : LastId) : d.Bears (d.scanOther l) := by
  unfold Dev.scanOther
  dsimp only
  split
  · exact (bears_saveScan d l).trans (bears_faultBare _ ..)
  · exact bears_saveScan d l

theorem bears_readSlices (ls : List LastId) : d.Bears (d.readSlices ls) := by
  unfold Dev.readSlices
  split
  · exact .refl d
  · exact .foldl (fun e c => bears_notedBy e (notedBy_eccRead e ..)) _ d

theorem bears_latchSave (addr : Nat) (scope : SaveScope) (ls : List LastId) : d.Bears (d.latchSave addr scope ls) :=
  (bears_readSlices d ls).trans (.of_aoc rfl rfl rfl rfl)

theorem bears_ckpState (n : Nat) : d.Bears (d.ckpState n) := bears_setReg d _ _

end

/-! The lasts that pause. -/

/-- Every last of the list is asked to pause, for a save (R298). -/
def Dev.askPauses (d : Dev) (xs : List LastId) : Dev :=
  xs.foldl (fun (d : Dev) l => d.startPause l ⟨none, false, none, none, false, 0, d.cycle, true⟩) d

theorem askPauses_eq (d : Dev) (xs : List LastId) : ∃ ls, d.askPauses xs = { d with lasts := ls } :=
  List.foldlRecOn (motive := fun (e : Dev) => ∃ ls, e = { d with lasts := ls }) xs _ ⟨d.lasts, rfl⟩ fun e ⟨ls, he⟩ x _ => by
    rw [he]
    exact ⟨_, rfl⟩

theorem startPause_last (d : Dev) (l y : LastId) (q : Pausing) : (d.startPause l q).last y =
    if y = l then { d.last l with pausing := some { q with began := d.cycle } } else d.last y := last_updLast ..

theorem askPauses_st (d : Dev) (xs : List LastId) (y : LastId) : ((d.askPauses xs).last y).st = (d.last y).st :=
  List.foldlRecOn (motive := fun (e : Dev) => (e.last y).st = (d.last y).st) xs _ rfl fun e he x _ => by
    rw [startPause_last]
    split
    · rename_i h
      exact h ▸ he
    · exact he

theorem askPauses_pausing (d : Dev) (xs : List LastId) {y : LastId} (h : (d.last y).pausing.isSome = true ∨ y ∈ xs) :
    ((d.askPauses xs).last y).pausing.isSome = true := by
  unfold Dev.askPauses
  induction xs generalizing d with
  | nil => exact h.resolve_right List.not_mem_nil
  | cons x xs ih =>
    refine ih _ ?_
    by_cases hx : y = x
    · left
      rw [startPause_last, if_pos hx]
      rfl
    · rw [startPause_last, if_neg hx]
      exact h.imp_right fun h => (List.mem_cons.mp h).resolve_left hx

/-! The save instant. -/

/-- Where every last that runs is asked to pause already, a checkpoint adds none; it waits while one runs (R298). -/
theorem ckpCopy_eq {d : Dev} {k : Ckpt} (hckpt : d.hub.ckpt = some k) (hstate : d.regFld (aCkp 8) 0 3 = 1)
    (hasked : ∀ l, (d.last l).st = .running → (d.last l).pausing.isSome = true) : d.ckpCopy =
      let e := d.updHub fun h => { h with ckpt := some k }
      if allLasts.any fun l => (e.last l).st == .running then e
      else (((e.liveLasts.filter fun l => !k.resume.contains l).foldl (fun (e : Dev) l => e.scanOther l) e).latchSave
        (((e.liveLasts.filter fun l => !k.resume.contains l).foldl (fun (e : Dev) l => e.scanOther l) e).regFld (aCkp 0) 0 39) .module
        ((e.liveLasts.filter fun l => !k.resume.contains l).foldl (fun (e : Dev) l => e.scanOther l) e).liveLasts).ckpState 2 := by
  have hnew : (allLasts.filter fun l => (d.last l).st == .running && (d.last l).pausing.isNone) = [] := by
    refine List.filter_eq_nil_iff.mpr fun l _ => ?_
    intro h
    simp only [Bool.and_eq_true, beq_iff_eq, Option.isNone_iff_eq_none] at h
    have := hasked l h.1
    rw [h.2] at this
    exact absurd this (by decide)
  unfold Dev.ckpCopy
  rw [hckpt]
  simp only [hstate, hnew, List.foldl_nil, List.append_nil, bne_self_eq_false, Bool.false_eq_true, if_false]

/-- A checkpoint that finds every running last asked to pause: it waits, or it saves at once. -/
theorem ckpCopy_waits_or_saves {d : Dev} {k : Ckpt} (hckpt : d.hub.ckpt = some k) (hstate : d.regFld (aCkp 8) 0 3 = 1)
    (hasked : ∀ l, (d.last l).st = .running → (d.last l).pausing.isSome = true) : d.Calm d.ckpCopy ∧ d.ckpCopy.hub.ckpt = some k ∧
      ((∃ l, (d.last l).st = .running) → d.ckpCopy.lasts = d.lasts ∧ d.ckpCopy.regFld (aCkp 8) 0 3 = 1) ∧
      ((∀ l, (d.last l).st ≠ .running) → d.ckpCopy.regFld (aCkp 8) 0 3 = 2) := by
  have hbegun : d.Bears (d.updHub fun h => { h with ckpt := some k }) := .of_aoc rfl rfl rfl hckpt.symm
  have hlast : ∀ l, (d.updHub fun h => { h with ckpt := some k }).last l = d.last l := fun _ => rfl
  have hlasts : (d.updHub fun h => { h with ckpt := some k }).lasts = d.lasts := rfl
  have hreg : (d.updHub fun h => { h with ckpt := some k }).regFld (aCkp 8) 0 3 = d.regFld (aCkp 8) 0 3 := rfl
  rw [ckpCopy_eq hckpt hstate hasked]
  generalize d.updHub (fun h => { h with ckpt := some k }) = e at *
  dsimp only
  by_cases hrun : ∃ l, (d.last l).st = .running
  · obtain ⟨l, hl⟩ := hrun
    have hany : (allLasts.any fun l => (e.last l).st == .running) = true :=
      List.any_eq_true.mpr ⟨l, List.mem_finRange l, by simp [hlast, hl]⟩
    rw [if_pos hany]
    exact ⟨hbegun.toCalm, hbegun.ckpt.trans hckpt, fun _ => ⟨hlasts, hreg.trans hstate⟩, fun h => absurd hl (h l)⟩
  · have hnone : ¬ (allLasts.any fun l => (e.last l).st == .running) = true := by
      intro h
      obtain ⟨l, -, hl⟩ := List.any_eq_true.mp h
      exact hrun ⟨l, by simpa [hlast] using hl⟩
    have hscan := Dev.Bears.foldl (fun (f : Dev) l => bears_scanOther f l) (e.liveLasts.filter fun l => !k.resume.contains l) e
    rw [if_neg hnone]
    generalize (e.liveLasts.filter fun l => !k.resume.contains l).foldl (fun (f : Dev) l => f.scanOther l) e = f at hscan ⊢
    have hsaved := fun addr ls => ((hbegun.trans hscan).trans (bears_latchSave f addr .module ls)).trans (bears_ckpState _ 2)
    exact ⟨(hsaved _ _).toCalm, (hsaved _ _).ckpt.trans hckpt, fun h => absurd h hrun, fun _ => ckpState_state _ (by decide)⟩

/-- The lasts that run. -/
def Dev.runningLasts (d : Dev) : List LastId := allLasts.filter fun l => (d.last l).st == .running

theorem mem_runningLasts (d : Dev) (l : LastId) : l ∈ d.runningLasts ↔ (d.last l).st = .running := by simp [Dev.runningLasts, allLasts]

/-- The checkpoint that a CKPT begins. -/
def Dev.newCkpt (d : Dev) (a : Asker) : Ckpt := ⟨some a, d.cycle, 0, d.runningLasts, false⟩

/-- Every last that runs is asked to pause, and the checkpoint is noted (R298, R300). -/
def Dev.ckptAsks (d : Dev) (a : Asker) : Dev :=
  let e := (d.ckpState 1).askPauses (d.runningLasts.filter fun l => ((d.ckpState 1).last l).pausing.isNone)
  e.updHub fun h => { h with ckpt := some ⟨some a, e.cycle, 0, d.runningLasts, false⟩ }

theorem ckptAsks_eq (d : Dev) (a : Asker) : ∃ ls, d.ckptAsks a = { d.ckpState 1 with lasts := ls, hub := { d.hub with
    ckpt := some (d.newCkpt a) } } ∧ ∀ y, (ls.get y).st = (d.last y).st ∧ (y ∈ d.runningLasts → (ls.get y).pausing.isSome = true) := by
  obtain ⟨ls, hasked⟩ := askPauses_eq (d.ckpState 1) (d.runningLasts.filter fun l => ((d.ckpState 1).last l).pausing.isNone)
  refine ⟨ls, by unfold Dev.ckptAsks; dsimp only; rw [hasked]; rfl, fun y => ⟨?_, fun hy => ?_⟩⟩
  · exact (congrArg (fun e : Dev => (e.last y).st) hasked).symm.trans (askPauses_st (d.ckpState 1) _ y)
  · refine (congrArg (fun e : Dev => (e.last y).pausing.isSome) hasked).symm.trans (askPauses_pausing (d.ckpState 1) _ ?_)
    by_cases hp : ((d.ckpState 1).last y).pausing.isSome = true
    · exact .inl hp
    · exact .inr (List.mem_filter.mpr ⟨hy, by simpa using hp⟩)

/-- What a CKPT that is carried out does. -/
theorem ckpt_begins (d : Dev) (a : Asker) : d.Calm (d.ckptAsks a).ckpCopy ∧ (d.ckptAsks a).ckpCopy.hub.ckpt = some (d.newCkpt a) ∧
    (∀ x ∈ d.runningLasts, ((d.ckptAsks a).ckpCopy.last x).pausing.isSome = true) ∧
    (d.ckptAsks a).ckpCopy.regFld (aCkp 8) 0 3 = if d.runningLasts.isEmpty then 2 else 1 := by
  obtain ⟨ls, hasks, hlasts⟩ := ckptAsks_eq d a
  have hcalm : d.Calm (d.ckptAsks a) := by rw [hasks]; exact .of_aoc rfl rfl rfl
  have hckpt : (d.ckptAsks a).hub.ckpt = some (d.newCkpt a) := by rw [hasks]
  have hstate : (d.ckptAsks a).regFld (aCkp 8) 0 3 = 1 := by rw [hasks]; exact ckpState_state d (by decide)
  have hst : ∀ y, ((d.ckptAsks a).last y).st = (d.last y).st := fun y => by rw [hasks]; exact (hlasts y).1
  have hpausing : ∀ y ∈ d.runningLasts, ((d.ckptAsks a).last y).pausing.isSome = true := fun y hy => by rw [hasks]; exact (hlasts y).2 hy
  obtain ⟨hcopy, hkept, hwaits, hsaves⟩ := ckpCopy_waits_or_saves hckpt hstate fun l hl =>
    hpausing l ((mem_runningLasts d l).mpr ((hst l).symm.trans hl))
  refine ⟨hcalm.trans hcopy, hkept, fun x hx => ?_, ?_⟩
  · have hl := (hwaits ⟨x, (hst x).trans ((mem_runningLasts d x).mp hx)⟩).1
    unfold Dev.last
    rw [hl]
    exact hpausing x hx
  · cases hrun : d.runningLasts with
    | nil =>
      refine (hsaves fun l hl => ?_).trans (by simp)
      have hmem := (mem_runningLasts d l).mpr ((hst l).symm.trans hl)
      rw [hrun] at hmem
      exact absurd hmem List.not_mem_nil
    | cons x xs =>
      have hx : x ∈ d.runningLasts := by rw [hrun]; exact List.mem_cons_self
      exact (hwaits ⟨x, (hst x).trans ((mem_runningLasts d x).mp hx)⟩).2.trans (by simp)

/-! The request. -/

section
variable {s : State} {p : CtlId} {g : Datagram} {rest : List Datagram}

theorem bodyFault_none : bodyFault [] { len := 0 } = none := rfl

/-- Without a checkpoint region, CKPT is refused (R300). -/
theorem ckpt_refused (h : Carried s p 14 g rest []) (hoff : bitOf (s.dev.reg (aCkp 0)) 39 = false) :
    Yields (.ncpCkpt p) s (Answered p g rest 4 0x20 [] false s) := by
  have hexec : exec (.ncpCkpt p) s = .next { s with dev := (s.accepted p g rest).answer (askerOf p g) 4 0x20 [] false } := by
    have htake : exec (.ncpCkpt p) s = .next { s with dev := s.dev.ncpTake p (isType 14) Dev.runCkpt } := rfl
    have hreg : bitOf ((s.accepted p g rest).reg (aCkp 0)) 39 = false := by rw [accepted_reg s p g rest uncounted_aCkp, hoff]
    rw [htake, h.take, Dev.runCkpt, h.run bodyFault_none]
    simp only [hreg, Bool.not_false, if_true]
  exact ⟨_, hexec, answered_of_calm (.refl _) (answer_answered _ h.asked ..)⟩

theorem begun_runningLasts (s : State) (p : CtlId) (g : Datagram) (rest : List Datagram) (l : Option LastId) :
    (s.begun p g rest l).runningLasts = s.dev.runningLasts := by
  unfold Dev.runningLasts Dev.last
  rw [begun_lasts]

theorem exec_ncpCkpt (h : Carried s p 14 g rest []) (hon : bitOf (s.dev.reg (aCkp 0)) 39 = true) (hfree : s.dev.ckpBusy = false) :
    exec (.ncpCkpt p) s = .next { s with dev := ((s.begun p g rest none).ckptAsks (askerOf p g)).ckpCopy } := by
  have htake : exec (.ncpCkpt p) s = .next { s with dev := s.dev.ncpTake p (isType 14) Dev.runCkpt } := rfl
  have hreg : bitOf ((s.accepted p g rest).reg (aCkp 0)) 39 = true := by rw [accepted_reg s p g rest uncounted_aCkp, hon]
  have hbusy : (s.accepted p g rest).ckpBusy = false := (accepted_ckpBusy ..).trans hfree
  have hlongs : (s.accepted p g rest).aoc.longs = [] := by rw [accepted_aoc]; exact h.longs
  rw [htake, h.take, Dev.runCkpt, h.run bodyFault_none]
  simp only [hreg, hlongs, hbusy, Bool.not_true, Bool.false_eq_true, if_false, List.isEmpty_nil, Bool.or_self]
  unfold State.begun
  generalize s.accepted p g rest = d
  rfl

/-- CKPT asks every running last to pause, and runs long (R298, R300). -/
theorem ckpt_runs (h : Carried s p 14 g rest []) (hon : bitOf (s.dev.reg (aCkp 0)) 39 = true) (hfree : s.dev.ckpBusy = false) :
    Yields (.ncpCkpt p) s fun t => Runs p g rest none s t ∧
      t.dev.hub.ckpt = some ⟨some (askerOf p g), s.dev.cycle, 0, s.dev.runningLasts, false⟩ ∧
      (∀ x ∈ s.dev.runningLasts, (t.dev.last x).pausing.isSome = true) ∧
      t.dev.regFld (aCkp 8) 0 3 = if s.dev.runningLasts.isEmpty then 2 else 1 := by
  obtain ⟨hcalm, hckpt, hasked, hstate⟩ := ckpt_begins (s.begun p g rest none) (askerOf p g)
  have hcycle : (s.begun p g rest none).cycle = s.dev.cycle := accepted_cycle s p g rest
  rw [Dev.newCkpt, hcycle, begun_runningLasts] at hckpt
  rw [begun_runningLasts] at hasked hstate
  exact ⟨_, exec_ncpCkpt h hon hfree, runs_of_calm h.longs hcalm, hckpt, hasked, hstate⟩

end

end Sys2Proof.Machine
end

section
/-!
PROOFS. SAVE_COMPLETE (R293, R297, R298): the bytes of a latched area are in HBM.
-/

namespace Sys2Proof.Machine

/-! Reading under an overlay. -/

section
variable {α : Type} [DecidableEq α] (d : Nat → α) (m : List (Nat × α)) (lo n : Nat) (new : List (Nat × α)) (k : Nat)

omit [DecidableEq α] in
theorem sget_append_under (a b : List (Nat × α)) : sget d (a ++ b) k = sget (sget d b) a k := by
  induction a with
  | nil => rfl
  | cons e t ih => simp only [List.cons_append, sget, ih]

/-- What is laid over a range, by offset, covers what stood there; beyond the range nothing changes. -/
theorem sget_foldr_sset : sget d (new.foldr (fun e t => if e.1 < n then sset d t (lo + e.1) e.2 else t) m) k =
    if lo ≤ k ∧ k < lo + n then sget (fun j => sget d m (lo + j)) new (k - lo) else sget d m k := by
  induction new with
  | nil =>
    simp only [List.foldr_nil, sget]
    split
    · rw [Nat.add_sub_cancel' (by omega)]
    · rfl
  | cons e t ih =>
    simp only [List.foldr_cons]
    by_cases hk : lo ≤ k ∧ k < lo + n
    · rw [if_pos hk] at ih ⊢
      by_cases he : e.1 = k - lo
      · have hkey : lo + e.1 = k := by omega
        rw [if_pos (by omega), hkey, sget_sset_same, sget, if_pos he]
      · rw [sget, if_neg he, ← ih]
        split
        · exact sget_sset_other (by omega)
        · rfl
    · rw [if_neg hk] at ih ⊢
      rw [← ih]
      split
      · exact sget_sset_other (by omega)
      · rfl

/-- An overlaid range reads what is listed, and its default where nothing is; the rest reads as before. -/
theorem sget_sover : sget d (sover d m lo n new) k =
    if lo ≤ k ∧ k < lo + n then sget (fun j => d (lo + j)) new (k - lo) else sget d m k := by
  have hdefault : ∀ j, j < lo + n → sget d (skeep (fun k => decide (lo + n ≤ k)) m) j = d j := fun j hj => by
    rw [sget_skeep, if_neg (by simpa using hj)]
  unfold sover
  rw [sget_append_under, sget_skeep]
  by_cases hlo : k < lo
  · rw [if_pos (by simpa using hlo), if_neg (by omega)]
    refine sget_congr ?_
    rw [sget_foldr_sset, if_neg (by omega), hdefault k (by omega)]
  · rw [if_neg (by simpa using hlo), sget_foldr_sset]
    by_cases hk : lo ≤ k ∧ k < lo + n
    · rw [if_pos hk, if_pos hk]
      exact sget_congr (hdefault _ (by omega))
    · rw [if_neg hk, if_neg hk, sget_skeep, if_pos (by simp only [decide_eq_true_eq]; omega)]

end

/-- An overlaid range of memory reads what is listed; every other byte keeps its value (R209). -/
theorem overlay_byte (d : Dev) (a n : Nat) (cells : List Host.Cell) (b : Nat) : (d.overlay a n cells).byte b =
    if a ≤ b ∧ b < a + n then sget (fun k => memDefault (a + k)) cells (b - a) else d.byte b := by
  unfold Dev.byte Dev.overlay
  dsimp only
  rw [sget_sover]
  by_cases hb : a ≤ b ∧ b < a + n
  · rw [if_pos hb, if_pos hb]
    refine sget_congr ?_
    rw [memDef_wrote, if_pos (by omega)]
  · rw [if_neg hb, if_neg hb]
    refine sget_congr ?_
    rw [memDef_wrote, if_neg hb]

/-! What replies and counters leave. -/

theorem Dev.CountedBy.byte {d e : Dev} (h : d.CountedBy e) (b : Nat) : e.byte b = d.byte b := by
  obtain ⟨⟨rg, nw, rfl⟩, -⟩ := h
  rfl

theorem stays_countedBy {d e : Dev} (h : d.CountedBy e) : d.Stays e := by
  obtain ⟨⟨rg, nw, rfl⟩, -⟩ := h
  exact .of_aoc rfl rfl rfl rfl

theorem Dev.RepliedBy.byte {d e : Dev} (h : d.RepliedBy e) (b : Nat) : e.byte b = d.byte b := by
  obtain ⟨⟨rg, nw, fi, ou, ls, ca, rfl⟩, -⟩ := h
  rfl

/-- What touches no message leaves the reply of a long request the only answer sent (R308). -/
theorem sent_of_calm {s : State} {d : Dev} (h : s.dev.Calm d) {a : Asker} (ha : a.injected = false) {status detail : Nat}
    {body : List Byte} : Sent a status detail body true s { s with dev := d.reply (some a) status detail body } := by
  obtain ⟨ds, rc, tr, rs, haoc⟩ := h.aoc
  exact sent_of_answered (reply_answered d ha status detail body) h.out (by simp [haoc]) h.cycle

/-! The copy. -/

section
variable {s : State} {a : SaveArea}

theorem copySave_eq {d : Dev} (hmapped : d.rangeMapped a.addr a.length = true) : d.copySave a =
    ({ d with saves := d.saves.filter fun y => y != a } : Dev).overlay a.addr a.length a.cells := by
  unfold Dev.copySave
  exact if_pos hmapped

/-- The area's bytes stand in memory, and every other byte of `d` keeps its value. -/
theorem copySave_byte {d : Dev} (hmapped : d.rangeMapped a.addr a.length = true) (b : Nat) : (d.copySave a).byte b =
    if a.addr ≤ b ∧ b < a.addr + a.length then sget (fun k => memDefault (a.addr + k)) a.cells (b - a.addr) else d.byte b := by
  rw [copySave_eq hmapped, overlay_byte]
  rfl

theorem copySave_keeps {d : Dev} (hmapped : d.rangeMapped a.addr a.length = true) : d.Stays (d.copySave a) ∧ (d.copySave a).hub = d.hub := by
  rw [copySave_eq hmapped]
  exact ⟨.of_aoc rfl rfl rfl rfl, rfl⟩

/-- The save of a paused last is copied. -/
theorem saveComplete_last {l : LastId} {q : Pausing} (harea : s.dev.saves.find? (fun y => y.scope == .last l) = some a)
    (hawake : s.dev.rangeAwake a.addr a.length = true) (hmapped : s.dev.rangeMapped a.addr a.length = true)
    (hpausing : (s.dev.last l).pausing = some q) : Yields (.saveComplete (.last l)) s fun t =>
      (∀ b, t.dev.byte b = (s.dev.copySave a).byte b) ∧
        t.dev.last l = { s.dev.last l with pausing := some { q with saved := true } } := by
  have hexec : exec (.saveComplete (.last l)) s = .next { s with dev := (s.dev.copySave a).updLast l fun y =>
      { y with pausing := some { q with saved := true } } } := by
    show execSaveComplete (.last l) s = _
    unfold execSaveComplete onDev
    simp only [harea, hawake, hpausing, Bool.not_true, Bool.false_eq_true, if_false]
  have hlast : (s.dev.copySave a).last l = s.dev.last l := congrArg (fun v => v.get l) (copySave_keeps hmapped).1.lasts
  refine ⟨_, hexec, fun _ => rfl, ?_⟩
  rw [last_updLast_same, hlast]

/-- The lasts that a copied checkpoint resumes (R298). -/
def Dev.ckpBack (d : Dev) (k : Ckpt) : List LastId := allLasts.filter fun y => k.resume.contains y && (d.last y).st == .paused

/-- The device once the area of a checkpoint is copied. -/
def Dev.backFrom (d : Dev) (a : SaveArea) (k : Ckpt) : Dev :=
  if (d.ckpBack k).isEmpty then (d.copySave a).ckpResumed { k with saved := true, resume := d.ckpBack k }
  else (d.copySave a).updHub fun h => { h with ckpt := some { k with saved := true, resume := d.ckpBack k } }

theorem exec_saveComplete_module {k : Ckpt} (harea : s.dev.saves.find? (fun y => y.scope == .module) = some a)
    (hawake : s.dev.rangeAwake a.addr a.length = true) (hmapped : s.dev.rangeMapped a.addr a.length = true)
    (hckpt : s.dev.hub.ckpt = some k) : exec (.saveComplete .module) s = .next { s with dev := s.dev.backFrom a k } := by
  have hback : (s.dev.copySave a).ckpBack k = s.dev.ckpBack k := by
    unfold Dev.ckpBack Dev.last
    rw [(copySave_keeps hmapped).1.lasts]
  unfold Dev.backFrom
  rw [← hback]
  show execSaveComplete .module s = _
  unfold execSaveComplete onDev
  simp only [harea, hawake, hckpt, Bool.not_true, Bool.false_eq_true, if_false]
  rfl

/-- The checkpoint has stopped the lasts for this long, and its digest begins. -/
def Dev.ckpStopped (d : Dev) (k : Ckpt) : Dev :=
  ((d.ckpState 3).setRegFld (aCkp 8) 32 32 (min 0xFFFFFFFF (d.cycle - k.began))).updHub fun h =>
    { h with ckpt := some { k with asker := none, stop := d.cycle - k.began, resume := [], saved := true } }

theorem ckpResumed_eq (d : Dev) (k : Ckpt) :
    d.ckpResumed k = ((d.ckpStopped k).acnt 5 1).reply k.asker 0 0 (leBytes 4 (d.cycle - k.began) ++ zeros 4) := rfl

theorem regFld_updHub (d : Dev) (f : Hub → Hub) (a lo len : Nat) : (d.updHub f).regFld a lo len = d.regFld a lo len := rfl

theorem ckpStopped_state (d : Dev) (k : Ckpt) : (d.ckpStopped k).regFld (aCkp 8) 0 3 = 3 := by
  unfold Dev.ckpStopped
  rw [regFld_updHub, regFld_setRegFld_other _ _ (by decide) (by decide)]
  exact ckpState_state d (by decide)

theorem ckpStopped_stays (d : Dev) (k : Ckpt) : d.Stays (d.ckpStopped k) :=
  ((stays_setReg d _ _).trans (stays_setRegFld _ _ _ _ _)).trans (stays_updHub _ _)

/-- A checkpoint whose lasts have all resumed: its digest begins, and the request is answered (R298, R300). -/
theorem ckpResumed_replies (d : Dev) (k : Ckpt) : ∃ e, d.Stays e ∧ (∀ b, e.byte b = d.byte b) ∧ e.regFld (aCkp 8) 0 3 = 3 ∧
    d.ckpResumed k = e.reply k.asker 0 0 (leBytes 4 (d.cycle - k.began) ++ zeros 4) := by
  have hstays := ckpStopped_stays d k
  have hstate := ckpStopped_state d k
  have hbyte : ∀ b, (d.ckpStopped k).byte b = d.byte b := fun _ => rfl
  rw [ckpResumed_eq]
  generalize d.ckpStopped k = e at *
  have hcounted := countedBy_acnt e (i := 5) (by decide) 1
  exact ⟨_, hstays.trans (stays_countedBy hcounted), fun b => (hcounted.byte b).trans (hbyte b),
    (regFld_of_reg (hcounted.reg _ uncounted_aCkp) 0 3).trans hstate, rfl⟩

/-- The save of a checkpoint is copied: its lasts begin to resume, or have done so. -/
theorem saveComplete_module {k : Ckpt} (harea : s.dev.saves.find? (fun y => y.scope == .module) = some a)
    (hawake : s.dev.rangeAwake a.addr a.length = true) (hmapped : s.dev.rangeMapped a.addr a.length = true)
    (hckpt : s.dev.hub.ckpt = some k) : Yields (.saveComplete .module) s fun t =>
      (∀ b, t.dev.byte b = (s.dev.copySave a).byte b) ∧ t.dev.lasts = s.dev.lasts ∧
        (s.dev.ckpBack k ≠ [] → t.dev.hub.ckpt = some { k with saved := true, resume := s.dev.ckpBack k }) ∧
        (s.dev.ckpBack k = [] → t.dev.regFld (aCkp 8) 0 3 = 3 ∧ ∀ y, k.asker = some y → y.injected = false →
          Sent y 0 0 (leBytes 4 (s.dev.cycle - k.began) ++ zeros 4) true s t) := by
  obtain ⟨hcopy, -⟩ := copySave_keeps (d := s.dev) hmapped
  refine ⟨_, exec_saveComplete_module harea hawake hmapped hckpt, ?_⟩
  unfold Dev.backFrom
  cases hback : s.dev.ckpBack k with
  | nil =>
    obtain ⟨e, hstays, hbyte, hstate, heq⟩ := ckpResumed_replies (s.dev.copySave a) { k with saved := true, resume := [] }
    have hreply := reply_replied e k.asker 0 0 (leBytes 4 (s.dev.cycle - k.began) ++ zeros 4)
    rw [hcopy.cycle] at heq
    simp only [List.isEmpty_nil, if_true, heq]
    refine ⟨fun b => (hreply.byte b).trans (hbyte b), hreply.lasts.trans (hstays.lasts.trans hcopy.lasts), fun h => absurd rfl h,
      fun _ => ⟨(regFld_of_reg (hreply.reg _ uncounted_aCkp) 0 3).trans hstate, fun y hy hasked => ?_⟩⟩
    rw [hy]
    exact sent_of_calm (hcopy.trans hstays).toCalm hasked
  | cons y ys =>
    exact ⟨fun _ => rfl, hcopy.lasts, fun _ => rfl, fun h => absurd h (List.cons_ne_nil _ _)⟩

end

end Sys2Proof.Machine
end

section
/-!
PROOFS. DIGEST_COMPLETE (R299, R300): what a read of HBM notes of ECC errors (R208), what a digest is taken from, and how the save or the
checkpoint ends.
-/

namespace Sys2Proof.Machine

/-! Reads of memory. -/

/-- `e` is `d` once it has noted the ECC errors of a read. -/
structure Dev.ReadBy (d e : Dev) : Prop where
  noted : d.NotedBy e
  reg : ∀ x, (∀ m, x ≠ aHbmErr m) → (∀ c, x ≠ aStkErr c) → e.reg x = d.reg x

theorem Dev.ReadBy.refl (d : Dev) : d.ReadBy d := ⟨.refl d, fun _ _ _ => rfl⟩

theorem Dev.ReadBy.trans {d e f : Dev} (h : d.ReadBy e) (g : e.ReadBy f) : d.ReadBy f :=
  ⟨h.noted.trans g.noted, fun x hm hc => (g.reg x hm hc).trans (h.reg x hm hc)⟩

theorem readBy_hwSet {d : Dev} {a : Nat} (h : (∃ m, a = aHbmErr m) ∨ ∃ c, a = aStkErr c) (bits posMask pos : Word) :
    d.ReadBy (d.hwSet a bits posMask pos) := by
  refine ⟨notedBy_hwSet .., fun y hm hc => reg_setReg_other (d := d) _ ?_⟩
  rintro rfl
  exact h.elim (fun ⟨m, he⟩ => hm m he) fun ⟨c, he⟩ => hc c he

theorem readBy_hwInc {d : Dev} {a : Nat} (h : (∃ m, a = aHbmErr m) ∨ ∃ c, a = aStkErr c) (lo len n : Nat) :
    d.ReadBy (d.hwInc a lo len n) := by
  refine ⟨notedBy_hwInc .., fun y hm hc => reg_setReg_other (d := d) _ ?_⟩
  rintro rfl
  exact h.elim (fun ⟨m, he⟩ => hm m he) fun ⟨c, he⟩ => hc c he

theorem readBy_event (d : Dev) (code sev : Nat) (bs : List Byte) : d.ReadBy (d.event code sev bs) := ⟨notedBy_event .., fun _ _ _ => rfl⟩

theorem readBy_eccRead (d : Dev) (a n : Nat) : d.ReadBy (d.eccRead a n).1 := by
  refine List.foldlRecOn (motive := fun (r : Dev × Option Nat) => d.ReadBy r.1) (d.eccIn a n) _ (.refl d) fun r hr x _ => hr.trans ?_
  cases hregion : region x.1 with
  | stock c o =>
    dsimp only
    split
    · exact (readBy_hwSet (.inr ⟨c, rfl⟩) _ _ _).trans (readBy_event ..)
    · exact readBy_hwInc (.inr ⟨c, rfl⟩) _ _ _
  | hbm =>
    dsimp only
    split
    · exact (readBy_hwSet (.inl ⟨_, rfl⟩) _ _ _).trans (readBy_event ..)
    · exact readBy_hwInc (.inl ⟨_, rfl⟩) _ _ _
  | _ => exact .refl _

/-! The events of a read of HBM. -/

/-- The codes of the events raised in this cycle. -/
def Dev.codes (d : Dev) : List (BitVec 16) := d.aoc.rcd.raised.map fun e => e.code

theorem codes_of_rcd {d e : Dev} (h : e.aoc.rcd = d.aoc.rcd) : e.codes = d.codes := by
  unfold Dev.codes
  rw [h]

theorem codes_event (d : Dev) (code sev : Nat) (bs : List Byte) : (d.event code sev bs).codes = d.codes ++ [BitVec.ofNat 16 code] := by
  rw [event_eq]
  exact List.map_append

theorem codes_eventN (d : Dev) (code sev : Nat) (bs : List Byte) (n : Nat × Nat × Nat × Nat × Nat) :
    (d.eventN code sev bs n).codes = d.codes ++ [BitVec.ofNat 16 code] := List.map_append

/-- What the double-bit errors among `xs` raise (R208). -/
def doubleBit (xs : List (Nat × Bool)) : List (BitVec 16) := (xs.filter fun e => e.2).map fun _ => 0x4001

/-- An ECC error that a read of HBM meets. -/
def hbmNote (s : Dev × Option Nat) (e : Nat × Bool) : Dev × Option Nat :=
  if e.2 then
    (((s.1.hwSet (aHbmErr (s.1.stackOf e.1)) 0x10000 0xFFFFFFFFFE0000 (mkWord [(17, e.1 % 2 ^ 39)])).event 0x4001 2
      (leBytes 1 2 ++ leBytes 1 (s.1.stackOf e.1).val ++ leBytes 8 e.1)), some (s.2.getD e.1))
  else (s.1.hwInc (aHbmErr (s.1.stackOf e.1)) 0 16 1, s.2)

theorem hbmNote_codes (s : Dev × Option Nat) (e : Nat × Bool) : (hbmNote s e).1.codes = s.1.codes ++ doubleBit [e] := by
  unfold hbmNote doubleBit
  cases he : e.2
  · simp [he]
    rfl
  · simp only [he, if_true, List.filter_cons_of_pos, List.filter_nil, List.map_cons, List.map_nil]
    exact codes_event ..

theorem hbmNotes_codes (xs : List (Nat × Bool)) (s : Dev × Option Nat) : (xs.foldl hbmNote s).1.codes = s.1.codes ++ doubleBit xs := by
  induction xs generalizing s with
  | nil => exact (List.append_nil _).symm
  | cons e t ih =>
    have happend : doubleBit (e :: t) = doubleBit [e] ++ doubleBit t := by
      unfold doubleBit
      rw [← List.map_append, ← List.filter_append]
      rfl
    rw [List.foldl_cons, ih, hbmNote_codes, happend, List.append_assoc]

/-- The words with ECC errors that a read meets lie in its range. -/
theorem eccIn_below (d : Dev) (a n : Nat) {e : Nat × Bool} (h : e ∈ d.eccIn a n) : e.1 < a + n := by
  unfold Dev.eccIn at h
  rcases List.mem_append.mp h with h | h
  · simp only [List.mem_filter, Bool.and_eq_true, decide_eq_true_eq] at h
    exact h.2.2
  · split at h
    · exact absurd h List.not_mem_nil
    · simp only [List.mem_filterMap, List.mem_range, Option.map_eq_some_iff] at h
      obtain ⟨i, hi, b, -, rfl⟩ := h
      dsimp only
      omega

/-- A read of HBM raises an event for each double-bit error. -/
theorem codes_eccRead_hbm (d : Dev) {a n : Nat} (h : a + n ≤ 0x008000000000) :
    (d.eccRead a n).1.codes = d.codes ++ doubleBit (d.eccIn a n) := by
  have hfold : d.eccRead a n = (d.eccIn a n).foldl hbmNote (d, none) := by
    refine List.foldl_ext _ _ _ fun s e he => ?_
    have hregion : region e.1 = .hbm := if_pos (Nat.lt_of_lt_of_le (eccIn_below d a n he) h)
    simp only [hregion]
    rfl
  rw [hfold]
  exact hbmNotes_codes _ (d, none)

/-! What a digest is taken from. -/

/-- The memories of two devices agree. -/
structure Dev.SameMem (d e : Dev) : Prop where
  mem : e.mem = d.mem
  ecc : e.ecc = d.ecc
  fills : e.fills = d.fills

theorem Dev.ReadBy.sameMem {d e : Dev} (h : d.ReadBy e) : d.SameMem e := by
  obtain ⟨⟨rg, nw, rc, rfl⟩, -⟩ := h
  exact ⟨rfl, rfl, rfl⟩

theorem Dev.ReadBy.sameUnits {d e : Dev} (h : d.ReadBy e) : d.SameUnits e := by
  have hmap : e.reg (aGlb 0x10) = d.reg (aGlb 0x10) := h.reg _ (fun m => by unfold aHbmErr aGlb aMem regAddr; omega)
    (fun c => by unfold aStkErr aGlb aHod regAddr corePage; omega)
  obtain ⟨⟨rg, nw, rc, rfl⟩, -⟩ := h
  exact ⟨rfl, rfl, hmap⟩

theorem Dev.ReadBy.stays {d e : Dev} (h : d.ReadBy e) : d.Stays e := stays_notedBy d h.noted

section
variable {d e : Dev} (h : d.SameMem e)
include h

theorem Dev.SameMem.rdMem (a n : Nat) : e.rdMem a n = d.rdMem a n := by
  unfold Dev.rdMem
  rw [h.mem, h.fills]

theorem Dev.SameMem.byte (a : Nat) : e.byte a = d.byte a := by
  unfold Dev.byte
  rw [h.mem, h.fills]

theorem Dev.SameMem.eccIn (a n : Nat) : e.eccIn a n = d.eccIn a n := by
  unfold Dev.eccIn
  rw [h.ecc, h.fills]

theorem Dev.SameMem.areaTable (a : Nat) : e.areaTable a = d.areaTable a := by
  unfold Dev.areaTable
  rw [h.rdMem]

theorem Dev.SameMem.areaLength (a : Nat) : e.areaLength a = d.areaLength a := by
  unfold Dev.areaLength
  rw [h.rdMem]

theorem Dev.SameMem.areaLeaves (a : Nat) : e.areaLeaves a = d.areaLeaves a := by
  unfold Dev.areaLeaves
  rw [h.rdMem]

theorem Dev.SameMem.leafDigest (a off i : Nat) : e.leafDigest a off i = d.leafDigest a off i := by
  unfold Dev.leafDigest Dev.leafBytes
  rw [h.rdMem]

theorem Dev.SameMem.digestCheck (a : Nat) : e.digestCheck a = d.digestCheck a := by
  unfold Dev.digestCheck
  simp only [h.areaTable, h.areaLeaves, h.leafDigest, h.rdMem, h.eccIn, h.byte]

theorem Dev.SameMem.wrMem (a : Nat) (bs : List Byte) : (d.wrMem a bs).SameMem (e.wrMem a bs) := by
  unfold Dev.wrMem
  simp only [h.fills, h.ecc, h.mem, h.rdMem]
  split
  · exact ⟨rfl, rfl, rfl⟩
  · exact ⟨rfl, rfl, rfl⟩

theorem Dev.SameMem.writeDigest (a : Nat) : (d.writeDigest a).SameMem (e.writeDigest a) := by
  unfold Dev.writeDigest
  simp only [h.areaTable, h.areaLeaves, h.leafDigest]
  exact ((h.wrMem ..).wrMem ..).wrMem ..

theorem Dev.SameMem.areaError (hunits : d.SameUnits e) (a : Nat) : e.areaError a = d.areaError a := by
  unfold Dev.areaError
  simp only [h.areaTable, h.areaLength, h.eccIn, hunits.rangeMapped]

end

theorem writeDigest_eq (d : Dev) (a : Nat) : ∃ m ec fs, d.writeDigest a = { d with mem := m, ecc := ec, fills := fs } := by
  unfold Dev.writeDigest
  dsimp only
  obtain ⟨m, ec, fs, h⟩ := wrMem_eq d (a + d.areaTable a) ((List.range (d.areaLeaves a)).map fun i => d.leafDigest a (d.areaTable a) i).flatten
  rw [h]
  generalize digestRoot _ _ = root
  obtain ⟨m', ec', fs', h'⟩ := wrMem_eq { d with mem := m, ecc := ec, fills := fs } (a + 64) (padTo 48 root)
  rw [h']
  obtain ⟨m'', ec'', fs'', h''⟩ := wrMem_eq { d with mem := m', ecc := ec', fills := fs' } (a + 112) [1]
  exact ⟨m'', ec'', fs'', h''⟩

/-- Where no leaf is damaged, none of the reads raises an event. -/
theorem doubleBit_of_areaError {d : Dev} {a : Nat} (h : d.areaError a = none) :
    doubleBit (d.eccIn (a + 4096) (d.areaTable a - 4096)) = [] := by
  unfold Dev.areaError at h
  dsimp only at h
  split at h
  · exact absurd h (by simp)
  · simp only [Option.map_eq_none_iff, List.find?_eq_none] at h
    unfold doubleBit
    rw [List.filter_eq_nil_iff.mpr h]
    rfl

/-! The end of a save. -/

theorem readBy_readLeaves (d : Dev) (a : Nat) : d.ReadBy (d.readLeaves a) := readBy_eccRead ..

theorem codes_readLeaves (d : Dev) {a : Nat} (h : a + max 4096 (d.areaTable a) ≤ 0x008000000000) :
    (d.readLeaves a).codes = d.codes ++ doubleBit (d.eccIn (a + 4096) (d.areaTable a - 4096)) := codes_eccRead_hbm d (by omega)

/-- A save ends in a device whose last is no longer paused for it, and whose tallies hold the post of its CSAVE. -/
theorem endSave_posts (d : Dev) (l : LastId) (p : Pausing) : ∃ cs, d.endSave l p =
    let e := Dev.reply { d with cores := cs, lasts := vmap d.lasts l fun x => { x with pausing := none } } p.asker 0 0
      (leBytes 8 p.instant.toNat)
    if p.resume then { e with now := { e.now with wake := l :: e.now.wake } } else e := by
  cases hcsave : p.csave with
  | none =>
    refine ⟨d.cores, ?_⟩
    unfold Dev.endSave
    simp only [hcsave]
    rfl
  | some x =>
    obtain ⟨cs, hcs⟩ := post_eq (d.updLast l fun x => { x with pausing := none }) ⟨l, x.1, x.2.1, x.2.2.1, mkInsn 0x76 x.2.2.2⟩
    refine ⟨cs, ?_⟩
    unfold Dev.endSave
    simp only [hcsave, hcs]
    rfl

theorem endSave_eq (d : Dev) (l : LastId) (p : Pausing) : ∃ cs nw, d.endSave l p =
    { Dev.reply { d with cores := cs, lasts := vmap d.lasts l fun x => { x with pausing := none } } p.asker 0 0
      (leBytes 8 p.instant.toNat) with now := nw } := by
  obtain ⟨cs, heq⟩ := endSave_posts d l p
  rw [heq]
  refine ⟨cs, ?_⟩
  dsimp only
  split
  · exact ⟨_, rfl⟩
  · exact ⟨_, rfl⟩

/-- A save ends: its pause is over, whoever asked is answered, and neither memory nor a register outside the counting pages changes. -/
theorem endSave_ends {s : State} {d : Dev} (h : s.dev.Stays d) (l : LastId) (p : Pausing) :
    (d.endSave l p).last l = { s.dev.last l with pausing := none } ∧
      (∀ y, p.asker = some y → y.injected = false → Sent y 0 0 (leBytes 8 p.instant.toNat) true s { s with dev := d.endSave l p }) ∧
      (d.endSave l p).mem = d.mem ∧ (d.endSave l p).codes = d.codes ∧ ∀ x, Uncounted x → (d.endSave l p).reg x = d.reg x := by
  obtain ⟨cs, nw, heq⟩ := endSave_eq d l p
  rw [heq]
  have hreply := reply_replied { d with cores := cs, lasts := vmap d.lasts l fun x => { x with pausing := none } } p.asker 0 0
    (leBytes 8 p.instant.toNat)
  refine ⟨(hreply.last l).trans ?_, fun y hy hasked => ?_, hreply.mem, codes_of_rcd hreply.rcd,
    hreply.reg⟩
  · refine (vmap_get_same ..).trans ?_
    rw [h.lasts]
    rfl
  · rw [hy]
    exact sent_of_calm (d := { d with cores := cs, lasts := vmap d.lasts l fun x => { x with pausing := none } })
      (h.toCalm.trans (.of_aoc rfl rfl rfl)) hasked

/-- An area is found damaged. -/
def Dev.ckpDamaged (d : Dev) (a e : Nat) : Dev := (d.ckpState 6).eventN 0x6002 2 (leBytes 4 (leafOf a e)) (7, 0xFF, 0xFF, 0xFF, 0)

/-- The digests of a checkpoint are written. -/
def Dev.ckpDigested (d : Dev) (a : Nat) : Dev :=
  ((d.writeDigest a).ckpState 4).eventN 0x6004 0 (leBytes 4 (d.areaLeaves a) ++ zeros 4 ++ d.rdMem (a + 16) 8) (6, 0xFF, 0xFF, 0xFF, 0)

/-- The save of a last ends, its digests written or its area damaged. -/
def Dev.lastDigest (d : Dev) (l : LastId) (q : Pausing) (a : Nat) : Dev :=
  match d.areaError a with
  | some e => (d.ckpDamaged a e).endSave l q
  | none => (d.writeDigest a).endSave l q

/-- A checkpoint ends, its digests written or its area damaged. -/
def Dev.ckpDigest (d : Dev) (a : Nat) : Dev :=
  match d.areaError a with
  | some e => d.ckpDamaged a e
  | none => d.ckpDigested a

section
variable {s : State}

theorem exec_digestComplete_last {l : LastId} {q : Pausing} {a : Nat} (hpausing : (s.dev.last l).pausing = some q) (hsave : q.save = some a)
    (hsaved : q.saved = true) (hawake : s.dev.areaWake a = none) :
    exec (.digestComplete (.last l)) s = .next { s with dev := (s.dev.readLeaves a).lastDigest l q a } := by
  show execDigestComplete (.last l) s = _
  unfold execDigestComplete onDev
  simp only [hpausing, hsave, hsaved, hawake, Bool.not_true, Bool.false_eq_true, if_false]
  generalize s.dev.readLeaves a = d
  unfold Dev.lastDigest
  cases d.areaError a with
  | some e => rfl
  | none => rfl

/-- The digests of a last's save are written, or its damage is reported; its pause is over. -/
theorem digestComplete_last {l : LastId} {q : Pausing} {a : Nat} (hpausing : (s.dev.last l).pausing = some q) (hsave : q.save = some a)
    (hsaved : q.saved = true) (hawake : s.dev.areaWake a = none) (hplace : a + max 4096 (s.dev.areaTable a) ≤ 0x008000000000) :
    Yields (.digestComplete (.last l)) s fun t =>
      t.dev.last l = { s.dev.last l with pausing := none } ∧
      (∀ y, q.asker = some y → y.injected = false → Sent y 0 0 (leBytes 8 q.instant.toNat) true s t) ∧
      (s.dev.areaError a = none → t.dev.mem = (s.dev.writeDigest a).mem) ∧
      (s.dev.areaError a ≠ none → t.dev.mem = s.dev.mem ∧
        Raised (doubleBit (s.dev.eccIn (a + 4096) (s.dev.areaTable a - 4096)) ++ [0x6002]) s t ∧ t.dev.regFld (aCkp 8) 0 3 = 6) := by
  have hread := readBy_readLeaves s.dev a
  have hcodes := codes_readLeaves s.dev hplace
  have herror := hread.sameMem.areaError hread.sameUnits a
  refine ⟨_, exec_digestComplete_last hpausing hsave hsaved hawake, ?_⟩
  generalize s.dev.readLeaves a = d at *
  unfold Dev.lastDigest
  rw [herror]
  cases hfound : s.dev.areaError a with
  | some e =>
    have hkeeps : s.dev.Stays (d.ckpDamaged a e) :=
      (hread.stays.trans (stays_setRegFld d _ _ _ _)).trans (stays_eventN _ ..)
    obtain ⟨hlast, hsent, hmem, hraised, hreg⟩ := endSave_ends hkeeps l q
    refine ⟨hlast, hsent, fun h => absurd h (by simp), fun _ => ⟨hmem.trans hread.sameMem.mem, ?_, ?_⟩⟩
    · refine (hraised.trans (codes_eventN ..)).trans ?_
      rw [← List.append_assoc]
      exact congrArg (· ++ _) hcodes
    · exact (regFld_of_reg (hreg _ uncounted_aCkp) 0 3).trans (ckpState_state d (by decide))
  | none =>
    have hkeeps : s.dev.Stays (d.writeDigest a) := by
      obtain ⟨m, ec, fs, h⟩ := writeDigest_eq d a
      rw [h]
      exact hread.stays.trans (.of_aoc rfl rfl rfl rfl)
    obtain ⟨hlast, hsent, hmem, -, -⟩ := endSave_ends hkeeps l q
    exact ⟨hlast, hsent, fun _ => hmem.trans (hread.sameMem.writeDigest a).mem, fun h => absurd rfl h⟩

theorem exec_digestComplete_module {a : Nat} (hstate : s.dev.regFld (aCkp 8) 0 3 = 3) (ha : s.dev.regFld (aCkp 0) 0 39 = a)
    (hawake : s.dev.areaWake a = none) : exec (.digestComplete .module) s = .next
      { s with dev := ((s.dev.readLeaves a).updHub fun h => { h with ckpt := none }).ckpDigest a } := by
  show execDigestComplete .module s = _
  unfold execDigestComplete onDev
  simp only [hstate, ha, hawake, bne_self_eq_false, Bool.false_eq_true, if_false]
  generalize (s.dev.readLeaves a).updHub (fun h => { h with ckpt := none }) = d
  unfold Dev.ckpDigest
  cases d.areaError a with
  | some e => rfl
  | none => rfl

/-- The digests of a checkpoint are written, or its damage is reported. -/
theorem digestComplete_module {a : Nat} (hstate : s.dev.regFld (aCkp 8) 0 3 = 3) (ha : s.dev.regFld (aCkp 0) 0 39 = a)
    (hawake : s.dev.areaWake a = none) (hplace : a + max 4096 (s.dev.areaTable a) ≤ 0x008000000000) :
    (s.dev.areaError a = none → Yields (.digestComplete .module) s fun t => t.dev.mem = (s.dev.writeDigest a).mem ∧
      t.dev.hub.ckpt = none ∧ t.dev.regFld (aCkp 8) 0 3 = 4 ∧ Raised [0x6004] s t) ∧
    (s.dev.areaError a ≠ none → Yields (.digestComplete .module) s fun t => t.dev.mem = s.dev.mem ∧ t.dev.hub.ckpt = none ∧
      t.dev.regFld (aCkp 8) 0 3 = 6 ∧ Raised (doubleBit (s.dev.eccIn (a + 4096) (s.dev.areaTable a - 4096)) ++ [0x6002]) s t) := by
  have hread := readBy_readLeaves s.dev a
  have hcodes := codes_readLeaves s.dev hplace
  have hexec := exec_digestComplete_module hstate ha hawake
  have hmem : s.dev.SameMem ((s.dev.readLeaves a).updHub fun h => { h with ckpt := none }) :=
    ⟨hread.sameMem.mem, hread.sameMem.ecc, hread.sameMem.fills⟩
  have hunits : s.dev.SameUnits ((s.dev.readLeaves a).updHub fun h => { h with ckpt := none }) :=
    ⟨hread.sameUnits.doms, hread.sameUnits.stage, hread.sameUnits.map⟩
  have hckpt : ((s.dev.readLeaves a).updHub fun h => { h with ckpt := none }).hub.ckpt = none := rfl
  replace hcodes : ((s.dev.readLeaves a).updHub fun h => { h with ckpt := none }).codes = _ := hcodes
  have herrors := hmem.areaError hunits a
  generalize (s.dev.readLeaves a).updHub (fun h => { h with ckpt := none }) = d at *
  unfold Dev.ckpDigest at hexec
  rw [herrors] at hexec
  refine ⟨fun hnone => ?_, fun herror => ?_⟩
  · rw [hnone] at hexec
    rw [doubleBit_of_areaError hnone, List.append_nil] at hcodes
    obtain ⟨m, ec, fs, hdigest⟩ := writeDigest_eq d a
    refine ⟨_, hexec, (hmem.writeDigest a).mem, ?_, ckpState_state (d.writeDigest a) (by decide), ?_⟩
    · refine Eq.trans ?_ hckpt
      show (d.writeDigest a).hub.ckpt = _
      rw [hdigest]
    · refine (codes_eventN ((d.writeDigest a).ckpState 4) ..).trans (congrArg (· ++ _) ?_)
      refine Eq.trans ?_ hcodes
      show (d.writeDigest a).codes = _
      rw [hdigest]
      rfl
  · obtain ⟨e, he⟩ := Option.ne_none_iff_exists'.mp herror
    rw [he] at hexec
    refine ⟨_, hexec, hmem.mem, hckpt, ckpState_state d (by decide), ?_⟩
    refine (codes_eventN (d.ckpState 6) ..).trans ?_
    rw [← List.append_assoc]
    exact congrArg (· ++ _) hcodes

end

end Sys2Proof.Machine
end

section
/-!
PROOFS. RESTORE_COMPLETE (R301): what the items of an area write, and the end of a restore.
-/

namespace Sys2Proof.Machine

/-! Items that write no last. -/

section
variable (d : Dev)

theorem Dev.Stays.foldIdx {α : Type} {f : Dev → Nat → α → Dev} (hf : ∀ (e : Dev) i x, e.Stays (f e i x)) (l : List α) (i : Nat) (d : Dev) :
    d.Stays (foldIdx f i d l) := by
  induction l generalizing i d with
  | nil => exact .refl d
  | cons x t ih => exact (hf d i x).trans (ih (i + 1) (f d i x))

theorem stays_updArr (c : CoreId) (a : ArrayId) (f : Arr → Arr) : d.Stays (d.updArr c a f) := stays_updCore d c _

theorem stays_updTile (c : CoreId) (a : ArrayId) (t : TileId) (f : Tile → Tile) : d.Stays (d.updTile c a t f) := stays_updCore d c _

theorem stays_updStrand (c : CoreId) (k : StrandId) (f : Strand → Strand) : d.Stays (d.updStrand c k f) := stays_updCore d c _

theorem stays_restoreCore (c : CoreId) (l : LastId) (name : LastId → LastId) (x : SavedCore) : d.Stays (d.restoreCore c l name x) := by
  unfold Dev.restoreCore
  exact ((stays_updCore d c _).trans (stays_setReg _ _ _)).trans (stays_setReg _ _ _)

theorem stays_restorePat (c : CoreId) (l : LastId) (x : SavedPat) : d.Stays (d.restorePat c l x) := by
  have hvec : ∀ e : Dev, e.Stays (x.vec.foldl (fun (d : Dev) w => d.setReg (aVecStat c w.1) w.2) e) :=
    .foldl (fun e w => stays_setReg e _ _) x.vec
  unfold Dev.restorePat
  dsimp only
  split
  · exact (((stays_updCore d c _).trans (hvec _)).trans (stays_setRegFld _ _ _ _ _)).trans (stays_updCore _ c _)
  · exact (stays_updCore d c _).trans (hvec _)

theorem stays_restoreWeights (e : DirEntry) (l : LastId) : d.Stays (d.restoreWeights e l) := by
  unfold Dev.restoreWeights
  refine Dev.Stays.trans ?_ (stays_updArr _ _ _ _)
  exact .foldl (fun e _ => stays_setRegFld e _ _ _ _) _ d

theorem stays_restoreSlice (e : DirEntry) : d.Stays (d.restoreSlice e) := .of_aoc rfl rfl rfl rfl

theorem stays_restoreHub (x : SavedHub) : d.Stays (d.restoreHub x) := by
  unfold Dev.restoreHub
  refine Dev.Stays.trans ?_ (stays_setReg _ _ _)
  refine Dev.Stays.trans (Dev.Stays.trans (.foldIdx ?_ _ _ d) (.foldIdx ?_ _ _ _)) (.foldIdx ?_ _ _ _)
  all_goals
    intro e i y
    refine Dev.Stays.trans ?_ (stays_updHub _ _)
    exact .foldIdx (fun e j w => stays_setReg e _ _) _ _ e

theorem stays_restoreBed (e : DirEntry) : d.Stays (d.restoreBed e) := by
  unfold Dev.restoreBed
  refine Dev.Stays.trans ?_ (stays_setRegFld _ _ _ _ _)
  refine Dev.Stays.trans ?_ (stays_setReg _ _ _)
  exact .of_aoc rfl rfl rfl rfl

theorem stays_restoreOps (es : List DirEntry) (name : LastId → LastId) : d.Stays (d.restoreOps es name) := by
  unfold Dev.restoreOps
  dsimp only
  refine Dev.Stays.trans ?_ (.foldl ?_ _ _)
  · exact .of_aoc rfl rfl rfl rfl
  · exact fun e x => .foldl (fun e t => stays_updTile e _ _ _ _) _ e

end

/-! The saved last. -/

/-- A last that a restore leaves: PAUSED, with its image (R301). -/
def SavedLast.restored (y : SavedLast) : Last := { Last.init with st := .paused, image := y.image }

/-- `e` differs from `d`, of the lasts, in `l` alone, and there holds `v` if it differs. -/
structure Dev.Puts (l : LastId) (v : Last) (d e : Dev) : Prop extends d.Calm e where
  other : ∀ z, z ≠ l → e.last z = d.last z
  same : e.last l = d.last l ∨ e.last l = v

section
variable {l : LastId} {v : Last} {d e f : Dev}

theorem Dev.Puts.refl (d : Dev) : d.Puts l v d := ⟨.refl d, fun _ _ => rfl, .inl rfl⟩

theorem Dev.Puts.trans (h : d.Puts l v e) (g : e.Puts l v f) : d.Puts l v f :=
  ⟨h.toCalm.trans g.toCalm, fun z hz => (g.other z hz).trans (h.other z hz), g.same.elim (fun hg => h.same.imp hg.trans hg.trans) .inr⟩

theorem Dev.Stays.puts (h : d.Stays e) : d.Puts l v e :=
  have hlast : ∀ z, e.last z = d.last z := fun z => congrArg (fun w => w.get z) h.lasts
  ⟨h.toCalm, fun z _ => hlast z, .inl (hlast l)⟩

/-- What has been put stays. -/
theorem Dev.Puts.kept (h : d.Puts l v e) (hput : d.last l = v) : e.last l = v := h.same.elim (fun he => he.trans hput) id

theorem Dev.Puts.foldl {α : Type} {g : Dev → α → Dev} {xs : List α} (hg : ∀ (e : Dev), ∀ x ∈ xs, e.Puts l v (g e x)) (d : Dev) :
    d.Puts l v (xs.foldl g d) :=
  List.foldlRecOn (motive := fun e => d.Puts l v e) xs g (.refl d) fun e he x hx => he.trans (hg e x hx)

/-- A fold of which one step puts the last. -/
theorem Dev.Puts.foldl_put {α : Type} {g : Dev → α → Dev} {xs : List α} (hg : ∀ (e : Dev), ∀ x ∈ xs, e.Puts l v (g e x)) {x : α}
    (hx : x ∈ xs) (hput : ∀ e : Dev, (g e x).last l = v) (d : Dev) : (xs.foldl g d).last l = v := by
  obtain ⟨front, back, rfl⟩ := List.append_of_mem hx
  rw [List.foldl_append, List.foldl_cons]
  exact (Dev.Puts.foldl (fun e y hy => hg e y (List.mem_append_right _ (List.mem_cons_of_mem _ hy))) _).kept (hput _)

end

theorem restoreLast_puts (d : Dev) (l : LastId) (y : SavedLast) :
    d.Puts l y.restored (d.restoreLast l y) ∧ (d.restoreLast l y).last l = y.restored := by
  have hput : ∃ e, d.Stays e ∧ d.restoreLast l y = e.updLast l fun _ => y.restored := by
    unfold Dev.restoreLast
    refine ⟨_, ?_, rfl⟩
    dsimp only
    have hregs := Dev.Stays.foldIdx (f := fun (e : Dev) i a => e.setReg a (wordAt y.regs i)) (fun e i a => stays_setReg e a _)
      [aLstCtl l, aLstFlt l 0, aLstFlt l 1, aLstFlt l 2, aLstFlt l 3, aMem (0x40 + 8 * l.val)] 0 d
    refine hregs.trans ?_
    have hkeys : ∀ e : Dev, e.Stays (y.keys.foldl (fun (d : Dev) k => ((d.setReg (aKs (finOf 63 k.1) 0) (setFld k.2.1 0 3 l.val)).setReg
        (aKs (finOf 63 k.1) 8) k.2.2.1).updKey (finOf 63 k.1) fun _ => k.2.2.2) e) :=
      .foldl (fun e k => ((stays_setReg e _ _).trans (stays_setReg _ _ _)).trans (stays_updHub _ _)) y.keys
    refine (hkeys _).trans ?_
    split
    · exact .foldl (fun e c => stays_assign e l true c) _ _
    · exact .refl _
  obtain ⟨e, hstays, heq⟩ := hput
  have hlast : ∀ z, e.last z = d.last z := fun z => congrArg (fun w => w.get z) hstays.lasts
  rw [heq]
  refine ⟨⟨hstays.toCalm.trans (calm_updLast ..), fun z hz => ?_, .inr (last_updLast_same ..)⟩, last_updLast_same ..⟩
  rw [last_updLast, if_neg hz, hlast]

/-! The items of an area with one last. -/

section
variable {x l : LastId} {y : SavedLast} {name : LastId → LastId}

/-- An item of the saved last is written to the last that takes it. -/
theorem restoreItem_last (d : Dev) {e : DirEntry} (hkind : e.key.kind = 8) (hlast : e.key.last = x) :
    d.restoreItem [(x, l, y)] name e = d.restoreLast l y := by
  unfold Dev.restoreItem
  simp [hkind, hlast]

/-- Any other item writes no last. -/
theorem restoreItem_stays (d : Dev) (ps : List (LastId × LastId × SavedLast)) {e : DirEntry} (hkind : e.key.kind ≠ 8) :
    d.Stays (d.restoreItem ps name e) := by
  unfold Dev.restoreItem
  dsimp only
  split
  · split
    · exact ((stays_updStrand d _ _ _).trans (stays_setReg _ _ _)).trans (stays_setRegFld _ _ _ _ _)
    · exact .refl d
  · split
    · exact stays_restoreCore d ..
    · exact .refl d
  · split
    · exact stays_restorePat d ..
    · exact .refl d
  · exact stays_restoreWeights d ..
  · exact stays_restoreSlice d _
  · rename_i h
    exact absurd h hkind
  · split
    · exact stays_restoreHub d _
    · exact .refl d
  · exact .refl d

/-- The directory of an area with one last: its entries of kind 8 are that last's, and there is one. -/
theorem areaLasts_one {d : Dev} {es : List DirEntry} (h : d.areaLasts es = some [(x, y)]) :
    (∀ e ∈ es, e.key.kind = 8 → e.key.last = x) ∧ ∃ e ∈ es, e.key.kind = 8 := by
  unfold Dev.areaLasts at h
  dsimp only at h
  split at h
  · rename_i hall
    have hone := Option.some.inj h
    refine ⟨fun e he hkind => ?_, ?_⟩
    · have hmem : (d.itemOf e rdLast).map (fun x => (e.key.last, x)) ∈
          (es.filter fun e => e.key.kind == 8).map fun e => (d.itemOf e rdLast).map fun x => (e.key.last, x) :=
        List.mem_map_of_mem (List.mem_filter.mpr ⟨he, by simpa using hkind⟩)
      have hsome := List.all_eq_true.mp hall _ hmem
      obtain ⟨z, hz⟩ := Option.isSome_iff_exists.mp hsome
      have hin : z ∈ [(x, y)] := by
        rw [← hone]
        exact List.mem_filterMap.mpr ⟨_, hmem, hz⟩
      rw [List.mem_singleton.mp hin] at hz
      obtain ⟨w, -, hw⟩ := Option.map_eq_some_iff.mp hz
      exact congrArg Prod.fst hw
    · have hin : (x, y) ∈ [(x, y)] := List.mem_singleton_self _
      rw [← hone] at hin
      obtain ⟨z, hz, -⟩ := List.mem_filterMap.mp hin
      obtain ⟨e, he, -⟩ := List.mem_map.mp hz
      obtain ⟨hmem, hkind⟩ := List.mem_filter.mp he
      exact ⟨e, hmem, by simpa using hkind⟩
  · exact absurd h (by simp)

end

end Sys2Proof.Machine
end

section
/-!
PROOFS. RESTORE_COMPLETE of a last (R301): it takes the saved context, or its restore is refused; and what LOAD, resumes, checkpoints,
saves and restores do together.
-/

namespace Sys2Proof.Machine

/-! The end of a restore. -/

/-- CKP_STAT and the counters once a restore ends with `code`, before its CREST completes. -/
def Dev.restoreEnds (d : Dev) (r : Restoring) (code leaf : Nat) : Dev :=
  let d := d.updAoc fun x => { x with restoring := eraseFirst (· == r) x.restoring }
  let l := match r.scope with
    | .last l => l.val
    | .module => 0xFF
  if code = 0 then (d.ckpState 4).acnt 6 1 else ((d.setRegFld (aCkp 8) 8 4 code).ckpState 6).refuseLoad l code leaf

/-- The CREST that asked for a restore completes (R200). -/
def Dev.crestEnds (d : Dev) (r : Restoring) : Dev :=
  match r.crest with
  | some x => (match d.strandLast x.1 x.2.1 with
    | some o => d.complete ⟨o, x.1, x.2.1, x.2.2.1, mkInsn 0x77 x.2.2.2⟩
    | none => d)
  | none => d

theorem crestEnds_eq (d : Dev) (r : Restoring) : ∃ cs, d.crestEnds r = { d with cores := cs } := by
  unfold Dev.crestEnds
  split
  · split
    · exact post_eq ..
    · exact ⟨d.cores, rfl⟩
  · exact ⟨d.cores, rfl⟩

theorem endRestore_refused (d : Dev) (r : Restoring) {code : Nat} (h : code ≠ 0) (leaf : Nat) :
    d.endRestore r code leaf = ((d.restoreEnds r code leaf).crestEnds r).reply r.asker 4 code [] := if_neg h

theorem endRestore_done (d : Dev) (r : Restoring) : d.endRestore r 0 0 = ((d.restoreEnds r 0 0).crestEnds r).reply r.asker 0 0 [] := rfl

/-- A restore ends well: CKP_STAT shows it, and no last changes. -/
theorem restoreEnds_done (d : Dev) (r : Restoring) : d.Stays (d.restoreEnds r 0 0) ∧ (d.restoreEnds r 0 0).regFld (aCkp 8) 0 3 = 4 := by
  have hends : d.restoreEnds r 0 0 = ((d.updAoc fun x => { x with restoring := eraseFirst (· == r) x.restoring }).ckpState 4).acnt 6 1 := rfl
  have hstays : d.Stays (d.updAoc fun x => { x with restoring := eraseFirst (· == r) x.restoring }) :=
    ⟨⟨rfl, rfl, _, _, _, _, rfl⟩, rfl, rfl⟩
  rw [hends]
  generalize d.updAoc (fun x => { x with restoring := eraseFirst (· == r) x.restoring }) = e at *
  have hcounted := countedBy_acnt (e.ckpState 4) (i := 6) (by decide) 1
  exact ⟨(hstays.trans (stays_setRegFld e _ _ _ _)).trans (stays_countedBy hcounted),
    (regFld_of_reg (hcounted.reg _ uncounted_aCkp) 0 3).trans (ckpState_state e (by decide))⟩

/-- A restore is refused: CKP_STAT shows the code, an event is raised, and neither a last nor memory changes. -/
theorem restoreEnds_refused (d : Dev) (r : Restoring) {code : Nat} (h : code ≠ 0) (leaf : Nat) :
    d.Stays (d.restoreEnds r code leaf) ∧ (d.restoreEnds r code leaf).mem = d.mem ∧
      (d.restoreEnds r code leaf).regFld (aCkp 8) 8 4 = code % 16 ∧ (d.restoreEnds r code leaf).codes = d.codes ++ [0x3003] := by
  have hends : ∃ n, d.restoreEnds r code leaf = ((((d.updAoc fun x => { x with restoring := eraseFirst (· == r) x.restoring }).setRegFld
      (aCkp 8) 8 4 code).ckpState 6).refuseLoad n code leaf) := ⟨_, if_neg h⟩
  obtain ⟨n, hends⟩ := hends
  have hstays : d.Stays (d.updAoc fun x => { x with restoring := eraseFirst (· == r) x.restoring }) :=
    ⟨⟨rfl, rfl, _, _, _, _, rfl⟩, rfl, rfl⟩
  have hmem : (d.updAoc fun x => { x with restoring := eraseFirst (· == r) x.restoring }).mem = d.mem := rfl
  have hcodes : (d.updAoc fun x => { x with restoring := eraseFirst (· == r) x.restoring }).codes = d.codes := rfl
  rw [hends]
  generalize d.updAoc (fun x => { x with restoring := eraseFirst (· == r) x.restoring }) = e at *
  refine ⟨((hstays.trans (stays_setRegFld e _ _ _ _)).trans (stays_setRegFld _ _ _ _ _)).trans (stays_event _ ..), hmem, ?_, ?_⟩
  · refine (regFld_setRegFld_other (e.setRegFld (aCkp 8) 8 4 code) (aCkp 8) (by decide) (by decide) 6).trans ?_
    exact regFld_setRegFld e (aCkp 8) (by decide) code
  · refine (codes_event ((e.setRegFld (aCkp 8) 8 4 code).ckpState 6) ..).trans ?_
    exact congrArg (· ++ _) hcodes

/-- The codes of the checks before the digest (Table 10.10). -/
theorem restoreCheck_le (d : Dev) (r : Restoring) : d.restoreCheck r ≤ 5 := by
  unfold Dev.restoreCheck
  split
  · decide
  · dsimp only
    split
    · decide
    · split
      · decide
      · split
        · decide
        · split
          · decide
          · decide

section
variable {s : State} {l : LastId} {r : Restoring}

/-- A restore that a check fails is refused with the code of the check. -/
theorem restoreComplete_refused (hfound : s.dev.aoc.restoring.find? (fun r => r.scope == .last l) = some r)
    (hawake : s.dev.areaWake r.addr = none) (hcheck : s.dev.restoreCheck r ≠ 0) : Yields (.restoreComplete (.last l)) s fun t =>
      t.dev.lasts = s.dev.lasts ∧ t.dev.mem = s.dev.mem ∧ t.dev.regFld (aCkp 8) 8 4 = s.dev.restoreCheck r ∧ Raised [0x3003] s t ∧
        ∀ k, r.asker = some k → k.injected = false → Sent k 4 (s.dev.restoreCheck r) [] true s t := by
  have hexec : exec (.restoreComplete (.last l)) s = .next { s with dev := s.dev.endRestore r (s.dev.restoreCheck r) 0 } := by
    show execRestoreComplete (.last l) s = _
    unfold execRestoreComplete onDev
    simp only [hfound, hawake, hcheck, ne_eq, not_false_eq_true, if_true]
  have hcode := restoreCheck_le s.dev r
  refine ⟨_, hexec, ?_⟩
  generalize s.dev.restoreCheck r = code at *
  obtain ⟨hstays, hmem, hfld, hcodes⟩ := restoreEnds_refused s.dev r hcheck 0
  rw [endRestore_refused _ _ hcheck]
  obtain ⟨cs, hcs⟩ := crestEnds_eq (s.dev.restoreEnds r code 0) r
  rw [hcs]
  generalize s.dev.restoreEnds r code 0 = e at *
  have hreply := reply_replied { e with cores := cs } r.asker 4 code []
  refine ⟨hreply.lasts.trans hstays.lasts, hreply.mem.trans hmem, ?_, (codes_of_rcd hreply.rcd).trans hcodes, fun k hk hasked => ?_⟩
  · exact ((regFld_of_reg (hreply.reg _ uncounted_aCkp) 8 4).trans hfld).trans (Nat.mod_eq_of_lt (by omega))
  · rw [hk]
    exact sent_of_calm (d := { e with cores := cs }) (hstays.toCalm.trans (.of_aoc rfl rfl rfl)) hasked

/-! A last takes a saved context. -/

variable {a : AreaView} {x : LastId} {y : SavedLast}

theorem pairs_one (hscope : r.scope = .last l) (hlasts : a.lasts = [(x, y)]) : r.pairs a = [(x, l, y)] := by
  simp [Restoring.pairs, hlasts, hscope]

theorem images_ready {d : Dev} (hpairs : r.pairs a = [(x, l, y)]) (hready : ∀ i, y.image = some i → d.coresReady i = true) :
    ((r.images a).all fun p => d.coresReady p.2) = true := by
  unfold Restoring.images
  rw [hpairs]
  cases himage : y.image with
  | none => simp [himage]
  | some i => simp [himage, hready i himage]

/-- The lasts of an area are those of its directory. -/
theorem areaAt_lasts {d : Dev} (h : d.areaAt r = some a) : d.areaLasts a.dir = some a.lasts := by
  unfold Dev.areaAt at h
  dsimp only at h
  split at h
  · split at h
    · exact absurd h (by simp)
    · split at h
      · exact absurd h (by simp)
      · rename_i es _ ls hls
        split at h
        · rw [← Option.some.inj h]
          exact hls
        · exact absurd h (by simp)
  · exact absurd h (by simp)

theorem stays_ops (d : Dev) (os : List Op) : d.Stays { d with ops := os } := .of_aoc rfl rfl rfl rfl

/-- Everything that a restore of one last writes puts that last. -/
theorem writeRestore_puts (d : Dev) {dd : Dev} (hpairs : r.pairs a = [(x, l, y)]) (hdir : dd.areaLasts a.dir = some [(x, y)]) :
    d.Puts l y.restored (d.writeRestore r a) ∧ (d.writeRestore r a).last l = y.restored := by
  obtain ⟨hlast, e8, hmem, hkind⟩ := areaLasts_one hdir
  have hitem : ∀ (f : Dev), ∀ e ∈ a.dir, f.Puts l y.restored (f.restoreItem [(x, l, y)] (r.name a) e) := fun f e he => by
    by_cases hk : e.key.kind = 8
    · rw [restoreItem_last f hk (hlast e he hk)]
      exact (restoreLast_puts f l y).1
    · exact (restoreItem_stays f _ hk).puts
  have hone : ∀ f : Dev, (f.restoreItem [(x, l, y)] (r.name a) e8).last l = y.restored := fun f => by
    rw [restoreItem_last f hkind (hlast e8 hmem hkind)]
    exact (restoreLast_puts f l y).2
  have hafter : ∀ f : Dev, f.Stays (((a.dir.filter fun e => e.key.kind == 6).foldl (fun (d : Dev) e => d.restoreBed e) f).restoreOps a.dir
      (r.name a)) := fun f => (Dev.Stays.foldl (fun e x => stays_restoreBed e x) _ f).trans (stays_restoreOps _ _ _)
  unfold Dev.writeRestore
  simp only [hpairs]
  refine ⟨Dev.Puts.trans ?_ (hafter _).puts, (hafter _).puts.kept (Dev.Puts.foldl_put hitem hmem hone _)⟩
  refine Dev.Puts.trans ?_ (Dev.Puts.foldl hitem _)
  exact ((stays_measure d _ _ _ _).trans (stays_ops _ _)).puts

/-- What R109 asks of a unit is read from memory and from its tile's assignment. -/
theorem bedUnitOk_readBy {d e : Dev} (h : d.ReadBy e) (u : DirEntry) : e.bedUnitOk u = d.bedUnitOk u := by
  have hreg : e.reg (aBedCtl u.key.core u.key.array) = d.reg (aBedCtl u.key.core u.key.array) := by
    refine h.reg _ (fun m => ?_) fun c => ?_
    · have := m.isLt
      unfold aBedCtl aBed aHbmErr aMem regAddr corePage
      omega
    · have := u.key.array.isLt
      unfold aBedCtl aBed aStkErr aHod regAddr corePage
      omega
  have howner : e.tileOwner u.key.core u.key.array u.key.tile = d.tileOwner u.key.core u.key.array u.key.tile := by
    unfold Dev.tileOwner
    rw [hreg]
  unfold Dev.bedUnitOk
  rw [h.sameMem.rdMem, howner]

/-- A restore that passes every check leaves its last PAUSED with the saved image. -/
theorem restoreComplete_done (hfound : s.dev.aoc.restoring.find? (fun r => r.scope == .last l) = some r)
    (hawake : s.dev.areaWake r.addr = none) (hcheck : s.dev.restoreCheck r = 0) (harea : s.dev.areaAt r = some a)
    (hlasts : a.lasts = [(x, y)]) (hready : ∀ i, y.image = some i → s.dev.coresReady i = true)
    (hdigest : s.dev.digestCheck r.addr = none) (hbeds : ∀ e ∈ a.dir, e.key.kind = 6 → s.dev.bedUnitOk e = true) :
    Yields (.restoreComplete (.last l)) s fun t => t.dev.last l = { Last.init with st := .paused, image := y.image } ∧
      (∀ z, z ≠ l → t.dev.last z = s.dev.last z) ∧ t.dev.regFld (aCkp 8) 0 3 = 4 ∧
      ∀ k, r.asker = some k → k.injected = false → Sent k 0 0 [] true s t := by
  have hscope : r.scope = .last l := by simpa using List.find?_some hfound
  have hpairs := pairs_one hscope hlasts
  have himages := images_ready hpairs hready
  have hdir := areaAt_lasts harea
  rw [hlasts] at hdir
  have hread := readBy_readLeaves s.dev r.addr
  have hunits : ((a.dir.filter fun e => e.key.kind == 6).all fun e => (s.dev.readLeaves r.addr).bedUnitOk e) = true := by
    refine List.all_eq_true.mpr fun e he => ?_
    obtain ⟨hmem, hkind⟩ := List.mem_filter.mp he
    rw [bedUnitOk_readBy hread]
    exact hbeds e hmem (by simpa using hkind)
  have hleaves : (s.dev.readLeaves r.addr).digestCheck r.addr = none := (hread.sameMem.digestCheck r.addr).trans hdigest
  have hexec : exec (.restoreComplete (.last l)) s = .next
      { s with dev := ((s.dev.readLeaves r.addr).writeRestore r a).endRestore r 0 0 } := by
    show execRestoreComplete (.last l) s = _
    unfold execRestoreComplete onDev
    simp only [hfound, hawake, hcheck, harea, himages, hleaves, hunits, ne_eq, not_true_eq_false, Bool.not_true, Bool.false_eq_true, if_false]
  refine ⟨_, hexec, ?_⟩
  obtain ⟨hputs, hput⟩ := writeRestore_puts (s.dev.readLeaves r.addr) hpairs hdir
  have hall := hread.stays.puts.trans hputs
  generalize (s.dev.readLeaves r.addr).writeRestore r a = d at *
  rw [endRestore_done]
  obtain ⟨hstays, hstate⟩ := restoreEnds_done d r
  obtain ⟨cs, hcs⟩ := crestEnds_eq (d.restoreEnds r 0 0) r
  rw [hcs]
  generalize d.restoreEnds r 0 0 = e at *
  have hreply := reply_replied { e with cores := cs } r.asker 0 0 []
  have hlast : ∀ z, (Dev.reply { e with cores := cs } r.asker 0 0 []).last z = d.last z := fun z =>
    (hreply.last z).trans (congrArg (fun w => w.get z) hstays.lasts)
  refine ⟨(hlast l).trans hput, fun z hz => (hlast z).trans (hall.other z hz), ?_, fun k hk hasked => ?_⟩
  · exact (regFld_of_reg (hreply.reg _ uncounted_aCkp) 0 3).trans hstate
  · rw [hk]
    exact sent_of_calm (d := { e with cores := cs }) ((hall.toCalm.trans hstays.toCalm).trans (.of_aoc rfl rfl rfl)) hasked

end

/-! All of it. -/

/-- Settles O46: each request and each completion by its own rule above. -/
theorem loadsAndSaves : Obligations.LoadsAndSaves := by
  unfold Obligations.LoadsAndSaves
  intro s p g rest l
  refine ⟨fun x hbm n map hn hmap h => ⟨load_refused hn hmap h, load_waits hn hmap h, fun hawake => load_begins hn hmap h hawake⟩,
    fun i a raw => loader_loads, lresume_resumes, fun c k h => ⟨sresume_resumes h, fun hno hlast => ?_, fun hno hlast => ?_⟩,
    fun h => ⟨ckpt_refused h, ckpt_runs h⟩, fun mod x h => restore_begins h,
    fun a x harea hawake hmapped => ⟨fun q hx hq => ?_, fun k hx hk => ?_⟩,
    fun q a => digestComplete_last, fun hstate hawake hplace => digestComplete_module hstate rfl hawake hplace,
    fun r hfound hawake => ⟨fun a x y => restoreComplete_done hfound hawake, restoreComplete_refused hfound hawake⟩⟩
  · have hcode : s.dev.ownerCode c k = (s.dev.last l).st.code := by unfold Dev.ownerCode; rw [hlast]
    rw [← hcode]
    exact sresume_refused h (hno.imp_right fun hst => ⟨l, hlast, hst⟩)
  · have hcode : s.dev.ownerCode c k = 0 := by unfold Dev.ownerCode; rw [hlast]
    rw [← hcode]
    exact sresume_refused h (.inl hno)
  · subst hx
    obtain ⟨t, hexec, hbyte, hlast⟩ := saveComplete_last harea hawake hmapped hq
    exact ⟨t, hexec, fun b => (hbyte b).trans (copySave_byte hmapped b), hlast⟩
  · subst hx
    obtain ⟨t, hexec, hbyte, hlasts, hback, hdone⟩ := saveComplete_module harea hawake hmapped hk
    exact ⟨t, hexec, fun b => (hbyte b).trans (copySave_byte hmapped b), hlasts, hback, hdone⟩

end Sys2Proof.Machine
end

section
/-!
PROOFS. What the meaning of an instruction reads of the device that its dispatch has committed (R145, R149, R152): the counter of dispatched
instructions stands in a page of its own, and of the cycle's notes only the increments of counters change.
-/

namespace Sys2Proof.Machine

section
variable (d : Dev) (c x : CoreId) (k : StrandId) (w : BitVec 56)

theorem count_now (base i n : Nat) : ∃ is, (d.count base i n).now = { d.now with incs := is } := by
  unfold Dev.count
  split
  · exact ⟨_, rfl⟩
  · exact ⟨d.now.incs, rfl⟩

theorem commit_now : ∃ is, (d.commit c k w).now = { d.now with incs := is } := by
  unfold Dev.commit Dev.cnt
  dsimp only
  split <;> exact count_now _ (aCnt c 0) (1 + k.val) 1

theorem commit_flags : (d.commit c k w).now.flags = d.now.flags := by
  obtain ⟨is, h⟩ := commit_now d c k w
  rw [h]

theorem commit_sets : (d.commit c k w).now.sets = d.now.sets := by
  obtain ⟨is, h⟩ := commit_now d c k w
  rw [h]

theorem commit_gathered (n : Fin 32) : (d.commit c k w).gathered c n = d.gathered c n := by
  obtain ⟨is, h⟩ := commit_now d c k w
  rw [Dev.gathered, h]
  rfl

@[simp] theorem commit_lasts : (d.commit c k w).lasts = d.lasts := by
  obtain ⟨_, _, _, h⟩ := commit_eq d c k w
  rw [h]

@[simp] theorem commit_mayPost (l : LastId) : (d.commit c k w).mayPost l = d.mayPost l := by
  obtain ⟨is, h⟩ := commit_now d c k w
  simp only [Dev.mayPost, commit_last, h]

/-! Registers. -/

theorem regAddr_ne {g h o p : Nat} (hgh : g ≠ h) (ho : o < 0x10000) (hp : p < 0x10000) : regAddr g o ≠ regAddr h p := by
  simp only [regAddr]
  omega

/-- The pages of the hub and of the always-on domain lie below those of the cores, and a core's counters are its page 7. -/
theorem ne_countPage {g : Nat} (h : g < 0x1000) : g ≠ corePage c 7 := by
  simp only [corePage]
  omega

theorem corePage_ne_countPage {j : Nat} (h : j < 7) : corePage x j ≠ corePage c 7 := by
  simp only [corePage]
  omega

theorem commit_regAddr {g o : Nat} (hg : g ≠ corePage c 7) (ho : o < 0x10000) :
    (d.commit c k w).reg (regAddr g o) = d.reg (regAddr g o) :=
  commit_reg _ _ _ _ (regAddr_ne hg ho (by have := k.isLt; omega))

@[simp] theorem commit_ownDev : (d.commit c k w).ownDev = d.ownDev := by
  have hreg : (d.commit c k w).reg (aFab 0x10) = d.reg (aFab 0x10) := commit_regAddr d c k w (ne_countPage c (by decide)) (by decide)
  unfold Dev.ownDev Dev.hubOn Dev.regFld
  rw [commit_aoc, hreg]

@[simp] theorem commit_strandLast (j : StrandId) : (d.commit c k w).strandLast x j = d.strandLast x j := by
  have hreg : (d.commit c k w).reg (aSeqCtl x) = d.reg (aSeqCtl x) :=
    commit_regAddr d c k w (corePage_ne_countPage c x (by decide)) (by decide)
  simp only [Dev.strandLast, hreg]

@[simp] theorem commit_halfOwner (a : ArrayId) (u : HalfId) : (d.commit c k w).halfOwner x a u = d.halfOwner x a u := by
  have hreg : (d.commit c k w).reg (aArrCtl x a) = d.reg (aArrCtl x a) :=
    commit_regAddr d c k w (corePage_ne_countPage c x (by decide)) (by omega)
  simp only [Dev.halfOwner, hreg]

@[simp] theorem commit_tileOwner (a : ArrayId) (t : TileId) : (d.commit c k w).tileOwner x a t = d.tileOwner x a t := by
  have hreg : (d.commit c k w).reg (aBedCtl x a) = d.reg (aBedCtl x a) :=
    commit_regAddr d c k w (corePage_ne_countPage c x (by decide)) (by omega)
  simp only [Dev.tileOwner, hreg]

@[simp] theorem commit_patOwner : (d.commit c k w).patOwner x = d.patOwner x := by
  have hreg : (d.commit c k w).reg (aPatCtl x) = d.reg (aPatCtl x) :=
    commit_regAddr d c k w (corePage_ne_countPage c x (by decide)) (by decide)
  simp only [Dev.patOwner, hreg]

@[simp] theorem commit_width (a : ArrayId) : (d.commit c k w).width x a = d.width x a :=
  regFld_of_reg (commit_regAddr d c k w (ne_countPage c (by decide)) (by omega)) ..

@[simp] theorem commit_ksCfg (n : KeyId) : (d.commit c k w).ksCfg n = d.ksCfg n :=
  commit_regAddr d c k w (ne_countPage c (by decide)) (by omega)

@[simp] theorem commit_mcEntry (g : Nat) : (d.commit c k w).mcEntry g = d.mcEntry g := by
  unfold Dev.mcEntry
  split
  · exact commit_regAddr d c k w (ne_countPage c (by decide)) (by omega)
  · rfl

@[simp] theorem commit_hbmSize : (d.commit c k w).hbmSize = d.hbmSize := by
  have hways : (d.commit c k w).hbmWays = d.hbmWays :=
    regFld_of_reg (commit_regAddr d c k w (ne_countPage c (by decide)) (by decide)) ..
  simp only [Dev.hbmSize, hways]

theorem commit_flagsReg (j : StrandId) : (d.commit c k w).reg (aFlags x j) = d.reg (aFlags x j) :=
  commit_regAddr d c k w (corePage_ne_countPage c x (by decide)) (by omega)

@[simp] theorem commit_flagsBefore (j : StrandId) : (d.commit c k w).flagsBefore x j = d.flagsBefore x j := by
  simp only [Dev.flagsBefore, commit_flags, commit_flagsReg]

end

/-! Tallies: a commit notes the decrement only (R149, R151). -/

theorem commit_tally (d : Dev) (c : CoreId) (k : StrandId) (w : BitVec 56) (i : TallyId) :
    ∃ n, ((d.commit c k w).core c).tallies.get i = { (d.core c).tallies.get i with dec := n } := by
  rw [commit_core]
  dsimp only
  split
  · rw [vmap_get]
    split
    · rw [‹i = _›]
      exact ⟨_, rfl⟩
    · exact ⟨_, rfl⟩
  · exact ⟨_, rfl⟩

/-! Dispatch, by what the meaning of the instruction comes to (R158). -/

section
variable {s : State} {c : CoreId} {k : StrandId} {w : BitVec 56} {i : Instr} {op : Nat} {l : LastId} {body : Dev → Origin → Disp}

theorem strandLast_of_dispatches (h : Dispatches s c k op w) : ∃ l, s.dev.strandLast c k = some l := by
  have hready := h.ready
  simp only [Dev.canIssue, Bool.and_eq_true, Option.isSome_iff_exists] at hready
  obtain ⟨⟨⟨⟨⟨⟨⟨hlast, -⟩, -⟩, -⟩, -⟩, -⟩, -⟩, -⟩ := hready
  exact hlast

theorem yields_of_ok {e : Dev} {P : State → Prop} (hl : s.dev.strandLast c k = some l) (ho : op < 256) (h : Dispatches s c k op w)
    (hexec : exec i s = onDev s fun d => d.issue c k (mkInsn op w) body)
    (hbody : body (s.dev.commit c k w) (s.originOf c k op w l) = .ok e) (hP : P { s with dev := e }) : Yields i s P := by
  obtain ⟨l', hl', hissue⟩ := issue_of_dispatches ho h body
  obtain rfl := Option.some.inj (hl.symm.trans hl')
  unfold State.originOf at hbody
  rw [hbody] at hissue
  rw [onDev_eq, hissue] at hexec
  exact ⟨_, hexec, hP⟩

theorem yields_of_fault {cause : Nat} {detail : Word} (hl : s.dev.strandLast c k = some l) (ho : op < 256) (h : Dispatches s c k op w)
    (hexec : exec i s = onDev s fun d => d.issue c k (mkInsn op w) body)
    (hbody : body (s.dev.commit c k w) (s.originOf c k op w l) = .fault cause detail) :
    Yields i s fun t => t.dev = s.dev.fault cause (s.originOf c k op w l) detail := by
  obtain ⟨l', hl', hissue⟩ := issue_of_dispatches ho h body
  obtain rfl := Option.some.inj (hl.symm.trans hl')
  unfold State.originOf at hbody
  rw [hbody] at hissue
  rw [onDev_eq, hissue] at hexec
  exact ⟨_, hexec, rfl⟩

end

end Sys2Proof.Machine
end

section
/-!
PROOFS. Instructions whose meaning is one result: register arithmetic, divisions, compares, immediates and what the core holds (R174 to
R178, R201).
-/

namespace Sys2Proof.Machine

section
variable {s : State} {c : CoreId} {k : StrandId} {w : BitVec 56} {i : Instr} {op n : Nat}

theorem yields_result {body : Dev → Origin → Disp} {r : Fin 32} {v : Word} (ho : op < 256) (h : Dispatches s c k op w)
    (hexec : exec i s = onDev s fun d => d.issue c k (mkInsn op w) body)
    (hbody : ∀ l, body (s.dev.commit c k w) (s.originOf c k op w l) =
      .ok ((s.dev.commit c k w).result (s.originOf c k op w l) r v n)) : Yields i s (WritesScalar c k op w n r v s) :=
  yields_of_dispatch ho h hexec _ hbody fun _ hl => writesScalar_of_result ho hl r v n

theorem yields_aluS {f : Word → Word → Word} (ho : op < 256) (h : Dispatches s c k op w) (hexec : exec i s = aluS op n f c k w s) :
    Yields i s (WritesScalar c k op w n (wRd w) (f ((s.dev.strand c k).rdS (wRa w)) ((s.dev.strand c k).rdS (wRb w))) s) :=
  yields_result ho h hexec fun _ => by simp only [commit_rdS]

theorem yields_aluI {f : Word → Nat → Word} (ho : op < 256) (h : Dispatches s c k op w) (hexec : exec i s = aluI op f c k w s) :
    Yields i s (WritesScalar c k op w 1 (wRd w) (f ((s.dev.strand c k).rdS (wRa w)) (wImm w)) s) :=
  yields_result ho h hexec fun _ => by simp only [commit_rdS]

theorem yields_resultP {body : Dev → Origin → Disp} {p : Fin 8} {v : Bool} (ho : op < 256) (h : Dispatches s c k op w)
    (hexec : exec i s = onDev s fun d => d.issue c k (mkInsn op w) body)
    (hbody : ∀ l, body (s.dev.commit c k w) (s.originOf c k op w l) =
      .ok ((s.dev.commit c k w).resultP (s.originOf c k op w l) p v)) : Yields i s (WritesPredicate c k op w p v s) :=
  yields_of_dispatch ho h hexec _ hbody fun _ hl => writesPredicate_of_result ho hl p v

theorem yields_cmpS {f : Word → Word → Bool} (ho : op < 256) (h : Dispatches s c k op w) (hexec : exec i s = cmpS op f c k w s) :
    Yields i s (WritesPredicate c k op w (wPd w) (f ((s.dev.strand c k).rdS (wRa w)) ((s.dev.strand c k).rdS (wRb w))) s) :=
  yields_resultP ho h hexec fun _ => by simp only [commit_rdS]

theorem yields_cmpI {f : Word → Word → Bool} (ho : op < 256) (h : Dispatches s c k op w) (hexec : exec i s = cmpI op f c k w s) :
    Yields i s (WritesPredicate c k op w (wPd w) (f ((s.dev.strand c k).rdS (wRa w)) (sext32 (wImm w))) s) :=
  yields_resultP ho h hexec fun _ => by simp only [commit_rdS]

end

/-! Products, quotients and comparisons of words. -/

section
variable (a b : Word)

/-- The upper half of a product in 128 bits, of any integers that the factors stand for. -/
theorem extract_ofInt_128 (p : Int) : (BitVec.ofInt 128 p).extractLsb' 64 64 = BitVec.ofInt 64 (p / ((2 ^ 64 : Nat) : Int)) := by
  apply BitVec.eq_of_toNat_eq
  rw [BitVec.extractLsb'_toNat, BitVec.toNat_ofInt, BitVec.toNat_ofInt, Nat.shiftRight_eq_div_pow]
  omega

theorem mulHighS_eq : mulHighS a b = (a.signExtend 128 * b.signExtend 128).extractLsb' 64 64 := by
  have hproduct : a.signExtend 128 * b.signExtend 128 = BitVec.ofInt 128 (a.toInt * b.toInt) := (BitVec.ofInt_mul ..).symm
  rw [hproduct, extract_ofInt_128, mulHighS]

theorem mulHighU_eq : mulHighU a b = (a.setWidth 128 * b.setWidth 128).extractLsb' 64 64 := by
  have ha := a.isLt
  have hb := b.isLt
  have hproduct : a.setWidth 128 * b.setWidth 128 = BitVec.ofInt 128 ((a.toNat * b.toNat : Nat) : Int) := by
    apply BitVec.eq_of_toNat_eq
    rw [BitVec.toNat_mul, BitVec.toNat_setWidth, BitVec.toNat_setWidth, BitVec.toNat_ofInt, Nat.mod_eq_of_lt (a := a.toNat) (by omega),
      Nat.mod_eq_of_lt (a := b.toNat) (by omega)]
    omega
  rw [hproduct, extract_ofInt_128, mulHighU, ← Int.natCast_ediv, BitVec.ofInt_natCast]

variable {a b}

theorem divS_eq_sdiv (hb : b ≠ 0) : divS a b = a.sdiv b := by
  rw [divS, if_neg hb]
  apply BitVec.eq_of_toInt_eq
  rw [BitVec.toInt_ofInt, BitVec.toInt_sdiv]

theorem toInt_divS (hb : b ≠ 0) (hfits : ¬ (a = 0x8000000000000000 ∧ b = 0xFFFFFFFFFFFFFFFF)) :
    (divS a b).toInt = a.toInt.tdiv b.toInt := by
  rw [divS_eq_sdiv hb]
  exact BitVec.toInt_sdiv_of_ne_or_ne a b (not_and_or.mp hfits)

theorem remS_eq_srem (hb : b ≠ 0) : remS a b = a.srem b := by
  rw [remS, if_neg hb, ← BitVec.toInt_srem, BitVec.ofInt_toInt]

theorem toInt_remS (hb : b ≠ 0) : (remS a b).toInt = a.toInt.tmod b.toInt := by
  rw [remS_eq_srem hb, BitVec.toInt_srem]

theorem toNat_divU (hb : b ≠ 0) : (divU a b).toNat = a.toNat / b.toNat := by
  rw [divU, if_neg hb, BitVec.toNat_ofNat, Nat.mod_eq_of_lt (lt_of_le_of_lt (Nat.div_le_self ..) a.isLt)]

theorem toNat_remU (hb : b ≠ 0) : (remU a b).toNat = a.toNat % b.toNat := by
  rw [remU, if_neg hb, BitVec.toNat_ofNat, Nat.mod_eq_of_lt (lt_of_le_of_lt (Nat.mod_le ..) a.isLt)]

end

/-- Settles O8: each is one result, and the upper half of a product is taken in 128 bits. -/
theorem scalarArithmetic : Obligations.ScalarArithmetic := by
  unfold Obligations.ScalarArithmetic
  intro s c k w
  dsimp only
  rw [← mulHighS_eq, ← mulHighU_eq]
  exact ⟨fun h => yields_aluS (by decide) h rfl, fun h => yields_aluS (by decide) h rfl, fun h => yields_aluS (by decide) h rfl,
    fun h => yields_aluS (by decide) h rfl, fun h => yields_aluS (by decide) h rfl, fun h => yields_aluS (by decide) h rfl,
    fun h => yields_aluS (by decide) h rfl, fun h => yields_aluS (by decide) h rfl,
    fun h => yields_aluS (f := fun a b => a <<< (b.toNat % 64)) (by decide) h rfl,
    fun h => yields_aluS (f := fun a b => a >>> (b.toNat % 64)) (by decide) h rfl,
    fun h => yields_aluS (f := fun a b => a.sshiftRight (b.toNat % 64)) (by decide) h rfl⟩

/-- What is so of a result is so of the scalar that an instruction wrote. -/
theorem Yields.writes {i : Instr} {s : State} {c : CoreId} {k : StrandId} {op n : Nat} {w : BitVec 56} {r : Fin 32} {v : Word} {P : Word → Prop}
    (h : Yields i s (WritesScalar c k op w n r v s)) (hv : P v) : Yields i s fun t => ∃ q, WritesScalar c k op w n r q s t ∧ P q := by
  obtain ⟨t, hexec, hwrites⟩ := h
  exact ⟨t, hexec, v, hwrites, hv⟩

/-- Settles O9: a division by zero and the one that overflows are answered as R175 says, and every other is that of the integers. -/
theorem scalarDivision : Obligations.ScalarDivision := by
  unfold Obligations.ScalarDivision
  intro s c k w
  refine ⟨fun h => (yields_aluS (f := divS) (by decide) h rfl).writes ⟨fun hb => if_pos hb, fun ha hb => ?_, toInt_divS⟩,
    fun h => (yields_aluS (f := divU) (by decide) h rfl).writes ⟨fun hb => if_pos hb, toNat_divU⟩,
    fun h => (yields_aluS (f := remS) (by decide) h rfl).writes ⟨fun hb => if_pos hb, fun ha hb => ?_, toInt_remS⟩,
    fun h => (yields_aluS (f := remU) (by decide) h rfl).writes ⟨fun hb => if_pos hb, toNat_remU⟩⟩
  · rw [ha, hb]
    decide
  · rw [ha, hb]
    decide

/-- Settles O10: signed and unsigned orders of words are those of the integers that they stand for. -/
theorem compares : Obligations.Compares := by
  unfold Obligations.Compares
  intro s c k w
  exact ⟨fun h => yields_cmpS (f := fun a b => a == b) (by decide) h rfl,
    fun h => yields_cmpS (f := fun a b => decide (a ≠ b)) (by decide) h (by simp only [ne_eq, decide_not]; rfl),
    fun h => yields_cmpS (f := fun a b => a.slt b) (by decide) h rfl, fun h => yields_cmpS (f := fun a b => a.ult b) (by decide) h rfl,
    fun h => yields_cmpS (f := fun a b => a.sle b) (by decide) h rfl, fun h => yields_cmpS (f := fun a b => a.ule b) (by decide) h rfl,
    fun h => yields_cmpI (f := fun a b => a == b) (by decide) h rfl, fun h => yields_cmpI (f := fun a b => a.slt b) (by decide) h rfl⟩

section
variable {s : State} {c : CoreId} {k : StrandId} {w : BitVec 56}

/-! Legal immediates (R157, Table 7.4). -/

theorem operands_of_dispatches {op : Nat} (h : Dispatches s c k op w) : badOperands op w = false :=
  (Bool.or_eq_false_iff.mp h.legal).2

/-- The amounts of SHLI, SHRI and SRAI. -/
theorem wImm_le_of_shift {op : Nat} (hop : op = 0x28 ∨ op = 0x29 ∨ op = 0x2A) (h : Dispatches s c k op w) : wImm w ≤ 63 := by
  have hlegal := operands_of_dispatches h
  rcases hop with rfl | rfl | rfl <;> simpa [badOperands, formOf] using hlegal

/-! Values. -/

theorem ldih_word (a : Word) (n : Nat) : BitVec.ofNat 64 (a.toNat % 2 ^ 32 + n * 2 ^ 32) = BitVec.ofNat 32 n ++ a.setWidth 32 := by
  apply BitVec.eq_of_toNat_eq
  have hlow : a.toNat % 2 ^ 32 < 2 ^ 32 := Nat.mod_lt _ (by decide)
  rw [BitVec.toNat_append, BitVec.toNat_ofNat, BitVec.toNat_ofNat, BitVec.toNat_setWidth, ← Nat.shiftLeft_add_eq_or_of_lt hlow,
    Nat.shiftLeft_eq]
  omega

/-- The predicate and the scalar that an immediate of SEL names, and its negation (Table 7.4). -/
theorem sel_fields (w : BitVec 56) : finOf 7 (wImm w / 32) = finOf 7 (wFld w 15 3) ∧ (wImm w).testBit 8 = w.toNat.testBit 18 ∧
    finOf 31 (wImm w) = finOf 31 (wFld w 10 5) := by
  refine ⟨Fin.ext ?_, ?_, Fin.ext ?_⟩
  · simp only [finOf, wImm, wFld, Fin.ofNat]
    omega
  · rw [wImm, wFld, Nat.testBit_mod_two_pow, Nat.testBit_div_two_pow]
    rfl
  · simp only [finOf, wImm, wFld, Fin.ofNat]
    omega

theorem prd_field (w : BitVec 56) : finOf 7 (wImm w) = finOf 7 (wFld w 10 3) := by
  apply Fin.ext
  simp only [finOf, wImm, wFld, Fin.ofNat]
  omega

/-- A word of four fields. The positions are variables, since the kernel, given the number 24, counts up to 2^24. -/
theorem mkWord_four (i j k l a b c e : Nat) : mkWord [(i, a), (j, b), (k, c), (l, e)] =
    BitVec.ofNat 64 (0 + a * 2 ^ i + b * 2 ^ j + c * 2 ^ k + e * 2 ^ l) := rfl

/-- The fields of a word of four numbers of one byte each. -/
theorem fld_fourBytes {a b c e : Nat} (ha : a < 256) (hb : b < 256) (hc : c < 256) (he : e < 256) :
    let v := mkWord [(0, a), (8, b), (16, c), (24, e)]
    fld v 0 8 = a ∧ fld v 8 8 = b ∧ fld v 16 8 = c ∧ fld v 24 8 = e := by
  dsimp only
  rw [mkWord_four]
  simp only [fld, BitVec.toNat_ofNat]
  omega

theorem width_lt (d : Dev) (c : CoreId) (a : ArrayId) : d.width c a < 128 := Nat.mod_lt _ (by decide)

/-- The presented width of each array in the word of all four (Table 7.5). -/
theorem fld_widths (d : Dev) (c : CoreId) (a : ArrayId) :
    fld (mkWord [(0, d.width c 0), (8, d.width c 1), (16, d.width c 2), (24, d.width c 3)]) (8 * a.val) 8 = d.width c a := by
  have hwidth : ∀ x, d.width c x < 256 := fun x => lt_trans (width_lt d c x) (by decide)
  obtain ⟨hfirst, hsecond, hthird, hfourth⟩ := fld_fourBytes (hwidth 0) (hwidth 1) (hwidth 2) (hwidth 3)
  match a with
  | 0 => exact hfirst
  | 1 => exact hsecond
  | 2 => exact hthird
  | 3 => exact hfourth

theorem toNat_of_lt {n m : Nat} (h : n < m) (hm : m ≤ 2 ^ 64) : (BitVec.ofNat 64 n).toNat = n :=
  Nat.mod_eq_of_lt (lt_of_lt_of_le h hm)

theorem sliceBase_lt (c : CoreId) : sliceBase c < 2 ^ 40 := by
  have hc := c.isLt
  simp only [sliceBase, stockBase]
  omega

theorem ownDev_lt (d : Dev) : d.ownDev < 2 ^ 15 := by
  unfold Dev.ownDev
  split
  · exact Nat.mod_lt _ (by decide)
  · decide

theorem commit_getsValue (d : Dev) (c : CoreId) (k : StrandId) (w : BitVec 56) (n : Nat) :
    (d.commit c k w).getsValue c k n = d.getsValue c k n := by
  unfold Dev.getsValue
  simp only [commit_strandLast, commit_ownDev, commit_hub, commit_width]

theorem commit_tally_start (d : Dev) (c : CoreId) (k : StrandId) (w : BitVec 56) (i : TallyId) :
    (((d.commit c k w).core c).tallies.get i).start = ((d.core c).tallies.get i).start := by
  obtain ⟨n, h⟩ := commit_tally d c k w i
  rw [h]

end

/-- Settles O11: each is one result, and the fields of the immediate are those of the word. -/
theorem scalarImmediates : Obligations.ScalarImmediates := by
  unfold Obligations.ScalarImmediates
  intro s c k w
  dsimp only
  obtain ⟨hpred, hneg, hreg⟩ := sel_fields w
  rw [← ldih_word, ← hpred, ← hneg, ← hreg, ← prd_field]
  refine ⟨fun h => yields_aluI (f := fun a n => a + sext32 n) (by decide) h rfl,
    fun h => yields_aluI (f := fun a n => a &&& BitVec.ofNat 64 n) (by decide) h rfl,
    fun h => yields_aluI (f := fun a n => a ||| BitVec.ofNat 64 n) (by decide) h rfl,
    fun h => yields_aluI (f := fun a n => a ^^^ BitVec.ofNat 64 n) (by decide) h rfl,
    fun h => ⟨wImm_le_of_shift (by decide) h, yields_aluI (f := fun a n => a <<< n) (by decide) h rfl⟩,
    fun h => ⟨wImm_le_of_shift (by decide) h, yields_aluI (f := fun a n => a >>> n) (by decide) h rfl⟩,
    fun h => ⟨wImm_le_of_shift (by decide) h, yields_aluI (f := fun a n => a.sshiftRight n) (by decide) h rfl⟩,
    fun h => yields_aluI (f := fun a n => BitVec.ofNat 64 (a.toNat % 2 ^ 32 + n * 2 ^ 32)) (by decide) h rfl,
    fun h => yields_result (by decide) h rfl fun _ => ?_, fun h => yields_result (by decide) h rfl fun _ => ?_⟩
  · simp only [commit_rdS, commit_rdP]
    cases (s.dev.strand c k).rdP (finOf 7 (wImm w / 32)) <;> cases (wImm w).testBit 8 <;> rfl
  · simp only [commit_rdP]

/-- Settles O12: what the core holds is read of the device that the dispatch has committed, which holds it as before. -/
theorem systemValues : Obligations.SystemValues := by
  unfold Obligations.SystemValues
  intro s c k w
  dsimp only
  refine ⟨fun h => ?_, fun h => yields_result (by decide) h rfl fun _ => by rw [commit_tally_start],
    fun h => yields_result (by decide) h rfl fun _ => by rw [commit_flagsBefore],
    fun h => yields_result (by decide) h rfl fun _ => by rw [commit_flagsBefore]⟩
  have hgets : Yields (.gets c k w) s (WritesScalar c k 0x30 w 1 (wRd w) (s.dev.getsValue c k (wImm w)) s) :=
    yields_result (by decide) h rfl fun _ => by rw [commit_getsValue]
  refine hgets.writes ⟨fun hn => ?_, fun hn => ?_, fun hn l hl => ?_, fun hn => ?_, fun hn => ?_, fun hn => ?_, fun hn => ?_, fun hn a => ?_⟩
  all_goals rw [hn]
  · exact toNat_of_lt c.isLt (by decide)
  · exact toNat_of_lt k.isLt (by decide)
  · rw [Dev.getsValue, hl]
    exact toNat_of_lt l.isLt (by decide)
  · exact toNat_of_lt (ownDev_lt s.dev) (by decide)
  · rfl
  · exact toNat_of_lt (sliceBase_lt c) (by decide)
  · rfl
  · exact fld_widths s.dev c a

end Sys2Proof.Machine
end

section
/-!
PROOFS. Branches and calls (R179, R180): each takes the strand to its target or leaves it where its dispatch put it, and then has the
result of a scalar instruction, which is nothing where the scalar is s0.
-/

namespace Sys2Proof.Machine

section
variable (d : Dev) (c : CoreId) (k : StrandId)

theorem vmap_self {α : Type} {n : Nat} (v : Vector α n) (i : Fin n) : vmap v i (fun x => x) = v := Vector.set_getElem_self ..

theorem updStrand_self : d.updStrand c k (fun t => t) = d := by
  simp only [Dev.updStrand, Dev.updCore, vmap_self]

/-- A strand that a branch leaves, taken or not (R147, R179). -/
def Strand.branch (t : Strand) (taken : Bool) (target : Word) (n : Nat) : Strand :=
  if taken then { t with pc := target.setWidth 48, pcWild := decide (target.toNat ≥ 2 ^ 48), notBefore := n } else t

section
variable (t : Strand) (taken : Bool) (target : Word) (n : Nat)

theorem rdS_branch (q : Fin 32) : (t.branch taken target n).rdS q = t.rdS q := by cases taken <;> rfl
theorem rdP_branch (q : Fin 8) : (t.branch taken target n).rdP q = t.rdP q := by cases taken <;> rfl
theorem pc_branch : (t.branch taken target n).pc = if taken then target.setWidth 48 else t.pc := by cases taken <;> rfl
theorem notBefore_branch : (t.branch taken target n).notBefore = if taken then n else t.notBefore := by cases taken <;> rfl

theorem notBefore_wrS (r : Fin 32) (v : Word) : (t.wrS r v n).notBefore = t.notBefore := by unfold Strand.wrS; split <;> rfl

theorem wrS_zero (v : Word) : t.wrS 0 v n = t := if_pos rfl

end

theorem jump_eq (taken : Bool) (target : Word) : (if taken then d.jump c k target else d) =
    d.updStrand c k fun t => t.branch taken target (d.cycle + 4) := by
  cases taken with
  | true => rfl
  | false => exact (updStrand_self d c k).symm

/-- What only completes later has a result for s0. -/
theorem postAt_eq_result (o : Origin) (v : Word) : d.postAt o (d.cycle + 1) = d.result o 0 v 1 := by
  simp only [Dev.result, wrS_zero, updStrand_self]

end

section
variable {s : State} {c : CoreId} {k : StrandId} {w : BitVec 56} {op : Nat} {r : Fin 32} {v : Word} {taken : Bool} {target : Word}

theorem strand_of_updCore {d e : Dev} {f : Strand → Strand} {po : List Post → List Post}
    (he : e = d.updCore c fun y => { y with strands := vmap y.strands k f, posts := po y.posts }) : e.strand c k = f (d.strand c k) := by
  rw [he, Dev.strand, core_updCore_same]
  exact vmap_get_same _ _ _

theorem branchesTo_of {l : LastId} {e : Dev} (hl : s.dev.strandLast c k = some l)
    (he : e = (s.dev.commit c k w).updCore c fun y => { y with
      strands := vmap y.strands k fun t => (t.branch taken target (s.dev.cycle + 4)).wrS r v (s.dev.cycle + 1)
      posts := y.posts ++ [⟨s.dev.cycle + 1, k, l, (s.dev.strand c k).pc, BitVec.ofNat 8 op, w⟩] }) :
    BranchesTo c k op w r v taken target s { s with dev := e } := by
  have hs := strand_of_updCore (po := fun p => p ++ [_]) he
  refine ⟨strandFrame_of c k w (po := fun p => p ++ [_]) he, fun q => ?_, fun q => ?_, ?_, ?_, l, hl, ?_⟩
  · simp only [hs, rdS_wrS, rdS_branch, commit_rdS]
  · simp only [hs, rdP_wrS, rdP_branch, commit_rdP]
  · simp only [hs, pc_wrS, pc_branch, commit_strand_same]
  · simp only [hs, notBefore_wrS, notBefore_branch, commit_strand_same]
  · simp only [he, core_updCore_same, commit_core]

theorem yields_branch {i : Instr} {body : Dev → Origin → Disp} (ho : op < 256) (h : Dispatches s c k op w)
    (hexec : exec i s = onDev s fun d => d.issue c k (mkInsn op w) body)
    (hbody : ∀ l, body (s.dev.commit c k w) (s.originOf c k op w l) =
      .ok ((if taken then (s.dev.commit c k w).jump c k target else s.dev.commit c k w).result (s.originOf c k op w l) r v 1)) :
    Yields i s (BranchesTo c k op w r v taken target s) := by
  simp only [jump_eq, commit_cycle] at hbody
  refine yields_of_dispatch ho h hexec _ hbody fun l hl => branchesTo_of hl ?_
  rw [result_eq]
  unfold Dev.updStrand
  simp only [State.originOf, updCore_updCore, vmap_vmap, updCore_cycle, commit_cycle, mkInsn_toNat w ho, mkInsn_setWidth]

end

/-- Settles O13: BR and JR have a result for s0, LOOP one for its counter and CALL one for its link register. -/
theorem branches : Obligations.Branches := by
  unfold Obligations.Branches
  intro s c k w
  dsimp only
  refine ⟨fun h => yields_branch (by decide) h rfl fun l => ?_, fun h => yields_branch (by decide) h rfl fun l => ?_,
    fun h => yields_branch (by decide) h rfl fun l => ?_, fun h => yields_branch (by decide) h rfl fun l => ?_⟩
  · rw [← postAt_eq_result]
    simp only [commit_rdP]
    rfl
  · simp only [commit_rdP, commit_rdS, ne_eq, decide_not]
    rfl
  · rw [← postAt_eq_result]
    simp only [commit_rdP, commit_rdS]
    rfl
  · rfl

end Sys2Proof.Machine
end

section
/-!
PROOFS. Loads, stores and global accesses at dispatch (R148, R181 to R183): an access that starts, a request that leaves for another
module, and the faults of an address.
-/

namespace Sys2Proof.Machine

section
variable {s : State} {c : CoreId} {k : StrandId} {w : BitVec 56} {op : Nat} {l : LastId} {ea data : Word}

/-- A strand with one more access outstanding (R144, R181). -/
def Strand.start (t : Strand) (op : Nat) (w : BitVec 56) (a : Acc) : Strand :=
  { t with acc := t.acc ++ [a], sAvail := if isLoad op && wRd w ≠ 0 then vmap t.sAvail (wRd w) fun _ => none else t.sAvail }

/-- The access that strand `k` starts at dispatch. -/
def State.newAcc (s : State) (c : CoreId) (k : StrandId) (op : Nat) (w : BitVec 56) (ea data : Word) (remote : Bool) (lat : Nat) : Acc :=
  ⟨s.dev.nextAcc, BitVec.ofNat 8 op, w, (s.dev.strand c k).pc, ea, data, s.dev.cycle + lat, remote⟩

/-- The device of a dispatch that starts an access. -/
def State.started (s : State) (c : CoreId) (k : StrandId) (op : Nat) (w : BitVec 56) (ea data : Word) (remote : Bool) (lat : Nat) : Dev :=
  { s.dev.commit c k w with nextAcc := s.dev.nextAcc + 1 }.updStrand c k fun t => t.start op w (s.newAcc c k op w ea data remote lat)

theorem startAcc_eq (ho : op < 256) (l : LastId) (ea data : Word) (remote : Bool) (lat : Nat) :
    (s.dev.commit c k w).startAcc (s.originOf c k op w l) ea data remote lat = s.started c k op w ea data remote lat := by
  unfold State.started State.newAcc
  rw [← commit_nextAcc s.dev c k w, ← commit_cycle s.dev c k w]
  simp only [Dev.startAcc, State.originOf, mkInsn_toNat w ho, mkInsn_setWidth]
  rfl

section
variable (s c k op w ea data) (remote : Bool) (lat : Nat)

theorem started_strand : (s.started c k op w ea data remote lat).strand c k =
    ((s.dev.commit c k w).strand c k).start op w (s.newAcc c k op w ea data remote lat) := strand_updStrand_same _ c k _

/-- The register of a load that starts waits for it (R146). -/
theorem started_outstanding (hload : isLoad op = true) (hrd : wRd w ≠ 0) :
    ((s.started c k op w ea data remote lat).strand c k).sAvail.get (wRd w) = none := by
  rw [started_strand, Strand.start]
  simp only [hload, hrd, ne_eq, not_false_eq_true, decide_true, Bool.and_self, if_true, vmap_get_same]

theorem started_acc : ((s.started c k op w ea data remote lat).strand c k).acc =
    (s.dev.strand c k).acc ++ [s.newAcc c k op w ea data remote lat] := by
  rw [started_strand, commit_strand_same]
  rfl

theorem started_movesOn : MovesOn c k s { s with dev := s.started c k op w ea data remote lat } := by
  have hnumber : MovesOn c k s { s with dev := { s.dev.commit c k w with nextAcc := s.dev.nextAcc + 1 } } :=
    (movesOn_commit s c k w).of_same (fun _ => rfl) rfl (fun _ _ => rfl) fun _ => rfl
  exact hnumber.updStrand (fun _ => rfl) (fun _ => rfl) (fun _ => rfl)

theorem started_frame :
    StrandFrame c k w s { s with dev := { s.started c k op w ea data remote lat with nextAcc := s.dev.nextAcc } } := by
  refine strandFrame_of c k w (po := fun p => p) (f := fun t => t.start op w (s.newAcc c k op w ea data remote lat)) ?_
  rw [← commit_nextAcc s.dev c k w]
  rfl

theorem started_startsAccess : StartsAccess c k op w ea data s { s with dev := s.started c k op w ea data false lat } := by
  have hmoves := started_movesOn s c k w op ea data false lat
  exact ⟨started_frame .., rfl, ⟨_, started_acc .., rfl, rfl, rfl, rfl, rfl, rfl, rfl⟩, hmoves.scalars, hmoves.preds,
    fun hload hrd => started_outstanding s c k w op ea data false lat hload hrd, hmoves.pc⟩

end

/-! Local addresses (R181). -/

theorem effAddr_commit (d : Dev) (c : CoreId) (k : StrandId) (w : BitVec 56) :
    effAddr ((d.commit c k w).strand c k) w = effAddr (d.strand c k) w := by
  rw [effAddr, commit_rdS]
  rfl

/-- A local access starts, or its address faults (R181). -/
theorem memLocal_dispatch {i : Instr} (ho : op < 256) (hexec : exec i s = memLocal op c k w s) (h : Dispatches s c k op w) :
    let ea := effAddr (s.dev.strand c k) w
    (ea.toNat % accSize op = 0 → Yields i s (StartsAccess c k op w ea (if isLoad op then 0 else (s.dev.strand c k).rdS (wRd w)) s)) ∧
    (ea.toNat % accSize op ≠ 0 → ∃ l, s.dev.strandLast c k = some l ∧
      Yields i s fun t => t.dev = s.dev.fault 4 (s.originOf c k op w l) ea) := by
  obtain ⟨l, hl⟩ := strandLast_of_dispatches h
  let lat := (s.dev.commit c k w).accLat c (effAddr (s.dev.strand c k) w)
  refine ⟨fun haligned => yields_of_ok hl ho h hexec ?_ (started_startsAccess s c k w op _ _ lat),
    fun hmisaligned => ⟨l, hl, yields_of_fault hl ho h hexec ?_⟩⟩
  · simp only [effAddr_commit, commit_rdS, startAcc_eq ho]
    exact if_neg (not_not.mpr haligned)
  · simp only [effAddr_commit]
    exact if_pos hmisaligned

end

/-- Settles O14: a local load carries nothing. -/
theorem loadsDispatch : Obligations.LoadsDispatch := by
  unfold Obligations.LoadsDispatch
  intro s c k w
  exact ⟨memLocal_dispatch (by decide) rfl, memLocal_dispatch (by decide) rfl, memLocal_dispatch (by decide) rfl,
    memLocal_dispatch (by decide) rfl, memLocal_dispatch (by decide) rfl, memLocal_dispatch (by decide) rfl, memLocal_dispatch (by decide) rfl⟩

/-- Settles O15: a local store carries its register. -/
theorem storesDispatch : Obligations.StoresDispatch := by
  unfold Obligations.StoresDispatch
  intro s c k w
  exact ⟨memLocal_dispatch (by decide) rfl, memLocal_dispatch (by decide) rfl, memLocal_dispatch (by decide) rfl,
    memLocal_dispatch (by decide) rfl⟩

/-! Global addresses (R182, R183, R205). -/

section
variable {s : State} {c : CoreId} {k : StrandId} {w : BitVec 56} {op : Nat} {l : LastId} {ea data : Word}

theorem targetOf_commit (d : Dev) (c : CoreId) (k : StrandId) (w : BitVec 56) (g : Word) : (d.commit c k w).targetOf g = d.targetOf g := by
  simp only [Dev.targetOf, commit_ownDev]

/-- Where a global address is one of this module's (R205). -/
theorem targetOf_here_iff (d : Dev) (g : Word) : d.targetOf g = .here (fld g 0 48) ↔
    bitOf g 63 = false ∧ (fld g 48 15 = 0x7FFF ∨ fld g 48 15 = d.ownDev) := by
  unfold Dev.targetOf
  dsimp only
  cases bitOf g 63 with
  | true => simp
  | false =>
    split
    · simp_all
    · split
      · simp_all
      · simp_all

/-- A request of a strand's access, before it is counted (R248, R249). -/
def Dev.asked (d : Dev) (c : CoreId) (k : StrandId) (n : Nat) (p : Packet) (addr : Word) (need : Nat) : Dev :=
  d.updHub fun h => { h with
    inject := h.inject ++ [{ p with src := BitVec.ofNat 15 d.ownDev, issuer := BitVec.ofNat 15 d.ownDev, tag := h.nextTag }]
    nextTag := h.nextTag + 1
    reqs := h.reqs ++ [⟨h.nextTag, .acc c k n, addr, d.cycle, need, []⟩] }

theorem request_eq (d : Dev) (c : CoreId) (k : StrandId) (n : Nat) (p : Packet) (addr : Word) (need : Nat) :
    d.request (.acc c k n) p addr need = (d.asked c k n p addr need).cnt c 59 1 := rfl

theorem MovesOn.butCount {d : Dev} (h : MovesOn c k s { s with dev := d }) :
    MovesOnBut (aCnt c 472) c k s { s with dev := d.cnt c 59 1 } where
  pending := rfl
  byte a := (count_byte ..).trans (h.byte a)
  regs a hdispatched hrequests := by
    have hother : a ≠ aCnt c 0 + 8 * 59 := by simpa [aCnt, regAddr] using hrequests
    exact (reg_count_other d hother).trans (h.regs a hdispatched)
  cores x hx := (count_core ..).trans (h.cores x hx)
  other := (count_strand ..).trans h.other
  scalars q := by rw [← h.scalars q]; exact congrArg (fun t => t.rdS q) (count_strand ..)
  preds q := by rw [← h.preds q]; exact congrArg (fun t => t.rdP q) (count_strand ..)
  pc := by rw [← h.pc]; exact congrArg Strand.pc (count_strand ..)

theorem count_nextAcc (d : Dev) (base i n : Nat) : (d.count base i n).nextAcc = d.nextAcc := by
  obtain ⟨_, _, h⟩ := count_eq d base i n
  rw [h]

theorem sendsAccess_of_request (s : State) (c : CoreId) (k : StrandId) (w : BitVec 56) (op : Nat) (ea data : Word) (p : Packet) (need : Nat) :
    SendsAccess c k op w ea data p need s
      { s with dev := (s.started c k op w ea data true 0).request (.acc c k s.dev.nextAcc) p ea need } := by
  rw [request_eq]
  have hasked : MovesOn c k s { s with dev := (s.started c k op w ea data true 0).asked c k s.dev.nextAcc p ea need } :=
    (started_movesOn s c k w op ea data true 0).of_same (fun _ => rfl) rfl (fun _ _ => rfl) fun _ => rfl
  have hstrand := count_strand ((s.started c k op w ea data true 0).asked c k s.dev.nextAcc p ea need) c k (aCnt c 0) 59 1
  have hhub : (s.started c k op w ea data true 0).hub = s.dev.hub := commit_hub ..
  have hown : (s.started c k op w ea data true 0).ownDev = s.dev.ownDev := commit_ownDev ..
  have hcycle : (s.started c k op w ea data true 0).cycle = s.dev.cycle := commit_cycle ..
  refine ⟨hasked.butCount, count_nextAcc .., ⟨_, (congrArg Strand.acc hstrand).trans (started_acc ..), rfl, rfl, rfl, rfl, rfl, rfl, rfl⟩,
    fun hload hrd => ?_, ?_, ?_, ?_⟩
  · exact (congrArg (fun t => t.sAvail.get (wRd w)) hstrand).trans (started_outstanding s c k w op ea data true 0 hload hrd)
  · simp only [Dev.cnt, count_hub, Dev.asked, updHub_hub, hhub, hcycle]
  · simp only [Dev.cnt, count_hub, Dev.asked, updHub_hub, hhub, hown]
  · simp only [Dev.cnt, count_hub, Dev.asked, updHub_hub, hhub]

/-- The request of LDG, STG or AADD at another module (R182, R183). -/
def Dev.sendAccess (d : Dev) (op : Nat) (who : Requester) (ea v : Word) : Dev :=
  match op with
  | 0x5C => d.sendRead who ea 8
  | 0x5D => d.sendWrite who ea (leBytes 8 v.toNat)
  | _ => d.sendAtomic who ea v

section
variable {i : Instr} (ho : op < 256) (hexec : exec i s = memGlobal op c k w s) (h : Dispatches s c k op w)
  (hl : s.dev.strandLast c k = some l) (hea : effAddr (s.dev.strand c k) w = ea)
include ho hexec h hl hea

theorem memGlobal_misaligned (hmisaligned : ea.toNat % 8 ≠ 0) : Yields i s fun t => t.dev = s.dev.fault 4 (s.originOf c k op w l) ea := by
  refine yields_of_fault hl ho h hexec ?_
  simp only [effAddr_commit, hea]
  exact if_pos hmisaligned

variable (haligned : ea.toNat % 8 = 0)
include haligned

theorem memGlobal_here {a : Nat} (htarget : s.dev.targetOf ea = .here a) :
    Yields i s (StartsAccess c k op w ea ((s.dev.strand c k).rdS (wRd w)) s) := by
  let lat := (s.dev.commit c k w).accLat c (BitVec.ofNat 64 a)
  refine yields_of_ok hl ho h hexec ?_ (started_startsAccess s c k w op ea _ lat)
  simp only [effAddr_commit, hea, commit_rdS, targetOf_commit, htarget, startAcc_eq ho, haligned, ne_eq, not_true_eq_false, if_false]
  rfl

theorem memGlobal_away {n a : Nat} {p : Packet} (htarget : s.dev.targetOf ea = .away n a)
    (hp : ∀ (d : Dev) who, d.sendAccess op who ea ((s.dev.strand c k).rdS (wRd w)) = d.request who p ea 0) :
    Yields i s (SendsAccess c k op w ea ((s.dev.strand c k).rdS (wRd w)) p 0 s) := by
  refine yields_of_ok hl ho h hexec ?_ (sendsAccess_of_request s c k w op ea _ p 0)
  rw [← hp]
  simp only [effAddr_commit, hea, commit_rdS, commit_nextAcc, targetOf_commit, htarget, startAcc_eq ho, haligned, ne_eq, not_true_eq_false, if_false]
  rfl

theorem memGlobal_group_fault {n a : Nat} (htarget : s.dev.targetOf ea = .group n a) (hop : op ≠ 0x5D) :
    Yields i s fun t => t.dev = s.dev.fault 4 (s.originOf c k op w l) ea := by
  refine yields_of_fault hl ho h hexec ?_
  simp only [effAddr_commit, hea, targetOf_commit, htarget, hop, haligned, ne_eq, not_true_eq_false, not_false_eq_true, if_false, if_true]

end

/-! Multicast writes (R263). -/

/-- A multicast write of a word on its way to the root of entry `e` of its group (R263, log 54). -/
def multicastPacket (g e v : Word) : Packet :=
  { Packet.blank with
    type := 7, len := 7, addr := g.setWidth 48, data := leBytes 8 v.toNat, dst := BitVec.ofNat 15 (fld e 15 15)
    cid := BitVec.ofNat 16 (fld g 48 15) }

theorem sendMulticast_eq {d : Dev} {g e : Word} (hentry : d.mcEntry (fld g 48 15) = e) (who : Requester) (v : Word) :
    d.sendMulticast who g (leBytes 8 v.toNat) =
      if bitOf e 13 then some (d.request who (multicastPacket g e v) g (fld e 30 15)) else none := by
  unfold Dev.sendMulticast
  simp only [hentry, leBytes_length]
  cases bitOf e 13 <;> rfl

section
variable {i : Instr} {n a : Nat} (hexec : exec i s = memGlobal 0x5D c k w s) (h : Dispatches s c k 0x5D w)
  (hl : s.dev.strandLast c k = some l) (hea : effAddr (s.dev.strand c k) w = ea) (haligned : ea.toNat % 8 = 0)
  (htarget : s.dev.targetOf ea = .group n a)
include hexec h hl hea haligned htarget

theorem memGlobal_group_sends (hvalid : bitOf (s.dev.mcEntry (fld ea 48 15)) 13 = true) :
    Yields i s (SendsAccess c k 0x5D w ea ((s.dev.strand c k).rdS (wRd w))
      (multicastPacket ea (s.dev.mcEntry (fld ea 48 15)) ((s.dev.strand c k).rdS (wRd w))) (fld (s.dev.mcEntry (fld ea 48 15)) 30 15) s) := by
  refine yields_of_ok hl (by decide) h hexec ?_ (sendsAccess_of_request s c k w 0x5D ea _ _ _)
  have hentry : (s.started c k 0x5D w ea ((s.dev.strand c k).rdS (wRd w)) true 0).mcEntry (fld ea 48 15) = s.dev.mcEntry (fld ea 48 15) :=
    commit_mcEntry ..
  simp only [effAddr_commit, hea, commit_rdS, commit_nextAcc, targetOf_commit, htarget, startAcc_eq (op := 0x5D) (by decide), haligned, ne_eq,
    not_true_eq_false, if_false, sendMulticast_eq hentry, hvalid, if_true]

theorem memGlobal_group_refused (hinvalid : bitOf (s.dev.mcEntry (fld ea 48 15)) 13 = false) :
    Yields i s fun t => t.dev = (s.dev.commit c k w).faultInfo 17 (s.originOf c k 0x5D w l) ea 6 := by
  refine yields_of_ok hl (by decide) h hexec (e := (s.dev.commit c k w).faultInfo 17 (s.originOf c k 0x5D w l) ea 6) ?_ rfl
  have hentry : (s.started c k 0x5D w ea ((s.dev.strand c k).rdS (wRd w)) true 0).mcEntry (fld ea 48 15) = s.dev.mcEntry (fld ea 48 15) :=
    commit_mcEntry ..
  simp only [effAddr_commit, hea, commit_rdS, commit_nextAcc, targetOf_commit, htarget, startAcc_eq (op := 0x5D) (by decide), haligned, ne_eq,
    not_true_eq_false, if_false, sendMulticast_eq hentry, hinvalid, Bool.false_eq_true]

end

end

/-- Settles O16: by where the address leads, and the request of each opcode is a packet of its own. -/
theorem globalAccessesDispatch : Obligations.GlobalAccessesDispatch := by
  unfold Obligations.GlobalAccessesDispatch
  intro s c k w ea v e away ok
  have hok : ∀ (i : Instr) (op : Nat) (p : Packet), op < 256 → exec i s = memGlobal op c k w s →
      (∀ (d : Dev) who, d.sendAccess op who ea v = d.request who p ea 0) → ok i op p := by
    intro i op p ho hexec hp h
    obtain ⟨l, hl⟩ := strandLast_of_dispatches h
    refine ⟨fun a haligned ht => memGlobal_here ho hexec h hl rfl haligned ht,
      fun n a haligned ht => memGlobal_away ho hexec h hl rfl haligned ht hp,
      fun n a haligned ht => ⟨fun hop hentry => ?_, fun hop hentry => ⟨l, hl, ?_⟩,
        fun hop => ⟨l, hl, memGlobal_group_fault ho hexec h hl rfl haligned ht hop⟩⟩,
      fun hmisaligned => ⟨l, hl, memGlobal_misaligned ho hexec h hl rfl hmisaligned⟩⟩
    · subst hop
      exact memGlobal_group_sends hexec h hl rfl haligned ht hentry
    · subst hop
      exact memGlobal_group_refused hexec h hl rfl haligned ht hentry
  exact ⟨hok _ 0x5C _ (by decide) rfl fun _ _ => rfl, hok _ 0x5D _ (by decide) rfl fun _ _ => rfl,
    hok _ 0x5E _ (by decide) rfl fun _ _ => rfl, targetOf_here_iff s.dev ea⟩

end Sys2Proof.Machine
end

section
/-!
PROOFS. Engine and stream instructions at dispatch (R153, R155, R184 to R191): the checks read the device that the dispatch has committed,
and an instruction that passes them enters its queues as the youngest operation.
-/

namespace Sys2Proof.Machine

/-! What the checks and the copies of descriptors read. -/

section
variable (d : Dev) (c x : CoreId) (k : StrandId) (w : BitVec 56)

@[simp] theorem commit_desc (n : Nat) : ((d.commit c k w).core x).desc n = (d.core x).desc n := by
  by_cases hx : x = c
  · subst hx
    rw [commit_core]
    rfl
  · rw [commit_core_other _ _ _ _ _ hx]

@[simp] theorem commit_patDispatched : ((d.commit c k w).core x).patDispatched = (d.core x).patDispatched := by
  by_cases hx : x = c
  · subst hx
    rw [commit_core]
  · rw [commit_core_other _ _ _ _ _ hx]

@[simp] theorem commit_arr (a : ArrayId) : (d.commit c k w).arr x a = d.arr x a := by
  by_cases hx : x = c
  · subst hx
    rw [Dev.arr, commit_core]
    rfl
  · rw [Dev.arr, commit_core_other _ _ _ _ _ hx]
    rfl

@[simp] theorem commit_dcls (a : ArrayId) (t : TileId) : (d.commit c k w).dcls x a t = d.dcls x a t := by
  simp only [Dev.dcls, Dev.tileOps, Dev.tile, commit_ops, commit_arr]

variable (o : Origin)

@[simp] theorem commit_named : (d.commit c k w).named o = d.named o := commit_desc ..

@[simp] theorem commit_ownsHalves (a : ArrayId) (m : Nat) : (d.commit c k w).ownsHalves o a m = d.ownsHalves o a m := by
  simp only [Dev.ownsHalves, commit_halfOwner]

@[simp] theorem commit_ownsTile (a : ArrayId) (t : TileId) : (d.commit c k w).ownsTile o a t = d.ownsTile o a t := by
  simp only [Dev.ownsTile, commit_tileOwner]

@[simp] theorem commit_ownsBanks : (d.commit c k w).ownsBanks o = d.ownsBanks o := by
  simp only [Dev.ownsBanks, commit_patOwner]

@[simp] theorem commit_mmaShared : (d.commit c k w).mmaShared o = d.mmaShared o := by
  simp only [Dev.mmaShared, commit_named, commit_desc]

@[simp] theorem commit_mmaOwn : (d.commit c k w).mmaOwn o = d.mmaOwn o := by
  simp only [Dev.mmaOwn, commit_named, commit_width]

@[simp] theorem commit_stockOk (s : State) (op : Nat) (l : LastId) :
    (s.dev.commit c k w).stockOk (s.originOf c k op w l) = s.dev.stockOk (s.originOf c k op w l) := by
  unfold Dev.stockOk State.originOf
  dsimp only
  rw [commit_rdS]

@[simp] theorem named_originOf (s : State) (op : Nat) (l : LastId) : s.dev.named (s.originOf c k op w l) = (s.dev.core c).desc (wDesc w) := by
  simp only [Dev.named, State.originOf, mkInsn_setWidth]

end

/-! The entry (R153, R155). -/

section
variable (d : Dev) (o : Origin) (op : Nat) (w : BitVec 56) (p : Plan)

/-- The operation that an instruction enters its queues as. -/
def Dev.newOp : Op :=
  let x := d.core o.core
  let s := d.strand o.core o.strand
  { id := d.nextOp, core := o.core, strand := o.strand, last := o.last, pc := o.pc, opcode := BitVec.ofNat 8 op, w := w
    ecore := o.core, earray := wArray w, tiles := p.tiles, desc := p.desc, ta := p.ta, tb := p.tb, stock := p.stock
    draw := s.draw, bank := if op = 0x4B then !x.patDispatched else x.patDispatched
    phase := .queued, began := d.cycle, due := 0, pos := 0, base := 0, stop := none, loaded := false, loadAt := 0, rows := none
    tok := false, feed := none, slot0 := none, closed := false, noCls := false, flags := 0
    group := if 0x60 ≤ op then none else (s.group.map fun g => g.next op w (mdesc p.desc)).map fun g => (g.num, false), part := [] }

/-- A strand that takes its draw number and goes on in its steal group. -/
def Strand.enter (t : Strand) (op : Nat) (p : Plan) (g : Option Group) : Strand :=
  { t with draw := if p.draws then t.draw + 1 else t.draw, group := if 0x60 ≤ op then t.group else g }

/-- The device of an entry, but for the list of operations. -/
def Dev.takes : Dev :=
  let g := (d.strand o.core o.strand).group.map fun g => g.next op w (mdesc p.desc)
  let d := d.updStrand o.core o.strand fun t => t.enter op p g
  let d := if p.draws then { d with now := { d.now with incs := d.now.incs ++ [(aFmt o.core (0x10 + 8 * o.strand.val), 0, 1)] } } else d
  if op = 0x4C then d.updCore o.core fun x => { x with patDispatched := !x.patDispatched } else d

/-- The operations ahead of an entry: a PLOAD remembers the first PSWAP behind it (R136). -/
def Dev.ahead : List Op :=
  if op = 0x4C then d.ops.map fun x =>
    if x.opcode == 0x4B && x.ecore == o.core && x.loadAt == 0 then { x with loadAt := d.nextOp + 1 } else x
  else d.ops

variable {d o op w p}

theorem enter_eq (hop : o.insn.toNat / 2 ^ 56 = op) (hw : o.insn.setWidth 56 = w) : d.enter o p =
    { d.takes o op w p with
      ops := (d.takes o op w p).ahead o op ++ [d.newOp o op w p], nextOp := (d.takes o op w p).nextOp + 1 } := by
  subst hop hw
  rfl

variable (d o op w p)

theorem takes_eq : ∃ cs nw, d.takes o op w p = { d with cores := cs, now := nw } := by
  unfold Dev.takes
  cases p.draws <;> by_cases hop : op = 0x4C <;> simp only [hop, if_true, if_false, Bool.false_eq_true] <;> exact ⟨_, _, rfl⟩

theorem takes_core : (d.takes o op w p).core o.core = { d.core o.core with
    strands := vmap (d.core o.core).strands o.strand fun t =>
      t.enter op p ((d.strand o.core o.strand).group.map fun g => g.next op w (mdesc p.desc))
    patDispatched := if op = 0x4C then !(d.core o.core).patDispatched else (d.core o.core).patDispatched } := by
  have hstrand := core_updStrand_rest d o.core o.strand fun t =>
    t.enter op p ((d.strand o.core o.strand).group.map fun g => g.next op w (mdesc p.desc))
  unfold Dev.takes
  dsimp only
  generalize d.updStrand o.core o.strand _ = e at hstrand ⊢
  have hdraws : (if p.draws then
      { e with now := { e.now with incs := e.now.incs ++ [(aFmt o.core (0x10 + 8 * o.strand.val), 0, 1)] } } else e).core o.core = e.core o.core := by
    split <;> rfl
  generalize (if p.draws then _ else e) = f at hdraws ⊢
  split
  · rw [core_updCore_same, hdraws, hstrand]
  · rw [hdraws, hstrand]

theorem takes_ops : (d.takes o op w p).ops = d.ops := by
  obtain ⟨_, _, h⟩ := takes_eq d o op w p
  rw [h]

theorem ahead_ids : (d.ahead o op).map (fun x => x.id) = d.ops.map fun x => x.id := by
  unfold Dev.ahead
  split
  · rw [List.map_map]
    refine List.map_congr_left fun x _ => ?_
    simp only [Function.comp_apply]
    split <;> rfl
  · rfl

theorem ahead_of_ne (h : op ≠ 0x4C) : d.ahead o op = d.ops := if_neg h

end

section
variable {s : State} {c : CoreId} {k : StrandId} {op : Nat} {w : BitVec 56} {l : LastId} {p : Plan}

/-- The device of a dispatch that enters its queues. -/
def State.entered (s : State) (c : CoreId) (k : StrandId) (op : Nat) (w : BitVec 56) (l : LastId) (p : Plan) : Dev :=
  (s.dev.commit c k w).enter (s.originOf c k op w l) p

theorem entered_eq (ho : op < 256) : s.entered c k op w l p =
    { (s.dev.commit c k w).takes (s.originOf c k op w l) op w p with
      ops := ((s.dev.commit c k w).takes (s.originOf c k op w l) op w p).ahead (s.originOf c k op w l) op ++
        [(s.dev.commit c k w).newOp (s.originOf c k op w l) op w p]
      nextOp := ((s.dev.commit c k w).takes (s.originOf c k op w l) op w p).nextOp + 1 } :=
  enter_eq (mkInsn_toNat w ho) (mkInsn_setWidth op w)

theorem takes_movesOn (s : State) (c : CoreId) (k : StrandId) (op : Nat) (w : BitVec 56) (l : LastId) (p : Plan) :
    MovesOn c k s { s with dev := (s.dev.commit c k w).takes (s.originOf c k op w l) op w p } := by
  have hstrand := (movesOn_commit s c k w).updStrand (f := fun t =>
    t.enter op p (((s.dev.commit c k w).strand c k).group.map fun g => g.next op w (mdesc p.desc))) (fun _ => rfl) (fun _ => rfl) (fun _ => rfl)
  unfold Dev.takes
  dsimp only [State.originOf]
  generalize (s.dev.commit c k w).updStrand c k _ = d at hstrand ⊢
  have hdraws : MovesOn c k s { s with dev := if p.draws then { d with now := { d.now with
      incs := d.now.incs ++ [(aFmt c (0x10 + 8 * k.val), 0, 1)] } } else d } := by
    split
    · exact hstrand.of_same (fun _ => rfl) rfl (fun _ _ => rfl) fun _ => rfl
    · exact hstrand
  generalize (if p.draws then _ else d) = e at hdraws ⊢
  split
  · exact hdraws.of_same (fun _ => rfl) rfl (fun x hx => (core_updCore ..).trans (if_neg hx)) fun j => strand_updCore _ _ _ _ _ fun _ => rfl
  · exact hdraws

/-- What enters its queues is their youngest operation (R155). -/
theorem entered_entersQueue {P : Op → Prop} (ho : op < 256) (hP : P ((s.dev.commit c k w).newOp (s.originOf c k op w l) op w p)) :
    EntersQueue c k op w l P s { s with dev := s.entered c k op w l p } := by
  have hmoves : MovesOn c k s { s with dev := s.entered c k op w l p } := by
    rw [entered_eq ho]
    exact (takes_movesOn s c k op w l p).of_same (fun _ => rfl) rfl (fun _ _ => rfl) fun _ => rfl
  obtain ⟨cs, nw, htakes⟩ := takes_eq (s.dev.commit c k w) (s.originOf c k op w l) op w p
  refine ⟨hmoves, ?_, ?_, ?_, _, _, congrArg Dev.ops (entered_eq ho), ?_, ?_, rfl, rfl, rfl, rfl, rfl, rfl, rfl, rfl, rfl, hP⟩
  · rw [entered_eq ho, htakes]
    exact commit_hub ..
  · rw [entered_eq ho, htakes]
    exact commit_aoc ..
  · rw [entered_eq ho, htakes]
    exact commit_lasts ..
  · rw [ahead_ids, takes_ops, commit_ops]
  · exact commit_nextOp ..

theorem entered_core (ho : op < 256) : ∃ st ta, (s.entered c k op w l p).core c = { s.dev.core c with
    strands := st, tallies := ta, lastStrand := k, lastDispatch := some s.dev.cycle
    patDispatched := if op = 0x4C then !(s.dev.core c).patDispatched else (s.dev.core c).patDispatched } := by
  have hcore := takes_core (s.dev.commit c k w) (s.originOf c k op w l) op w p
  dsimp only [State.originOf] at hcore
  rw [commit_core] at hcore
  rw [entered_eq ho]
  exact ⟨_, _, hcore⟩

theorem entered_draw (ho : op < 256) :
    ((s.entered c k op w l p).strand c k).draw = (s.dev.strand c k).draw + if p.draws then 1 else 0 := by
  have hcore := takes_core (s.dev.commit c k w) (s.originOf c k op w l) op w p
  have hstrand : (s.entered c k op w l p).strand c k =
      ((s.dev.commit c k w).strand c k).enter op p (((s.dev.commit c k w).strand c k).group.map fun g => g.next op w (mdesc p.desc)) := by
    rw [entered_eq ho]
    exact (congrArg (fun y => y.strands.get k) hcore).trans (vmap_get_same _ _ _)
  rw [hstrand, Strand.enter, commit_strand_same]
  cases p.draws <;> simp

theorem entered_ops (ho : op < 256) (hne : op ≠ 0x4C) :
    (s.entered c k op w l p).ops = s.dev.ops ++ [(s.dev.commit c k w).newOp (s.originOf c k op w l) op w p] := by
  rw [entered_eq ho]
  dsimp only
  rw [ahead_of_ne _ _ _ hne, takes_ops, commit_ops]

/-- The dispatched class of a tile that an instruction names is the instruction's own where it sets one (R94). -/
theorem entered_dcls (ho : op < 256) (hne : op ≠ 0x4C) {t : TileId} (ht : t ∈ p.tiles) :
    (s.entered c k op w l p).dcls c (wArray w) t =
      ((s.dev.commit c k w).newOp (s.originOf c k op w l) op w p).newClass.getD (s.dev.dcls c (wArray w) t) := by
  obtain ⟨st, ta, hcore⟩ := entered_core (s := s) (c := c) (k := k) (w := w) (l := l) (p := p) ho
  have htile : (s.entered c k op w l p).tile c (wArray w) t = s.dev.tile c (wArray w) t := by
    simp only [Dev.tile, Dev.arr, hcore]
  have hnew : (((s.dev.commit c k w).newOp (s.originOf c k op w l) op w p).ecore == c &&
      ((s.dev.commit c k w).newOp (s.originOf c k op w l) op w p).earray == wArray w &&
      ((s.dev.commit c k w).newOp (s.originOf c k op w l) op w p).tiles.contains t) = true := by
    simpa [Dev.newOp, State.originOf] using ht
  simp only [Dev.dcls, Dev.tileOps, entered_ops ho hne, htile, List.filter_append, List.foldl_append, List.filter_cons, hnew, if_true,
    List.filter_nil, List.foldl_cons, List.foldl_nil]

variable {i : Instr} {checks : Dev → Origin → List (Bool × Nat)} {plan : Dev → Origin → Plan}

/-- An instruction that passes its checks enters its queues as its plan says (R158, R172). -/
theorem yields_engineOp {Q : State → Prop} (hl : s.dev.strandLast c k = some l) (ho : op < 256) (h : Dispatches s c k op w)
    (hexec : exec i s = engineOp op checks plan c k w s)
    (hchecks : firstFault (checks (s.dev.commit c k w) (s.originOf c k op w l)) = none)
    (hplan : plan (s.dev.commit c k w) (s.originOf c k op w l) = p) (hQ : Q { s with dev := s.entered c k op w l p }) : Yields i s Q := by
  refine yields_of_ok hl ho h hexec ?_ hQ
  simp only [hchecks, hplan, State.entered]

/-- What an instruction that passes its checks leaves, with the draw number that its plan takes (R155, R186). -/
theorem yields_entersQueue {P : Op → Prop} {R : State → Prop} (hl : s.dev.strandLast c k = some l) (ho : op < 256) (h : Dispatches s c k op w)
    (hexec : exec i s = engineOp op checks plan c k w s)
    (hchecks : firstFault (checks (s.dev.commit c k w) (s.originOf c k op w l)) = none)
    (hplan : plan (s.dev.commit c k w) (s.originOf c k op w l) = p)
    (hP : P ((s.dev.commit c k w).newOp (s.originOf c k op w l) op w p)) (hR : R { s with dev := s.entered c k op w l p }) :
    Yields i s fun t => EntersQueue c k op w l P s t ∧ R t :=
  yields_engineOp hl ho h hexec hchecks hplan ⟨entered_entersQueue ho hP, hR⟩

end

/-! What the checks and plans of the instructions come to on the committed device. -/

theorem firstFault_eq_none {xs : List (Bool × Nat)} : firstFault xs = none ↔ ∀ x ∈ xs, x.1 = true := by
  induction xs with
  | nil => simp [firstFault]
  | cons x xs ih => cases hx : x.1 <;> simp [firstFault, hx, ih]

section
variable (s : State) (c : CoreId) (k : StrandId) (op : Nat) (w : BitVec 56) (l : LastId)

theorem committed_named : (s.dev.commit c k w).named (s.originOf c k op w l) = (s.dev.core c).desc (wDesc w) := by
  rw [commit_named, named_originOf]

theorem committed_mmaPlan : (s.dev.commit c k w).mmaPlan (s.originOf c k op w l) =
    { Plan.nil with
      desc := (s.dev.core c).desc (wDesc w)
      ta := (s.dev.core c).desc (mdesc ((s.dev.core c).desc (wDesc w))).ta
      tb := (s.dev.core c).desc (mdesc ((s.dev.core c).desc (wDesc w))).tb
      tiles := mmaTiles w } := by
  simp only [Dev.mmaPlan, committed_named]
  simp only [State.originOf, commit_desc, mkInsn_setWidth]

theorem committed_stockPlan : (s.dev.commit c k w).stockPlan (s.originOf c k op w l) =
    { Plan.nil with stock := ((s.dev.strand c k).rdS (wEra w)).setWidth 48, tiles := [wTile w] } := by
  simp only [Dev.stockPlan, State.originOf, mkInsn_setWidth, commit_rdS]

end

/-- The dispatched class that an MMA with init 1 sets is that of its formats (R94). -/
theorem newOp_newClass_mma {d : Dev} {o : Origin} {w : BitVec 56} {p : Plan} {r : Fmt × Fmt × Cls × Nat} (hr : wPair w = some r) :
    (d.newOp o 0x40 w p).newClass = if (mdesc p.desc).init then some (BitVec.ofNat 3 r.2.2.1.code) else none := by
  have hinit : bitOf (wordAt p.desc 0) 20 = (mdesc p.desc).init := rfl
  simp only [Op.newClass, Dev.newOp, hinit]
  cases (mdesc p.desc).init <;> simp [hr]

/-- The dispatched class that a RELOAD sets is the one it names (R94). -/
theorem newOp_newClass_reload {d : Dev} {o : Origin} {w : BitVec 56} {p : Plan} :
    (d.newOp o 0x44 w p).newClass = some (BitVec.ofNat 3 (wCls w)) := rfl

theorem Cls.code_lt (r : Cls) : r.code < 8 := by
  cases r <;> decide

theorem wCls_lt (w : BitVec 56) : wCls w < 8 := Nat.mod_lt _ (by decide)

theorem toNat_ofNat_three {n : Nat} (h : n < 8) : (BitVec.ofNat 3 n).toNat = n := Nat.mod_eq_of_lt h

/-- The checks of an MMA hold for formed descriptors, owned halves and tiles, and tiles that are replaced or of its class (Table 7.8). -/
theorem mmaChecks_pass {s : State} {c : CoreId} {k : StrandId} {op : Nat} {w : BitVec 56} {l : LastId} {r : Fmt × Fmt × Cls × Nat}
    (hshared : s.dev.mmaShared (s.originOf c k op w l) = true) (hown : s.dev.mmaOwn (s.originOf c k op w l) = true) (hr : wPair w = some r)
    (hhalves : s.dev.ownsHalves (s.originOf c k op w l) (wArray w) (wHalf w) = true)
    (htiles : ∀ t ∈ mmaTiles w, s.dev.ownsTile (s.originOf c k op w l) (wArray w) t = true)
    (hcls : (mdesc ((s.dev.core c).desc (wDesc w))).init = true ∨ ∀ t ∈ mmaTiles w, (s.dev.dcls c (wArray w) t).toNat = r.2.2.1.code) :
    firstFault ((s.dev.commit c k w).mmaChecks (s.originOf c k op w l)) = none := by
  have hinsn : (s.originOf c k op w l).insn.setWidth 56 = w := mkInsn_setWidth op w
  have hcore : (s.originOf c k op w l).core = c := rfl
  rw [firstFault_eq_none]
  simpa [Dev.mmaChecks, hinsn, hcore, hshared, hown, hr, hhalves] using ⟨htiles, hcls⟩

/-- Settles O23: each check of Table 7.8 reads the committed device as the state shows it, the entry copies what the plan names, and the
youngest operation of a tile gives the tile its class. -/
theorem arrayInstructionsDispatch : Obligations.ArrayInstructionsDispatch := by
  intro s c k w l hl
  refine ⟨fun r h hshared hown hr hhalves htiles hcls => ?_, fun h hshared hhalves => ?_, fun h hok htile hfits => ?_,
    fun h hok htile => ?_, fun h hok h0 h7 htile => ?_⟩
  · refine yields_entersQueue hl (by decide) h rfl (mmaChecks_pass hshared hown hr hhalves htiles hcls) (committed_mmaPlan ..)
      ⟨rfl, rfl, rfl, rfl⟩ ⟨entered_draw (by decide), ?_⟩
    intro u hu
    rw [entered_dcls (by decide) (by decide) hu, newOp_newClass_mma hr]
    split
    next => exact toNat_ofNat_three (Cls.code_lt _)
    next hinit => exact hcls.resolve_left hinit u hu
  · refine yields_entersQueue hl (by decide) h rfl ?_ (congrArg (fun p => { p with tiles := [] }) (committed_mmaPlan ..)) ⟨rfl, rfl, rfl⟩
      (entered_draw (by decide))
    simp [firstFault, hshared, hhalves]
  · refine yields_entersQueue hl (by decide) h rfl ?_ (p := { Plan.nil with
      desc := (s.dev.core c).desc (wDesc w), tiles := [wTile w]
      draws := (fdesc ((s.dev.core c).desc (wDesc w))).conv == 0 && (fdesc ((s.dev.core c).desc (wDesc w))).rnd == 4 }) ?_
      ⟨rfl, rfl⟩ (entered_draw (by decide))
    · simp [firstFault, hok, htile, hfits]
    · simp only [committed_named]
  · refine yields_entersQueue hl (by decide) h rfl ?_ (committed_stockPlan ..) ⟨rfl, rfl⟩ (entered_draw (by decide))
    simp [firstFault, hok, htile]
  · refine yields_entersQueue hl (by decide) h rfl ?_ (committed_stockPlan ..) ⟨rfl, rfl⟩ ⟨entered_draw (by decide), ?_⟩
    · simp [firstFault, hok, h0, h7, htile]
    · rw [entered_dcls (by decide) (by decide) (List.mem_singleton_self _), newOp_newClass_reload]
      exact toNat_ofNat_three (wCls_lt w)

section
variable {s : State} {c : CoreId} {k : StrandId} {op : Nat} {w : BitVec 56} {l : LastId} {i : Instr}
  {checks : Dev → Origin → List (Bool × Nat)} {draws : List Word → Bool}

/-- An engine instruction whose plan copies its descriptor and takes a draw number as the descriptor says. -/
theorem yields_copies {P : Op → Prop} (hl : s.dev.strandLast c k = some l) (ho : op < 256) (h : Dispatches s c k op w)
    (hexec : exec i s = engineOp op checks (fun d o => { Plan.nil with desc := d.named o, draws := draws (d.named o) }) c k w s)
    (hchecks : firstFault (checks (s.dev.commit c k w) (s.originOf c k op w l)) = none)
    (hP : ∀ x : Op, x.desc = (s.dev.core c).desc (wDesc w) →
      x.bank = (if op = 0x4B then !(s.dev.core c).patDispatched else (s.dev.core c).patDispatched) → P x) :
    Yields i s fun t => EntersQueue c k op w l P s t ∧
      (t.dev.strand c k).draw = (s.dev.strand c k).draw + if draws ((s.dev.core c).desc (wDesc w)) then 1 else 0 := by
  refine yields_entersQueue hl ho h hexec hchecks rfl (hP _ (committed_named ..) ?_) ?_
  · simp only [Dev.newOp, State.originOf, commit_patDispatched]
  · have hdraw := entered_draw (s := s) (c := c) (k := k) (w := w) (l := l)
      (p := { Plan.nil with desc := (s.dev.core c).desc (wDesc w), draws := draws ((s.dev.core c).desc (wDesc w)) }) ho
    simp only [committed_named]
    exact hdraw

theorem Yields.left {P Q : State → Prop} (h : Yields i s fun t => P t ∧ Q t) : Yields i s P := by
  obtain ⟨t, ht, hP, -⟩ := h
  exact ⟨t, ht, hP⟩

end

/-- The banks belong to the last of the dispatch (R132). -/
theorem ownsBanks_originOf {s : State} {c : CoreId} {l : LastId} (h : s.dev.patOwner c = some l) (k : StrandId) (op : Nat) (w : BitVec 56) :
    s.dev.ownsBanks (s.originOf c k op w l) = true := beq_iff_eq.mpr h

/-- Settles O24: each instruction has one check of its descriptor or of the banks, and a plan that copies the descriptor. -/
theorem vectorInstructionsDispatch : Obligations.VectorInstructionsDispatch := by
  intro s c k w l hl
  refine ⟨fun h hok => ?_, fun h hok => ?_, fun h hok => ?_, fun h hok => ?_, fun h hok => ?_, fun h hok hown => ?_, fun h hok hown => ?_,
    fun h hown => ?_, fun h hok => ?_⟩
  · exact yields_engineOp hl (by decide) h rfl (by simp [firstFault, hok]) rfl (entered_entersQueue (by decide) (committed_named ..))
  · exact yields_copies (draws := fun ws => !(vdesc ws).outk && (vdesc ws).rnd == 4) hl (by decide) h rfl (by simp [firstFault, hok])
      fun _ hdesc _ => hdesc
  · exact yields_copies (draws := fun _ => false) hl (by decide) h rfl (by simp [firstFault, hok]) fun _ hdesc _ => hdesc
  · exact yields_copies (draws := fun _ => false) hl (by decide) h rfl (by simp [firstFault, hok]) fun _ hdesc _ => hdesc
  · exact yields_copies (draws := fun ws => (vdesc ws).rnd == 4) hl (by decide) h rfl (by simp [firstFault, hok]) fun _ hdesc _ => hdesc
  · exact (yields_copies (draws := fun _ => false) hl (by decide) h rfl (by simp [firstFault, hok, ownsBanks_originOf hown])
      fun _ hdesc hbank => ⟨hdesc, hbank⟩).left
  · exact (yields_copies (draws := fun _ => false) hl (by decide) h rfl (by simp [firstFault, hok, ownsBanks_originOf hown])
      fun _ hdesc hbank => ⟨hdesc, hbank⟩).left
  · refine yields_entersQueue hl (by decide) h rfl (by simp [firstFault, ownsBanks_originOf hown]) rfl trivial ?_
    obtain ⟨st, ta, hcore⟩ := entered_core (s := s) (c := c) (k := k) (w := w) (l := l) (p := Plan.nil) (op := 0x4C) (by decide)
    simp only [hcore, if_true]
  · exact yields_copies (draws := fun ws => (vdesc ws).rnd == 4) hl (by decide) h rfl (by simp [firstFault, hok]) fun _ hdesc _ => hdesc

/-- A stream instruction becomes the youngest command of its hod's queue and leaves the hods alone (R155, R191). -/
theorem yields_stream {s : State} {c : CoreId} {k : StrandId} {op : Nat} {w : BitVec 56} {l : LastId} {i : Instr}
    (hl : s.dev.strandLast c k = some l) (hop : op = 0x60 ∨ op = 0x61 ∨ op = 0x62) (h : Dispatches s c k op w)
    (hexec : exec i s = engineOp op (fun _ _ => []) (fun _ _ => Plan.nil) c k w s) :
    Yields i s fun t => EntersQueue c k op w l (fun _ => True) s t ∧
      (∀ y : Op, y ∈ t.dev.ops → y.id = s.dev.nextOp → y ∉ s.dev.ops → y.inQueue c (.hod (wHod w)) = true) ∧
      (t.dev.core c).hods = (s.dev.core c).hods ∧ (t.dev.core c).sds = (s.dev.core c).sds ∧ (t.dev.core c).sdescs = (s.dev.core c).sdescs := by
  have ho : op < 256 := by omega
  obtain ⟨st, ta, hcore⟩ := entered_core (s := s) (c := c) (k := k) (w := w) (l := l) (p := Plan.nil) ho
  refine yields_entersQueue hl ho h hexec rfl rfl trivial ⟨fun y hy _ hnew => ?_, by rw [hcore], by rw [hcore], by rw [hcore]⟩
  dsimp only at hy
  rw [entered_ops ho (by omega)] at hy
  obtain rfl := List.mem_singleton.mp ((List.mem_append.mp hy).resolve_left hnew)
  have hcode : (BitVec.ofNat 8 op = 0x60 ∨ BitVec.ofNat 8 op = 0x61) ∨ BitVec.ofNat 8 op = 0x62 := by
    rcases hop with rfl | rfl | rfl <;> decide
  simpa [Op.inQueue, Op.enters, Dev.newOp, State.originOf] using hcode

/-- Settles O25: `yields_stream` says what each of the three does. -/
theorem streamInstructionsDispatch : Obligations.StreamInstructionsDispatch := by
  intro s c k w l hl
  exact ⟨fun h => yields_stream hl (by decide) h rfl, fun h => yields_stream hl (by decide) h rfl, fun h => yields_stream hl (by decide) h rfl⟩

end Sys2Proof.Machine
end

section
/-!
PROOFS. Tallies and waits at dispatch (R192 to R196, R276).
-/

namespace Sys2Proof.Machine

/-! What tallies read as (R149, R151). -/

theorem commit_tally_inc (d : Dev) (c : CoreId) (k : StrandId) (w : BitVec 56) (i : TallyId) :
    (((d.commit c k w).core c).tallies.get i).inc = ((d.core c).tallies.get i).inc := by
  obtain ⟨n, h⟩ := commit_tally d c k w i
  rw [h]

theorem commit_tally_tset (d : Dev) (c : CoreId) (k : StrandId) (w : BitVec 56) (i : TallyId) :
    (((d.commit c k w).core c).tallies.get i).tset = ((d.core c).tallies.get i).tset := by
  obtain ⟨n, h⟩ := commit_tally d c k w i
  rw [h]

theorem updTally_tally (d : Dev) (c : CoreId) (t i : TallyId) (f : Tally → Tally) :
    ((d.updTally c t f).core c).tallies.get i = if i = t then f ((d.core c).tallies.get t) else (d.core c).tallies.get i := by
  simp only [Dev.updTally, core_updCore_same, vmap_get]

theorem post_tset (d : Dev) (o : Origin) (i : TallyId) :
    (((d.post o).core o.core).tallies.get i).tset = ((d.core o.core).tallies.get i).tset := by
  unfold Dev.post
  dsimp only
  split
  · rw [Dev.tallyInc, updTally_tally]
    split
    · rw [‹i = _›]
    · rfl
  · rfl

theorem MovesOn.updTally {s : State} {c : CoreId} {k : StrandId} {d : Dev} (h : MovesOn c k s { s with dev := d }) (t : TallyId)
    (f : Tally → Tally) : MovesOn c k s { s with dev := d.updTally c t f } :=
  h.of_same (fun _ => rfl) rfl (fun _ hx => (core_updCore ..).trans (if_neg hx)) fun _ => strand_updCore _ _ _ _ _ fun _ => rfl

section
variable {s : State} {c : CoreId} {k : StrandId} {op : Nat} {w : BitVec 56} {l : LastId}

/-- The post of a dispatch that the committed last may make (R149). -/
theorem post_originOf_inc {d : Dev} (hmay : d.mayPost l = s.dev.mayPost l) (i : TallyId) :
    (((d.post (s.originOf c k op w l)).core c).tallies.get i).inc = ((d.core c).tallies.get i).inc ++
      if wPen w = true ∧ s.dev.mayPost l = true ∧ wPtal w = i then [(⟨1, some (s.originOf c k op w l)⟩ : Incr)] else [] := by
  have hinsn : (s.originOf c k op w l).insn.setWidth 56 = w := mkInsn_setWidth op w
  have hlast : (s.originOf c k op w l).last = l := rfl
  have hcore : (s.originOf c k op w l).core = c := rfl
  rw [post_inc, hinsn, hlast, hcore, hmay]
  simp only [true_and]

end

/-- Settles O26: each instruction changes its tally as its equation says and then posts. -/
theorem tallyInstructions : Obligations.TallyInstructions := by
  intro s c k w l hl
  have hmoves := movesOn_commit s c k w
  have hmay : (s.dev.commit c k w).mayPost l = s.dev.mayPost l := commit_mayPost ..
  refine ⟨fun h => ?_, fun h => ?_, fun h => ?_⟩
  · refine yields_of_ok hl (by decide) h rfl rfl ⟨(hmoves.updTally _ _).post _ rfl, fun i => ?_⟩
    dsimp only
    rw [post_originOf_inc (hmay ▸ rfl), Dev.tallyInc, updTally_tally]
    split
    · rw [‹i = _›, commit_tally_inc]
    · rw [commit_tally_inc, List.append_nil]
  · refine yields_of_ok hl (by decide) h rfl rfl ⟨(hmoves.updTally _ _).post _ rfl, fun i => ?_, ?_, fun i hi => ?_⟩
    · dsimp only
      rw [post_originOf_inc (hmay ▸ rfl), updTally_tally]
      split
      · rw [‹i = _›, commit_tally_inc]
      · rw [commit_tally_inc]
    · exact (post_tset ..).trans (congrArg Tally.tset ((updTally_tally ..).trans (if_pos rfl)))
    · exact (post_tset ..).trans ((congrArg Tally.tset ((updTally_tally ..).trans (if_neg hi))).trans (commit_tally_tset ..))
  · refine yields_of_ok hl (by decide) h rfl rfl ⟨hmoves.post _ rfl, fun i => ?_⟩
    dsimp only
    rw [post_originOf_inc hmay, commit_tally_inc]

/-! Arrivals at a keystone (R276). -/

section
variable (d : Dev) (n : KeyId)

theorem ksReport_eq : ∃ h, d.ksReport n = { d with hub := h } := by
  unfold Dev.ksReport
  dsimp only
  split
  · exact ⟨_, rfl⟩
  · exact ⟨_, rfl⟩

theorem ksReport_key : ((d.ksReport n).key n).arrived = (d.key n).arrived ∧ ((d.ksReport n).key n).next = (d.key n).next := by
  unfold Dev.ksReport
  dsimp only
  split
  · exact ⟨rfl, rfl⟩
  · rw [key_updKey, if_pos rfl]
    exact ⟨rfl, rfl⟩

variable (f : Keystone → Keystone)

theorem ksArrive_eq : ∃ h, d.ksArrive n f = { d with hub := h } := by
  unfold Dev.ksArrive
  dsimp only
  split
  · obtain ⟨h, hreport⟩ := ksReport_eq (d.updKey n f) n
    exact ⟨h, hreport⟩
  · exact ⟨_, rfl⟩

theorem ksArrive_key : ((d.ksArrive n f).key n).arrived = (f (d.key n)).arrived ∧ ((d.ksArrive n f).key n).next = (f (d.key n)).next := by
  have hkey : (d.updKey n f).key n = f (d.key n) := (key_updKey ..).trans (if_pos rfl)
  unfold Dev.ksArrive
  dsimp only
  split
  · rw [← hkey]
    exact ksReport_key ..
  · rw [hkey]
    exact ⟨rfl, rfl⟩

variable (c : CoreId) (k : StrandId)

theorem ksLocalArrival_eq : ∃ h, d.ksLocalArrival n c k = { d with hub := h } := by
  unfold Dev.ksLocalArrival
  dsimp only
  split
  · exact ⟨_, rfl⟩
  · split
    · exact ksArrive_eq ..
    · exact ⟨_, rfl⟩

variable {d n}

/-- A round that lacks local arrivals takes one. -/
theorem ksLocalArrival_current (hst : (d.key n).st < 2) (h : (d.key n).arrived < ksLocal (d.ksCfg n)) :
    ((d.ksLocalArrival n c k).key n).arrived = (d.key n).arrived + 1 ∧ ((d.ksLocalArrival n c k).key n).next = (d.key n).next := by
  rw [Dev.ksLocalArrival, if_neg (by intro h3; simp [h3] at hst), if_pos (by simp [hst, h])]
  exact ksArrive_key ..

/-- A round that has its local arrivals leaves one to the next. -/
theorem ksLocalArrival_next (hst : (d.key n).st < 2) (h : ksLocal (d.ksCfg n) ≤ (d.key n).arrived) :
    ((d.ksLocalArrival n c k).key n).arrived = (d.key n).arrived ∧ ((d.ksLocalArrival n c k).key n).next = (d.key n).next + 1 := by
  rw [Dev.ksLocalArrival, if_neg (by intro h3; simp [h3] at hst), if_neg (by simp [h]), key_updKey, if_pos rfl]
  exact ⟨rfl, rfl⟩

end

section
variable {s : State} {c : CoreId} {k : StrandId} {w : BitVec 56} {l : LastId}

/-- The strand of a KEYSTONE, with the wait that it registers (R194). -/
def Dev.waits (d : Dev) (c : CoreId) (k : StrandId) (n : KeyId) (h : Held) : Dev :=
  d.updStrand c k fun t => { t with keys := t.keys ++ [(n, h)] }

/-- KEYSTONE of an enabled keystone of its last that it does not wait for yet (R194). -/
theorem yields_keystone {P : State → Prop} (hl : s.dev.strandLast c k = some l) (h : Dispatches s c k 0x6A w)
    (hen : bitOf (s.dev.ksCfg (finOf 63 (wImm16 w))) 3 = true) (hlast : fld (s.dev.ksCfg (finOf 63 (wImm16 w))) 0 3 = l.val)
    (hfree : ((s.dev.strand c k).keys.any fun x => x.1 == finOf 63 (wImm16 w)) = false)
    (hP : P { s with
      dev := Dev.ksLocalArrival ((s.dev.commit c k w).waits c k (finOf 63 (wImm16 w)) ⟨0, (s.dev.strand c k).pc, 0x6A, w⟩)
        (finOf 63 (wImm16 w)) c k }) :
    Yields (.keystone c k w) s P := by
  refine yields_of_ok hl (by decide) h rfl ?_ hP
  have hkeys : ((s.dev.commit c k w).strand c k).keys = (s.dev.strand c k).keys := by rw [commit_strand_same]
  have hown : ksLast (s.dev.ksCfg (finOf 63 (wImm16 w))) = l.val := hlast
  simp only [commit_ksCfg, hkeys, hen, hfree, State.originOf, hown]
  simp [Dev.waits]

/-- KEYSTONE of another keystone, and a second one of its number (R194). -/
theorem yields_keystone_fault (hl : s.dev.strandLast c k = some l) (h : Dispatches s c k 0x6A w)
    (hbad : bitOf (s.dev.ksCfg (finOf 63 (wImm16 w))) 3 = false ∨ fld (s.dev.ksCfg (finOf 63 (wImm16 w))) 0 3 ≠ l.val ∨
      ((s.dev.strand c k).keys.any fun x => x.1 == finOf 63 (wImm16 w)) = true) :
    Yields (.keystone c k w) s fun t => t.dev = s.dev.fault 2 (s.originOf c k 0x6A w l) 0 := by
  refine yields_of_fault hl (by decide) h rfl ?_
  have hkeys : ((s.dev.commit c k w).strand c k).keys = (s.dev.strand c k).keys := by rw [commit_strand_same]
  simp only [commit_ksCfg, hkeys, State.originOf, ksLast]
  refine if_pos ?_
  rcases hbad with hoff | hother | htwice
  · simp [hoff]
  · simp [hother]
  · simp [htwice]

end

/-- Settles O27: the waits of a strand are noted on the committed strand, and an arrival changes the hub only. -/
theorem waitInstructions : Obligations.WaitInstructions := by
  intro s c k w l hl
  have hmoves := movesOn_commit s c k w
  have hftwait : ((s.dev.commit c k w).strand c k).ftwait = (s.dev.strand c k).ftwait := by rw [commit_strand_same]
  refine ⟨fun h hen hlast hfree hst => ?_, fun h hbad => yields_keystone_fault hl h hbad, fun h hnone => ?_, fun h hsome => ?_⟩
  · have hwaits : MovesOn c k s { s with dev := (s.dev.commit c k w).waits c k (finOf 63 (wImm16 w)) ⟨0, (s.dev.strand c k).pc, 0x6A, w⟩ } :=
      hmoves.updStrand (fun _ => rfl) (fun _ => rfl) fun _ => rfl
    have hkey : ((s.dev.commit c k w).waits c k (finOf 63 (wImm16 w)) ⟨0, (s.dev.strand c k).pc, 0x6A, w⟩).key (finOf 63 (wImm16 w)) =
        s.dev.key (finOf 63 (wImm16 w)) := congrArg (fun x : Hub => x.keystones.get (finOf 63 (wImm16 w))) (commit_hub ..)
    have hcfg : ((s.dev.commit c k w).waits c k (finOf 63 (wImm16 w)) ⟨0, (s.dev.strand c k).pc, 0x6A, w⟩).ksCfg (finOf 63 (wImm16 w)) =
        s.dev.ksCfg (finOf 63 (wImm16 w)) := commit_ksCfg ..
    have hkeys : (((s.dev.commit c k w).waits c k (finOf 63 (wImm16 w)) ⟨0, (s.dev.strand c k).pc, 0x6A, w⟩).strand c k).keys =
        (s.dev.strand c k).keys ++ [(finOf 63 (wImm16 w), ⟨0, (s.dev.strand c k).pc, 0x6A, w⟩)] := by
      rw [Dev.waits, strand_updStrand_same, commit_strand_same]
    refine yields_keystone hl h hen hlast hfree ?_
    generalize (s.dev.commit c k w).waits c k _ _ = d at hwaits hkey hcfg hkeys
    obtain ⟨hub, harrival⟩ := ksLocalArrival_eq d (finOf 63 (wImm16 w)) c k
    rw [← hkey] at hst ⊢
    rw [← hcfg]
    refine ⟨?_, ?_, fun hlt => ksLocalArrival_current c k hst hlt, fun hge => ksLocalArrival_next c k hst hge⟩
    · rw [harrival]
      exact hwaits.of_same (fun _ => rfl) rfl (fun _ _ => rfl) fun _ => rfl
    · rw [harrival]
      exact hkeys
  · by_cases hdue : ((s.dev.strand c k).rdS (wTra w)).toNat ≤ s.dev.hub.ftime.ft.toNat
    · refine yields_of_ok hl (by decide) h rfl ?_ (e := (s.dev.commit c k w).post (s.originOf c k 0x6B w l)) ⟨hmoves.post _ rfl, ?_⟩
      · simp [hftwait, hnone, hdue]
      · rw [if_pos hdue]
        exact (congrArg Strand.ftwait (post_strand ..)).trans (hftwait.trans hnone)
    · refine yields_of_ok hl (by decide) h rfl ?_ (e := (s.dev.commit c k w).updStrand c k fun t =>
        { t with ftwait := some ⟨(s.dev.strand c k).rdS (wTra w), (s.dev.strand c k).pc, 0x6B, w⟩ })
        ⟨hmoves.updStrand (fun _ => rfl) (fun _ => rfl) fun _ => rfl, ?_⟩
      · simp [hftwait, hnone, hdue, State.originOf]
      · rw [if_neg hdue]
        simp only [strand_updStrand_same]
  · refine yields_of_fault hl (by decide) h rfl (if_pos ?_)
    rw [hftwait]
    exact Option.isSome_iff_ne_none.mpr hsome

end Sys2Proof.Machine
end

section
/-!
PROOFS. CSAVE and CREST, FCLR and MXCLR at dispatch (R199 to R202, R301).
-/

namespace Sys2Proof.Machine

/-! Saves and restores (R199, R200). -/

theorem saveAddrOk_iff {d : Dev} {v : Word} : d.saveAddrOk v = true ↔ v.toNat % 0x10000 = 0 ∧ v.toNat < d.hbmSize := by
  simp [Dev.saveAddrOk]

@[simp] theorem commit_saveAddrOk (d : Dev) (c : CoreId) (k : StrandId) (w : BitVec 56) (v : Word) :
    (d.commit c k w).saveAddrOk v = d.saveAddrOk v := by
  simp only [Dev.saveAddrOk, commit_hbmSize]

theorem wCode_mod_two (w : BitVec 56) : wCode w % 2 = wFld w 0 1 := by
  simp only [wCode, wFld]
  omega

section
variable {s : State} {c : CoreId} {k : StrandId} {w : BitVec 56} {l : LastId}

/-- A restore that begins changes no core and no byte of memory. -/
theorem beginRestore_keeps (d : Dev) (r : Restoring) : (d.beginRestore r).cores = d.cores ∧ ∀ a, (d.beginRestore r).byte a = d.byte a := by
  obtain ⟨⟨rg, nw, ds, rc, hrest⟩, -⟩ := beginRestore_stirs d r
  have hcores : (d.beginRestore r).cores = d.cores := by rw [hrest]; rfl
  have hmem : (d.beginRestore r).mem = d.mem := by rw [hrest]; rfl
  have hfills : (d.beginRestore r).fills = d.fills := by rw [hrest]; rfl
  exact ⟨hcores, fun a => by rw [Dev.byte, hmem, hfills, Dev.byte]⟩

/-- CSAVE of an address in HBM begins the pause of its last (R199). -/
theorem csave_pauses (hl : s.dev.strandLast c k = some l) (h : Dispatches s c k 0x76 w)
    (hgood : s.dev.saveAddrOk ((s.dev.strand c k).rdS (wYra w)) = true) : Yields (.csave c k w) s fun t => MovesOn c k s t ∧
      t.dev.last l = { s.dev.last l with
        pausing := some ⟨some ((s.dev.strand c k).rdS (wYra w)).toNat,
          wFld w 0 1 == 1 && ((s.dev.last l).pausing.bind fun p => p.asker).isNone, (s.dev.last l).pausing.bind fun p => p.asker,
          some (c, k, (s.dev.strand c k).pc, w), false, 0, s.dev.cycle, true⟩ } ∧
      ∀ y, y ≠ l → t.dev.last y = s.dev.last y := by
  have hmoves : ∀ q, MovesOn c k s { s with dev := (s.dev.commit c k w).startPause l q } := fun q =>
    (movesOn_commit s c k w).of_same (fun _ => rfl) rfl (fun _ _ => rfl) fun _ => rfl
  refine yields_of_ok hl (by decide) h rfl (if_neg (by simp [hgood])) ⟨hmoves _, ?_, fun y hy => ?_⟩
  · refine ((startPause_last ..).trans (if_pos rfl)).trans ?_
    simp only [commit_last, commit_rdS, wCode_mod_two, State.originOf, commit_cycle]
  · exact ((startPause_last ..).trans (if_neg hy)).trans (commit_last ..)

/-- CREST of an address in HBM begins a restore from it (R200, R301). -/
theorem crest_restores (hl : s.dev.strandLast c k = some l) (h : Dispatches s c k 0x77 w)
    (hgood : s.dev.saveAddrOk ((s.dev.strand c k).rdS (wYra w)) = true) : Yields (.crest c k w) s fun t =>
      t.dev.aoc.restoring = s.dev.aoc.restoring ++
        [⟨((s.dev.strand c k).rdS (wYra w)).toNat, none, some (c, k, (s.dev.strand c k).pc, w), .last (last_of (wFld w 0 16))⟩] ∧
      t.dev.regFld (aCkp 8) 0 3 = 5 ∧ (∀ a, t.dev.byte a = s.dev.byte a) ∧ t.dev.lasts = s.dev.lasts ∧
      (∀ q, (t.dev.strand c k).rdS q = (s.dev.strand c k).rdS q) ∧ (∀ q, (t.dev.strand c k).rdP q = (s.dev.strand c k).rdP q) ∧
      (t.dev.strand c k).pc = (s.dev.strand c k).pc + 8 := by
  have hmoves := movesOn_commit s c k w
  refine yields_of_ok hl (by decide) h rfl ((if_neg (by simp [hgood])).trans (congrArg Disp.ok (by rw [commit_rdS]))) ?_
  generalize hr : (⟨((s.dev.strand c k).rdS (wYra w)).toNat, none, some (c, k, (s.originOf c k 0x77 w l).pc, w),
    .last (last_of (wCode w))⟩ : Restoring) = r
  obtain ⟨-, hlasts, hstate, hrestoring⟩ := beginRestore_begins (s.dev.commit c k w) r
  obtain ⟨hcores, hbyte⟩ := beginRestore_keeps (s.dev.commit c k w) r
  have hstrand : ((s.dev.commit c k w).beginRestore r).strand c k = (s.dev.commit c k w).strand c k := by
    simp only [Dev.strand, Dev.core, hcores]
  refine ⟨?_, hstate, fun a => (hbyte a).trans (hmoves.byte a), hlasts.trans (commit_lasts ..), ?_⟩
  · rw [hrestoring, commit_aoc, ← hr]
    rfl
  · dsimp only
    rw [hstrand]
    exact ⟨hmoves.scalars, hmoves.preds, hmoves.pc⟩

end

/-- Settles O30: a good address begins the pause or the restore on the committed device, any other is an address fault. -/
theorem saveInstructions : Obligations.SaveInstructions := by
  intro s c k w l hl
  refine ⟨fun h hgood => csave_pauses hl h (saveAddrOk_iff.mpr hgood), fun h hgood => crest_restores hl h (saveAddrOk_iff.mpr hgood),
    fun h hbad => ?_, fun h hbad => ?_⟩
  · have hrefused := Bool.eq_false_iff.mpr (mt saveAddrOk_iff.mp hbad)
    exact yields_of_fault hl (by decide) h rfl ((if_pos (by simp [hrefused])).trans (by rw [commit_rdS]))
  · have hrefused := Bool.eq_false_iff.mpr (mt saveAddrOk_iff.mp hbad)
    exact yields_of_fault hl (by decide) h rfl ((if_pos (by simp [hrefused])).trans (by rw [commit_rdS]))

/-! Flags and slots (R36, R201, R202). -/

/-- FMT_FLAGS is written to clear (R201, Table 1.14). -/
theorem regInfo_aFlags (c : CoreId) (k : StrandId) : regInfo (aFlags c k) = ⟨0, 0x1F1F1F1F, [], 0⟩ := by
  have h := regInfo_corePage c (j := 1) (o := 8 * k.val) (by decide) (by omega)
  rw [aFlags, aFmt, h]
  have hk : 8 * k.val = 0 ∨ 8 * k.val = 8 := by omega
  rcases hk with hk | hk <;> rw [hk] <;> rfl

/-- Bits outside a mask do not show through it. -/
theorem and_mask_of_outside (x p q m : Word) : ((x &&& ~~~(p &&& ~~~m)) ||| (q &&& p &&& ~~~m)) &&& m = x &&& m := by
  ext i hi
  simp only [BitVec.getElem_and, BitVec.getElem_or, BitVec.getElem_not]
  cases m[i] <;> simp

/-- Clearing under a mask is clearing what the mask shows. -/
theorem and_mask_of_clear (x v y m : Word) : x &&& ~~~(v &&& m &&& y) &&& m = x &&& m &&& ~~~(v &&& y) := by
  ext i hi
  simp only [BitVec.getElem_and, BitVec.getElem_not]
  cases m[i] <;> simp

/-- A write to a register whose bits are cleared by ones: a bit that was set in this cycle stays (R10). -/
theorem swWrite_w1c (d : Dev) {a : Nat} {m n : Word} (h : regInfo a = ⟨0, m, [], n⟩) (v : Word) :
    ∃ x, d.swWrite a v = d.setReg a x ∧ x &&& m = d.reg a &&& m &&&
      ~~~(v &&& ~~~((d.now.sets.filter fun e => e.addr == a).foldl (fun m e => m ||| e.bits) 0)) := by
  have hall : d.reg a &&& ~~~(0 : Word) = d.reg a := BitVec.and_allOnes
  have hclear : ∀ y : Word, y ||| (v &&& 0) = y := fun y => by simp
  unfold Dev.swWrite
  rw [h]
  refine ⟨_, rfl, ?_⟩
  dsimp only [List.foldl_nil]
  simp only [hall, hclear]
  split
  · rw [and_mask_of_outside, and_mask_of_clear]
  · rw [and_mask_of_clear]

section
variable {s : State} {c : CoreId} {k : StrandId} {w : BitVec 56} {l : LastId}

theorem noteFlags_eq (d : Dev) (a : Nat) : ∃ fl, d.noteFlags a = { d with now := { d.now with flags := fl } } := by
  unfold Dev.noteFlags
  split
  · exact ⟨_, rfl⟩
  · exact ⟨_, rfl⟩

/-- What FCLR makes of the flags of its strand (R36, R201). -/
theorem clearFlags_eq (d : Dev) (c : CoreId) (k : StrandId) (mask : Nat) : ∃ x fl,
    d.clearFlags c k mask = { d with now := { d.now with flags := fl } }.setReg (aFlags c k) x ∧
    x &&& 0x1F1F1F1F = d.reg (aFlags c k) &&& 0x1F1F1F1F &&&
      ~~~(BitVec.ofNat 64 mask &&& ~~~((d.now.sets.filter fun e => e.addr == aFlags c k).foldl (fun m e => m ||| e.bits) 0)) := by
  obtain ⟨fl, hnote⟩ := noteFlags_eq d (aFlags c k)
  obtain ⟨x, hwrite, hx⟩ := swWrite_w1c (d.noteFlags (aFlags c k)) (regInfo_aFlags c k) (BitVec.ofNat 64 mask)
  rw [hnote] at hwrite hx
  exact ⟨x, fl, (congrArg (fun e : Dev => e.swWrite (aFlags c k) (BitVec.ofNat 64 mask)) hnote).trans hwrite, hx⟩

theorem MovesOn.butReg {d : Dev} (h : MovesOn c k s { s with dev := d }) (a : Nat) (x : Word) :
    MovesOnBut a c k s { s with dev := d.setReg a x } where
  pending := rfl
  byte := h.byte
  regs b hcount hb := (reg_setReg_other _ _ hb).trans (h.regs b hcount)
  cores := h.cores
  other := h.other
  scalars := h.scalars
  preds := h.preds
  pc := h.pc

theorem post_reg (d : Dev) (o : Origin) (a : Nat) : (d.post o).reg a = d.reg a := by
  obtain ⟨cs, h⟩ := post_eq d o
  rw [h]
  rfl

theorem MovesOnBut.post {d : Dev} {a : Nat} (h : MovesOnBut a c k s { s with dev := d }) (o : Origin) (ho : o.core = c) :
    MovesOnBut a c k s { s with dev := d.post o } := by
  subst ho
  refine ⟨h.pending, fun b => (post_byte d o b).trans (h.byte b), fun b hcount hb => (post_reg d o b).trans (h.regs b hcount hb),
    fun y hy => (post_core_other d o hy).trans (h.cores y hy), (post_strand d o ..).trans h.other, fun q => ?_, fun q => ?_, ?_⟩
  · exact (congrArg (fun t : Strand => t.rdS q) (post_strand d o ..)).trans (h.scalars q)
  · exact (congrArg (fun t : Strand => t.rdP q) (post_strand d o ..)).trans (h.preds q)
  · exact (congrArg Strand.pc (post_strand d o ..)).trans h.pc

theorem MovesOn.clearSlots {d : Dev} (h : MovesOn c k s { s with dev := d }) (mask : Nat) :
    MovesOn c k s { s with dev := d.clearSlots c mask } :=
  List.foldlRecOn (motive := fun e => MovesOn c k s { s with dev := e }) _ _ h fun e he n _ => by
    split
    · exact he.of_same (fun _ => rfl) rfl (fun _ hx => (core_updCore ..).trans (if_neg hx)) fun _ => strand_updCore _ _ _ _ _ fun _ => rfl
    · exact he

end

/-- Settles O31: FCLR is one masked write of FMT_FLAGS, MXCLR a change of slots, and the post that follows touches neither. -/
theorem clearInstructions : Obligations.ClearInstructions := by
  intro s c k w l hl
  have hmoves := movesOn_commit s c k w
  refine ⟨fun h => ?_, fun h => ?_⟩
  · obtain ⟨x, fl, hclear, hx⟩ := clearFlags_eq (s.dev.commit c k w) c k (wImm w)
    rw [commit_flagsReg, commit_sets] at hx
    refine yields_of_ok hl (by decide) h rfl (congrArg (fun e : Dev => Disp.ok (e.post (s.originOf c k 0x79 w l))) hclear) ?_
    rw [← hx]
    have hnoted : MovesOn c k s { s with dev := { s.dev.commit c k w with now := { (s.dev.commit c k w).now with flags := fl } } } :=
      hmoves.of_same (fun _ => rfl) rfl (fun _ _ => rfl) fun _ => rfl
    refine ⟨(hnoted.butReg _ x).post _ rfl, congrArg (· &&& 0x1F1F1F1F) ((post_reg ..).trans (reg_setReg_same ..))⟩
  · refine yields_of_ok hl (by decide) h rfl rfl ⟨(hmoves.clearSlots _).post _ rfl, fun n => ?_⟩
    obtain ⟨ts, hpost⟩ := post_core ((s.dev.commit c k w).clearSlots c (wImm w)) (s.originOf c k 0x7A w l) c
    have hmax : ((s.dev.commit c k w).core c).maxabs = (s.dev.core c).maxabs := by rw [commit_core]
    rw [hpost]
    dsimp only
    rw [clearSlots_maxabs, commit_gathered, hmax]
    rfl

end Sys2Proof.Machine
end
